-- ==== Sys2Proof/Word.lean ====
section
/-! DEFINITION. The plainest types of the HC448 model: bytes, the four number ranges of the manual's
conventions (fields, slots, elements, lines), line levels, and fixed-size tables. -/

namespace Sys2Proof

/-- One byte of a frame, an image or an operand. -/
abbrev Byte := BitVec 8

/-- A playing field. A is 0, B is 1, C is 2 and D is 3 (00_scope.md, Conventions). -/
abbrev FieldId := Fin 4

/-- A robot slot, 0 to 31 (00_scope.md, Conventions). -/
abbrev SlotId := Fin 32

/-- A field element, 0 to 47 (00_scope.md, Conventions). -/
abbrev ElementId := Fin 48

/-- A referee line, 0 to 15 (00_scope.md, Conventions). -/
abbrev LineId := Fin 16

/-- An event kind of an element, 0 to 3 (section 7.1). -/
abbrev EventKind := Fin 4

/-- The level of a pin or the filtered level of a line (section 4.1). -/
inductive Level where
  | low
  | high
  deriving DecidableEq, Repr

/-- A table with a fixed number of places. -/
abbrev Table (n : Nat) (α : Type) := Vector α n

/-- The entry of a table at a place. -/
def Table.at {n : Nat} {α : Type} (t : Table n α) (i : Fin n) : α := t[i.val]

/-- The table with one place written. -/
def Table.put {n : Nat} {α : Type} (t : Table n α) (i : Fin n) (x : α) : Table n α :=
  t.set i.val x i.isLt

/-- The table with the same entry at every place. -/
def Table.fill (n : Nat) {α : Type} (x : α) : Table n α := Vector.replicate n x

/-- All numbers below `n`, in ascending order. -/
def allOf (n : Nat) : List (Fin n) := List.finRange n

end Sys2Proof
end

