-- ==== Sys2Proof/Syntax.lean ====
section
/-! DEFINITION. The commands of the HC448 model: one constructor for each row of spec/opcode_table.json,
in the table's order. Each command is one whole, indivisible step of the part (spec/95_what_each_step_holds.md). -/

namespace Sys2Proof

/-- One character of the element bus as the part's receiver samples it: its data byte, its mark bit and
whether its stop bit was high (R119). -/
structure BusChar where
  data : Byte
  mark : Bool
  stop : Bool
  deriving DecidableEq, Repr

/-- A falling edge on the pair while the part listens: `bits` are the levels sampled at the middle of the eleven bit times it
begins, the start bit in bit 0, and `rested` tells whether the pair was high for at least one bit time since the sample of the
last stop bit (R2, R119). -/
structure BusEdge where
  rested : Bool
  bits : BitVec 11
  deriving DecidableEq, Repr

/-- A falling edge on the arena link's receive line: `bits` are the levels sampled at the middle of the ten bit times it
begins, the start bit in bit 0, and `rested` tells whether the line was high for at least one bit time since the sample of
the last stop bit (R2). -/
structure LinkEdge where
  rested : Bool
  bits : BitVec 10
  deriving DecidableEq, Repr

/-- What ANSWER_CHARACTER tells of an element's answer (R123): the start bit of a falling edge has been sampled at its
middle, at the level `start`; or all eleven bits of one have been sampled. -/
inductive AnswerEvent where
  | begins (rested : Bool) (start : Level)
  | completes (edge : BusEdge)
  deriving DecidableEq, Repr

/-- Whether the pair had rested before the falling edge of an event. -/
def AnswerEvent.rested : AnswerEvent → Bool
  | .begins rested _ => rested
  | .completes edge => edge.rested

/-- The commands. A row that takes a frame from the receive store, or that the transmitter arbiter takes,
has no operand: it acts on the head of the store or of the queue that the state holds. A row that a
character makes has that character as its operand; a row that a countdown makes names the field, slot or
element whose countdown it is. -/
inductive Instr where
  /-- DEVICE_RESET (R191). `rstn` is the level of RSTN that the step leaves: LOW while the pin is held and the part stays
  in reset, HIGH when the reset ends and STARTING begins, as the row itself has it. -/
  | deviceReset (rstn : Level := .high)
  /-- END_OF_STARTING (R196). `image` is what the settings memory supplies from the address after the bytes
  already in the image buffer; beyond it SPDI rests at `fill`, read as 0xFF when true and 0x00 when false (R192). -/
  | endOfStarting (image : List Byte) (fill : Bool)
  /-- FRAME_COMPLETE (R5). `check` is the second check character. -/
  | frameComplete (check : Byte)
  /-- FRAMING (R6). -/
  | framing
  /-- OVERLONG (R7). `length` is the length byte. -/
  | overlong (length : Byte)
  /-- TRUNCATED (R8). -/
  | truncated
  /-- STARTING_FRAME (R28). -/
  | startingFrame
  /-- DROPPED_FRAME (R29). -/
  | droppedFrame
  /-- DRIVE (R36). -/
  | drive
  /-- TELL (R34). -/
  | tell
  /-- CLAIM (R89). -/
  | claim
  /-- RELEASE (R97). -/
  | release
  /-- UNKNOWN_COMMAND (R179). -/
  | unknownCommand
  /-- COMMISSION (R176). -/
  | commission
  /-- DECOMMISSION (R176). -/
  | decommission
  /-- RESTART (R177). -/
  | restart
  /-- LOAD_STATION (R21). -/
  | loadStation
  /-- CLEAR_STATION (R22). -/
  | clearStation
  /-- LOAD_SLOT (R24). -/
  | loadSlot
  /-- CLEAR_SLOT (R25). -/
  | clearSlot
  /-- LOAD_MATCH (R56). -/
  | loadMatch
  /-- START (R59). -/
  | start
  /-- STOP (R60). -/
  | stop
  /-- RESUME (R63). -/
  | resume
  /-- ABORT (R66). -/
  | abort
  /-- COMMIT (R67). -/
  | commit
  /-- RESET_MATCH (R69). -/
  | resetMatch
  /-- DISABLE_SLOT (R71). -/
  | disableSlot
  /-- BYPASS_SLOT (R71). -/
  | bypassSlot
  /-- LOAD_LINE (R83). -/
  | loadLine
  /-- CLEAR_LINE_FLAGS (R78). -/
  | clearLineFlags
  /-- LOAD_ELEMENT (R86). -/
  | loadElement
  /-- CLEAR_ELEMENT_ENTRY (R88). -/
  | clearElementEntry
  /-- CLEAR_ELEMENT_FAULT (R144). -/
  | clearElementFault
  /-- LOAD_SCORE_RULE (R149). -/
  | loadScoreRule
  /-- PENALTY (R161). -/
  | penalty
  /-- CORRECT (R162). -/
  | correct
  /-- SET_TIMING (R185). -/
  | setTiming
  /-- BUS_PAUSE (R145). -/
  | busPause
  /-- BUS_RESUME (R146). -/
  | busResume
  /-- READ (R182). -/
  | read
  /-- READ_NEXT (R183). -/
  | readNext
  /-- TAKE_BEACON (R169). -/
  | takeBeacon
  /-- TAKE_VERDICT (R15). -/
  | takeVerdict
  /-- TAKE_DRIVE (R39). -/
  | takeDrive
  /-- TAKE_REPLY (R16). -/
  | takeReply
  /-- TAKE_NOTICE (R188). -/
  | takeNotice
  /-- TAKE_TELL (R16). -/
  | takeTell
  /-- FRAME_SENT (R18). -/
  | frameSent
  /-- TRANSMITTER_FREE (R18). -/
  | transmitterFree
  /-- AUTO_EXPIRY (R50). -/
  | autoExpiry (f : FieldId)
  /-- PAUSE_EXPIRY (R51). -/
  | pauseExpiry (f : FieldId)
  /-- ENDGAME_BOUNDARY (R52). -/
  | endgameBoundary (f : FieldId)
  /-- MATCH_END_EXPIRY (R53). -/
  | matchEndExpiry (f : FieldId)
  /-- POST_GRACE_END (R54). -/
  | postGraceEnd (f : FieldId)
  /-- HOLD_EXPIRY (R96). -/
  | holdExpiry (e : ElementId)
  /-- BUDGET_TICK (R35). -/
  | budgetTick
  /-- SILENT_TIMEOUT (R41). -/
  | silentTimeout (i : SlotId)
  /-- BEACON_PERIOD (R167). -/
  | beaconPeriod
  /-- LINE_SAMPLE (R75). Bit n of `pins` is 1 when pin REFn is HIGH at the sample. -/
  | lineSample (pins : BitVec 16)
  /-- UNFILTERED_LINE_CHANGE (R76). Pin REFn takes the level `v`. -/
  | unfilteredLineChange (n : LineId) (v : Level)
  /-- ACTION_LIMIT (R135). -/
  | actionLimit (e : ElementId)
  /-- RESEND_COUNTDOWN (R132). -/
  | resendCountdown (e : ElementId)
  /-- ACTION_POLL_COUNTDOWN (R134). -/
  | actionPollCountdown (e : ElementId)
  /-- SENSOR_COUNTDOWN (R136). -/
  | sensorCountdown (e : ElementId)
  /-- PROBE_COUNTDOWN (R138). -/
  | probeCountdown
  /-- BUS_REST_END (R128). -/
  | busRestEnd
  /-- MASTER_FRAME_END (R119). -/
  | masterFrameEnd
  /-- ANSWER_WINDOW_EXPIRY (R123). -/
  | answerWindowExpiry
  /-- ANSWER_CUT_OFF (R123). -/
  | answerCutOff
  /-- PROBE_ANSWER (R142). `edge` is the check character that completes the answer. -/
  | probeAnswer (edge : BusEdge)
  /-- ACTUATE_ANSWER (R132). `edge` is the check character that completes the answer. -/
  | actuateAnswer (edge : BusEdge)
  /-- ACTION_POLL_ANSWER (R134). `edge` is the check character that completes the answer. -/
  | actionPollAnswer (edge : BusEdge)
  /-- SENSOR_POLL_ANSWER (R136). `edge` is the check character that completes the answer. -/
  | sensorPollAnswer (edge : BusEdge)
  /-- FETCH_ANSWER (R137). `edge` is the check character that completes the answer. -/
  | fetchAnswer (edge : BusEdge)
  /-- SAFE_ANSWER (R140). `edge` is the check character that completes the answer. -/
  | safeAnswer (edge : BusEdge)
  /-- CHARACTER_RECEIVED (R2, R3). `edge` is the falling edge that may begin a character. -/
  | characterReceived (edge : LinkEdge)
  /-- ANSWER_CHARACTER (R123). -/
  | answerCharacter (ev : AnswerEvent)
  deriving DecidableEq, Repr

end Sys2Proof
end

