-- ==== Sys2Proof/Decode.lean ====
section
/-! DEFINITION. The HC448 is a block: spec/opcode_table.json gives no row any bits (each row's list of fields is
empty and none has a fixed word), so no word spells a command. -/

namespace Sys2Proof

/-- The command that a word of `nbits` bits spells by the table's bits. The table gives no row bits, so no
word spells a command. -/
def decodeTableWord (_nbits _w : Nat) : Option Instr := none

end Sys2Proof
end

