-- ==== Sys2Proof/Config.lean ====
section
/-! DEFINITION. The fixed sizes, default settings and codes of the HC448 that its rules name as constants. The
manual leaves no value to an implementation; the open points of a run, the order in which events of one millisecond
are taken and the bytes of the settings memory, are the opaque `race` and `settingsByte` (notes/assumptions/6.md and
12.md). -/

namespace Sys2Proof.Config

/-- The lead byte of an arena-link frame (section 1.2). -/
def leadByte : Byte := 0xA5#8
/-- The largest payload length of a frame (R7). -/
def maxPayload : Nat := 48
/-- The receive store's capacity (R11). -/
def storeCapacity : Nat := 8
/-- The verdict queue's capacity (R15). -/
def verdictCapacity : Nat := 16
/-- The TELL queue's capacity (R16). -/
def tellCapacity : Nat := 16
/-- The reply queue's capacity (R16). -/
def replyCapacity : Nat := 4
/-- The notice queue's capacity (R188). -/
def noticeCapacity : Nat := 16
/-- The Station Table's capacity (R20). -/
def stationCapacity : Nat := 64
/-- The claim queue's capacity (R94). -/
def claimCapacity : Nat := 4
/-- The largest outstanding count (R103). -/
def maxOutstanding : Nat := 2
/-- The largest value of a 16-bit saturating counter (R10, R43, R158). -/
def maxCounter : Nat := 65535
/-- The largest value of the dropped count (R190). -/
def maxDropped : Nat := 255
/-- The own address from device reset to the end of STARTING, and the default (R12). -/
def defaultOwn : Byte := 0xF0#8
/-- The console address from device reset to the end of STARTING, and the default (R12). -/
def defaultConsole : Byte := 0xFA#8
/-- The broadcast address (section 1.5). -/
def broadcast : Byte := 0xFF#8
/-- The distance from a primary radio address to its twin (section 1.5). -/
def twinOffset : Byte := 0x40#8
/-- Milliseconds between budget ticks (R35). -/
def budgetPeriod : Nat := 10
/-- The misses that make an element ABSENT (R125). -/
def missLimit : Nat := 3
/-- The RETRY answers that end an actuation or fault an element (R132, R140). -/
def retryLimit : Nat := 4
/-- The head length of the settings image (section 11.7). -/
def imageHead : Nat := 38
/-- The length of one element entry of the settings image (section 11.7). -/
def imageEntry : Nat := 30
/-- The generator polynomial of the arena-link check and the image check (R4, R193). -/
def linkPolynomial : BitVec 16 := 0x1021#16
/-- The generator polynomial of the element-bus check (R121). -/
def busPolynomial : BitVec 8 := 0x07#8

/-- Which of several events of one moment is taken first, where the manual lets either come first (R48, R50, R54,
R82, R96, R135): a free value for each choice made. FREE VALUE (notes/assumptions/6.md). -/
opaque race : Nat → Nat

/-- The byte that the Settings Loader clocks in from SPDI when no command gives it: a free value for each byte, since
the settings memory is outside the part (R192). FREE VALUE (notes/assumptions/12.md). -/
opaque settingsByte : Nat → Byte

end Sys2Proof.Config
end

