-- ==== Sys2Proof/Machine/State.lean ====
section
/-! DEFINITION. The state of the HC448: every table, queue, counter, mark and record the manual gives the part,
as plain data, and its value after device reset. -/

namespace Sys2Proof.Machine

open Sys2Proof

/-! ### Named values -/

inductive Alliance where
  | east | west
  deriving DecidableEq, Repr

/-- Whose robots may claim an element (section 5.1). -/
inductive Owner where
  | east | west | shared
  deriving DecidableEq, Repr

/-- What an element does (section 5.1). Also a PROBE answer's class (R142). -/
inductive ElementKind where
  | sensing | actuating | both
  deriving DecidableEq, Repr

/-- How the next holder is chosen (R101, R102). -/
inductive Discipline where
  | fifo | alternate
  deriving DecidableEq, Repr

/-- The stages of a field's match (section 3.2). -/
inductive Phase where
  | idle | pre | auto | pause | teleop | endgame | post
  deriving DecidableEq, Repr

/-- The cause of a field's stop (R60). -/
inductive StopCause where
  | line (n : LineId)
  | hall (n : LineId)
  | console
  deriving DecidableEq, Repr

/-- Who the points of a score rule go to (R153). -/
inductive Beneficiary where
  | owner | opponent | holder | east | west
  deriving DecidableEq, Repr

/-- Why an element is FAULTED (section 6.4). -/
inductive FaultCause where
  | mismatch | fault | timeout | safeRefused
  deriving DecidableEq, Repr

/-- The part's view of an element (section 6.6). The fault cause exists only while FAULTED. -/
inductive Presence where
  | unknown | present | absent
  | faulted (cause : FaultCause)
  deriving DecidableEq, Repr

/-- The role of a referee line (R72). -/
inductive LineRole where
  | unused | stop | resumeKey | hallStop
  deriving DecidableEq, Repr

/-- The effective gate of a slot (R26). -/
inductive Gate where
  | off | auto | drive
  deriving DecidableEq, Repr

/-- Which radio of a robot was heard last (R31). -/
inductive Radio where
  | primary | twin
  deriving DecidableEq, Repr

/-- The role of a Station Table entry (R21). -/
inductive Role where
  | robot | driver
  deriving DecidableEq, Repr

/-- The arena-link rates (R1). -/
inductive ArenaRate where
  | kbit500 | mbit1 | mbit2
  deriving DecidableEq, Repr

/-- The nine frame kinds (R13). -/
inductive FrameKind where
  | drive | tell | claim | release | verdict | beacon | manage | reply | notice
  deriving DecidableEq, Repr

/-- The reasons a verdict may carry (R116, section 11.2). -/
inductive Reason where
  | byRobot | expired | phase | stopped | disabled | bypassed | aborted | silent
  | elementLost | elementDown | rejected | timeout | lost | retries | fault
  | gateOff | noElement | badAction | notYours | tooMany | cooling | queueFull | notHolding
  deriving DecidableEq, Repr

/-- The outcome of a verdict with its datum (R116). -/
inductive Outcome where
  | granted
  | queued (position : Nat)
  | acting
  | done (result : Byte)
  | failed (reason : Reason)
  | cancelled
  | released (reason : Reason)
  | withdrawn (reason : Reason)
  | refused (reason : Reason)
  deriving DecidableEq, Repr

/-- How an actuation ends (R115). -/
inductive ActEnd where
  | done (result : Byte)
  | failed (reason : Reason)
  | cancelled
  deriving DecidableEq, Repr

/-- The reasons a REFUSED reply may carry (section 9.2, section 11.5). -/
inductive ReplyReason where
  | unknownCommand | length | range | notCommissioned | fieldLive | state | duplicate | twinConflict
  | full | slotBusy | stopHeld | stopLatched | noEntry | noCursor | tableEnd
  deriving DecidableEq, Repr

/-- The outcome of a reply; DONE carries its data bytes, fixed when the reply is built (R180). -/
inductive ReplyOutcome where
  | done (data : List Byte)
  | wait
  | refused (reason : ReplyReason)
  deriving DecidableEq, Repr

/-- Who resumed a field (R64). -/
inductive ResumeSource where
  | console | combination
  deriving DecidableEq, Repr

/-- Why a report was not attributed (R150). -/
inductive Unattributed where
  | noRule | noHolder
  deriving DecidableEq, Repr

/-- The device mode (R175). -/
inductive DeviceMode where
  | starting | uncommissioned | commissioned
  deriving DecidableEq, Repr

/-- The bus state (R128). -/
inductive BusState where
  | startingIdle | running | pausing | paused
  deriving DecidableEq, Repr

/-- The tables READ names (section 9.4). -/
inductive ReadTable where
  | station | slot | element | rule | line | field | gate | link
  deriving DecidableEq, Repr

/-- What a transaction asks of an element; the manual tells action POLLs from sensor POLLs (R134, R136). -/
inductive BusCommand where
  | probe | actuate | actionPoll | sensorPoll | fetch | safe
  deriving DecidableEq, Repr

/-- The statuses of an answer (section 11.6). -/
inductive Status where
  | ok | hold | done | more | retry | reject | fault
  deriving DecidableEq, Repr

/-- How a transaction ends (R123). -/
inductive BusOutcome where
  | silent
  | garbled
  | answered (status : Status) (payload : List Byte)
  deriving DecidableEq, Repr

/-- The states of an actuation record (R111). -/
inductive ActState where
  | waitingBus | running | cancelling
  deriving DecidableEq, Repr

/-- Why the Traffic Gate drops a frame: the gate counter it counts under (R43). -/
inductive DropReason where
  | unknownSource | badKind | bypassed | misdirected | stale | throttled | tellFull | superseded
  deriving DecidableEq, Repr

/-- Why a frame on the receive line ended, other than by joining the store (section 1.3). -/
inductive LinkError where
  | check | framing | overlong | truncated | overrun
  deriving DecidableEq, Repr

/-- What the Traffic Gate makes of a frame's source and kind (R29, R30): dropped, for the Management Agent, from
a slot's robot by one of its radios, or from a slot's driver station. -/
inductive FrameClass where
  | dropped (reason : DropReason)
  | manage
  | robot (slot : SlotId) (radio : Radio)
  | driver (slot : SlotId)
  deriving DecidableEq, Repr

/-- The item the transmitter arbiter takes next (R17). -/
inductive TakeChoice where
  | beacon (f : FieldId)
  | verdict
  | drive (i : SlotId)
  | reply
  | notice
  | tell
  deriving DecidableEq, Repr

/-- A countdown of the element bus: one of an element's three, or the probe countdown (R127, R138). -/
inductive Countdown where
  | resend (e : ElementId)
  | actionPoll (e : ElementId)
  | sensor (e : ElementId)
  | probe
  deriving DecidableEq, Repr

/-- A moment that the end of a millisecond may bring (R48, R54, R96, R35, R41, R167, R74, R135, R127, R138). -/
inductive Moment where
  | autoExpiry (f : FieldId)
  | pauseExpiry (f : FieldId)
  | endgameBoundary (f : FieldId)
  | matchEnd (f : FieldId)
  | graceEnd (f : FieldId)
  | holdExpiry (e : ElementId)
  | actionLimit (e : ElementId)
  | countdowns (arriving : List Countdown)
  | budget
  | silence
  | beacon
  | sample
  deriving DecidableEq, Repr

/-! ### Arena link -/

/-- A frame without its lead byte and check; a stored frame passed its check (R5), which R4 gives again. -/
structure Frame where
  dst : Byte
  src : Byte
  kind : Byte
  seq : Byte
  payload : List Byte
  deriving DecidableEq, Repr

/-- The receiver (R3). In a frame it holds the characters after the lead byte, in order of arrival. -/
inductive Receiver where
  | hunting
  | inFrame (got : List Byte)
  deriving DecidableEq, Repr

/-- The transmitter (R17, R18): FREE, BUSY sending a frame, or BUSY in the idle gap after it. While sending it
holds the frame's bytes, the rate it was started at (R1), and whether its end takes the device reset that a
RESTART waits for (R19). -/
inductive Transmitter where
  | free
  | sending (bytes : List Byte) (rate : ArenaRate) (endsInReset : Bool)
  | gap
  deriving DecidableEq, Repr

/-- A queued verdict (R15). -/
structure Verdict where
  slot : SlotId
  element : Byte
  outcome : Outcome
  tag : Byte
  deriving DecidableEq, Repr

/-- A queued reply (R180): the sequence byte and code it answers, and its outcome. -/
structure Reply where
  seq : Byte
  code : Byte
  outcome : ReplyOutcome
  deriving DecidableEq, Repr

/-- The seven link counters (R10). -/
structure LinkCounters where
  check : Nat
  framing : Nat
  overlong : Nat
  truncated : Nat
  overrun : Nat
  received : Nat
  sent : Nat
  deriving DecidableEq, Repr

/-- The Arena Link Port (chapter "Arena link"). `breakHold` is set after a character that lacks its stop bit, until the
receive line has been high for one bit time (R2). -/
structure Link where
  rate : ArenaRate
  own : Byte
  console : Byte
  breakHold : Bool
  receiver : Receiver
  store : List Frame
  verdicts : List Verdict
  replies : List Reply
  tells : List Frame
  transmitter : Transmitter
  lastServed : SlotId
  origin : Byte
  counters : LinkCounters
  deriving DecidableEq, Repr

/-! ### Traffic Gate -/

/-- A Station Table entry (section 2.1). -/
structure Station where
  addr : Byte
  slot : SlotId
  role : Role
  acceptTwin : Bool
  deriving DecidableEq, Repr

/-- A slot's match placing (R47). The position is 1, 2 or 3. -/
structure Placing where
  field : FieldId
  alliance : Alliance
  position : Nat
  deriving DecidableEq, Repr

/-- A robot slot record (section 2.2). -/
structure Slot where
  team : Nat
  placing : Option Placing
  disabled : Bool
  bypassed : Bool
  ceiling : Nat
  refill : Nat
  credit : Nat
  held : Option Frame
  lastSeq : Option Byte
  radio : Radio
  age : Nat
  silent : Bool
  throttled : Bool
  outstanding : Nat
  deriving DecidableEq, Repr

/-- The eight gate counters (R43). -/
structure GateCounters where
  unknownSource : Nat
  badKind : Nat
  bypassed : Nat
  misdirected : Nat
  stale : Nat
  throttled : Nat
  tellFull : Nat
  superseded : Nat
  deriving DecidableEq, Repr

/-! ### Match Sequencer and Score Tally -/

/-- Four decimal digits, thousands first (section 7.3). -/
structure Bcd where
  thousands : Fin 10
  hundreds : Fin 10
  tens : Fin 10
  units : Fin 10
  deriving DecidableEq, Repr

/-- A field's result record (R67, R68). -/
structure ResultRecord where
  number : Nat
  east : Bcd
  west : Bcd
  eastCap : Bool
  westCap : Bool
  aborted : Bool
  deriving DecidableEq, Repr

/-- A field's match record (section 3.1). `stopped` is none while RUNNING and the cause while STOPPED. -/
structure MatchRecord where
  number : Nat
  durA : Nat
  durP : Nat
  durT : Nat
  durE : Nat
  list : Table 6 (Option SlotId)
  phase : Phase
  stopped : Option StopCause
  remaining : Nat
  aborted : Bool
  grace : Nat
  result : Option ResultRecord
  deriving DecidableEq, Repr

/-- A field's tallies, cap marks and alliance event counts (section 7.3). -/
structure FieldTally where
  east : Bcd
  west : Bcd
  eastCap : Bool
  westCap : Bool
  eastCount : Nat
  westCount : Nat
  deriving DecidableEq, Repr

/-- A loaded score rule (section 7.1). -/
structure ScoreRule where
  auto : Nat
  teleop : Nat
  endgame : Nat
  beneficiary : Beneficiary
  deriving DecidableEq, Repr

/-! ### Referee Line Unit -/

/-- A referee line's record (section 4.1). -/
structure LineRecord where
  role : LineRole
  activeLevel : Level
  filterOn : Bool
  filtered : Level
  previous : Level
  edge : Bool
  deriving DecidableEq, Repr

/-! ### Elements -/

/-- A loaded Element Table entry (section 5.1). Bit n of the action mask is action n; bits 0, 1 and 2 of the
phase mask are AUTO, TELEOP and ENDGAME (section 11.3). -/
structure ElementEntry where
  busAddr : Byte
  field : FieldId
  owner : Owner
  kind : ElementKind
  actionMask : BitVec 8
  phaseMask : BitVec 3
  holdLimit : Nat
  coolDown : Nat
  actionLimit : Nat
  discipline : Discipline
  deriving DecidableEq, Repr

/-- A request for one action: the action, argument and tag of a CLAIM (section 5.2). -/
structure Request where
  action : Byte
  argument : Byte
  tag : Byte
  deriving DecidableEq, Repr

/-- A queued claim (section 5.1). -/
structure Claim where
  slot : SlotId
  request : Request
  deriving DecidableEq, Repr

/-- A hold record (section 5.1). -/
structure Hold where
  slot : SlotId
  tag : Byte
  remaining : Nat
  next : Option Request
  deriving DecidableEq, Repr

/-- An actuation record (section 5.6). -/
structure Actuation where
  slot : SlotId
  request : Request
  state : ActState
  sent : Bool
  running : Nat
  deriving DecidableEq, Repr

/-- A last-release record (R100). -/
structure LastRelease where
  slot : SlotId
  since : Nat
  deriving DecidableEq, Repr

/-- A loaded element: its entry, its claim-facing parts (section 5.1) and its bus state (section 6.4). Its
pending SAFE is its place in the SAFE queue of `Bus`. -/
structure Loaded where
  entry : ElementEntry
  claims : List Claim
  hold : Option Hold
  act : Option Actuation
  lastRelease : Option LastRelease
  lastAlliance : Option Alliance
  presence : Presence
  misses : Nat
  actToggle : Bool
  fetchToggle : Bool
  retries : Nat
  fetchMark : Bool
  resend : Option Nat
  actionPoll : Option Nat
  sensor : Option Nat
  deriving DecidableEq, Repr

/-- An element number: its entry when loaded, its four score rules (R148) and its event count (R158). -/
structure Element where
  loaded : Option Loaded
  rules : Table 4 (Option ScoreRule)
  eventCount : Nat
  deriving DecidableEq, Repr

/-! ### Element Bus Master -/

/-- The stage of a transaction (R123): the master frame is being sent, the answer window runs, or an answer has
begun, with its characters received so far. -/
inductive Stage where
  | sending
  | window
  | answer (chars : List BusChar)
  deriving DecidableEq, Repr

/-- The transaction in flight (section 6.3): its element and command, the master frame sent, the answer window
it started with (R124), whether the element's entry was loaded or cleared since it started (R126), whether the part looks for
no start bit until the pair has been high for one bit time, after a character that lacked its stop bit (R2, R119), its stage. -/
structure Transaction where
  element : ElementId
  command : BusCommand
  bytes : List Byte
  window : Nat
  void : Bool
  breakHold : Bool
  stage : Stage
  deriving DecidableEq, Repr

/-- What the pair is doing (R123, R128). -/
inductive Activity where
  | idle
  | flight (t : Transaction)
  | rest
  deriving DecidableEq, Repr

/-- The Element Bus Master's own state (chapter "Element bus"). -/
structure Bus where
  state : BusState
  activity : Activity
  safeQueue : List ElementId
  probeTurn : Bool
  probeLeft : Option Nat
  lastProbed : ElementId
  deriving DecidableEq, Repr

/-! ### Beacon Ring, Management Agent, settings -/

/-- The Beacon Ring (section 8.1). `left` is none while the period countdown is stopped. -/
structure Beacons where
  urgent : Table 4 Bool
  routine : Table 4 Bool
  left : Option Nat
  deriving DecidableEq, Repr

/-- The content of a notice (R189). -/
inductive NoticeContent where
  | stop (f : FieldId) (cause : StopCause)
  | resume (f : FieldId) (source : ResumeSource)
  | phase (f : FieldId) (phase : Phase) (number : Nat) (aborted : Bool)
  | element (e : ElementId) (presence : Presence)
  | score (f : FieldId) (e : ElementId) (kind : EventKind) (count points : Nat) (alliance : Alliance)
      (tally : Bcd) (cap : Bool)
  | late (f : FieldId) (e : ElementId) (kind : EventKind) (count : Nat) (phase : Phase)
  | unattributed (f : FieldId) (e : ElementId) (kind : EventKind) (count : Nat) (cause : Unattributed)
  | silent (i : SlotId)
  | heard (i : SlotId)
  | settings (valid : Bool) (skipped : Nat)
  deriving DecidableEq, Repr

/-- A queued notice: the dropped count it carries (R190) and its content. -/
structure Notice where
  dropped : Nat
  content : NoticeContent
  deriving DecidableEq, Repr

/-- The Management Agent (chapter "Management"). -/
structure Mgmt where
  mode : DeviceMode
  cursor : Option (ReadTable × Nat)
  restartPending : Bool
  notices : List Notice
  dropped : Nat
  deriving DecidableEq, Repr

/-- The timing settings (section 9.5). Times in ms, the window W in microseconds. -/
structure Timing where
  beacon : Nat
  silent : Nat
  grace : Nat
  actionPoll : Nat
  sensor : Nat
  probe : Nat
  sample : Nat
  p : Nat
  k : Nat
  window : Nat
  deriving DecidableEq, Repr

/-- What the Settings Loader is doing (R191, R192): nothing while RSTN is held low; sending the read command, of which
`sent` bytes are out; clocking in the image; done reading a valid image, or done with an invalid one; and, after
STARTING, nothing again. The select line is low while it sends and clocks in. -/
inductive LoaderStage where
  | inReset
  | sending (sent : Nat)
  | receiving
  | complete
  | failed
  | off
  deriving DecidableEq, Repr

/-- The Settings Loader: its stage and its image buffer (R191, R192). -/
structure Loader where
  stage : LoaderStage
  buffer : List Byte
  deriving DecidableEq, Repr

/-! ### The whole state -/

/-- The state of the HC448. `pending` is the queue of waiting commands and `choices` counts the free values of
`Config.race` and `Config.settingsByte` used so far (notes/assumptions/6.md and 12.md); both are the model's own. -/
structure State where
  link : Link
  stations : List Station
  slots : Table 32 Slot
  gate : GateCounters
  fields : Table 4 MatchRecord
  tallies : Table 4 FieldTally
  lines : Table 16 LineRecord
  pins : Table 16 Level
  sampleLeft : Option Nat
  elements : Table 48 Element
  bus : Bus
  beacons : Beacons
  mgmt : Mgmt
  timing : Timing
  budgetLeft : Option Nat
  loader : Loader
  choices : Nat
  pending : List Instr
  deriving DecidableEq, Repr

/-- The reasons the machine stops with a fault. The manual gives the part no condition that stops it: errors
are counted, refusals are answered, elements are marked FAULTED. There is none. -/
inductive Fault where
  deriving DecidableEq, Repr

/-- The reasons a command has no meaning. -/
inductive Refusal where
  /-- The row has no meaning yet. Raised by no arm of `exec`. Safe: the machine stops. -/
  | notModelled (mnemonic : String)
  deriving DecidableEq, Repr

/-! ### Device reset -/

/-- The free values of a slot record (section 2.2, R23). -/
def Slot.free : Slot :=
  { team := 0, placing := none, disabled := false, bypassed := false, ceiling := 64, refill := 0, credit := 0,
    held := none, lastSeq := none, radio := .primary, age := 0, silent := false, throttled := false,
    outstanding := 0 }

/-- The tally 0000. -/
def Bcd.zero : Bcd := { thousands := 0, hundreds := 0, tens := 0, units := 0 }

/-- A match record after device reset (R46). -/
def MatchRecord.afterReset : MatchRecord :=
  { number := 0, durA := 0, durP := 0, durT := 0, durE := 0, list := Table.fill 6 none, phase := .idle,
    stopped := none, remaining := 0, aborted := false, grace := 0, result := none }

/-- A field's tallies after device reset (R157). -/
def FieldTally.zero : FieldTally :=
  { east := .zero, west := .zero, eastCap := false, westCap := false, eastCount := 0, westCount := 0 }

/-- An element number after device reset (R85, R148, R158). -/
def Element.empty : Element :=
  { loaded := none, rules := Table.fill 4 none, eventCount := 0 }

/-- The role of a line's default record (R73): lines 0, 4, 8 and 12 are STOP, the others UNUSED. -/
def defaultRole (n : LineId) : LineRole := if n.val % 4 = 0 then .stop else .unused

/-- A line's default record with its levels taken from the pin (R73). -/
def LineRecord.default (n : LineId) (pin : Level) : LineRecord :=
  { role := defaultRole n, activeLevel := .low, filterOn := true, filtered := pin, previous := pin, edge := false }

/-- The timing settings after device reset (section 9.5). -/
def Timing.default : Timing :=
  { beacon := 100, silent := 500, grace := 3000, actionPoll := 20, sensor := 50, probe := 200, sample := 4,
    p := 4, k := 4, window := 1000 }

/-- The link counters after device reset (R10). -/
def LinkCounters.zero : LinkCounters :=
  { check := 0, framing := 0, overlong := 0, truncated := 0, overrun := 0, received := 0, sent := 0 }

/-- The gate counters after device reset (R43). -/
def GateCounters.zero : GateCounters :=
  { unknownSource := 0, badKind := 0, bypassed := 0, misdirected := 0, stale := 0, throttled := 0, tellFull := 0,
    superseded := 0 }

/-- The Arena Link Port after device reset (R19). -/
def Link.afterReset : Link :=
  { rate := .mbit1, own := Config.defaultOwn, console := Config.defaultConsole, breakHold := false,
    receiver := .hunting, store := [], verdicts := [], replies := [], tells := [], transmitter := .free, lastServed := 31, origin := 0,
    counters := .zero }

/-- The Element Bus Master after device reset (R147). -/
def Bus.afterReset : Bus :=
  { state := .startingIdle, activity := .idle, safeQueue := [], probeTurn := false, probeLeft := none,
    lastProbed := 47 }

/-- The Beacon Ring after device reset (R165). -/
def Beacons.afterReset : Beacons :=
  { urgent := Table.fill 4 false, routine := Table.fill 4 false, left := none }

/-- The Management Agent after device reset (R175, R181, R188, R190). -/
def Mgmt.afterReset : Mgmt :=
  { mode := .starting, cursor := none, restartPending := false, notices := [], dropped := 0 }

/-- The line records after device reset, with the levels of the pins at that moment (R73). -/
def linesFromPins (pins : Table 16 Level) : Table 16 LineRecord :=
  Vector.ofFn fun n : Fin 16 => LineRecord.default n (pins.at n)

/-- The Settings Loader as it begins a reading: select goes low, no byte is sent and the image buffer is empty (R191,
R192). -/
def Loader.begun : Loader := { stage := .sending 0, buffer := [] }

/-- The Settings Loader while RSTN is held low: no reading, select released, the image buffer empty (R191). -/
def Loader.held : Loader := { stage := .inReset, buffer := [] }

/-- The Settings Loader after STARTING: the port unused, select high, the image buffer empty (R192). -/
def Loader.finished : Loader := { stage := .off, buffer := [] }

/-- The machine right after device reset (R191): RSTN is high again and the reading of the image begins. Every pin is
HIGH (DESIGN CHOICE, notes/assumptions/9.md: the level of an unconnected line), no command waits and no free value has
been used (notes/assumptions/6.md). -/
def State.reset : State :=
  { link := .afterReset
    stations := []
    slots := Table.fill 32 .free
    gate := .zero
    fields := Table.fill 4 .afterReset
    tallies := Table.fill 4 .zero
    lines := linesFromPins (Table.fill 16 .high)
    pins := Table.fill 16 .high
    sampleLeft := none
    elements := Table.fill 48 .empty
    bus := .afterReset
    beacons := .afterReset
    mgmt := .afterReset
    timing := .default
    budgetLeft := none
    loader := .begun
    choices := 0
    pending := [] }

end Sys2Proof.Machine
end

