-- ==== Sys2Proof/Machine/Flags.lean ====
section
/-! DEFINITION. Saturating counters, the edge flags and marks of the referee lines, and the beacon marks. -/

namespace Sys2Proof.Machine

open Sys2Proof

/-- A 16-bit saturating counter raised by `k` (R10, R43, R158, R159). -/
def saturate (n k : Nat) : Nat := min Config.maxCounter (n + k)

/-- The link counters with the counter of a receive error raised by 1 (R10). -/
def LinkCounters.count (c : LinkCounters) : LinkError → LinkCounters
  | .check => { c with check := saturate c.check 1 }
  | .framing => { c with framing := saturate c.framing 1 }
  | .overlong => { c with overlong := saturate c.overlong 1 }
  | .truncated => { c with truncated := saturate c.truncated 1 }
  | .overrun => { c with overrun := saturate c.overrun 1 }

/-- The gate counters with the counter of a drop reason raised by 1 (R43). -/
def GateCounters.count (c : GateCounters) : DropReason → GateCounters
  | .unknownSource => { c with unknownSource := saturate c.unknownSource 1 }
  | .badKind => { c with badKind := saturate c.badKind 1 }
  | .bypassed => { c with bypassed := saturate c.bypassed 1 }
  | .misdirected => { c with misdirected := saturate c.misdirected 1 }
  | .stale => { c with stale := saturate c.stale 1 }
  | .throttled => { c with throttled := saturate c.throttled 1 }
  | .tellFull => { c with tellFull := saturate c.tellFull 1 }
  | .superseded => { c with superseded := saturate c.superseded 1 }

/-- The field a line belongs to: line n belongs to field n div 4 (00_scope.md, Conventions). -/
def lineField (n : LineId) : FieldId := ⟨n.val / 4, by omega⟩

/-- A line is active while its filtered level equals its active level (R72). -/
def LineRecord.active (r : LineRecord) : Bool := r.filtered == r.activeLevel

/-- An edge flag exists for STOP and HALL-STOP lines only (section 4.1, R72). -/
def LineRecord.flag (r : LineRecord) : Bool := r.edge && (r.role == .stop || r.role == .hallStop)

/-- The four lines of a field. -/
def fieldLines (f : FieldId) : List LineId := (allOf 16).filter fun n => lineField n == f

/-- A field's summary mark: some edge flag among its four lines is set (R79). -/
def summaryMark (lines : Table 16 LineRecord) (f : FieldId) : Bool :=
  (fieldLines f).any fun n => (lines.at n).flag

/-- A field's combination condition: it has a RESUME-KEY line and each of them is active (R82). -/
def combinationHolds (lines : Table 16 LineRecord) (f : FieldId) : Bool :=
  let keys := (fieldLines f).filter fun n => (lines.at n).role == .resumeKey
  !keys.isEmpty && keys.all fun n => (lines.at n).active

/-- The lines whose activity stands in the way of field `f`: its STOP lines and every HALL-STOP line (R63, R81). -/
def stopsField (lines : Table 16 LineRecord) (f : FieldId) (n : LineId) : Bool :=
  ((lines.at n).role == .stop && lineField n == f) || (lines.at n).role == .hallStop

/-- Some STOP line of the field or some HALL-STOP line is active (R63 test 2, R81). -/
def stopHeld (lines : Table 16 LineRecord) (f : FieldId) : Bool :=
  (allOf 16).any fun n => stopsField lines f n && (lines.at n).active

/-- Some edge flag is set on a STOP line of the field or on a HALL-STOP line (R63 test 3, R81). -/
def stopLatched (lines : Table 16 LineRecord) (f : FieldId) : Bool :=
  (allOf 16).any fun n => stopsField lines f n && (lines.at n).edge

/-- The cause with which LOAD MATCH finds a field stopped: the lowest active STOP line of the field, otherwise
the lowest active HALL-STOP line (R58). -/
def heldCause (lines : Table 16 LineRecord) (f : FieldId) : Option StopCause :=
  match (allOf 16).find? fun n => (lines.at n).role == .stop && lineField n == f && (lines.at n).active with
  | some n => some (.line n)
  | none =>
    match (allOf 16).find? fun n => (lines.at n).role == .hallStop && (lines.at n).active with
    | some n => some (.hall n)
    | none => none

/-- Clear the edge flags of the lines that satisfy `p` (R78, R82). -/
def clearEdges (p : LineId → LineRecord → Bool) (lines : Table 16 LineRecord) : Table 16 LineRecord :=
  Vector.ofFn fun n : Fin 16 =>
    if p n (lines.at n) then { lines.at n with edge := false } else lines.at n

end Sys2Proof.Machine
end

