-- ==== Sys2Proof/Machine/Operands.lean ====
section
/-! DEFINITION. Bytes, numbers, checks and codes: how the part reads and writes the layouts of
spec/11_frame_and_record_layouts.md, and the two cyclic checks. A code that names no value reads as none. -/

namespace Sys2Proof.Machine

open Sys2Proof

/-! ### Numbers (R197) -/

/-- A number as one byte. -/
def byte (n : Nat) : Byte := BitVec.ofNat 8 n

/-- A number as two bytes, high byte first (R197). -/
def be16 (n : Nat) : List Byte := [byte (n / 256), byte n]

/-- A number as three bytes, high byte first (R197). -/
def be24 (n : Nat) : List Byte := [byte (n / 65536), byte (n / 256), byte n]

/-- The number of two bytes, high byte first (R197). -/
def nat16 (a b : Byte) : Nat := a.toNat * 256 + b.toNat

/-- The number of three bytes, high byte first (R197). -/
def nat24 (a b c : Byte) : Nat := a.toNat * 65536 + b.toNat * 256 + c.toNat

/-- The signed number of two bytes, high byte first, two's complement (R197). -/
def int16 (a b : Byte) : Int := (a ++ b).toInt

/-- A value replaced by the nearer end of its range when outside it (00_scope.md, Conventions). -/
def clamp (lo hi n : Nat) : Nat := max lo (min hi n)

/-- A Bool as the number 0 or 1. -/
def bit (b : Bool) : Nat := if b then 1 else 0

/-! ### Checks (R4, R121) -/

/-- One step of a cyclic check: shift left by one, and combine the polynomial when the bit shifted out of the
top differs from the entering data bit (R4, R121). -/
def checkBit {w : Nat} (poly : BitVec w) (r : BitVec w) (d : Bool) : BitVec w :=
  if r.msb != d then (r <<< 1) ^^^ poly else r <<< 1

/-- The bits of a byte, most significant first (R4). -/
def byteBits (b : Byte) : List Bool := [7, 6, 5, 4, 3, 2, 1, 0].map fun i => b.getLsbD i

/-- The cyclic check of a run of bytes (R4, R121). -/
def checkOf {w : Nat} (poly start : BitVec w) (bytes : List Byte) : BitVec w :=
  (bytes.flatMap byteBits).foldl (checkBit poly) start

/-- The check of an arena-link frame and of the settings image (R4, R193). -/
def linkCheck (bytes : List Byte) : BitVec 16 := checkOf Config.linkPolynomial 0xFFFF#16 bytes

/-- A 16-bit check as it is sent, high byte first (R4). -/
def linkCheckBytes (bytes : List Byte) : List Byte :=
  let c := linkCheck bytes
  [c.extractLsb' 8 8, c.extractLsb' 0 8]

/-- The check of an element-bus frame (R121). -/
def busCheck (bytes : List Byte) : Byte := checkOf Config.busPolynomial 0x00#8 bytes

/-! ### Ranges (R197 and the owning rules) -/

/-- A field named by a byte: A to D. -/
def fieldOf (b : Byte) : Option FieldId := if h : b.toNat < 4 then some ⟨b.toNat, h⟩ else none

/-- A slot named by a byte: 0 to 31. -/
def slotOf (b : Byte) : Option SlotId := if h : b.toNat < 32 then some ⟨b.toNat, h⟩ else none

/-- An element named by a byte: 0 to 47. -/
def elementOf (b : Byte) : Option ElementId := if h : b.toNat < 48 then some ⟨b.toNat, h⟩ else none

/-- A line named by a byte: 0 to 15. -/
def lineOf (b : Byte) : Option LineId := if h : b.toNat < 16 then some ⟨b.toNat, h⟩ else none

/-- An event kind named by a byte: 0 to 3. -/
def eventKindOf (b : Byte) : Option EventKind := if h : b.toNat < 4 then some ⟨b.toNat, h⟩ else none

/-- A flag byte: 0 or 1. -/
def flagOf (b : Byte) : Option Bool :=
  match b.toNat with
  | 0 => some false
  | 1 => some true
  | _ => none

/-- A place of the slot list: 0xFF is empty, otherwise a slot 0 to 31. The outer none is out of range. -/
def placeOf (b : Byte) : Option (Option SlotId) :=
  if b.toNat = 255 then some none else (slotOf b).map some

/-! ### Codes (section 11.3, section 11.5, section 11.6) -/

/-- Alliance codes. -/
def allianceOf (b : Byte) : Option Alliance :=
  match b.toNat with
  | 0 => some .east
  | 1 => some .west
  | _ => none

/-- The code of an alliance. -/
def Alliance.code : Alliance → Nat
  | .east => 0
  | .west => 1

/-- The other alliance (R153, R161). -/
def Alliance.other : Alliance → Alliance
  | .east => .west
  | .west => .east

/-- Owner codes. -/
def ownerOf (b : Byte) : Option Owner :=
  match b.toNat with
  | 0 => some .east
  | 1 => some .west
  | 2 => some .shared
  | _ => none

/-- The code of an owner. -/
def Owner.code : Owner → Nat
  | .east => 0
  | .west => 1
  | .shared => 2

/-- The alliance that owns an element; none for SHARED. -/
def Owner.alliance : Owner → Option Alliance
  | .east => some .east
  | .west => some .west
  | .shared => none

/-- Kind codes, also the class codes of a PROBE answer. -/
def kindOf (b : Byte) : Option ElementKind :=
  match b.toNat with
  | 1 => some .sensing
  | 2 => some .actuating
  | 3 => some .both
  | _ => none

/-- The code of a kind. -/
def ElementKind.code : ElementKind → Nat
  | .sensing => 1
  | .actuating => 2
  | .both => 3

/-- A kind that reports: SENSING or BOTH (section 5.1). -/
def ElementKind.senses : ElementKind → Bool
  | .sensing | .both => true
  | .actuating => false

/-- A kind that acts: ACTUATING or BOTH (section 5.1). -/
def ElementKind.acts : ElementKind → Bool
  | .actuating | .both => true
  | .sensing => false

/-- Discipline codes. -/
def disciplineOf (b : Byte) : Option Discipline :=
  match b.toNat with
  | 0 => some .fifo
  | 1 => some .alternate
  | _ => none

/-- The code of a discipline. -/
def Discipline.code : Discipline → Nat
  | .fifo => 0
  | .alternate => 1

/-- Beneficiary codes. -/
def beneficiaryOf (b : Byte) : Option Beneficiary :=
  match b.toNat with
  | 0 => some .owner
  | 1 => some .opponent
  | 2 => some .holder
  | 3 => some .east
  | 4 => some .west
  | _ => none

/-- The code of a beneficiary. -/
def Beneficiary.code : Beneficiary → Nat
  | .owner => 0
  | .opponent => 1
  | .holder => 2
  | .east => 3
  | .west => 4

/-- The beneficiaries OWNER and OPPONENT, which name the element's owner. -/
def Beneficiary.namesOwner : Beneficiary → Bool
  | .owner | .opponent => true
  | .holder | .east | .west => false

/-- A phase mask byte: bits 0 to 2 named, the others 0 (R86, R197). -/
def phaseMaskOf (b : Byte) : Option (BitVec 3) := if b.toNat < 8 then some (b.setWidth 3) else none

/-- The code of a phase. -/
def Phase.code : Phase → Nat
  | .idle => 0
  | .pre => 1
  | .auto => 2
  | .pause => 3
  | .teleop => 4
  | .endgame => 5
  | .post => 6

/-- The code of a presence. -/
def Presence.code : Presence → Nat
  | .unknown => 0
  | .present => 1
  | .absent => 2
  | .faulted _ => 3

/-- The code of a fault cause. -/
def FaultCause.code : FaultCause → Nat
  | .mismatch => 1
  | .fault => 2
  | .timeout => 3
  | .safeRefused => 4

/-- The fault cause code of a presence: 0 when not FAULTED. -/
def Presence.causeCode : Presence → Nat
  | .faulted c => c.code
  | .unknown | .present | .absent => 0

/-- The code of an effective gate, also the DRIVE stamp (R39). -/
def Gate.code : Gate → Nat
  | .off => 0
  | .auto => 1
  | .drive => 2

/-- The code of a line role. -/
def LineRole.code : LineRole → Nat
  | .unused => 0
  | .stop => 1
  | .resumeKey => 2
  | .hallStop => 3

/-- The code of a level. -/
def Level.code : Level → Nat
  | .low => 0
  | .high => 1

/-- A line record byte: bits 2-0 role, bit 3 active level, bit 4 filter; a set unnamed bit or a role code that
names no role is outside its values (R197). -/
def lineRecordOf (b : Byte) : Option (LineRole × Level × Bool) :=
  let role : Option LineRole :=
    match b.toNat % 8 with
    | 0 => some .unused
    | 1 => some .stop
    | 2 => some .resumeKey
    | 3 => some .hallStop
    | _ => none
  if b.toNat < 32 then
    role.map fun r => (r, if b.getLsbD 3 then .high else .low, b.getLsbD 4)
  else none

/-- The record byte of a line (section 11.3). -/
def LineRecord.recordByte (r : LineRecord) : Byte :=
  byte (r.role.code + 8 * Level.code r.activeLevel + 16 * bit r.filterOn)

/-- The line sample periods (R84). -/
def samplePeriodOf (n : Nat) : Option Nat :=
  if n = 1 ∨ n = 2 ∨ n = 4 ∨ n = 8 ∨ n = 16 ∨ n = 32 then some n else none

/-- The stop byte of a stop state (section 11.3). The line bits are 0 for a cause that names no line
(notes/assumptions/13.md). -/
def stopByte : Option StopCause → Byte
  | none => byte 0
  | some (.line n) => byte (128 + 16 + n.val)
  | some (.hall n) => byte (128 + 32 + n.val)
  | some .console => byte (128 + 48)

/-- Arena rate codes (section 11.7). -/
def rateOf (b : Byte) : Option ArenaRate :=
  match b.toNat with
  | 0 => some .kbit500
  | 1 => some .mbit1
  | 2 => some .mbit2
  | _ => none

/-- The code of an arena rate. -/
def ArenaRate.code : ArenaRate → Nat
  | .kbit500 => 0
  | .mbit1 => 1
  | .mbit2 => 2

/-- Frame kind codes (section 11.1). -/
def frameKindOf (b : Byte) : Option FrameKind :=
  match b.toNat with
  | 0x10 => some .drive
  | 0x11 => some .tell
  | 0x20 => some .claim
  | 0x21 => some .release
  | 0x22 => some .verdict
  | 0x30 => some .beacon
  | 0x40 => some .manage
  | 0x41 => some .reply
  | 0x42 => some .notice
  | _ => none

/-- The code of a frame kind (section 11.1). -/
def FrameKind.code : FrameKind → Byte
  | .drive => 0x10
  | .tell => 0x11
  | .claim => 0x20
  | .release => 0x21
  | .verdict => 0x22
  | .beacon => 0x30
  | .manage => 0x40
  | .reply => 0x41
  | .notice => 0x42

/-- Read table codes (section 11.3). -/
def readTableOf (b : Byte) : Option ReadTable :=
  match b.toNat with
  | 0 => some .station
  | 1 => some .slot
  | 2 => some .element
  | 3 => some .rule
  | 4 => some .line
  | 5 => some .field
  | 6 => some .gate
  | 7 => some .link
  | _ => none

/-- The code of a read table. -/
def ReadTable.code : ReadTable → Nat
  | .station => 0
  | .slot => 1
  | .element => 2
  | .rule => 3
  | .line => 4
  | .field => 5
  | .gate => 6
  | .link => 7

/-- The last index of a read table (R183). -/
def ReadTable.last : ReadTable → Nat
  | .station => 255
  | .slot => 31
  | .element => 47
  | .rule => 47
  | .line => 15
  | .field => 3
  | .gate => 0
  | .link => 1

/-- The code of a device mode (section 11.5). -/
def DeviceMode.code : DeviceMode → Nat
  | .starting => 0
  | .uncommissioned => 1
  | .commissioned => 2

/-- The code of a bus state (section 11.5). -/
def BusState.code : BusState → Nat
  | .startingIdle => 0
  | .running => 1
  | .pausing => 2
  | .paused => 3

/-- The code of a verdict reason (section 11.2). -/
def Reason.code : Reason → Nat
  | .byRobot => 1
  | .expired => 2
  | .phase => 3
  | .stopped => 4
  | .disabled => 5
  | .bypassed => 6
  | .aborted => 7
  | .silent => 8
  | .elementLost => 9
  | .elementDown => 10
  | .rejected => 11
  | .timeout => 12
  | .lost => 13
  | .retries => 14
  | .fault => 15
  | .gateOff => 16
  | .noElement => 17
  | .badAction => 18
  | .notYours => 19
  | .tooMany => 20
  | .cooling => 21
  | .queueFull => 22
  | .notHolding => 23

/-- The code of a verdict outcome (section 11.2). -/
def Outcome.code : Outcome → Nat
  | .granted => 1
  | .queued _ => 2
  | .acting => 3
  | .done _ => 4
  | .failed _ => 5
  | .cancelled => 6
  | .released _ => 7
  | .withdrawn _ => 8
  | .refused _ => 9

/-- The datum of a verdict (section 11.2). -/
def Outcome.datum : Outcome → Byte
  | .queued n => byte n
  | .done r => r
  | .failed r | .released r | .withdrawn r | .refused r => byte r.code
  | .granted | .acting | .cancelled => 0

/-- The verdict outcome of an actuation's end (R115). -/
def ActEnd.outcome : ActEnd → Outcome
  | .done r => .done r
  | .failed r => .failed r
  | .cancelled => .cancelled

/-- The code of a reply reason (section 11.5). -/
def ReplyReason.code : ReplyReason → Nat
  | .unknownCommand => 1
  | .length => 2
  | .range => 3
  | .notCommissioned => 4
  | .fieldLive => 5
  | .state => 6
  | .duplicate => 7
  | .twinConflict => 8
  | .full => 9
  | .slotBusy => 10
  | .stopHeld => 11
  | .stopLatched => 12
  | .noEntry => 13
  | .noCursor => 14
  | .tableEnd => 15

/-- The bus command codes (section 11.6). Both POLLs are the one POLL on the bus. -/
def BusCommand.code : BusCommand → Byte
  | .probe => 0x01
  | .actuate => 0x02
  | .actionPoll => 0x03
  | .sensorPoll => 0x03
  | .fetch => 0x04
  | .safe => 0x05

/-- The status codes (section 11.6). -/
def statusOf (b : Byte) : Option Status :=
  match b.toNat with
  | 0 => some .ok
  | 1 => some .hold
  | 2 => some .done
  | 3 => some .more
  | 4 => some .retry
  | 5 => some .reject
  | 6 => some .fault
  | _ => none

/-- Two decimal digits in the halves of one byte (R197). -/
def packDigits (hi lo : Fin 10) : Byte := byte (hi.val * 16 + lo.val)

/-- A tally as two bytes of packed decimal, thousands in the high half of the first (R197). -/
def Bcd.bytes (t : Bcd) : List Byte := [packDigits t.thousands t.hundreds, packDigits t.tens t.units]

end Sys2Proof.Machine
end

