-- ==== Sys2Proof/Machine/Ops.lean ====
section
/-! DEFINITION. The named operations over the state that every command shares: updates of one record, the queues,
the questions one block asks another (effective gate, stations, radio address), and the take of a frame. -/

namespace Sys2Proof.Machine

open Sys2Proof

/-! ### Updates of one record -/

/-- Change one slot record. -/
def State.updSlot (s : State) (i : SlotId) (g : Slot → Slot) : State :=
  { s with slots := s.slots.put i (g (s.slots.at i)) }

/-- Change one field's match record. -/
def State.updField (s : State) (f : FieldId) (g : MatchRecord → MatchRecord) : State :=
  { s with fields := s.fields.put f (g (s.fields.at f)) }

/-- Change one field's tallies. -/
def State.updTally (s : State) (f : FieldId) (g : FieldTally → FieldTally) : State :=
  { s with tallies := s.tallies.put f (g (s.tallies.at f)) }

/-- Change one element number. -/
def State.updElement (s : State) (e : ElementId) (g : Element → Element) : State :=
  { s with elements := s.elements.put e (g (s.elements.at e)) }

/-- Change what a loaded element keeps; an empty entry stays empty. -/
def State.updLoaded (s : State) (e : ElementId) (g : Loaded → Loaded) : State :=
  s.updElement e fun x => { x with loaded := x.loaded.map g }

/-- Change the Arena Link Port. -/
def State.updLink (s : State) (g : Link → Link) : State := { s with link := g s.link }

/-- Change the Element Bus Master's own state. -/
def State.updBus (s : State) (g : Bus → Bus) : State := { s with bus := g s.bus }

/-- Change the Management Agent. -/
def State.updMgmt (s : State) (g : Mgmt → Mgmt) : State := { s with mgmt := g s.mgmt }

/-- What the part keeps of a loaded element; none for an empty entry. -/
def State.loadedAt (s : State) (e : ElementId) : Option Loaded := (s.elements.at e).loaded

/-! ### Queues and counters -/

/-- A verdict joins the verdict queue; a full queue gives up its oldest verdict for the same slot, or the
arriving verdict is discarded (R15). -/
def enqueueVerdict (q : List Verdict) (v : Verdict) : List Verdict :=
  if q.length < Config.verdictCapacity then q ++ [v]
  else if q.any fun x => x.slot == v.slot then (q.eraseP fun x => x.slot == v.slot) ++ [v]
  else q

/-- Queue a verdict for a slot (R15, R116). -/
def State.queueVerdict (s : State) (i : SlotId) (element : Byte) (o : Outcome) (tag : Byte) : State :=
  s.updLink fun l => { l with verdicts := enqueueVerdict l.verdicts { slot := i, element, outcome := o, tag } }

/-- Queue a notice with the dropped count, or discard it and raise the dropped count (R188, R190). -/
def State.queueNotice (s : State) (c : NoticeContent) : State :=
  s.updMgmt fun m =>
    if m.notices.length < Config.noticeCapacity then
      { m with notices := m.notices ++ [{ dropped := m.dropped, content := c }], dropped := 0 }
    else { m with dropped := min Config.maxDropped (m.dropped + 1) }

/-- Queue a reply to a MANAGE frame (R180). -/
def State.queueReply (s : State) (f : Frame) (code : Byte) (o : ReplyOutcome) : State :=
  s.updLink fun l => { l with replies := l.replies ++ [{ seq := f.seq, code, outcome := o }] }

/-- Count a frame dropped by the Traffic Gate (R43). -/
def State.countDrop (s : State) (r : DropReason) : State := { s with gate := s.gate.count r }

/-- Count a receive error and hunt again (section 1.3). -/
def State.countError (s : State) (e : LinkError) : State :=
  s.updLink fun l => { l with receiver := .hunting, counters := l.counters.count e }

/-- Set a field's urgent mark (R168). -/
def State.setUrgent (s : State) (f : FieldId) : State :=
  { s with beacons := { s.beacons with urgent := s.beacons.urgent.put f true } }

/-- The head frame leaves the receive store (R11). -/
def State.popStore (s : State) : State := s.updLink fun l => { l with store := l.store.tail }

/-! ### Stations (R20, R44) -/

/-- How a Station Table entry matches a source, if it does (R20). -/
def Station.matchesSource (st : Station) (a : Byte) : Option Radio :=
  if a = st.addr then some .primary
  else if st.role = .robot ∧ st.acceptTwin = true ∧ a = st.addr + Config.twinOffset then some .twin
  else none

/-- The Station Table entry that matches a source, and how (R20). -/
def findStation (stations : List Station) (a : Byte) : Option (Station × Radio) :=
  stations.findSome? fun st => (st.matchesSource a).map fun r => (st, r)

/-- A slot's entry of a role (R21 keeps at most one). -/
def stationOf (stations : List Station) (role : Role) (i : SlotId) : Option Station :=
  stations.find? fun st => st.role == role && st.slot == i

/-- An address is a radio address of a ROBOT entry (R20). -/
def Station.isRadio (st : Station) (a : Byte) : Bool := (st.matchesSource a).isSome

/-- The radio address of a slot's robot, by its last-heard radio; none without a ROBOT entry (R44). -/
def State.radioAddress (s : State) (i : SlotId) : Option Byte :=
  (stationOf s.stations .robot i).map fun st =>
    match (s.slots.at i).radio with
    | .primary => st.addr
    | .twin => st.addr + Config.twinOffset

/-! ### The effective gate (R26) -/

/-- A slot's effective gate (R26). -/
def State.effectiveGate (s : State) (i : SlotId) : Gate :=
  match (s.slots.at i).placing with
  | none => .off
  | some p =>
    if (s.slots.at i).disabled || (s.slots.at i).bypassed || (s.fields.at p.field).stopped.isSome then .off
    else
      match (s.fields.at p.field).phase with
      | .auto => .auto
      | .teleop | .endgame => .drive
      | .idle | .pre | .pause | .post => .off

/-- A slot's effective gate is AUTO or DRIVE. -/
def State.gateOpen (s : State) (i : SlotId) : Bool := s.effectiveGate i != .off

/-- A slot's field, by its placing. -/
def State.slotField (s : State) (i : SlotId) : Option FieldId := (s.slots.at i).placing.map (·.field)

/-- A slot's alliance, by its placing. -/
def State.slotAlliance (s : State) (i : SlotId) : Option Alliance := (s.slots.at i).placing.map (·.alliance)

/-! ### Fields -/

/-- The timed phases (section 3.2). -/
def Phase.timed : Phase → Bool
  | .auto | .pause | .teleop | .endgame => true
  | .idle | .pre | .post => false

/-- The phases in which a stop applies (R60). -/
def Phase.stoppable : Phase → Bool
  | .pre | .auto | .pause | .teleop | .endgame => true
  | .idle | .post => false

/-- Every field is IDLE. -/
def State.allIdle (s : State) : Bool := (allOf 4).all fun f => (s.fields.at f).phase == .idle

/-- A phase is in a phase mask: bit 0 AUTO, bit 1 TELEOP, bit 2 ENDGAME (section 11.3). -/
def phaseIn (mask : BitVec 3) : Phase → Bool
  | .auto => mask.getLsbD 0
  | .teleop => mask.getLsbD 1
  | .endgame => mask.getLsbD 2
  | .idle | .pre | .pause | .post => false

/-- The slots of a slot list, in the order East 1 to 3, West 1 to 3. -/
def listedSlots (l : Table 6 (Option SlotId)) : List SlotId := l.toList.filterMap id

/-- The element number as a byte. -/
def elementByte (e : ElementId) : Byte := byte e.val

/-! ### Taking a frame (R11, R29, R30) -/

/-- A source address in the ranges of robots and driver stations (section 1.5). -/
def stationAddress (a : Byte) : Bool :=
  (0x01 ≤ a.toNat && a.toNat ≤ 0x3F) || (0x41 ≤ a.toNat && a.toNat ≤ 0x7F) || (0x81 ≤ a.toNat && a.toNat ≤ 0xBF)

/-- A destination that is for the part: the own address or broadcast (R30, R32). -/
def State.forPart (s : State) (dst : Byte) : Bool := dst == s.link.own || dst == Config.broadcast

/-- What the Traffic Gate makes of a frame's source and kind, outside STARTING (R12, R29, R30). -/
def State.classify (s : State) (f : Frame) : FrameClass :=
  if !(stationAddress f.src || f.src == s.link.console) then .dropped .unknownSource
  else if f.kind == FrameKind.manage.code && f.src != s.link.console then .dropped .unknownSource
  else if f.src == s.link.console then
    if f.kind == FrameKind.manage.code then (if s.forPart f.dst then .manage else .dropped .misdirected)
    else .dropped .badKind
  else
    match findStation s.stations f.src with
    | none => .dropped .unknownSource
    | some (st, radio) =>
      match st.role with
      | .robot => .robot st.slot radio
      | .driver => .driver st.slot

/-- The head frame of the receive store with its class; none in STARTING or when the store is empty (R28, R29). -/
def State.headFrame (s : State) : Option (Frame × FrameClass) :=
  if s.mgmt.mode = .starting then none else s.link.store.head?.map fun f => (f, s.classify f)

end Sys2Proof.Machine
end

