-- ==== Sys2Proof/Machine/Arbiter.lean ====
section
/-! DEFINITION. The Element Arbiter's procedures: grants, grant selection, the end of a hold, withdrawals, the
end of an actuation, and what it does on the events of other blocks (spec/05_field_elements_and_claims.md). -/

namespace Sys2Proof.Machine

open Sys2Proof

/-- A slot's outstanding count falls by 1 (R103). -/
def State.lessOutstanding (s : State) (i : SlotId) : State :=
  s.updSlot i fun x => { x with outstanding := x.outstanding - 1 }

/-- A slot's outstanding count rises by 1 (R103). -/
def State.moreOutstanding (s : State) (i : SlotId) : State :=
  s.updSlot i fun x => { x with outstanding := x.outstanding + 1 }

/-- A verdict about an element number, queued for a slot (R116). -/
def State.verdictFor (s : State) (i : SlotId) (e : ElementId) (o : Outcome) (tag : Byte) : State :=
  s.queueVerdict i (elementByte e) o tag

/-- A new actuation record: WAITING-BUS, not sent, time running 0 (R111). -/
def newActuation (i : SlotId) (r : Request) : Actuation :=
  { slot := i, request := r, state := .waitingBus, sent := false, running := 0 }

/-- An actuation record is RUNNING or CANCELLING. -/
def Actuation.onElement (a : Actuation) : Bool := a.state == .running || a.state == .cancelling

/-- An element with an actuation record in RUNNING or CANCELLING (R136). -/
def Loaded.busy (l : Loaded) : Bool :=
  match l.act with
  | some a => a.onElement
  | none => false

/-- A new actuation record is made for an element; its resend countdown is then absent (R111, R130). -/
def Loaded.withAct (l : Loaded) (i : SlotId) (r : Request) : Loaded :=
  { l with act := some (newActuation i r), resend := none }

/-- The element's actuation record is removed: its resend and action-poll countdowns become absent (R130, R134),
and the sensor countdown of a PRESENT reporting element starts again when the record was RUNNING or CANCELLING (R136). -/
def Loaded.withoutAct (l : Loaded) (sensorPeriod : Nat) : Loaded :=
  { l with
    act := none
    resend := none
    actionPoll := none
    sensor := if l.busy && l.presence == .present && l.entry.kind.senses then some sensorPeriod else l.sensor }

/-- A grant: the slot holds the element, and the actuation of the claim granted is made (R95). -/
def State.grant (s : State) (e : ElementId) (i : SlotId) (r : Request) : State :=
  (s.updLoaded e fun l =>
    { l.withAct i r with hold := some { slot := i, tag := r.tag, remaining := l.entry.holdLimit, next := none } })
  |>.verdictFor i e .granted r.tag

/-- A queued claim is eligible: its slot's gate is open, its slot is not silent, and its field's phase is in the
element's phase mask (R101). -/
def State.eligible (s : State) (l : Loaded) (c : Claim) : Bool :=
  s.gateOpen c.slot && !(s.slots.at c.slot).silent && phaseIn l.entry.phaseMask (s.fields.at l.entry.field).phase

/-- The claim that grant selection picks: the oldest eligible one, under ALTERNATE first among those of the
alliance other than the last holder's (R101, R102). -/
def State.pickClaim (s : State) (l : Loaded) : Option Claim :=
  let oldest := l.claims.find? (s.eligible l)
  match l.entry.discipline, l.lastAlliance with
  | .alternate, some a =>
    match l.claims.find? fun c => s.eligible l c && s.slotAlliance c.slot != some a with
    | some c => some c
    | none => oldest
  | _, _ => oldest

/-- Grant selection (R101): a grant is made only on a PRESENT element without hold and actuation records. -/
def State.grantSelection (s : State) (e : ElementId) : State :=
  match s.loadedAt e with
  | none => s
  | some l =>
    if l.presence = .present ∧ l.hold = none ∧ l.act = none then
      match s.pickClaim l with
      | none => s
      | some c => (s.updLoaded e fun l => { l with claims := l.claims.erase c }).grant e c.slot c.request
    else s

/-- A loaded element whose hold by a slot of the given alliance, if it has one, has ended: the last-release record
and the last holder alliance are set (R99). -/
def Loaded.released (l : Loaded) (i : SlotId) (a : Option Alliance) : Loaded :=
  { l with
    hold := none
    lastRelease := some { slot := i, since := 0 }
    lastAlliance := match a with
      | some a => some a
      | none => l.lastAlliance }

/-- A hold's next action, if any, is dropped with CANCELLED (R99). -/
def State.dropNext (s : State) (e : ElementId) (h : Hold) : State :=
  match h.next with
  | some n => s.verdictFor h.slot e .cancelled n.tag
  | none => s

/-- Steps 1 to 3 of the end of a hold: the hold record is removed with RELEASED, the last-release record and the
last holder alliance are set, and a next action is dropped with CANCELLED (R99). -/
def State.releaseHold (s : State) (e : ElementId) (h : Hold) (reason : Reason) : State :=
  ((((s.lessOutstanding h.slot).verdictFor h.slot e (.released reason) h.tag).updLoaded e fun l =>
    l.released h.slot (s.slotAlliance h.slot)).dropNext e h)

/-- Step 4 of the end of a hold: an actuation record in WAITING-BUS with its sent mark clear is removed with
CANCELLED for the slot whose hold ended; any other is left to run to its end (R99). -/
def State.cancelUnsent (s : State) (e : ElementId) (i : SlotId) : State :=
  match s.loadedAt e with
  | none => s
  | some l =>
    match l.act with
    | none => s
    | some a =>
      if a.state = .waitingBus ∧ a.sent = false then
        (s.updLoaded e fun l => l.withoutAct s.timing.sensor).verdictFor i e .cancelled a.request.tag
      else s

/-- Grant selection when the element has no actuation record (R99 step 6). -/
def State.selectIfFree (s : State) (e : ElementId) : State :=
  match s.loadedAt e with
  | none => s
  | some l => if l.act = none then s.grantSelection e else s

/-- The end of an element's hold, whatever its reason (R99). -/
def State.endHold (s : State) (e : ElementId) (reason : Reason) : State :=
  match (s.loadedAt e).bind (·.hold) with
  | none => s
  | some h => ((s.releaseHold e h reason).cancelUnsent e h.slot).selectIfFree e

/-- A queued claim is withdrawn; grant selection runs when the element has neither hold nor actuation (R104). -/
def State.withdraw (s : State) (e : ElementId) (c : Claim) (reason : Reason) : State :=
  let s := s.updLoaded e fun l => { l with claims := l.claims.erase c }
  let s := (s.lessOutstanding c.slot).verdictFor c.slot e (.withdrawn reason) c.request.tag
  s.grantSelection e

/-- A slot's claim in an element's queue. -/
def Loaded.claimOf (l : Loaded) (i : SlotId) : Option Claim := l.claims.find? fun c => c.slot == i

/-- A slot is an element's holder. -/
def Loaded.heldBy (l : Loaded) (i : SlotId) : Bool :=
  match l.hold with
  | some h => h.slot == i
  | none => false

/-- On one element, the slot's queued claim is withdrawn (R105). -/
def State.withdrawClaimOf (s : State) (i : SlotId) (reason : Reason) (e : ElementId) : State :=
  match (s.loadedAt e).bind (·.claimOf i) with
  | some c => s.withdraw e c reason
  | none => s

/-- On one element, the slot's hold is ended (R105). -/
def State.endHoldOf (s : State) (i : SlotId) (reason : Reason) (e : ElementId) : State :=
  match s.loadedAt e with
  | some l => if l.heldBy i then s.endHold e reason else s
  | none => s

/-- On one element, the slot's queued claim is withdrawn and its hold ended (R105). -/
def State.takeAway (s : State) (i : SlotId) (reason : Reason) (e : ElementId) : State :=
  (s.withdrawClaimOf i reason e).endHoldOf i reason e

/-- A gate-off or silent event for a slot: everything the slot has queued and holds is taken away, in ascending
element order (R105, R106). -/
def State.slotEvent (s : State) (i : SlotId) (reason : Reason) : State :=
  (allOf 48).foldl (fun s e => s.takeAway i reason e) s

/-- Every queued claim of an element is withdrawn, oldest first. -/
def State.withdrawAll (s : State) (e : ElementId) (reason : Reason) : State :=
  match s.loadedAt e with
  | none => s
  | some l => l.claims.foldl (fun s c => s.withdraw e c reason) s

/-- On one element, a phase event: an element of the field whose phase mask lacks the new phase loses its queue and
its hold (R107). -/
def State.phaseTest (s : State) (f : FieldId) (p : Phase) (e : ElementId) : State :=
  match s.loadedAt e with
  | none => s
  | some l =>
    if l.entry.field = f ∧ phaseIn l.entry.phaseMask p = false then (s.withdrawAll e .phase).endHold e .phase else s

/-- A phase event for a field: each of its elements whose phase mask lacks the new phase loses its queue and its
hold, in ascending element order (R107). -/
def State.phaseEvent (s : State) (f : FieldId) (p : Phase) : State :=
  (allOf 48).foldl (fun s e => s.phaseTest f p e) s

/-- A lost element's actuation fails (R108). -/
def State.failActuation (s : State) (e : ElementId) (reason : Reason) : State :=
  match (s.loadedAt e).bind (·.act) with
  | some a =>
    (s.updLoaded e fun l => l.withoutAct s.timing.sensor).verdictFor a.slot e (.failed reason) a.request.tag
  | none => s

/-- The loss of an element: its actuation fails, its queue is withdrawn, its hold ends (R108). -/
def State.elementLost (s : State) (e : ElementId) (reason : Reason) : State :=
  ((s.failActuation e reason).withdrawAll e .elementDown).endHold e .elementLost

/-- A hold's next action is taken up, or, off a PRESENT element, dropped with CANCELLED (R115). -/
def State.takeNext (s : State) (e : ElementId) (l : Loaded) (h : Hold) (n : Request) : State :=
  if l.presence = .present then
    s.updLoaded e fun l => { l with hold := some { h with next := none } }.withAct h.slot n
  else (s.updLoaded e fun l => { l with hold := some { h with next := none } }).verdictFor h.slot e .cancelled n.tag

/-- What follows the end of an actuation: the hold's next action is taken up, or grant selection runs when there is
no hold (R115). -/
def State.afterActuation (s : State) (e : ElementId) : State :=
  match s.loadedAt e with
  | none => s
  | some l =>
    match l.hold with
    | none => s.grantSelection e
    | some h =>
      match h.next with
      | none => s
      | some n => s.takeNext e l h n

/-- The end of an element's actuation; a report for an element without an actuation record is ignored (R115). -/
def State.endActuation (s : State) (e : ElementId) (how : ActEnd) : State :=
  match (s.loadedAt e).bind (·.act) with
  | none => s
  | some a =>
    ((s.updLoaded e fun l => l.withoutAct s.timing.sensor).verdictFor a.slot e how.outcome a.request.tag).afterActuation e

/-- The slots whose effective gate is open in `before` and OFF in `s`, in ascending order (R27). -/
def State.gatesClosed (s before : State) : List SlotId :=
  (allOf 32).filter fun i => before.gateOpen i && !s.gateOpen i

/-- The gate-off events of one change, each taken whole, one after another (R27, R105; the order among slots is
of no consequence by R27: notes/assumptions/18.md). -/
def State.gateOffEvents (s before : State) (reason : Reason) : State :=
  (s.gatesClosed before).foldl (fun s i => s.slotEvent i reason) s

/-- A slot's silent mark is set: NOTICE SILENT, and the silent event (R41, R106). -/
def State.markSilent (s : State) (i : SlotId) : State :=
  ((s.updSlot i fun x => { x with silent := true }).queueNotice (.silent i)).slotEvent i .silent

/-- The slot's field is in a timed phase (R41). -/
def State.inTimedPhase (s : State) (i : SlotId) : Bool :=
  match s.slotField i with
  | some f => (s.fields.at f).phase.timed
  | none => false

/-- The silence test of R41 on one slot. -/
def State.silenceTest (s : State) (i : SlotId) : State :=
  if (s.slots.at i).silent = false ∧ s.inTimedPhase i = true ∧ s.timing.silent < (s.slots.at i).age then s.markSilent i
  else s

/-- The silence test on every slot, in ascending order (R41). -/
def State.silenceTests (s : State) : State := (allOf 32).foldl State.silenceTest s

end Sys2Proof.Machine
end

