-- ==== Sys2Proof/Machine/Scoring.lean ====
section
/-! DEFINITION. The Score Tally: the digit adder, the taking of a report, and what PENALTY and CORRECT do to a tally
(spec/07_scoring.md). -/

namespace Sys2Proof.Machine

open Sys2Proof

/-- The value of a tally, 0 to 9999. -/
def Bcd.toNat (t : Bcd) : Nat := t.thousands.val * 1000 + t.hundreds.val * 100 + t.tens.val * 10 + t.units.val

/-- A decimal digit of a number. -/
def digitOf (n : Nat) : Fin 10 := Fin.ofNat 10 n

/-- A whole number written as four decimal digits, thousands first (R154). -/
def Bcd.ofNat (n : Nat) : Bcd :=
  { thousands := digitOf (n / 1000), hundreds := digitOf (n / 100), tens := digitOf (n / 10), units := digitOf n }

/-- One digit of the adder: the digit kept and the carry out (R155). -/
def addDigit (a b : Fin 10) (carry : Nat) : Fin 10 × Nat :=
  if a.val + b.val + carry ≤ 9 then (digitOf (a.val + b.val + carry), 0)
  else (digitOf (a.val + b.val + carry - 10), 1)

/-- The four-digit addition, units first: the digits formed and the carry out of the thousands (R155). -/
def Bcd.addDigits (t a : Bcd) : Bcd × Nat :=
  let u := addDigit t.units a.units 0
  let d := addDigit t.tens a.tens u.2
  let h := addDigit t.hundreds a.hundreds d.2
  let m := addDigit t.thousands a.thousands h.2
  ({ thousands := m.1, hundreds := h.1, tens := d.1, units := u.1 }, m.2)

/-- The tally 9999. -/
def Bcd.max : Bcd := { thousands := 9, hundreds := 9, tens := 9, units := 9 }

/-- A tally and its cap mark after an addition: a carry out of the thousands gives 9999 and the mark (R155). -/
def addPoints (t : Bcd) (cap : Bool) (amount : Nat) : Bcd × Bool :=
  let r := t.addDigits (Bcd.ofNat amount)
  if r.2 = 0 then (r.1, cap) else (Bcd.max, true)

/-- A tally and its cap mark after a signed correction (R162). -/
def correctPoints (t : Bcd) (cap : Bool) (amount : Int) : Bcd × Bool :=
  let v : Int := (t.toNat : Int) + amount
  if v < 0 then (Bcd.ofNat 0, cap)
  else if 9999 < v then (Bcd.max, true)
  else (Bcd.ofNat v.toNat, cap)

/-- An alliance's tally. -/
def FieldTally.tally (t : FieldTally) : Alliance → Bcd
  | .east => t.east
  | .west => t.west

/-- An alliance's cap mark. -/
def FieldTally.cap (t : FieldTally) : Alliance → Bool
  | .east => t.eastCap
  | .west => t.westCap

/-- Write an alliance's tally and cap mark. -/
def FieldTally.write (t : FieldTally) (a : Alliance) (v : Bcd × Bool) : FieldTally :=
  match a with
  | .east => { t with east := v.1, eastCap := v.2 }
  | .west => { t with west := v.1, westCap := v.2 }

/-- Points added to an alliance's tally (R155). -/
def FieldTally.add (t : FieldTally) (a : Alliance) (points : Nat) : FieldTally :=
  t.write a (addPoints (t.tally a) (t.cap a) points)

/-- A scored report's count added to its alliance's event count (R159). -/
def FieldTally.countEvents (t : FieldTally) (a : Alliance) (count : Nat) : FieldTally :=
  match a with
  | .east => { t with eastCount := saturate t.eastCount count }
  | .west => { t with westCount := saturate t.westCount count }

/-- The points of a rule that a report is scored with, given its field's state; none when it is not scored (R151). -/
def scoringPoints (m : MatchRecord) (r : ScoreRule) : Option Nat :=
  match m.phase with
  | .auto | .pause => some r.auto
  | .teleop => some r.teleop
  | .endgame => some r.endgame
  | .post =>
    if m.aborted = false ∧ 0 < m.grace then some (if 0 < m.durE then r.endgame else r.teleop) else none
  | .idle | .pre => none

/-- A report of a field is scored by its phase (R151). -/
def scoredByPhase (m : MatchRecord) : Bool :=
  match m.phase with
  | .auto | .pause | .teleop | .endgame => true
  | .post => m.aborted == false && 0 < m.grace
  | .idle | .pre => false

/-- The alliance a rule credits for an element (R153). -/
def State.creditedAlliance (s : State) (l : Loaded) : Beneficiary → Option Alliance
  | .east => some .east
  | .west => some .west
  | .owner => l.entry.owner.alliance
  | .opponent => l.entry.owner.alliance.map Alliance.other
  | .holder => l.hold.bind fun h => s.slotAlliance h.slot

/-- A report is scored: its points and count are added and NOTICE SCORE is queued (R150 step 5, R160). -/
def State.scoreReport (s : State) (e : ElementId) (f : FieldId) (k : EventKind) (count points : Nat) (a : Alliance) : State :=
  let t := s.updTally f fun t => (t.add a points).countEvents a count
  t.queueNotice (.score f e k count points a ((t.tallies.at f).tally a) ((t.tallies.at f).cap a))

/-- The count of a report is added to the element's event count (R150 step 1, R158). -/
def State.countReport (s : State) (e : ElementId) (count : Nat) : State :=
  s.updElement e fun x => { x with eventCount := saturate x.eventCount count }

/-- Steps 2 to 5 of a report (R150). -/
def State.judgeReport (s : State) (e : ElementId) (l : Loaded) (k : EventKind) (count : Nat) : State :=
  let m := s.fields.at l.entry.field
  if scoredByPhase m = false then s.queueNotice (.late l.entry.field e k count m.phase)
  else
    match (s.elements.at e).rules.at k with
    | none => s.queueNotice (.unattributed l.entry.field e k count .noRule)
    | some r =>
      match s.creditedAlliance l r.beneficiary with
      | none => s.queueNotice (.unattributed l.entry.field e k count .noHolder)
      | some a => s.scoreReport e l.entry.field k count (count * (scoringPoints m r).getD 0) a

/-- One report of an element is taken (R150). -/
def State.takeReport (s : State) (e : ElementId) (k : EventKind) (count : Nat) : State :=
  match s.loadedAt e with
  | none => s
  | some l => (s.countReport e count).judgeReport e l k count

/-- A report byte: the event kind in bits 7-6 and the count in bits 3-0 (section 11.6). -/
def reportOf (b : Byte) : EventKind × Nat := (⟨b.toNat / 64, by have := b.isLt; omega⟩, b.toNat % 16)

/-- The reports of one FETCH answer, in the order of the answer; a report whose count is 0 is not handed on (R137, R150). -/
def State.takeReports (s : State) (e : ElementId) (bytes : List Byte) : State :=
  bytes.foldl (fun s b => if (reportOf b).2 = 0 then s else s.takeReport e (reportOf b).1 (reportOf b).2) s

end Sys2Proof.Machine
end

