-- ==== Sys2Proof/Machine/BusOps.lean ====
section
/-! DEFINITION. The Element Bus Master's procedures: the schedule and the start of a transaction, the parsing of
an answer, presence changes, misses, safing, and what each answer does (spec/06_element_bus.md). -/

namespace Sys2Proof.Machine

open Sys2Proof

/-! ### The SAFE queue and presence -/

/-- A SAFE is pending for an element (R139). -/
def State.safePending (s : State) (e : ElementId) : Bool := s.bus.safeQueue.contains e

/-- An element leaves the SAFE queue (R139). -/
def State.dropSafe (s : State) (e : ElementId) : State :=
  s.updBus fun b => { b with safeQueue := b.safeQueue.filter (· != e) }

/-- An element joins the SAFE queue at its tail with its retry count 0, unless its SAFE is pending already (R139). -/
def State.queueSafe (s : State) (e : ElementId) : State :=
  if s.safePending e then s
  else (s.updLoaded e fun l => { l with retries := 0 }).updBus fun b => { b with safeQueue := b.safeQueue ++ [e] }

/-- What an element loses when it leaves PRESENT: its FETCH mark and its countdowns (R143). -/
def Loaded.leavePresent (l : Loaded) : Loaded :=
  { l with fetchMark := false, resend := none, actionPoll := none, sensor := none }

/-- The reason of FAILED for the actuation of a lost element (R108). -/
def Presence.lossReason : Presence → Reason
  | .faulted _ => .fault
  | .unknown | .present | .absent => .lost

/-- A loaded element with a new presence: one that leaves PRESENT loses its mark and countdowns, and one that becomes
PRESENT and reports starts its sensor countdown (R142, R143). -/
def Loaded.withPresence (l : Loaded) (p : Presence) (sensorPeriod : Nat) : Loaded :=
  let l' := if l.presence = .present then l.leavePresent else l
  { l' with
    presence := p
    sensor := if p = .present ∧ l.entry.kind.senses = true then some sensorPeriod else l'.sensor }

/-- The first part of a presence change: the presence is written with what it brings, and an element that becomes
ABSENT leaves the SAFE queue (R139, R142, R143). -/
def State.setPresence (s : State) (e : ElementId) (p : Presence) : State :=
  if p = .absent then (s.updLoaded e fun l => l.withPresence p s.timing.sensor).dropSafe e
  else s.updLoaded e fun l => l.withPresence p s.timing.sensor

/-- A departure from PRESENT is reported to the Element Arbiter (R143). -/
def State.reportLoss (s : State) (e : ElementId) (before after : Presence) : State :=
  if before = .present then s.elementLost e after.lossReason else s

/-- A change of an element's presence, other than by LOAD ELEMENT, to a new value: reported to the Element Arbiter
when the element leaves PRESENT, and noticed (R143). -/
def State.changePresence (s : State) (e : ElementId) (p : Presence) : State :=
  match s.loadedAt e with
  | none => s
  | some l => ((s.setPresence e p).reportLoss e l.presence p).queueNotice (.element e p)

/-- An element becomes FAULTED; one that is FAULTED already keeps its cause, without a notice (R140, R141). -/
def State.becomeFaulted (s : State) (e : ElementId) (c : FaultCause) : State :=
  match s.loadedAt e with
  | none => s
  | some l =>
    match l.presence with
    | .faulted _ => s
    | .unknown | .present | .absent => s.changePresence e (.faulted c)

/-- A PRESENT or UNKNOWN element whose miss count has reached 3 becomes ABSENT (R125). -/
def State.becomeAbsent (s : State) (e : ElementId) (p : Presence) : State :=
  match p with
  | .present | .unknown => s.changePresence e .absent
  | .absent | .faulted _ => s

/-- An element's miss count is set. -/
def State.setMisses (s : State) (e : ElementId) (n : Nat) : State := s.updLoaded e fun l => { l with misses := n }

/-- A miss: the miss count rises, at most to 3; at 3 a PRESENT or UNKNOWN element becomes ABSENT and the pending
SAFE is dropped whatever the presence (R125). -/
def State.countMiss (s : State) (e : ElementId) : State :=
  match s.loadedAt e with
  | none => s
  | some l =>
    if l.misses + 1 < Config.missLimit then s.setMisses e (l.misses + 1)
    else ((s.setMisses e Config.missLimit).becomeAbsent e l.presence).dropSafe e

/-- A safed element's actuation: RUNNING becomes CANCELLING, and so does a sent WAITING-BUS one, with time running 0,
its action-poll countdown started and its resend and sensor countdowns absent (R109, R134, R136). -/
def Loaded.safed (l : Loaded) (actionPollPeriod : Nat) : Loaded :=
  match l.act with
  | none => l
  | some a =>
    match a.state, a.sent with
    | .running, _ => { l with act := some { a with state := .cancelling } }
    | .waitingBus, true =>
      { l with act := some { a with state := .cancelling, running := 0 }, resend := none,
               actionPoll := some actionPollPeriod, sensor := none }
    | .waitingBus, false | .cancelling, _ => l

/-- A SAFE is queued for an element when it is PRESENT (R139). -/
def State.safeIfPresent (s : State) (e : ElementId) (l : Loaded) : State :=
  if l.presence = .present then s.queueSafe e else s

/-- Safing on one element of a field: a SAFE is queued when it is PRESENT, and its actuation is cancelled (R61, R109,
R139). -/
def State.safeElement (s : State) (f : FieldId) (e : ElementId) : State :=
  match s.loadedAt e with
  | none => s
  | some l =>
    if l.entry.field = f then (s.safeIfPresent e l).updLoaded e fun l => l.safed s.timing.actionPoll else s

/-- A field is safed, its elements in ascending order (R61, R109, R139). -/
def State.safeField (s : State) (f : FieldId) : State := (allOf 48).foldl (fun s e => s.safeElement f e) s

/-! ### The schedule (R128) -/

/-- An element is PRESENT. -/
def Loaded.isPresent (l : Loaded) : Bool := l.presence == .present

/-- An element is UNKNOWN or ABSENT, to be probed (R138). -/
def Loaded.missing (l : Loaded) : Bool := l.presence == .unknown || l.presence == .absent

/-- A countdown is due (R127). -/
def countdownDue : Option Nat → Bool
  | some 0 => true
  | _ => false

/-- An element's actuation is due for ACTUATE (R130). -/
def State.dueActuate (s : State) (e : ElementId) (l : Loaded) : Bool :=
  l.isPresent && !s.safePending e && (l.resend == none || countdownDue l.resend) &&
    match l.act with
    | some a => a.state == .waitingBus
    | none => false

/-- The lowest-numbered loaded element that satisfies a test. -/
def State.lowest (s : State) (p : ElementId → Loaded → Bool) : Option ElementId :=
  (allOf 48).find? fun e =>
    match s.loadedAt e with
    | some l => p e l
    | none => false

/-- The element that the probe turn names: the first missing one after the last probed, wrapping (R138). -/
def State.probeCandidate (s : State) : Option ElementId :=
  ((allOf 48).map fun k => s.bus.lastProbed + 1 + k).find? fun e =>
    match s.loadedAt e with
    | some l => l.missing
    | none => false

/-- The element of the SAFE at the head of the SAFE queue, if it may be sent one (R128, R139). -/
def State.dueSafe (s : State) : Option ElementId :=
  s.bus.safeQueue.head?.filter fun e =>
    match s.loadedAt e with
    | some l => l.presence != .absent
    | none => false

/-- The first due transaction of the order of R128. -/
def State.firstDue (s : State) : Option (ElementId × BusCommand) :=
  match s.dueSafe with
  | some e => some (e, .safe)
  | none =>
    match s.lowest s.dueActuate with
    | some e => some (e, .actuate)
    | none =>
      match s.lowest fun _ l => l.isPresent && l.fetchMark with
      | some e => some (e, .fetch)
      | none =>
        match s.lowest fun _ l => l.isPresent && countdownDue l.actionPoll with
        | some e => some (e, .actionPoll)
        | none =>
          match s.lowest fun _ l => l.isPresent && countdownDue l.sensor with
          | some e => some (e, .sensorPoll)
          | none => if s.bus.probeTurn then s.probeCandidate.map fun e => (e, .probe) else none

/-- What the start of a transaction writes in its element: the first ACTUATE of a record sets the sent mark, flips
the action toggle and sets the retry count to 0 (R130); the countdown or mark that called for it is used up (R127, R137). -/
def Loaded.started (l : Loaded) : BusCommand → Loaded
  | .actuate =>
    match l.act with
    | some a =>
      if a.sent then { l with resend := none }
      else { l with act := some { a with sent := true }, actToggle := !l.actToggle, retries := 0, resend := none }
    | none => l
  | .fetch => { l with fetchMark := false }
  | .actionPoll => { l with actionPoll := none }
  | .sensorPoll => { l with sensor := none }
  | .probe | .safe => l

/-- The toggle and payload of a master frame (R121). -/
def Loaded.masterBody (l : Loaded) : BusCommand → Bool × List Byte
  | .actuate =>
    match l.act with
    | some a => (l.actToggle, [a.request.action, a.request.argument])
    | none => (l.actToggle, [])
  | .fetch => (l.fetchToggle, [])
  | .actionPoll | .sensorPoll | .probe | .safe => (false, [])

/-- A master frame: mark character's address, command, control byte, payload, check (section 6.2, R121, section 11.6). -/
def masterFrame (addr : Byte) (c : BusCommand) (toggle : Bool) (payload : List Byte) : List Byte :=
  let covered := [c.code, byte (128 * bit toggle + payload.length)] ++ payload
  [addr] ++ covered ++ [busCheck covered]

/-- A transaction starts: its element's records are used up, the probe turn is cleared and the last probed element
recorded for a PROBE, and the pair is in flight with the answer window in force (R124, R128, R130, R137, R138). -/
def State.startTransaction (s : State) (e : ElementId) (c : BusCommand) : State :=
  match s.loadedAt e with
  | none => s
  | some l =>
    let l' := l.started c
    let body := l'.masterBody c
    (s.updLoaded e fun _ => l').updBus fun b =>
      { b with
        activity := .flight
          { element := e, command := c, bytes := masterFrame l.entry.busAddr c body.1 body.2,
            window := s.timing.window, void := false, breakHold := false, stage := .sending }
        probeTurn := if c = .probe then false else b.probeTurn
        lastProbed := if c = .probe then e else b.lastProbed }

/-- A probe turn that finds no UNKNOWN or ABSENT element is cleared without a transaction (R138). -/
def State.clearIdleTurn (s : State) : State :=
  if s.probeCandidate = none then s.updBus fun b => { b with probeTurn := false } else s

/-- While RUNNING with the pair idle, the first due transaction starts (R128). -/
def State.arbitrate (s : State) : State :=
  if s.bus.state = .running ∧ s.bus.activity = .idle then
    match s.firstDue with
    | some (e, c) => s.startTransaction e c
    | none => s
  else s

/-- What follows a change that may make a transaction due: an idle probe turn is cleared, and the bus arbiter chooses
(R128, R138). -/
def State.settle (s : State) : State := s.clearIdleTurn.arbitrate

/-! ### Characters of the pair (section 6.1, R2, R119) -/

/-- The levels of a bus character as it is sent, bit 0 first: start bit, data bits with the least significant first, mark
bit, stop bit (section 6.1). -/
def busLevels (b : Byte) (mark : Bool) : BitVec 11 := 1#1 ++ BitVec.ofBool mark ++ b ++ 0#1

/-- What the receiver makes of a falling edge whose eleven bits are sampled at their middle: a glitch forms no character;
otherwise the data byte, the mark bit and whether the stop bit is high (R2, R119). -/
def busCharacter (bits : BitVec 11) : Option BusChar :=
  if bits.getLsbD 0 then none
  else some { data := bits.extractLsb' 1 8, mark := bits.getLsbD 9, stop := bits.getLsbD 10 }

/-- No falling edge begins a character: the last character lacked its stop bit, and the pair has not been high for one bit
time since (R2, R119). -/
def Transaction.deaf (t : Transaction) (rested : Bool) : Bool := t.breakHold && !rested

/-- The character that a falling edge brings while the part listens (R2, R119). -/
def Transaction.hears (t : Transaction) (edge : BusEdge) : Option BusChar :=
  if t.deaf edge.rested then none else busCharacter edge.bits

/-! ### Answers (R122, R123) -/

/-- A character of an answer has its stop bit and is not slipped: only the first has its mark bit set (R119). -/
def charIntact (c : BusChar) (first : Bool) : Bool := c.stop && c.mark == first

/-- The length that an answer declares: an intact length byte from 0 to 8 (R123). -/
def declaredLength (chars : List BusChar) : Option Nat :=
  match chars with
  | _ :: _ :: n :: _ => if charIntact n false && n.data.toNat ≤ 8 then some n.data.toNat else none
  | _ => none

/-- The answer's check character has been received (R123). -/
def answerComplete (chars : List BusChar) : Bool :=
  match declaredLength chars with
  | some n => chars.length == 4 + n
  | none => false

/-- The cut-off of an answer, in character times after the start bit of its first character (R123). -/
def cutOff (chars : List BusChar) : Nat :=
  match declaredLength chars with
  | some n => 4 + n + 2
  | none => 14

/-- The statuses and payload lengths allowed for a command (R122). -/
def statusAllowed (c : BusCommand) (st : Status) (n : Nat) : Bool :=
  match c, st with
  | .probe, .ok => n == 2
  | .probe, .fault => n == 0
  | .actuate, .ok | .actuate, .hold | .actuate, .retry | .actuate, .reject | .actuate, .fault => n == 0
  | .actuate, .done | .actuate, .more => n == 1
  | .actionPoll, .ok | .actionPoll, .hold | .actionPoll, .fault => n == 0
  | .actionPoll, .done => n == 1
  | .actionPoll, .more => n == 0 || n == 1
  | .sensorPoll, .ok | .sensorPoll, .hold | .sensorPoll, .fault => n == 0
  | .sensorPoll, .done => n == 1
  | .sensorPoll, .more => n == 0 || n == 1
  | .fetch, .ok | .fetch, .more => 1 ≤ n && n ≤ 4
  | .fetch, .fault => n == 0
  | .safe, .ok | .safe, .retry | .safe, .fault | .safe, .more => n == 0
  | .safe, .done => n == 1
  | _, _ => false

/-- What a complete answer says: its status and payload when well-formed for the command and address, otherwise
GARBLED (R122, R123). -/
def parseAnswer (addr : Byte) (c : BusCommand) (chars : List BusChar) : BusOutcome :=
  match chars with
  | m :: st :: n :: rest =>
    let payload := (rest.take n.data.toNat).map (·.data)
    let covered := [st.data, n.data] ++ payload
    if charIntact m true && (st :: n :: rest).all (fun x => charIntact x false) && m.data == addr + 64#8
        && n.data.toNat ≤ 8 && rest.length == n.data.toNat + 1
        && (rest.drop n.data.toNat).map (·.data) == [busCheck covered] then
      match statusOf st.data with
      | some status => if statusAllowed c status payload.length then .answered status payload else .garbled
      | none => .garbled
    else .garbled
  | _ => .garbled

/-! ### What each outcome does -/

/-- The element's action-poll countdown starts again while its record is RUNNING or CANCELLING (R134). -/
def State.restartActionPoll (s : State) (e : ElementId) : State :=
  s.updLoaded e fun l => if l.busy && l.isPresent then { l with actionPoll := some s.timing.actionPoll } else l

/-- The element's sensor countdown starts again while it is PRESENT, reports, and has no RUNNING or CANCELLING
record (R136). -/
def State.restartSensor (s : State) (e : ElementId) : State :=
  s.updLoaded e fun l =>
    if l.isPresent && l.entry.kind.senses && !l.busy then { l with sensor := some s.timing.sensor } else l

/-- An element's FETCH mark is set (R137). -/
def State.setFetch (s : State) (e : ElementId) : State := s.updLoaded e fun l => { l with fetchMark := true }

/-- An element's retry count is set. -/
def State.setRetries (s : State) (e : ElementId) (n : Nat) : State := s.updLoaded e fun l => { l with retries := n }

/-- The supported mask of a PROBE answer holds every action of the entry's mask (R142). -/
def maskCovers (supported needed : BitVec 8) : Bool := needed &&& supported == needed

/-- What an ANSWERED PROBE does: an UNKNOWN or ABSENT element becomes PRESENT when class and mask match the entry,
and FAULTED MISMATCH when not; FAULT faults it (R142). -/
def State.probeAnswered (s : State) (e : ElementId) (l : Loaded) (st : Status) (payload : List Byte) : State :=
  match st, payload with
  | .ok, [cls, mask] =>
    if l.missing then
      if kindOf cls = some l.entry.kind ∧ maskCovers mask l.entry.actionMask = true then s.changePresence e .present
      else s.changePresence e (.faulted .mismatch)
    else s
  | .fault, _ => s.becomeFaulted e .fault
  | _, _ => s

/-- An ACTUATE's answer for a record in WAITING-BUS (R132). -/
def State.actuateWaiting (s : State) (e : ElementId) (l : Loaded) (a : Actuation) (st : Status) (payload : List Byte) : State :=
  match st with
  | .ok | .hold =>
    s.updLoaded e fun l =>
      { l with act := some { a with state := .running, running := 0 }, retries := 0,
               actionPoll := some s.timing.actionPoll, sensor := none }
  | .done => (s.setRetries e 0).endActuation e (.done (payload.headD 0))
  | .more => ((s.setRetries e 0).setFetch e).endActuation e (.done (payload.headD 0))
  | .retry =>
    if l.retries + 1 < Config.retryLimit then
      s.updLoaded e fun l => { l with retries := l.retries + 1, resend := some s.timing.actionPoll }
    else (s.setRetries e 0).endActuation e (.failed .retries)
  | .reject => (s.setRetries e 0).endActuation e (.failed .rejected)
  | .fault => s.becomeFaulted e .fault

/-- An ACTUATE's answer for a record that has become CANCELLING (R133). -/
def State.actuateCancelling (s : State) (e : ElementId) (st : Status) (payload : List Byte) : State :=
  match st with
  | .ok | .hold => s
  | .done => s.endActuation e (.done (payload.headD 0))
  | .more => (s.setFetch e).endActuation e (.done (payload.headD 0))
  | .retry | .reject => s.setRetries e 0
  | .fault => s.becomeFaulted e .fault

/-- What an ANSWERED ACTUATE does (R132, R133): without a record in WAITING-BUS or CANCELLING only MORE's FETCH
mark remains. -/
def State.actuateAnswered (s : State) (e : ElementId) (l : Loaded) (st : Status) (payload : List Byte) : State :=
  match l.act with
  | some a =>
    match a.state with
    | .waitingBus => s.actuateWaiting e l a st payload
    | .cancelling => s.actuateCancelling e st payload
    | .running => if st = .more then s.setFetch e else s
  | none => if st = .more then s.setFetch e else s

/-- What an ANSWERED action POLL does (R134); a record that is neither RUNNING nor CANCELLING is left as it is. -/
def State.actionPollAnswered (s : State) (e : ElementId) (l : Loaded) (st : Status) (payload : List Byte) : State :=
  match st with
  | .done => if l.busy then s.endActuation e (.done (payload.headD 0)) else s
  | .more =>
    match payload with
    | r :: _ => if l.busy then (s.setFetch e).endActuation e (.done r) else s.setFetch e
    | [] => s.setFetch e
  | .fault => s.becomeFaulted e .fault
  | .ok | .hold | .retry | .reject => s

/-- What an ANSWERED sensor POLL does (R136). -/
def State.sensorPollAnswered (s : State) (e : ElementId) (st : Status) : State :=
  match st with
  | .more => s.setFetch e
  | .fault => s.becomeFaulted e .fault
  | .ok | .hold | .done | .retry | .reject => s

/-- An element's fetch toggle flips (R137). -/
def State.flipFetch (s : State) (e : ElementId) : State :=
  s.updLoaded e fun l => { l with fetchToggle := !l.fetchToggle }

/-- What an ANSWERED FETCH does: its reports are taken, the fetch toggle flips, and MORE sets the mark again (R137). -/
def State.fetchAnswered (s : State) (e : ElementId) (st : Status) (payload : List Byte) : State :=
  match st with
  | .ok => (s.takeReports e payload).flipFetch e
  | .more => ((s.takeReports e payload).flipFetch e).setFetch e
  | .fault => s.becomeFaulted e .fault
  | .hold | .done | .retry | .reject => s

/-- A CANCELLING actuation ends CANCELLED when its element's SAFE is answered (R114, R140). -/
def State.endCancelling (s : State) (e : ElementId) : State :=
  match (s.loadedAt e).bind (·.act) with
  | some a => if a.state = .cancelling then s.endActuation e .cancelled else s
  | none => s

/-- What an ANSWERED SAFE does (R140). -/
def State.safeAnswered (s : State) (e : ElementId) (l : Loaded) (st : Status) : State :=
  match st with
  | .ok | .done => ((s.dropSafe e).setRetries e 0).endCancelling e
  | .more => (((s.dropSafe e).setRetries e 0).setFetch e).endCancelling e
  | .retry =>
    if l.retries + 1 < Config.retryLimit then s.setRetries e (l.retries + 1)
    else ((s.dropSafe e).setRetries e 0).becomeFaulted e .safeRefused
  | .fault => (s.dropSafe e).becomeFaulted e .fault
  | .hold | .reject => s

/-- What each command's answer does; an ACTUATE, POLL or FETCH of an element that is not PRESENT does nothing (R126). -/
def State.answered (s : State) (e : ElementId) (l : Loaded) (c : BusCommand) (st : Status) (payload : List Byte) : State :=
  match c with
  | .probe => s.probeAnswered e l st payload
  | .safe => s.safeAnswered e l st
  | .actuate => if l.isPresent then s.actuateAnswered e l st payload else s
  | .actionPoll => if l.isPresent then (s.actionPollAnswered e l st payload).restartActionPoll e else s
  | .sensorPoll => if l.isPresent then (s.sensorPollAnswered e st).restartSensor e else s
  | .fetch => if l.isPresent then s.fetchAnswered e st payload else s

/-- What an ANSWERED transaction does: the miss count becomes 0, and the answer is acted on; an ACTUATE, POLL or
FETCH of an element that is not PRESENT changes the miss count alone (R125, R126). -/
def State.actOnAnswer (s : State) (e : ElementId) (c : BusCommand) (st : Status) (payload : List Byte) : State :=
  match s.loadedAt e with
  | none => s
  | some l => (s.setMisses e 0).answered e l c st payload

/-- What a miss calls for again on a PRESENT element: a missed FETCH sets its mark again, a missed POLL starts its
countdown again (R134, R136, R137). -/
def State.missedAgain (s : State) (e : ElementId) (c : BusCommand) : State :=
  match c with
  | .fetch => s.setFetch e
  | .actionPoll => s.restartActionPoll e
  | .sensorPoll => s.restartSensor e
  | .probe | .actuate | .safe => s

/-- What a miss does: it calls for what was missed again, on a PRESENT element only, and the miss count rises (R125,
R126). -/
def State.actOnMiss (s : State) (e : ElementId) (c : BusCommand) : State :=
  match s.loadedAt e with
  | none => s
  | some l => (if l.isPresent then s.missedAgain e c else s).countMiss e

/-- The pair rests after a transaction (R123). -/
def State.restPair (s : State) : State := s.updBus fun b => { b with activity := .rest }

/-- A transaction's outcome is acted on with the element's records as they then stand, and the pair rests; the
outcome is discarded when the entry was loaded or cleared since the start (R123, R126). -/
def State.endTransaction (s : State) (t : Transaction) (o : BusOutcome) : State :=
  if t.void then s.restPair
  else
    match o with
    | .answered st payload => s.restPair.actOnAnswer t.element t.command st payload
    | .silent | .garbled => s.restPair.actOnMiss t.element t.command

/-- The transaction in flight takes a new record. -/
def State.fly (s : State) (t : Transaction) : State := s.updBus fun b => { b with activity := .flight t }

/-- A character of the answer to `t` has been received: the answer goes on, or it is complete and the transaction
ends (R123). The address asked is the data byte of the master frame's mark character. After a character that lacks its stop
bit no new start bit is looked for until the pair has been high for one bit time (R2, R119). -/
def State.answerReceived (s : State) (t : Transaction) (chars : List BusChar) (c : BusChar) : State :=
  let got := chars ++ [c]
  if answerComplete got then
    (s.endTransaction t (parseAnswer (t.bytes.headD 0) t.command got)).settle
  else s.fly { t with stage := .answer got, breakHold := !c.stop }

/-- The answer that the character of `edge` completes, when the transaction in flight is a `k`: its transaction, its
characters so far, and that character (R123). -/
def State.completesAnswer (s : State) (k : BusCommand) (edge : BusEdge) : Option (Transaction × List BusChar × BusChar) :=
  match s.bus.activity with
  | .flight t =>
    match t.stage, t.hears edge with
    | .answer chars, some c =>
      if t.command = k ∧ answerComplete (chars ++ [c]) = true then some (t, chars, c) else none
    | .answer _, none | .sending, _ | .window, _ => none
  | .idle | .rest => none

/-- An element's entry is loaded or cleared: a transaction in flight for it becomes void (R126). -/
def State.voidTransaction (s : State) (e : ElementId) : State :=
  s.updBus fun b =>
    match b.activity with
    | .flight t => if t.element = e then { b with activity := .flight { t with void := true } } else b
    | .idle | .rest => b

/-- An element's action limit passes: FAULTED TIMEOUT first, then the end FAILED TIMEOUT, then the presence change
reported and noticed, and a SAFE queued unless one is pending (R135). -/
def State.passActionLimit (s : State) (e : ElementId) : State :=
  ((((s.setPresence e (.faulted .timeout)).endActuation e (.failed .timeout)).elementLost e .fault).queueNotice
    (.element e (.faulted .timeout))).queueSafe e

end Sys2Proof.Machine
end

