-- ==== Sys2Proof/Machine/Sequencer.lean ====
section
/-! DEFINITION. The Match Sequencer's procedures: phase changes with their announcements, the timed run, stops and
resumes, placing and release, and the Referee Line Unit's activations (spec/03_matches_phases_and_field_stops.md,
spec/04_referee_lines.md). -/

namespace Sys2Proof.Machine

open Sys2Proof

/-! ### Phase changes (R49, R55) -/

/-- The slots placed in a field, in ascending order. -/
def State.placedIn (s : State) (f : FieldId) : List SlotId := (allOf 32).filter fun i => s.slotField i == some f

/-- The silent marks of the field's slots are cleared (R42, R55). -/
def State.clearSilent (s : State) (f : FieldId) : State :=
  (s.placedIn f).foldl (fun s i => s.updSlot i fun x => { x with silent := false }) s

/-- The silence test of each slot of the field, in ascending slot order (R41, R55). -/
def State.testSilence (s : State) (f : FieldId) : State := (s.placedIn f).foldl State.silenceTest s

/-- The announcements of R55 after a change of a field's phase has been written: the urgent mark, NOTICE PHASE with
the given match number and aborted mark, the phase event on entry to TELEOP or ENDGAME, and the silence test on
entry to a timed phase or the clearing of silent marks on entry to any other. -/
def State.announcePhase (s : State) (f : FieldId) (number : Nat) (aborted : Bool) : State :=
  let p := (s.fields.at f).phase
  let s := (s.setUrgent f).queueNotice (.phase f p number aborted)
  let s := if p = .teleop ∨ p = .endgame then s.phaseEvent f p else s
  if p.timed then s.testSilence f else s.clearSilent f

/-- The timed run from TELEOP: TELEOP with 100·T, or ENDGAME with 100·E when E equals T (R49). -/
def MatchRecord.runFromTeleop (m : MatchRecord) : Phase × Nat :=
  if m.durE < m.durT then (.teleop, 100 * m.durT) else (.endgame, 100 * m.durE)

/-- The timed run from PAUSE (R49). -/
def MatchRecord.runFromPause (m : MatchRecord) : Phase × Nat :=
  if 0 < m.durP then (.pause, 100 * m.durP) else m.runFromTeleop

/-- The timed run from AUTO (R49). -/
def MatchRecord.runFromAuto (m : MatchRecord) : Phase × Nat :=
  if 0 < m.durA then (.auto, 100 * m.durA) else m.runFromPause

/-- A field enters a phase with a remaining time; its match number and aborted mark are those it has (R49, R55). -/
def State.enterPhase (s : State) (f : FieldId) (dest : Phase × Nat) : State :=
  let s := s.updField f fun m => { m with phase := dest.1, remaining := dest.2 }
  s.announcePhase f (s.fields.at f).number (s.fields.at f).aborted

/-- As `enterPhase`, by the expiry of a phase: slots whose gates turn OFF receive gate-off PHASE, in the order in which
R55 lists its announcements (R27, R55). -/
def State.expireInto (s : State) (f : FieldId) (dest : Phase × Nat) : State :=
  let t := s.updField f fun m => { m with phase := dest.1, remaining := dest.2 }
  (t.gateOffEvents s .phase).announcePhase f (s.fields.at f).number (s.fields.at f).aborted

/-- A field is RUNNING in a phase. -/
def State.runningIn (s : State) (f : FieldId) (p : Phase) : Bool :=
  (s.fields.at f).phase == p && (s.fields.at f).stopped.isNone

/-- The expiry of AUTO (R50). -/
def State.expireAuto (s : State) (f : FieldId) : State := s.expireInto f (s.fields.at f).runFromPause

/-- The expiry of PAUSE (R51). -/
def State.expirePause (s : State) (f : FieldId) : State := s.expireInto f (s.fields.at f).runFromTeleop

/-- The ENDGAME boundary: the remaining time is then 100·E (R52). -/
def State.crossBoundary (s : State) (f : FieldId) : State := s.enterPhase f (.endgame, 100 * (s.fields.at f).durE)

/-- The expiry that ends the match: POST, remaining time 0, aborted mark clear, the post grace started (R53). -/
def State.expireMatch (s : State) (f : FieldId) : State :=
  (s.updField f fun m => { m with aborted := false, grace := s.timing.grace }).expireInto f (.post, 0)

/-- The last timed phase of a match: ENDGAME, or TELEOP when E is 0 (R53). -/
def MatchRecord.lastPhase (m : MatchRecord) : Bool :=
  m.phase == .endgame || (m.phase == .teleop && m.durE == 0)

/-! ### Stops and resumes (R60 to R64) -/

/-- A field enters STOPPED: the gate-off events STOPPED, the safing, the urgent mark and NOTICE STOP (R61). -/
def State.enterStopped (s : State) (f : FieldId) (c : StopCause) : State :=
  let t := s.updField f fun m => { m with stopped := some c }
  (((t.gateOffEvents s .stopped).safeField f).setUrgent f).queueNotice (.stop f c)

/-- A stop that reaches a field: it applies in a stoppable phase, and a field STOPPED already keeps its cause (R60, R62). -/
def State.stopField (s : State) (f : FieldId) (c : StopCause) : State :=
  if (s.fields.at f).phase.stoppable = true ∧ (s.fields.at f).stopped = none then s.enterStopped f c else s

/-- A hall stop: a separate stop of each field, in the order A, B, C, D (R60). -/
def State.hallStop (s : State) (n : LineId) : State := (allOf 4).foldl (fun s f => s.stopField f (.hall n)) s

/-- The refusal of a resume request, if one of the three tests of R63 fails. -/
def State.resumeRefusal (s : State) (f : FieldId) : Option ReplyReason :=
  if (s.fields.at f).stopped = none then some .state
  else if stopHeld s.lines f then some .stopHeld
  else if stopLatched s.lines f then some .stopLatched
  else none

/-- A resume that passed its tests (R64). -/
def State.resumeField (s : State) (f : FieldId) (source : ResumeSource) : State :=
  ((s.updField f fun m => { m with stopped := none }).setUrgent f).queueNotice (.resume f source)

/-! ### Placing and release (R47) -/

/-- The alliance and position of a place of the slot list: East 1 to 3, then West 1 to 3. -/
def placeOfIndex (k : Nat) : Alliance × Nat := if k < 3 then (.east, k + 1) else (.west, k - 3 + 1)

/-- A slot is placed in a field: its placing is written, its flags are cleared, and its last DRIVE sequence
becomes absent (R45, R47). -/
def State.placeSlot (s : State) (f : FieldId) (i : SlotId) (a : Alliance) (position : Nat) : State :=
  s.updSlot i fun x =>
    { x with placing := some { field := f, alliance := a, position }, disabled := false, bypassed := false, lastSeq := none }

/-- Every listed slot is placed (R47). -/
def State.placeAll (s : State) (f : FieldId) (l : Table 6 (Option SlotId)) : State :=
  (allOf 6).foldl (fun s k =>
    match l.at k with
    | some i => s.placeSlot f i (placeOfIndex k.val).1 (placeOfIndex k.val).2
    | none => s) s

/-- A slot is released: field none, flags cleared, silent mark cleared (R47, R42). -/
def State.releaseSlot (s : State) (i : SlotId) : State :=
  s.updSlot i fun x => { x with placing := none, disabled := false, bypassed := false, silent := false }

/-- Every listed slot of a field is released (R47). -/
def State.releaseAll (s : State) (f : FieldId) : State :=
  (listedSlots (s.fields.at f).list).foldl State.releaseSlot s

/-- A field returns to IDLE: its slots are released and its record cleared but for the result record, with the
announcements of R55 carrying the match number just ended and the aborted mark it had (R67, R69;
notes/assumptions/14.md). -/
def State.toIdle (s : State) (f : FieldId) : State :=
  let m := s.fields.at f
  let s := s.releaseAll f
  let s := s.updField f fun _ => { MatchRecord.afterReset with result := m.result }
  s.announcePhase f m.number m.aborted

/-! ### Referee lines (R75 to R82) -/

/-- The filtered levels after a sample: a filtered line takes the new sample when it equals the previous one, and
the new sample becomes the previous one; an unfiltered line uses no sample (R75, R76). -/
def LineRecord.sampled (r : LineRecord) (v : Level) : LineRecord :=
  if r.filterOn then { r with filtered := if v = r.previous then v else r.filtered, previous := v } else r

/-- A line that becomes active sets its edge flag and hands on its stop (R72, R77, R80). -/
def State.activate (s : State) (n : LineId) : State :=
  match (s.lines.at n).role with
  | .stop =>
    ({ s with lines := s.lines.put n { s.lines.at n with edge := true } }).stopField (lineField n) (.line n)
  | .hallStop => ({ s with lines := s.lines.put n { s.lines.at n with edge := true } }).hallStop n
  | .unused | .resumeKey => s

/-- The resume combination of a field: the edge flags of its STOP lines are cleared, then the resume request is
tested and, if it passes, the field resumes (R82, R63, R64). -/
def State.combine (s : State) (f : FieldId) : State :=
  let s := { s with lines := clearEdges (fun n (r : LineRecord) => r.role == LineRole.stop && lineField n == f) s.lines }
  match s.resumeRefusal f with
  | none => s.resumeField f .combination
  | some _ => s

/-- The lines for which `p` holds take new records; then the lines that became active are activated in line order,
and each field whose combination condition turned to holding has its combination (R72, R80, R82). Two points here the spec
leaves open, and they are the model's choices (DESIGN CHOICE, unsafe, notes/assumptions/7.md): the combinations of several
fields are acted on in the order A, B, C, D, which shows in the order of their NOTICE RESUMEs; and every record is taken
first, so a stop line that becomes inactive at the same moment is inactive already when a combination tests its field. -/
def State.changeLines (s : State) (p : LineId → Bool) (g : LineId → LineRecord → LineRecord) : State :=
  let new : Table 16 LineRecord := Vector.ofFn fun n : Fin 16 => if p n then g n (s.lines.at n) else s.lines.at n
  let t := { s with lines := new }
  let t := ((allOf 16).filter fun n => (new.at n).active && !(s.lines.at n).active).foldl State.activate t
  ((allOf 4).filter fun f => combinationHolds new f && !combinationHolds s.lines f).foldl State.combine t

/-- A line is a RESUME-KEY line. -/
def State.isKey (s : State) (n : LineId) : Bool := (s.lines.at n).role == .resumeKey

/-- The lines of a sample that find their filters ON take the new sample (R75, R76). -/
def sampledLines (lines : Table 16 LineRecord) (pins : Table 16 Level) : Table 16 LineRecord :=
  Vector.ofFn fun n : Fin 16 => (lines.at n).sampled (pins.at n)

/-- A sample brings at once a stop line's activation and some field's combination, which may come in either order (R82). -/
def State.sampleRace (s : State) (pins : Table 16 Level) : Bool :=
  let new := sampledLines s.lines pins
  ((allOf 16).any fun n =>
      ((new.at n).role == .stop || (new.at n).role == .hallStop) && (new.at n).active && !(s.lines.at n).active)
    && (allOf 4).any fun f => combinationHolds new f && !combinationHolds s.lines f

/-- A list with an entry put at a place. -/
def insertAt {α : Type} (l : List α) (k : Nat) (x : α) : List α := l.take k ++ [x] ++ l.drop k

/-- The lines of a sample in the order in which they are taken when stops and combinations race: the other lines in
line order (R80), the RESUME-KEY lines of each field together at a place among them that a free value chooses (R82). -/
def State.sampleGroups (s : State) : List (LineId → Bool) :=
  (allOf 4).foldl (fun gs f =>
      insertAt gs (Config.race (s.choices + f.val) % (gs.length + 1)) fun n => s.isKey n && lineField n == f)
    ((allOf 16).map fun k n => n == k && !s.isKey n)

/-- One sample of the sixteen pins (R74, R75). Where a stop and a combination fall in one sample, free values say
which comes first (R82; notes/assumptions/7.md). R82 orders activations only. In such a sample a stop line that becomes
inactive is taken in its line's place among them, so a combination taken before it still finds the line active and is refused,
and one taken after it does not; in any other sample every release comes before every combination, and the combinations of
several fields come in the order A, B, C, D (`State.changeLines`). These are the model's choices (DESIGN CHOICE, unsafe,
notes/assumptions/7.md). -/
def State.sampleLines (s : State) (pins : Table 16 Level) : State :=
  let t := { s with pins := Vector.ofFn fun n : Fin 16 => if (s.lines.at n).filterOn then pins.at n else s.pins.at n }
  let g : LineId → LineRecord → LineRecord := fun n r => r.sampled (pins.at n)
  if s.sampleRace pins then
    s.sampleGroups.foldl (fun t p => t.changeLines p g) { t with choices := t.choices + 4 }
  else t.changeLines (fun _ => true) g

/-- A change of level on one pin: an unfiltered line follows it at once; a filtered line waits for its samples (R76, R75). -/
def State.changePin (s : State) (n : LineId) (v : Level) : State :=
  let s := { s with pins := s.pins.put n v }
  if (s.lines.at n).filterOn then s else s.changeLines (· == n) fun _ r => { r with filtered := v }

/-- A line record is applied: its settings are written, its levels are taken anew from the pin, its edge flag is
cleared, and the line neither becomes active nor inactive (R83). -/
def State.applyLine (s : State) (n : LineId) (role : LineRole) (active : Level) (filter : Bool) : State :=
  { s with
    lines := s.lines.put n
      { role, activeLevel := active, filterOn := filter, filtered := s.pins.at n, previous := s.pins.at n, edge := false } }

end Sys2Proof.Machine
end

