-- ==== Sys2Proof/Machine/Layout.lean ====
section
/-! DEFINITION. The byte layouts of spec/11_frame_and_record_layouts.md that the part sends: frames, verdicts,
replies, notices, beacons and the entries of the read tables. -/

namespace Sys2Proof.Machine

open Sys2Proof

/-! ### Frames (section 11.1) -/

/-- The bytes of a frame that its check covers: destination through the last payload byte (R4). -/
def Frame.body (f : Frame) : List Byte := [f.dst, f.src, f.kind, f.seq, byte f.payload.length] ++ f.payload

/-- A frame as it stands on the link (R14). -/
def Frame.wire (f : Frame) : List Byte := [Config.leadByte] ++ f.body ++ linkCheckBytes f.body

/-- The frame whose characters after the lead byte are `got` (section 11.1); short runs give none. -/
def frameOf (got : List Byte) : Option Frame :=
  match got with
  | dst :: src :: kind :: seq :: n :: rest => some { dst, src, kind, seq, payload := rest.take n.toNat }
  | _ => none

/-- A verdict's payload: element, outcome, datum, tag (section 11.2). -/
def Verdict.payload (v : Verdict) : List Byte := [v.element, byte v.outcome.code, v.outcome.datum, v.tag]

/-- A reply's payload: code, outcome, reason, then the data of a DONE (section 11.5). -/
def Reply.payload (r : Reply) : List Byte :=
  match r.outcome with
  | .done data => [r.code, byte 0, byte 0] ++ data
  | .wait => [r.code, byte 1, byte 0]
  | .refused reason => [r.code, byte 2, byte reason.code]

/-- A field as a byte. -/
def fieldByte (f : FieldId) : Byte := byte f.val

/-- The kind code and content bytes of a notice (section 11.5). -/
def NoticeContent.bytes : NoticeContent → Byte × List Byte
  | .stop f c => (1, [fieldByte f, stopByte (some c)])
  | .resume f src => (2, [fieldByte f, byte (match src with | .console => 0 | .combination => 1)])
  | .phase f p n a => (3, [fieldByte f, byte p.code] ++ be16 n ++ [byte (bit a)])
  | .element e p => (4, [elementByte e, byte p.code, byte p.causeCode])
  | .score f e k n pts a t c =>
    (5, [fieldByte f, elementByte e, byte k.val, byte n] ++ be16 pts ++ [byte a.code] ++ t.bytes ++ [byte (bit c)])
  | .late f e k n p => (6, [fieldByte f, elementByte e, byte k.val, byte n, byte p.code])
  | .unattributed f e k n c =>
    (7, [fieldByte f, elementByte e, byte k.val, byte n, byte (match c with | .noRule => 1 | .noHolder => 2)])
  | .silent i => (8, [byte i.val])
  | .heard i => (9, [byte i.val])
  | .settings valid skipped => (10, [byte (bit valid), byte skipped])

/-- A notice's payload: kind, dropped count, content (section 11.5). -/
def Notice.payload (n : Notice) : List Byte := [n.content.bytes.1, byte n.dropped] ++ n.content.bytes.2

/-! ### Beacons (section 11.4) -/

/-- Milliseconds as whole seconds, rounded up (R171). -/
def secondsUp (ms : Nat) : Nat := (ms + 999) / 1000

/-- The remaining seconds a beacon shows (R171). -/
def MatchRecord.secondsShown (m : MatchRecord) : Nat :=
  match m.phase with
  | .auto | .pause | .teleop | .endgame => secondsUp m.remaining
  | .pre => secondsUp m.runFromAuto.2
  | .idle | .post => 0

/-- The element a slot holds, the lower-numbered one if it holds two (R118). -/
def State.heldElement (s : State) (i : SlotId) : Option ElementId :=
  (allOf 48).find? fun e =>
    match s.loadedAt e with
    | some l => l.heldBy i
    | none => false

/-- A slot entry of a beacon for a place of the slot list (R172, section 11.4). -/
def State.beaconEntry (s : State) (place : Nat) (i : SlotId) : List Byte :=
  let x := s.slots.at i
  [byte (16 * (placeOfIndex place).1.code + (placeOfIndex place).2)] ++ be24 x.team
    ++ [byte ((s.effectiveGate i).code + 4 * bit x.silent + 8 * bit x.throttled),
        match s.heldElement i with
        | some e => elementByte e
        | none => 0xFF#8]

/-- The slot entries of a field's beacon, in the order of the places (R172). -/
def State.beaconEntries (s : State) (f : FieldId) : List Byte :=
  (allOf 6).flatMap fun k =>
    match (s.fields.at f).list.at k with
    | some i => s.beaconEntry k.val i
    | none => []

/-- A field's beacon payload (R170, section 11.4). -/
def State.beaconPayload (s : State) (f : FieldId) : List Byte :=
  let m := s.fields.at f
  let t := s.tallies.at f
  [fieldByte f] ++ be16 m.number ++ [byte m.phase.code, stopByte m.stopped] ++ be16 m.secondsShown
    ++ t.east.bytes ++ t.west.bytes
    ++ [byte (bit t.eastCap + 2 * bit t.westCap + 4 * bit (summaryMark s.lines f) + 16 * (listedSlots m.list).length)]
    ++ s.beaconEntries f

/-! ### Read entries (section 11.5) -/

/-- A byte for something that may be absent: 0xFF for none. -/
def orNone (x : Option Nat) : Byte :=
  match x with
  | some n => byte n
  | none => 0xFF#8

/-- A STATION entry with its marking, for an address (R184). -/
def State.stationEntry (s : State) (a : Byte) : List Byte :=
  match findStation s.stations a with
  | none => [byte 0]
  | some (st, how) =>
    [byte 1, st.addr, byte st.slot.val,
     byte (bit (st.role == .driver) + 2 * bit st.acceptTwin + 4 * bit (how == .twin))]

/-- A SLOT entry with its marking (R184). -/
def State.slotEntry (s : State) (i : SlotId) : List Byte :=
  let x := s.slots.at i
  let role (r : Role) : Byte :=
    match stationOf s.stations r i with
    | some st => st.addr
    | none => 0xFF#8
  [byte (bit (x.team != 0))] ++ be24 x.team
    ++ [orNone (x.placing.map fun p => p.field.val),
        match x.placing with
        | some p => byte (16 * p.alliance.code + p.position)
        | none => 0,
        byte (bit x.disabled + 2 * bit x.bypassed + 4 * bit x.silent + 8 * bit x.throttled
          + 16 * bit (x.radio == .twin) + 32 * bit x.held.isSome + 64 * bit x.lastSeq.isSome)]
    ++ be16 x.ceiling ++ [byte x.refill] ++ be16 x.credit
    ++ [match x.held with
        | some f => f.seq
        | none => 0,
        x.lastSeq.getD 0]
    ++ be16 x.age ++ [byte x.outstanding, role .robot, role .driver]

/-- The bytes of a queued claim (section 11.5). -/
def Claim.bytes (c : Claim) : List Byte :=
  [byte (c.slot.val + 32 * c.request.action.toNat), c.request.argument, c.request.tag]

/-- The code of an actuation state (section 11.5). -/
def ActState.code : ActState → Nat
  | .waitingBus => 0
  | .running => 1
  | .cancelling => 2

/-- Bytes 26 to 32 of an ELEMENT entry: the hold record (section 11.5). -/
def holdBytes : Option Hold → List Byte
  | none => [0xFF#8, 0, 0, 0, 0, 0, 0]
  | some h =>
    [byte h.slot.val, h.tag] ++ be16 h.remaining ++
      match h.next with
      | none => [0, 0, 0]
      | some n => [byte (128 + n.action.toNat), n.argument, n.tag]

/-- Bytes 33 to 38 of an ELEMENT entry: the actuation record (section 11.5). -/
def actBytes : Option Actuation → List Byte
  | none => [0xFF#8, 0, 0, 0, 0, 0]
  | some a =>
    [byte a.slot.val, byte (a.request.action.toNat + 8 * a.state.code + 32 * bit a.sent), a.request.argument, a.request.tag]
      ++ be16 a.running

/-- Bytes 39 to 41 of an ELEMENT entry: the last-release record (section 11.5). -/
def releaseBytes : Option LastRelease → List Byte
  | none => [0xFF#8, 0, 0]
  | some r => [byte r.slot.val] ++ be16 r.since

/-- An ELEMENT entry with its marking (R118, R184). An empty entry carries its event count. -/
def State.elementEntry (s : State) (e : ElementId) : List Byte :=
  let x := s.elements.at e
  match x.loaded with
  | none => [byte 0] ++ be16 x.eventCount
  | some l =>
    [byte 1, l.entry.busAddr,
     byte (l.entry.field.val + 4 * l.entry.owner.code + 16 * l.entry.kind.code + 64 * l.entry.discipline.code),
     l.entry.actionMask, byte (l.entry.phaseMask.toNat + 16 * l.claims.length)]
    ++ be16 l.entry.holdLimit ++ be16 l.entry.coolDown ++ be16 l.entry.actionLimit
    ++ [byte (l.presence.code + 4 * l.presence.causeCode + 32 *
          match l.lastAlliance with
          | some a => a.code
          | none => 3),
        byte (l.misses + 4 * l.retries + 32 * bit l.actToggle + 64 * bit l.fetchToggle)]
    ++ be16 x.eventCount
    ++ ((l.claims.flatMap Claim.bytes) ++ List.replicate 12 (0 : Byte)).take 12
    ++ holdBytes l.hold ++ actBytes l.act ++ releaseBytes l.lastRelease

/-- The four bytes of a score rule (section 11.5). -/
def ruleBytes : Option ScoreRule → List Byte
  | none => [0xFF#8, 0, 0, 0]
  | some r => [byte r.beneficiary.code, byte r.auto, byte r.teleop, byte r.endgame]

/-- A RULE entry with its marking: the four rules of an element number (R148). -/
def State.ruleEntry (s : State) (e : ElementId) : List Byte :=
  let rules := (s.elements.at e).rules
  if rules.toList.all Option.isNone then [byte 0] else [byte 1] ++ rules.toList.flatMap ruleBytes

/-- A LINE entry with its marking (R84). -/
def State.lineEntry (s : State) (n : LineId) : List Byte :=
  let r := s.lines.at n
  [byte 1, r.recordByte, byte (Level.code r.filtered + 2 * bit r.flag)]

/-- A FIELD entry with its marking (R184). -/
def State.fieldEntry (s : State) (f : FieldId) : List Byte :=
  let m := s.fields.at f
  let t := s.tallies.at f
  [byte 1] ++ be16 m.number ++ be16 m.durA ++ be16 m.durP ++ be16 m.durT ++ be16 m.durE
    ++ (m.list.toList.map fun p => orNone (p.map (·.val)))
    ++ [byte m.phase.code, stopByte m.stopped] ++ be24 m.remaining ++ be16 m.grace
    ++ t.east.bytes ++ t.west.bytes ++ be16 t.eastCount ++ be16 t.westCount
    ++ [byte (bit t.eastCap + 2 * bit t.westCap + 4 * bit (summaryMark s.lines f) + 8 * bit m.aborted)]
    ++ match m.result with
       | none => [0, 0, 0, 0, 0, 0, 0]
       | some r =>
         [byte (128 + bit r.eastCap + 2 * bit r.westCap + 8 * bit r.aborted)] ++ be16 r.number ++ r.east.bytes ++ r.west.bytes

/-- The GATE entry with its marking (R43). -/
def State.gateEntry (s : State) : List Byte :=
  let g := s.gate
  [byte 1] ++ be16 g.unknownSource ++ be16 g.badKind ++ be16 g.bypassed ++ be16 g.misdirected ++ be16 g.stale
    ++ be16 g.throttled ++ be16 g.tellFull ++ be16 g.superseded

/-- The LINK 0 entry with its marking (R10). -/
def State.linkEntry (s : State) : List Byte :=
  let c := s.link.counters
  [byte 1] ++ be16 c.check ++ be16 c.framing ++ be16 c.overlong ++ be16 c.truncated ++ be16 c.overrun
    ++ be16 c.received ++ be16 c.sent

/-- The timing settings in the order and widths of the SET TIMING operands (section 11.5). -/
def Timing.bytes (t : Timing) : List Byte :=
  be16 t.beacon ++ be16 t.silent ++ be16 t.grace ++ [byte t.actionPoll, byte t.sensor] ++ be16 t.probe
    ++ [byte t.sample, byte t.p, byte t.k] ++ be16 t.window

/-- The settings entry, LINK 1, without its marking (R187). -/
def State.settingsEntry (s : State) : List Byte :=
  [byte s.mgmt.mode.code, byte s.link.rate.code, s.link.own, s.link.console, byte s.bus.state.code]
    ++ s.timing.bytes ++ [byte s.mgmt.dropped]

/-- The marking and entry of a read table at an index (R182); the index is in range where READ uses this. -/
def State.entryAt (s : State) (t : ReadTable) (i : Nat) : List Byte :=
  match t with
  | .station => s.stationEntry (byte i)
  | .slot => s.slotEntry (Fin.ofNat 32 i)
  | .element => s.elementEntry (Fin.ofNat 48 i)
  | .rule => s.ruleEntry (Fin.ofNat 48 i)
  | .line => s.lineEntry (Fin.ofNat 16 i)
  | .field => s.fieldEntry (Fin.ofNat 4 i)
  | .gate => s.gateEntry
  | .link => if i = 0 then s.linkEntry else [byte 1] ++ s.settingsEntry

/-- The data of a READ or READ NEXT reply: table code, index, marking and entry (section 11.5). -/
def State.readData (s : State) (t : ReadTable) (i : Nat) : List Byte := [byte t.code, byte i] ++ s.entryAt t i

end Sys2Proof.Machine
end

