-- ==== Sys2Proof/Machine/Link.lean ====
section
/-! DEFINITION. The Arena Link Port's commands: the receive line, the transmitter and its arbiter
(spec/01_arena_link.md), and the takes of beacons, verdicts, DRIVE frames, replies, notices and TELLs. -/

namespace Sys2Proof.Machine

open Sys2Proof

/-! ### Characters (section 1.1, R2) -/

/-- The levels of a character as it is sent, bit 0 first: start bit, data bits with the least significant first, stop
bit (section 1.1). -/
def linkLevels (b : Byte) : BitVec 10 := 1#1 ++ b ++ 0#1

/-- What the receiver makes of a falling edge whose ten bits are sampled at their middle: a glitch forms no character;
otherwise the data byte and whether the stop bit is high (R2). -/
def linkCharacter (bits : BitVec 10) : Option (Byte × Bool) :=
  if bits.getLsbD 0 then none else some (bits.extractLsb' 1 8, bits.getLsbD 9)

/-- RSTN is held low: the part stays in reset and does nothing (R191). -/
def State.inReset (s : State) : Bool := s.loader.stage == .inReset

/-! ### Receiving (R3 to R9) -/

/-- The characters after the lead byte make a whole frame: header, payload and two check bytes (R3). -/
def frameDone (got : List Byte) : Bool :=
  match got with
  | _ :: _ :: _ :: _ :: n :: rest => n.toNat ≤ Config.maxPayload && rest.length == n.toNat + 2
  | _ => false

/-- The check of a complete frame agrees with its two check bytes (R5). -/
def frameChecks (got : List Byte) : Bool :=
  got.drop (got.length - 2) == linkCheckBytes (got.take (got.length - 2))

/-- A frame is complete: CHECK, OVERRUN, or the frame joins the receive store (R5, R9). -/
def State.completeFrame (s : State) (got : List Byte) : State :=
  if frameChecks got = false then s.countError .check
  else if Config.storeCapacity ≤ s.link.store.length then s.countError .overrun
  else
    match frameOf got with
    | none => s.countError .check
    | some f =>
      s.updLink fun l =>
        { l with receiver := .hunting, store := l.store ++ [f],
                 counters := { l.counters with received := saturate l.counters.received 1 } }

/-- A complete character arrives (R3, R5, R7). -/
def State.receive (s : State) (b : Byte) : State :=
  match s.link.receiver with
  | .hunting => if b = Config.leadByte then s.updLink fun l => { l with receiver := .inFrame [] } else s
  | .inFrame got =>
    if got.length = 4 ∧ Config.maxPayload < b.toNat then s.countError .overlong
    else if frameDone (got ++ [b]) then s.completeFrame (got ++ [b])
    else s.updLink fun l => { l with receiver := .inFrame (got ++ [b]) }

/-- A frame in progress ends with an error; while HUNTING there is none (R6, R8). -/
def State.abandonFrame (s : State) (e : LinkError) : State :=
  match s.link.receiver with
  | .hunting => s
  | .inFrame _ => s.countError e

/-- A character that lacks its stop bit: a frame in progress ends as FRAMING, and no new start bit is looked for until
the line has been high for one bit time (R2, R6). -/
def State.defective (s : State) : State := (s.abandonFrame .framing).updLink fun l => { l with breakHold := true }

/-- A falling edge on the receive line. After a character that lacked its stop bit it begins a character only when the
line has been high for one bit time; a glitch forms none (R2, R3, R6). -/
def State.edge (s : State) (edge : LinkEdge) : State :=
  if s.link.breakHold && !edge.rested then s
  else
    let s := s.updLink fun l => { l with breakHold := false }
    match linkCharacter edge.bits with
    | none => s
    | some (b, true) => s.receive b
    | some (_, false) => s.defective

/-- CHARACTER_RECEIVED (R2, R3). -/
def execCharacterReceived (edge : LinkEdge) (s : State) : Host.Outcome State Fault Refusal :=
  .next (if s.inReset then s else s.edge edge)

/-- FRAME_COMPLETE (R5): the second check character of the frame in progress. -/
def execFrameComplete (check : Byte) (s : State) : Host.Outcome State Fault Refusal :=
  match s.link.receiver with
  | .hunting => .next s
  | .inFrame got => .next (if frameDone (got ++ [check]) then s.completeFrame (got ++ [check]) else s)

/-- FRAMING (R6): a character lacks its stop bit; while HUNTING it is ignored (R3), but for the wait that R2 orders. -/
def execFraming (s : State) : Host.Outcome State Fault Refusal := .next (if s.inReset then s else s.defective)

/-- OVERLONG (R7): the length byte of the frame in progress is above 48. -/
def execOverlong (length : Byte) (s : State) : Host.Outcome State Fault Refusal :=
  match s.link.receiver with
  | .hunting => .next s
  | .inFrame got => .next (if got.length = 4 ∧ Config.maxPayload < length.toNat then s.countError .overlong else s)

/-- TRUNCATED (R8): the idle gap inside a frame exceeds its limit; gaps between frames are not timed. -/
def execTruncated (s : State) : Host.Outcome State Fault Refusal := .next (s.abandonFrame .truncated)

/-! ### The device reset (R191) -/

/-- The Settings Loader after a device reset: held while RSTN is low, beginning its reading when RSTN is high (R191). -/
def Loader.afterReset : Level → Loader
  | .low => .held
  | .high => .begun

/-- Every table, queue, counter, mark and record takes its value after device reset; the pins keep their levels,
which the line records take (R73); a reading in progress is abandoned, and begins afresh when RSTN is high (R191). The
waiting commands and the count of free values are no state of the part. -/
def State.deviceReset (s : State) (rstn : Level) : State :=
  { State.reset with
    lines := linesFromPins s.pins, pins := s.pins, loader := .afterReset rstn, choices := s.choices, pending := s.pending }

/-! ### The transmitter arbiter (R17) -/

/-- A field whose mark is set, lowest letter first. -/
def lowestMarked (marks : Table 4 Bool) : Option FieldId := (allOf 4).find? fun f => marks.at f

/-- The DRIVE hold store found by the round robin from the slot after the last served one (R17). -/
def State.nextHeld (s : State) : Option SlotId :=
  ((allOf 32).map fun k => s.link.lastServed + 1 + k).find? fun i => (s.slots.at i).held.isSome

/-- The item the arbiter takes: none while the transmitter is BUSY or nothing waits (R17). -/
def State.nextTake (s : State) : Option TakeChoice :=
  if s.link.transmitter = .free then
    match lowestMarked s.beacons.urgent with
    | some f => some (.beacon f)
    | none =>
      if s.link.verdicts.isEmpty = false then some .verdict
      else
        match s.nextHeld with
        | some i => some (.drive i)
        | none =>
          match lowestMarked s.beacons.routine with
          | some f => some (.beacon f)
          | none =>
            if s.link.replies.isEmpty = false then some .reply
            else if s.mgmt.notices.isEmpty = false then some .notice
            else if s.link.tells.isEmpty = false then some .tell
            else none
  else none

/-- The transmitter starts a frame (R14, R18); it is sent at the rate in force (R1). -/
def State.send (s : State) (f : Frame) (endsInReset : Bool) : State :=
  s.updLink fun l => { l with transmitter := .sending f.wire l.rate endsInReset }

/-- The transmitter starts a frame of the part's own, which takes the origin sequence (R14). -/
def State.sendOwn (s : State) (dst : Byte) (kind : FrameKind) (payload : List Byte) : State :=
  (s.send { dst, src := s.link.own, kind := kind.code, seq := s.link.origin, payload } false).updLink fun l =>
    { l with origin := l.origin + 1 }

/-- A field's beacon is taken: both marks clear, the throttled marks of its listed slots clear, and the frame is
sent with the state of the moment before (R169, R170, R173). -/
def State.sendBeacon (s : State) (f : FieldId) : State :=
  let payload := s.beaconPayload f
  let s := { s with beacons := { s.beacons with urgent := s.beacons.urgent.put f false, routine := s.beacons.routine.put f false } }
  let s := (listedSlots (s.fields.at f).list).foldl (fun s i => s.updSlot i fun x => { x with throttled := false }) s
  s.sendOwn Config.broadcast .beacon payload

/-- The oldest verdict is taken: sent to the slot's radio, or discarded when the slot has no ROBOT entry (R15). -/
def State.sendVerdict (s : State) (v : Verdict) : State :=
  let s := s.updLink fun l => { l with verdicts := l.verdicts.tail }
  match s.radioAddress v.slot with
  | none => s
  | some a => s.sendOwn a .verdict v.payload

/-- Payload byte 0 of a DRIVE frame replaced by the stamp (R39). -/
def stampPayload (stamp : Byte) : List Byte → List Byte
  | [] => []
  | _ :: rest => stamp :: rest

/-- A slot's DRIVE hold store is taken: readdressed and stamped with the effective gate of the moment, or dropped
as MISDIRECTED when the slot has no ROBOT entry (R39). -/
def State.sendDrive (s : State) (i : SlotId) : State :=
  match (s.slots.at i).held with
  | none => s
  | some f =>
    let gate := s.effectiveGate i
    let s := (s.updSlot i fun x => { x with held := none }).updLink fun l => { l with lastServed := i }
    match s.radioAddress i with
    | none => s.countDrop .misdirected
    | some a => s.send { f with dst := a, payload := stampPayload (byte gate.code) f.payload } false

/-- A reply is the REPLY DONE of a RESTART (R177). -/
def Reply.answersRestart (r : Reply) : Bool :=
  match r.outcome with
  | .done _ => r.code == 0x03#8
  | .wait | .refused _ => false

/-- The oldest reply is taken (R16, R14). -/
def State.sendReply (s : State) (r : Reply) : State :=
  (s.updLink fun l => { l with replies := l.replies.tail }).send
    { dst := s.link.console, src := s.link.own, kind := FrameKind.reply.code, seq := r.seq, payload := r.payload }
    (s.mgmt.restartPending && r.answersRestart)

/-- The oldest notice is taken (R188). -/
def State.sendNotice (s : State) (n : Notice) : State :=
  (s.updMgmt fun m => { m with notices := m.notices.tail }).sendOwn s.link.console .notice n.payload

/-- The oldest TELL is taken and sent unchanged (R16). -/
def State.sendTell (s : State) (f : Frame) : State :=
  (s.updLink fun l => { l with tells := l.tells.tail }).send f false

/-- TAKE_BEACON (R169). -/
def execTakeBeacon (s : State) : Host.Outcome State Fault Refusal :=
  match s.nextTake with
  | some (.beacon f) => .next (s.sendBeacon f)
  | _ => .next s

/-- TAKE_VERDICT (R15). -/
def execTakeVerdict (s : State) : Host.Outcome State Fault Refusal :=
  match s.nextTake, s.link.verdicts with
  | some .verdict, v :: _ => .next (s.sendVerdict v)
  | _, _ => .next s

/-- TAKE_DRIVE (R39). -/
def execTakeDrive (s : State) : Host.Outcome State Fault Refusal :=
  match s.nextTake with
  | some (.drive i) => .next (s.sendDrive i)
  | _ => .next s

/-- TAKE_REPLY (R16). -/
def execTakeReply (s : State) : Host.Outcome State Fault Refusal :=
  match s.nextTake, s.link.replies with
  | some .reply, r :: _ => .next (s.sendReply r)
  | _, _ => .next s

/-- TAKE_NOTICE (R188). -/
def execTakeNotice (s : State) : Host.Outcome State Fault Refusal :=
  match s.nextTake, s.mgmt.notices with
  | some .notice, n :: _ => .next (s.sendNotice n)
  | _, _ => .next s

/-- TAKE_TELL (R16). -/
def execTakeTell (s : State) : Host.Outcome State Fault Refusal :=
  match s.nextTake, s.link.tells with
  | some .tell, f :: _ => .next (s.sendTell f)
  | _, _ => .next s

/-- FRAME_SENT (R18): SENT rises and the idle gap begins; the end of a RESTART's reply takes the device reset (R19). -/
def execFrameSent (s : State) : Host.Outcome State Fault Refusal :=
  match s.link.transmitter with
  | .sending _ _ true => .next (s.deviceReset .high)
  | .sending _ _ false =>
    .next (s.updLink fun l =>
      { l with transmitter := .gap, counters := { l.counters with sent := saturate l.counters.sent 1 } })
  | .free | .gap => .next s

/-- TRANSMITTER_FREE (R18): the idle gap ends. The take that follows is its own command. -/
def execTransmitterFree (s : State) : Host.Outcome State Fault Refusal :=
  match s.link.transmitter with
  | .gap => .next (s.updLink fun l => { l with transmitter := .free })
  | .free | .sending _ _ _ => .next s

end Sys2Proof.Machine
end

