-- ==== Sys2Proof/Machine/Gate.lean ====
section
/-! DEFINITION. The Traffic Gate's commands on frames of robots and driver stations, and on frames it drops
(spec/02_robot_slots_and_the_traffic_gate.md). -/

namespace Sys2Proof.Machine

open Sys2Proof

/-- A frame from a robot refreshes its slot's last-heard state; a set silent mark is cleared with NOTICE HEARD (R31). -/
def State.refresh (s : State) (i : SlotId) (radio : Radio) : State :=
  let heard := (s.slots.at i).silent
  let s := s.updSlot i fun x => { x with radio, age := 0, silent := false }
  if heard then s.queueNotice (.heard i) else s

/-- The payload length that section 11.2 gives for a CLAIM or a RELEASE (R32). -/
def minimumLength : FrameKind → Nat
  | .claim => 4
  | .release => 1
  | .drive => 1
  | .tell | .verdict | .beacon | .manage | .reply | .notice => 0

/-- A TELL may go to the slot's driver station or to the console (R33). -/
def State.tellAllowed (s : State) (i : SlotId) (dst : Byte) : Bool :=
  dst == s.link.console ||
    match stationOf s.stations .driver i with
    | some st => dst == st.addr
    | none => false

/-- A DRIVE may name the own address, broadcast, or a radio address of the slot's ROBOT entry, if it has one (R36). -/
def State.driveAllowed (s : State) (i : SlotId) (dst : Byte) : Bool :=
  match stationOf s.stations .robot i with
  | none => false
  | some st => s.forPart dst || st.isRadio dst

/-- Why a robot's frame is dropped for its slot, kind, destination or length, if it is (R31, R32, R33). -/
def State.robotDrop (s : State) (i : SlotId) (f : Frame) : Option DropReason :=
  if (s.slots.at i).bypassed then some .bypassed
  else
    match frameKindOf f.kind with
    | some .tell => if s.tellAllowed i f.dst then none else some .misdirected
    | some .claim =>
      if s.forPart f.dst = false then some .misdirected
      else if f.payload.length < minimumLength .claim then some .badKind
      else none
    | some .release =>
      if s.forPart f.dst = false then some .misdirected
      else if f.payload.length < minimumLength .release then some .badKind
      else none
    | some .drive | some .verdict | some .beacon | some .manage | some .reply | some .notice | none => some .badKind

/-- Why a driver station's frame is dropped for its kind, destination or length, if it is (R36). -/
def State.driverDrop (s : State) (i : SlotId) (f : Frame) : Option DropReason :=
  match frameKindOf f.kind with
  | some .drive =>
    if s.driveAllowed i f.dst = false then some .misdirected
    else if f.payload.length < minimumLength .drive then some .badKind
    else none
  | some .tell | some .claim | some .release | some .verdict | some .beacon | some .manage | some .reply
  | some .notice | none => some .badKind

/-- The head frame is taken as a robot's frame of a kind: it leaves the store, refreshes its slot, is dropped for
the reasons of R31 to R33, or is handed on to `act` (R31). -/
def State.takeRobot (s : State) (i : SlotId) (radio : Radio) (f : Frame) (act : State → State) : State :=
  let s := s.popStore.refresh i radio
  match s.robotDrop i f with
  | some r => s.countDrop r
  | none => act s

/-- STARTING_FRAME (R28): a console MANAGE frame is answered WAIT when the reply queue has room, any other frame is
discarded uncounted (R175, R178). -/
def execStartingFrame (s : State) : Host.Outcome State Fault Refusal :=
  match s.mgmt.mode, s.link.store with
  | .starting, f :: _ =>
    .next (if f.kind = FrameKind.manage.code ∧ f.src = s.link.console ∧ s.mgmt.restartPending = false
        ∧ s.link.replies.length < Config.replyCapacity
      then s.popStore.queueReply f (f.payload.headD 0) .wait else s.popStore)
  | _, _ => .next s

/-- DROPPED_FRAME (R29): the head frame is dropped for its source, kind, destination, length or bypassed slot
(R12, R29 to R33, R36). A robot's frame refreshes its slot first (R31). -/
def execDroppedFrame (s : State) : Host.Outcome State Fault Refusal :=
  match s.headFrame with
  | some (_, .dropped r) => .next (s.popStore.countDrop r)
  | some (f, .robot i radio) =>
    if (s.robotDrop i f).isSome then .next (s.takeRobot i radio f id) else .next s
  | some (f, .driver i) =>
    match s.driverDrop i f with
    | some r => .next (s.popStore.countDrop r)
    | none => .next s
  | some (_, .manage) | none => .next s

/-- A DRIVE's sequence is accepted: the last sequence is absent, or the difference modulo 256 is 1 to 127 (R37). -/
def freshSequence (last : Option Byte) (q : Byte) : Bool :=
  match last with
  | none => true
  | some l => 1 ≤ (q - l).toNat && (q - l).toNat ≤ 127

/-- A DRIVE that passed R36 is STALE, or becomes the slot's held frame, displacing one already there (R37, R38). -/
def State.holdDrive (s : State) (i : SlotId) (f : Frame) : State :=
  if freshSequence (s.slots.at i).lastSeq f.seq then
    let displaced := (s.slots.at i).held.isSome
    let s := s.updSlot i fun x => { x with lastSeq := some f.seq, held := some f }
    if displaced then s.countDrop .superseded else s
  else s.countDrop .stale

/-- DRIVE (R36, R37, R38). -/
def execDrive (s : State) : Host.Outcome State Fault Refusal :=
  match s.headFrame with
  | some (f, .driver i) =>
    if frameKindOf f.kind = some .drive then
      match s.driverDrop i f with
      | some r => .next (s.popStore.countDrop r)
      | none => .next (s.popStore.holdDrive i f)
    else .next s
  | some (_, .dropped _) | some (_, .manage) | some (_, .robot _ _) | none => .next s

/-- The bytes a TELL costs: header, payload and check (R34). -/
def tellCost (f : Frame) : Nat := 8 + f.payload.length

/-- The budget test of a TELL (R34). -/
def State.budgetTell (s : State) (i : SlotId) (f : Frame) : State :=
  if (s.slots.at i).credit < tellCost f then
    (s.updSlot i fun x => { x with throttled := true }).countDrop .throttled
  else if Config.tellCapacity ≤ s.link.tells.length then s.countDrop .tellFull
  else
    (s.updSlot i fun x => { x with credit := x.credit - tellCost f }).updLink fun l => { l with tells := l.tells ++ [f] }

/-- TELL (R31, R33, R34). -/
def execTell (s : State) : Host.Outcome State Fault Refusal :=
  match s.headFrame with
  | some (f, .robot i radio) =>
    if frameKindOf f.kind = some .tell then .next (s.takeRobot i radio f fun s => s.budgetTell i f) else .next s
  | some (_, .dropped _) | some (_, .manage) | some (_, .driver _) | none => .next s

/-- BUDGET_TICK (R35): every slot's credit is refilled, and the next tick is 10 ms away. -/
def State.refillAll (s : State) : State :=
  { s with
    slots := s.slots.map fun x => { x with credit := min x.ceiling (x.credit + x.refill) }
    budgetLeft := some Config.budgetPeriod }

/-- The part's millisecond timers run: the device is not STARTING (R191). -/
def State.timersRun (s : State) : Bool := s.mgmt.mode != .starting

/-- BUDGET_TICK (R35). -/
def execBudgetTick (s : State) : Host.Outcome State Fault Refusal :=
  .next (if s.timersRun then s.refillAll else s)

/-- SILENT_TIMEOUT (R41): the slot's last-heard age passes the silent timeout. -/
def State.passSilence (s : State) (i : SlotId) : State :=
  if (s.slots.at i).silent = false ∧ s.inTimedPhase i = true then
    ((s.updSlot i fun x => { x with age := max x.age (s.timing.silent + 1) }).markSilent i).settle
  else s

/-- SILENT_TIMEOUT (R41). -/
def execSilentTimeout (i : SlotId) (s : State) : Host.Outcome State Fault Refusal := .next (s.passSilence i)

end Sys2Proof.Machine
end

