-- ==== Sys2Proof/Machine/Claims.lean ====
section
/-! DEFINITION. The Element Arbiter's commands: CLAIM, RELEASE and the expiry of a hold
(spec/05_field_elements_and_claims.md). -/

namespace Sys2Proof.Machine

open Sys2Proof

/-- An action is in a mask; an action above 7 is in no mask (R89). -/
def actionIn (mask : BitVec 8) (action : Byte) : Bool := mask.getLsbD action.toNat

/-- The seven tests of a CLAIM in order: the reason of the first that fails, or the element claimed (R89). -/
def State.testClaim (s : State) (i : SlotId) (element : Byte) (r : Request) : Except Reason (ElementId × Loaded) :=
  if s.gateOpen i = false then .error .gateOff
  else if (s.slots.at i).silent then .error .gateOff
  else
    match elementOf element with
    | none => .error .noElement
    | some e =>
      match s.loadedAt e with
      | none => .error .noElement
      | some l =>
        if some l.entry.field ≠ s.slotField i then .error .noElement
        else if (l.entry.kind.acts && actionIn l.entry.actionMask r.action) = false then .error .badAction
        else if phaseIn l.entry.phaseMask (s.fields.at l.entry.field).phase = false then .error .phase
        else if l.entry.owner ≠ .shared ∧ l.entry.owner.alliance ≠ s.slotAlliance i then .error .notYours
        else if l.presence ≠ .present then .error .elementDown
        else .ok (e, l)

/-- An in-hold action of the holder: an actuation record at once, or the hold's next action, dropping an earlier one (R90). -/
def State.inHold (s : State) (e : ElementId) (l : Loaded) (h : Hold) (r : Request) : State :=
  match l.act with
  | none => (s.updLoaded e fun l => l.withAct h.slot r).verdictFor h.slot e .acting r.tag
  | some _ =>
    let s := s.updLoaded e fun l => { l with hold := some { h with next := some r } }
    let s :=
      match h.next with
      | some old => s.verdictFor h.slot e .cancelled old.tag
      | none => s
    s.verdictFor h.slot e .acting r.tag

/-- A slot's queued claim takes the new request and keeps its place (R91). -/
def replaceClaim (q : List Claim) (i : SlotId) (r : Request) : List Claim :=
  q.map fun c => if c.slot = i then { c with request := r } else c

/-- The place of a slot's claim in a queue, counted from 1 (R91). -/
def claimPosition (q : List Claim) (i : SlotId) : Nat := q.findIdx (fun c => c.slot == i) + 1

/-- Why a new claim is refused, if it is (R92). -/
def State.newClaimRefusal (s : State) (i : SlotId) (l : Loaded) : Option Reason :=
  if Config.maxOutstanding ≤ (s.slots.at i).outstanding then some .tooMany
  else if (match l.lastRelease with
      | some x => x.slot == i && x.since < l.entry.coolDown
      | none => false) then some .cooling
  else if Config.claimCapacity ≤ l.claims.length then some .queueFull
  else none

/-- A new claim that passed R92: granted at once on a free element, otherwise queued (R93). -/
def State.admitClaim (s : State) (i : SlotId) (e : ElementId) (l : Loaded) (r : Request) : State :=
  let s := s.moreOutstanding i
  if l.hold = none ∧ l.act = none then s.grant e i r
  else
    (s.updLoaded e fun l => { l with claims := l.claims ++ [{ slot := i, request := r }] }).verdictFor i e
      (.queued (l.claims.length + 1)) r.tag

/-- A CLAIM handed to the Element Arbiter (R89 to R93). -/
def State.takeClaim (s : State) (i : SlotId) (element : Byte) (r : Request) : State :=
  match s.testClaim i element r with
  | .error reason => s.queueVerdict i element (.refused reason) r.tag
  | .ok (e, l) =>
    if l.heldBy i then
      match l.hold with
      | some h => s.inHold e l h r
      | none => s
    else
      match l.claimOf i with
      | some _ =>
        (s.updLoaded e fun l => { l with claims := replaceClaim l.claims i r }).verdictFor i e
          (.queued (claimPosition l.claims i)) r.tag
      | none =>
        match s.newClaimRefusal i l with
        | some reason => s.queueVerdict i element (.refused reason) r.tag
        | none => s.admitClaim i e l r

/-- A CLAIM's payload handed to the Element Arbiter; bytes beyond the fourth are ignored (R32). -/
def State.claimPayload (s : State) (i : SlotId) : List Byte → State
  | element :: action :: argument :: tag :: _ => (s.takeClaim i element { action, argument, tag }).settle
  | _ => s

/-- CLAIM (R31, R32, R89). -/
def execClaim (s : State) : Host.Outcome State Fault Refusal :=
  match s.headFrame with
  | some (f, .robot i radio) =>
    if frameKindOf f.kind = some .claim then .next (s.takeRobot i radio f fun s => s.claimPayload i f.payload) else .next s
  | some (_, .dropped _) | some (_, .manage) | some (_, .driver _) | none => .next s

/-- A RELEASE handed to the Element Arbiter (R97). -/
def State.takeRelease (s : State) (i : SlotId) (element : Byte) : State :=
  match elementOf element with
  | none => s.queueVerdict i element (.refused .notHolding) 0
  | some e =>
    match s.loadedAt e with
    | none => s.queueVerdict i element (.refused .notHolding) 0
    | some l =>
      if l.heldBy i then s.endHold e .byRobot
      else
        match l.claimOf i with
        | some c => s.withdraw e c .byRobot
        | none => s.queueVerdict i element (.refused .notHolding) 0

/-- A RELEASE's payload handed to the Element Arbiter; bytes beyond the first are ignored (R32). -/
def State.releasePayload (s : State) (i : SlotId) : List Byte → State
  | element :: _ => (s.takeRelease i element).settle
  | [] => s

/-- RELEASE (R31, R32, R97). -/
def execRelease (s : State) : Host.Outcome State Fault Refusal :=
  match s.headFrame with
  | some (f, .robot i radio) =>
    if frameKindOf f.kind = some .release then .next (s.takeRobot i radio f fun s => s.releasePayload i f.payload) else .next s
  | some (_, .dropped _) | some (_, .manage) | some (_, .driver _) | none => .next s

/-- The expiry of an element's hold (R96). -/
def State.expireHold (s : State) (e : ElementId) : State :=
  match (s.loadedAt e).bind (·.hold) with
  | none => s
  | some _ => (s.endHold e .expired).settle

/-- HOLD_EXPIRY (R96). -/
def execHoldExpiry (e : ElementId) (s : State) : Host.Outcome State Fault Refusal := .next (s.expireHold e)

end Sys2Proof.Machine
end

