-- ==== Sys2Proof/Machine/Manage.lean ====
section
/-! DEFINITION. How every MANAGE command is taken, tested and answered (R178 to R180), and the commands of the
Management Agent itself, of the Station Table and of the Robot Slot Table (spec/09_management.md,
spec/02_robot_slots_and_the_traffic_gate.md). -/

namespace Sys2Proof.Machine

open Sys2Proof

/-- What a command's owning rule answers: the new state with the data of its DONE, or the reason of its refusal (R179). -/
abbrev Answer := Except ReplyReason (State × List Byte)

/-- The head frame of the receive store, when it is a MANAGE frame for the Management Agent (R29, R30). -/
def State.manageHead (s : State) : Option Frame :=
  match s.headFrame with
  | some (f, .manage) => some f
  | some (_, .dropped _) | some (_, .robot _ _) | some (_, .driver _) | none => none

/-- Execute a command and queue its one reply: DONE with its data, or REFUSED with no state changed (R179, R180). -/
def State.answer (s : State) (f : Frame) (code : Byte) (a : Answer) : State :=
  match a with
  | .ok (t, data) => t.queueReply f code (.done data)
  | .error r => s.queueReply f code (.refused r)

/-- The Management Agent disposes of a MANAGE frame: discarded while restart-pending or while the reply queue is
full, otherwise answered (R178). -/
def State.dispose (s : State) (f : Frame) (code : Byte) (run : State → Answer) : State :=
  let s := s.popStore
  if s.mgmt.restartPending then s
  else if Config.replyCapacity ≤ s.link.replies.length then s
  else s.answer f code (run s)

/-- A MANAGE command with the given code and payload length, taken from the head of the receive store: the length
test, then the tests and effects of its owning rule on its operands (R178, R179). -/
def State.command (s : State) (code : Byte) (length : Nat) (run : State → List Byte → Answer) : State :=
  match s.manageHead with
  | none => s
  | some f =>
    match f.payload with
    | [] => s
    | c :: operands =>
      if c = code then
        s.dispose f code fun s => if f.payload.length = length then run s operands else .error .length
      else s

/-- The command codes that name a command (section 11.5). -/
def knownCode (c : Byte) : Bool :=
  [0x01, 0x02, 0x03, 0x10, 0x11, 0x12, 0x13, 0x20, 0x21, 0x22, 0x23, 0x30, 0x31, 0x32, 0x33, 0x34, 0x40, 0x41, 0x42,
    0x43, 0x44, 0x45, 0x46, 0x47, 0x48, 0x50, 0x51, 0x60, 0x61].contains c.toNat

/-- UNKNOWN_COMMAND (R179): the payload holds no code, or a code that names no command. -/
def execUnknownCommand (s : State) : Host.Outcome State Fault Refusal :=
  match s.manageHead with
  | none => .next s
  | some f =>
    match f.payload with
    | [] => .next (s.dispose f 0 fun _ => .error .unknownCommand)
    | c :: _ => .next (if knownCode c then s else s.dispose f c fun _ => .error .unknownCommand)

/-! ### The device mode (R176, R177) -/

/-- Set the device mode. -/
def State.setMode (s : State) (m : DeviceMode) : State := s.updMgmt fun x => { x with mode := m }

/-- COMMISSION's rule (R176). -/
def runCommission (s : State) : List Byte → Answer
  | [] => .ok (s.setMode .commissioned, [])
  | _ => .error .length

/-- COMMISSION (R176). -/
def execCommission (s : State) : Host.Outcome State Fault Refusal := .next (s.command 0x01 1 runCommission)

/-- DECOMMISSION's rule (R176). -/
def runDecommission (s : State) : List Byte → Answer
  | [] =>
    if s.mgmt.mode = .commissioned ∧ s.allIdle = false then .error .fieldLive
    else .ok (s.setMode .uncommissioned, [])
  | _ => .error .length

/-- DECOMMISSION (R176). -/
def execDecommission (s : State) : Host.Outcome State Fault Refusal := .next (s.command 0x02 1 runDecommission)

/-- RESTART's rule (R177). -/
def runRestart (s : State) : List Byte → Answer
  | [] => .ok (s.updMgmt fun m => { m with restartPending := true }, [])
  | _ => .error .length

/-- RESTART (R177). -/
def execRestart (s : State) : Host.Outcome State Fault Refusal := .next (s.command 0x03 1 runRestart)

/-! ### The Station Table (R21, R22) -/

/-- The role that an address gives an entry (R21). -/
def roleOf (a : Byte) : Role := if a.toNat < 0x80 then .robot else .driver

/-- Some address that the new entry would match is matched by an entry of another address (R21 test 3). -/
def twinConflict (stations : List Station) (new : Station) : Bool :=
  let others := stations.filter fun st => st.addr != new.addr
  others.any fun st =>
    (st.matchesSource new.addr).isSome || (new.acceptTwin && (st.matchesSource (new.addr + Config.twinOffset)).isSome)

/-- Put an entry in the table, replacing one of the same address; the list is kept by rising address. -/
def insertStation (stations : List Station) (new : Station) : List Station :=
  (stations.filter fun st => st.addr.toNat < new.addr.toNat) ++ [new] ++
    (stations.filter fun st => new.addr.toNat < st.addr.toNat)

/-- A slot's last-heard radio becomes PRIMARY (R21, R22). -/
def State.toPrimary (s : State) (i : SlotId) : State := s.updSlot i fun x => { x with radio := .primary }

/-- The entry with an address as its own. -/
def ownEntry (stations : List Station) (a : Byte) : Option Station := stations.find? fun st => st.addr == a

/-- The load of a station that passed its tests: the slots that gain, lose or keep a ROBOT entry become PRIMARY (R21). -/
def State.loadStationEntry (s : State) (new : Station) : State :=
  let t := { s with stations := insertStation s.stations new }
  match new.role with
  | .driver => t
  | .robot =>
    match ownEntry s.stations new.addr with
    | some old => (t.toPrimary old.slot).toPrimary new.slot
    | none => t.toPrimary new.slot

/-- LOAD STATION's rule (R21). -/
def runLoadStation (s : State) : List Byte → Answer
  | [a, slot, twin] =>
    match slotOf slot, flagOf twin with
    | some i, some acceptTwin =>
      let new : Station := { addr := a, slot := i, role := roleOf a, acceptTwin }
      let others := s.stations.filter fun st => st.addr != a
      if stationAddress a = false then .error .range
      else if acceptTwin = true ∧ ¬ (0x01 ≤ a.toNat ∧ a.toNat ≤ 0x3F) then .error .range
      else if twinConflict s.stations new then .error .twinConflict
      else if others.any (fun st => st.role == new.role && st.slot == i) then .error .duplicate
      else if (ownEntry s.stations a).isNone ∧ Config.stationCapacity ≤ s.stations.length then .error .full
      else .ok (s.loadStationEntry new, [])
    | _, _ => .error .range
  | _ => .error .length

/-- LOAD_STATION (R21). -/
def execLoadStation (s : State) : Host.Outcome State Fault Refusal := .next (s.command 0x10 4 runLoadStation)

/-- CLEAR STATION's rule (R22). -/
def runClearStation (s : State) : List Byte → Answer
  | [a] =>
    match ownEntry s.stations a with
    | none => .error .noEntry
    | some st =>
      let t := { s with stations := s.stations.filter fun x => x.addr != a }
      match st.role with
      | .robot => .ok (t.toPrimary st.slot, [])
      | .driver => .ok (t, [])
  | _ => .error .length

/-- CLEAR_STATION (R22). -/
def execClearStation (s : State) : Host.Outcome State Fault Refusal := .next (s.command 0x11 2 runClearStation)

/-! ### The Robot Slot Table (R24, R25) -/

/-- A full load of a slot record (R24). -/
def Slot.fullLoad (x : Slot) (team ceiling refill : Nat) : Slot :=
  { x with team, ceiling, refill, credit := ceiling, lastSeq := none, held := none, radio := .primary, age := 0,
           silent := false, throttled := false }

/-- A budget load of a slot record (R24). -/
def Slot.budgetLoad (x : Slot) (ceiling refill : Nat) : Slot :=
  { x with ceiling, refill, credit := min x.credit ceiling }

/-- LOAD SLOT's rule (R24). -/
def runLoadSlot (s : State) : List Byte → Answer
  | [slot, t1, t2, t3, c1, c2, q] =>
    match slotOf slot with
    | none => .error .range
    | some i =>
      let team := nat24 t1 t2 t3
      let ceiling := nat16 c1 c2
      if team = 0 ∨ 99999 < team ∨ ceiling < 64 ∨ 4095 < ceiling then .error .range
      else if (s.slots.at i).placing = none then
        .ok (s.updSlot i fun x => x.fullLoad team ceiling q.toNat, [])
      else if (s.slots.at i).team = team then .ok (s.updSlot i fun x => x.budgetLoad ceiling q.toNat, [])
      else .error .fieldLive
  | _ => .error .length

/-- LOAD_SLOT (R24). -/
def execLoadSlot (s : State) : Host.Outcome State Fault Refusal := .next (s.command 0x12 8 runLoadSlot)

/-- A slot record at its free values; the outstanding count is the Element Arbiter's and is kept (R25, R103). -/
def Slot.cleared (x : Slot) : Slot := { Slot.free with outstanding := x.outstanding }

/-- CLEAR SLOT's rule (R25): a slot that is free already (team 0, R23) is not changed (notes/assumptions/32.md). -/
def runClearSlot (s : State) : List Byte → Answer
  | [slot] =>
    match slotOf slot with
    | none => .error .range
    | some i =>
      if (s.slots.at i).placing ≠ none then .error .fieldLive
      else if (s.slots.at i).team = 0 then .ok (s, [])
      else .ok (s.updSlot i Slot.cleared, [])
  | _ => .error .length

/-- CLEAR_SLOT (R25). -/
def execClearSlot (s : State) : Host.Outcome State Fault Refusal := .next (s.command 0x13 2 runClearSlot)

/-! ### Timings (R185, R186) -/

/-- The timing settings a command or image names, each clamped to its range and W rounded down to a multiple of
100 (R185, R194). The sample period is given apart. -/
def clampTimings (beacon silent grace actionPoll sensor probe sample p k window : Nat) : Timing :=
  { beacon := clamp 50 1000 beacon, silent := clamp 100 2000 silent, grace := clamp 0 5000 grace,
    actionPoll := clamp 5 100 actionPoll, sensor := clamp 10 200 sensor, probe := clamp 50 1000 probe, sample,
    p := clamp 0 7 p, k := clamp 0 15 k, window := clamp 200 5000 window / 100 * 100 }

/-- The settings take effect: the beacon period restarts, a changed sample period restarts the sampling, and the
slots whose age exceeds the silent timeout are marked (R186, R166, R74, R41). -/
def State.writeTimings (s : State) (t : Timing) : State :=
  let changed := t.sample != s.timing.sample
  let s := { s with
    timing := t
    beacons := { s.beacons with left := some t.beacon }
    sampleLeft := if changed then some t.sample else s.sampleLeft }
  s.silenceTests.settle

/-- The tests of SET TIMING after the sample period's (R185 tests 2 and 3). -/
def State.timingRefusal (s : State) (t : Timing) : Option ReplyReason :=
  if t.sample ≠ s.timing.sample ∧ s.allIdle = false then some .fieldLive
  else if (t.p ≠ s.timing.p ∨ t.k ≠ s.timing.k ∨ t.window ≠ s.timing.window) ∧ s.bus.state ≠ .paused then some .state
  else none

/-- SET TIMING's rule (R185, R186). -/
def runSetTiming (s : State) : List Byte → Answer
  | [b1, b2, s1, s2, g1, g2, ap, se, p1, p2, sp, p, k, w1, w2] =>
    match samplePeriodOf sp.toNat with
    | none => .error .range
    | some sample =>
      let t := clampTimings (nat16 b1 b2) (nat16 s1 s2) (nat16 g1 g2) ap.toNat se.toNat (nat16 p1 p2) sample p.toNat
        k.toNat (nat16 w1 w2)
      match s.timingRefusal t with
      | some r => .error r
      | none => .ok (s.writeTimings t, (s.writeTimings t).settingsEntry)
  | _ => .error .length

/-- SET_TIMING (R185). -/
def execSetTiming (s : State) : Host.Outcome State Fault Refusal := .next (s.command 0x32 16 runSetTiming)

/-! ### Reading (R181 to R184) -/

/-- The read cursor is set (R181). -/
def State.setCursor (s : State) (t : ReadTable) (i : Nat) : State := s.updMgmt fun m => { m with cursor := some (t, i) }

/-- READ's rule (R182). -/
def runRead (s : State) : List Byte → Answer
  | [table, index] =>
    match readTableOf table with
    | none => .error .range
    | some t => if t.last < index.toNat then .error .range else .ok (s.setCursor t index.toNat, s.readData t index.toNat)
  | _ => .error .length

/-- READ (R182). -/
def execRead (s : State) : Host.Outcome State Fault Refusal := .next (s.command 0x60 3 runRead)

/-- READ NEXT's rule (R183). -/
def runReadNext (s : State) : List Byte → Answer
  | [] =>
    match s.mgmt.cursor with
    | none => .error .noCursor
    | some (t, i) => if t.last ≤ i then .error .tableEnd else .ok (s.setCursor t (i + 1), s.readData t (i + 1))
  | _ => .error .length

/-- READ_NEXT (R183). -/
def execReadNext (s : State) : Host.Outcome State Fault Refusal := .next (s.command 0x61 1 runReadNext)

end Sys2Proof.Machine
end

