-- ==== Sys2Proof/Machine/Matches.lean ====
section
/-! DEFINITION. The Match Sequencer's commands and timer events, DISABLE SLOT and BYPASS SLOT
(spec/03_matches_phases_and_field_stops.md). -/

namespace Sys2Proof.Machine

open Sys2Proof

/-- A command that names a field alone: RANGE when it is none, otherwise its owning rule (R59 to R69). -/
def onField (s : State) (run : State → FieldId → Answer) : List Byte → Answer
  | [b] =>
    match fieldOf b with
    | none => .error .range
    | some f => run s f
  | _ => .error .length

/-! ### LOAD MATCH (R56 to R58) -/

/-- The six places of a slot list, if each is a slot or empty (R56 test 2). -/
def placesOf : List Byte → Option (Table 6 (Option SlotId))
  | [a, b, c, d, e, g] =>
    match placeOf a, placeOf b, placeOf c, placeOf d, placeOf e, placeOf g with
    | some a, some b, some c, some d, some e, some g => some (Vector.mk #[a, b, c, d, e, g] rfl)
    | _, _, _, _, _, _ => none
  | _ => none

/-- A match record as LOAD MATCH gives it, keeping the result record (R57). -/
def MatchRecord.load (m : MatchRecord) (number a p t e : Nat) (l : Table 6 (Option SlotId)) : MatchRecord :=
  { number, durA := a, durP := p, durT := t, durE := e, list := l, phase := .pre, stopped := none, remaining := 0,
    aborted := false, grace := 0, result := m.result }

/-- The Score Tally's part of LOAD MATCH: the field's tallies and the event counts of its elements are cleared (R57, R157, R158). -/
def State.clearScores (s : State) (f : FieldId) : State :=
  { s with
    tallies := s.tallies.put f .zero
    elements := s.elements.map fun x =>
      match x.loaded with
      | some l => if l.entry.field = f then { x with eventCount := 0 } else x
      | none => x }

/-- The effects of LOAD MATCH (R57, R58). -/
def State.loadMatch (s : State) (f : FieldId) (m : MatchRecord) : State :=
  let s := (s.updField f fun _ => m).placeAll f m.list
  let s := (s.clearScores f).announcePhase f m.number m.aborted
  match heldCause s.lines f with
  | some c => s.stopField f c
  | none => s

/-- Tests 4 to 7 of LOAD MATCH, in order (R56). -/
def State.matchRefusal (s : State) (f : FieldId) (l : Table 6 (Option SlotId)) : Option ReplyReason :=
  if (s.fields.at f).phase ≠ .idle then some .state
  else if (listedSlots l).any (fun i => (s.slots.at i).team == 0) then some .noEntry
  else if (listedSlots l).any (fun i => (s.slots.at i).placing.isSome) then some .slotBusy
  else if (listedSlots l).Nodup then none
  else some .duplicate

/-- LOAD MATCH's rule (R56). -/
def runLoadMatch (s : State) : List Byte → Answer
  | fb :: n1 :: n2 :: a1 :: a2 :: p1 :: p2 :: t1 :: t2 :: e1 :: e2 :: places =>
    if s.mgmt.mode ≠ .commissioned then .error .notCommissioned
    else
      match fieldOf fb, placesOf places with
      | some f, some l =>
        let number := nat16 n1 n2
        let a := nat16 a1 a2
        let p := nat16 p1 p2
        let t := nat16 t1 t2
        let e := nat16 e1 e2
        if number = 0 ∨ 999 < number ∨ 3000 < a ∨ 1000 < p ∨ t = 0 ∨ 3000 < t ∨ t < e then .error .range
        else
          match s.matchRefusal f l with
          | some r => .error r
          | none => .ok ((s.loadMatch f ((s.fields.at f).load number a p t e l)).settle, [])
      | _, _ => .error .range
  | _ => .error .length

/-- LOAD_MATCH (R56). -/
def execLoadMatch (s : State) : Host.Outcome State Fault Refusal := .next (s.command 0x40 18 runLoadMatch)

/-! ### START, STOP, RESUME, ABORT, COMMIT, RESET MATCH -/

/-- START's rule (R59). -/
def runStart (s : State) (f : FieldId) : Answer :=
  if (s.fields.at f).phase ≠ .pre then .error .state
  else if (s.fields.at f).stopped.isSome then .error .stopHeld
  else .ok ((s.enterPhase f (s.fields.at f).runFromAuto).settle, [])

/-- START (R59). -/
def execStart (s : State) : Host.Outcome State Fault Refusal := .next (s.command 0x41 2 fun s => onField s runStart)

/-- STOP's rule (R60, R62). -/
def runStop (s : State) (f : FieldId) : Answer :=
  if (s.fields.at f).phase.stoppable then .ok ((s.stopField f .console).settle, []) else .error .state

/-- STOP (R60). -/
def execStop (s : State) : Host.Outcome State Fault Refusal := .next (s.command 0x42 2 fun s => onField s runStop)

/-- RESUME's rule (R63, R64). -/
def runResume (s : State) (f : FieldId) : Answer :=
  match s.resumeRefusal f with
  | some r => .error r
  | none => .ok (s.resumeField f .console, [])

/-- RESUME (R63). -/
def execResume (s : State) : Host.Outcome State Fault Refusal := .next (s.command 0x43 2 fun s => onField s runResume)

/-- The effects of ABORT: POST with the aborted mark, RUNNING, no time and no grace left; the field is safed, and the
slots whose gates close receive gate-off ABORTED (R66). -/
def State.abortMatch (s : State) (f : FieldId) : State :=
  let t := s.updField f fun m => { m with phase := .post, aborted := true, stopped := none, remaining := 0, grace := 0 }
  let t := (t.gateOffEvents s .aborted).safeField f
  t.announcePhase f (s.fields.at f).number true

/-- ABORT's rule (R66). -/
def runAbort (s : State) (f : FieldId) : Answer :=
  if (s.fields.at f).phase.timed then .ok ((s.abortMatch f).settle, []) else .error .state

/-- ABORT (R66). -/
def execAbort (s : State) : Host.Outcome State Fault Refusal := .next (s.command 0x44 2 fun s => onField s runAbort)

/-- The result record that COMMIT writes (R67). -/
def State.resultOf (s : State) (f : FieldId) : ResultRecord :=
  let t := s.tallies.at f
  { number := (s.fields.at f).number, east := t.east, west := t.west, eastCap := t.eastCap, westCap := t.westCap,
    aborted := (s.fields.at f).aborted }

/-- COMMIT's rule (R67). -/
def runCommit (s : State) (f : FieldId) : Answer :=
  if (s.fields.at f).phase = .post then
    .ok ((s.updField f fun m => { m with result := some (s.resultOf f) }).toIdle f, [])
  else .error .state

/-- COMMIT (R67). -/
def execCommit (s : State) : Host.Outcome State Fault Refusal := .next (s.command 0x45 2 fun s => onField s runCommit)

/-- RESET MATCH's rule (R69). -/
def runResetMatch (s : State) (f : FieldId) : Answer :=
  if (s.fields.at f).phase = .pre ∨ (s.fields.at f).phase = .post then .ok (s.toIdle f, []) else .error .state

/-- RESET_MATCH (R69). -/
def execResetMatch (s : State) : Host.Outcome State Fault Refusal :=
  .next (s.command 0x46 2 fun s => onField s runResetMatch)

/-! ### DISABLE SLOT and BYPASS SLOT (R71) -/

/-- A flag of a placed slot is newly set: the gate-off event, and the urgent mark of its field (R71). -/
def State.setSlotFlag (s : State) (i : SlotId) (f : FieldId) (reason : Reason) (g : Slot → Slot) : State :=
  (((s.updSlot i g).gateOffEvents s reason).setUrgent f).settle

/-- DISABLE SLOT's rule (R71). -/
def runDisableSlot (s : State) : List Byte → Answer
  | [b] =>
    match slotOf b with
    | none => .error .range
    | some i =>
      match s.slotField i with
      | none => .error .state
      | some f =>
        if (s.slots.at i).disabled then .ok (s, [])
        else .ok (s.setSlotFlag i f .disabled fun x => { x with disabled := true }, [])
  | _ => .error .length

/-- DISABLE_SLOT (R71). -/
def execDisableSlot (s : State) : Host.Outcome State Fault Refusal := .next (s.command 0x47 2 runDisableSlot)

/-- BYPASS SLOT's rule (R71). -/
def runBypassSlot (s : State) : List Byte → Answer
  | [b] =>
    match slotOf b with
    | none => .error .range
    | some i =>
      match s.slotField i with
      | none => .error .state
      | some f =>
        if (s.slots.at i).bypassed then .ok (s, [])
        else .ok (s.setSlotFlag i f .bypassed fun x => { x with bypassed := true }, [])
  | _ => .error .length

/-- BYPASS_SLOT (R71). -/
def execBypassSlot (s : State) : Host.Outcome State Fault Refusal := .next (s.command 0x48 2 runBypassSlot)

/-! ### Penalties and corrections (R161, R162) -/

/-- The phases in which PENALTY and CORRECT are accepted (R161, R162). -/
def Phase.scorable : Phase → Bool
  | .auto | .pause | .teleop | .endgame | .post => true
  | .idle | .pre => false

/-- The data of a PENALTY or CORRECT reply: field, alliance, tally, cap mark (section 11.5). -/
def State.tallyData (s : State) (f : FieldId) (a : Alliance) : List Byte :=
  [fieldByte f, byte a.code] ++ ((s.tallies.at f).tally a).bytes ++ [byte (bit ((s.tallies.at f).cap a))]

/-- PENALTY's rule (R161). -/
def runPenalty (s : State) : List Byte → Answer
  | [fb, ab, points, count] =>
    match fieldOf fb, allianceOf ab with
    | some f, some a =>
      if points.toNat = 0 ∨ 99 < points.toNat ∨ count.toNat = 0 ∨ 15 < count.toNat then .error .range
      else if (s.fields.at f).phase.scorable = false then .error .state
      else
        let t := s.updTally f fun x => x.add a.other (count.toNat * points.toNat)
        .ok (t, t.tallyData f a.other)
    | _, _ => .error .range
  | _ => .error .length

/-- PENALTY (R161). -/
def execPenalty (s : State) : Host.Outcome State Fault Refusal := .next (s.command 0x50 5 runPenalty)

/-- CORRECT's rule (R162). -/
def runCorrect (s : State) : List Byte → Answer
  | [fb, ab, m1, m2] =>
    match fieldOf fb, allianceOf ab with
    | some f, some a =>
      if int16 m1 m2 < -999 ∨ 999 < int16 m1 m2 then .error .range
      else if (s.fields.at f).phase.scorable = false then .error .state
      else
        let t := s.updTally f fun x => x.write a (correctPoints (x.tally a) (x.cap a) (int16 m1 m2))
        .ok (t, t.tallyData f a)
    | _, _ => .error .range
  | _ => .error .length

/-- CORRECT (R162). -/
def execCorrect (s : State) : Host.Outcome State Fault Refusal := .next (s.command 0x51 5 runCorrect)

/-! ### The expiry events (R50 to R54) -/

/-- AUTO_EXPIRY (R50): the countdown of a field RUNNING in AUTO arrives at 0. -/
def execAutoExpiry (f : FieldId) (s : State) : Host.Outcome State Fault Refusal :=
  .next (if s.runningIn f .auto then (s.expireAuto f).settle else s)

/-- PAUSE_EXPIRY (R51): the countdown of a field RUNNING in PAUSE arrives at 0. -/
def execPauseExpiry (f : FieldId) (s : State) : Host.Outcome State Fault Refusal :=
  .next (if s.runningIn f .pause then (s.expirePause f).settle else s)

/-- ENDGAME_BOUNDARY (R52): the countdown of a field RUNNING in TELEOP with E above 0 arrives at 100·E. -/
def execEndgameBoundary (f : FieldId) (s : State) : Host.Outcome State Fault Refusal :=
  .next (if s.runningIn f .teleop && decide (0 < (s.fields.at f).durE) then (s.crossBoundary f).settle else s)

/-- MATCH_END_EXPIRY (R53): the countdown of a field RUNNING in its last phase arrives at 0. -/
def execMatchEndExpiry (f : FieldId) (s : State) : Host.Outcome State Fault Refusal :=
  .next (if (s.fields.at f).lastPhase && (s.fields.at f).stopped.isNone then (s.expireMatch f).settle else s)

/-- POST_GRACE_END (R54): the post-grace remaining of a field in POST with the aborted mark clear arrives at 0. -/
def execPostGraceEnd (f : FieldId) (s : State) : Host.Outcome State Fault Refusal :=
  .next (if (s.fields.at f).phase = .post ∧ (s.fields.at f).aborted = false then
    s.updField f fun m => { m with grace := 0 } else s)

end Sys2Proof.Machine
end

