-- ==== Sys2Proof/Machine/Lines.lean ====
section
/-! DEFINITION. The Referee Line Unit's commands: LOAD LINE, CLEAR LINE FLAGS, the sample, and the change of a pin
(spec/04_referee_lines.md). -/

namespace Sys2Proof.Machine

open Sys2Proof

/-- Tests 2 and 3 of LOAD LINE (R83). -/
def State.lineRefusal (s : State) (n : LineId) (role : LineRole) : Option ReplyReason :=
  if (s.fields.at (lineField n)).phase ≠ .idle then some .fieldLive
  else if ((s.lines.at n).role = .hallStop ∨ role = .hallStop) ∧ s.allIdle = false then some .fieldLive
  else none

/-- LOAD LINE's rule (R83). -/
def runLoadLine (s : State) : List Byte → Answer
  | [line, record] =>
    match lineOf line, lineRecordOf record with
    | some n, some (role, active, filter) =>
      match s.lineRefusal n role with
      | some r => .error r
      | none => .ok (s.applyLine n role active filter, [])
    | _, _ => .error .range
  | _ => .error .length

/-- LOAD_LINE (R83). -/
def execLoadLine (s : State) : Host.Outcome State Fault Refusal := .next (s.command 0x30 3 runLoadLine)

/-- The edge flags of the lines that satisfy a test are cleared (R78). -/
def State.clearFlags (s : State) (p : LineId → Bool) : State :=
  { s with lines := clearEdges (fun n _ => p n) s.lines }

/-- CLEAR LINE FLAGS's rule (R78): 0xFF names all fields. -/
def runClearLineFlags (s : State) : List Byte → Answer
  | [b] =>
    if b = 0xFF#8 then .ok (s.clearFlags fun _ => true, [])
    else
      match fieldOf b with
      | some f => .ok (s.clearFlags fun n => lineField n == f, [])
      | none => .error .range
  | _ => .error .length

/-- CLEAR_LINE_FLAGS (R78). -/
def execClearLineFlags (s : State) : Host.Outcome State Fault Refusal := .next (s.command 0x31 2 runClearLineFlags)

/-- The levels of sixteen pins: bit n is 1 when REFn is HIGH. -/
def levelsOf (pins : BitVec 16) : Table 16 Level :=
  Vector.ofFn fun n : Fin 16 => if pins.getLsbD n.val then .high else .low

/-- A sample is taken and the next falls one sample period later (R74). -/
def State.takeSample (s : State) (pins : Table 16 Level) : State :=
  ({ s with sampleLeft := some s.timing.sample }.sampleLines pins).settle

/-- LINE_SAMPLE (R75). During STARTING the lines are not sampled (R73). -/
def execLineSample (pins : BitVec 16) (s : State) : Host.Outcome State Fault Refusal :=
  .next (if s.timersRun then s.takeSample (levelsOf pins) else s)

/-- UNFILTERED_LINE_CHANGE (R76). During STARTING the filtered levels do not change (R73): the pin alone does. -/
def execUnfilteredLineChange (n : LineId) (v : Level) (s : State) : Host.Outcome State Fault Refusal :=
  .next (if s.timersRun then (s.changePin n v).settle else { s with pins := s.pins.put n v })

end Sys2Proof.Machine
end

