-- ==== Sys2Proof/Machine/Elements.lean ====
section
/-! DEFINITION. The commands that load and clear elements and score rules, and the countdowns of the elements
(spec/05_field_elements_and_claims.md, spec/06_element_bus.md, spec/07_scoring.md). -/

namespace Sys2Proof.Machine

open Sys2Proof

/-! ### Loading an element (R86, R87) -/

/-- Test 2 of LOAD ELEMENT (R86). -/
def ElementEntry.consistent (x : ElementEntry) : Bool :=
  match x.kind with
  | .sensing => x.actionMask == 0
  | .actuating | .both => x.actionMask != 0 && x.phaseMask != 0

/-- The thirteen bytes from bus address to discipline, after tests 1 and 2 of LOAD ELEMENT, the three times clamped (R86). -/
def entryOf : List Byte → Option ElementEntry
  | [addr, field, owner, kind, actions, phases, h1, h2, c1, c2, l1, l2, discipline] =>
    match fieldOf field, ownerOf owner, kindOf kind, phaseMaskOf phases, disciplineOf discipline with
    | some f, some o, some k, some ph, some d =>
      let x : ElementEntry :=
        { busAddr := addr, field := f, owner := o, kind := k, actionMask := actions, phaseMask := ph,
          holdLimit := clamp 100 10000 (nat16 h1 h2), coolDown := clamp 0 5000 (nat16 c1 c2),
          actionLimit := clamp 100 20000 (nat16 l1 l2), discipline := d }
      if 1 ≤ addr.toNat ∧ addr.toNat ≤ 63 ∧ x.consistent = true then some x else none
    | _, _, _, _, _ => none
  | _ => none

/-- Test 3 of LOAD ELEMENT: a SHARED entry goes with no rule that names its owner (R86). -/
def ElementEntry.fitsRules (x : ElementEntry) (rules : Table 4 (Option ScoreRule)) : Bool :=
  x.owner != .shared || rules.toList.all fun r =>
    match r with
    | some r => !r.beneficiary.namesOwner
    | none => true

/-- What is kept of an element after a load: presence UNKNOWN and every other part empty (R87, R141). -/
def Loaded.fresh (x : ElementEntry) : Loaded :=
  { entry := x, claims := [], hold := none, act := none, lastRelease := none, lastAlliance := none,
    presence := .unknown, misses := 0, actToggle := false, fetchToggle := false, retries := 0, fetchMark := false,
    resend := none, actionPoll := none, sensor := none }

/-- An entry is written whole; the element leaves the SAFE queue and its transaction becomes void (R87, R126, R139). -/
def State.writeEntry (s : State) (e : ElementId) (l : Option Loaded) : State :=
  ((s.updElement e fun x => { x with loaded := l }).dropSafe e).voidTransaction e

/-- A field is IDLE. -/
def State.fieldIdle (s : State) (f : FieldId) : Bool := (s.fields.at f).phase == .idle

/-- Another loaded entry has a bus address (R86 test 6). -/
def State.addressTaken (s : State) (e : ElementId) (addr : Byte) : Bool :=
  (allOf 48).any fun k => k != e &&
    match s.loadedAt k with
    | some l => l.entry.busAddr == addr
    | none => false

/-- The element's present field, if its entry is loaded, is IDLE (R86 test 4, R88, R149). -/
def State.presentFieldIdle (s : State) (e : ElementId) : Bool :=
  match s.loadedAt e with
  | some l => s.fieldIdle l.entry.field
  | none => true

/-- The element has an actuation record (R86 test 5, R88). -/
def State.hasActuation (s : State) (e : ElementId) : Bool := ((s.loadedAt e).bind (·.act)).isSome

/-- Tests 3 to 6 of LOAD ELEMENT, in order (R86). -/
def State.elementRefusal (s : State) (e : ElementId) (x : ElementEntry) : Option ReplyReason :=
  if x.fitsRules (s.elements.at e).rules = false then some .range
  else if (s.fieldIdle x.field && s.presentFieldIdle e) = false then some .fieldLive
  else if s.hasActuation e then some .state
  else if s.addressTaken e x.busAddr then some .duplicate
  else none

/-- LOAD ELEMENT's rule (R86, R87). -/
def runLoadElement (s : State) : List Byte → Answer
  | eb :: rest =>
    match elementOf eb, entryOf rest with
    | some e, some x =>
      match s.elementRefusal e x with
      | some r => .error r
      | none => .ok ((s.writeEntry e (some (.fresh x))).settle, [])
    | _, _ => .error .range
  | [] => .error .length

/-- LOAD_ELEMENT (R86). -/
def execLoadElement (s : State) : Host.Outcome State Fault Refusal := .next (s.command 0x20 15 runLoadElement)

/-- CLEAR ELEMENT ENTRY's rule (R88). -/
def runClearElementEntry (s : State) : List Byte → Answer
  | [eb] =>
    match elementOf eb with
    | none => .error .range
    | some e =>
      match s.loadedAt e with
      | none => .ok (s, [])
      | some l =>
        if s.fieldIdle l.entry.field = false then .error .fieldLive
        else if l.act.isSome then .error .state
        else .ok ((s.writeEntry e none).settle, [])
  | _ => .error .length

/-- CLEAR_ELEMENT_ENTRY (R88). -/
def execClearElementEntry (s : State) : Host.Outcome State Fault Refusal := .next (s.command 0x21 2 runClearElementEntry)

/-- CLEAR ELEMENT FAULT's rule (R144). -/
def runClearElementFault (s : State) : List Byte → Answer
  | [eb] =>
    match elementOf eb with
    | none => .error .range
    | some e =>
      match s.loadedAt e with
      | none => .error .noEntry
      | some l =>
        match l.presence with
        | .faulted _ =>
          .ok (((s.setMisses e 0).changePresence e .unknown).settle, [])
        | .unknown | .present | .absent => .error .state
  | _ => .error .length

/-- CLEAR_ELEMENT_FAULT (R144). -/
def execClearElementFault (s : State) : Host.Outcome State Fault Refusal := .next (s.command 0x22 2 runClearElementFault)

/-! ### Score rules (R149) -/

/-- A rule as it is written, each point value above 99 clamped to 99 (R149). -/
def ScoreRule.written (auto teleop endgame : Byte) (b : Beneficiary) : ScoreRule :=
  { auto := clamp 0 99 auto.toNat, teleop := clamp 0 99 teleop.toNat, endgame := clamp 0 99 endgame.toNat,
    beneficiary := b }

/-- One of an element's rules is written whole (R149). -/
def State.writeRule (s : State) (e : ElementId) (k : EventKind) (r : ScoreRule) : State :=
  s.updElement e fun x => { x with rules := x.rules.put k (some r) }

/-- Tests 2 and 3 of LOAD SCORE RULE (R149). -/
def State.ruleRefusal (s : State) (e : ElementId) (b : Beneficiary) : Option ReplyReason :=
  match s.loadedAt e with
  | none => none
  | some l =>
    if l.entry.owner = .shared ∧ b.namesOwner = true then some .range
    else if s.fieldIdle l.entry.field = false then some .fieldLive
    else none

/-- LOAD SCORE RULE's rule (R149). -/
def runLoadScoreRule (s : State) : List Byte → Answer
  | [eb, kb, auto, teleop, endgame, bb] =>
    match elementOf eb, eventKindOf kb, beneficiaryOf bb with
    | some e, some k, some b =>
      match s.ruleRefusal e b with
      | some r => .error r
      | none => .ok (s.writeRule e k (.written auto teleop endgame b), [])
    | _, _, _ => .error .range
  | _ => .error .length

/-- LOAD_SCORE_RULE (R149). -/
def execLoadScoreRule (s : State) : Host.Outcome State Fault Refusal := .next (s.command 0x23 7 runLoadScoreRule)

/-! ### Countdowns and the action limit (R127, R135, R138) -/

/-- The element has an actuation in RUNNING or CANCELLING. -/
def State.busyAt (s : State) (e : ElementId) : Bool :=
  match s.loadedAt e with
  | some l => l.busy
  | none => false

/-- ACTION_LIMIT (R135): the time running of a RUNNING or CANCELLING actuation passes its element's action limit. -/
def execActionLimit (e : ElementId) (s : State) : Host.Outcome State Fault Refusal :=
  .next (if s.busyAt e then (s.passActionLimit e).settle else s)

/-- A countdown that runs becomes due. -/
def madeDue (c : Option Nat) : Option Nat := c.map fun _ => 0

/-- RESEND_COUNTDOWN (R132): the element's resend countdown reaches 0 and is due. -/
def execResendCountdown (e : ElementId) (s : State) : Host.Outcome State Fault Refusal :=
  .next (if ((s.loadedAt e).bind (·.resend)).isSome then
    (s.updLoaded e fun l => { l with resend := madeDue l.resend }).settle else s)

/-- ACTION_POLL_COUNTDOWN (R134): the element's action-poll countdown reaches 0 and is due. -/
def execActionPollCountdown (e : ElementId) (s : State) : Host.Outcome State Fault Refusal :=
  .next (if ((s.loadedAt e).bind (·.actionPoll)).isSome then
    (s.updLoaded e fun l => { l with actionPoll := madeDue l.actionPoll }).settle else s)

/-- SENSOR_COUNTDOWN (R136): the element's sensor countdown reaches 0 and is due. -/
def execSensorCountdown (e : ElementId) (s : State) : Host.Outcome State Fault Refusal :=
  .next (if ((s.loadedAt e).bind (·.sensor)).isSome then
    (s.updLoaded e fun l => { l with sensor := madeDue l.sensor }).settle else s)

/-- The probe countdown reaches 0: the probe turn is set and the countdown starts again (R138). -/
def State.probePeriodEnds (s : State) : State :=
  s.updBus fun b => { b with probeTurn := true, probeLeft := some s.timing.probe }

/-- PROBE_COUNTDOWN (R138). -/
def execProbeCountdown (s : State) : Host.Outcome State Fault Refusal :=
  .next (if s.bus.probeLeft.isSome then s.probePeriodEnds.settle else s)

end Sys2Proof.Machine
end

