-- ==== Sys2Proof/Machine/BusRows.lean ====
section
/-! DEFINITION. The element bus's commands: BUS PAUSE and BUS RESUME, the moments of a transaction, and the answers
(spec/06_element_bus.md); and the beacon period (spec/08_beacons.md). -/

namespace Sys2Proof.Machine

open Sys2Proof

/-! ### Pausing the bus (R145, R146) -/

/-- BUS PAUSE's rule (R145). -/
def runBusPause (s : State) : List Byte → Answer
  | [] =>
    if (allOf 4).any fun f => (s.fields.at f).phase.stoppable then .error .fieldLive
    else
      match s.bus.state with
      | .running =>
        let dest : BusState := if s.bus.activity = .idle then .paused else .pausing
        .ok (s.updBus fun b => { b with state := dest }, [])
      | .pausing | .paused | .startingIdle => .ok (s, [])
  | _ => .error .length

/-- BUS_PAUSE (R145). -/
def execBusPause (s : State) : Host.Outcome State Fault Refusal := .next (s.command 0x33 1 runBusPause)

/-- BUS RESUME's rule (R146). -/
def runBusResume (s : State) : List Byte → Answer
  | [] =>
    match s.bus.state with
    | .pausing | .paused => .ok ((s.updBus fun b => { b with state := .running }).settle, [])
    | .running | .startingIdle => .error .state
  | _ => .error .length

/-- BUS_RESUME (R146). -/
def execBusResume (s : State) : Host.Outcome State Fault Refusal := .next (s.command 0x34 1 runBusResume)

/-! ### The moments of a transaction (R119, R123, R128) -/

/-- The pair is idle again after its rest, and a PAUSING bus becomes PAUSED (R128, R145). -/
def State.endRest (s : State) : State :=
  s.updBus fun b => { b with activity := .idle, state := if b.state = .pausing then .paused else b.state }

/-- BUS_REST_END (R128). -/
def execBusRestEnd (s : State) : Host.Outcome State Fault Refusal :=
  match s.bus.activity with
  | .rest => .next s.endRest.settle
  | .idle | .flight _ => .next s

/-- MASTER_FRAME_END (R119): the part releases the pair and listens; the answer window runs (R123). -/
def execMasterFrameEnd (s : State) : Host.Outcome State Fault Refusal :=
  match s.bus.activity with
  | .flight t =>
    match t.stage with
    | .sending => .next (s.fly { t with stage := .window })
    | .window | .answer _ => .next s
  | .idle | .rest => .next s

/-- ANSWER_WINDOW_EXPIRY (R123): no character has begun by the end of the window, and the transaction ends SILENT. -/
def execAnswerWindowExpiry (s : State) : Host.Outcome State Fault Refusal :=
  match s.bus.activity with
  | .flight t =>
    match t.stage with
    | .window => .next (s.endTransaction t .silent).settle
    | .sending | .answer _ => .next s
  | .idle | .rest => .next s

/-- ANSWER_CUT_OFF (R123): an answer still running at its cut-off ends the transaction GARBLED. -/
def execAnswerCutOff (s : State) : Host.Outcome State Fault Refusal :=
  match s.bus.activity with
  | .flight t =>
    match t.stage with
    | .answer _ => .next (s.endTransaction t .garbled).settle
    | .sending | .window => .next s
  | .idle | .rest => .next s

/-- The characters of the answer received so far, while the part listens; none while it sends its master frame (R119, R123). -/
def Stage.listening : Stage → Option (List BusChar)
  | .sending => none
  | .window => some []
  | .answer chars => some chars

/-- A falling edge on the pair while the part listens to the answer to `t`. After a character that lacked its stop bit it
begins a character only when the pair has been high for one bit time; a glitch forms none; the first character that begins
ends the window (R2, R119, R123). -/
def State.answerEdge (s : State) (t : Transaction) (chars : List BusChar) (ev : AnswerEvent) : State :=
  if t.deaf ev.rested then s
  else
    match ev with
    | .begins _ .high => s.fly { t with breakHold := false }
    | .begins _ .low => s.fly { t with breakHold := false, stage := .answer chars }
    | .completes edge =>
      match busCharacter edge.bits with
      | none => s.fly { t with breakHold := false }
      | some c => s.answerReceived t chars c

/-- ANSWER_CHARACTER (R123): a character of an answer begins within the window, or has been received. A character
received while the window runs has begun within it (notes/assumptions/21.md). -/
def execAnswerCharacter (ev : AnswerEvent) (s : State) : Host.Outcome State Fault Refusal :=
  match s.bus.activity with
  | .flight t =>
    match t.stage.listening with
    | some chars => .next (s.answerEdge t chars ev)
    | none => .next s
  | .idle | .rest => .next s

/-- The character that completes the answer to the transaction in flight, when that is of the command `k` (R123). -/
def State.completeAnswer (s : State) (k : BusCommand) (edge : BusEdge) : State :=
  match s.completesAnswer k edge with
  | some (t, chars, c) => s.answerReceived t chars c
  | none => s

/-- PROBE_ANSWER (R142). -/
def execProbeAnswer (edge : BusEdge) (s : State) : Host.Outcome State Fault Refusal := .next (s.completeAnswer .probe edge)

/-- ACTUATE_ANSWER (R132, R133). -/
def execActuateAnswer (edge : BusEdge) (s : State) : Host.Outcome State Fault Refusal := .next (s.completeAnswer .actuate edge)

/-- ACTION_POLL_ANSWER (R134). -/
def execActionPollAnswer (edge : BusEdge) (s : State) : Host.Outcome State Fault Refusal :=
  .next (s.completeAnswer .actionPoll edge)

/-- SENSOR_POLL_ANSWER (R136). -/
def execSensorPollAnswer (edge : BusEdge) (s : State) : Host.Outcome State Fault Refusal :=
  .next (s.completeAnswer .sensorPoll edge)

/-- FETCH_ANSWER (R137). -/
def execFetchAnswer (edge : BusEdge) (s : State) : Host.Outcome State Fault Refusal := .next (s.completeAnswer .fetch edge)

/-- SAFE_ANSWER (R140). -/
def execSafeAnswer (edge : BusEdge) (s : State) : Host.Outcome State Fault Refusal := .next (s.completeAnswer .safe edge)

/-! ### The beacon period (R167) -/

/-- The end of a beacon period: the four routine marks are set and the countdown starts again (R166, R167). -/
def State.beaconPeriodEnds (s : State) : State :=
  { s with beacons := { s.beacons with routine := Table.fill 4 true, left := some s.timing.beacon } }

/-- BEACON_PERIOD (R167). -/
def execBeaconPeriod (s : State) : Host.Outcome State Fault Refusal :=
  .next (if s.timersRun then s.beaconPeriodEnds else s)

end Sys2Proof.Machine
end

