-- ==== Sys2Proof/Machine/Startup.lean ====
section
/-! DEFINITION. Device reset and the end of STARTING: reading, checking and applying the settings image
(spec/10_start_up_and_the_settings_memory.md, section 11.7). -/

namespace Sys2Proof.Machine

open Sys2Proof

/-- DEVICE_RESET (R191). -/
def execDeviceReset (s : State) (rstn : Level := .high) : Host.Outcome State Fault Refusal := .next (s.deviceReset rstn)

/-! ### Reading and validity (R192, R193) -/

/-- The four bytes that open the read on SPDO: the read command, then the start address 0 (R192, section 11.7). -/
def readCommand : List Byte := [0x03#8] ++ be24 0

/-- The first `n` bytes that the settings memory supplies; beyond what it holds SPDI stays at one level (R192). -/
def suppliedBytes (memory : List Byte) (fill : Byte) (n : Nat) : List Byte :=
  memory.take n ++ List.replicate (n - memory.length) fill

/-- The image length names a head and 0 to 48 entries (R193 test 2). -/
def imageLengthOk (n : Nat) : Bool :=
  Config.imageHead ≤ n && (n - Config.imageHead) % Config.imageEntry == 0
    && (n - Config.imageHead) / Config.imageEntry ≤ 48

/-- The bytes of a valid image, head and entries; none when one of the three tests fails (R193). -/
def validImage (memory : List Byte) (fill : Byte) : Option (List Byte) :=
  match suppliedBytes memory fill 4 with
  | [s1, s2, n1, n2] =>
    if s1 = 0xC4#8 ∧ s2 = 0x48#8 then
      let n := nat16 n1 n2
      let bytes := suppliedBytes memory fill (n + 2)
      if imageLengthOk n = true ∧ bytes.drop n = linkCheckBytes (bytes.take n) then some (bytes.take n) else none
    else none
  | _ => none

/-- A byte of the image. -/
def imageByte (image : List Byte) (k : Nat) : Byte := image.getD k 0

/-- A two-byte number of the image. -/
def imageNat (image : List Byte) (k : Nat) : Nat := nat16 (imageByte image k) (imageByte image (k + 1))

/-! ### The head (R194) -/

/-- The own address that an image byte gives (R194). -/
def ownOf (b : Byte) : Byte := if 0xF0 ≤ b.toNat ∧ b.toNat ≤ 0xF7 then b else Config.defaultOwn

/-- The console address that an image byte gives (R194). -/
def consoleOf (b : Byte) : Byte := if 0xF8 ≤ b.toNat ∧ b.toNat ≤ 0xFE then b else Config.defaultConsole

/-- The timings of the image's head (R194, section 11.7). -/
def imageTimings (image : List Byte) : Timing :=
  clampTimings (imageNat image 11) (imageNat image 13) (imageNat image 15) (imageByte image 17).toNat
    (imageByte image 18).toNat (imageNat image 19) ((samplePeriodOf (imageByte image 21).toNat).getD 4)
    (imageByte image 7).toNat (imageByte image 8).toNat (imageNat image 9)

/-- A line's default settings (R73). -/
def defaultLine (n : LineId) : LineRole × Level × Bool := (defaultRole n, .low, true)

/-- The settings that the image gives a line, or its default settings (R194). -/
def imageLine (image : List Byte) (n : LineId) : LineRole × Level × Bool :=
  (lineRecordOf (imageByte image (22 + n.val))).getD (defaultLine n)

/-- Rate, addresses, timings and line records are applied; a frame being received ends as TRUNCATED (R194, R196). -/
def State.applyHead (s : State) (rate : ArenaRate) (own console : Byte) (t : Timing)
    (line : LineId → LineRole × Level × Bool) : State :=
  let s := { (s.abandonFrame .truncated).updLink fun l => { l with rate, own, console } with timing := t }
  (allOf 16).foldl (fun s n => s.applyLine n (line n).1 (line n).2.1 (line n).2.2) s

/-! ### The element entries (R195) -/

/-- A score rule of an image entry: absent, or with its points clamped; the outer none is a beneficiary outside the
five values (R195). -/
def imageRule (b : List Byte) : Option (Option ScoreRule) :=
  match b with
  | [who, auto, teleop, endgame] =>
    if who = 0xFF#8 then some none else (beneficiaryOf who).map fun w => some (.written auto teleop endgame w)
  | _ => none

/-- The four score rules of an image entry (R195, section 11.7). -/
def imageRules (b : List Byte) : Option (Table 4 (Option ScoreRule)) :=
  match imageRule (b.take 4), imageRule ((b.drop 4).take 4), imageRule ((b.drop 8).take 4), imageRule (b.drop 12) with
  | some a, some b, some c, some d => some (Vector.mk #[a, b, c, d] rfl)
  | _, _, _, _ => none

/-- An entry of the image is applied, or skipped and counted (R195). -/
def State.applyEntry (p : State × Nat) (b : List Byte) : State × Nat :=
  match elementOf (imageByte b 0), entryOf ((b.drop 1).take 13), imageRules (b.drop 14) with
  | some e, some x, some rules =>
    if (p.1.loadedAt e).isNone ∧ x.fitsRules rules = true ∧ p.1.addressTaken e x.busAddr = false then
      (p.1.updElement e fun _ => { loaded := some (.fresh x), rules, eventCount := 0 }, p.2)
    else (p.1, p.2 + 1)
  | _, _, _ => (p.1, p.2 + 1)

/-- The element entries of an image, in order (section 11.7). -/
def imageEntries (image : List Byte) : List (List Byte) :=
  (List.range ((image.length - Config.imageHead) / Config.imageEntry)).map fun k =>
    (image.drop (Config.imageHead + Config.imageEntry * k)).take Config.imageEntry

/-- The entries of an image loaded over an empty Element Table, with the skipped count (R85, R148, R195). -/
def State.loadEntries (s : State) (entries : List (List Byte)) : State × Nat :=
  entries.foldl State.applyEntry ({ s with elements := Table.fill 48 .empty }, 0)

/-! ### The end of STARTING (R196) -/

/-- The mode becomes UNCOMMISSIONED, the bus RUNNING with the probe turn set, the routine marks are set, every timer
begins to count, the image buffer is emptied with the port unused from now on, and NOTICE SETTINGS is queued (R192,
R196). -/
def State.leaveStarting (s : State) (valid : Bool) (skipped : Nat) : State :=
  let s := s.setMode .uncommissioned
  let s := s.updBus fun b => { b with state := .running, probeTurn := true, probeLeft := some s.timing.probe }
  let s := { s.beaconPeriodEnds with
    sampleLeft := some s.timing.sample, budgetLeft := some Config.budgetPeriod, loader := .finished }
  (s.queueNotice (.settings valid skipped)).settle

/-- The image that the Settings Loader ends its reading with, if it is valid: what it has read, and what the memory
supplies after that (R192, R193). A reading that has failed has none. -/
def Loader.image (l : Loader) (rest : List Byte) (fill : Byte) : Option (List Byte) :=
  if l.stage = .failed then none else validImage (l.buffer ++ rest) fill

/-- The reading of the settings image is finished, and the image is applied, or the defaults are taken (R192 to R196). -/
def State.endStarting (s : State) (image : List Byte) (fill : Byte) : State :=
  match s.loader.image image fill with
  | some b =>
    let s := s.applyHead ((rateOf (imageByte b 6)).getD .mbit1) (ownOf (imageByte b 4)) (consoleOf (imageByte b 5))
      (imageTimings b) (imageLine b)
    let p := s.loadEntries (imageEntries b)
    p.1.leaveStarting true p.2
  | none =>
    let s := s.applyHead .mbit1 Config.defaultOwn Config.defaultConsole Timing.default defaultLine
    (s.loadEntries []).1.leaveStarting false 0

/-- END_OF_STARTING (R196). -/
def execEndOfStarting (image : List Byte) (fill : Bool) (s : State) : Host.Outcome State Fault Refusal :=
  .next (if s.mgmt.mode = .starting ∧ s.inReset = false then s.endStarting image (if fill then 0xFF else 0x00) else s)

/-! ### The reading, byte by byte (R192, R193) -/

/-- The reading goes on after the bytes read so far: the tests of R193 that they allow are passed, and the last check byte
is still to come. -/
def readingGoesOn (read : List Byte) : Bool :=
  (read.length < 2 || read.take 2 == [0xC4#8, 0x48#8]) &&
    (read.length < 4 || (imageLengthOk (imageNat read 2) && decide (read.length < imageNat read 2 + 2)))

/-- A byte has been clocked in: the reading goes on; or it ends, select is released, and the image is valid or found
invalid, which empties the image buffer (R192, R193). -/
def Loader.clockIn (l : Loader) (b : Byte) : Loader :=
  let read := l.buffer ++ [b]
  if readingGoesOn read then { l with buffer := read }
  else if (validImage read 0).isSome then { stage := .complete, buffer := read }
  else { stage := .failed, buffer := [] }

/-- A byte of the read command is out; after the last the image is clocked in (R192). -/
def Loader.clockOut (l : Loader) (sent : Nat) : Loader :=
  { l with stage := if sent + 1 < readCommand.length then .sending (sent + 1) else .receiving }

/-- The part's own next moment in STARTING: one byte on the settings port, or the end of STARTING when the Settings Loader
has finished (R192, R196). What the settings memory supplies is a free value (notes/assumptions/12.md). -/
def State.readStep (s : State) : State :=
  match s.loader.stage with
  | .sending sent => { s with loader := s.loader.clockOut sent }
  | .receiving => { s with loader := s.loader.clockIn (Config.settingsByte s.choices), choices := s.choices + 1 }
  | .complete | .failed => s.endStarting [] 0
  | .inReset | .off => s

end Sys2Proof.Machine
end

