-- ==== Sys2Proof/Machine/Characters.lean ====
section
/-! DEFINITION. Outputs that are functions of the state: the bus rate and the driver enable (R119, R120), and the settings
port's select and data out (R191, R192). Durations are the environment's (notes/assumptions/8.md). A level is true when the
line is high. -/

namespace Sys2Proof.Machine

open Sys2Proof

/-- The eight data bits of a character, least significant first (section 1.1). -/
def dataBits (b : Byte) : List Bool := (List.range 8).map fun i => b.getLsbD i

/-- The settings port's select output SPCS: low while the read command is sent and the image is clocked in, high at
every other time (R191, R192). -/
def State.settingsSelect (s : State) : Level :=
  match s.loader.stage with
  | .sending _ | .receiving => .low
  | .inReset | .complete | .failed | .off => .high

/-- The byte that the settings port sends on SPDO: the next byte of the read command; none when no byte of it is left to
send (R192, section 11.7). -/
def State.settingsOut (s : State) : Option Byte :=
  match s.loader.stage with
  | .sending sent => readCommand[sent]?
  | .inReset | .receiving | .complete | .failed | .off => none

/-- The levels of a byte on the settings port, most significant bit first (R192). -/
def portLevels (b : Byte) : List Bool := (dataBits b).reverse

/-- The bus rate in bit/s, rounded down (R120). -/
def Timing.busRate (t : Timing) : Nat := 32000000 / (2 ^ t.p * (t.k + 16))

/-- The driver-enable output EBDE: asserted while the part sends a master frame (R119). -/
def State.driverEnable (s : State) : Bool :=
  match s.bus.activity with
  | .flight t => t.stage == .sending
  | .idle | .rest => false

end Sys2Proof.Machine
end

