-- ==== Sys2Proof/Machine/Timers.lean ====
section
/-! DEFINITION. What the part does by itself: the frame it takes, the item it sends, and the end of a millisecond with
every counter that it moves (R11, R17, R48, R54, R96, R100, R113, R127, R35, R40, R74, R138, R167). -/

namespace Sys2Proof.Machine

open Sys2Proof

/-! ### The row of a frame in the receive store -/

/-- The row of a MANAGE frame's command code (section 11.5). -/
def commandRow (c : Byte) : Instr :=
  match c.toNat with
  | 0x01 => .commission
  | 0x02 => .decommission
  | 0x03 => .restart
  | 0x10 => .loadStation
  | 0x11 => .clearStation
  | 0x12 => .loadSlot
  | 0x13 => .clearSlot
  | 0x20 => .loadElement
  | 0x21 => .clearElementEntry
  | 0x22 => .clearElementFault
  | 0x23 => .loadScoreRule
  | 0x30 => .loadLine
  | 0x31 => .clearLineFlags
  | 0x32 => .setTiming
  | 0x33 => .busPause
  | 0x34 => .busResume
  | 0x40 => .loadMatch
  | 0x41 => .start
  | 0x42 => .stop
  | 0x43 => .resume
  | 0x44 => .abort
  | 0x45 => .commit
  | 0x46 => .resetMatch
  | 0x47 => .disableSlot
  | 0x48 => .bypassSlot
  | 0x50 => .penalty
  | 0x51 => .correct
  | 0x60 => .read
  | 0x61 => .readNext
  | _ => .unknownCommand

/-- The row of a robot's frame (R31 to R33). -/
def State.robotRow (s : State) (i : SlotId) (f : Frame) : Instr :=
  if (s.robotDrop i f).isSome then .droppedFrame
  else if frameKindOf f.kind = some .tell then .tell
  else if frameKindOf f.kind = some .claim then .claim
  else .release

/-- The row that takes the head frame of the receive store; none when the store is empty (R11, R28, R29). -/
def State.frameRow (s : State) : Option Instr :=
  if s.link.store.isEmpty then none
  else if s.mgmt.mode = .starting then some .startingFrame
  else
    match s.headFrame with
    | none => none
    | some (_, .dropped _) => some .droppedFrame
    | some (f, .robot i _) => some (s.robotRow i f)
    | some (f, .driver i) => some (if (s.driverDrop i f).isSome then .droppedFrame else .drive)
    | some (f, .manage) => some (f.payload.head?.elim .unknownCommand commandRow)

/-- The row of the item that the transmitter arbiter takes; none while BUSY or with nothing to send (R17). -/
def State.takeRow (s : State) : Option Instr :=
  s.nextTake.map fun t =>
    match t with
    | .beacon _ => .takeBeacon
    | .verdict => .takeVerdict
    | .drive _ => .takeDrive
    | .reply => .takeReply
    | .notice => .takeNotice
    | .tell => .takeTell

/-! ### Counters at the end of a millisecond -/

/-- A running countdown falls by 1; at its last millisecond it is left to its moment, and at 0 it stays due. -/
def tickDown : Option Nat → Option Nat
  | some (n + 2) => some (n + 1)
  | c => c

/-- A count of milliseconds rises by 1 and stops at 65535. -/
def tickUp (n : Nat) : Nat := saturate n 1

/-- A countdown is at its last millisecond. -/
def atLast : Option Nat → Bool
  | some 1 => true
  | _ => false

/-- The remaining time at which a field's running phase has its next event: 100·E in TELEOP with E above 0, otherwise
0 (R48). -/
def MatchRecord.target (m : MatchRecord) : Nat := if m.phase = .teleop then 100 * m.durE else 0

/-- The field's remaining time falls: it is RUNNING in a timed phase (R48). -/
def MatchRecord.counts (m : MatchRecord) : Bool := m.phase.timed && m.stopped.isNone

/-- The fall of this millisecond brings the remaining time to its next event (R48). -/
def MatchRecord.arrives (m : MatchRecord) : Bool := m.counts && m.remaining ≤ m.target + 1

/-- The post grace runs (R54). -/
def MatchRecord.gracing (m : MatchRecord) : Bool := m.phase == .post && !m.aborted

/-- A field's counters at the end of a millisecond (R48, R54). -/
def MatchRecord.tick (m : MatchRecord) : MatchRecord :=
  { m with
    remaining := if m.counts && !m.arrives then m.remaining - 1 else m.remaining
    grace := if m.gracing && 1 < m.grace then m.grace - 1 else m.grace }

/-- An actuation's time running at the end of a millisecond (R113). -/
def Actuation.tick (a : Actuation) : Actuation :=
  if a.onElement then { a with running := tickUp a.running } else a

/-- An element's counters at the end of a millisecond (R96, R100, R113, R127). -/
def Loaded.tick (l : Loaded) : Loaded :=
  { l with
    hold := l.hold.map fun h => if 1 < h.remaining then { h with remaining := h.remaining - 1 } else h
    act := l.act.map Actuation.tick
    lastRelease := l.lastRelease.map fun r => { r with since := tickUp r.since }
    resend := tickDown l.resend
    actionPoll := tickDown l.actionPoll
    sensor := tickDown l.sensor }

/-- Every counter at the end of a millisecond; one that arrives at its event is left to its moment. -/
def State.advance (s : State) : State :=
  { s with
    fields := s.fields.map MatchRecord.tick
    elements := s.elements.map fun x => { x with loaded := x.loaded.map Loaded.tick }
    slots := s.slots.map fun x => { x with age := tickUp x.age }
    bus := { s.bus with probeLeft := tickDown s.bus.probeLeft }
    beacons := { s.beacons with left := tickDown s.beacons.left }
    sampleLeft := tickDown s.sampleLeft
    budgetLeft := tickDown s.budgetLeft }

/-! ### The moments of a millisecond -/

/-- A test on what is kept of a loaded element. -/
def State.loadedTest (s : State) (e : ElementId) (p : Loaded → Bool) : Bool :=
  match s.loadedAt e with
  | some l => p l
  | none => false

/-- Some slot would be found silent with its age one millisecond on (R40, R41). -/
def State.silenceComing (s : State) : Bool :=
  (allOf 32).any fun i => !(s.slots.at i).silent && s.inTimedPhase i && s.timing.silent ≤ (s.slots.at i).age

/-- Every countdown of the element bus. -/
def allCountdowns : List Countdown :=
  ((allOf 48).flatMap fun e => [.resend e, .actionPoll e, .sensor e]) ++ [.probe]

/-- What is left of a countdown of the element bus; none while it is absent or stopped (R127, R138). -/
def Countdown.left (s : State) : Countdown → Option Nat
  | .resend e => (s.loadedAt e).bind (·.resend)
  | .actionPoll e => (s.loadedAt e).bind (·.actionPoll)
  | .sensor e => (s.loadedAt e).bind (·.sensor)
  | .probe => s.bus.probeLeft

/-- The countdowns of the element bus that reach 0 at the end of this millisecond (R127, R138). -/
def State.arriving (s : State) : List Countdown := allCountdowns.filter fun c => atLast (c.left s)

/-- A countdown reaches 0: an element's is due, and the probe countdown sets the probe turn and starts again (R127, R138). -/
def Countdown.fall (s : State) : Countdown → State
  | .resend e => s.updLoaded e fun l => { l with resend := some 0 }
  | .actionPoll e => s.updLoaded e fun l => { l with actionPoll := some 0 }
  | .sensor e => s.updLoaded e fun l => { l with sensor := some 0 }
  | .probe => s.probePeriodEnds

/-- The countdowns that arrive together reach 0, each when it still runs, and then the arbiter chooses among all that is
due (R127, R128, R138). -/
def State.countdownsFall (s : State) (cs : List Countdown) : State :=
  (cs.foldl (fun s c => if atLast (c.left s) then c.fall s else s) s).settle

/-- The end of this millisecond brings a moment. The countdowns of the element bus that arrive together are one moment,
for R128 orders what becomes due in it. -/
def Moment.comes (s : State) : Moment → Bool
  | .autoExpiry f => (s.fields.at f).phase == .auto && (s.fields.at f).arrives
  | .pauseExpiry f => (s.fields.at f).phase == .pause && (s.fields.at f).arrives
  | .endgameBoundary f => (s.fields.at f).phase == .teleop && decide (0 < (s.fields.at f).durE) && (s.fields.at f).arrives
  | .matchEnd f => (s.fields.at f).lastPhase && (s.fields.at f).arrives
  | .graceEnd f => (s.fields.at f).gracing && (s.fields.at f).grace == 1
  | .holdExpiry e => s.loadedTest e fun l =>
      match l.hold with
      | some h => h.remaining ≤ 1
      | none => false
  | .actionLimit e => s.loadedTest e fun l =>
      match l.act with
      | some a => a.onElement && l.entry.actionLimit ≤ a.running
      | none => false
  | .countdowns cs => cs.any fun c => atLast (c.left s)
  | .budget => atLast s.budgetLeft
  | .silence => s.silenceComing
  | .beacon => atLast s.beacons.left
  | .sample => atLast s.sampleLeft

/-- Every moment that the end of a millisecond may bring, other than the countdowns of the element bus. -/
def allMoments : List Moment :=
  ((allOf 4).flatMap fun f => [.autoExpiry f, .pauseExpiry f, .endgameBoundary f, .matchEnd f, .graceEnd f])
    ++ ((allOf 48).flatMap fun e => [.holdExpiry e, .actionLimit e])
    ++ [.silence, .budget, .beacon, .sample]

/-- A moment that was coming still stands: what it is of has not been changed by an earlier moment. A time running
has been raised already. -/
def Moment.stands (s : State) : Moment → Bool
  | .actionLimit e => s.loadedTest e fun l =>
      match l.act with
      | some a => a.onElement && l.entry.actionLimit < a.running
      | none => false
  | .silence => true
  | m => m.comes s

/-- What a moment does: the effect of its row. -/
def Moment.act (s : State) : Moment → State
  | .autoExpiry f => (s.expireAuto f).settle
  | .pauseExpiry f => (s.expirePause f).settle
  | .endgameBoundary f => (s.crossBoundary f).settle
  | .matchEnd f => (s.expireMatch f).settle
  | .graceEnd f => s.updField f fun m => { m with grace := 0 }
  | .holdExpiry e => s.expireHold e
  | .actionLimit e => (s.passActionLimit e).settle
  | .countdowns cs => s.countdownsFall cs
  | .budget => s.refillAll
  | .silence => s.silenceTests.settle
  | .beacon => s.beaconPeriodEnds
  | .sample => s.takeSample s.pins

/-- A list in the order that free values choose, the first of them numbered `n` (notes/assumptions/6.md). A list of
one is in its only order. -/
def raceOrder {α : Type} : Nat → Nat → List α → List α
  | 0, _, l => l
  | fuel + 1, n, l =>
    match l with
    | [] => []
    | [x] => [x]
    | _ :: _ :: _ =>
      let k := Config.race n % l.length
      (l[k]?).toList ++ raceOrder fuel (n + 1) (l.eraseIdx k)

/-- The moments in turn, each when it still stands. -/
def State.runMoments (s : State) (ms : List Moment) : State :=
  ms.foldl (fun s m => if m.stands s then m.act s else s) s

/-- The moments that the end of this millisecond brings, in the order that free values choose: where two events fall
at the end of one millisecond the manual lets either come first (R50, R54, R96, R135). -/
def State.moments (s : State) : List Moment :=
  let due := (allMoments.filter fun m => m.comes s) ++ (if s.arriving.isEmpty then [] else [.countdowns s.arriving])
  raceOrder due.length s.choices due

/-- A sample at the end of this millisecond changes a field's stop state, so that it matters whether the field's
counters fall before it or after it (R48, R74). -/
def State.sampleStops (s : State) : Bool :=
  atLast s.sampleLeft && (s.takeSample s.pins).fields != s.fields

/-- The counters advance, then the moments come. -/
def State.countAndRun (s : State) : State :=
  let ms := s.moments
  { s.advance with choices := s.choices + ms.length }.runMoments ms

/-- The end of a millisecond. None of the millisecond timers runs in STARTING (R191), where the Settings Loader reads on
instead. A sample that changes a stop state may come before every counter falls (notes/assumptions/6.md). -/
def State.tick (s : State) : State :=
  if s.timersRun = false then s.readStep
  else if s.sampleStops && Config.race s.choices % 2 == 1 then
    let t := { s with choices := s.choices + 1 }.takeSample s.pins
    { { t with sampleLeft := none }.countAndRun with sampleLeft := t.sampleLeft }
  else { s with choices := s.choices + bit s.sampleStops }.countAndRun

end Sys2Proof.Machine
end

