-- ==== Sys2Proof/Machine/Dispatch.lean ====
section
/-! DEFINITION. The meaning of every command: one arm for each row of spec/opcode_table.json, in its order. -/

namespace Sys2Proof.Machine

open Sys2Proof

/-- A command's effect on everything but the queue of waiting commands. -/
def exec (i : Instr) (s : State) : Host.Outcome State Fault Refusal :=
  match i with
  | .deviceReset rstn => Sys2Proof.Machine.execDeviceReset s rstn
  | .endOfStarting image fill => Sys2Proof.Machine.execEndOfStarting image fill s
  | .frameComplete check => Sys2Proof.Machine.execFrameComplete check s
  | .framing => Sys2Proof.Machine.execFraming s
  | .overlong length => Sys2Proof.Machine.execOverlong length s
  | .truncated => Sys2Proof.Machine.execTruncated s
  | .startingFrame => Sys2Proof.Machine.execStartingFrame s
  | .droppedFrame => Sys2Proof.Machine.execDroppedFrame s
  | .drive => Sys2Proof.Machine.execDrive s
  | .tell => Sys2Proof.Machine.execTell s
  | .claim => Sys2Proof.Machine.execClaim s
  | .release => Sys2Proof.Machine.execRelease s
  | .unknownCommand => Sys2Proof.Machine.execUnknownCommand s
  | .commission => Sys2Proof.Machine.execCommission s
  | .decommission => Sys2Proof.Machine.execDecommission s
  | .restart => Sys2Proof.Machine.execRestart s
  | .loadStation => Sys2Proof.Machine.execLoadStation s
  | .clearStation => Sys2Proof.Machine.execClearStation s
  | .loadSlot => Sys2Proof.Machine.execLoadSlot s
  | .clearSlot => Sys2Proof.Machine.execClearSlot s
  | .loadMatch => Sys2Proof.Machine.execLoadMatch s
  | .start => Sys2Proof.Machine.execStart s
  | .stop => Sys2Proof.Machine.execStop s
  | .resume => Sys2Proof.Machine.execResume s
  | .abort => Sys2Proof.Machine.execAbort s
  | .commit => Sys2Proof.Machine.execCommit s
  | .resetMatch => Sys2Proof.Machine.execResetMatch s
  | .disableSlot => Sys2Proof.Machine.execDisableSlot s
  | .bypassSlot => Sys2Proof.Machine.execBypassSlot s
  | .loadLine => Sys2Proof.Machine.execLoadLine s
  | .clearLineFlags => Sys2Proof.Machine.execClearLineFlags s
  | .loadElement => Sys2Proof.Machine.execLoadElement s
  | .clearElementEntry => Sys2Proof.Machine.execClearElementEntry s
  | .clearElementFault => Sys2Proof.Machine.execClearElementFault s
  | .loadScoreRule => Sys2Proof.Machine.execLoadScoreRule s
  | .penalty => Sys2Proof.Machine.execPenalty s
  | .correct => Sys2Proof.Machine.execCorrect s
  | .setTiming => Sys2Proof.Machine.execSetTiming s
  | .busPause => Sys2Proof.Machine.execBusPause s
  | .busResume => Sys2Proof.Machine.execBusResume s
  | .read => Sys2Proof.Machine.execRead s
  | .readNext => Sys2Proof.Machine.execReadNext s
  | .takeBeacon => Sys2Proof.Machine.execTakeBeacon s
  | .takeVerdict => Sys2Proof.Machine.execTakeVerdict s
  | .takeDrive => Sys2Proof.Machine.execTakeDrive s
  | .takeReply => Sys2Proof.Machine.execTakeReply s
  | .takeNotice => Sys2Proof.Machine.execTakeNotice s
  | .takeTell => Sys2Proof.Machine.execTakeTell s
  | .frameSent => Sys2Proof.Machine.execFrameSent s
  | .transmitterFree => Sys2Proof.Machine.execTransmitterFree s
  | .autoExpiry f => Sys2Proof.Machine.execAutoExpiry f s
  | .pauseExpiry f => Sys2Proof.Machine.execPauseExpiry f s
  | .endgameBoundary f => Sys2Proof.Machine.execEndgameBoundary f s
  | .matchEndExpiry f => Sys2Proof.Machine.execMatchEndExpiry f s
  | .postGraceEnd f => Sys2Proof.Machine.execPostGraceEnd f s
  | .holdExpiry e => Sys2Proof.Machine.execHoldExpiry e s
  | .budgetTick => Sys2Proof.Machine.execBudgetTick s
  | .silentTimeout slot => Sys2Proof.Machine.execSilentTimeout slot s
  | .beaconPeriod => Sys2Proof.Machine.execBeaconPeriod s
  | .lineSample pins => Sys2Proof.Machine.execLineSample pins s
  | .unfilteredLineChange n v => Sys2Proof.Machine.execUnfilteredLineChange n v s
  | .actionLimit e => Sys2Proof.Machine.execActionLimit e s
  | .resendCountdown e => Sys2Proof.Machine.execResendCountdown e s
  | .actionPollCountdown e => Sys2Proof.Machine.execActionPollCountdown e s
  | .sensorCountdown e => Sys2Proof.Machine.execSensorCountdown e s
  | .probeCountdown => Sys2Proof.Machine.execProbeCountdown s
  | .busRestEnd => Sys2Proof.Machine.execBusRestEnd s
  | .masterFrameEnd => Sys2Proof.Machine.execMasterFrameEnd s
  | .answerWindowExpiry => Sys2Proof.Machine.execAnswerWindowExpiry s
  | .answerCutOff => Sys2Proof.Machine.execAnswerCutOff s
  | .probeAnswer edge => Sys2Proof.Machine.execProbeAnswer edge s
  | .actuateAnswer edge => Sys2Proof.Machine.execActuateAnswer edge s
  | .actionPollAnswer edge => Sys2Proof.Machine.execActionPollAnswer edge s
  | .sensorPollAnswer edge => Sys2Proof.Machine.execSensorPollAnswer edge s
  | .fetchAnswer edge => Sys2Proof.Machine.execFetchAnswer edge s
  | .safeAnswer edge => Sys2Proof.Machine.execSafeAnswer edge s
  | .characterReceived edge => Sys2Proof.Machine.execCharacterReceived edge s
  | .answerCharacter ev => Sys2Proof.Machine.execAnswerCharacter ev s

end Sys2Proof.Machine
end

