-- ==== Sys2Proof/Machine/Step.lean ====
section
/-! DEFINITION. One step of the part: the waiting command at the front of the queue, or the part's own next moment. -/

namespace Sys2Proof.Machine

open Sys2Proof

/-- The part's own next moment, when no command waits: it takes the head frame of the receive store (R11), or the
item the transmitter arbiter takes (R17), or the millisecond ends (notes/assumptions/5.md). -/
def ownStep (s : State) : Host.Outcome State Fault Refusal :=
  match s.frameRow with
  | some c => exec c s
  | none =>
    match s.takeRow with
    | some c => exec c s
    | none => .next s.tick

/-- One step: the command at the front of the queue is executed with the queue's rest; on an empty queue the part
makes its own next moment. -/
def step (s : State) : Host.Outcome State Fault Refusal :=
  match s.pending with
  | c :: rest => exec c { s with pending := rest }
  | [] => ownStep s

/-- The state with the command that a word spells at the front of its queue; the table gives no row any bits, so no
word spells one (notes/assumptions/10.md). -/
def State.withFetchWord (s : State) (nbits w : Nat) : State :=
  match decodeTableWord nbits w with
  | some c => { s with pending := c :: s.pending }
  | none => s

end Sys2Proof.Machine
end

