-- ==== Sys2Proof/Safety.lean ====
section
/-! DEFINITION. The words that statements use: what the Element Arbiter and the Element Bus Master leave alone, the
frames that a row finds at the head of the receive store, and the bounds that every step keeps. -/

namespace Sys2Proof.Machine

open Sys2Proof

/-! ### What the blocks leave alone -/

/-- The bus side of a loaded element: its entry, presence, miss count, toggles, retry count and FETCH mark. -/
structure BusSide where
  entry : ElementEntry
  presence : Presence
  misses : Nat
  actToggle : Bool
  fetchToggle : Bool
  retries : Nat
  fetchMark : Bool
  deriving DecidableEq, Repr

/-- The bus side of what is kept of a loaded element. -/
def Loaded.busSide (l : Loaded) : BusSide :=
  { entry := l.entry, presence := l.presence, misses := l.misses, actToggle := l.actToggle,
    fetchToggle := l.fetchToggle, retries := l.retries, fetchMark := l.fetchMark }

/-- What every procedure of the Element Arbiter leaves alone: all but the verdict queue, the outstanding counts, and
the claims, holds, actuations, last releases and countdowns of the loaded elements. -/
structure ArbiterKeeps (s t : State) : Prop where
  link : t.link = { s.link with verdicts := t.link.verdicts }
  stations : t.stations = s.stations
  slots : ∀ i, t.slots.at i = { s.slots.at i with outstanding := (t.slots.at i).outstanding }
  gate : t.gate = s.gate
  fields : t.fields = s.fields
  tallies : t.tallies = s.tallies
  lines : t.lines = s.lines
  pins : t.pins = s.pins
  sampleLeft : t.sampleLeft = s.sampleLeft
  rules : ∀ e, (t.elements.at e).rules = (s.elements.at e).rules
  eventCount : ∀ e, (t.elements.at e).eventCount = (s.elements.at e).eventCount
  busSide : ∀ e, (t.loadedAt e).map Loaded.busSide = (s.loadedAt e).map Loaded.busSide
  bus : t.bus = s.bus
  beacons : t.beacons = s.beacons
  mgmt : t.mgmt = s.mgmt
  timing : t.timing = s.timing
  budgetLeft : t.budgetLeft = s.budgetLeft
  loader : t.loader = s.loader
  choices : t.choices = s.choices
  pending : t.pending = s.pending

/-- What every procedure of the Element Bus Master and the Element Arbiter leaves alone: all but the verdict and
notice queues with the dropped count, the outstanding counts and silent marks, the bus's own state but for its
RUNNING or PAUSED state, and what is kept of the loaded elements but for their entries. -/
structure BusKeeps (s t : State) : Prop where
  link : t.link = { s.link with verdicts := t.link.verdicts }
  stations : t.stations = s.stations
  slots : ∀ i, t.slots.at i = { s.slots.at i with outstanding := (t.slots.at i).outstanding, silent := (t.slots.at i).silent }
  gate : t.gate = s.gate
  fields : t.fields = s.fields
  tallies : t.tallies = s.tallies
  lines : t.lines = s.lines
  pins : t.pins = s.pins
  sampleLeft : t.sampleLeft = s.sampleLeft
  rules : ∀ e, (t.elements.at e).rules = (s.elements.at e).rules
  eventCount : ∀ e, (t.elements.at e).eventCount = (s.elements.at e).eventCount
  entry : ∀ e, (t.loadedAt e).map (·.entry) = (s.loadedAt e).map (·.entry)
  busState : t.bus.state = s.bus.state
  probeLeft : t.bus.probeLeft = s.bus.probeLeft
  beacons : t.beacons = s.beacons
  mgmt : t.mgmt = { s.mgmt with notices := t.mgmt.notices, dropped := t.mgmt.dropped }
  notices : s.mgmt.notices <+: t.mgmt.notices
  timing : t.timing = s.timing
  budgetLeft : t.budgetLeft = s.budgetLeft
  loader : t.loader = s.loader
  choices : t.choices = s.choices
  pending : t.pending = s.pending

/-- What an event of field `f` leaves alone: all that `BusKeeps` names but the field's own record and urgent mark
(R27, R49, R55, R61, R64). -/
structure FieldKeeps (f : FieldId) (s t : State) : Prop where
  link : t.link = { s.link with verdicts := t.link.verdicts }
  stations : t.stations = s.stations
  slots : ∀ i, t.slots.at i = { s.slots.at i with outstanding := (t.slots.at i).outstanding, silent := (t.slots.at i).silent }
  gate : t.gate = s.gate
  fields : ∀ g, g ≠ f → t.fields.at g = s.fields.at g
  tallies : t.tallies = s.tallies
  lines : t.lines = s.lines
  pins : t.pins = s.pins
  sampleLeft : t.sampleLeft = s.sampleLeft
  rules : ∀ e, (t.elements.at e).rules = (s.elements.at e).rules
  eventCount : ∀ e, (t.elements.at e).eventCount = (s.elements.at e).eventCount
  entry : ∀ e, (t.loadedAt e).map (·.entry) = (s.loadedAt e).map (·.entry)
  busState : t.bus.state = s.bus.state
  probeLeft : t.bus.probeLeft = s.bus.probeLeft
  urgent : ∀ g, g ≠ f → t.beacons.urgent.at g = s.beacons.urgent.at g
  routine : t.beacons.routine = s.beacons.routine
  beaconLeft : t.beacons.left = s.beacons.left
  mgmt : t.mgmt = { s.mgmt with notices := t.mgmt.notices, dropped := t.mgmt.dropped }
  notices : s.mgmt.notices <+: t.mgmt.notices
  timing : t.timing = s.timing
  budgetLeft : t.budgetLeft = s.budgetLeft
  loader : t.loader = s.loader
  choices : t.choices = s.choices
  pending : t.pending = s.pending

/-! ### Frames at the head of the receive store -/

/-- The head of the receive store is a MANAGE frame for the part whose payload is a command code and its operands
(R29, R30, R178). -/
structure CommandFrame (s : State) (f : Frame) (rest : List Frame) (code : Byte) (operands : List Byte) : Prop where
  mode : s.mgmt.mode ≠ .starting
  store : s.link.store = f :: rest
  src : f.src = s.link.console
  dst : f.dst = s.link.own ∨ f.dst = 0xFF#8
  kind : f.kind = 0x40#8
  payload : f.payload = code :: operands

/-- As `CommandFrame`, and the Management Agent will answer it: it is not restart-pending and the reply queue has room
(R178). -/
structure CommandReady (s : State) (f : Frame) (rest : List Frame) (code : Byte) (operands : List Byte) : Prop
    extends CommandFrame s f rest code operands where
  live : s.mgmt.restartPending = false
  room : s.link.replies.length < 4

/-- The rows of MANAGE commands, with the code and the payload length of each (section 11.5). -/
def commandTable : List (Instr × Byte × Nat) :=
  [(.commission, 0x01, 1), (.decommission, 0x02, 1), (.restart, 0x03, 1), (.loadStation, 0x10, 4),
    (.clearStation, 0x11, 2), (.loadSlot, 0x12, 8), (.clearSlot, 0x13, 2), (.loadElement, 0x20, 15),
    (.clearElementEntry, 0x21, 2), (.clearElementFault, 0x22, 2), (.loadScoreRule, 0x23, 7), (.loadLine, 0x30, 3),
    (.clearLineFlags, 0x31, 2), (.setTiming, 0x32, 16), (.busPause, 0x33, 1), (.busResume, 0x34, 1)] ++
  [(.loadMatch, 0x40, 18), (.start, 0x41, 2), (.stop, 0x42, 2), (.resume, 0x43, 2), (.abort, 0x44, 2),
    (.commit, 0x45, 2), (.resetMatch, 0x46, 2), (.disableSlot, 0x47, 2), (.bypassSlot, 0x48, 2), (.penalty, 0x50, 5),
    (.correct, 0x51, 5), (.read, 0x60, 3), (.readNext, 0x61, 1)]

/-- The state after the head frame has left the receive store. -/
def State.taken (s : State) (rest : List Frame) : State := { s with link := { s.link with store := rest } }

/-- The state after the head frame has left the receive store and its reply has joined the reply queue (R178, R180). -/
def State.replied (s : State) (f : Frame) (rest : List Frame) (code : Byte) (o : ReplyOutcome) : State :=
  { s with link := { s.link with store := rest, replies := s.link.replies ++ [{ seq := f.seq, code, outcome := o }] } }

/-- A Station Table entry matches an address: it is the entry's own, or, 0x40 above it, the twin radio of a ROBOT entry with
accept-twin set (R20). -/
def Station.Matches (st : Station) (a : Byte) : Prop :=
  a = st.addr ∨ (st.role = .robot ∧ st.acceptTwin = true ∧ a = st.addr + 0x40#8)

/-- The entry is the slot's only one of its role (R21). -/
def State.OnlyStation (s : State) (role : Role) (i : SlotId) (st : Station) : Prop :=
  st ∈ s.stations ∧ st.role = role ∧ st.slot = i ∧ ∀ x ∈ s.stations, x.role = role → x.slot = i → x = st

/-- The slot has no entry of the role. -/
def State.NoStation (s : State) (role : Role) (i : SlotId) : Prop := ∀ x ∈ s.stations, x.role = role → x.slot ≠ i

/-- The head of the receive store is a frame from a radio of slot `i`'s ROBOT entry (R20, R29). -/
structure RobotFrame (s : State) (f : Frame) (rest : List Frame) (i : SlotId) (radio : Radio) : Prop where
  mode : s.mgmt.mode ≠ .starting
  store : s.link.store = f :: rest
  range : stationAddress f.src = true
  notConsole : f.src ≠ s.link.console
  notManage : f.kind ≠ 0x40#8
  station : ∃ st, findStation s.stations f.src = some (st, radio) ∧ st.role = .robot ∧ st.slot = i

/-- The head of the receive store is a frame from slot `i`'s DRIVER entry (R20, R29). -/
structure DriverFrame (s : State) (f : Frame) (rest : List Frame) (i : SlotId) : Prop where
  mode : s.mgmt.mode ≠ .starting
  store : s.link.store = f :: rest
  range : stationAddress f.src = true
  notConsole : f.src ≠ s.link.console
  notManage : f.kind ≠ 0x40#8
  station : ∃ st radio, findStation s.stations f.src = some (st, radio) ∧ st.role = .driver ∧ st.slot = i

/-- A frame from a radio has refreshed its slot: last-heard radio, age 0, silent mark clear (R31). -/
def Slot.refreshed (x : Slot) (radio : Radio) : Slot := { x with radio, age := 0, silent := false }

/-- The state after the head frame, a robot's, has left the receive store and refreshed its slot, with NOTICE HEARD for
one that was silent (R31). -/
def State.takenFromRobot (s : State) (rest : List Frame) (i : SlotId) (radio : Radio) : State :=
  { (if (s.slots.at i).silent then s.queueNotice (.heard i) else s) with
    link := { s.link with store := rest }
    slots := s.slots.put i ((s.slots.at i).refreshed radio) }

/-- The head of the receive store is a CLAIM from a radio of slot `i`'s ROBOT entry that reaches the Element Arbiter: it
names the element number `b` and makes the request `r` (R31, R32). -/
structure ClaimFrame (s : State) (f : Frame) (rest : List Frame) (i : SlotId) (radio : Radio) (b : Byte) (r : Request) : Prop
    extends RobotFrame s f rest i radio where
  kind : f.kind = 0x20#8
  notBypassed : (s.slots.at i).bypassed = false
  forPart : f.dst = s.link.own ∨ f.dst = 0xFF#8
  payload : ∃ more, f.payload = b :: r.action :: r.argument :: r.tag :: more

/-- As `ClaimFrame`, for a RELEASE that names the element number `b` (R31, R32). -/
structure ReleaseFrame (s : State) (f : Frame) (rest : List Frame) (i : SlotId) (radio : Radio) (b : Byte) : Prop
    extends RobotFrame s f rest i radio where
  kind : f.kind = 0x21#8
  notBypassed : (s.slots.at i).bypassed = false
  forPart : f.dst = s.link.own ∨ f.dst = 0xFF#8
  payload : ∃ more, f.payload = b :: more

/-! ### Claims (R89, R92, R101, R102) -/

/-- The tests of R89 up to the element's field: the slot's gate is open, the element is loaded, on the slot's field. -/
structure ClaimReaches (s : State) (i : SlotId) (e : ElementId) (l : Loaded) : Prop where
  gate : s.gateOpen i = true
  loaded : s.loadedAt e = some l
  field : s.slotField i = some l.entry.field

/-- The tests of R89 that a CLAIM passes: those of `ClaimReaches`, the element able to act and the action in its mask, the
phase in its mask, the owner right, PRESENT. The slot is not silent, since its frame has just been heard (R31). -/
structure ClaimAllowed (s : State) (i : SlotId) (e : ElementId) (l : Loaded) (r : Request) : Prop
    extends ClaimReaches s i e l where
  kind : l.entry.kind ≠ .sensing
  action : l.entry.actionMask.getLsbD r.action.toNat = true
  phase : phaseIn l.entry.phaseMask (s.fields.at l.entry.field).phase = true
  owner : l.entry.owner = .shared ∨ l.entry.owner.alliance = s.slotAlliance i
  presence : l.presence = .present

/-- A new claim: it is allowed, and the slot is neither the element's holder nor in its queue (R92). -/
structure ClaimNew (s : State) (i : SlotId) (e : ElementId) (l : Loaded) (r : Request) : Prop
    extends ClaimAllowed s i e l r where
  notHolder : ∀ h, l.hold = some h → h.slot ≠ i
  notQueued : ∀ c ∈ l.claims, c.slot ≠ i

/-- A new claim passes the tests of R92: an outstanding count below 2, not cooling, and room in the queue. -/
structure ClaimPasses (s : State) (i : SlotId) (e : ElementId) (l : Loaded) (r : Request) : Prop
    extends ClaimNew s i e l r where
  outstanding : (s.slots.at i).outstanding < 2
  cooled : ∀ x, l.lastRelease = some x → x.slot = i → l.entry.coolDown ≤ x.since
  room : l.claims.length < 4

/-- The first test of R89, then of R92, that a CLAIM of slot `i` for the element number `b` fails gives this reason. -/
inductive ClaimRefused (s : State) (i : SlotId) (b : Byte) (r : Request) : Reason → Prop
  | gateOff (h : s.effectiveGate i = .off) : ClaimRefused s i b r .gateOff
  | noNumber (g : s.gateOpen i = true) (h : 48 ≤ b.toNat) : ClaimRefused s i b r .noElement
  | noEntry (e : ElementId) (g : s.gateOpen i = true) (hb : b = elementByte e) (h : s.loadedAt e = none) :
      ClaimRefused s i b r .noElement
  | otherField (e : ElementId) (l : Loaded) (g : s.gateOpen i = true) (hb : b = elementByte e) (hl : s.loadedAt e = some l)
      (h : s.slotField i ≠ some l.entry.field) : ClaimRefused s i b r .noElement
  | badAction (e : ElementId) (l : Loaded) (hb : b = elementByte e) (g : ClaimReaches s i e l)
      (h : l.entry.kind = .sensing ∨ l.entry.actionMask.getLsbD r.action.toNat = false) : ClaimRefused s i b r .badAction
  | phase (e : ElementId) (l : Loaded) (hb : b = elementByte e) (g : ClaimReaches s i e l)
      (a : l.entry.kind ≠ .sensing ∧ l.entry.actionMask.getLsbD r.action.toNat = true)
      (h : phaseIn l.entry.phaseMask (s.fields.at l.entry.field).phase = false) : ClaimRefused s i b r .phase
  | notYours (e : ElementId) (l : Loaded) (hb : b = elementByte e) (g : ClaimReaches s i e l)
      (a : l.entry.kind ≠ .sensing ∧ l.entry.actionMask.getLsbD r.action.toNat = true)
      (p : phaseIn l.entry.phaseMask (s.fields.at l.entry.field).phase = true)
      (h : l.entry.owner ≠ .shared ∧ l.entry.owner.alliance ≠ s.slotAlliance i) : ClaimRefused s i b r .notYours
  | elementDown (e : ElementId) (l : Loaded) (hb : b = elementByte e) (g : ClaimReaches s i e l)
      (a : l.entry.kind ≠ .sensing ∧ l.entry.actionMask.getLsbD r.action.toNat = true)
      (p : phaseIn l.entry.phaseMask (s.fields.at l.entry.field).phase = true)
      (o : l.entry.owner = .shared ∨ l.entry.owner.alliance = s.slotAlliance i)
      (h : l.presence ≠ .present) : ClaimRefused s i b r .elementDown
  | tooMany (e : ElementId) (l : Loaded) (hb : b = elementByte e) (n : ClaimNew s i e l r)
      (h : 2 ≤ (s.slots.at i).outstanding) : ClaimRefused s i b r .tooMany
  | cooling (e : ElementId) (l : Loaded) (x : LastRelease) (hb : b = elementByte e) (n : ClaimNew s i e l r)
      (o : (s.slots.at i).outstanding < 2) (hx : l.lastRelease = some x)
      (h : x.slot = i ∧ x.since < l.entry.coolDown) : ClaimRefused s i b r .cooling
  | queueFull (e : ElementId) (l : Loaded) (hb : b = elementByte e) (n : ClaimNew s i e l r)
      (o : (s.slots.at i).outstanding < 2)
      (c : ∀ x, l.lastRelease = some x → x.slot = i → l.entry.coolDown ≤ x.since)
      (h : 4 ≤ l.claims.length) : ClaimRefused s i b r .queueFull

/-- A queued claim may be granted: its slot's gate is open, its slot is not silent, and the field's phase is in the
element's phase mask (R101). -/
def State.MayHold (s : State) (x : ElementEntry) (c : Claim) : Prop :=
  s.gateOpen c.slot = true ∧ (s.slots.at c.slot).silent = false ∧ phaseIn x.phaseMask (s.fields.at x.field).phase = true

/-- A claim is one that ALTERNATE picks first: of another alliance than the last holder's. Under FIFO, and without a last
holder, every claim is (R101, R102). -/
def State.Preferred (s : State) (x : ElementEntry) (last : Option Alliance) (c : Claim) : Prop :=
  x.discipline = .fifo ∨ last = none ∨ s.slotAlliance c.slot ≠ last

/-- Grant selection picks `d` out of the queue `a ++ d :: b`, oldest first: the oldest eligible claim of those preferred,
or, when no eligible claim is preferred, the oldest eligible one (R101, R102). -/
def State.Picks (s : State) (x : ElementEntry) (last : Option Alliance) (a : List Claim) (d : Claim) (b : List Claim) : Prop :=
  s.MayHold x d ∧
    ((s.Preferred x last d ∧ ∀ c ∈ a, s.MayHold x c → ¬ s.Preferred x last c) ∨
      ((∀ c ∈ a, ¬ s.MayHold x c) ∧ ∀ c ∈ d :: b, s.MayHold x c → ¬ s.Preferred x last c))

/-- The hold and the actuation that a grant makes: the hold of the claim's slot for the hold limit, and a new actuation of
its request; `sent` is whether the bus has started it at once (R95). -/
def Loaded.grantedTo (l : Loaded) (d : Claim) (sent : Bool) : Prop :=
  l.hold = some { slot := d.slot, tag := d.request.tag, remaining := l.entry.holdLimit, next := none } ∧
    l.act = some { slot := d.slot, request := d.request, state := .waitingBus, sent, running := 0 }

/-- A new actuation for slot `i`: WAITING-BUS, its sent mark clear, its time running 0 (R111). -/
def Actuation.Starts (i : SlotId) (r : Request) (a : Actuation) : Prop :=
  a = { slot := i, request := r, state := .waitingBus, sent := false, running := 0 }

/-- What is kept of an element, `l`, once its actuation record `a` is removed: no countdown of the record, and, when the record
was RUNNING or CANCELLING on a PRESENT element that reports, the sensor countdown started at its period (R130, R134, R136). -/
def Loaded.actRemoved (l : Loaded) (a : Actuation) (sensorPeriod : Nat) : Loaded :=
  { l with
    act := none, resend := none, actionPoll := none
    sensor := if a.state ≠ .waitingBus ∧ l.presence = .present ∧ l.entry.kind ≠ .actuating then some sensorPeriod
      else l.sensor }

/-- The end, with outcome `o`, of the actuation `a` of element `e`, from `s`, in which the element is kept as `l`, to `t`, in
which it is kept as `l'`: the record is removed and its requester told. Then the next action of a hold is taken up, without a
verdict, or dropped with CANCELLED where the element is not PRESENT; a hold without one stays as it is; and without a hold grant
selection picks, under FIFO or ALTERNATE, the claim that is granted, or none. No outstanding count and no other element changes
(R95, R101, R102, R103, R115). -/
structure ActuationEnds (s t : State) (e : ElementId) (l l' : Loaded) (a : Actuation) (o : Outcome) : Prop where
  slots : t.slots = s.slots
  others : ∀ k, k ≠ e → t.loadedAt k = s.loadedAt k
  kept : { l' with claims := l.claims, hold := l.hold, act := none } = l.actRemoved a s.timing.sensor
  quiet : ∀ h, l.hold = some h → h.next = none → l' = l.actRemoved a s.timing.sensor ∧
    t.link.verdicts = enqueueVerdict s.link.verdicts
      { slot := a.slot, element := elementByte e, outcome := o, tag := a.request.tag }
  next : ∀ h n, l.hold = some h → h.next = some n → l.presence = .present →
    (∃ x, x.Starts h.slot n ∧
      l' = { l.actRemoved a s.timing.sensor with hold := some { h with next := none }, act := some x }) ∧
    t.link.verdicts = enqueueVerdict s.link.verdicts
      { slot := a.slot, element := elementByte e, outcome := o, tag := a.request.tag }
  dropped : ∀ h n, l.hold = some h → h.next = some n → l.presence ≠ .present →
    l' = { l.actRemoved a s.timing.sensor with hold := some { h with next := none } } ∧
    t.link.verdicts = enqueueVerdict (enqueueVerdict s.link.verdicts
      { slot := a.slot, element := elementByte e, outcome := o, tag := a.request.tag })
      { slot := h.slot, element := elementByte e, outcome := .cancelled, tag := n.tag }
  granted : ∀ before d behind, l.hold = none → l.presence = .present → l.claims = before ++ d :: behind →
    s.Picks l.entry l.lastAlliance before d behind →
    (∃ x, x.Starts d.slot d.request ∧
      l' = { l.actRemoved a s.timing.sensor with
        claims := before ++ behind, act := some x
        hold := some { slot := d.slot, tag := d.request.tag, remaining := l.entry.holdLimit, next := none } }) ∧
    t.link.verdicts = enqueueVerdict (enqueueVerdict s.link.verdicts
      { slot := a.slot, element := elementByte e, outcome := o, tag := a.request.tag })
      { slot := d.slot, element := elementByte e, outcome := .granted, tag := d.request.tag }
  free : l.hold = none → l.presence ≠ .present ∨ (∀ c ∈ l.claims, ¬ s.MayHold l.entry c) →
    l' = l.actRemoved a s.timing.sensor ∧
    t.link.verdicts = enqueueVerdict s.link.verdicts
      { slot := a.slot, element := elementByte e, outcome := o, tag := a.request.tag }

/-- The verdict queue after steps 1 to 4 of the end of a hold: RELEASED, then CANCELLED for a next action, then CANCELLED
for an actuation that waits unsent (R99). -/
def holdEndVerdicts (q : List Verdict) (e : ElementId) (l : Loaded) (h : Hold) (reason : Reason) : List Verdict :=
  let v (o : Outcome) (tag : Byte) : Verdict := { slot := h.slot, element := elementByte e, outcome := o, tag }
  let q := enqueueVerdict q (v (.released reason) h.tag)
  let q := match h.next with
    | some n => enqueueVerdict q (v .cancelled n.tag)
    | none => q
  match l.act with
  | some a => if a.state = .waitingBus ∧ a.sent = false then enqueueVerdict q (v .cancelled a.request.tag) else q
  | none => q

/-- What of the elements other than `e` a claim, a release or a hold's end leaves alone: their claims and holds. -/
def ClaimsKept (s t : State) (e : ElementId) : Prop :=
  ∀ k, k ≠ e → (t.loadedAt k).map (fun x => (x.claims, x.hold)) = (s.loadedAt k).map (fun x => (x.claims, x.hold))

/-! ### Referee lines -/

/-- A change of line records makes a line active (R72). -/
def NewlyActive (s t : State) (n : LineId) : Prop :=
  (t.lines.at n).filtered = (s.lines.at n).activeLevel ∧ (s.lines.at n).filtered ≠ (s.lines.at n).activeLevel

/-- A line stops a field: it is a STOP line of the field, or a HALL-STOP line (R77, R80). -/
def StopLineOf (s : State) (g : FieldId) (n : LineId) : Prop :=
  (s.lines.at n).role = .stop ∧ lineField n = g ∨ (s.lines.at n).role = .hallStop

/-- A field's combination holds: it has a RESUME-KEY line, and each of them is active (R82). -/
def Combined (lines : Table 16 LineRecord) (g : FieldId) : Prop :=
  (∃ n, lineField n = g ∧ (lines.at n).role = .resumeKey) ∧
    ∀ n, lineField n = g → (lines.at n).role = .resumeKey → (lines.at n).filtered = (lines.at n).activeLevel

/-- The resume that a combination asks for would pass, the edge flags of the field's STOP lines being cleared: the field is
STOPPED, no line that stops it is active, and no HALL-STOP line has its edge flag set (R63, R82). -/
def Resumable (s : State) (lines : Table 16 LineRecord) (g : FieldId) : Prop :=
  (s.fields.at g).stopped ≠ none ∧ (∀ n, StopLineOf s g n → (lines.at n).filtered ≠ (lines.at n).activeLevel) ∧
    ∀ n, (s.lines.at n).role = .hallStop → (s.lines.at n).edge = false

/-! ### The bus schedule (R128) -/

/-- The rank of a transaction in the order of R128. -/
def BusCommand.rank : BusCommand → Nat
  | .safe => 1
  | .actuate => 2
  | .fetch => 3
  | .actionPoll => 4
  | .sensorPoll => 5
  | .probe => 6

/-- A transaction is due for a loaded element: the SAFE at the head of the SAFE queue (R139), an ACTUATE (R130), a FETCH
(R137), an action POLL (R134), a sensor POLL (R136), or the PROBE of a probe turn (R138). -/
def State.Due (s : State) (e : ElementId) (l : Loaded) : BusCommand → Prop
  | .safe => s.bus.safeQueue.head? = some e ∧ l.presence ≠ .absent
  | .actuate => l.presence = .present ∧ e ∉ s.bus.safeQueue ∧ (l.resend = none ∨ l.resend = some 0) ∧
      ∃ a, l.act = some a ∧ a.state = .waitingBus
  | .fetch => l.presence = .present ∧ l.fetchMark = true
  | .actionPoll => l.presence = .present ∧ l.actionPoll = some 0
  | .sensorPoll => l.presence = .present ∧ l.sensor = some 0
  | .probe => s.bus.probeTurn = true ∧ (l.presence = .unknown ∨ l.presence = .absent)

/-- The first due transaction of the order of R128: of the lowest rank in which one is due, for the lowest-numbered
element of that rank, or, for a PROBE, the first after the last probed element, wrapping (R138). -/
structure State.FirstDue (s : State) (e : ElementId) (l : Loaded) (c : BusCommand) : Prop where
  loaded : s.loadedAt e = some l
  due : s.Due e l c
  rank : ∀ k m d, s.loadedAt k = some m → s.Due k m d → c.rank ≤ d.rank
  lowest : c ≠ .probe → ∀ k m, s.loadedAt k = some m → s.Due k m c → e ≤ k
  afterLast : c = .probe → ∀ k m, s.loadedAt k = some m → s.Due k m c →
    e - (s.bus.lastProbed + 1) ≤ k - (s.bus.lastProbed + 1)

/-! ### Transactions -/

/-- The character whose eleven bits `edge` brings completes the answer to the transaction `t` in flight, a `k` to an element
that is loaded as `l` and was not loaded or cleared since; the answer says `st` with `payload` (R2, R119, R122, R123, R126). -/
structure AnswerEnds (s : State) (k : BusCommand) (edge : BusEdge) (t : Transaction) (chars : List BusChar) (l : Loaded)
    (st : Status) (payload : List Byte) : Prop where
  flight : s.bus.activity = .flight t
  stage : t.stage = .answer chars
  command : t.command = k
  live : t.void = false
  loaded : s.loadedAt t.element = some l
  answer : ∃ c, t.hears edge = some c ∧ answerComplete (chars ++ [c]) = true ∧
    parseAnswer (t.bytes.headD 0) k (chars ++ [c]) = .answered st payload

/-! ### What events take from slots (R41, R55, R105 to R107) -/

/-- A slot has neither a claim on an element nor its hold. -/
def Loaded.freeOf (l : Loaded) (i : SlotId) : Prop := (∀ c ∈ l.claims, c.slot ≠ i) ∧ ∀ h, l.hold = some h → h.slot ≠ i

/-- No queue holds two claims of one slot (R91). -/
def State.ClaimsDistinct (s : State) : Prop := ∀ e l, s.loadedAt e = some l → (l.claims.map (·.slot)).Nodup

/-- The slots of field `g` that its entry to phase `p` finds silent, in ascending order: the mark clear and the age past the
timeout; none on entry to a phase that is not timed (R41, R55). -/
def State.silentAtEntry (s : State) (g : FieldId) (p : Phase) : List SlotId :=
  if p.timed then
    (allOf 32).filter fun i =>
      s.slotField i == some g && !(s.slots.at i).silent && decide (s.timing.silent < (s.slots.at i).age)
  else []

/-- The change of field `g` to phase `p` takes from slot `i`, with reason PHASE, what it has on an element kept as `l`: its
gate was open and shuts in PAUSE or POST, or the element is the field's and its phase mask lacks the new TELEOP or ENDGAME
(R27, R55, R105, R107). -/
def State.PhaseTakes (s : State) (g : FieldId) (p : Phase) (l : Loaded) (i : SlotId) : Prop :=
  ((p = .pause ∨ p = .post) ∧ s.slotField i = some g ∧ s.gateOpen i = true) ∨
    ((p = .teleop ∨ p = .endgame) ∧ l.entry.field = g ∧ phaseIn l.entry.phaseMask p = false)

/-- What gate-off events with reason `r`, a phase event and silent events of one moment do to claims and holds: they take away
all that a slot has on an element where `loses` says so, and all that the slots in `silent` have, and leave every other
element's claims and hold as they were. A hold that `loses` takes is answered RELEASED with `r`, and a hold that only the
silence takes with SILENT; no verdict but these, the WITHDRAWN of the claims, CANCELLED and GRANTED is queued (R99, R104 to
R107). -/
structure ClaimsTaken (r : Reason) (loses : Loaded → SlotId → Prop) (silent : List SlotId) (s t : State) : Prop where
  taken : s.ClaimsDistinct → ∀ e l l' i, s.loadedAt e = some l → t.loadedAt e = some l' → loses l i ∨ i ∈ silent →
    l'.freeOf i
  kept : ∀ e l, s.loadedAt e = some l → (∀ i, loses l i ∨ i ∈ silent → l.freeOf i) →
    (t.loadedAt e).map (fun x => (x.claims, x.hold)) = some (l.claims, l.hold)
  released : s.ClaimsDistinct → t.link.verdicts.length < 16 → ∀ e l h, s.loadedAt e = some l → l.hold = some h →
    (loses l h.slot →
      { slot := h.slot, element := elementByte e, outcome := .released r, tag := h.tag } ∈ t.link.verdicts) ∧
    (¬ loses l h.slot → h.slot ∈ silent →
      { slot := h.slot, element := elementByte e, outcome := .released .silent, tag := h.tag } ∈ t.link.verdicts)
  verdicts : ∀ v ∈ t.link.verdicts, v ∈ s.link.verdicts ∨ v.outcome = .granted ∨ v.outcome = .cancelled ∨
    v.outcome = .released r ∨ v.outcome = .withdrawn r ∨
    (silent ≠ [] ∧ (v.outcome = .released .silent ∨ v.outcome = .withdrawn .silent))

/-- Each queued claim of a slot where `loses` says so is answered WITHDRAWN with `r` (R104, R105, R107). -/
def ClaimsTold (r : Reason) (loses : Loaded → SlotId → Prop) (s t : State) : Prop :=
  s.ClaimsDistinct → t.link.verdicts.length < 16 → ∀ e l c, s.loadedAt e = some l → c ∈ l.claims → loses l c.slot →
    { slot := c.slot, element := elementByte e, outcome := .withdrawn r, tag := c.request.tag } ∈ t.link.verdicts

/-- The gate of slot `i`, open, shuts with the gates of one of the fields (R27). -/
def State.ShutWith (s : State) (fields : List FieldId) (i : SlotId) : Prop :=
  ∃ g ∈ fields, s.slotField i = some g ∧ s.gateOpen i = true

/-- No slot of another field than slot `i`'s has a claim on the element or its hold. -/
def State.OneFieldOn (s : State) (l : Loaded) (i : SlotId) : Prop := ∀ j, s.slotField j ≠ s.slotField i → l.freeOf j

/-- The fields, in the order given, are shut and safed by stops or an abort: their gates are OFF; each slot whose gate was
open receives a gate-off event with reason `r`; a SAFE is queued for each PRESENT element of each field that has none
pending, in ascending order, its retry count 0; and the RUNNING and the sent WAITING-BUS actuations on their elements are
CANCELLING, the latter with time running 0, while those on other elements go on (R27, R61, R66, R105, R109, R139). A claim is
known to be WITHDRAWN only where no slot of another field has anything on the element: the event of an earlier field might
otherwise have granted it. -/
structure FieldsShut (r : Reason) (fields : List FieldId) (s t : State) : Prop where
  gates : ∀ g ∈ fields, ∀ i, s.slotField i = some g → t.effectiveGate i = .off
  claims : ClaimsTaken r (fun _ i => s.ShutWith fields i) [] s t
  withdrawn : ClaimsTold r (fun l i => s.ShutWith fields i ∧ s.OneFieldOn l i) s t
  safeQueue : t.bus.safeQueue = s.bus.safeQueue ++ fields.flatMap fun g => (allOf 48).filter fun e =>
    decide (e ∉ s.bus.safeQueue) && (s.loadedAt e).any fun l => l.entry.field == g && l.presence == .present
  retries : ∀ e l, s.loadedAt e = some l → l.entry.field ∈ fields → l.presence = .present → e ∉ s.bus.safeQueue →
    (t.loadedAt e).map (·.retries) = some 0
  acts : ∀ e l a, s.loadedAt e = some l → l.act = some a → a.state ≠ .waitingBus ∨ a.sent = true →
    (t.loadedAt e).map (·.act) = some (some (if l.entry.field ∈ fields then
      { a with state := .cancelling, running := if a.state = .waitingBus then 0 else a.running } else a))

/-- The fields enter STOPPED with their causes, in the order given, and no other field changes: the record, the urgent mark
and NOTICE STOP of each, and what FieldsShut says (R60, R61). -/
structure StopsEntered (entered : List (FieldId × StopCause)) (s t : State) : Prop
    extends FieldsShut .stopped (entered.map (·.1)) s t where
  fields : ∀ x ∈ entered, t.fields.at x.1 = { s.fields.at x.1 with stopped := some x.2 } ∧ t.beacons.urgent.at x.1 = true
  others : ∀ g, g ∉ entered.map (·.1) → t.fields.at g = s.fields.at g ∧ t.beacons.urgent.at g = s.beacons.urgent.at g
  notices : s.mgmt.notices.length + entered.length ≤ 16 → t.mgmt.notices = s.mgmt.notices ++
    entered.mapIdx fun k x => { dropped := if k = 0 then s.mgmt.dropped else 0, content := .stop x.1 x.2 }

/-- What a change of referee lines leaves alone: all but the lines, the pins and the sample countdown, the fields' records and
urgent marks, the notices, the verdicts and outstanding counts, what is kept of the loaded elements but for their entries, the
bus's own state but for its RUNNING or PAUSED state, and the count of free values used (R27, R60 to R64, R72 to R82). -/
structure LineKeeps (s t : State) : Prop where
  link : t.link = { s.link with verdicts := t.link.verdicts }
  stations : t.stations = s.stations
  slots : ∀ i, t.slots.at i = { s.slots.at i with outstanding := (t.slots.at i).outstanding }
  gate : t.gate = s.gate
  tallies : t.tallies = s.tallies
  rules : ∀ e, (t.elements.at e).rules = (s.elements.at e).rules
  eventCount : ∀ e, (t.elements.at e).eventCount = (s.elements.at e).eventCount
  entry : ∀ e, (t.loadedAt e).map (·.entry) = (s.loadedAt e).map (·.entry)
  busState : t.bus.state = s.bus.state
  probeLeft : t.bus.probeLeft = s.bus.probeLeft
  routine : t.beacons.routine = s.beacons.routine
  beaconLeft : t.beacons.left = s.beacons.left
  mgmt : t.mgmt = { s.mgmt with notices := t.mgmt.notices, dropped := t.mgmt.dropped }
  timing : t.timing = s.timing
  budgetLeft : t.budgetLeft = s.budgetLeft
  loader : t.loader = s.loader
  pending : t.pending = s.pending

/-- The announcements of a change of field `g` to phase `p`, from `s`, as they stand in `t`, which has the field's new
record: the urgent mark, NOTICE PHASE before the NOTICE SILENT of each slot found silent, in ascending slot order, those
slots' marks set on entry to a timed phase and the marks of the field's slots cleared on entry to any other, and what the
events of the change take from the slots (R27, R41, R42, R55). -/
structure PhaseAnnounced (g : FieldId) (p : Phase) (s t : State) : Prop where
  urgent : t.beacons.urgent.at g = true
  notices : s.mgmt.notices.length + (s.silentAtEntry g p).length < 16 → t.mgmt.notices = s.mgmt.notices ++
    [{ dropped := s.mgmt.dropped, content := .phase g p (s.fields.at g).number (t.fields.at g).aborted }] ++
    (s.silentAtEntry g p).map fun i => { dropped := 0, content := .silent i }
  silent : ∀ i, (t.slots.at i).silent =
    if p.timed then (s.slots.at i).silent || decide (i ∈ s.silentAtEntry g p)
    else (s.slots.at i).silent && decide (s.slotField i ≠ some g)
  claims : ClaimsTaken .phase (s.PhaseTakes g p) (s.silentAtEntry g p) s t
  withdrawn : ClaimsTold .phase (s.PhaseTakes g p) s t

/-- The slot holds the element (R118). -/
def State.Holds (s : State) (i : SlotId) (e : ElementId) : Prop :=
  ∃ l h, s.loadedAt e = some l ∧ l.hold = some h ∧ h.slot = i

/-! ### Bounds that every step keeps -/

/-- Every link counter is at most 65535 (R10). -/
def LinkCounters.bounded (c : LinkCounters) : Prop :=
  c.check ≤ 65535 ∧ c.framing ≤ 65535 ∧ c.overlong ≤ 65535 ∧ c.truncated ≤ 65535 ∧ c.overrun ≤ 65535
    ∧ c.received ≤ 65535 ∧ c.sent ≤ 65535

/-- Every gate counter is at most 65535 (R43). -/
def GateCounters.bounded (c : GateCounters) : Prop :=
  c.unknownSource ≤ 65535 ∧ c.badKind ≤ 65535 ∧ c.bypassed ≤ 65535 ∧ c.misdirected ≤ 65535 ∧ c.stale ≤ 65535
    ∧ c.throttled ≤ 65535 ∧ c.tellFull ≤ 65535 ∧ c.superseded ≤ 65535

/-- The queues, tables and counters hold no more than their capacities (R10, R11, R15, R16, R20, R43, R188, R190). -/
structure State.QueuesBounded (s : State) : Prop where
  store : s.link.store.length ≤ 8
  verdicts : s.link.verdicts.length ≤ 16
  replies : s.link.replies.length ≤ 4
  tells : s.link.tells.length ≤ 16
  stations : s.stations.length ≤ 64
  notices : s.mgmt.notices.length ≤ 16
  dropped : s.mgmt.dropped ≤ 255
  counters : s.link.counters.bounded
  gate : s.gate.bounded

/-- How many claims slot `i` has queued, and how many holds it has (R103). -/
def State.workOf (s : State) (i : SlotId) : Nat :=
  ((allOf 48).map fun e =>
    match s.loadedAt e with
    | none => 0
    | some l => (l.claims.filter fun c => decide (c.slot = i)).length +
      match l.hold with
      | some h => if h.slot = i then 1 else 0
      | none => 0).sum

/-- A slot is placed exactly when it is listed in a match: each place of a field's list is the place of the slot it lists, the
field is not IDLE and the slot is loaded; and a placed slot stands in its field's list (R47). -/
structure State.PlacedAsListed (s : State) : Prop where
  listed : ∀ g k i, (s.fields.at g).list.at k = some i → (s.fields.at g).phase ≠ .idle ∧ (s.slots.at i).team ≠ 0 ∧
    (s.slots.at i).placing = some { field := g, alliance := if k.val < 3 then .east else .west, position := k.val % 3 + 1 }
  placed : ∀ i p, (s.slots.at i).placing = some p → ∃ k, (s.fields.at p.field).list.at k = some i

/-- The whole-machine laws of the Match Sequencer and the Element Arbiter: a field in IDLE or POST is never STOPPED (R62); a
slot is placed exactly when it is listed (R47); a slot's outstanding count is its queued claims and its holds, and at most 2
(R103); a slot that has a claim or a hold on an element has an open gate and is on the element's field, for the gate-off
events take what it has (R89, R103, R105); and through STARTING every field is IDLE (R195). -/
structure State.Lawful (s : State) : Prop where
  starting : s.mgmt.mode = .starting → ∀ g, (s.fields.at g).phase = .idle
  stopped : ∀ g, (s.fields.at g).phase = .idle ∨ (s.fields.at g).phase = .post → (s.fields.at g).stopped = none
  placing : s.PlacedAsListed
  outstanding : ∀ i, (s.slots.at i).outstanding = s.workOf i ∧ (s.slots.at i).outstanding ≤ 2
  working : ∀ e l i, s.loadedAt e = some l → ¬ l.freeOf i → s.gateOpen i = true ∧ s.slotField i = some l.entry.field

/-- The records of slots and elements stay in their ranges: no credit above its ceiling (R35), no claim queue longer
than 4 (R94) or with two claims of one slot (R91), no miss count above 3 (R125), no retry count above 3 between steps (R132, R140), and no element twice in the SAFE queue (R139);
and they are lawful (R47, R62, R103, R195). -/
structure State.RecordsBounded (s : State) : Prop where
  lawful : s.Lawful
  credit : ∀ i, (s.slots.at i).credit ≤ (s.slots.at i).ceiling
  claims : ∀ e l, s.loadedAt e = some l → l.claims.length ≤ 4
  distinct : s.ClaimsDistinct
  misses : ∀ e l, s.loadedAt e = some l → l.misses ≤ 3
  retries : ∀ e l, s.loadedAt e = some l → l.retries ≤ 3
  safeQueue : s.bus.safeQueue.Nodup

end Sys2Proof.Machine
end

