-- ==== Sys2Proof/Certificates/Slice0/Obligations.lean ====
section
/-! DEFINITION. The statements for the provers. A statement about a row says what state the row answers, with what it
leaves alone; `ArbiterKeeps`, `BusKeeps` and `FieldKeeps` (Sys2Proof/Safety.lean) name the frames. -/

open Sys2Proof Sys2Proof.Machine

/-! ### Steps -/

/-- The step takes the command at the front of the queue and executes it with the queue's rest. The queue is the
model's own (notes/assumptions/5.md). -/
def Obligations.StepRunsFrontCommand : Prop :=
  ∀ (c : Instr) (s : State) (rest : List Instr), s.pending = c :: rest → step s = exec c { s with pending := rest }

/-- Every command is a whole step that answers a next state, and no command touches the queue of waiting commands. The
queue is the model's own (notes/assumptions/5.md). -/
def Obligations.EveryCommandKeepsTheQueue : Prop :=
  ∀ (c : Instr) (s : State), ∃ t, exec c s = .next t ∧ t.pending = s.pending

/-- With no command waiting, the Traffic Gate takes the head frame of the receive store, by exactly one row, and its
entry is freed (R11). That the step on an empty queue does so is the model's choice (notes/assumptions/5.md). -/
def Obligations.IdleStepTakesHeadFrame : Prop :=
  ∀ (s : State) (f : Frame) (rest : List Frame), s.pending = [] → s.link.store = f :: rest →
    ∃ c t, s.frameRow = some c ∧ step s = exec c s ∧ exec c s = .next t ∧ t.link.store = rest

/-- The end of a millisecond that brings no event but countdowns of the element bus moves every counter by one and changes
nothing else: every countdown that reaches 0 is due, the probe countdown sets the probe turn and starts again, and only
then does the bus arbiter choose (R35, R40, R48, R54, R96, R100, R113, R127, R128, R138). That the step on an empty queue is
the end of a millisecond is the model's choice (notes/assumptions/5.md). -/
def Obligations.MillisecondMovesCounters : Prop :=
  ∀ s : State, s.pending = [] → s.link.store = [] → s.nextTake = none → s.mgmt.mode ≠ .starting →
    (∀ m ∈ allMoments, m.comes s = false) →
    ∃ u,
      ((s.bus.probeLeft = some 1 ∨ ∃ e l, s.loadedAt e = some l ∧
          (l.resend = some 1 ∨ l.actionPoll = some 1 ∨ l.sensor = some 1)) →
        step s = .next u.settle ∧ u.choices = s.choices + 1) ∧
      (s.bus.probeLeft ≠ some 1 → (∀ e l, s.loadedAt e = some l →
          l.resend ≠ some 1 ∧ l.actionPoll ≠ some 1 ∧ l.sensor ≠ some 1) →
        step s = .next u ∧ u.choices = s.choices) ∧
      (∀ f, u.fields.at f = { s.fields.at f with
        remaining := if (s.fields.at f).phase.timed = true ∧ (s.fields.at f).stopped = none
          then (s.fields.at f).remaining - 1 else (s.fields.at f).remaining
        grace := if (s.fields.at f).phase = .post ∧ (s.fields.at f).aborted = false
          then (s.fields.at f).grace - 1 else (s.fields.at f).grace }) ∧
      (∀ i, u.slots.at i = { s.slots.at i with age := min 65535 ((s.slots.at i).age + 1) }) ∧
      (∀ e, u.loadedAt e = (s.loadedAt e).map fun l => { l with
        hold := l.hold.map fun h => { h with remaining := h.remaining - 1 }
        act := l.act.map fun a => { a with
          running := if a.state = .waitingBus then a.running else min 65535 (a.running + 1) }
        lastRelease := l.lastRelease.map fun r => { r with since := min 65535 (r.since + 1) }
        resend := l.resend.map (· - 1)
        actionPoll := l.actionPoll.map (· - 1)
        sensor := l.sensor.map (· - 1) }) ∧
      (∀ e, (u.elements.at e).rules = (s.elements.at e).rules ∧ (u.elements.at e).eventCount = (s.elements.at e).eventCount) ∧
      u.bus = { s.bus with
        probeTurn := s.bus.probeTurn || decide (s.bus.probeLeft = some 1)
        probeLeft := if s.bus.probeLeft = some 1 then some s.timing.probe else s.bus.probeLeft.map (· - 1) } ∧
      u.beacons = { s.beacons with left := s.beacons.left.map (· - 1) } ∧
      u.sampleLeft = s.sampleLeft.map (· - 1) ∧ u.budgetLeft = s.budgetLeft.map (· - 1) ∧
      u.link = s.link ∧ u.stations = s.stations ∧ u.gate = s.gate ∧ u.tallies = s.tallies ∧ u.lines = s.lines ∧
      u.pins = s.pins ∧ u.mgmt = s.mgmt ∧ u.timing = s.timing ∧ u.loader = s.loader ∧ u.pending = s.pending

/-! ### Device reset and the end of STARTING -/

/-- DEVICE_RESET gives every table, queue, counter, mark and record its value after device reset; the line records take
the levels of the pins, which are inputs. With RSTN high the reading of the settings image begins, its first command byte on
SPDO and select low; while RSTN is held low select is high and the part does nothing, whatever is commanded but another
device reset (R73, R191, R192). That the wait of a receiver for its line to be high, after a missing stop bit, is over after
device reset, that the pins keep their levels, and that the level RSTN is left at is an operand of the row, are the model's
choices, which no rule states (notes/assumptions/25.md). -/
def Obligations.DeviceResetResult : Prop :=
  ∀ (s : State) (rstn : Level), ∃ t, exec (.deviceReset rstn) s = .next t ∧
    t.mgmt = { mode := .starting, cursor := none, restartPending := false, notices := [], dropped := 0 } ∧
    t.link = { rate := .mbit1, own := 0xF0#8, console := 0xFA#8, breakHold := false, receiver := .hunting, store := [],
               verdicts := [], replies := [], tells := [], transmitter := .free, lastServed := 31, origin := 0,
               counters := { check := 0, framing := 0, overlong := 0, truncated := 0, overrun := 0, received := 0, sent := 0 } } ∧
    t.stations = [] ∧
    (∀ i, t.slots.at i = { team := 0, placing := none, disabled := false, bypassed := false, ceiling := 64,
                           refill := 0, credit := 0, held := none, lastSeq := none, radio := .primary, age := 0, silent := false,
                           throttled := false, outstanding := 0 }) ∧
    t.gate = { unknownSource := 0, badKind := 0, bypassed := 0, misdirected := 0, stale := 0, throttled := 0,
               tellFull := 0, superseded := 0 } ∧
    (∀ f, (t.fields.at f).phase = .idle ∧ (t.fields.at f).stopped = none ∧ (t.fields.at f).remaining = 0 ∧
      (t.fields.at f).grace = 0 ∧ (t.fields.at f).aborted = false ∧ (t.fields.at f).number = 0 ∧
      (t.fields.at f).result = none ∧ (∀ k, (t.fields.at f).list.at k = none) ∧ (t.fields.at f).durA = 0 ∧
      (t.fields.at f).durP = 0 ∧ (t.fields.at f).durT = 0 ∧ (t.fields.at f).durE = 0) ∧
    (∀ f, (t.tallies.at f).east.toNat = 0 ∧ (t.tallies.at f).west.toNat = 0 ∧ (t.tallies.at f).eastCap = false ∧
      (t.tallies.at f).westCap = false ∧ (t.tallies.at f).eastCount = 0 ∧ (t.tallies.at f).westCount = 0) ∧
    (∀ n, t.lines.at n = { role := if n.val % 4 = 0 then .stop else .unused, activeLevel := .low, filterOn := true,
                           filtered := s.pins.at n, previous := s.pins.at n, edge := false }) ∧
    (∀ e, t.loadedAt e = none ∧ (∀ k, (t.elements.at e).rules.at k = none) ∧ (t.elements.at e).eventCount = 0) ∧
    t.bus = { state := .startingIdle, activity := .idle, safeQueue := [], probeTurn := false, probeLeft := none,
              lastProbed := 47 } ∧
    (∀ f, t.beacons.urgent.at f = false ∧ t.beacons.routine.at f = false) ∧ t.beacons.left = none ∧
    t.timing = { beacon := 100, silent := 500, grace := 3000, actionPoll := 20, sensor := 50, probe := 200, sample := 4,
                 p := 4, k := 4, window := 1000 } ∧
    t.sampleLeft = none ∧ t.budgetLeft = none ∧ t.pins = s.pins ∧ t.pending = s.pending ∧ t.driverEnable = false ∧
    (rstn = .high → t.loader = { stage := .sending 0, buffer := [] } ∧ t.settingsSelect = .low ∧ t.settingsOut = some 0x03#8) ∧
    (rstn = .low → t.loader = { stage := .inReset, buffer := [] } ∧ t.settingsSelect = .high ∧ t.settingsOut = none ∧
      step { t with pending := [] } = .next { t with pending := [] } ∧
      ∀ c, (∀ level, c ≠ .deviceReset level) → ∃ u, exec c t = .next u ∧ u = { t with pins := u.pins })

/-- A settings image is valid exactly when it passes the three tests of R193: signature, image length, check. The reading
sends the read command and the address 0 on SPDO with select low, clocks the image in byte by byte, stops at the first test
that fails or after the last check byte, and then releases select and ends STARTING (R192, R193, R197). That a step of the
part in STARTING is one byte of the reading is the model's choice (notes/assumptions/12.md). -/
def Obligations.ImageValidity : Prop :=
  (∀ (memory : List Byte) (fill : Byte) (b : List Byte), validImage memory fill = some b ↔
    (∃ n, n ≤ 48 ∧ b.length = 38 + 30 * n) ∧ b.take 2 = [0xC4#8, 0x48#8] ∧
    nat16 (b.getD 2 0) (b.getD 3 0) = b.length ∧
    suppliedBytes memory fill (b.length + 2) = b ++ linkCheckBytes b) ∧
  (∀ s : State, s.pending = [] → s.link.store = [] → s.nextTake = none → s.mgmt.mode = .starting →
    (∀ k, s.loader.stage = .sending k → k < 4 →
      s.settingsSelect = .low ∧ s.settingsOut = [0x03#8, 0x00#8, 0x00#8, 0x00#8][k]? ∧
      step s = .next { s with loader := { s.loader with stage := if k < 3 then .sending (k + 1) else .receiving } }) ∧
    (s.loader.stage = .receiving → s.settingsSelect = .low ∧ s.settingsOut = none ∧
      ∃ b, step s = .next { s with loader := s.loader.clockIn b, choices := s.choices + 1 }) ∧
    (s.loader.stage = .complete ∨ s.loader.stage = .failed → s.settingsSelect = .high ∧ s.settingsOut = none ∧
      step s = exec (.endOfStarting [] false) s)) ∧
  (∀ (l : Loader) (b : Byte) (read : List Byte), read = l.buffer ++ [b] →
    (read.length = 2 → read ≠ [0xC4#8, 0x48#8] → l.clockIn b = { stage := .failed, buffer := [] }) ∧
    (read.length = 4 → (¬ ∃ n, n ≤ 48 ∧ nat16 (read.getD 2 0) (read.getD 3 0) = 38 + 30 * n) →
      l.clockIn b = { stage := .failed, buffer := [] }) ∧
    ((2 ≤ read.length → read.take 2 = [0xC4#8, 0x48#8]) →
      (4 ≤ read.length → ∃ n, n ≤ 48 ∧ nat16 (read.getD 2 0) (read.getD 3 0) = 38 + 30 * n) →
      (read.length < 4 ∨ read.length < nat16 (read.getD 2 0) (read.getD 3 0) + 2 →
        l.clockIn b = { l with buffer := read }) ∧
      (4 ≤ read.length → read.length = nat16 (read.getD 2 0) (read.getD 3 0) + 2 →
        (read.drop (read.length - 2) = linkCheckBytes (read.take (read.length - 2)) →
          l.clockIn b = { stage := .complete, buffer := read }) ∧
        (read.drop (read.length - 2) ≠ linkCheckBytes (read.take (read.length - 2)) →
          l.clockIn b = { stage := .failed, buffer := [] }))))

/-- END_OF_STARTING without a valid image: the defaults are taken, select is released, and STARTING ends (R73, R192, R193,
R196). That the row finishes a reading that is still in progress is the model's choice (notes/assumptions/12.md). -/
def Obligations.EndOfStartingDefaults : Prop :=
  ∀ (s : State) (image : List Byte) (fill : Bool), s.mgmt.mode = .starting → s.loader.stage ≠ .inReset →
    s.loader.stage = .failed ∨ validImage (s.loader.buffer ++ image) (if fill then 0xFF else 0x00) = none →
    ∃ t, exec (.endOfStarting image fill) s = .next t ∧
      t.mgmt.mode = .uncommissioned ∧ t.link.rate = .mbit1 ∧ t.link.own = 0xF0#8 ∧ t.link.console = 0xFA#8 ∧
      t.link.receiver = .hunting ∧
      t.link.counters.truncated = (if s.link.receiver = .hunting then s.link.counters.truncated
        else min 65535 (s.link.counters.truncated + 1)) ∧
      t.link.store = s.link.store ∧ t.link.replies = s.link.replies ∧
      t.timing = { beacon := 100, silent := 500, grace := 3000, actionPoll := 20, sensor := 50, probe := 200, sample := 4,
                   p := 4, k := 4, window := 1000 } ∧
      (∀ n, t.lines.at n = { role := if n.val % 4 = 0 then .stop else .unused, activeLevel := .low, filterOn := true,
                             filtered := s.pins.at n, previous := s.pins.at n, edge := false }) ∧
      (∀ e, t.loadedAt e = none ∧ ∀ k, (t.elements.at e).rules.at k = none) ∧
      t.bus.state = .running ∧ t.bus.probeLeft = some 200 ∧ (∀ f, t.beacons.routine.at f = true) ∧
      t.beacons.left = some 100 ∧ t.sampleLeft = some 4 ∧ t.budgetLeft = some 10 ∧
      t.loader = { stage := .off, buffer := [] } ∧ t.settingsSelect = .high ∧
      (s.mgmt.notices.length < 16 →
        t.mgmt.notices = s.mgmt.notices ++ [{ dropped := s.mgmt.dropped, content := .settings false 0 }]) ∧
      t.fields = s.fields ∧ t.tallies = s.tallies ∧ t.stations = s.stations ∧ t.slots = s.slots ∧ t.gate = s.gate ∧
      t.pins = s.pins ∧ t.pending = s.pending

/-- END_OF_STARTING with a valid image: the head is applied value by value, and the element entries, however many, are
taken in their order over an empty table, NOTICE SETTINGS carrying the count of those skipped. An entry is loaded whole with
its rules, or skipped and counted: an element above 47, an operand that LOAD ELEMENT or LOAD SCORE RULE refuses with RANGE, a
SHARED owner with a rule that names it, an element or a bus address that an earlier entry has taken (R192, R194, R195, R196).
That the row finishes a reading that is still in progress is the model's choice (notes/assumptions/12.md). -/
def Obligations.EndOfStartingAppliesImage : Prop :=
  (∀ (s : State) (image : List Byte) (fill : Bool) (b : List Byte), s.mgmt.mode = .starting →
    s.loader.stage ≠ .inReset → s.loader.stage ≠ .failed →
    validImage (s.loader.buffer ++ image) (if fill then 0xFF else 0x00) = some b →
    ∃ t u skipped, exec (.endOfStarting image fill) s = .next t ∧ t.mgmt.mode = .uncommissioned ∧
      t.link.own = (if 0xF0 ≤ (b.getD 4 0).toNat ∧ (b.getD 4 0).toNat ≤ 0xF7 then b.getD 4 0 else 0xF0#8) ∧
      t.link.console = (if 0xF8 ≤ (b.getD 5 0).toNat ∧ (b.getD 5 0).toNat ≤ 0xFE then b.getD 5 0 else 0xFA#8) ∧
      t.link.rate = (rateOf (b.getD 6 0)).getD .mbit1 ∧
      t.timing = { beacon := clamp 50 1000 (nat16 (b.getD 11 0) (b.getD 12 0))
                   silent := clamp 100 2000 (nat16 (b.getD 13 0) (b.getD 14 0))
                   grace := clamp 0 5000 (nat16 (b.getD 15 0) (b.getD 16 0))
                   actionPoll := clamp 5 100 (b.getD 17 0).toNat
                   sensor := clamp 10 200 (b.getD 18 0).toNat
                   probe := clamp 50 1000 (nat16 (b.getD 19 0) (b.getD 20 0))
                   sample := (samplePeriodOf (b.getD 21 0).toNat).getD 4
                   p := clamp 0 7 (b.getD 7 0).toNat
                   k := clamp 0 15 (b.getD 8 0).toNat
                   window := clamp 200 5000 (nat16 (b.getD 9 0) (b.getD 10 0)) / 100 * 100 } ∧
      (∀ n, t.lines.at n =
        { role := ((lineRecordOf (b.getD (22 + n.val) 0)).getD (defaultRole n, .low, true)).1
          activeLevel := ((lineRecordOf (b.getD (22 + n.val) 0)).getD (defaultRole n, .low, true)).2.1
          filterOn := ((lineRecordOf (b.getD (22 + n.val) 0)).getD (defaultRole n, .low, true)).2.2
          filtered := s.pins.at n, previous := s.pins.at n, edge := false }) ∧
      (u, skipped) = (((List.range ((b.length - 38) / 30)).map fun k => (b.drop (38 + 30 * k)).take 30).foldl
        State.applyEntry ({ s with elements := Table.fill 48 .empty }, 0)) ∧
      (∀ e, t.elements.at e = u.elements.at e) ∧
      t.loader = { stage := .off, buffer := [] } ∧ t.settingsSelect = .high ∧
      (s.mgmt.notices.length < 16 →
        t.mgmt.notices = s.mgmt.notices ++ [{ dropped := s.mgmt.dropped, content := .settings true skipped }])) ∧
  (∀ (u : State) (skipped : Nat) (eb addr fb ob kb am pm h1 h2 c1 c2 l1 l2 db : Byte) (ruleBytes x : List Byte),
    x = [eb, addr, fb, ob, kb, am, pm, h1, h2, c1, c2, l1, l2, db] ++ ruleBytes → ruleBytes.length = 16 →
    (48 ≤ eb.toNat ∨ addr.toNat = 0 ∨ 63 < addr.toNat ∨ 4 ≤ fb.toNat ∨ ownerOf ob = none ∨ kindOf kb = none ∨
        8 ≤ pm.toNat ∨ disciplineOf db = none ∨ (kindOf kb = some .sensing ∧ am ≠ 0) ∨
        (kindOf kb ≠ some .sensing ∧ (am = 0 ∨ pm = 0)) ∨
        (∃ j : Fin 4, 5 ≤ (ruleBytes.getD (4 * j.val) 0).toNat ∧ ruleBytes.getD (4 * j.val) 0 ≠ 0xFF#8) ∨
        (ownerOf ob = some .shared ∧ ∃ j : Fin 4, (ruleBytes.getD (4 * j.val) 0).toNat ≤ 1) ∨
        (∃ e l, eb = elementByte e ∧ u.loadedAt e = some l) ∨
        (∃ e k l, eb = elementByte e ∧ k ≠ e ∧ u.loadedAt k = some l ∧ l.entry.busAddr = addr) →
      State.applyEntry (u, skipped) x = (u, skipped + 1)) ∧
    (∀ (e : ElementId) (g : FieldId) (o : Owner) (k : ElementKind) (d : Discipline), eb = elementByte e →
      1 ≤ addr.toNat → addr.toNat ≤ 63 → fieldOf fb = some g → ownerOf ob = some o → kindOf kb = some k → pm.toNat < 8 →
      disciplineOf db = some d → (k = .sensing → am = 0) → (k ≠ .sensing → am ≠ 0 ∧ pm ≠ 0) →
      (∀ j : Fin 4, ruleBytes.getD (4 * j.val) 0 = 0xFF#8 ∨ (ruleBytes.getD (4 * j.val) 0).toNat ≤ 4) →
      (o = .shared → ∀ j : Fin 4, 2 ≤ (ruleBytes.getD (4 * j.val) 0).toNat) →
      u.loadedAt e = none → (∀ k l, u.loadedAt k = some l → l.entry.busAddr ≠ addr) →
      ∃ v, State.applyEntry (u, skipped) x = (v, skipped) ∧
        v.loadedAt e = some {
          entry := { busAddr := addr, field := g, owner := o, kind := k, actionMask := am, phaseMask := pm.setWidth 3,
                     holdLimit := clamp 100 10000 (nat16 h1 h2), coolDown := clamp 0 5000 (nat16 c1 c2),
                     actionLimit := clamp 100 20000 (nat16 l1 l2), discipline := d }
          claims := [], hold := none, act := none, lastRelease := none, lastAlliance := none, presence := .unknown,
          misses := 0, actToggle := false, fetchToggle := false, retries := 0, fetchMark := false, resend := none,
          actionPoll := none, sensor := none } ∧
        (∀ j : Fin 4, (v.elements.at e).rules.at j =
          (beneficiaryOf (ruleBytes.getD (4 * j.val) 0)).map fun w =>
            { auto := min 99 (ruleBytes.getD (4 * j.val + 1) 0).toNat, teleop := min 99 (ruleBytes.getD (4 * j.val + 2) 0).toNat,
              endgame := min 99 (ruleBytes.getD (4 * j.val + 3) 0).toNat, beneficiary := w }) ∧
        (v.elements.at e).eventCount = 0 ∧ ∀ j, j ≠ e → v.elements.at j = u.elements.at j))

/-! ### The receive line -/

/-- A whole frame on the link, lead byte to second check byte, sampled bit by bit, is stored as it was sent: no byte of it is
dropped or changed (R2, R3, R4, R5). -/
def Obligations.FrameOnTheLineIsStored : Prop :=
  ∀ (s : State) (f : Frame) (rested : Bool), f.payload.length ≤ 48 → s.link.receiver = .hunting → s.link.store.length < 8 →
    s.loader.stage ≠ .inReset → (s.link.breakHold = true → rested = true) →
    Host.Core.run Sys2Proof.core f.wire.length
      { s with pending := (f.wire.dropLast.map fun b => .characterReceived ⟨rested, linkLevels b⟩) ++
          [.frameComplete (f.wire.getLastD 0)] } =
    .next { s with
      pending := []
      link := { s.link with
        breakHold := false
        store := s.link.store ++ [f]
        counters := { s.link.counters with received := min 65535 (s.link.counters.received + 1) } } }

/-- FRAME_COMPLETE with the second check character: a wrong check counts CHECK, a full store counts OVERRUN, and any
other frame joins the store and counts RECEIVED; the receiver hunts (R5, R9, R10). -/
def Obligations.FrameCompleteOutcomes : Prop :=
  ∀ (s : State) (got : List Byte) (c : Byte), s.link.receiver = .inFrame got → frameDone (got ++ [c]) = true →
    (frameChecks (got ++ [c]) = false → exec (.frameComplete c) s = .next { s with link := { s.link with
      receiver := .hunting, counters := { s.link.counters with check := min 65535 (s.link.counters.check + 1) } } }) ∧
    (frameChecks (got ++ [c]) = true → 8 ≤ s.link.store.length →
      exec (.frameComplete c) s = .next { s with link := { s.link with
        receiver := .hunting, counters := { s.link.counters with overrun := min 65535 (s.link.counters.overrun + 1) } } }) ∧
    (frameChecks (got ++ [c]) = true → s.link.store.length < 8 →
      ∃ f, frameOf (got ++ [c]) = some f ∧ exec (.frameComplete c) s = .next { s with link := { s.link with
        receiver := .hunting, store := s.link.store ++ [f],
        counters := { s.link.counters with received := min 65535 (s.link.counters.received + 1) } } })

/-- The receiver. A falling edge is read from ten sampled bits, the least significant data bit first: a high first bit is a
glitch and forms no character, a low last bit is a missing stop bit, after which no edge begins a character until the line
has been high for one bit time. While HUNTING a lead byte opens a frame and any other character is ignored; inside a frame a
character is placed in order, and a missing stop bit, an idle gap or a length byte above 48 ends it under its own counter (R2,
R3, R6, R7, R8, R10). That the line's rest is an operand is the model's choice (notes/assumptions/3.md). -/
def Obligations.ReceiverMoments : Prop :=
  (∀ b : Byte, (linkLevels b).getLsbD 0 = false ∧ (linkLevels b).getLsbD 9 = true ∧
    ∀ k, k < 8 → (linkLevels b).getLsbD (k + 1) = b.getLsbD k) ∧
  (∀ bits : BitVec 10, bits.getLsbD 0 = false → bits.getLsbD 9 = true → ∃ b, bits = linkLevels b) ∧
  ∀ s : State, s.loader.stage ≠ .inReset →
    (∀ bits, s.link.breakHold = true → exec (.characterReceived ⟨false, bits⟩) s = .next s) ∧
    (∀ rested : Bool, (s.link.breakHold = true → rested = true) →
      (∀ bits : BitVec 10, bits.getLsbD 0 = true →
        exec (.characterReceived ⟨rested, bits⟩) s = .next { s with link := { s.link with breakHold := false } }) ∧
      (∀ bits : BitVec 10, bits.getLsbD 0 = false → bits.getLsbD 9 = false →
        exec (.characterReceived ⟨rested, bits⟩) s = exec .framing s) ∧
      (s.link.receiver = .hunting →
        exec (.characterReceived ⟨rested, linkLevels 0xA5#8⟩) s =
          .next { s with link := { s.link with receiver := .inFrame [], breakHold := false } } ∧
        (∀ b, b ≠ 0xA5#8 → exec (.characterReceived ⟨rested, linkLevels b⟩) s =
          .next { s with link := { s.link with breakHold := false } })) ∧
      (∀ got (b : Byte), s.link.receiver = .inFrame got →
        (got.length < 4 ∨ (got.length = 4 ∧ b.toNat ≤ 48) ∨ (4 < got.length ∧ frameDone (got ++ [b]) = false) →
          exec (.characterReceived ⟨rested, linkLevels b⟩) s =
            .next { s with link := { s.link with receiver := .inFrame (got ++ [b]), breakHold := false } }) ∧
        (got.length = 4 → 48 < b.toNat → exec (.characterReceived ⟨rested, linkLevels b⟩) s =
          exec (.overlong b) { s with link := { s.link with breakHold := false } }) ∧
        (frameDone (got ++ [b]) = true → exec (.characterReceived ⟨rested, linkLevels b⟩) s =
          exec (.frameComplete b) { s with link := { s.link with breakHold := false } }))) ∧
    (s.link.receiver = .hunting →
      exec .framing s = .next { s with link := { s.link with breakHold := true } } ∧ exec .truncated s = .next s) ∧
    (∀ got, s.link.receiver = .inFrame got →
      (∀ b : Byte, got.length = 4 → 48 < b.toNat → exec (.overlong b) s = .next { s with link := { s.link with
        receiver := .hunting, counters := { s.link.counters with overlong := min 65535 (s.link.counters.overlong + 1) } } }) ∧
      exec .framing s = .next { s with link := { s.link with
        breakHold := true, receiver := .hunting
        counters := { s.link.counters with framing := min 65535 (s.link.counters.framing + 1) } } } ∧
      exec .truncated s = .next { s with link := { s.link with
        receiver := .hunting, counters := { s.link.counters with truncated := min 65535 (s.link.counters.truncated + 1) } } })

/-! ### Frames at the Traffic Gate -/

/-- STARTING_FRAME: a console MANAGE frame is answered WAIT, or, when the part is restart-pending or the reply queue holds 4
replies, discarded without a reply; any other frame is discarded uncounted (R28, R175, R178). -/
def Obligations.StartingFrameResult : Prop :=
  ∀ (s : State) (f : Frame) (rest : List Frame), s.mgmt.mode = .starting → s.link.store = f :: rest →
    (f.kind = 0x40#8 → f.src = s.link.console → s.mgmt.restartPending = false → s.link.replies.length < 4 →
      exec .startingFrame s = .next (s.replied f rest (f.payload.headD 0) .wait)) ∧
    (f.kind = 0x40#8 → f.src = s.link.console → s.mgmt.restartPending = true ∨ 4 ≤ s.link.replies.length →
      exec .startingFrame s = .next (s.taken rest)) ∧
    (f.kind ≠ 0x40#8 ∨ f.src ≠ s.link.console → exec .startingFrame s = .next (s.taken rest))

/-- DROPPED_FRAME: the frame leaves the store and exactly the counter of its reason rises: UNKNOWN-SOURCE, BAD-KIND for a
kind or a length that its sender may not send, MISDIRECTED for its destination, BYPASSED. A robot's frame refreshes its slot
first (R12, R29, R30, R31, R32, R33, R36, R43). -/
def Obligations.DroppedFrameResult : Prop :=
  ∀ (s : State) (f : Frame) (rest : List Frame), s.mgmt.mode ≠ .starting → s.link.store = f :: rest →
    (stationAddress f.src = false → f.src ≠ s.link.console →
      exec .droppedFrame s = .next { s.taken rest with
        gate := { s.gate with unknownSource := min 65535 (s.gate.unknownSource + 1) } }) ∧
    (f.kind = 0x40#8 → f.src ≠ s.link.console →
      exec .droppedFrame s = .next { s.taken rest with
        gate := { s.gate with unknownSource := min 65535 (s.gate.unknownSource + 1) } }) ∧
    (stationAddress f.src = true → f.src ≠ s.link.console → findStation s.stations f.src = none →
      exec .droppedFrame s = .next { s.taken rest with
        gate := { s.gate with unknownSource := min 65535 (s.gate.unknownSource + 1) } }) ∧
    (f.src = s.link.console → f.kind ≠ 0x40#8 →
      exec .droppedFrame s = .next { s.taken rest with
        gate := { s.gate with badKind := min 65535 (s.gate.badKind + 1) } }) ∧
    (f.src = s.link.console → f.kind = 0x40#8 → f.dst ≠ s.link.own → f.dst ≠ 0xFF#8 →
      exec .droppedFrame s = .next { s.taken rest with
        gate := { s.gate with misdirected := min 65535 (s.gate.misdirected + 1) } }) ∧
    (∀ i, DriverFrame s f rest i →
      (f.kind ≠ 0x10#8 →
        exec .droppedFrame s = .next { s.taken rest with
          gate := { s.gate with badKind := min 65535 (s.gate.badKind + 1) } }) ∧
      (f.kind = 0x10#8 → (∀ st, stationOf s.stations .robot i = some st →
          f.dst ≠ s.link.own ∧ f.dst ≠ 0xFF#8 ∧ f.dst ≠ st.addr ∧ (st.acceptTwin = true → f.dst ≠ st.addr + 0x40#8)) →
        exec .droppedFrame s = .next { s.taken rest with
          gate := { s.gate with misdirected := min 65535 (s.gate.misdirected + 1) } }) ∧
      (∀ st, f.kind = 0x10#8 → stationOf s.stations .robot i = some st →
        f.dst = s.link.own ∨ f.dst = 0xFF#8 ∨ f.dst = st.addr ∨ (st.acceptTwin = true ∧ f.dst = st.addr + 0x40#8) →
        f.payload = [] →
        exec .droppedFrame s = .next { s.taken rest with
          gate := { s.gate with badKind := min 65535 (s.gate.badKind + 1) } })) ∧
    (∀ i radio, RobotFrame s f rest i radio →
      ((s.slots.at i).bypassed = true →
        exec .droppedFrame s = .next { s.takenFromRobot rest i radio with
          gate := { s.gate with bypassed := min 65535 (s.gate.bypassed + 1) } }) ∧
      ((s.slots.at i).bypassed = false → f.kind ≠ 0x11#8 → f.kind ≠ 0x20#8 → f.kind ≠ 0x21#8 →
        exec .droppedFrame s = .next { s.takenFromRobot rest i radio with
          gate := { s.gate with badKind := min 65535 (s.gate.badKind + 1) } }) ∧
      ((s.slots.at i).bypassed = false → f.kind = 0x11#8 → f.dst ≠ s.link.console →
        (∀ st, stationOf s.stations .driver i = some st → f.dst ≠ st.addr) →
        exec .droppedFrame s = .next { s.takenFromRobot rest i radio with
          gate := { s.gate with misdirected := min 65535 (s.gate.misdirected + 1) } }) ∧
      ((s.slots.at i).bypassed = false → f.kind = 0x20#8 ∨ f.kind = 0x21#8 → f.dst ≠ s.link.own → f.dst ≠ 0xFF#8 →
        exec .droppedFrame s = .next { s.takenFromRobot rest i radio with
          gate := { s.gate with misdirected := min 65535 (s.gate.misdirected + 1) } }) ∧
      ((s.slots.at i).bypassed = false → f.dst = s.link.own ∨ f.dst = 0xFF#8 →
        (f.kind = 0x20#8 ∧ f.payload.length < 4) ∨ (f.kind = 0x21#8 ∧ f.payload = []) →
        exec .droppedFrame s = .next { s.takenFromRobot rest i radio with
          gate := { s.gate with badKind := min 65535 (s.gate.badKind + 1) } }))

/-- DRIVE: an accepted frame becomes the slot's held frame and sets its last sequence, displacing an earlier one under
SUPERSEDED; a stale one is dropped under STALE (R36, R37, R38). -/
def Obligations.DriveIsHeldOrStale : Prop :=
  ∀ (s : State) (f : Frame) (rest : List Frame) (i : SlotId) (st : Station), DriverFrame s f rest i →
    f.kind = 0x10#8 → stationOf s.stations .robot i = some st →
    (f.dst = s.link.own ∨ f.dst = 0xFF#8 ∨ st.isRadio f.dst = true) → 1 ≤ f.payload.length →
    ((∀ last, (s.slots.at i).lastSeq = some last → 1 ≤ (f.seq - last).toNat ∧ (f.seq - last).toNat ≤ 127) →
      exec .drive s = .next { s.taken rest with
        slots := s.slots.put i { s.slots.at i with lastSeq := some f.seq, held := some f }
        gate := if (s.slots.at i).held = none then s.gate
          else { s.gate with superseded := min 65535 (s.gate.superseded + 1) } }) ∧
    (∀ last, (s.slots.at i).lastSeq = some last → (f.seq - last).toNat = 0 ∨ 127 < (f.seq - last).toNat →
      exec .drive s = .next { s.taken rest with gate := { s.gate with stale := min 65535 (s.gate.stale + 1) } })

/-- TELL: within its credit and the TELL queue's room it is queued and its cost of 8 + length is charged; otherwise it
is dropped as THROTTLED, with the slot's throttled mark set, or as TELL-FULL, without a charge (R31, R33, R34). -/
def Obligations.TellIsQueuedWithinBudget : Prop :=
  ∀ (s : State) (f : Frame) (rest : List Frame) (i : SlotId) (radio : Radio), RobotFrame s f rest i radio →
    f.kind = 0x11#8 → (s.slots.at i).bypassed = false →
    (f.dst = s.link.console ∨ ∃ st, stationOf s.stations .driver i = some st ∧ f.dst = st.addr) →
    ∃ t, exec .tell s = .next t ∧
      ((s.slots.at i).credit < 8 + f.payload.length →
        t.slots = s.slots.put i { (s.slots.at i).refreshed radio with throttled := true } ∧
        t.link = (s.taken rest).link ∧ t.gate = { s.gate with throttled := min 65535 (s.gate.throttled + 1) }) ∧
      (8 + f.payload.length ≤ (s.slots.at i).credit → 16 ≤ s.link.tells.length →
        t.slots = s.slots.put i ((s.slots.at i).refreshed radio) ∧
        t.link = (s.taken rest).link ∧ t.gate = { s.gate with tellFull := min 65535 (s.gate.tellFull + 1) }) ∧
      (8 + f.payload.length ≤ (s.slots.at i).credit → s.link.tells.length < 16 →
        t.slots = s.slots.put i { (s.slots.at i).refreshed radio with
          credit := (s.slots.at i).credit - (8 + f.payload.length) } ∧
        t.link = { (s.taken rest).link with tells := s.link.tells ++ [f] } ∧ t.gate = s.gate) ∧
      ((s.slots.at i).silent = false → t.mgmt = s.mgmt) ∧
      t.stations = s.stations ∧ t.fields = s.fields ∧ t.tallies = s.tallies ∧ t.lines = s.lines ∧
      t.elements = s.elements ∧ t.bus = s.bus ∧ t.beacons = s.beacons ∧ t.timing = s.timing ∧ t.pending = s.pending

/-- Every TELL, CLAIM and RELEASE of a robot first refreshes its slot: the radio heard, age 0, the silent mark clear with
NOTICE HEARD; no other slot is refreshed, and no other notice is queued (R31, R42). -/
def Obligations.RobotFrameRefreshesSlot : Prop :=
  ∀ (c : Instr) (k : Byte), (c, k) ∈ [(Instr.tell, 0x11#8), (.claim, 0x20#8), (.release, 0x21#8)] →
    ∀ (s : State) (f : Frame) (rest : List Frame) (i : SlotId) (radio : Radio), RobotFrame s f rest i radio → f.kind = k →
    ∃ t, exec c s = .next t ∧ t.link.store = rest ∧
      (t.slots.at i).radio = radio ∧ (t.slots.at i).age = 0 ∧ (t.slots.at i).silent = false ∧
      (∀ j, j ≠ i → (t.slots.at j).radio = (s.slots.at j).radio ∧ (t.slots.at j).age = (s.slots.at j).age ∧
        (t.slots.at j).silent = (s.slots.at j).silent) ∧
      ((s.slots.at i).silent = false → t.mgmt = s.mgmt) ∧
      ((s.slots.at i).silent = true → s.mgmt.notices.length < 16 →
        t.mgmt.notices = s.mgmt.notices ++ [{ dropped := s.mgmt.dropped, content := .heard i }]) ∧
      t.fields = s.fields ∧ t.tallies = s.tallies ∧ t.stations = s.stations ∧ t.lines = s.lines ∧ t.timing = s.timing

/-! ### Claims and releases -/

/-- CLAIM: the first test of R89, then of R92, that fails refuses it with its reason, and nothing else changes. A claim of
the holder is an in-hold action: an actuation at once, or the hold's next action, an earlier one being CANCELLED. A claim of
a slot that waits already replaces the request in its place. A new claim is granted at once on an element with neither hold
nor actuation, and otherwise queued at the tail; the outstanding count then rises (R31, R32, R89, R90, R91, R92, R93, R95,
R103). -/
def Obligations.ClaimIsGrantedQueuedOrRefused : Prop :=
  ∀ (s : State) (f : Frame) (rest : List Frame) (i : SlotId) (radio : Radio) (b : Byte) (r : Request),
    ClaimFrame s f rest i radio b r →
    ∃ t, exec .claim s = .next t ∧ BusKeeps (s.takenFromRobot rest i radio) t ∧
      (∀ j, j ≠ i → (t.slots.at j).outstanding = (s.slots.at j).outstanding) ∧
      (∀ reason, ClaimRefused s i b r reason →
        t.link.verdicts = enqueueVerdict s.link.verdicts { slot := i, element := b, outcome := .refused reason, tag := r.tag } ∧
        t.slots = (s.takenFromRobot rest i radio).slots ∧
        ∀ k, (t.loadedAt k).map (fun x => (x.claims, x.hold, x.act.map (·.request))) =
          (s.loadedAt k).map (fun x => (x.claims, x.hold, x.act.map (·.request)))) ∧
      ∀ e l, b = elementByte e → ClaimAllowed s i e l r →
        ∃ l', t.loadedAt e = some l' ∧ ClaimsKept s t e ∧
          (∀ h, l.hold = some h → h.slot = i →
            (t.slots.at i).outstanding = (s.slots.at i).outstanding ∧ l'.claims = l.claims ∧
            (l.act = none → l'.hold = some h ∧
              (∃ sent, l'.act = some { slot := i, request := r, state := .waitingBus, sent, running := 0 }) ∧
              t.link.verdicts = enqueueVerdict s.link.verdicts { slot := i, element := b, outcome := .acting, tag := r.tag }) ∧
            (∀ a, l.act = some a → l'.hold = some { h with next := some r } ∧
              (∃ sent, l'.act = some { a with sent }) ∧
              (h.next = none → t.link.verdicts = enqueueVerdict s.link.verdicts
                { slot := i, element := b, outcome := .acting, tag := r.tag }) ∧
              (∀ old, h.next = some old → t.link.verdicts = enqueueVerdict (enqueueVerdict s.link.verdicts
                { slot := i, element := b, outcome := .cancelled, tag := old.tag })
                { slot := i, element := b, outcome := .acting, tag := r.tag }))) ∧
          (∀ before c behind, (∀ h, l.hold = some h → h.slot ≠ i) → l.claims = before ++ c :: behind → c.slot = i →
            (∀ d ∈ before ++ behind, d.slot ≠ i) →
            (t.slots.at i).outstanding = (s.slots.at i).outstanding ∧ l'.hold = l.hold ∧
            l'.act.map (·.request) = l.act.map (·.request) ∧
            l'.claims = before ++ { slot := i, request := r } :: behind ∧
            t.link.verdicts = enqueueVerdict s.link.verdicts
              { slot := i, element := b, outcome := .queued (before.length + 1), tag := r.tag }) ∧
          (ClaimPasses s i e l r → (t.slots.at i).outstanding = (s.slots.at i).outstanding + 1 ∧
            (l.hold = none → l.act = none → (∃ sent, l'.grantedTo { slot := i, request := r } sent) ∧ l'.claims = l.claims ∧
              t.link.verdicts = enqueueVerdict s.link.verdicts { slot := i, element := b, outcome := .granted, tag := r.tag }) ∧
            (l.hold ≠ none ∨ l.act ≠ none →
              l'.hold = l.hold ∧ l'.act.map (·.request) = l.act.map (·.request) ∧
              l'.claims = l.claims ++ [{ slot := i, request := r }] ∧
              t.link.verdicts = enqueueVerdict s.link.verdicts
                { slot := i, element := b, outcome := .queued (l.claims.length + 1), tag := r.tag }))

/-- RELEASE by the holder and HOLD_EXPIRY end the hold: RELEASED, with the outstanding count one less, the last-release record
and the last holder alliance set, a next action and an actuation that waits unsent CANCELLED. With an actuation left, no
new holder is taken; with none, grant selection picks the next holder under FIFO or ALTERNATE, or nobody. RELEASE of a queued
claim withdraws it, and a RELEASE by a slot that has neither claim nor hold is REFUSED with NOT-HOLDING (R31, R32, R95, R96, R97, R99, R100, R101, R102, R103, R104).
That HOLD_EXPIRY is the arrival itself, whatever the counter held, is the model's reading of the row
(notes/assumptions/4.md). -/
def Obligations.HoldEnds : Prop :=
  (∀ (s base : State) (c : Instr) (reason : Reason) (e : ElementId) (l : Loaded) (h : Hold),
    s.loadedAt e = some l → l.hold = some h →
    (c = .holdExpiry e ∧ reason = .expired ∧ base = s) ∨
      (c = .release ∧ reason = .byRobot ∧ ∃ f rest radio, ReleaseFrame s f rest h.slot radio (elementByte e) ∧
        base = s.takenFromRobot rest h.slot radio) →
    ∃ t l', exec c s = .next t ∧ BusKeeps base t ∧ t.loadedAt e = some l' ∧ ClaimsKept s t e ∧
      (t.slots.at h.slot).outstanding = (s.slots.at h.slot).outstanding - 1 ∧
      (∀ j, j ≠ h.slot → (t.slots.at j).outstanding = (s.slots.at j).outstanding) ∧
      l'.lastRelease = some { slot := h.slot, since := 0 } ∧
      (∀ x, s.slotAlliance h.slot = some x → l'.lastAlliance = some x) ∧
      (∀ a, l.act = some a → a.state ≠ .waitingBus ∨ a.sent = true →
        l'.act = some a ∧ l'.hold = none ∧ l'.claims = l.claims ∧
        t.link.verdicts = holdEndVerdicts s.link.verdicts e l h reason) ∧
      ((∀ a, l.act = some a → a.state = .waitingBus ∧ a.sent = false) →
        (l.presence ≠ .present ∨ (∀ d ∈ l.claims, ¬ base.MayHold l.entry d) →
          l'.act = none ∧ l'.hold = none ∧ l'.claims = l.claims ∧
          t.link.verdicts = holdEndVerdicts s.link.verdicts e l h reason) ∧
        (∀ x before d behind, l.presence = .present → s.slotAlliance h.slot = some x →
          l.claims = before ++ d :: behind → base.Picks l.entry (some x) before d behind →
          (∃ sent, l'.grantedTo d sent) ∧ l'.claims = before ++ behind ∧
          t.link.verdicts = enqueueVerdict (holdEndVerdicts s.link.verdicts e l h reason)
            { slot := d.slot, element := elementByte e, outcome := .granted, tag := d.request.tag }))) ∧
  (∀ (s : State) (f : Frame) (rest : List Frame) (i : SlotId) (radio : Radio) (e : ElementId) (l : Loaded)
    (before : List Claim) (c : Claim) (behind : List Claim),
    ReleaseFrame s f rest i radio (elementByte e) → s.loadedAt e = some l → (∀ h, l.hold = some h → h.slot ≠ i) →
    l.claims = before ++ c :: behind → c.slot = i → (∀ d ∈ before, d.slot ≠ i) →
    ∃ t l', exec .release s = .next t ∧ BusKeeps (s.takenFromRobot rest i radio) t ∧ t.loadedAt e = some l' ∧
      ClaimsKept s t e ∧ (t.slots.at i).outstanding = (s.slots.at i).outstanding - 1 ∧
      (∀ j, j ≠ i → (t.slots.at j).outstanding = (s.slots.at j).outstanding) ∧
      (l.hold ≠ none ∨ l.act ≠ none ∨ l.presence ≠ .present ∨
          (∀ d ∈ before ++ behind, ¬ (s.takenFromRobot rest i radio).MayHold l.entry d) →
        l'.hold = l.hold ∧ l'.claims = before ++ behind ∧
        t.link.verdicts = enqueueVerdict s.link.verdicts
          { slot := i, element := elementByte e, outcome := .withdrawn .byRobot, tag := c.request.tag }) ∧
      (∀ a d b, l.hold = none → l.act = none → l.presence = .present → before ++ behind = a ++ d :: b →
        (s.takenFromRobot rest i radio).Picks l.entry l.lastAlliance a d b →
        (∃ sent, l'.grantedTo d sent) ∧ l'.claims = a ++ b ∧
        t.link.verdicts = enqueueVerdict (enqueueVerdict s.link.verdicts
          { slot := i, element := elementByte e, outcome := .withdrawn .byRobot, tag := c.request.tag })
          { slot := d.slot, element := elementByte e, outcome := .granted, tag := d.request.tag })) ∧
  (∀ (s : State) (f : Frame) (rest : List Frame) (i : SlotId) (radio : Radio) (b : Byte),
    ReleaseFrame s f rest i radio b →
    (∀ e l, b = elementByte e → s.loadedAt e = some l →
      (∀ h, l.hold = some h → h.slot ≠ i) ∧ ∀ c ∈ l.claims, c.slot ≠ i) →
    ∃ t, exec .release s = .next t ∧ BusKeeps (s.takenFromRobot rest i radio) t ∧
      t.slots = (s.takenFromRobot rest i radio).slots ∧
      t.link.verdicts = enqueueVerdict s.link.verdicts { slot := i, element := b, outcome := .refused .notHolding, tag := 0 } ∧
      ∀ k, (t.loadedAt k).map (fun x => (x.claims, x.hold, x.act.map (·.request))) =
        (s.loadedAt k).map (fun x => (x.claims, x.hold, x.act.map (·.request))))

/-! ### The Management Agent -/

/-- Every MANAGE command of the wrong payload length is refused with LENGTH, and nothing else changes (R179). -/
def Obligations.WrongLengthIsRefused : Prop :=
  ∀ p ∈ commandTable, ∀ (s : State) (f : Frame) (rest : List Frame) (operands : List Byte),
    CommandReady s f rest p.2.1 operands → operands.length + 1 ≠ p.2.2 →
    exec p.1 s = .next (s.replied f rest p.2.1 (.refused .length))

/-- UNKNOWN_COMMAND: a payload with no code, or a code that names no command, is refused with UNKNOWN-COMMAND (R179,
R180). And a restart-pending agent, or a full reply queue, discards every MANAGE command without a reply (R178). -/
def Obligations.UnknownRefusedAndBusyDiscards : Prop :=
  (∀ (s : State) (f : Frame) (rest : List Frame) (code : Byte) (operands : List Byte),
    CommandReady s f rest code operands → (∀ p ∈ commandTable, p.2.1 ≠ code) →
    exec .unknownCommand s = .next (s.replied f rest code (.refused .unknownCommand))) ∧
  (∀ (s : State) (f : Frame) (rest : List Frame), s.mgmt.mode ≠ .starting → s.link.store = f :: rest →
    f.src = s.link.console → f.dst = s.link.own → f.kind = 0x40#8 → f.payload = [] → s.mgmt.restartPending = false →
    s.link.replies.length < 4 →
    exec .unknownCommand s = .next (s.replied f rest 0 (.refused .unknownCommand))) ∧
  (∀ p ∈ commandTable, ∀ (s : State) (f : Frame) (rest : List Frame) (operands : List Byte),
    CommandFrame s f rest p.2.1 operands → s.mgmt.restartPending = true ∨ 4 ≤ s.link.replies.length →
    exec p.1 s = .next (s.taken rest))

/-- COMMISSION, DECOMMISSION and RESTART set the device mode and the restart-pending mark, and change no other table,
record, queue or counter but the reply queue; DECOMMISSION is refused with FIELD-LIVE while COMMISSIONED with a field
that is not IDLE (R176, R177). -/
def Obligations.DeviceModeCommands : Prop :=
  ∀ (s : State) (f : Frame) (rest : List Frame),
    (CommandReady s f rest 0x01 [] → exec .commission s =
      .next (({ s with mgmt := { s.mgmt with mode := .commissioned } }).replied f rest 0x01 (.done []))) ∧
    (CommandReady s f rest 0x02 [] → (s.mgmt.mode = .commissioned → ∀ g, (s.fields.at g).phase = .idle) →
      exec .decommission s =
        .next (({ s with mgmt := { s.mgmt with mode := .uncommissioned } }).replied f rest 0x02 (.done []))) ∧
    (CommandReady s f rest 0x02 [] → s.mgmt.mode = .commissioned → (∃ g, (s.fields.at g).phase ≠ .idle) →
      exec .decommission s = .next (s.replied f rest 0x02 (.refused .fieldLive))) ∧
    (CommandReady s f rest 0x03 [] → exec .restart s =
      .next (({ s with mgmt := { s.mgmt with restartPending := true } }).replied f rest 0x03 (.done [])))

/-- LOAD_STATION: the five tests in their order, RANGE twice, TWIN-CONFLICT, DUPLICATE and FULL; a load that passes them
writes the entry of its address and no other, and of a ROBOT entry the slot named and the slot that the replaced entry named
are then heard on their PRIMARY radio, while a DRIVER entry changes no slot. CLEAR_STATION removes its entry and no other, a
ROBOT entry's slot becoming PRIMARY, or is refused with NO-ENTRY (R21, R22). -/
def Obligations.StationCommands : Prop :=
  (∀ (s : State) (f : Frame) (rest : List Frame) (a b c : Byte), CommandReady s f rest 0x10 [a, b, c] →
    ((¬ (1 ≤ a.toNat ∧ a.toNat ≤ 0x3F) ∧ ¬ (0x41 ≤ a.toNat ∧ a.toNat ≤ 0x7F) ∧ ¬ (0x81 ≤ a.toNat ∧ a.toNat ≤ 0xBF)) ∨
        32 ≤ b.toNat ∨ 2 ≤ c.toNat ∨ (c = 1 ∧ 0x3F < a.toNat) →
      exec .loadStation s = .next (s.replied f rest 0x10 (.refused .range))) ∧
    (∀ (i : SlotId) (role : Role) (twin : Bool), b = byte i.val → c = byte (bit twin) →
      ((1 ≤ a.toNat ∧ a.toNat ≤ 0x3F) ∨ (0x41 ≤ a.toNat ∧ a.toNat ≤ 0x7F)) ∧ role = .robot ∨
        (0x81 ≤ a.toNat ∧ a.toNat ≤ 0xBF) ∧ role = .driver →
      (twin = true → a.toNat ≤ 0x3F) →
      ((∃ st ∈ s.stations, st.addr ≠ a ∧
          (st.matchesSource a ≠ none ∨ (twin = true ∧ st.matchesSource (a + 0x40#8) ≠ none))) →
        exec .loadStation s = .next (s.replied f rest 0x10 (.refused .twinConflict))) ∧
      ((∀ st ∈ s.stations, st.addr ≠ a →
          st.matchesSource a = none ∧ (twin = true → st.matchesSource (a + 0x40#8) = none)) →
        ((∃ st ∈ s.stations, st.addr ≠ a ∧ st.role = role ∧ st.slot = i) →
          exec .loadStation s = .next (s.replied f rest 0x10 (.refused .duplicate))) ∧
        ((∀ st ∈ s.stations, st.addr ≠ a → ¬ (st.role = role ∧ st.slot = i)) →
          (ownEntry s.stations a = none → 64 ≤ s.stations.length →
            exec .loadStation s = .next (s.replied f rest 0x10 (.refused .full))) ∧
          (ownEntry s.stations a ≠ none ∨ s.stations.length < 64 →
            ∃ t, exec .loadStation s = .next t ∧ t.link = (s.replied f rest 0x10 (.done [])).link ∧
              ownEntry t.stations a = some { addr := a, slot := i, role := role, acceptTwin := twin } ∧
              (∀ x, x ≠ a → ownEntry t.stations x = ownEntry s.stations x) ∧
              (∀ j, t.slots.at j = { s.slots.at j with
                radio := if role = .robot ∧ (j = i ∨ (ownEntry s.stations a).map (·.slot) = some j) then .primary
                  else (s.slots.at j).radio }) ∧
              (role = .driver → t.slots = s.slots) ∧
              t.fields = s.fields ∧ t.elements = s.elements ∧ t.bus = s.bus ∧ t.gate = s.gate ∧ t.mgmt = s.mgmt))))) ∧
  (∀ (s : State) (f : Frame) (rest : List Frame) (a : Byte), CommandReady s f rest 0x11 [a] →
    (ownEntry s.stations a = none → exec .clearStation s = .next (s.replied f rest 0x11 (.refused .noEntry))) ∧
    (∀ st, ownEntry s.stations a = some st →
      ∃ t, exec .clearStation s = .next t ∧ t.link = (s.replied f rest 0x11 (.done [])).link ∧
        ownEntry t.stations a = none ∧ (∀ x, x ≠ a → ownEntry t.stations x = ownEntry s.stations x) ∧
        (∀ j, t.slots.at j = { s.slots.at j with
          radio := if st.role = .robot ∧ j = st.slot then .primary else (s.slots.at j).radio }) ∧
        (st.role = .driver → t.slots = s.slots) ∧
        t.fields = s.fields ∧ t.elements = s.elements ∧ t.bus = s.bus ∧ t.gate = s.gate ∧ t.mgmt = s.mgmt))

/-- LOAD_SLOT on a slot in no match writes team and budget, fills the credit and frees the rest of the record; on a
placed slot of the same team it writes the budget alone; a slot, a team or a ceiling out of its range is refused with RANGE,
and another team for a placed slot with FIELD-LIVE. CLEAR_SLOT returns a slot in no match to its free values, its
outstanding count kept, and changes nothing of a slot that is free already (R24, R25). That the count is kept, and that a
slot is free when its team is 0, whatever the rest of its record holds, are the model's readings (notes/assumptions/27.md
and 32.md). -/
def Obligations.SlotCommands : Prop :=
  (∀ (s : State) (f : Frame) (rest : List Frame) (b t1 t2 t3 c1 c2 q : Byte),
    CommandReady s f rest 0x12 [b, t1, t2, t3, c1, c2, q] →
    32 ≤ b.toNat ∨ nat24 t1 t2 t3 = 0 ∨ 99999 < nat24 t1 t2 t3 ∨ nat16 c1 c2 < 64 ∨ 4095 < nat16 c1 c2 →
    exec .loadSlot s = .next (s.replied f rest 0x12 (.refused .range))) ∧
  (∀ (s : State) (f : Frame) (rest : List Frame) (b t1 t2 t3 c1 c2 q : Byte) (i : SlotId),
    CommandReady s f rest 0x12 [b, t1, t2, t3, c1, c2, q] → slotOf b = some i →
    1 ≤ nat24 t1 t2 t3 → nat24 t1 t2 t3 ≤ 99999 → 64 ≤ nat16 c1 c2 → nat16 c1 c2 ≤ 4095 →
    ((s.slots.at i).placing = none → exec .loadSlot s = .next ((s.updSlot i fun x =>
      { x with
        team := nat24 t1 t2 t3, ceiling := nat16 c1 c2, refill := q.toNat, credit := nat16 c1 c2, lastSeq := none,
        held := none, radio := .primary, age := 0, silent := false, throttled := false }).replied f rest 0x12 (.done []))) ∧
    ((s.slots.at i).placing ≠ none → (s.slots.at i).team = nat24 t1 t2 t3 →
      exec .loadSlot s = .next ((s.updSlot i fun x =>
        { x with
          ceiling := nat16 c1 c2, refill := q.toNat,
          credit := min x.credit (nat16 c1 c2) }).replied f rest 0x12 (.done []))) ∧
    ((s.slots.at i).placing ≠ none → (s.slots.at i).team ≠ nat24 t1 t2 t3 →
      exec .loadSlot s = .next (s.replied f rest 0x12 (.refused .fieldLive)))) ∧
  (∀ (s : State) (f : Frame) (rest : List Frame) (b : Byte),
    CommandReady s f rest 0x13 [b] → 32 ≤ b.toNat → exec .clearSlot s = .next (s.replied f rest 0x13 (.refused .range))) ∧
  (∀ (s : State) (f : Frame) (rest : List Frame) (b : Byte) (i : SlotId),
    CommandReady s f rest 0x13 [b] → slotOf b = some i →
    ((s.slots.at i).placing = none → (s.slots.at i).team ≠ 0 → exec .clearSlot s = .next ((s.updSlot i fun x =>
      { team := 0, placing := none, disabled := false, bypassed := false, ceiling := 64, refill := 0, credit := 0,
        held := none, lastSeq := none, radio := .primary, age := 0, silent := false, throttled := false,
        outstanding := x.outstanding }).replied f rest 0x13 (.done []))) ∧
    ((s.slots.at i).placing = none → (s.slots.at i).team = 0 →
      exec .clearSlot s = .next (s.replied f rest 0x13 (.done []))) ∧
    ((s.slots.at i).placing ≠ none → exec .clearSlot s = .next (s.replied f rest 0x13 (.refused .fieldLive))))

/-- SET_TIMING: the three tests in their order, RANGE for the sample period, FIELD-LIVE for a change of it with a field that
is not IDLE, STATE for a change of p, k or W on a bus that is not PAUSED. Passing them it writes every setting clamped, W
rounded down to a multiple of 100, restarts the beacon period, restarts the sampling when its period changes, marks silent
at once, in ascending order, every slot in a timed phase whose age is past the new timeout, with its notice and its silent
event, and answers with the settings entry (R41, R74, R106, R166, R185, R186). -/
def Obligations.SetTimingResult : Prop :=
  ∀ (s : State) (f : Frame) (rest : List Frame) (b1 b2 s1 s2 g1 g2 ap se p1 p2 sp p k w1 w2 : Byte),
    CommandReady s f rest 0x32 [b1, b2, s1, s2, g1, g2, ap, se, p1, p2, sp, p, k, w1, w2] →
    (sp.toNat ∉ [1, 2, 4, 8, 16, 32] → exec .setTiming s = .next (s.replied f rest 0x32 (.refused .range))) ∧
    (sp.toNat ∈ [1, 2, 4, 8, 16, 32] → sp.toNat ≠ s.timing.sample → (∃ g, (s.fields.at g).phase ≠ .idle) →
      exec .setTiming s = .next (s.replied f rest 0x32 (.refused .fieldLive))) ∧
    (sp.toNat ∈ [1, 2, 4, 8, 16, 32] → (sp.toNat = s.timing.sample ∨ ∀ g, (s.fields.at g).phase = .idle) →
      (clamp 0 7 p.toNat ≠ s.timing.p ∨ clamp 0 15 k.toNat ≠ s.timing.k ∨
        clamp 200 5000 (nat16 w1 w2) / 100 * 100 ≠ s.timing.window) → s.bus.state ≠ .paused →
      exec .setTiming s = .next (s.replied f rest 0x32 (.refused .state))) ∧
    (sp.toNat ∈ [1, 2, 4, 8, 16, 32] → (sp.toNat = s.timing.sample ∨ ∀ g, (s.fields.at g).phase = .idle) →
      (s.bus.state = .paused ∨ (clamp 0 7 p.toNat = s.timing.p ∧ clamp 0 15 k.toNat = s.timing.k ∧
        clamp 200 5000 (nat16 w1 w2) / 100 * 100 = s.timing.window)) →
      ∃ t data marked, exec .setTiming s = .next t ∧
        t.timing = { beacon := clamp 50 1000 (nat16 b1 b2)
                     silent := clamp 100 2000 (nat16 s1 s2)
                     grace := clamp 0 5000 (nat16 g1 g2)
                     actionPoll := clamp 5 100 ap.toNat
                     sensor := clamp 10 200 se.toNat
                     probe := clamp 50 1000 (nat16 p1 p2)
                     sample := sp.toNat
                     p := clamp 0 7 p.toNat
                     k := clamp 0 15 k.toNat
                     window := clamp 200 5000 (nat16 w1 w2) / 100 * 100 } ∧
        t.beacons = { s.beacons with left := some (clamp 50 1000 (nat16 b1 b2)) } ∧
        t.sampleLeft = (if sp.toNat = s.timing.sample then s.sampleLeft else some sp.toNat) ∧
        marked.Pairwise (· < ·) ∧
        (∀ i, i ∈ marked ↔ (s.slots.at i).silent = false ∧ clamp 100 2000 (nat16 s1 s2) < (s.slots.at i).age ∧
          ∃ g, s.slotField i = some g ∧ (s.fields.at g).phase.timed = true) ∧
        (∀ i, t.slots.at i = { s.slots.at i with
          silent := (s.slots.at i).silent || decide (i ∈ marked), outstanding := (t.slots.at i).outstanding }) ∧
        (s.mgmt.notices.length + marked.length ≤ 16 → t.mgmt.notices = s.mgmt.notices ++
          marked.mapIdx fun n i => { dropped := if n = 0 then s.mgmt.dropped else 0, content := .silent i }) ∧
        ClaimsTaken .silent (fun _ _ => False) marked s t ∧
        t.link.store = rest ∧
        t.link.replies = s.link.replies ++ [{ seq := f.seq, code := 0x32#8, outcome := .done data }] ∧
        data = t.settingsEntry ∧ t.bus.state = s.bus.state ∧ t.fields = s.fields ∧ t.tallies = s.tallies ∧
        t.stations = s.stations ∧ t.lines = s.lines ∧ t.gate = s.gate ∧
        (∀ e, (t.loadedAt e).map (·.entry) = (s.loadedAt e).map (·.entry)))

/-- READ and READ_NEXT answer with the entry at the index, or refuse a table or index out of range, move the cursor, and change
nothing else of any block; a READ NEXT without a cursor or at the last index is refused. The codes of the tables and their last
indices, the codes of the named values, and the bytes of an entry of each of the eight tables: an entry of STATION matched by
its own address, by twin or by none, a free or a loaded SLOT with the addresses of its stations, an empty or a loaded ELEMENT,
the RULEs of an element number, a LINE, a FIELD, the GATE counters, the LINK counters and the settings entry (R10, R20, R43,
R79, R84, R118, R148, R181, R182, R183, R184, R187). That the line bits of a CONSOLE stop byte are 0 is the model's choice
(notes/assumptions/13.md). -/
def Obligations.ReadCommands : Prop :=
  (∀ (s : State) (f : Frame) (rest : List Frame) (a b : Byte), CommandReady s f rest 0x60 [a, b] → 8 ≤ a.toNat →
    exec .read s = .next (s.replied f rest 0x60 (.refused .range))) ∧
  (∀ (s : State) (f : Frame) (rest : List Frame) (a b : Byte) (tbl : ReadTable),
    CommandReady s f rest 0x60 [a, b] → readTableOf a = some tbl →
    (b.toNat ≤ tbl.last → exec .read s = .next (({ s with mgmt := { s.mgmt with cursor := some (tbl, b.toNat) } }).replied
      f rest 0x60 (.done ([byte tbl.code, byte b.toNat] ++ s.entryAt tbl b.toNat)))) ∧
    (tbl.last < b.toNat → exec .read s = .next (s.replied f rest 0x60 (.refused .range)))) ∧
  (∀ (s : State) (f : Frame) (rest : List Frame), CommandReady s f rest 0x61 [] →
    (s.mgmt.cursor = none → exec .readNext s = .next (s.replied f rest 0x61 (.refused .noCursor))) ∧
    (∀ tbl n, s.mgmt.cursor = some (tbl, n) → tbl.last ≤ n →
      exec .readNext s = .next (s.replied f rest 0x61 (.refused .tableEnd))) ∧
    (∀ tbl n, s.mgmt.cursor = some (tbl, n) → n < tbl.last →
      exec .readNext s = .next (({ s with mgmt := { s.mgmt with cursor := some (tbl, n + 1) } }).replied
        f rest 0x61 (.done ([byte tbl.code, byte (n + 1)] ++ s.entryAt tbl (n + 1)))))) ∧
  (∀ (a : Byte) (tbl : ReadTable), readTableOf a = some tbl ↔ (a, tbl) ∈
    [(0, ReadTable.station), (1, .slot), (2, .element), (3, .rule), (4, .line), (5, .field), (6, .gate), (7, .link)]) ∧
  (∀ tbl : ReadTable, (tbl, tbl.code, tbl.last) ∈ [(ReadTable.station, 0, 255), (.slot, 1, 31), (.element, 2, 47),
    (.rule, 3, 47), (.line, 4, 15), (.field, 5, 3), (.gate, 6, 0), (.link, 7, 1)]) ∧
  ((∀ a : Alliance, (a, a.code) ∈ [(.east, 0), (.west, 1)]) ∧
    (∀ o : Owner, (o, o.code) ∈ [(.east, 0), (.west, 1), (.shared, 2)]) ∧
    (∀ k : ElementKind, (k, k.code) ∈ [(.sensing, 1), (.actuating, 2), (.both, 3)]) ∧
    (∀ d : Discipline, (d, d.code) ∈ [(.fifo, 0), (.alternate, 1)]) ∧
    (∀ w : Beneficiary, (w, w.code) ∈ [(.owner, 0), (.opponent, 1), (.holder, 2), (.east, 3), (.west, 4)]) ∧
    (∀ p : Phase, (p, p.code) ∈ [(.idle, 0), (.pre, 1), (.auto, 2), (.pause, 3), (.teleop, 4), (.endgame, 5), (.post, 6)]) ∧
    (∀ p : Presence, (p, p.code, p.causeCode) ∈ [(.unknown, 0, 0), (.present, 1, 0), (.absent, 2, 0),
      (.faulted .mismatch, 3, 1), (.faulted .fault, 3, 2), (.faulted .timeout, 3, 3), (.faulted .safeRefused, 3, 4)]) ∧
    (∀ a : ActState, (a, a.code) ∈ [(.waitingBus, 0), (.running, 1), (.cancelling, 2)]) ∧
    (∀ r : LineRole, (r, r.code) ∈ [(.unused, 0), (.stop, 1), (.resumeKey, 2), (.hallStop, 3)]) ∧
    (∀ v : Level, (v, Level.code v) ∈ [(.low, 0), (.high, 1)]) ∧
    (∀ m : DeviceMode, (m, m.code) ∈ [(.starting, 0), (.uncommissioned, 1), (.commissioned, 2)]) ∧
    (∀ r : ArenaRate, (r, r.code) ∈ [(.kbit500, 0), (.mbit1, 1), (.mbit2, 2)]) ∧
    (∀ b : BusState, (b, b.code) ∈ [(.startingIdle, 0), (.running, 1), (.pausing, 2), (.paused, 3)]) ∧
    (∀ c : Option StopCause, stopByte c = byte (match c with
      | none => 0
      | some (.line n) => 0x90 + n.val
      | some (.hall n) => 0xA0 + n.val
      | some .console => 0xB0)) ∧
    ∀ t : Bcd, t.bytes = [byte (16 * t.thousands.val + t.hundreds.val), byte (16 * t.tens.val + t.units.val)]) ∧
  ∀ s : State,
    (∀ a : Byte,
      ((∀ x ∈ s.stations, ¬ x.Matches a) → s.entryAt .station a.toNat = [0]) ∧
      ∀ st ∈ s.stations, st.Matches a → (∀ x ∈ s.stations, x.Matches a → x = st) →
        s.entryAt .station a.toNat = [1, st.addr, byte st.slot.val,
          byte ((match st.role with
            | .robot => 0
            | .driver => 1) + (if st.acceptTwin then 2 else 0) + if a = st.addr then 0 else 4)]) ∧
    (∀ i : SlotId, ∃ robot driver : Byte,
      (s.NoStation .robot i → robot = 0xFF) ∧ (∀ st, s.OnlyStation .robot i st → robot = st.addr) ∧
      (s.NoStation .driver i → driver = 0xFF) ∧ (∀ st, s.OnlyStation .driver i st → driver = st.addr) ∧
      s.entryAt .slot i.val = [if (s.slots.at i).team = 0 then 0 else 1] ++ be24 (s.slots.at i).team ++
        (match (s.slots.at i).placing with
          | none => [0xFF, 0]
          | some p => [byte p.field.val, byte (16 * p.alliance.code + p.position)]) ++
        [byte ((if (s.slots.at i).disabled then 1 else 0) + (if (s.slots.at i).bypassed then 2 else 0) +
          (if (s.slots.at i).silent then 4 else 0) + (if (s.slots.at i).throttled then 8 else 0) +
          (if (s.slots.at i).radio = .twin then 16 else 0) + (if (s.slots.at i).held = none then 0 else 32) +
          if (s.slots.at i).lastSeq = none then 0 else 64)] ++
        be16 (s.slots.at i).ceiling ++ [byte (s.slots.at i).refill] ++ be16 (s.slots.at i).credit ++
        [((s.slots.at i).held.map (·.seq)).getD 0, (s.slots.at i).lastSeq.getD 0] ++ be16 (s.slots.at i).age ++
        [byte (s.slots.at i).outstanding, robot, driver]) ∧
    (∀ e : ElementId,
      (s.loadedAt e = none → s.entryAt .element e.val = [0] ++ be16 (s.elements.at e).eventCount) ∧
      (∀ l, s.loadedAt e = some l → l.claims.length ≤ 4 → s.entryAt .element e.val =
        [1, l.entry.busAddr,
          byte (l.entry.field.val + 4 * l.entry.owner.code + 16 * l.entry.kind.code + 64 * l.entry.discipline.code),
          l.entry.actionMask, byte (l.entry.phaseMask.toNat + 16 * l.claims.length)] ++
        be16 l.entry.holdLimit ++ be16 l.entry.coolDown ++ be16 l.entry.actionLimit ++
        [byte (l.presence.code + 4 * l.presence.causeCode + 32 * (l.lastAlliance.map Alliance.code).getD 3),
          byte (l.misses + 4 * l.retries + (if l.actToggle then 32 else 0) + if l.fetchToggle then 64 else 0)] ++
        be16 (s.elements.at e).eventCount ++
        (l.claims.flatMap fun c =>
          [byte (c.slot.val + 32 * c.request.action.toNat), c.request.argument, c.request.tag]) ++
        List.replicate (3 * (4 - l.claims.length)) 0 ++
        (match l.hold with
          | none => [0xFF, 0, 0, 0, 0, 0, 0]
          | some h => [byte h.slot.val, h.tag] ++ be16 h.remaining ++
            match h.next with
            | none => [0, 0, 0]
            | some n => [byte (0x80 + n.action.toNat), n.argument, n.tag]) ++
        (match l.act with
          | none => [0xFF, 0, 0, 0, 0, 0]
          | some a => [byte a.slot.val,
              byte (a.request.action.toNat + 8 * a.state.code + if a.sent then 32 else 0),
              a.request.argument, a.request.tag] ++ be16 a.running) ++
        (match l.lastRelease with
          | none => [0xFF, 0, 0]
          | some r => [byte r.slot.val] ++ be16 r.since)) ∧
      ((∀ k, (s.elements.at e).rules.at k = none) → s.entryAt .rule e.val = [0]) ∧
      ((∃ k, (s.elements.at e).rules.at k ≠ none) → s.entryAt .rule e.val = [(1 : Byte)] ++ (allOf 4).flatMap fun k =>
        match (s.elements.at e).rules.at k with
        | none => [0xFF, 0, 0, 0]
        | some r => [byte r.beneficiary.code, byte r.auto, byte r.teleop, byte r.endgame])) ∧
    (∀ n : LineId, s.entryAt .line n.val = [1,
      byte ((s.lines.at n).role.code + 8 * Level.code (s.lines.at n).activeLevel +
        if (s.lines.at n).filterOn then 16 else 0),
      byte (Level.code (s.lines.at n).filtered +
        if (s.lines.at n).edge = true ∧ ((s.lines.at n).role = .stop ∨ (s.lines.at n).role = .hallStop) then 2 else 0)]) ∧
    (∀ g : FieldId, ∃ mark : Bool,
      (mark = true ↔ ∃ n, lineField n = g ∧ (s.lines.at n).edge = true ∧
        ((s.lines.at n).role = .stop ∨ (s.lines.at n).role = .hallStop)) ∧
      s.entryAt .field g.val = [(1 : Byte)] ++ be16 (s.fields.at g).number ++ be16 (s.fields.at g).durA ++
        be16 (s.fields.at g).durP ++ be16 (s.fields.at g).durT ++ be16 (s.fields.at g).durE ++
        (allOf 6).map (fun k => (((s.fields.at g).list.at k).map fun i => byte i.val).getD 0xFF) ++
        [byte (s.fields.at g).phase.code, stopByte (s.fields.at g).stopped] ++
        be24 (s.fields.at g).remaining ++ be16 (s.fields.at g).grace ++
        (s.tallies.at g).east.bytes ++ (s.tallies.at g).west.bytes ++
        be16 (s.tallies.at g).eastCount ++ be16 (s.tallies.at g).westCount ++
        [byte ((if (s.tallies.at g).eastCap then 1 else 0) + (if (s.tallies.at g).westCap then 2 else 0) +
          (if mark then 4 else 0) + if (s.fields.at g).aborted then 8 else 0)] ++
        match (s.fields.at g).result with
        | none => [0, 0, 0, 0, 0, 0, 0]
        | some r => [byte (0x80 + (if r.eastCap then 1 else 0) + (if r.westCap then 2 else 0) +
            if r.aborted then 8 else 0)] ++ be16 r.number ++ r.east.bytes ++ r.west.bytes) ∧
    s.entryAt .gate 0 = [(1 : Byte)] ++ be16 s.gate.unknownSource ++ be16 s.gate.badKind ++ be16 s.gate.bypassed ++
      be16 s.gate.misdirected ++ be16 s.gate.stale ++ be16 s.gate.throttled ++ be16 s.gate.tellFull ++
      be16 s.gate.superseded ∧
    s.entryAt .link 0 = [(1 : Byte)] ++ be16 s.link.counters.check ++ be16 s.link.counters.framing ++
      be16 s.link.counters.overlong ++ be16 s.link.counters.truncated ++ be16 s.link.counters.overrun ++
      be16 s.link.counters.received ++ be16 s.link.counters.sent ∧
    s.entryAt .link 1 = [(1 : Byte)] ++ s.settingsEntry ∧
    s.settingsEntry = [byte s.mgmt.mode.code, byte s.link.rate.code, s.link.own, s.link.console, byte s.bus.state.code] ++
      be16 s.timing.beacon ++ be16 s.timing.silent ++ be16 s.timing.grace ++
      [byte s.timing.actionPoll, byte s.timing.sensor] ++ be16 s.timing.probe ++
      [byte s.timing.sample, byte s.timing.p, byte s.timing.k] ++ be16 s.timing.window ++ [byte s.mgmt.dropped]

/-! ### Referee lines -/

/-- LOAD_LINE: the three tests in their order, RANGE for a line or a record byte out of its values, FIELD-LIVE while its
field is not IDLE, and FIELD-LIVE for a HALL-STOP line, or one that becomes one, while any field is not IDLE; passing them it
writes the record, takes both levels from the pin and clears the edge flag, without a stop. CLEAR_LINE_FLAGS clears the edge
flags of a field's four lines, or of all sixteen, and nothing else, and refuses another field with RANGE (R78, R83). -/
def Obligations.LineCommands : Prop :=
  (∀ (s : State) (f : Frame) (rest : List Frame) (a b : Byte), CommandReady s f rest 0x30 [a, b] →
    (16 ≤ a.toNat ∨ 32 ≤ b.toNat ∨ 4 ≤ b.toNat % 8 →
      exec .loadLine s = .next (s.replied f rest 0x30 (.refused .range))) ∧
    (∀ (n : LineId) (role : LineRole) (level : Level) (filter : Bool), a = byte n.val →
      b = byte (role.code + 8 * Level.code level + 16 * bit filter) →
      ((s.fields.at (lineField n)).phase ≠ .idle →
        exec .loadLine s = .next (s.replied f rest 0x30 (.refused .fieldLive))) ∧
      ((s.lines.at n).role = .hallStop ∨ role = .hallStop → (∃ g, (s.fields.at g).phase ≠ .idle) →
        exec .loadLine s = .next (s.replied f rest 0x30 (.refused .fieldLive))) ∧
      ((s.fields.at (lineField n)).phase = .idle →
        ((s.lines.at n).role = .hallStop ∨ role = .hallStop → ∀ g, (s.fields.at g).phase = .idle) →
        exec .loadLine s = .next (({ s with lines := s.lines.put n ⟨role, level, filter, s.pins.at n, s.pins.at n, false⟩ }).replied
          f rest 0x30 (.done []))))) ∧
  (∀ (s : State) (f : Frame) (rest : List Frame) (b : Byte), CommandReady s f rest 0x31 [b] →
    (4 ≤ b.toNat → b ≠ 0xFF#8 → exec .clearLineFlags s = .next (s.replied f rest 0x31 (.refused .range))) ∧
    (∀ g, b = fieldByte g → ∃ t, exec .clearLineFlags s = .next t ∧
      (∀ n, t.lines.at n = { s.lines.at n with edge := if lineField n = g then false else (s.lines.at n).edge }) ∧
      t = ({ s with lines := t.lines }).replied f rest 0x31 (.done [])) ∧
    (b = 0xFF#8 → ∃ t, exec .clearLineFlags s = .next t ∧
      (∀ n, t.lines.at n = { s.lines.at n with edge := false }) ∧
      t = ({ s with lines := t.lines }).replied f rest 0x31 (.done [])))

/-- LINE_SAMPLE: a filtered line takes the new sample when it equals the previous one, and keeps it as the previous
sample; an unfiltered line uses no sample. A STOP or HALL-STOP line that becomes active sets its edge flag and stops its
field, or all four, the lowest line giving the cause; each field stopped enters STOPPED whole, one after another in line order,
a hall stop's in the order A to D. A combination that comes to hold clears the edge flags of its field's STOP lines and resumes
the field if no line stands in the way. The two clauses are of samples that do not bring both, whose order is free; that a stop
line which becomes inactive in the sample that completes a combination no longer stands in its way, and that the combinations
of several fields come in the order A to D, are the model's choices (notes/assumptions/7.md) (R60, R61, R63, R72, R74, R75,
R76, R77, R80, R82, R105, R109). -/
def Obligations.LineSampleFilters : Prop :=
  ∀ (s : State) (pins : BitVec 16), s.mgmt.mode ≠ .starting →
    ∃ t, exec (.lineSample pins) s = .next t ∧ t.sampleLeft = some s.timing.sample ∧
      (∀ n, t.pins.at n = if (s.lines.at n).filterOn then (if pins.getLsbD n.val then .high else .low) else s.pins.at n) ∧
      LineKeeps s t ∧
      (∀ n : LineId, (t.lines.at n).role = (s.lines.at n).role ∧ (t.lines.at n).activeLevel = (s.lines.at n).activeLevel ∧
        (t.lines.at n).filterOn = (s.lines.at n).filterOn ∧
        ((s.lines.at n).filterOn = false →
          (t.lines.at n).filtered = (s.lines.at n).filtered ∧ (t.lines.at n).previous = (s.lines.at n).previous) ∧
        ((s.lines.at n).filterOn = true →
          (t.lines.at n).previous = (if pins.getLsbD n.val then .high else .low) ∧
          (t.lines.at n).filtered = (if (if pins.getLsbD n.val then Level.high else .low) = (s.lines.at n).previous
            then (if pins.getLsbD n.val then .high else .low) else (s.lines.at n).filtered))) ∧
      ((∀ g, Combined t.lines g → Combined s.lines g) →
        (∀ n, ((t.lines.at n).edge = true ↔ (s.lines.at n).edge = true ∨
          (NewlyActive s t n ∧ ((s.lines.at n).role = .stop ∨ (s.lines.at n).role = .hallStop)))) ∧
        ∃ entered : List (LineId × FieldId),
          entered.Pairwise (fun x y => x.1 < y.1 ∨ (x.1 = y.1 ∧ x.2 < y.2)) ∧
          (∀ n g, (n, g) ∈ entered ↔ (s.fields.at g).phase.stoppable = true ∧ (s.fields.at g).stopped = none ∧
            NewlyActive s t n ∧ StopLineOf s g n ∧ ∀ k, k < n → NewlyActive s t k → ¬ StopLineOf s g k) ∧
          StopsEntered (entered.map fun x => (x.2, if (s.lines.at x.1).role = .stop then .line x.1 else .hall x.1)) s t) ∧
      ((∀ n, NewlyActive s t n → (s.lines.at n).role ≠ .stop ∧ (s.lines.at n).role ≠ .hallStop) →
        (∀ n, ((t.lines.at n).edge = true ↔ (s.lines.at n).edge = true ∧
          ¬ ((s.lines.at n).role = .stop ∧ Combined t.lines (lineField n) ∧ ¬ Combined s.lines (lineField n)))) ∧
        t.link = s.link ∧ t.slots = s.slots ∧
        ∃ resumed : List FieldId, resumed.Pairwise (· < ·) ∧
          (∀ g, g ∈ resumed ↔ Combined t.lines g ∧ ¬ Combined s.lines g ∧ Resumable s t.lines g) ∧
          (∀ g, t.fields.at g = { s.fields.at g with stopped := if g ∈ resumed then none else (s.fields.at g).stopped } ∧
            t.beacons.urgent.at g = (s.beacons.urgent.at g || decide (g ∈ resumed))) ∧
          (s.mgmt.notices.length + resumed.length ≤ 16 → t.mgmt.notices = s.mgmt.notices ++ resumed.mapIdx fun k g =>
            { dropped := if k = 0 then s.mgmt.dropped else 0, content := .resume g .combination }))

/-- UNFILTERED_LINE_CHANGE: an unfiltered STOP line that changes to its active level sets its edge flag and stops its
field with cause LINE n when the field is RUNNING in a stoppable phase; a HALL-STOP line does so to all four fields, in the
order A to D, with cause HALL n; each field stopped enters STOPPED whole; a STOPPED field keeps its cause, and a field in IDLE
or POST is left alone. A RESUME-KEY line that completes its field's combination clears the edge flags of the field's STOP lines
and resumes the field if no line stands in the way. Any other change moves the line alone, and a filtered line does not follow
its pin (R60, R61, R62, R63, R64, R72, R76, R77, R80, R82, R105, R109). -/
def Obligations.UnfilteredStopLineStopsItsField : Prop :=
  ∀ (s : State) (n : LineId) (v : Level), s.mgmt.mode ≠ .starting →
    ((s.lines.at n).filterOn = false → (s.lines.at n).role = .stop → v = (s.lines.at n).activeLevel →
      (s.lines.at n).filtered ≠ v →
      ∃ t, exec (.unfilteredLineChange n v) s = .next t ∧
        t.lines = s.lines.put n { s.lines.at n with filtered := v, edge := true } ∧
        t.fields = s.fields.put (lineField n) { s.fields.at (lineField n) with
          stopped := if (s.fields.at (lineField n)).phase.stoppable = true
            then some ((s.fields.at (lineField n)).stopped.getD (.line n)) else (s.fields.at (lineField n)).stopped } ∧
        StopsEntered (if (s.fields.at (lineField n)).phase.stoppable = true ∧ (s.fields.at (lineField n)).stopped = none
          then [(lineField n, .line n)] else []) s t ∧
        t.pins = s.pins.put n v ∧ t.sampleLeft = s.sampleLeft ∧ LineKeeps s t) ∧
    ((s.lines.at n).filterOn = false → (s.lines.at n).role = .hallStop → v = (s.lines.at n).activeLevel →
      (s.lines.at n).filtered ≠ v →
      ∃ t, exec (.unfilteredLineChange n v) s = .next t ∧
        t.lines = s.lines.put n { s.lines.at n with filtered := v, edge := true } ∧
        (∀ g, t.fields.at g = { s.fields.at g with
            stopped := if (s.fields.at g).phase.stoppable = true
              then some ((s.fields.at g).stopped.getD (.hall n)) else (s.fields.at g).stopped }) ∧
        StopsEntered (((allOf 4).filter fun g => (s.fields.at g).phase.stoppable && (s.fields.at g).stopped.isNone).map
          fun g => (g, .hall n)) s t ∧
        t.pins = s.pins.put n v ∧ t.sampleLeft = s.sampleLeft ∧ LineKeeps s t) ∧
    ((s.lines.at n).filterOn = false → (s.lines.at n).role = .resumeKey → v = (s.lines.at n).activeLevel →
      (s.lines.at n).filtered ≠ v →
      (∀ k, k ≠ n → lineField k = lineField n → (s.lines.at k).role = .resumeKey →
        (s.lines.at k).filtered = (s.lines.at k).activeLevel) →
      ∃ t, exec (.unfilteredLineChange n v) s = .next t ∧
        (∀ k, t.lines.at k = { s.lines.at k with
          filtered := if k = n then v else (s.lines.at k).filtered
          edge := if (s.lines.at k).role = .stop ∧ lineField k = lineField n then false else (s.lines.at k).edge }) ∧
        (Resumable s s.lines (lineField n) →
          t.fields = s.fields.put (lineField n) { s.fields.at (lineField n) with stopped := none } ∧
          t.beacons.urgent.at (lineField n) = true ∧
          (s.mgmt.notices.length < 16 → t.mgmt.notices = s.mgmt.notices ++
            [{ dropped := s.mgmt.dropped, content := .resume (lineField n) .combination }])) ∧
        (¬ Resumable s s.lines (lineField n) → t.fields = s.fields ∧ t.beacons = s.beacons ∧ t.mgmt = s.mgmt) ∧
        t.link = s.link ∧ t.slots = s.slots ∧ t.pins = s.pins.put n v ∧ t.sampleLeft = s.sampleLeft ∧ LineKeeps s t) ∧
    ((s.lines.at n).filterOn = false →
      v ≠ (s.lines.at n).activeLevel ∨ (s.lines.at n).filtered = v ∨ (s.lines.at n).role = .unused ∨
        ((s.lines.at n).role = .resumeKey ∧ ∃ k, k ≠ n ∧ lineField k = lineField n ∧ (s.lines.at k).role = .resumeKey ∧
          (s.lines.at k).filtered ≠ (s.lines.at k).activeLevel) →
      ∃ t, exec (.unfilteredLineChange n v) s = .next t ∧
        t.lines = s.lines.put n { s.lines.at n with filtered := v } ∧ t.fields = s.fields ∧ t.beacons = s.beacons ∧
        t.mgmt = s.mgmt ∧ t.link = s.link ∧ t.slots = s.slots ∧ t.pins = s.pins.put n v ∧ t.sampleLeft = s.sampleLeft ∧
        LineKeeps s t) ∧
    ((s.lines.at n).filterOn = true →
      ∃ t, exec (.unfilteredLineChange n v) s = .next t ∧ t.lines = s.lines ∧ t.fields = s.fields ∧
        t.beacons = s.beacons ∧ t.mgmt = s.mgmt ∧ t.link = s.link ∧ t.slots = s.slots ∧ t.pins = s.pins.put n v ∧
        t.sampleLeft = s.sampleLeft ∧ LineKeeps s t)

/-! ### Elements and score rules -/

/-- LOAD_ELEMENT: the six tests in their order, RANGE three times, FIELD-LIVE, STATE and DUPLICATE; passing them it writes
the entry whole, its times clamped, with presence UNKNOWN and every other part empty, keeps the element's score rules and
event count, and takes the element out of the SAFE queue (R86, R87, R139, R141). -/
def Obligations.LoadElementResult : Prop :=
  ∀ (s : State) (f : Frame) (rest : List Frame) (eb addr fb ob kb am pm h1 h2 c1 c2 l1 l2 db : Byte),
    CommandReady s f rest 0x20 [eb, addr, fb, ob, kb, am, pm, h1, h2, c1, c2, l1, l2, db] →
    (48 ≤ eb.toNat ∨ addr.toNat = 0 ∨ 63 < addr.toNat ∨ 4 ≤ fb.toNat ∨ 3 ≤ ob.toNat ∨ kb.toNat = 0 ∨ 4 ≤ kb.toNat ∨
        8 ≤ pm.toNat ∨ 2 ≤ db.toNat →
      exec .loadElement s = .next (s.replied f rest 0x20 (.refused .range))) ∧
    ((kindOf kb = some .sensing ∧ am ≠ 0) ∨
        ((kindOf kb = some .actuating ∨ kindOf kb = some .both) ∧ (am = 0 ∨ pm = 0)) →
      exec .loadElement s = .next (s.replied f rest 0x20 (.refused .range))) ∧
    (∀ (e : ElementId) (g : FieldId) (o : Owner) (k : ElementKind) (d : Discipline),
      eb = elementByte e → 1 ≤ addr.toNat → addr.toNat ≤ 63 → fb = fieldByte g → ownerOf ob = some o →
      kindOf kb = some k → pm.toNat < 8 → disciplineOf db = some d → (k = .sensing → am = 0) →
      (k ≠ .sensing → am ≠ 0 ∧ pm ≠ 0) →
      (o = .shared → (∃ j r, (s.elements.at e).rules.at j = some r ∧ (r.beneficiary = .owner ∨ r.beneficiary = .opponent)) →
        exec .loadElement s = .next (s.replied f rest 0x20 (.refused .range))) ∧
      ((o = .shared → ∀ j r, (s.elements.at e).rules.at j = some r → r.beneficiary ≠ .owner ∧ r.beneficiary ≠ .opponent) →
        ((s.fields.at g).phase ≠ .idle ∨ (∃ l, s.loadedAt e = some l ∧ (s.fields.at l.entry.field).phase ≠ .idle) →
          exec .loadElement s = .next (s.replied f rest 0x20 (.refused .fieldLive))) ∧
        ((s.fields.at g).phase = .idle → (∀ l, s.loadedAt e = some l → (s.fields.at l.entry.field).phase = .idle) →
          (∀ l, s.loadedAt e = some l → l.act ≠ none →
            exec .loadElement s = .next (s.replied f rest 0x20 (.refused .state))) ∧
          ((∀ l, s.loadedAt e = some l → l.act = none) →
            ((∃ j l, j ≠ e ∧ s.loadedAt j = some l ∧ l.entry.busAddr = addr) →
              exec .loadElement s = .next (s.replied f rest 0x20 (.refused .duplicate))) ∧
            ((∀ j l, j ≠ e → s.loadedAt j = some l → l.entry.busAddr ≠ addr) →
              ∃ t, exec .loadElement s = .next t ∧
                t.loadedAt e = some {
                  entry := { busAddr := addr, field := g, owner := o, kind := k, actionMask := am, phaseMask := pm.setWidth 3,
                             holdLimit := clamp 100 10000 (nat16 h1 h2), coolDown := clamp 0 5000 (nat16 c1 c2),
                             actionLimit := clamp 100 20000 (nat16 l1 l2), discipline := d }
                  claims := [], hold := none, act := none, lastRelease := none, lastAlliance := none, presence := .unknown,
                  misses := 0, actToggle := false, fetchToggle := false, retries := 0, fetchMark := false, resend := none,
                  actionPoll := none, sensor := none } ∧
                (∀ j, (t.elements.at j).rules = (s.elements.at j).rules ∧
                  (t.elements.at j).eventCount = (s.elements.at j).eventCount) ∧
                (∀ j, j ≠ e → (t.loadedAt j).map (·.entry) = (s.loadedAt j).map (·.entry)) ∧ e ∉ t.bus.safeQueue ∧
                t.link = (s.replied f rest 0x20 (.done [])).link ∧ t.mgmt = s.mgmt ∧ t.fields = s.fields ∧
                t.slots = s.slots ∧ t.tallies = s.tallies ∧ t.stations = s.stations ∧ t.lines = s.lines ∧
                t.timing = s.timing)))))

/-- CLEAR_ELEMENT_ENTRY empties a loaded entry of an IDLE field without an actuation, and CLEAR_ELEMENT_FAULT returns a
FAULTED element to UNKNOWN with its miss count 0 and NOTICE ELEMENT; each is refused as its rule says, with RANGE for an
element above 47 (R88, R144). -/
def Obligations.ClearElementCommands : Prop :=
  (∀ (s : State) (f : Frame) (rest : List Frame) (b : Byte), CommandReady s f rest 0x21 [b] → 48 ≤ b.toNat →
    exec .clearElementEntry s = .next (s.replied f rest 0x21 (.refused .range))) ∧
  (∀ (s : State) (f : Frame) (rest : List Frame) (b : Byte) (e : ElementId),
    CommandReady s f rest 0x21 [b] → elementOf b = some e →
    (s.loadedAt e = none → exec .clearElementEntry s = .next (s.replied f rest 0x21 (.done []))) ∧
    (∀ l, s.loadedAt e = some l → (s.fields.at l.entry.field).phase ≠ .idle →
      exec .clearElementEntry s = .next (s.replied f rest 0x21 (.refused .fieldLive))) ∧
    (∀ l, s.loadedAt e = some l → (s.fields.at l.entry.field).phase = .idle → l.act ≠ none →
      exec .clearElementEntry s = .next (s.replied f rest 0x21 (.refused .state))) ∧
    (∀ l, s.loadedAt e = some l → (s.fields.at l.entry.field).phase = .idle → l.act = none →
      ∃ t, exec .clearElementEntry s = .next t ∧ t.loadedAt e = none ∧ e ∉ t.bus.safeQueue ∧
        (∀ j, (t.elements.at j).rules = (s.elements.at j).rules) ∧
        (∀ j, j ≠ e → (t.loadedAt j).map (·.entry) = (s.loadedAt j).map (·.entry)) ∧
        t.link = (s.replied f rest 0x21 (.done [])).link ∧ t.mgmt = s.mgmt ∧ t.fields = s.fields ∧ t.slots = s.slots)) ∧
  (∀ (s : State) (f : Frame) (rest : List Frame) (b : Byte), CommandReady s f rest 0x22 [b] → 48 ≤ b.toNat →
    exec .clearElementFault s = .next (s.replied f rest 0x22 (.refused .range))) ∧
  (∀ (s : State) (f : Frame) (rest : List Frame) (b : Byte) (e : ElementId),
    CommandReady s f rest 0x22 [b] → elementOf b = some e →
    (s.loadedAt e = none → exec .clearElementFault s = .next (s.replied f rest 0x22 (.refused .noEntry))) ∧
    (∀ l, s.loadedAt e = some l → (∀ c, l.presence ≠ .faulted c) →
      exec .clearElementFault s = .next (s.replied f rest 0x22 (.refused .state))) ∧
    (∀ l c, s.loadedAt e = some l → l.presence = .faulted c →
      ∃ t l', exec .clearElementFault s = .next t ∧ t.loadedAt e = some l' ∧
        l' = { l with presence := .unknown, misses := 0 } ∧
        (s.mgmt.notices.length < 16 → t.mgmt.notices =
          s.mgmt.notices ++ [{ dropped := s.mgmt.dropped, content := .element e .unknown }]) ∧
        t.link = (s.replied f rest 0x22 (.done [])).link ∧ t.bus.safeQueue = s.bus.safeQueue ∧ t.fields = s.fields ∧
        t.slots = s.slots ∧ t.beacons = s.beacons))

/-- LOAD_SCORE_RULE writes one rule whole, each point value clamped to 99, and nothing else; an operand out of its range
is refused with RANGE, so is a rule that names the owner for a SHARED element, and a field that is not IDLE gives
FIELD-LIVE (R149). -/
def Obligations.LoadScoreRuleResult : Prop :=
  (∀ (s : State) (f : Frame) (rest : List Frame) (eb kb a t e' bb : Byte),
    CommandReady s f rest 0x23 [eb, kb, a, t, e', bb] → 48 ≤ eb.toNat ∨ 4 ≤ kb.toNat ∨ 5 ≤ bb.toNat →
    exec .loadScoreRule s = .next (s.replied f rest 0x23 (.refused .range))) ∧
  (∀ (s : State) (f : Frame) (rest : List Frame) (eb kb a t e' bb : Byte) (e : ElementId) (k : EventKind) (w : Beneficiary),
    CommandReady s f rest 0x23 [eb, kb, a, t, e', bb] → elementOf eb = some e → eventKindOf kb = some k →
    beneficiaryOf bb = some w →
    ((∀ l, s.loadedAt e = some l → (s.fields.at l.entry.field).phase = .idle ∧
        (l.entry.owner = .shared → w ≠ .owner ∧ w ≠ .opponent)) →
      exec .loadScoreRule s = .next ((s.updElement e fun x => { x with
        rules := x.rules.put k (some { auto := min 99 a.toNat, teleop := min 99 t.toNat, endgame := min 99 e'.toNat,
                                       beneficiary := w }) }).replied f rest 0x23 (.done []))) ∧
    (∀ l, s.loadedAt e = some l → l.entry.owner = .shared → w = .owner ∨ w = .opponent →
      exec .loadScoreRule s = .next (s.replied f rest 0x23 (.refused .range))) ∧
    (∀ l, s.loadedAt e = some l → (l.entry.owner = .shared → w ≠ .owner ∧ w ≠ .opponent) →
      (s.fields.at l.entry.field).phase ≠ .idle →
      exec .loadScoreRule s = .next (s.replied f rest 0x23 (.refused .fieldLive))))

/-- BUS_PAUSE and BUS_RESUME: a RUNNING bus becomes PAUSED when the pair is idle and PAUSING otherwise; a paused one
becomes RUNNING; each is refused as its rule says (R145, R146). -/
def Obligations.BusPauseAndResume : Prop :=
  (∀ (s : State) (f : Frame) (rest : List Frame), CommandReady s f rest 0x33 [] →
    ((∃ g, (s.fields.at g).phase.stoppable = true) →
      exec .busPause s = .next (s.replied f rest 0x33 (.refused .fieldLive))) ∧
    ((∀ g, (s.fields.at g).phase.stoppable = false) → s.bus.state = .running → exec .busPause s =
      .next (({ s with bus := { s.bus with state := if s.bus.activity = Activity.idle then .paused else .pausing } }).replied
        f rest 0x33 (.done []))) ∧
    ((∀ g, (s.fields.at g).phase.stoppable = false) → s.bus.state = .pausing ∨ s.bus.state = .paused →
      exec .busPause s = .next (s.replied f rest 0x33 (.done [])))) ∧
  (∀ (s : State) (f : Frame) (rest : List Frame), CommandReady s f rest 0x34 [] →
    (s.bus.state = .running ∨ s.bus.state = .startingIdle →
      exec .busResume s = .next (s.replied f rest 0x34 (.refused .state))) ∧
    (s.bus.state = .pausing ∨ s.bus.state = .paused →
      ∃ t, exec .busResume s = .next t ∧ t.bus.state = .running ∧ t.link = (s.replied f rest 0x34 (.done [])).link ∧
        (s.bus.activity ≠ .idle → t.bus.activity = s.bus.activity) ∧ t.bus.safeQueue = s.bus.safeQueue ∧
        t.fields = s.fields ∧ t.slots = s.slots ∧ t.mgmt = s.mgmt ∧
        (∀ e, (t.loadedAt e).map (·.entry) = (s.loadedAt e).map (·.entry))))


/-! ### The score tally -/

/-- The digit adder: the four digits are added from the units with a carry, a carry out of the thousands gives 9999 and
sets the cap mark, and no other addition changes the mark; so the tally is the sum, at most 9999 (R155). -/
def Obligations.DigitAdder : Prop :=
  ∀ (t a : Bcd) (cap : Bool) (n : Nat), n ≤ 9999 → a = Bcd.ofNat n →
    a.toNat = n ∧
    (∃ c1 c2 c3 : Nat,
      c1 = (if t.units.val + a.units.val ≤ 9 then 0 else 1) ∧
      c2 = (if t.tens.val + a.tens.val + c1 ≤ 9 then 0 else 1) ∧
      c3 = (if t.hundreds.val + a.hundreds.val + c2 ≤ 9 then 0 else 1) ∧
      (t.thousands.val + a.thousands.val + c3 ≤ 9 →
        (addPoints t cap n).2 = cap ∧
        (addPoints t cap n).1.units.val = t.units.val + a.units.val - 10 * c1 ∧
        (addPoints t cap n).1.tens.val = t.tens.val + a.tens.val + c1 - 10 * c2 ∧
        (addPoints t cap n).1.hundreds.val = t.hundreds.val + a.hundreds.val + c2 - 10 * c3 ∧
        (addPoints t cap n).1.thousands.val = t.thousands.val + a.thousands.val + c3) ∧
      (9 < t.thousands.val + a.thousands.val + c3 →
        addPoints t cap n = ({ thousands := 9, hundreds := 9, tens := 9, units := 9 }, true))) ∧
    (addPoints t cap n).1.toNat = min 9999 (t.toNat + n) ∧
    (addPoints t cap n).2 = (cap || decide (9999 < t.toNat + n))

/-- PENALTY: out of its ranges it is refused with RANGE, in IDLE or PRE with STATE; otherwise count times points are
added to the other alliance's tally, which may be capped, and nothing else changes but the reply (R161). -/
def Obligations.PenaltyResult : Prop :=
  ∀ (s : State) (f : Frame) (rest : List Frame) (fb ab points count : Byte),
    CommandReady s f rest 0x50 [fb, ab, points, count] →
    (4 ≤ fb.toNat ∨ 2 ≤ ab.toNat ∨ points.toNat = 0 ∨ 99 < points.toNat ∨ count.toNat = 0 ∨ 15 < count.toNat →
      exec .penalty s = .next (s.replied f rest 0x50 (.refused .range))) ∧
    (∀ (g : FieldId) (a : Alliance), fb = fieldByte g → ab = byte a.code → 1 ≤ points.toNat → points.toNat ≤ 99 →
      1 ≤ count.toNat → count.toNat ≤ 15 →
      ((s.fields.at g).phase = .idle ∨ (s.fields.at g).phase = .pre →
        exec .penalty s = .next (s.replied f rest 0x50 (.refused .state))) ∧
      ((s.fields.at g).phase ≠ .idle → (s.fields.at g).phase ≠ .pre →
        ∃ t, exec .penalty s = .next t ∧
          ((t.tallies.at g).tally a.other).toNat =
            min 9999 (((s.tallies.at g).tally a.other).toNat + count.toNat * points.toNat) ∧
          (t.tallies.at g).cap a.other = ((s.tallies.at g).cap a.other ||
            decide (9999 < ((s.tallies.at g).tally a.other).toNat + count.toNat * points.toNat)) ∧
          (t.tallies.at g).tally a = (s.tallies.at g).tally a ∧ (t.tallies.at g).cap a = (s.tallies.at g).cap a ∧
          (t.tallies.at g).eastCount = (s.tallies.at g).eastCount ∧
          (t.tallies.at g).westCount = (s.tallies.at g).westCount ∧
          (∀ h, h ≠ g → t.tallies.at h = s.tallies.at h) ∧
          t = ({ s with tallies := t.tallies }).replied f rest 0x50 (.done ([fieldByte g, byte a.other.code] ++
            ((t.tallies.at g).tally a.other).bytes ++ [byte (bit ((t.tallies.at g).cap a.other))]))))

/-- CORRECT: out of its ranges it is refused with RANGE, in IDLE or PRE with STATE; otherwise the signed amount is added
to the alliance's tally, the result kept within 0 and 9999, the cap mark set only above 9999, and nothing else changes
but the reply (R162). -/
def Obligations.CorrectResult : Prop :=
  ∀ (s : State) (f : Frame) (rest : List Frame) (fb ab m1 m2 : Byte),
    CommandReady s f rest 0x51 [fb, ab, m1, m2] →
    (4 ≤ fb.toNat ∨ 2 ≤ ab.toNat ∨ int16 m1 m2 < -999 ∨ 999 < int16 m1 m2 →
      exec .correct s = .next (s.replied f rest 0x51 (.refused .range))) ∧
    (∀ (g : FieldId) (a : Alliance), fb = fieldByte g → ab = byte a.code → -999 ≤ int16 m1 m2 → int16 m1 m2 ≤ 999 →
      ((s.fields.at g).phase = .idle ∨ (s.fields.at g).phase = .pre →
        exec .correct s = .next (s.replied f rest 0x51 (.refused .state))) ∧
      ((s.fields.at g).phase ≠ .idle → (s.fields.at g).phase ≠ .pre →
        ∃ t, exec .correct s = .next t ∧
          (((t.tallies.at g).tally a).toNat : Int) =
            max 0 (min 9999 ((((s.tallies.at g).tally a).toNat : Int) + int16 m1 m2)) ∧
          (t.tallies.at g).cap a = ((s.tallies.at g).cap a ||
            decide (9999 < (((s.tallies.at g).tally a).toNat : Int) + int16 m1 m2)) ∧
          (t.tallies.at g).tally a.other = (s.tallies.at g).tally a.other ∧
          (t.tallies.at g).cap a.other = (s.tallies.at g).cap a.other ∧
          (t.tallies.at g).eastCount = (s.tallies.at g).eastCount ∧
          (t.tallies.at g).westCount = (s.tallies.at g).westCount ∧
          (∀ h, h ≠ g → t.tallies.at h = s.tallies.at h) ∧
          t = ({ s with tallies := t.tallies }).replied f rest 0x51 (.done ([fieldByte g, byte a.code] ++
            ((t.tallies.at g).tally a).bytes ++ [byte (bit ((t.tallies.at g).cap a))]))))

/-- One report of a loaded element: its count joins the element's event count; scored, its points join the credited
alliance's tally and its count that alliance's event count, with NOTICE SCORE; not scored, only a notice says why. A report is
scored in AUTO, PAUSE, TELEOP and ENDGAME, and in POST while the match was not aborted and its grace runs; EAST and WEST
credit themselves, OWNER the element's owner, OPPONENT the other alliance, HOLDER that of the slot that holds the element, or
none (R150, R151, R153, R154, R155, R158, R159, R160). -/
def Obligations.ReportIsJudged : Prop :=
  (∀ m : MatchRecord, scoredByPhase m = true ↔
    m.phase = .auto ∨ m.phase = .pause ∨ m.phase = .teleop ∨ m.phase = .endgame ∨
      (m.phase = .post ∧ m.aborted = false ∧ 0 < m.grace)) ∧
  (∀ (s : State) (l : Loaded),
    s.creditedAlliance l .east = some .east ∧ s.creditedAlliance l .west = some .west ∧
    (l.entry.owner = .east → s.creditedAlliance l .owner = some .east ∧ s.creditedAlliance l .opponent = some .west) ∧
    (l.entry.owner = .west → s.creditedAlliance l .owner = some .west ∧ s.creditedAlliance l .opponent = some .east) ∧
    (l.hold = none → s.creditedAlliance l .holder = none) ∧
    (∀ h p, l.hold = some h → (s.slots.at h.slot).placing = some p → s.creditedAlliance l .holder = some p.alliance)) ∧
  ∀ (s : State) (e : ElementId) (l : Loaded) (k : EventKind) (n : Nat), s.loadedAt e = some l → n ≤ 15 →
    s.mgmt.notices.length < 16 →
    (∀ j, ((s.takeReport e k n).elements.at j).eventCount =
      if j = e then min 65535 ((s.elements.at e).eventCount + n) else (s.elements.at j).eventCount) ∧
    (s.takeReport e k n).fields = s.fields ∧ (s.takeReport e k n).link = s.link ∧ (s.takeReport e k n).bus = s.bus ∧
    (scoredByPhase (s.fields.at l.entry.field) = false →
      (s.takeReport e k n).tallies = s.tallies ∧ (s.takeReport e k n).mgmt.notices = s.mgmt.notices ++
        [{ dropped := s.mgmt.dropped, content := .late l.entry.field e k n (s.fields.at l.entry.field).phase }]) ∧
    (scoredByPhase (s.fields.at l.entry.field) = true → (s.elements.at e).rules.at k = none →
      (s.takeReport e k n).tallies = s.tallies ∧ (s.takeReport e k n).mgmt.notices = s.mgmt.notices ++
        [{ dropped := s.mgmt.dropped, content := .unattributed l.entry.field e k n .noRule }]) ∧
    (∀ r, scoredByPhase (s.fields.at l.entry.field) = true → (s.elements.at e).rules.at k = some r →
      r.beneficiary = .holder → l.hold = none →
      (s.takeReport e k n).tallies = s.tallies ∧ (s.takeReport e k n).mgmt.notices = s.mgmt.notices ++
        [{ dropped := s.mgmt.dropped, content := .unattributed l.entry.field e k n .noHolder }]) ∧
    (∀ r a points, scoredByPhase (s.fields.at l.entry.field) = true → (s.elements.at e).rules.at k = some r →
      r.auto ≤ 99 → r.teleop ≤ 99 → r.endgame ≤ 99 →
      s.creditedAlliance l r.beneficiary = some a →
      points = n * (match (s.fields.at l.entry.field).phase with
        | .auto | .pause => r.auto
        | .teleop => r.teleop
        | .endgame => r.endgame
        | .post => if 0 < (s.fields.at l.entry.field).durE then r.endgame else r.teleop
        | .idle | .pre => 0) →
      ∃ tally : FieldTally, (s.takeReport e k n).tallies = s.tallies.put l.entry.field tally ∧
        (tally.tally a).toNat = min 9999 (((s.tallies.at l.entry.field).tally a).toNat + points) ∧
        tally.tally a.other = (s.tallies.at l.entry.field).tally a.other ∧
        tally.cap a = ((s.tallies.at l.entry.field).cap a ||
          decide (9999 < ((s.tallies.at l.entry.field).tally a).toNat + points)) ∧
        tally.cap a.other = (s.tallies.at l.entry.field).cap a.other ∧
        tally.eastCount = (if a = .east then min 65535 ((s.tallies.at l.entry.field).eastCount + n)
          else (s.tallies.at l.entry.field).eastCount) ∧
        tally.westCount = (if a = .west then min 65535 ((s.tallies.at l.entry.field).westCount + n)
          else (s.tallies.at l.entry.field).westCount) ∧
        (s.takeReport e k n).mgmt.notices = s.mgmt.notices ++
          [{ dropped := s.mgmt.dropped, content := .score l.entry.field e k n points a (tally.tally a) (tally.cap a) }])

/-! ### Matches -/

/-- LOAD_MATCH: the tests in their order; a match that passes them is written to the field's record, its slots are
placed, the scores cleared, and the field is found STOPPED by an active stop line and then safed (R56, R57, R58, R47, R55,
R109, R139). -/
def Obligations.LoadMatchResult : Prop :=
  ∀ (s : State) (f : Frame) (rest : List Frame) (fb n1 n2 a1 a2 p1 p2 t1 t2 e1 e2 : Byte) (places : List Byte),
    CommandReady s f rest 0x40 ([fb, n1, n2, a1, a2, p1, p2, t1, t2, e1, e2] ++ places) → places.length = 6 →
    (s.mgmt.mode = .uncommissioned → exec .loadMatch s = .next (s.replied f rest 0x40 (.refused .notCommissioned))) ∧
    (s.mgmt.mode = .commissioned →
      4 ≤ fb.toNat ∨ nat16 n1 n2 = 0 ∨ 999 < nat16 n1 n2 ∨ 3000 < nat16 a1 a2 ∨ 1000 < nat16 p1 p2 ∨ nat16 t1 t2 = 0 ∨
        3000 < nat16 t1 t2 ∨ nat16 t1 t2 < nat16 e1 e2 ∨ (∃ b ∈ places, 32 ≤ b.toNat ∧ b.toNat ≠ 255) →
      exec .loadMatch s = .next (s.replied f rest 0x40 (.refused .range))) ∧
    (∀ (g : FieldId) (list : Table 6 (Option SlotId)), s.mgmt.mode = .commissioned → fb = fieldByte g →
      placesOf places = some list → 1 ≤ nat16 n1 n2 → nat16 n1 n2 ≤ 999 → nat16 a1 a2 ≤ 3000 → nat16 p1 p2 ≤ 1000 →
      1 ≤ nat16 t1 t2 → nat16 t1 t2 ≤ 3000 → nat16 e1 e2 ≤ nat16 t1 t2 →
      ((s.fields.at g).phase ≠ .idle → exec .loadMatch s = .next (s.replied f rest 0x40 (.refused .state))) ∧
      ((s.fields.at g).phase = .idle → (∃ i ∈ listedSlots list, (s.slots.at i).team = 0) →
        exec .loadMatch s = .next (s.replied f rest 0x40 (.refused .noEntry))) ∧
      ((s.fields.at g).phase = .idle → (∀ i ∈ listedSlots list, (s.slots.at i).team ≠ 0) →
        (∃ i ∈ listedSlots list, (s.slots.at i).placing ≠ none) →
        exec .loadMatch s = .next (s.replied f rest 0x40 (.refused .slotBusy))) ∧
      ((s.fields.at g).phase = .idle →
        (∀ i ∈ listedSlots list, (s.slots.at i).team ≠ 0 ∧ (s.slots.at i).placing = none) → ¬ (listedSlots list).Nodup →
        exec .loadMatch s = .next (s.replied f rest 0x40 (.refused .duplicate))) ∧
      ((s.fields.at g).phase = .idle →
        (∀ i ∈ listedSlots list, (s.slots.at i).team ≠ 0 ∧ (s.slots.at i).placing = none) → (listedSlots list).Nodup →
        ∃ t, exec .loadMatch s = .next t ∧
          t.fields = s.fields.put g
            { number := nat16 n1 n2, durA := nat16 a1 a2, durP := nat16 p1 p2, durT := nat16 t1 t2, durE := nat16 e1 e2,
              list := list, phase := .pre, stopped := heldCause s.lines g, remaining := 0, aborted := false, grace := 0,
              result := (s.fields.at g).result } ∧
          (∀ (k : Fin 6) (i : SlotId), list.at k = some i → t.slots.at i = { s.slots.at i with
            placing := some { field := g, alliance := if k.val < 3 then .east else .west, position := k.val % 3 + 1 }
            disabled := false, bypassed := false, lastSeq := none, silent := false }) ∧
          (∀ i, i ∉ listedSlots list → t.slots.at i = { s.slots.at i with
            silent := if s.slotField i = some g then false else (s.slots.at i).silent }) ∧
          (∀ h, h ≠ g → t.tallies.at h = s.tallies.at h) ∧
          (t.tallies.at g).east.toNat = 0 ∧ (t.tallies.at g).west.toNat = 0 ∧ (t.tallies.at g).eastCap = false ∧
          (t.tallies.at g).westCap = false ∧ (t.tallies.at g).eastCount = 0 ∧ (t.tallies.at g).westCount = 0 ∧
          (∀ e, (t.elements.at e).rules = (s.elements.at e).rules ∧ (t.elements.at e).eventCount =
            if (s.loadedAt e).map (·.entry.field) = some g then 0 else (s.elements.at e).eventCount) ∧
          FieldsShut .stopped (if heldCause s.lines g = none then [] else [g]) s t ∧
          (∀ h, t.beacons.urgent.at h = (decide (h = g) || s.beacons.urgent.at h)) ∧
          (s.mgmt.notices.length < 15 → t.mgmt.notices = s.mgmt.notices ++
            [{ dropped := s.mgmt.dropped, content := .phase g .pre (nat16 n1 n2) false }] ++
            (match heldCause s.lines g with
             | some c => [{ dropped := 0, content := .stop g c }]
             | none => [])) ∧
          t.link = (s.replied f rest 0x40 (.done [])).link ∧ t.lines = s.lines ∧ t.stations = s.stations ∧
          t.gate = s.gate ∧ t.timing = s.timing))

/-- START: a field in PRE and RUNNING enters the first timed phase of its durations with 100 times that duration in
milliseconds, and the entry is announced: NOTICE PHASE, the phase event of TELEOP or ENDGAME, and the silence test of the
field's slots, in ascending order; STOPPED it is refused with STOP-HELD, and out of PRE with STATE. RESUME: its three tests in
their order, and the resume of a field that passes them, its phase and remaining time kept. Either refuses a field above 3 with
RANGE (R41, R49, R55, R59, R63, R64, R106, R107). That of the announcements of START the phase event comes before the silent
events, so that a slot both reach is answered PHASE, is the model's choice (notes/assumptions/18.md). -/
def Obligations.StartAndResumeResult : Prop :=
  (∀ p ∈ [(Instr.start, 0x41#8), (.resume, 0x43#8)], ∀ (s : State) (f : Frame) (rest : List Frame) (b : Byte),
    CommandReady s f rest p.2 [b] → 4 ≤ b.toNat → exec p.1 s = .next (s.replied f rest p.2 (.refused .range))) ∧
  (∀ (s : State) (f : Frame) (rest : List Frame) (g : FieldId), CommandReady s f rest 0x41 [fieldByte g] →
      ((s.fields.at g).phase ≠ .pre → exec .start s = .next (s.replied f rest 0x41 (.refused .state))) ∧
      ((s.fields.at g).phase = .pre → (s.fields.at g).stopped ≠ none →
        exec .start s = .next (s.replied f rest 0x41 (.refused .stopHeld))) ∧
      ((s.fields.at g).phase = .pre → (s.fields.at g).stopped = none →
        ∃ t p ms, exec .start s = .next t ∧ FieldKeeps g (s.replied f rest 0x41 (.done [])) t ∧
          (p, ms) = (if 0 < (s.fields.at g).durA then (Phase.auto, 100 * (s.fields.at g).durA)
            else if 0 < (s.fields.at g).durP then (.pause, 100 * (s.fields.at g).durP)
            else if (s.fields.at g).durE < (s.fields.at g).durT then (.teleop, 100 * (s.fields.at g).durT)
            else (.endgame, 100 * (s.fields.at g).durE)) ∧
          t.fields.at g = { s.fields.at g with phase := p, remaining := ms } ∧ PhaseAnnounced g p s t)) ∧
  (∀ (s : State) (f : Frame) (rest : List Frame) (g : FieldId), CommandReady s f rest 0x43 [fieldByte g] →
      ((s.fields.at g).stopped = none → exec .resume s = .next (s.replied f rest 0x43 (.refused .state))) ∧
      ((s.fields.at g).stopped ≠ none →
        (∃ n, ((s.lines.at n).role = .stop ∧ lineField n = g ∨ (s.lines.at n).role = .hallStop) ∧
          (s.lines.at n).filtered = (s.lines.at n).activeLevel) →
        exec .resume s = .next (s.replied f rest 0x43 (.refused .stopHeld))) ∧
      ((s.fields.at g).stopped ≠ none →
        (∀ n, (s.lines.at n).role = .stop ∧ lineField n = g ∨ (s.lines.at n).role = .hallStop →
          (s.lines.at n).filtered ≠ (s.lines.at n).activeLevel) →
        (∃ n, ((s.lines.at n).role = .stop ∧ lineField n = g ∨ (s.lines.at n).role = .hallStop) ∧
          (s.lines.at n).edge = true) →
        exec .resume s = .next (s.replied f rest 0x43 (.refused .stopLatched))) ∧
      ((s.fields.at g).stopped ≠ none →
        (∀ n, (s.lines.at n).role = .stop ∧ lineField n = g ∨ (s.lines.at n).role = .hallStop →
          (s.lines.at n).filtered ≠ (s.lines.at n).activeLevel ∧ (s.lines.at n).edge = false) →
        exec .resume s = .next ((({ s with
          fields := s.fields.put g { s.fields.at g with stopped := none },
          beacons := { s.beacons with urgent := s.beacons.urgent.put g true } } : State).queueNotice
            (.resume g .console)).replied f rest 0x43 (.done []))))

/-- STOP and ABORT: a console stop in a stoppable phase stops a RUNNING field with cause CONSOLE and NOTICE STOP, and leaves
a STOPPED one as it is; an abort ends a timed phase in POST with the aborted mark and NOTICE PHASE. Either shuts every gate of
the field, takes away every claim and hold of the slots whose gates it shuts, answered with STOPPED or ABORTED, queues a SAFE
for each PRESENT element of the field, and makes its RUNNING and its sent WAITING-BUS actuations CANCELLING, the latter with
time running 0; out of their phases they are refused with STATE, and for a field above 3 with RANGE (R27, R60, R61, R62, R66,
R105, R109, R139). -/
def Obligations.StopAndAbortResult : Prop :=
  (∀ p ∈ [(Instr.stop, 0x42#8), (.abort, 0x44#8)], ∀ (s : State) (f : Frame) (rest : List Frame) (b : Byte),
    CommandReady s f rest p.2 [b] → 4 ≤ b.toNat → exec p.1 s = .next (s.replied f rest p.2 (.refused .range))) ∧
  (∀ (s : State) (f : Frame) (rest : List Frame) (g : FieldId), CommandReady s f rest 0x42 [fieldByte g] →
    ((s.fields.at g).phase = .idle ∨ (s.fields.at g).phase = .post →
      exec .stop s = .next (s.replied f rest 0x42 (.refused .state))) ∧
    ((s.fields.at g).phase ≠ .idle → (s.fields.at g).phase ≠ .post →
      ∃ t, exec .stop s = .next t ∧ FieldKeeps g (s.replied f rest 0x42 (.done [])) t ∧
        ((s.fields.at g).stopped ≠ none → t.fields = s.fields ∧ t.mgmt = s.mgmt ∧ t.beacons = s.beacons ∧
          t.slots = s.slots ∧ StopsEntered [] s t) ∧
        ((s.fields.at g).stopped = none → StopsEntered [(g, .console)] s t))) ∧
  (∀ (s : State) (f : Frame) (rest : List Frame) (g : FieldId), CommandReady s f rest 0x44 [fieldByte g] →
    ((s.fields.at g).phase = .idle ∨ (s.fields.at g).phase = .pre ∨ (s.fields.at g).phase = .post →
      exec .abort s = .next (s.replied f rest 0x44 (.refused .state))) ∧
    ((s.fields.at g).phase ≠ .idle → (s.fields.at g).phase ≠ .pre → (s.fields.at g).phase ≠ .post →
      ∃ t, exec .abort s = .next t ∧ FieldKeeps g (s.replied f rest 0x44 (.done [])) t ∧
        t.fields.at g = { s.fields.at g with phase := .post, aborted := true, stopped := none, remaining := 0, grace := 0 } ∧
        t.beacons.urgent.at g = true ∧
        (∀ i, s.slotField i = some g → (t.slots.at i).silent = false) ∧
        FieldsShut .aborted [g] s t ∧
        (s.mgmt.notices.length < 16 → t.mgmt.notices = s.mgmt.notices ++
          [{ dropped := s.mgmt.dropped, content := .phase g .post (s.fields.at g).number true }])))

/-- COMMIT writes the result record of a field in POST and returns it to IDLE; RESET_MATCH returns a field in PRE or
POST to IDLE with its result record kept. Both release the listed slots, leave tallies, elements and bus alone, and in
any other phase are refused with STATE; a field above 3 is refused with RANGE. That the notice of RESET_MATCH carries the aborted mark the match had is the
model's choice (notes/assumptions/14.md) (R47, R55, R67, R69). -/
def Obligations.CommitAndResetResult : Prop :=
  ∀ p ∈ [(Instr.commit, 0x45#8), (.resetMatch, 0x46#8)],
    (∀ (s : State) (f : Frame) (rest : List Frame) (b : Byte), CommandReady s f rest p.2 [b] → 4 ≤ b.toNat →
      exec p.1 s = .next (s.replied f rest p.2 (.refused .range))) ∧
    ∀ (s : State) (f : Frame) (rest : List Frame) (g : FieldId), CommandReady s f rest p.2 [fieldByte g] →
    (¬ ((s.fields.at g).phase = .post ∨ (p.1 = .resetMatch ∧ (s.fields.at g).phase = .pre)) →
      exec p.1 s = .next (s.replied f rest p.2 (.refused .state))) ∧
    ((s.fields.at g).phase = .post ∨ (p.1 = .resetMatch ∧ (s.fields.at g).phase = .pre) →
      ∃ t, exec p.1 s = .next t ∧
        t.fields = s.fields.put g
          { number := 0, durA := 0, durP := 0, durT := 0, durE := 0, list := Table.fill 6 none, phase := .idle,
            stopped := none, remaining := 0, aborted := false, grace := 0
            result := if p.1 = .commit then some
                { number := (s.fields.at g).number, east := (s.tallies.at g).east, west := (s.tallies.at g).west,
                  eastCap := (s.tallies.at g).eastCap, westCap := (s.tallies.at g).westCap,
                  aborted := (s.fields.at g).aborted }
              else (s.fields.at g).result } ∧
        (∀ i, i ∈ listedSlots (s.fields.at g).list → t.slots.at i = { s.slots.at i with
          placing := none, disabled := false, bypassed := false, silent := false }) ∧
        (∀ i, i ∉ listedSlots (s.fields.at g).list → t.slots.at i = { s.slots.at i with
          silent := if s.slotField i = some g then false else (s.slots.at i).silent }) ∧
        (∀ h, t.beacons.urgent.at h = (decide (h = g) || s.beacons.urgent.at h)) ∧
        (s.mgmt.notices.length < 16 → t.mgmt.notices = s.mgmt.notices ++
          [{ dropped := s.mgmt.dropped, content := .phase g .idle (s.fields.at g).number (s.fields.at g).aborted }]) ∧
        t.link = (s.replied f rest p.2 (.done [])).link ∧ t.tallies = s.tallies ∧ t.elements = s.elements ∧
        t.bus = s.bus ∧ t.lines = s.lines ∧ t.stations = s.stations ∧ t.gate = s.gate ∧ t.timing = s.timing)

/-- DISABLE_SLOT and BYPASS_SLOT: the flag of a placed slot is set, its gate shuts, its field is marked urgent, and, if
the gate was open, no claim or hold of the slot is left, each answered with DISABLED or BYPASSED; a flag already set changes
nothing, a slot in no match is refused with STATE, and a slot above 31 with RANGE (R27, R71, R105). -/
def Obligations.DisableAndBypassResult : Prop :=
  ∀ p ∈ [(Instr.disableSlot, 0x47#8, Reason.disabled), (.bypassSlot, 0x48#8, .bypassed)],
    (∀ (s : State) (f : Frame) (rest : List Frame) (b : Byte), CommandReady s f rest p.2.1 [b] → 32 ≤ b.toNat →
      exec p.1 s = .next (s.replied f rest p.2.1 (.refused .range))) ∧
    ∀ (s : State) (f : Frame) (rest : List Frame) (i : SlotId), CommandReady s f rest p.2.1 [byte i.val] →
    ((s.slots.at i).placing = none → exec p.1 s = .next (s.replied f rest p.2.1 (.refused .state))) ∧
    ((s.slots.at i).placing ≠ none →
      (p.1 = .disableSlot ∧ (s.slots.at i).disabled = true ∨ p.1 = .bypassSlot ∧ (s.slots.at i).bypassed = true) →
      exec p.1 s = .next (s.replied f rest p.2.1 (.done []))) ∧
    (∀ place, (s.slots.at i).placing = some place →
      (p.1 = .disableSlot ∧ (s.slots.at i).disabled = false ∨ p.1 = .bypassSlot ∧ (s.slots.at i).bypassed = false) →
      ∃ t, exec p.1 s = .next t ∧
        FieldKeeps place.field ((s.updSlot i fun x =>
          if p.1 = .disableSlot then { x with disabled := true } else { x with bypassed := true }).replied
            f rest p.2.1 (.done [])) t ∧
        t.fields = s.fields ∧ t.mgmt = s.mgmt ∧ t.beacons.urgent.at place.field = true ∧ t.effectiveGate i = .off ∧
        ClaimsTaken p.2.2 (fun _ j => j = i ∧ s.gateOpen i = true) [] s t ∧
        ClaimsTold p.2.2 (fun _ j => j = i ∧ s.gateOpen i = true) s t)

/-- The expiries of a RUNNING field: AUTO and PAUSE give way to the next phase of its durations, TELEOP passes into
ENDGAME with its remaining time kept at 100·E, the last phase ends in POST with the post grace started, and the end of
the grace changes nothing else. Each change is announced: NOTICE PHASE; on entry to PAUSE or POST the claims and holds of the
slots whose gates shut are taken away with reason PHASE, and on entry to TELEOP or ENDGAME those on the elements whose phase
mask lacks the new phase; on entry to a timed phase the field's slots past the timeout are marked silent, in ascending order,
and lose what they have (R27, R41, R49, R50, R51, R52, R53, R54, R55, R105, R106, R107). That the row is the arrival itself,
whatever the counter held, is the model's choice (notes/assumptions/4.md), and so is the order of the announcements of one
change: a slot that both the gate-off or phase event and the silent event reach is answered PHASE and not SILENT
(notes/assumptions/18.md). -/
def Obligations.PhaseExpiries : Prop :=
  ∀ (s : State) (g : FieldId),
    (∀ c p ms, (s.fields.at g).stopped = none →
      (c = .autoExpiry g ∧ (s.fields.at g).phase = .auto ∧ (p, ms) =
          (if 0 < (s.fields.at g).durP then (Phase.pause, 100 * (s.fields.at g).durP)
           else if (s.fields.at g).durE < (s.fields.at g).durT then (.teleop, 100 * (s.fields.at g).durT)
           else (.endgame, 100 * (s.fields.at g).durE))) ∨
        (c = .pauseExpiry g ∧ (s.fields.at g).phase = .pause ∧ (p, ms) =
          (if (s.fields.at g).durE < (s.fields.at g).durT then (Phase.teleop, 100 * (s.fields.at g).durT)
           else (.endgame, 100 * (s.fields.at g).durE))) ∨
        (c = .endgameBoundary g ∧ (s.fields.at g).phase = .teleop ∧ 0 < (s.fields.at g).durE ∧
          (p, ms) = (Phase.endgame, 100 * (s.fields.at g).durE)) →
      ∃ t, exec c s = .next t ∧ FieldKeeps g s t ∧
        t.fields.at g = { s.fields.at g with phase := p, remaining := ms } ∧ PhaseAnnounced g p s t) ∧
    ((s.fields.at g).stopped = none →
      (s.fields.at g).phase = .endgame ∨ ((s.fields.at g).phase = .teleop ∧ (s.fields.at g).durE = 0) →
      ∃ t, exec (.matchEndExpiry g) s = .next t ∧ FieldKeeps g s t ∧
        t.fields.at g = { s.fields.at g with phase := .post, remaining := 0, aborted := false, grace := s.timing.grace } ∧
        (∀ i, s.slotField i = some g → t.effectiveGate i = .off) ∧ PhaseAnnounced g .post s t) ∧
    ((s.fields.at g).phase = .post → (s.fields.at g).aborted = false → exec (.postGraceEnd g) s =
      .next { s with fields := s.fields.put g { s.fields.at g with grace := 0 } })

/-! ### Periods and countdowns -/

/-- The periodic events outside STARTING: BUDGET_TICK refills every slot's credit up to its ceiling, BEACON_PERIOD sets
the four routine marks, PROBE_COUNTDOWN sets the probe turn; each starts again at its period. An element's countdown
that arrives is due until its transaction is started (R35, R127, R132, R134, R136, R138, R166, R167). That a row is the
arrival itself is the model's reading of it (notes/assumptions/4.md), and that a probe turn with no UNKNOWN or ABSENT element
is cleared at once in every bus state, PAUSING and PAUSED too, is the model's reading of R138 against R145
(notes/assumptions/17.md). -/
def Obligations.PeriodsAndCountdowns : Prop :=
  ∀ s : State,
    (s.mgmt.mode ≠ .starting →
      (∃ t, exec .budgetTick s = .next t ∧
        (∀ i, t.slots.at i = { s.slots.at i with
          credit := min (s.slots.at i).ceiling ((s.slots.at i).credit + (s.slots.at i).refill) }) ∧
        t = { s with slots := t.slots, budgetLeft := some 10 }) ∧
      (∃ t, exec .beaconPeriod s = .next t ∧ (∀ f, t.beacons.routine.at f = true) ∧
        t = { s with beacons := { s.beacons with routine := t.beacons.routine, left := some s.timing.beacon } })) ∧
    (s.bus.probeLeft ≠ none →
      ∃ t, exec .probeCountdown s = .next t ∧
        BusKeeps { s with bus := { s.bus with probeLeft := some s.timing.probe } } t ∧
        ((∀ e l, s.loadedAt e = some l → l.presence ≠ .unknown ∧ l.presence ≠ .absent) → t.bus.probeTurn = false) ∧
        (∀ e l, s.loadedAt e = some l → l.presence = .unknown ∨ l.presence = .absent →
          t.bus.probeTurn = true ∨ ∃ r, t.bus.activity = .flight r ∧ r.command = .probe)) ∧
    (∀ e l, s.loadedAt e = some l →
      (l.resend ≠ none → ∃ t l', exec (.resendCountdown e) s = .next t ∧ BusKeeps s t ∧ t.link = s.link ∧
        t.mgmt = s.mgmt ∧ t.loadedAt e = some l' ∧ l'.hold = l.hold ∧ l'.claims = l.claims ∧
        (l'.resend = some 0 ∨ ∃ r, t.bus.activity = .flight r ∧ r.element = e ∧ r.command = .actuate)) ∧
      (l.actionPoll ≠ none → ∃ t l', exec (.actionPollCountdown e) s = .next t ∧ BusKeeps s t ∧ t.link = s.link ∧
        t.mgmt = s.mgmt ∧ t.loadedAt e = some l' ∧ l'.hold = l.hold ∧ l'.claims = l.claims ∧
        (l'.actionPoll = some 0 ∨ ∃ r, t.bus.activity = .flight r ∧ r.element = e ∧ r.command = .actionPoll)) ∧
      (l.sensor ≠ none → ∃ t l', exec (.sensorCountdown e) s = .next t ∧ BusKeeps s t ∧ t.link = s.link ∧
        t.mgmt = s.mgmt ∧ t.loadedAt e = some l' ∧ l'.hold = l.hold ∧ l'.claims = l.claims ∧
        (l'.sensor = some 0 ∨ ∃ r, t.bus.activity = .flight r ∧ r.element = e ∧ r.command = .sensorPoll)))

/-- SILENT_TIMEOUT in a timed phase: the slot's silent mark is set, NOTICE SILENT is queued, and no claim or hold of the
slot is left, each answered with SILENT; no other slot's silent mark changes (R41, R106). That the age is then above the timeout is the model's
reading of the row (notes/assumptions/4.md). -/
def Obligations.SilentTimeoutResult : Prop :=
  ∀ (s : State) (i : SlotId) (g : FieldId), (s.slots.at i).silent = false → s.slotField i = some g →
    (s.fields.at g).phase.timed = true → s.ClaimsDistinct →
    ∃ t, exec (.silentTimeout i) s = .next t ∧
      BusKeeps (s.updSlot i fun x => { x with age := max x.age (s.timing.silent + 1) }) t ∧
      (t.slots.at i).silent = true ∧ (∀ j, j ≠ i → (t.slots.at j).silent = (s.slots.at j).silent) ∧
      (∀ e l, t.loadedAt e = some l → l.freeOf i) ∧
      ClaimsTaken .silent (fun _ j => j = i) [] s t ∧ ClaimsTold .silent (fun _ j => j = i) s t ∧
      (s.mgmt.notices.length < 16 → t.mgmt.notices = s.mgmt.notices ++
        [{ dropped := s.mgmt.dropped, content := .silent i }])

/-- ACTION_LIMIT on a RUNNING or CANCELLING actuation: the element is FAULTED with cause TIMEOUT, its actuation ends
FAILED, its queue and hold are gone, its SAFE is pending, and NOTICE ELEMENT is queued (R108, R115, R135, R143). That the limit is
then passed is the model's reading of the row (notes/assumptions/4.md). -/
def Obligations.ActionLimitResult : Prop :=
  ∀ (s : State) (e : ElementId) (l : Loaded) (a : Actuation), s.loadedAt e = some l → l.act = some a →
    a.state = .running ∨ a.state = .cancelling → l.presence = .present →
    ∃ t l', exec (.actionLimit e) s = .next t ∧ BusKeeps s t ∧ t.loadedAt e = some l' ∧
      l'.presence = .faulted .timeout ∧ l'.act = none ∧ l'.hold = none ∧ l'.claims = [] ∧ l'.fetchMark = false ∧
      l'.resend = none ∧ l'.actionPoll = none ∧ l'.sensor = none ∧ l'.misses = l.misses ∧
      l'.actToggle = l.actToggle ∧ l'.fetchToggle = l.fetchToggle ∧ e ∈ t.bus.safeQueue ∧
      (l.claims = [] → l.hold = none → t.link.verdicts = enqueueVerdict s.link.verdicts
        { slot := a.slot, element := elementByte e, outcome := .failed .timeout, tag := a.request.tag }) ∧
      (s.mgmt.notices.length < 16 → t.mgmt.notices = s.mgmt.notices ++
        [{ dropped := s.mgmt.dropped, content := .element e (.faulted .timeout) }])

/-! ### The transmitter -/

/-- The order in which the transmitter arbiter takes its sources, and the end of a frame: FRAME_SENT counts SENT and
begins the idle gap, or takes the device reset of a RESTART; TRANSMITTER_FREE ends the gap (R17, R18, R19). -/
def Obligations.TransmitterOrder : Prop :=
  ∀ s : State,
    (s.link.transmitter ≠ .free → s.nextTake = none) ∧
    (s.link.transmitter = .free →
      (∀ f, s.beacons.urgent.at f = true → (∀ g, g < f → s.beacons.urgent.at g = false) →
        s.nextTake = some (.beacon f)) ∧
      ((∀ f, s.beacons.urgent.at f = false) →
        (s.link.verdicts ≠ [] → s.nextTake = some .verdict) ∧
        (s.link.verdicts = [] →
          (∀ k : Fin 32, (s.slots.at (s.link.lastServed + 1 + k)).held ≠ none →
            (∀ j, j < k → (s.slots.at (s.link.lastServed + 1 + j)).held = none) →
            s.nextTake = some (.drive (s.link.lastServed + 1 + k))) ∧
          ((∀ i, (s.slots.at i).held = none) →
            (∀ f, s.beacons.routine.at f = true → (∀ g, g < f → s.beacons.routine.at g = false) →
              s.nextTake = some (.beacon f)) ∧
            ((∀ f, s.beacons.routine.at f = false) →
              (s.link.replies ≠ [] → s.nextTake = some .reply) ∧
              (s.link.replies = [] → s.mgmt.notices ≠ [] → s.nextTake = some .notice) ∧
              (s.link.replies = [] → s.mgmt.notices = [] → s.link.tells ≠ [] → s.nextTake = some .tell) ∧
              (s.link.replies = [] → s.mgmt.notices = [] → s.link.tells = [] → s.nextTake = none)))))) ∧
    (∀ bytes rate, s.link.transmitter = .sending bytes rate false →
      exec .frameSent s = .next { s with link := { s.link with
        transmitter := .gap, counters := { s.link.counters with sent := min 65535 (s.link.counters.sent + 1) } } }) ∧
    (∀ bytes rate, s.link.transmitter = .sending bytes rate true → exec .frameSent s = exec (.deviceReset .high) s) ∧
    (s.link.transmitter = .gap →
      exec .transmitterFree s = .next { s with link := { s.link with transmitter := .free } })

/-- TAKE_BEACON: both marks of the field and the throttled marks of its listed slots clear, and the beacon is sent under the
origin sequence with the field's state of that moment: field, match number, phase code, stop byte, the seconds that remain or
that START would enter with, rounded up, both tallies digit by digit, the marks and the number of entries, and for each place
that holds a slot its place, team, effective gate, silent and throttled marks and the lowest element it holds (R14, R26, R79,
R118, R169, R170, R171, R172, R173, R197). That the line bits of a CONSOLE stop byte are 0 is the model's choice
(notes/assumptions/13.md). -/
def Obligations.TakeBeaconResult : Prop :=
  ∀ (s : State) (g : FieldId), s.nextTake = some (.beacon g) →
    ∃ (t : State) (seconds : Nat) (flags : Byte) (entry : Fin 6 → SlotId → List Byte), exec .takeBeacon s = .next t ∧
      (∀ f, t.beacons.urgent.at f = (s.beacons.urgent.at f && decide (f ≠ g)) ∧
        t.beacons.routine.at f = (s.beacons.routine.at f && decide (f ≠ g))) ∧
      (∀ i, t.slots.at i = { s.slots.at i with
        throttled := if i ∈ listedSlots (s.fields.at g).list then false else (s.slots.at i).throttled }) ∧
      t = { s with
        slots := t.slots
        beacons := { t.beacons with left := s.beacons.left }
        link := { s.link with
          transmitter := .sending ({ dst := 0xFF, src := s.link.own, kind := 0x30, seq := s.link.origin
                                     payload :=
              ([byte g.val] ++ be16 (s.fields.at g).number ++
              [match (s.fields.at g).phase with
                | .idle => 0x00#8
                | .pre => 0x01#8
                | .auto => 0x02#8
                | .pause => 0x03#8
                | .teleop => 0x04#8
                | .endgame => 0x05#8
                | .post => 0x06#8,
               match (s.fields.at g).stopped with
                | none => 0x00#8
                | some (.line n) => byte (0x90 + n.val)
                | some (.hall n) => byte (0xA0 + n.val)
                | some .console => 0xB0#8] ++ be16 seconds ++
              [byte (16 * (s.tallies.at g).east.thousands.val + (s.tallies.at g).east.hundreds.val),
               byte (16 * (s.tallies.at g).east.tens.val + (s.tallies.at g).east.units.val),
               byte (16 * (s.tallies.at g).west.thousands.val + (s.tallies.at g).west.hundreds.val),
               byte (16 * (s.tallies.at g).west.tens.val + (s.tallies.at g).west.units.val), flags] ++
              (allOf 6).flatMap fun k => ((s.fields.at g).list.at k).elim [] (entry k)) } : Frame).wire s.link.rate false
          origin := s.link.origin + 1 } } ∧
      ((s.fields.at g).phase.timed = true → seconds = ((s.fields.at g).remaining + 999) / 1000) ∧
      ((s.fields.at g).phase = .pre → seconds =
        (100 * (if 0 < (s.fields.at g).durA then (s.fields.at g).durA else if 0 < (s.fields.at g).durP then (s.fields.at g).durP
          else if (s.fields.at g).durE < (s.fields.at g).durT then (s.fields.at g).durT else (s.fields.at g).durE) + 999) / 1000) ∧
      ((s.fields.at g).phase = .idle ∨ (s.fields.at g).phase = .post → seconds = 0) ∧
      flags.getLsbD 0 = (s.tallies.at g).eastCap ∧ flags.getLsbD 1 = (s.tallies.at g).westCap ∧
      (flags.getLsbD 2 = true ↔ ∃ n, lineField n = g ∧ (s.lines.at n).edge = true ∧
        ((s.lines.at n).role = .stop ∨ (s.lines.at n).role = .hallStop)) ∧
      flags.getLsbD 3 = false ∧ flags.toNat / 16 = (listedSlots (s.fields.at g).list).length ∧
      ∀ (k : Fin 6) (i : SlotId), (s.fields.at g).list.at k = some i → ∃ held,
        entry k i = [byte ((if k.val < 3 then 0x00 else 0x10) + k.val % 3 + 1)] ++ be24 (s.slots.at i).team ++
          [byte ((match s.effectiveGate i with
              | .off => 0
              | .auto => 1
              | .drive => 2) + (if (s.slots.at i).silent then 4 else 0) + if (s.slots.at i).throttled then 8 else 0), held] ∧
        ((∀ e, ¬ s.Holds i e) → held = 0xFF#8) ∧ (∀ e, s.Holds i e → (∀ j, j < e → ¬ s.Holds i j) → held = byte e.val)

/-- The other takes: the oldest verdict goes to its slot's radio or is discarded without a ROBOT entry; a held DRIVE is
readdressed and stamped with the effective gate, or dropped as MISDIRECTED; the oldest reply, notice and TELL are sent.
The effective gate is OFF for a slot in no match, disabled, bypassed, of a STOPPED field or of one in IDLE, PRE, PAUSE or POST,
AUTO in AUTO, and DRIVE in TELEOP and ENDGAME. A slot is reached at the address of its ROBOT entry, or 0x40 above it when its
last-heard radio is the TWIN. The codes of verdict outcomes and reasons with their data, and the bytes of replies and notices;
that the line bits of a CONSOLE stop byte are 0 is the model's choice (notes/assumptions/13.md) (R14, R15, R16, R26, R39, R44, R116, R180, R188, R189, R190). -/
def Obligations.TakeQueuedItems : Prop :=
  ∀ s : State,
    (∀ v q, s.nextTake = some .verdict → s.link.verdicts = v :: q →
      (s.radioAddress v.slot = none → exec .takeVerdict s = .next { s with link := { s.link with verdicts := q } }) ∧
      (∀ a, s.radioAddress v.slot = some a → exec .takeVerdict s = .next { s with link := { s.link with
        verdicts := q
        transmitter := .sending ({ dst := a, src := s.link.own, kind := 0x22, seq := s.link.origin,
                                   payload := [v.element, byte v.outcome.code, v.outcome.datum, v.tag] } : Frame).wire
          s.link.rate false
        origin := s.link.origin + 1 } })) ∧
    (∀ i f b more, s.nextTake = some (.drive i) → (s.slots.at i).held = some f → f.payload = b :: more →
      (s.radioAddress i = none → exec .takeDrive s = .next { s with
        slots := s.slots.put i { s.slots.at i with held := none }
        link := { s.link with lastServed := i }
        gate := { s.gate with misdirected := min 65535 (s.gate.misdirected + 1) } }) ∧
      (∀ a, s.radioAddress i = some a → exec .takeDrive s = .next { s with
        slots := s.slots.put i { s.slots.at i with held := none }
        link := { s.link with
          lastServed := i
          transmitter := .sending ({ f with
            dst := a
            payload := (match s.effectiveGate i with
              | .off => 0x00#8
              | .auto => 0x01#8
              | .drive => 0x02#8) :: more } : Frame).wire s.link.rate false } })) ∧
    (∀ r q, s.nextTake = some .reply → s.link.replies = r :: q →
      exec .takeReply s = .next { s with link := { s.link with
        replies := q
        transmitter := .sending ({ dst := s.link.console, src := s.link.own, kind := 0x41, seq := r.seq,
                                   payload := r.payload } : Frame).wire s.link.rate
          (s.mgmt.restartPending && r.answersRestart) } }) ∧
    (∀ n q, s.nextTake = some .notice → s.mgmt.notices = n :: q →
      exec .takeNotice s = .next { s with
        mgmt := { s.mgmt with notices := q }
        link := { s.link with
          transmitter := .sending ({ dst := s.link.console, src := s.link.own, kind := 0x42, seq := s.link.origin,
                                     payload := n.payload } : Frame).wire s.link.rate false
          origin := s.link.origin + 1 } }) ∧
    (∀ f q, s.nextTake = some .tell → s.link.tells = f :: q →
      exec .takeTell s = .next { s with link := { s.link with
        tells := q, transmitter := .sending f.wire s.link.rate false } }) ∧
    (∀ i,
      ((s.slots.at i).placing = none ∨ (s.slots.at i).disabled = true ∨ (s.slots.at i).bypassed = true →
        s.effectiveGate i = .off) ∧
      ∀ p, (s.slots.at i).placing = some p →
        ((s.fields.at p.field).stopped ≠ none → s.effectiveGate i = .off) ∧
        ((s.slots.at i).disabled = false → (s.slots.at i).bypassed = false → (s.fields.at p.field).stopped = none →
          s.effectiveGate i = (match (s.fields.at p.field).phase with
            | .auto => .auto
            | .teleop | .endgame => .drive
            | .idle | .pre | .pause | .post => .off))) ∧
    (∀ i, (s.NoStation .robot i → s.radioAddress i = none) ∧
      ∀ st, s.OnlyStation .robot i st → s.radioAddress i = some (match (s.slots.at i).radio with
        | .primary => st.addr
        | .twin => st.addr + 0x40)) ∧
    (∀ o : Outcome, (o.code, o.datum) = (match o with
      | .granted => (1, 0)
      | .queued n => (2, byte n)
      | .acting => (3, 0)
      | .done b => (4, b)
      | .failed r => (5, byte r.code)
      | .cancelled => (6, 0)
      | .released r => (7, byte r.code)
      | .withdrawn r => (8, byte r.code)
      | .refused r => (9, byte r.code))) ∧
    (∀ r : Reason, (r, r.code) ∈ [(.byRobot, 1), (.expired, 2), (.phase, 3), (.stopped, 4), (.disabled, 5), (.bypassed, 6),
      (.aborted, 7), (.silent, 8), (.elementLost, 9), (.elementDown, 10), (.rejected, 11), (.timeout, 12), (.lost, 13),
      (.retries, 14), (.fault, 15), (.gateOff, 16), (.noElement, 17), (.badAction, 18), (.notYours, 19), (.tooMany, 20),
      (.cooling, 21), (.queueFull, 22), (.notHolding, 23)]) ∧
    (∀ r : Reply, r.payload = (match r.outcome with
      | .done data => [r.code, 0, 0] ++ data
      | .wait => [r.code, 1, 0]
      | .refused reason => [r.code, 2, byte reason.code])) ∧
    (∀ r : ReplyReason, (r, r.code) ∈ [(.unknownCommand, 1), (.length, 2), (.range, 3), (.notCommissioned, 4), (.fieldLive, 5),
      (.state, 6), (.duplicate, 7), (.twinConflict, 8), (.full, 9), (.slotBusy, 10), (.stopHeld, 11), (.stopLatched, 12),
      (.noEntry, 13), (.noCursor, 14), (.tableEnd, 15)]) ∧
    ∀ n : Notice, n.payload = (match n.content with
      | .stop f c => [1, byte n.dropped, byte f.val, stopByte (some c)]
      | .resume f .console => [2, byte n.dropped, byte f.val, 0]
      | .resume f .combination => [2, byte n.dropped, byte f.val, 1]
      | .phase f p m a => [3, byte n.dropped, byte f.val, byte p.code] ++ be16 m ++ [if a then 1 else 0]
      | .element e p => [4, byte n.dropped, byte e.val, byte p.code, byte p.causeCode]
      | .score f e k c points a tally cap => [5, byte n.dropped, byte f.val, byte e.val, byte k.val, byte c] ++ be16 points ++
          [byte a.code] ++ tally.bytes ++ [if cap then 1 else 0]
      | .late f e k c p => [6, byte n.dropped, byte f.val, byte e.val, byte k.val, byte c, byte p.code]
      | .unattributed f e k c .noRule => [7, byte n.dropped, byte f.val, byte e.val, byte k.val, byte c, 1]
      | .unattributed f e k c .noHolder => [7, byte n.dropped, byte f.val, byte e.val, byte k.val, byte c, 2]
      | .silent i => [8, byte n.dropped, byte i.val]
      | .heard i => [9, byte n.dropped, byte i.val]
      | .settings valid skipped => [10, byte n.dropped, if valid then 1 else 0, byte skipped])

/-! ### Transactions of the element bus -/

/-- The moments of a transaction that do not end it: the end of the master frame opens the window; while the part listens a
falling edge is read from eleven bits, the start bit low, the data byte from its least significant bit, the mark bit and the
stop bit, and the character begins the answer or joins it; a high start bit is a glitch and forms none; after a low stop bit no
edge begins a character until the pair has been high for one bit time; and a character that completes the answer does what the
row of its command does. The end of the rest leaves the pair idle and a PAUSING bus PAUSED; on a RUNNING bus the first due
transaction of the order of R128 then starts, its master frame carrying its command, payload and toggle, what called for it
being used up and a first ACTUATE flipping the action toggle; with nothing due the pair stays idle (R2, R119, R121, R123, R128,
R130, R131, R134, R136, R137, R138, R145). That the pair's rest is an operand, and that no wait for it is left over as a
transaction starts, are the model's choices (notes/assumptions/3.md). -/
def Obligations.BusMoments : Prop :=
  ∀ s : State,
    (∀ r, s.bus.activity = .flight r →
      (r.stage = .sending →
        exec .masterFrameEnd s = .next { s with bus := { s.bus with activity := .flight { r with stage := .window } } } ∧
        ∀ ev, exec (.answerCharacter ev) s = .next s) ∧
      (∀ chars, (r.stage = .window ∧ chars = []) ∨ r.stage = .answer chars →
        (r.breakHold = true → ∀ start bits, exec (.answerCharacter (.begins false start)) s = .next s ∧
          exec (.answerCharacter (.completes ⟨false, bits⟩)) s = .next s) ∧
        (∀ rested : Bool, (r.breakHold = true → rested = true) →
          exec (.answerCharacter (.begins rested .high)) s =
            .next { s with bus := { s.bus with activity := .flight { r with breakHold := false } } } ∧
          exec (.answerCharacter (.begins rested .low)) s =
            .next { s with bus := { s.bus with activity := .flight { r with breakHold := false, stage := .answer chars } } } ∧
          (∀ bits : BitVec 11, bits.getLsbD 0 = true → exec (.answerCharacter (.completes ⟨rested, bits⟩)) s =
            .next { s with bus := { s.bus with activity := .flight { r with breakHold := false } } }) ∧
          (∀ c : BusChar, answerComplete (chars ++ [c]) = false →
            exec (.answerCharacter (.completes
                ⟨rested, BitVec.ofBool c.stop ++ BitVec.ofBool c.mark ++ c.data ++ 0#1⟩)) s =
              .next { s with bus := { s.bus with
                activity := .flight { r with breakHold := !c.stop, stage := .answer (chars ++ [c]) } } }))) ∧
      (∀ p ∈ [(BusCommand.probe, Instr.probeAnswer), (.actuate, .actuateAnswer), (.actionPoll, .actionPollAnswer),
          (.sensorPoll, .sensorPollAnswer), (.fetch, .fetchAnswer), (.safe, .safeAnswer)],
        ∀ chars edge c, r.command = p.1 → r.stage = .answer chars → r.hears edge = some c →
          answerComplete (chars ++ [c]) = true → exec (.answerCharacter (.completes edge)) s = exec (p.2 edge) s)) ∧
    (s.bus.activity = .rest →
      ∃ t, exec .busRestEnd s = .next t ∧
        t.bus.state = (if s.bus.state = .pausing then .paused else s.bus.state) ∧
        BusKeeps { s with bus := { s.bus with state := t.bus.state } } t ∧ t.link = s.link ∧ t.mgmt = s.mgmt ∧
        t.slots = s.slots ∧ t.bus.safeQueue = s.bus.safeQueue ∧
        (s.bus.state ≠ .running → t.bus.activity = .idle ∧ t.elements = s.elements) ∧
        (s.bus.state = .running → (∀ e l c, s.loadedAt e = some l → ¬ s.Due e l c) →
          t.bus.activity = .idle ∧ t.elements = s.elements ∧ t.bus.probeTurn = false ∧ t.bus.lastProbed = s.bus.lastProbed) ∧
        (∀ e l c, s.bus.state = .running → s.FirstDue e l c →
          ∃ r l', t.bus.activity = .flight r ∧ r.element = e ∧ r.command = c ∧ r.stage = .sending ∧ r.void = false ∧
            r.breakHold = false ∧ r.window = s.timing.window ∧ t.loadedAt e = some l' ∧ (∀ k, k ≠ e → t.loadedAt k = s.loadedAt k) ∧
            (c = .safe → l' = l ∧ r.bytes = [l.entry.busAddr, 0x05, 0x00, busCheck [0x05, 0x00]]) ∧
            (∀ a, c = .actuate → l.act = some a →
              l' = { l with
                act := some { a with sent := true }, actToggle := if a.sent then l.actToggle else !l.actToggle
                retries := if a.sent then l.retries else 0, resend := none } ∧
              r.bytes = [l.entry.busAddr, 0x02, (if l'.actToggle then 0x82 else 0x02), a.request.action, a.request.argument,
                busCheck [0x02, (if l'.actToggle then 0x82 else 0x02), a.request.action, a.request.argument]]) ∧
            (c = .fetch → l' = { l with fetchMark := false } ∧
              r.bytes = [l.entry.busAddr, 0x04, (if l.fetchToggle then 0x80 else 0x00),
                busCheck [0x04, (if l.fetchToggle then 0x80 else 0x00)]]) ∧
            (c = .actionPoll → l' = { l with actionPoll := none } ∧
              r.bytes = [l.entry.busAddr, 0x03, 0x00, busCheck [0x03, 0x00]]) ∧
            (c = .sensorPoll → l' = { l with sensor := none } ∧
              r.bytes = [l.entry.busAddr, 0x03, 0x00, busCheck [0x03, 0x00]]) ∧
            (c = .probe → l' = l ∧ r.bytes = [l.entry.busAddr, 0x01, 0x00, busCheck [0x01, 0x00]] ∧
              t.bus.probeTurn = false ∧ t.bus.lastProbed = e) ∧
            (c ≠ .probe → t.bus.lastProbed = s.bus.lastProbed ∧ (t.bus.probeTurn = true ↔ s.bus.probeTurn = true ∧
              ∃ k m, s.loadedAt k = some m ∧ (m.presence = .unknown ∨ m.presence = .absent)))))

/-- A missed transaction, by ANSWER_WINDOW_EXPIRY or ANSWER_CUT_OFF: the miss count rises, at most to 3; at 3 a PRESENT or
UNKNOWN element is ABSENT, a PRESENT one losing actuation, queue and hold, and the pending SAFE is dropped; a missed FETCH
is marked again, and the pair rests. The outcome for an entry loaded or cleared meanwhile is discarded (R108, R123,
R125, R126, R137). -/
def Obligations.MissIsCounted : Prop :=
  ∀ (s : State) (c : Instr) (r : Transaction) (l : Loaded), s.bus.activity = .flight r →
    (c = .answerWindowExpiry ∧ r.stage = .window) ∨ (c = .answerCutOff ∧ ∃ chars, r.stage = .answer chars) →
    (r.void = true → ∃ t, exec c s = .next t ∧ t.bus.activity = .rest ∧ t.elements = s.elements ∧ t.link = s.link ∧
      t.mgmt = s.mgmt ∧ t.slots = s.slots ∧ t.fields = s.fields ∧ t.bus.safeQueue = s.bus.safeQueue) ∧
    (r.void = false → s.loadedAt r.element = some l →
      ∃ t l', exec c s = .next t ∧ BusKeeps s t ∧ t.bus.activity = .rest ∧ t.loadedAt r.element = some l' ∧
        l'.misses = min 3 (l.misses + 1) ∧ l'.actToggle = l.actToggle ∧ l'.fetchToggle = l.fetchToggle ∧
        (l.misses + 1 < 3 → l'.presence = l.presence ∧ l'.act = l.act ∧ l'.hold = l.hold ∧ l'.claims = l.claims ∧
          t.mgmt = s.mgmt ∧ t.link = s.link ∧ t.bus.safeQueue = s.bus.safeQueue ∧
          l'.fetchMark = (l.fetchMark || (l.isPresent && decide (r.command = .fetch)))) ∧
        (3 ≤ l.misses + 1 → r.element ∉ t.bus.safeQueue ∧
          (l.presence = .unknown ∨ l.presence = .present → l'.presence = .absent ∧
            (s.mgmt.notices.length < 16 → t.mgmt.notices = s.mgmt.notices ++
              [{ dropped := s.mgmt.dropped, content := .element r.element .absent }])) ∧
          (l.presence = .present → l'.act = none ∧ l'.hold = none ∧ l'.claims = [] ∧ l'.fetchMark = false)))

/-- What the part makes of an answer frame: one in the form of section 6.2 with an allowed status is read as that status
and payload; and a character without its stop bit, a slipped character, another address, another check, or a status byte that
names no status or one that is not allowed to the command with that payload length makes it GARBLED. The status codes, the
statuses with the payload lengths allowed to each command, and the number of characters, by an intact length byte of at most 8,
that completes an answer (R119, R121, R122, R123). -/
def Obligations.AnswerFrameIsRead : Prop :=
  (∀ (b : Byte) (st : Status), statusOf b = some st ↔ (b, st) ∈ [(0, Status.ok), (1, .hold), (2, .done), (3, .more),
    (4, .retry), (5, .reject), (6, .fault)]) ∧
  (∀ (c : BusCommand) (st : Status) (n : Nat), statusAllowed c st n = true ↔ (c, st, n) ∈
    [(BusCommand.probe, Status.ok, 2), (.probe, .fault, 0),
      (.actuate, .ok, 0), (.actuate, .hold, 0), (.actuate, .retry, 0), (.actuate, .reject, 0), (.actuate, .fault, 0),
      (.actuate, .done, 1), (.actuate, .more, 1),
      (.actionPoll, .ok, 0), (.actionPoll, .hold, 0), (.actionPoll, .fault, 0), (.actionPoll, .done, 1),
      (.actionPoll, .more, 0), (.actionPoll, .more, 1),
      (.sensorPoll, .ok, 0), (.sensorPoll, .hold, 0), (.sensorPoll, .fault, 0), (.sensorPoll, .done, 1),
      (.sensorPoll, .more, 0), (.sensorPoll, .more, 1),
      (.fetch, .ok, 1), (.fetch, .ok, 2), (.fetch, .ok, 3), (.fetch, .ok, 4),
      (.fetch, .more, 1), (.fetch, .more, 2), (.fetch, .more, 3), (.fetch, .more, 4), (.fetch, .fault, 0),
      (.safe, .ok, 0), (.safe, .retry, 0), (.safe, .fault, 0), (.safe, .more, 0), (.safe, .done, 1)]) ∧
  (∀ chars : List BusChar, answerComplete chars = true ↔ ∃ mark status n rest, chars = mark :: status :: n :: rest ∧
    n.stop = true ∧ n.mark = false ∧ n.data.toNat ≤ 8 ∧ rest.length = n.data.toNat + 1) ∧
  ∀ (addr b : Byte) (c : BusCommand) (payload : List Byte) (bytes : List Byte) (chars : List BusChar),
    payload.length ≤ 8 →
    bytes = [addr + 64, b, byte payload.length] ++ payload ++ [busCheck ([b, byte payload.length] ++ payload)] →
    chars.map (·.data) = bytes →
    ((∀ k x, chars[k]? = some x → x.stop = true ∧ x.mark = decide (k = 0)) →
      answerComplete chars = true ∧
      (∀ st, statusOf b = some st → statusAllowed c st payload.length = true →
        parseAnswer addr c chars = .answered st payload) ∧
      ((∀ st, statusOf b = some st → statusAllowed c st payload.length = false) →
        parseAnswer addr c chars = .garbled)) ∧
    ((∃ k x, chars[k]? = some x ∧ (x.stop = false ∨ x.mark = decide (k ≠ 0))) → parseAnswer addr c chars = .garbled) ∧
    (∀ other : Byte, other ≠ addr → parseAnswer other c chars = .garbled) ∧
    (∀ (init : List BusChar) (x : BusChar) (d : Byte), chars = init ++ [x] → d ≠ x.data →
      parseAnswer addr c (init ++ [{ x with data := d }]) = .garbled)

/-- PROBE_ANSWER: a matching OK makes an UNKNOWN or ABSENT element PRESENT and starts the sensor countdown of a
reporting one, a mismatch makes it FAULTED MISMATCH, FAULT makes one not yet FAULTED so with cause FAULT; each queues
NOTICE ELEMENT, and the miss count is 0 (R125, R142, R143). That a class byte which names no class is a mismatch is the model's
reading (notes/assumptions/15.md). -/
def Obligations.ProbeAnswerResult : Prop :=
  ∀ (s : State) (edge : BusEdge) (r : Transaction) (chars : List BusChar) (l : Loaded) (st : Status) (payload : List Byte),
    AnswerEnds s .probe edge r chars l st payload →
    ∃ t l', exec (.probeAnswer edge) s = .next t ∧ BusKeeps s t ∧ t.bus.activity = .rest ∧ t.loadedAt r.element = some l' ∧
      l'.misses = 0 ∧
      (∀ cls mask p, st = .ok → payload = [cls, mask] → l.presence = .unknown ∨ l.presence = .absent →
        p = (if kindOf cls = some l.entry.kind ∧ l.entry.actionMask &&& mask = l.entry.actionMask
          then Presence.present else .faulted .mismatch) →
        l' = { l with
          presence := p, misses := 0
          sensor := if p = .present ∧ l.entry.kind ≠ .actuating then some s.timing.sensor else l.sensor } ∧
        (s.mgmt.notices.length < 16 → t.mgmt.notices = s.mgmt.notices ++
          [{ dropped := s.mgmt.dropped, content := .element r.element p }])) ∧
      (st = .fault → l.presence = .unknown ∨ l.presence = .absent →
        l' = { l with presence := .faulted .fault, misses := 0 } ∧
        (s.mgmt.notices.length < 16 → t.mgmt.notices = s.mgmt.notices ++
          [{ dropped := s.mgmt.dropped, content := .element r.element (.faulted .fault) }])) ∧
      (l.presence = .present → st = .ok → l' = { l with misses := 0 } ∧ t.mgmt = s.mgmt)

/-- ACTUATE_ANSWER for a PRESENT element. Its actuation being WAITING-BUS: OK and HOLD make it RUNNING with its action-poll
countdown started, RETRY counts and waits one action-poll period or at the fourth ends it FAILED RETRIES, REJECT ends it
FAILED REJECTED, DONE and MORE end it DONE with the result, MORE with the FETCH mark set. Its actuation being CANCELLING: OK and
HOLD leave it, RETRY and REJECT leave it with the retry count 0, DONE and MORE end it DONE with the result. FAULT makes the
element FAULTED. An end takes up the hold's next action, or, without a hold, grants the claim that grant selection picks. An
answer that finds no record sets the FETCH mark for MORE, and one that finds the element not PRESENT sets its miss count to 0
alone (R95, R101, R102, R115, R125, R126, R132, R133, R136). -/
def Obligations.ActuateAnswerResult : Prop :=
  (∀ (s : State) (edge : BusEdge) (r : Transaction) (chars : List BusChar) (l : Loaded) (st : Status) (payload : List Byte)
    (a : Actuation), AnswerEnds s .actuate edge r chars l st payload → l.presence = .present → l.act = some a →
    a.state ≠ .running →
    ∃ t l', exec (.actuateAnswer edge) s = .next t ∧ BusKeeps s t ∧ t.bus.activity = .rest ∧
      t.loadedAt r.element = some l' ∧ l'.misses = 0 ∧
      (a.state = .waitingBus →
        (st = .ok ∨ st = .hold → t.link = s.link ∧ l' = { l with
          misses := 0, act := some { a with state := .running, running := 0 }, retries := 0
          actionPoll := some s.timing.actionPoll, sensor := none }) ∧
        (st = .retry → l.retries + 1 < 4 → t.link = s.link ∧ l' = { l with
          misses := 0, retries := l.retries + 1, resend := some s.timing.actionPoll })) ∧
      (a.state = .cancelling →
        (st = .ok ∨ st = .hold → t.link = s.link ∧ l' = { l with misses := 0 }) ∧
        (st = .retry ∨ st = .reject → t.link = s.link ∧ l' = { l with misses := 0, retries := 0 })) ∧
      (∀ o, (a.state = .waitingBus ∧ st = .retry ∧ 3 ≤ l.retries ∧ o = Outcome.failed .retries) ∨
          (a.state = .waitingBus ∧ st = .reject ∧ o = .failed .rejected) ∨
          ((st = .done ∨ st = .more) ∧ o = .done (payload.headD 0)) →
        ActuationEnds s t r.element { l with
          misses := 0, retries := if a.state = .waitingBus then 0 else l.retries
          fetchMark := l.fetchMark || decide (st = .more) } l' a o) ∧
      (st = .fault → l'.presence = .faulted .fault ∧ l'.act = none ∧ l'.hold = none ∧ l'.claims = [])) ∧
  (∀ (s : State) (edge : BusEdge) (r : Transaction) (chars : List BusChar) (l : Loaded) (st : Status) (payload : List Byte),
    AnswerEnds s .actuate edge r chars l st payload → l.presence ≠ .present ∨ l.act = none →
    ∃ t, exec (.actuateAnswer edge) s = .next t ∧ BusKeeps s t ∧ t.bus.activity = .rest ∧ t.link = s.link ∧
      t.mgmt = s.mgmt ∧ t.slots = s.slots ∧ t.bus.safeQueue = s.bus.safeQueue ∧
      (∀ k, k ≠ r.element → t.loadedAt k = s.loadedAt k) ∧
      t.loadedAt r.element = some { l with
        misses := 0, fetchMark := l.fetchMark || decide (l.presence = .present ∧ st = .more) })

/-- ACTION_POLL_ANSWER and SENSOR_POLL_ANSWER on a PRESENT element: DONE, or MORE with a result, ends a RUNNING or
CANCELLING actuation DONE, which takes up the hold's next action, or, without a hold, grants the claim that grant selection
picks; otherwise the action-poll countdown starts again; MORE sets the FETCH mark; a sensor POLL changes no actuation and starts
the sensor countdown of a reporting element without one. On an element that is not PRESENT either sets the miss count to 0
alone (R95, R101, R102, R113, R115, R125, R126, R134, R136). That a sensor
POLL leaves alone an actuation that has become CANCELLING meanwhile, and that a POLL is of the kind it was started as, are the
model's readings (notes/assumptions/16.md and 22.md). -/
def Obligations.PollAnswers : Prop :=
  (∀ (s : State) (edge : BusEdge) (r : Transaction) (chars : List BusChar) (l : Loaded) (st : Status) (payload : List Byte)
      (a : Actuation), AnswerEnds s .actionPoll edge r chars l st payload → l.presence = .present → l.act = some a →
      a.state = .running ∨ a.state = .cancelling →
    ∃ t l', exec (.actionPollAnswer edge) s = .next t ∧ BusKeeps s t ∧ t.bus.activity = .rest ∧
      t.loadedAt r.element = some l' ∧ l'.misses = 0 ∧
      (st = .ok ∨ st = .hold ∨ (st = .more ∧ payload = []) → t.link = s.link ∧ l' = { l with
        misses := 0, actionPoll := some s.timing.actionPoll, fetchMark := l.fetchMark || decide (st = .more) }) ∧
      (∀ b, st = .done ∨ st = .more → payload = [b] →
        ActuationEnds s t r.element { l with misses := 0, fetchMark := l.fetchMark || decide (st = .more) } l' a (.done b)) ∧
      (st = .fault → l'.presence = .faulted .fault ∧ l'.act = none ∧ l'.hold = none ∧ l'.claims = [])) ∧
  (∀ (s : State) (edge : BusEdge) (r : Transaction) (chars : List BusChar) (l : Loaded) (st : Status) (payload : List Byte),
      AnswerEnds s .sensorPoll edge r chars l st payload → l.presence = .present →
    ∃ t l', exec (.sensorPollAnswer edge) s = .next t ∧ BusKeeps s t ∧ t.bus.activity = .rest ∧
      t.loadedAt r.element = some l' ∧ l'.misses = 0 ∧
      (st ≠ .fault → t.link = s.link ∧ t.mgmt = s.mgmt ∧ l' = { l with
        misses := 0, fetchMark := l.fetchMark || decide (st = .more)
        sensor := if l.entry.kind ≠ .actuating ∧ (∀ a, l.act = some a → a.state = .waitingBus)
          then some s.timing.sensor else l.sensor }) ∧
      (st = .fault → l'.presence = .faulted .fault ∧ l'.act = none ∧ l'.hold = none ∧ l'.claims = [])) ∧
  (∀ p ∈ [(BusCommand.actionPoll, Instr.actionPollAnswer), (.sensorPoll, .sensorPollAnswer)],
    ∀ (s : State) (edge : BusEdge) (r : Transaction) (chars : List BusChar) (l : Loaded) (st : Status) (payload : List Byte),
    AnswerEnds s p.1 edge r chars l st payload → l.presence ≠ .present →
    ∃ t, exec (p.2 edge) s = .next t ∧ BusKeeps s t ∧ t.bus.activity = .rest ∧ t.link = s.link ∧ t.mgmt = s.mgmt ∧
      t.slots = s.slots ∧ t.bus.safeQueue = s.bus.safeQueue ∧ (∀ k, k ≠ r.element → t.loadedAt k = s.loadedAt k) ∧
      t.loadedAt r.element = some { l with misses := 0 })

/-- FETCH_ANSWER on a PRESENT element: its reports are handed to the Score Tally in their order, the fetch toggle flips,
and MORE sets the FETCH mark again; FAULT hands nothing on and leaves the toggle. On an element that is not PRESENT it sets the
miss count to 0 alone (R125, R126, R137, R150). -/
def Obligations.FetchAnswerResult : Prop :=
  (∀ (s : State) (e : ElementId), s.takeReports e [] = s ∧ ∀ (b : Byte) (q : List Byte), s.takeReports e (b :: q) =
    (if b.toNat % 16 = 0 then s else s.takeReport e (reportOf b).1 (b.toNat % 16)).takeReports e q ∧
    (reportOf b).1.val = b.toNat / 64) ∧
  (∀ (s : State) (edge : BusEdge) (r : Transaction) (chars : List BusChar) (l : Loaded) (st : Status) (payload : List Byte),
    AnswerEnds s .fetch edge r chars l st payload → l.presence = .present →
    ∃ t l', exec (.fetchAnswer edge) s = .next t ∧ t.bus.activity = .rest ∧ t.loadedAt r.element = some l' ∧
      l'.misses = 0 ∧ t.fields = s.fields ∧ t.bus.safeQueue = s.bus.safeQueue ∧
      (∀ e, (t.elements.at e).rules = (s.elements.at e).rules) ∧
      (st = .ok ∨ st = .more →
        l' = { l with
          misses := 0, fetchToggle := !l.fetchToggle, fetchMark := l.fetchMark || decide (st = .more) } ∧
        t.link = s.link ∧ t.slots = s.slots ∧
        t.tallies = (s.takeReports r.element payload).tallies ∧ t.mgmt = (s.takeReports r.element payload).mgmt ∧
        ∀ e, (t.elements.at e).eventCount = ((s.takeReports r.element payload).elements.at e).eventCount) ∧
      (st = .fault → l'.presence = .faulted .fault ∧ l'.fetchToggle = l.fetchToggle ∧ t.tallies = s.tallies ∧
        l'.act = none ∧ l'.hold = none ∧ l'.claims = [])) ∧
  (∀ (s : State) (edge : BusEdge) (r : Transaction) (chars : List BusChar) (l : Loaded) (st : Status) (payload : List Byte),
    AnswerEnds s .fetch edge r chars l st payload → l.presence ≠ .present →
    ∃ t, exec (.fetchAnswer edge) s = .next t ∧ BusKeeps s t ∧ t.bus.activity = .rest ∧ t.link = s.link ∧ t.mgmt = s.mgmt ∧
      t.slots = s.slots ∧ t.bus.safeQueue = s.bus.safeQueue ∧ (∀ k, k ≠ r.element → t.loadedAt k = s.loadedAt k) ∧
      t.loadedAt r.element = some { l with misses := 0 })

/-- SAFE_ANSWER: OK, DONE and MORE take the element out of the SAFE queue with its retry count 0 and end a CANCELLING
actuation CANCELLED, MORE with the FETCH mark set; that end takes up the hold's next action, or, without a hold, grants the
claim that grant selection picks; any other actuation is left as it is. RETRY counts, and the fourth makes the element FAULTED SAFE-REFUSED
and drops the SAFE, as FAULT does under its own cause (R95, R101, R102, R114, R115, R125, R136, R139, R140). -/
def Obligations.SafeAnswerResult : Prop :=
  ∀ (s : State) (edge : BusEdge) (r : Transaction) (chars : List BusChar) (l : Loaded) (st : Status) (payload : List Byte),
    AnswerEnds s .safe edge r chars l st payload →
    ∃ t l', exec (.safeAnswer edge) s = .next t ∧ BusKeeps s t ∧ t.bus.activity = .rest ∧
      t.loadedAt r.element = some l' ∧ l'.misses = 0 ∧
      (st = .ok ∨ st = .done ∨ st = .more →
        r.element ∉ t.bus.safeQueue ∧ (∀ e, e ≠ r.element → e ∈ s.bus.safeQueue → e ∈ t.bus.safeQueue) ∧
        l'.retries = 0 ∧ l'.presence = l.presence ∧ l'.fetchMark = (l.fetchMark || decide (st = .more)) ∧
        ((∀ a, l.act = some a → a.state ≠ .cancelling) → t.link = s.link ∧ t.mgmt = s.mgmt ∧
          l' = { l with misses := 0, retries := 0, fetchMark := l.fetchMark || decide (st = .more) }) ∧
        (∀ a, l.act = some a → a.state = .cancelling → ActuationEnds s t r.element { l with
          misses := 0, retries := 0, fetchMark := l.fetchMark || decide (st = .more) } l' a .cancelled)) ∧
      (st = .retry → l.retries + 1 < 4 →
        t.bus.safeQueue = s.bus.safeQueue ∧ t.link = s.link ∧ l' = { l with misses := 0, retries := l.retries + 1 }) ∧
      (st = .retry → 3 ≤ l.retries → r.element ∉ t.bus.safeQueue ∧ l'.retries = 0 ∧
        (l.presence = .unknown ∨ l.presence = .present → l'.presence = .faulted .safeRefused) ∧
        (∀ cause, l.presence = .faulted cause → l'.presence = .faulted cause ∧ t.mgmt = s.mgmt)) ∧
      (st = .fault → r.element ∉ t.bus.safeQueue ∧
        (l.presence = .unknown ∨ l.presence = .absent ∨ l.presence = .present → l'.presence = .faulted .fault) ∧
        (∀ cause, l.presence = .faulted cause → l'.presence = .faulted cause))

/-! ### What every step keeps -/

/-- The verdict queue and the notice queue when full: a verdict takes the place of the oldest one of its slot, or is
discarded; a notice is discarded and the dropped count rises, at most to 255; the next notice queued carries the count,
which returns to 0 (R15, R188, R190). -/
def Obligations.FullQueues : Prop :=
  (∀ (q : List Verdict) (v : Verdict),
    (q.length < 16 → enqueueVerdict q v = q ++ [v]) ∧
    (16 ≤ q.length → (∀ x ∈ q, x.slot ≠ v.slot) → enqueueVerdict q v = q) ∧
    (∀ a x b, q = a ++ x :: b → 16 ≤ q.length → x.slot = v.slot → (∀ y ∈ a, y.slot ≠ v.slot) →
      enqueueVerdict q v = a ++ b ++ [v])) ∧
  (∀ (s : State) (c : NoticeContent),
    (s.mgmt.notices.length < 16 → s.queueNotice c = { s with mgmt := { s.mgmt with
      notices := s.mgmt.notices ++ [{ dropped := s.mgmt.dropped, content := c }], dropped := 0 } }) ∧
    (16 ≤ s.mgmt.notices.length →
      s.queueNotice c = { s with mgmt := { s.mgmt with dropped := min 255 (s.mgmt.dropped + 1) } }))

/-- The bounds of the queues, tables and counters, and the bounds and laws of the records of fields, slots and elements, hold
after device reset. -/
def Obligations.ResetIsBounded : Prop := State.reset.QueuesBounded ∧ State.reset.RecordsBounded

/-- Every step keeps every queue, table and counter within its capacity (R10, R11, R15, R16, R20, R43, R188, R190). -/
def Obligations.QueuesStayBounded : Prop :=
  ∀ s t : State, s.QueuesBounded → step s = .next t → t.QueuesBounded

/-- Every step keeps the records of slots and elements within their bounds: the credit under the ceiling, the claim
queue at most 4 long with one claim a slot, the miss and retry counts, the SAFE queue without repeats; and it keeps the
whole-machine laws: a field in IDLE or POST is never STOPPED, a slot is placed exactly when it is listed in a match, its
outstanding count is its queued claims and its holds and at most 2, a slot with a claim or a hold has an open gate and is on the
element's field, and through STARTING every field is IDLE (R24, R35, R47, R62, R91, R94, R103, R105, R125, R139, R140,
R195). -/
def Obligations.RecordsStayBounded : Prop :=
  ∀ s t : State, s.RecordsBounded → step s = .next t → t.RecordsBounded
end

