-- ==== Sys2Proof/Laws/State.lean ====
section
/-! SUPPORT. One lemma for each field and each update of the state, so that no proof unfolds a record update; and
what a table holds after a write. -/

namespace Sys2Proof

open Machine

/-! ### Tables -/

@[simp] theorem Table.at_put_same {n : Nat} {α : Type} (t : Table n α) (i : Fin n) (x : α) : (t.put i x).at i = x := by
  simp [Table.at, Table.put]

@[simp] theorem Table.at_put_other {n : Nat} {α : Type} (t : Table n α) {i j : Fin n} (x : α) (h : j ≠ i) :
    (t.put i x).at j = t.at j := by
  have : i.val ≠ j.val := fun e => h (Fin.ext e.symm)
  simp [Table.at, Table.put, Vector.getElem_set_ne, this]

theorem Table.at_put {n : Nat} {α : Type} (t : Table n α) (i j : Fin n) (x : α) :
    (t.put i x).at j = if j = i then x else t.at j := by
  by_cases h : j = i
  · subst h; simp
  · simp [h]

@[simp] theorem Table.at_fill {n : Nat} {α : Type} (x : α) (i : Fin n) : (Table.fill n x).at i = x := by
  simp [Table.at, Table.fill]

@[simp] theorem Table.at_map {n : Nat} {α β : Type} (t : Table n α) (g : α → β) (i : Fin n) :
    Table.at (t.map g) i = g (t.at i) := by
  simp [Table.at]

@[simp] theorem Table.at_ofFn {n : Nat} {α : Type} (g : Fin n → α) (i : Fin n) : Table.at (Vector.ofFn g) i = g i := by
  simp [Table.at]

theorem Table.ext {n : Nat} {α : Type} {t u : Table n α} (h : ∀ i, t.at i = u.at i) : t = u :=
  Vector.ext fun k hk => h ⟨k, hk⟩

theorem mem_allOf {n : Nat} (i : Fin n) : i ∈ allOf n := List.mem_finRange i

end Sys2Proof

namespace Sys2Proof.Machine

open Sys2Proof

/-! ### Updates of the state, field by field -/

@[simp] theorem State.updSlot_link (s : State) (i : SlotId) (g : Slot → Slot) : (s.updSlot i g).link = s.link := rfl
@[simp] theorem State.updSlot_stations (s : State) (i : SlotId) (g : Slot → Slot) : (s.updSlot i g).stations = s.stations := rfl
@[simp] theorem State.updSlot_slots (s : State) (i : SlotId) (g : Slot → Slot) : (s.updSlot i g).slots = s.slots.put i (g (s.slots.at i)) := rfl
@[simp] theorem State.updSlot_gate (s : State) (i : SlotId) (g : Slot → Slot) : (s.updSlot i g).gate = s.gate := rfl
@[simp] theorem State.updSlot_fields (s : State) (i : SlotId) (g : Slot → Slot) : (s.updSlot i g).fields = s.fields := rfl
@[simp] theorem State.updSlot_tallies (s : State) (i : SlotId) (g : Slot → Slot) : (s.updSlot i g).tallies = s.tallies := rfl
@[simp] theorem State.updSlot_lines (s : State) (i : SlotId) (g : Slot → Slot) : (s.updSlot i g).lines = s.lines := rfl
@[simp] theorem State.updSlot_pins (s : State) (i : SlotId) (g : Slot → Slot) : (s.updSlot i g).pins = s.pins := rfl
@[simp] theorem State.updSlot_sampleLeft (s : State) (i : SlotId) (g : Slot → Slot) : (s.updSlot i g).sampleLeft = s.sampleLeft := rfl
@[simp] theorem State.updSlot_elements (s : State) (i : SlotId) (g : Slot → Slot) : (s.updSlot i g).elements = s.elements := rfl
@[simp] theorem State.updSlot_bus (s : State) (i : SlotId) (g : Slot → Slot) : (s.updSlot i g).bus = s.bus := rfl
@[simp] theorem State.updSlot_beacons (s : State) (i : SlotId) (g : Slot → Slot) : (s.updSlot i g).beacons = s.beacons := rfl
@[simp] theorem State.updSlot_mgmt (s : State) (i : SlotId) (g : Slot → Slot) : (s.updSlot i g).mgmt = s.mgmt := rfl
@[simp] theorem State.updSlot_timing (s : State) (i : SlotId) (g : Slot → Slot) : (s.updSlot i g).timing = s.timing := rfl
@[simp] theorem State.updSlot_budgetLeft (s : State) (i : SlotId) (g : Slot → Slot) : (s.updSlot i g).budgetLeft = s.budgetLeft := rfl
@[simp] theorem State.updSlot_loader (s : State) (i : SlotId) (g : Slot → Slot) : (s.updSlot i g).loader = s.loader := rfl
@[simp] theorem State.updSlot_choices (s : State) (i : SlotId) (g : Slot → Slot) : (s.updSlot i g).choices = s.choices := rfl
@[simp] theorem State.updSlot_pending (s : State) (i : SlotId) (g : Slot → Slot) : (s.updSlot i g).pending = s.pending := rfl

@[simp] theorem State.updField_link (s : State) (f : FieldId) (g : MatchRecord → MatchRecord) : (s.updField f g).link = s.link := rfl
@[simp] theorem State.updField_stations (s : State) (f : FieldId) (g : MatchRecord → MatchRecord) : (s.updField f g).stations = s.stations := rfl
@[simp] theorem State.updField_slots (s : State) (f : FieldId) (g : MatchRecord → MatchRecord) : (s.updField f g).slots = s.slots := rfl
@[simp] theorem State.updField_gate (s : State) (f : FieldId) (g : MatchRecord → MatchRecord) : (s.updField f g).gate = s.gate := rfl
@[simp] theorem State.updField_fields (s : State) (f : FieldId) (g : MatchRecord → MatchRecord) : (s.updField f g).fields = s.fields.put f (g (s.fields.at f)) := rfl
@[simp] theorem State.updField_tallies (s : State) (f : FieldId) (g : MatchRecord → MatchRecord) : (s.updField f g).tallies = s.tallies := rfl
@[simp] theorem State.updField_lines (s : State) (f : FieldId) (g : MatchRecord → MatchRecord) : (s.updField f g).lines = s.lines := rfl
@[simp] theorem State.updField_pins (s : State) (f : FieldId) (g : MatchRecord → MatchRecord) : (s.updField f g).pins = s.pins := rfl
@[simp] theorem State.updField_sampleLeft (s : State) (f : FieldId) (g : MatchRecord → MatchRecord) : (s.updField f g).sampleLeft = s.sampleLeft := rfl
@[simp] theorem State.updField_elements (s : State) (f : FieldId) (g : MatchRecord → MatchRecord) : (s.updField f g).elements = s.elements := rfl
@[simp] theorem State.updField_bus (s : State) (f : FieldId) (g : MatchRecord → MatchRecord) : (s.updField f g).bus = s.bus := rfl
@[simp] theorem State.updField_beacons (s : State) (f : FieldId) (g : MatchRecord → MatchRecord) : (s.updField f g).beacons = s.beacons := rfl
@[simp] theorem State.updField_mgmt (s : State) (f : FieldId) (g : MatchRecord → MatchRecord) : (s.updField f g).mgmt = s.mgmt := rfl
@[simp] theorem State.updField_timing (s : State) (f : FieldId) (g : MatchRecord → MatchRecord) : (s.updField f g).timing = s.timing := rfl
@[simp] theorem State.updField_budgetLeft (s : State) (f : FieldId) (g : MatchRecord → MatchRecord) : (s.updField f g).budgetLeft = s.budgetLeft := rfl
@[simp] theorem State.updField_loader (s : State) (f : FieldId) (g : MatchRecord → MatchRecord) : (s.updField f g).loader = s.loader := rfl
@[simp] theorem State.updField_choices (s : State) (f : FieldId) (g : MatchRecord → MatchRecord) : (s.updField f g).choices = s.choices := rfl
@[simp] theorem State.updField_pending (s : State) (f : FieldId) (g : MatchRecord → MatchRecord) : (s.updField f g).pending = s.pending := rfl

@[simp] theorem State.updTally_link (s : State) (f : FieldId) (g : FieldTally → FieldTally) : (s.updTally f g).link = s.link := rfl
@[simp] theorem State.updTally_stations (s : State) (f : FieldId) (g : FieldTally → FieldTally) : (s.updTally f g).stations = s.stations := rfl
@[simp] theorem State.updTally_slots (s : State) (f : FieldId) (g : FieldTally → FieldTally) : (s.updTally f g).slots = s.slots := rfl
@[simp] theorem State.updTally_gate (s : State) (f : FieldId) (g : FieldTally → FieldTally) : (s.updTally f g).gate = s.gate := rfl
@[simp] theorem State.updTally_fields (s : State) (f : FieldId) (g : FieldTally → FieldTally) : (s.updTally f g).fields = s.fields := rfl
@[simp] theorem State.updTally_tallies (s : State) (f : FieldId) (g : FieldTally → FieldTally) : (s.updTally f g).tallies = s.tallies.put f (g (s.tallies.at f)) := rfl
@[simp] theorem State.updTally_lines (s : State) (f : FieldId) (g : FieldTally → FieldTally) : (s.updTally f g).lines = s.lines := rfl
@[simp] theorem State.updTally_pins (s : State) (f : FieldId) (g : FieldTally → FieldTally) : (s.updTally f g).pins = s.pins := rfl
@[simp] theorem State.updTally_sampleLeft (s : State) (f : FieldId) (g : FieldTally → FieldTally) : (s.updTally f g).sampleLeft = s.sampleLeft := rfl
@[simp] theorem State.updTally_elements (s : State) (f : FieldId) (g : FieldTally → FieldTally) : (s.updTally f g).elements = s.elements := rfl
@[simp] theorem State.updTally_bus (s : State) (f : FieldId) (g : FieldTally → FieldTally) : (s.updTally f g).bus = s.bus := rfl
@[simp] theorem State.updTally_beacons (s : State) (f : FieldId) (g : FieldTally → FieldTally) : (s.updTally f g).beacons = s.beacons := rfl
@[simp] theorem State.updTally_mgmt (s : State) (f : FieldId) (g : FieldTally → FieldTally) : (s.updTally f g).mgmt = s.mgmt := rfl
@[simp] theorem State.updTally_timing (s : State) (f : FieldId) (g : FieldTally → FieldTally) : (s.updTally f g).timing = s.timing := rfl
@[simp] theorem State.updTally_budgetLeft (s : State) (f : FieldId) (g : FieldTally → FieldTally) : (s.updTally f g).budgetLeft = s.budgetLeft := rfl
@[simp] theorem State.updTally_loader (s : State) (f : FieldId) (g : FieldTally → FieldTally) : (s.updTally f g).loader = s.loader := rfl
@[simp] theorem State.updTally_choices (s : State) (f : FieldId) (g : FieldTally → FieldTally) : (s.updTally f g).choices = s.choices := rfl
@[simp] theorem State.updTally_pending (s : State) (f : FieldId) (g : FieldTally → FieldTally) : (s.updTally f g).pending = s.pending := rfl

@[simp] theorem State.updElement_link (s : State) (e : ElementId) (g : Element → Element) : (s.updElement e g).link = s.link := rfl
@[simp] theorem State.updElement_stations (s : State) (e : ElementId) (g : Element → Element) : (s.updElement e g).stations = s.stations := rfl
@[simp] theorem State.updElement_slots (s : State) (e : ElementId) (g : Element → Element) : (s.updElement e g).slots = s.slots := rfl
@[simp] theorem State.updElement_gate (s : State) (e : ElementId) (g : Element → Element) : (s.updElement e g).gate = s.gate := rfl
@[simp] theorem State.updElement_fields (s : State) (e : ElementId) (g : Element → Element) : (s.updElement e g).fields = s.fields := rfl
@[simp] theorem State.updElement_tallies (s : State) (e : ElementId) (g : Element → Element) : (s.updElement e g).tallies = s.tallies := rfl
@[simp] theorem State.updElement_lines (s : State) (e : ElementId) (g : Element → Element) : (s.updElement e g).lines = s.lines := rfl
@[simp] theorem State.updElement_pins (s : State) (e : ElementId) (g : Element → Element) : (s.updElement e g).pins = s.pins := rfl
@[simp] theorem State.updElement_sampleLeft (s : State) (e : ElementId) (g : Element → Element) : (s.updElement e g).sampleLeft = s.sampleLeft := rfl
@[simp] theorem State.updElement_elements (s : State) (e : ElementId) (g : Element → Element) : (s.updElement e g).elements = s.elements.put e (g (s.elements.at e)) := rfl
@[simp] theorem State.updElement_bus (s : State) (e : ElementId) (g : Element → Element) : (s.updElement e g).bus = s.bus := rfl
@[simp] theorem State.updElement_beacons (s : State) (e : ElementId) (g : Element → Element) : (s.updElement e g).beacons = s.beacons := rfl
@[simp] theorem State.updElement_mgmt (s : State) (e : ElementId) (g : Element → Element) : (s.updElement e g).mgmt = s.mgmt := rfl
@[simp] theorem State.updElement_timing (s : State) (e : ElementId) (g : Element → Element) : (s.updElement e g).timing = s.timing := rfl
@[simp] theorem State.updElement_budgetLeft (s : State) (e : ElementId) (g : Element → Element) : (s.updElement e g).budgetLeft = s.budgetLeft := rfl
@[simp] theorem State.updElement_loader (s : State) (e : ElementId) (g : Element → Element) : (s.updElement e g).loader = s.loader := rfl
@[simp] theorem State.updElement_choices (s : State) (e : ElementId) (g : Element → Element) : (s.updElement e g).choices = s.choices := rfl
@[simp] theorem State.updElement_pending (s : State) (e : ElementId) (g : Element → Element) : (s.updElement e g).pending = s.pending := rfl

@[simp] theorem State.updLoaded_link (s : State) (e : ElementId) (g : Loaded → Loaded) : (s.updLoaded e g).link = s.link := rfl
@[simp] theorem State.updLoaded_stations (s : State) (e : ElementId) (g : Loaded → Loaded) : (s.updLoaded e g).stations = s.stations := rfl
@[simp] theorem State.updLoaded_slots (s : State) (e : ElementId) (g : Loaded → Loaded) : (s.updLoaded e g).slots = s.slots := rfl
@[simp] theorem State.updLoaded_gate (s : State) (e : ElementId) (g : Loaded → Loaded) : (s.updLoaded e g).gate = s.gate := rfl
@[simp] theorem State.updLoaded_fields (s : State) (e : ElementId) (g : Loaded → Loaded) : (s.updLoaded e g).fields = s.fields := rfl
@[simp] theorem State.updLoaded_tallies (s : State) (e : ElementId) (g : Loaded → Loaded) : (s.updLoaded e g).tallies = s.tallies := rfl
@[simp] theorem State.updLoaded_lines (s : State) (e : ElementId) (g : Loaded → Loaded) : (s.updLoaded e g).lines = s.lines := rfl
@[simp] theorem State.updLoaded_pins (s : State) (e : ElementId) (g : Loaded → Loaded) : (s.updLoaded e g).pins = s.pins := rfl
@[simp] theorem State.updLoaded_sampleLeft (s : State) (e : ElementId) (g : Loaded → Loaded) : (s.updLoaded e g).sampleLeft = s.sampleLeft := rfl
@[simp] theorem State.updLoaded_bus (s : State) (e : ElementId) (g : Loaded → Loaded) : (s.updLoaded e g).bus = s.bus := rfl
@[simp] theorem State.updLoaded_beacons (s : State) (e : ElementId) (g : Loaded → Loaded) : (s.updLoaded e g).beacons = s.beacons := rfl
@[simp] theorem State.updLoaded_mgmt (s : State) (e : ElementId) (g : Loaded → Loaded) : (s.updLoaded e g).mgmt = s.mgmt := rfl
@[simp] theorem State.updLoaded_timing (s : State) (e : ElementId) (g : Loaded → Loaded) : (s.updLoaded e g).timing = s.timing := rfl
@[simp] theorem State.updLoaded_budgetLeft (s : State) (e : ElementId) (g : Loaded → Loaded) : (s.updLoaded e g).budgetLeft = s.budgetLeft := rfl
@[simp] theorem State.updLoaded_loader (s : State) (e : ElementId) (g : Loaded → Loaded) : (s.updLoaded e g).loader = s.loader := rfl
@[simp] theorem State.updLoaded_choices (s : State) (e : ElementId) (g : Loaded → Loaded) : (s.updLoaded e g).choices = s.choices := rfl
@[simp] theorem State.updLoaded_pending (s : State) (e : ElementId) (g : Loaded → Loaded) : (s.updLoaded e g).pending = s.pending := rfl

@[simp] theorem State.updLink_link (s : State) (g : Link → Link) : (s.updLink g).link = g s.link := rfl
@[simp] theorem State.updLink_stations (s : State) (g : Link → Link) : (s.updLink g).stations = s.stations := rfl
@[simp] theorem State.updLink_slots (s : State) (g : Link → Link) : (s.updLink g).slots = s.slots := rfl
@[simp] theorem State.updLink_gate (s : State) (g : Link → Link) : (s.updLink g).gate = s.gate := rfl
@[simp] theorem State.updLink_fields (s : State) (g : Link → Link) : (s.updLink g).fields = s.fields := rfl
@[simp] theorem State.updLink_tallies (s : State) (g : Link → Link) : (s.updLink g).tallies = s.tallies := rfl
@[simp] theorem State.updLink_lines (s : State) (g : Link → Link) : (s.updLink g).lines = s.lines := rfl
@[simp] theorem State.updLink_pins (s : State) (g : Link → Link) : (s.updLink g).pins = s.pins := rfl
@[simp] theorem State.updLink_sampleLeft (s : State) (g : Link → Link) : (s.updLink g).sampleLeft = s.sampleLeft := rfl
@[simp] theorem State.updLink_elements (s : State) (g : Link → Link) : (s.updLink g).elements = s.elements := rfl
@[simp] theorem State.updLink_bus (s : State) (g : Link → Link) : (s.updLink g).bus = s.bus := rfl
@[simp] theorem State.updLink_beacons (s : State) (g : Link → Link) : (s.updLink g).beacons = s.beacons := rfl
@[simp] theorem State.updLink_mgmt (s : State) (g : Link → Link) : (s.updLink g).mgmt = s.mgmt := rfl
@[simp] theorem State.updLink_timing (s : State) (g : Link → Link) : (s.updLink g).timing = s.timing := rfl
@[simp] theorem State.updLink_budgetLeft (s : State) (g : Link → Link) : (s.updLink g).budgetLeft = s.budgetLeft := rfl
@[simp] theorem State.updLink_loader (s : State) (g : Link → Link) : (s.updLink g).loader = s.loader := rfl
@[simp] theorem State.updLink_choices (s : State) (g : Link → Link) : (s.updLink g).choices = s.choices := rfl
@[simp] theorem State.updLink_pending (s : State) (g : Link → Link) : (s.updLink g).pending = s.pending := rfl

@[simp] theorem State.updBus_link (s : State) (g : Bus → Bus) : (s.updBus g).link = s.link := rfl
@[simp] theorem State.updBus_stations (s : State) (g : Bus → Bus) : (s.updBus g).stations = s.stations := rfl
@[simp] theorem State.updBus_slots (s : State) (g : Bus → Bus) : (s.updBus g).slots = s.slots := rfl
@[simp] theorem State.updBus_gate (s : State) (g : Bus → Bus) : (s.updBus g).gate = s.gate := rfl
@[simp] theorem State.updBus_fields (s : State) (g : Bus → Bus) : (s.updBus g).fields = s.fields := rfl
@[simp] theorem State.updBus_tallies (s : State) (g : Bus → Bus) : (s.updBus g).tallies = s.tallies := rfl
@[simp] theorem State.updBus_lines (s : State) (g : Bus → Bus) : (s.updBus g).lines = s.lines := rfl
@[simp] theorem State.updBus_pins (s : State) (g : Bus → Bus) : (s.updBus g).pins = s.pins := rfl
@[simp] theorem State.updBus_sampleLeft (s : State) (g : Bus → Bus) : (s.updBus g).sampleLeft = s.sampleLeft := rfl
@[simp] theorem State.updBus_elements (s : State) (g : Bus → Bus) : (s.updBus g).elements = s.elements := rfl
@[simp] theorem State.updBus_bus (s : State) (g : Bus → Bus) : (s.updBus g).bus = g s.bus := rfl
@[simp] theorem State.updBus_beacons (s : State) (g : Bus → Bus) : (s.updBus g).beacons = s.beacons := rfl
@[simp] theorem State.updBus_mgmt (s : State) (g : Bus → Bus) : (s.updBus g).mgmt = s.mgmt := rfl
@[simp] theorem State.updBus_timing (s : State) (g : Bus → Bus) : (s.updBus g).timing = s.timing := rfl
@[simp] theorem State.updBus_budgetLeft (s : State) (g : Bus → Bus) : (s.updBus g).budgetLeft = s.budgetLeft := rfl
@[simp] theorem State.updBus_loader (s : State) (g : Bus → Bus) : (s.updBus g).loader = s.loader := rfl
@[simp] theorem State.updBus_choices (s : State) (g : Bus → Bus) : (s.updBus g).choices = s.choices := rfl
@[simp] theorem State.updBus_pending (s : State) (g : Bus → Bus) : (s.updBus g).pending = s.pending := rfl

@[simp] theorem State.updMgmt_link (s : State) (g : Mgmt → Mgmt) : (s.updMgmt g).link = s.link := rfl
@[simp] theorem State.updMgmt_stations (s : State) (g : Mgmt → Mgmt) : (s.updMgmt g).stations = s.stations := rfl
@[simp] theorem State.updMgmt_slots (s : State) (g : Mgmt → Mgmt) : (s.updMgmt g).slots = s.slots := rfl
@[simp] theorem State.updMgmt_gate (s : State) (g : Mgmt → Mgmt) : (s.updMgmt g).gate = s.gate := rfl
@[simp] theorem State.updMgmt_fields (s : State) (g : Mgmt → Mgmt) : (s.updMgmt g).fields = s.fields := rfl
@[simp] theorem State.updMgmt_tallies (s : State) (g : Mgmt → Mgmt) : (s.updMgmt g).tallies = s.tallies := rfl
@[simp] theorem State.updMgmt_lines (s : State) (g : Mgmt → Mgmt) : (s.updMgmt g).lines = s.lines := rfl
@[simp] theorem State.updMgmt_pins (s : State) (g : Mgmt → Mgmt) : (s.updMgmt g).pins = s.pins := rfl
@[simp] theorem State.updMgmt_sampleLeft (s : State) (g : Mgmt → Mgmt) : (s.updMgmt g).sampleLeft = s.sampleLeft := rfl
@[simp] theorem State.updMgmt_elements (s : State) (g : Mgmt → Mgmt) : (s.updMgmt g).elements = s.elements := rfl
@[simp] theorem State.updMgmt_bus (s : State) (g : Mgmt → Mgmt) : (s.updMgmt g).bus = s.bus := rfl
@[simp] theorem State.updMgmt_beacons (s : State) (g : Mgmt → Mgmt) : (s.updMgmt g).beacons = s.beacons := rfl
@[simp] theorem State.updMgmt_mgmt (s : State) (g : Mgmt → Mgmt) : (s.updMgmt g).mgmt = g s.mgmt := rfl
@[simp] theorem State.updMgmt_timing (s : State) (g : Mgmt → Mgmt) : (s.updMgmt g).timing = s.timing := rfl
@[simp] theorem State.updMgmt_budgetLeft (s : State) (g : Mgmt → Mgmt) : (s.updMgmt g).budgetLeft = s.budgetLeft := rfl
@[simp] theorem State.updMgmt_loader (s : State) (g : Mgmt → Mgmt) : (s.updMgmt g).loader = s.loader := rfl
@[simp] theorem State.updMgmt_choices (s : State) (g : Mgmt → Mgmt) : (s.updMgmt g).choices = s.choices := rfl
@[simp] theorem State.updMgmt_pending (s : State) (g : Mgmt → Mgmt) : (s.updMgmt g).pending = s.pending := rfl

@[simp] theorem State.queueVerdict_link (s : State) (i : SlotId) (b : Byte) (o : Outcome) (t : Byte) : (s.queueVerdict i b o t).link = { s.link with verdicts := enqueueVerdict s.link.verdicts { slot := i, element := b, outcome := o, tag := t } } := rfl
@[simp] theorem State.queueVerdict_stations (s : State) (i : SlotId) (b : Byte) (o : Outcome) (t : Byte) : (s.queueVerdict i b o t).stations = s.stations := rfl
@[simp] theorem State.queueVerdict_slots (s : State) (i : SlotId) (b : Byte) (o : Outcome) (t : Byte) : (s.queueVerdict i b o t).slots = s.slots := rfl
@[simp] theorem State.queueVerdict_gate (s : State) (i : SlotId) (b : Byte) (o : Outcome) (t : Byte) : (s.queueVerdict i b o t).gate = s.gate := rfl
@[simp] theorem State.queueVerdict_fields (s : State) (i : SlotId) (b : Byte) (o : Outcome) (t : Byte) : (s.queueVerdict i b o t).fields = s.fields := rfl
@[simp] theorem State.queueVerdict_tallies (s : State) (i : SlotId) (b : Byte) (o : Outcome) (t : Byte) : (s.queueVerdict i b o t).tallies = s.tallies := rfl
@[simp] theorem State.queueVerdict_lines (s : State) (i : SlotId) (b : Byte) (o : Outcome) (t : Byte) : (s.queueVerdict i b o t).lines = s.lines := rfl
@[simp] theorem State.queueVerdict_pins (s : State) (i : SlotId) (b : Byte) (o : Outcome) (t : Byte) : (s.queueVerdict i b o t).pins = s.pins := rfl
@[simp] theorem State.queueVerdict_sampleLeft (s : State) (i : SlotId) (b : Byte) (o : Outcome) (t : Byte) : (s.queueVerdict i b o t).sampleLeft = s.sampleLeft := rfl
@[simp] theorem State.queueVerdict_elements (s : State) (i : SlotId) (b : Byte) (o : Outcome) (t : Byte) : (s.queueVerdict i b o t).elements = s.elements := rfl
@[simp] theorem State.queueVerdict_bus (s : State) (i : SlotId) (b : Byte) (o : Outcome) (t : Byte) : (s.queueVerdict i b o t).bus = s.bus := rfl
@[simp] theorem State.queueVerdict_beacons (s : State) (i : SlotId) (b : Byte) (o : Outcome) (t : Byte) : (s.queueVerdict i b o t).beacons = s.beacons := rfl
@[simp] theorem State.queueVerdict_mgmt (s : State) (i : SlotId) (b : Byte) (o : Outcome) (t : Byte) : (s.queueVerdict i b o t).mgmt = s.mgmt := rfl
@[simp] theorem State.queueVerdict_timing (s : State) (i : SlotId) (b : Byte) (o : Outcome) (t : Byte) : (s.queueVerdict i b o t).timing = s.timing := rfl
@[simp] theorem State.queueVerdict_budgetLeft (s : State) (i : SlotId) (b : Byte) (o : Outcome) (t : Byte) : (s.queueVerdict i b o t).budgetLeft = s.budgetLeft := rfl
@[simp] theorem State.queueVerdict_loader (s : State) (i : SlotId) (b : Byte) (o : Outcome) (t : Byte) : (s.queueVerdict i b o t).loader = s.loader := rfl
@[simp] theorem State.queueVerdict_choices (s : State) (i : SlotId) (b : Byte) (o : Outcome) (t : Byte) : (s.queueVerdict i b o t).choices = s.choices := rfl
@[simp] theorem State.queueVerdict_pending (s : State) (i : SlotId) (b : Byte) (o : Outcome) (t : Byte) : (s.queueVerdict i b o t).pending = s.pending := rfl

@[simp] theorem State.verdictFor_link (s : State) (i : SlotId) (e : ElementId) (o : Outcome) (t : Byte) : (s.verdictFor i e o t).link = { s.link with verdicts := enqueueVerdict s.link.verdicts { slot := i, element := elementByte e, outcome := o, tag := t } } := rfl
@[simp] theorem State.verdictFor_stations (s : State) (i : SlotId) (e : ElementId) (o : Outcome) (t : Byte) : (s.verdictFor i e o t).stations = s.stations := rfl
@[simp] theorem State.verdictFor_slots (s : State) (i : SlotId) (e : ElementId) (o : Outcome) (t : Byte) : (s.verdictFor i e o t).slots = s.slots := rfl
@[simp] theorem State.verdictFor_gate (s : State) (i : SlotId) (e : ElementId) (o : Outcome) (t : Byte) : (s.verdictFor i e o t).gate = s.gate := rfl
@[simp] theorem State.verdictFor_fields (s : State) (i : SlotId) (e : ElementId) (o : Outcome) (t : Byte) : (s.verdictFor i e o t).fields = s.fields := rfl
@[simp] theorem State.verdictFor_tallies (s : State) (i : SlotId) (e : ElementId) (o : Outcome) (t : Byte) : (s.verdictFor i e o t).tallies = s.tallies := rfl
@[simp] theorem State.verdictFor_lines (s : State) (i : SlotId) (e : ElementId) (o : Outcome) (t : Byte) : (s.verdictFor i e o t).lines = s.lines := rfl
@[simp] theorem State.verdictFor_pins (s : State) (i : SlotId) (e : ElementId) (o : Outcome) (t : Byte) : (s.verdictFor i e o t).pins = s.pins := rfl
@[simp] theorem State.verdictFor_sampleLeft (s : State) (i : SlotId) (e : ElementId) (o : Outcome) (t : Byte) : (s.verdictFor i e o t).sampleLeft = s.sampleLeft := rfl
@[simp] theorem State.verdictFor_elements (s : State) (i : SlotId) (e : ElementId) (o : Outcome) (t : Byte) : (s.verdictFor i e o t).elements = s.elements := rfl
@[simp] theorem State.verdictFor_bus (s : State) (i : SlotId) (e : ElementId) (o : Outcome) (t : Byte) : (s.verdictFor i e o t).bus = s.bus := rfl
@[simp] theorem State.verdictFor_beacons (s : State) (i : SlotId) (e : ElementId) (o : Outcome) (t : Byte) : (s.verdictFor i e o t).beacons = s.beacons := rfl
@[simp] theorem State.verdictFor_mgmt (s : State) (i : SlotId) (e : ElementId) (o : Outcome) (t : Byte) : (s.verdictFor i e o t).mgmt = s.mgmt := rfl
@[simp] theorem State.verdictFor_timing (s : State) (i : SlotId) (e : ElementId) (o : Outcome) (t : Byte) : (s.verdictFor i e o t).timing = s.timing := rfl
@[simp] theorem State.verdictFor_budgetLeft (s : State) (i : SlotId) (e : ElementId) (o : Outcome) (t : Byte) : (s.verdictFor i e o t).budgetLeft = s.budgetLeft := rfl
@[simp] theorem State.verdictFor_loader (s : State) (i : SlotId) (e : ElementId) (o : Outcome) (t : Byte) : (s.verdictFor i e o t).loader = s.loader := rfl
@[simp] theorem State.verdictFor_choices (s : State) (i : SlotId) (e : ElementId) (o : Outcome) (t : Byte) : (s.verdictFor i e o t).choices = s.choices := rfl
@[simp] theorem State.verdictFor_pending (s : State) (i : SlotId) (e : ElementId) (o : Outcome) (t : Byte) : (s.verdictFor i e o t).pending = s.pending := rfl

@[simp] theorem State.queueNotice_link (s : State) (c : NoticeContent) : (s.queueNotice c).link = s.link := rfl
@[simp] theorem State.queueNotice_stations (s : State) (c : NoticeContent) : (s.queueNotice c).stations = s.stations := rfl
@[simp] theorem State.queueNotice_slots (s : State) (c : NoticeContent) : (s.queueNotice c).slots = s.slots := rfl
@[simp] theorem State.queueNotice_gate (s : State) (c : NoticeContent) : (s.queueNotice c).gate = s.gate := rfl
@[simp] theorem State.queueNotice_fields (s : State) (c : NoticeContent) : (s.queueNotice c).fields = s.fields := rfl
@[simp] theorem State.queueNotice_tallies (s : State) (c : NoticeContent) : (s.queueNotice c).tallies = s.tallies := rfl
@[simp] theorem State.queueNotice_lines (s : State) (c : NoticeContent) : (s.queueNotice c).lines = s.lines := rfl
@[simp] theorem State.queueNotice_pins (s : State) (c : NoticeContent) : (s.queueNotice c).pins = s.pins := rfl
@[simp] theorem State.queueNotice_sampleLeft (s : State) (c : NoticeContent) : (s.queueNotice c).sampleLeft = s.sampleLeft := rfl
@[simp] theorem State.queueNotice_elements (s : State) (c : NoticeContent) : (s.queueNotice c).elements = s.elements := rfl
@[simp] theorem State.queueNotice_bus (s : State) (c : NoticeContent) : (s.queueNotice c).bus = s.bus := rfl
@[simp] theorem State.queueNotice_beacons (s : State) (c : NoticeContent) : (s.queueNotice c).beacons = s.beacons := rfl
@[simp] theorem State.queueNotice_timing (s : State) (c : NoticeContent) : (s.queueNotice c).timing = s.timing := rfl
@[simp] theorem State.queueNotice_budgetLeft (s : State) (c : NoticeContent) : (s.queueNotice c).budgetLeft = s.budgetLeft := rfl
@[simp] theorem State.queueNotice_loader (s : State) (c : NoticeContent) : (s.queueNotice c).loader = s.loader := rfl
@[simp] theorem State.queueNotice_choices (s : State) (c : NoticeContent) : (s.queueNotice c).choices = s.choices := rfl
@[simp] theorem State.queueNotice_pending (s : State) (c : NoticeContent) : (s.queueNotice c).pending = s.pending := rfl

@[simp] theorem State.queueReply_link (s : State) (f : Frame) (c : Byte) (o : ReplyOutcome) : (s.queueReply f c o).link = { s.link with replies := s.link.replies ++ [{ seq := f.seq, code := c, outcome := o }] } := rfl
@[simp] theorem State.queueReply_stations (s : State) (f : Frame) (c : Byte) (o : ReplyOutcome) : (s.queueReply f c o).stations = s.stations := rfl
@[simp] theorem State.queueReply_slots (s : State) (f : Frame) (c : Byte) (o : ReplyOutcome) : (s.queueReply f c o).slots = s.slots := rfl
@[simp] theorem State.queueReply_gate (s : State) (f : Frame) (c : Byte) (o : ReplyOutcome) : (s.queueReply f c o).gate = s.gate := rfl
@[simp] theorem State.queueReply_fields (s : State) (f : Frame) (c : Byte) (o : ReplyOutcome) : (s.queueReply f c o).fields = s.fields := rfl
@[simp] theorem State.queueReply_tallies (s : State) (f : Frame) (c : Byte) (o : ReplyOutcome) : (s.queueReply f c o).tallies = s.tallies := rfl
@[simp] theorem State.queueReply_lines (s : State) (f : Frame) (c : Byte) (o : ReplyOutcome) : (s.queueReply f c o).lines = s.lines := rfl
@[simp] theorem State.queueReply_pins (s : State) (f : Frame) (c : Byte) (o : ReplyOutcome) : (s.queueReply f c o).pins = s.pins := rfl
@[simp] theorem State.queueReply_sampleLeft (s : State) (f : Frame) (c : Byte) (o : ReplyOutcome) : (s.queueReply f c o).sampleLeft = s.sampleLeft := rfl
@[simp] theorem State.queueReply_elements (s : State) (f : Frame) (c : Byte) (o : ReplyOutcome) : (s.queueReply f c o).elements = s.elements := rfl
@[simp] theorem State.queueReply_bus (s : State) (f : Frame) (c : Byte) (o : ReplyOutcome) : (s.queueReply f c o).bus = s.bus := rfl
@[simp] theorem State.queueReply_beacons (s : State) (f : Frame) (c : Byte) (o : ReplyOutcome) : (s.queueReply f c o).beacons = s.beacons := rfl
@[simp] theorem State.queueReply_mgmt (s : State) (f : Frame) (c : Byte) (o : ReplyOutcome) : (s.queueReply f c o).mgmt = s.mgmt := rfl
@[simp] theorem State.queueReply_timing (s : State) (f : Frame) (c : Byte) (o : ReplyOutcome) : (s.queueReply f c o).timing = s.timing := rfl
@[simp] theorem State.queueReply_budgetLeft (s : State) (f : Frame) (c : Byte) (o : ReplyOutcome) : (s.queueReply f c o).budgetLeft = s.budgetLeft := rfl
@[simp] theorem State.queueReply_loader (s : State) (f : Frame) (c : Byte) (o : ReplyOutcome) : (s.queueReply f c o).loader = s.loader := rfl
@[simp] theorem State.queueReply_choices (s : State) (f : Frame) (c : Byte) (o : ReplyOutcome) : (s.queueReply f c o).choices = s.choices := rfl
@[simp] theorem State.queueReply_pending (s : State) (f : Frame) (c : Byte) (o : ReplyOutcome) : (s.queueReply f c o).pending = s.pending := rfl

@[simp] theorem State.countDrop_link (s : State) (r : DropReason) : (s.countDrop r).link = s.link := rfl
@[simp] theorem State.countDrop_stations (s : State) (r : DropReason) : (s.countDrop r).stations = s.stations := rfl
@[simp] theorem State.countDrop_slots (s : State) (r : DropReason) : (s.countDrop r).slots = s.slots := rfl
@[simp] theorem State.countDrop_gate (s : State) (r : DropReason) : (s.countDrop r).gate = s.gate.count r := rfl
@[simp] theorem State.countDrop_fields (s : State) (r : DropReason) : (s.countDrop r).fields = s.fields := rfl
@[simp] theorem State.countDrop_tallies (s : State) (r : DropReason) : (s.countDrop r).tallies = s.tallies := rfl
@[simp] theorem State.countDrop_lines (s : State) (r : DropReason) : (s.countDrop r).lines = s.lines := rfl
@[simp] theorem State.countDrop_pins (s : State) (r : DropReason) : (s.countDrop r).pins = s.pins := rfl
@[simp] theorem State.countDrop_sampleLeft (s : State) (r : DropReason) : (s.countDrop r).sampleLeft = s.sampleLeft := rfl
@[simp] theorem State.countDrop_elements (s : State) (r : DropReason) : (s.countDrop r).elements = s.elements := rfl
@[simp] theorem State.countDrop_bus (s : State) (r : DropReason) : (s.countDrop r).bus = s.bus := rfl
@[simp] theorem State.countDrop_beacons (s : State) (r : DropReason) : (s.countDrop r).beacons = s.beacons := rfl
@[simp] theorem State.countDrop_mgmt (s : State) (r : DropReason) : (s.countDrop r).mgmt = s.mgmt := rfl
@[simp] theorem State.countDrop_timing (s : State) (r : DropReason) : (s.countDrop r).timing = s.timing := rfl
@[simp] theorem State.countDrop_budgetLeft (s : State) (r : DropReason) : (s.countDrop r).budgetLeft = s.budgetLeft := rfl
@[simp] theorem State.countDrop_loader (s : State) (r : DropReason) : (s.countDrop r).loader = s.loader := rfl
@[simp] theorem State.countDrop_choices (s : State) (r : DropReason) : (s.countDrop r).choices = s.choices := rfl
@[simp] theorem State.countDrop_pending (s : State) (r : DropReason) : (s.countDrop r).pending = s.pending := rfl

@[simp] theorem State.countError_link (s : State) (e : LinkError) : (s.countError e).link = { s.link with receiver := .hunting, counters := s.link.counters.count e } := rfl
@[simp] theorem State.countError_stations (s : State) (e : LinkError) : (s.countError e).stations = s.stations := rfl
@[simp] theorem State.countError_slots (s : State) (e : LinkError) : (s.countError e).slots = s.slots := rfl
@[simp] theorem State.countError_gate (s : State) (e : LinkError) : (s.countError e).gate = s.gate := rfl
@[simp] theorem State.countError_fields (s : State) (e : LinkError) : (s.countError e).fields = s.fields := rfl
@[simp] theorem State.countError_tallies (s : State) (e : LinkError) : (s.countError e).tallies = s.tallies := rfl
@[simp] theorem State.countError_lines (s : State) (e : LinkError) : (s.countError e).lines = s.lines := rfl
@[simp] theorem State.countError_pins (s : State) (e : LinkError) : (s.countError e).pins = s.pins := rfl
@[simp] theorem State.countError_sampleLeft (s : State) (e : LinkError) : (s.countError e).sampleLeft = s.sampleLeft := rfl
@[simp] theorem State.countError_elements (s : State) (e : LinkError) : (s.countError e).elements = s.elements := rfl
@[simp] theorem State.countError_bus (s : State) (e : LinkError) : (s.countError e).bus = s.bus := rfl
@[simp] theorem State.countError_beacons (s : State) (e : LinkError) : (s.countError e).beacons = s.beacons := rfl
@[simp] theorem State.countError_mgmt (s : State) (e : LinkError) : (s.countError e).mgmt = s.mgmt := rfl
@[simp] theorem State.countError_timing (s : State) (e : LinkError) : (s.countError e).timing = s.timing := rfl
@[simp] theorem State.countError_budgetLeft (s : State) (e : LinkError) : (s.countError e).budgetLeft = s.budgetLeft := rfl
@[simp] theorem State.countError_loader (s : State) (e : LinkError) : (s.countError e).loader = s.loader := rfl
@[simp] theorem State.countError_choices (s : State) (e : LinkError) : (s.countError e).choices = s.choices := rfl
@[simp] theorem State.countError_pending (s : State) (e : LinkError) : (s.countError e).pending = s.pending := rfl

@[simp] theorem State.setUrgent_link (s : State) (f : FieldId) : (s.setUrgent f).link = s.link := rfl
@[simp] theorem State.setUrgent_stations (s : State) (f : FieldId) : (s.setUrgent f).stations = s.stations := rfl
@[simp] theorem State.setUrgent_slots (s : State) (f : FieldId) : (s.setUrgent f).slots = s.slots := rfl
@[simp] theorem State.setUrgent_gate (s : State) (f : FieldId) : (s.setUrgent f).gate = s.gate := rfl
@[simp] theorem State.setUrgent_fields (s : State) (f : FieldId) : (s.setUrgent f).fields = s.fields := rfl
@[simp] theorem State.setUrgent_tallies (s : State) (f : FieldId) : (s.setUrgent f).tallies = s.tallies := rfl
@[simp] theorem State.setUrgent_lines (s : State) (f : FieldId) : (s.setUrgent f).lines = s.lines := rfl
@[simp] theorem State.setUrgent_pins (s : State) (f : FieldId) : (s.setUrgent f).pins = s.pins := rfl
@[simp] theorem State.setUrgent_sampleLeft (s : State) (f : FieldId) : (s.setUrgent f).sampleLeft = s.sampleLeft := rfl
@[simp] theorem State.setUrgent_elements (s : State) (f : FieldId) : (s.setUrgent f).elements = s.elements := rfl
@[simp] theorem State.setUrgent_bus (s : State) (f : FieldId) : (s.setUrgent f).bus = s.bus := rfl
@[simp] theorem State.setUrgent_beacons (s : State) (f : FieldId) : (s.setUrgent f).beacons = { s.beacons with urgent := s.beacons.urgent.put f true } := rfl
@[simp] theorem State.setUrgent_mgmt (s : State) (f : FieldId) : (s.setUrgent f).mgmt = s.mgmt := rfl
@[simp] theorem State.setUrgent_timing (s : State) (f : FieldId) : (s.setUrgent f).timing = s.timing := rfl
@[simp] theorem State.setUrgent_budgetLeft (s : State) (f : FieldId) : (s.setUrgent f).budgetLeft = s.budgetLeft := rfl
@[simp] theorem State.setUrgent_loader (s : State) (f : FieldId) : (s.setUrgent f).loader = s.loader := rfl
@[simp] theorem State.setUrgent_choices (s : State) (f : FieldId) : (s.setUrgent f).choices = s.choices := rfl
@[simp] theorem State.setUrgent_pending (s : State) (f : FieldId) : (s.setUrgent f).pending = s.pending := rfl

@[simp] theorem State.popStore_link (s : State) : (s.popStore).link = { s.link with store := s.link.store.tail } := rfl
@[simp] theorem State.popStore_stations (s : State) : (s.popStore).stations = s.stations := rfl
@[simp] theorem State.popStore_slots (s : State) : (s.popStore).slots = s.slots := rfl
@[simp] theorem State.popStore_gate (s : State) : (s.popStore).gate = s.gate := rfl
@[simp] theorem State.popStore_fields (s : State) : (s.popStore).fields = s.fields := rfl
@[simp] theorem State.popStore_tallies (s : State) : (s.popStore).tallies = s.tallies := rfl
@[simp] theorem State.popStore_lines (s : State) : (s.popStore).lines = s.lines := rfl
@[simp] theorem State.popStore_pins (s : State) : (s.popStore).pins = s.pins := rfl
@[simp] theorem State.popStore_sampleLeft (s : State) : (s.popStore).sampleLeft = s.sampleLeft := rfl
@[simp] theorem State.popStore_elements (s : State) : (s.popStore).elements = s.elements := rfl
@[simp] theorem State.popStore_bus (s : State) : (s.popStore).bus = s.bus := rfl
@[simp] theorem State.popStore_beacons (s : State) : (s.popStore).beacons = s.beacons := rfl
@[simp] theorem State.popStore_mgmt (s : State) : (s.popStore).mgmt = s.mgmt := rfl
@[simp] theorem State.popStore_timing (s : State) : (s.popStore).timing = s.timing := rfl
@[simp] theorem State.popStore_budgetLeft (s : State) : (s.popStore).budgetLeft = s.budgetLeft := rfl
@[simp] theorem State.popStore_loader (s : State) : (s.popStore).loader = s.loader := rfl
@[simp] theorem State.popStore_choices (s : State) : (s.popStore).choices = s.choices := rfl
@[simp] theorem State.popStore_pending (s : State) : (s.popStore).pending = s.pending := rfl

@[simp] theorem State.lessOutstanding_link (s : State) (i : SlotId) : (s.lessOutstanding i).link = s.link := rfl
@[simp] theorem State.lessOutstanding_stations (s : State) (i : SlotId) : (s.lessOutstanding i).stations = s.stations := rfl
@[simp] theorem State.lessOutstanding_slots (s : State) (i : SlotId) : (s.lessOutstanding i).slots = s.slots.put i { s.slots.at i with outstanding := (s.slots.at i).outstanding - 1 } := rfl
@[simp] theorem State.lessOutstanding_gate (s : State) (i : SlotId) : (s.lessOutstanding i).gate = s.gate := rfl
@[simp] theorem State.lessOutstanding_fields (s : State) (i : SlotId) : (s.lessOutstanding i).fields = s.fields := rfl
@[simp] theorem State.lessOutstanding_tallies (s : State) (i : SlotId) : (s.lessOutstanding i).tallies = s.tallies := rfl
@[simp] theorem State.lessOutstanding_lines (s : State) (i : SlotId) : (s.lessOutstanding i).lines = s.lines := rfl
@[simp] theorem State.lessOutstanding_pins (s : State) (i : SlotId) : (s.lessOutstanding i).pins = s.pins := rfl
@[simp] theorem State.lessOutstanding_sampleLeft (s : State) (i : SlotId) : (s.lessOutstanding i).sampleLeft = s.sampleLeft := rfl
@[simp] theorem State.lessOutstanding_elements (s : State) (i : SlotId) : (s.lessOutstanding i).elements = s.elements := rfl
@[simp] theorem State.lessOutstanding_bus (s : State) (i : SlotId) : (s.lessOutstanding i).bus = s.bus := rfl
@[simp] theorem State.lessOutstanding_beacons (s : State) (i : SlotId) : (s.lessOutstanding i).beacons = s.beacons := rfl
@[simp] theorem State.lessOutstanding_mgmt (s : State) (i : SlotId) : (s.lessOutstanding i).mgmt = s.mgmt := rfl
@[simp] theorem State.lessOutstanding_timing (s : State) (i : SlotId) : (s.lessOutstanding i).timing = s.timing := rfl
@[simp] theorem State.lessOutstanding_budgetLeft (s : State) (i : SlotId) : (s.lessOutstanding i).budgetLeft = s.budgetLeft := rfl
@[simp] theorem State.lessOutstanding_loader (s : State) (i : SlotId) : (s.lessOutstanding i).loader = s.loader := rfl
@[simp] theorem State.lessOutstanding_choices (s : State) (i : SlotId) : (s.lessOutstanding i).choices = s.choices := rfl
@[simp] theorem State.lessOutstanding_pending (s : State) (i : SlotId) : (s.lessOutstanding i).pending = s.pending := rfl

@[simp] theorem State.moreOutstanding_link (s : State) (i : SlotId) : (s.moreOutstanding i).link = s.link := rfl
@[simp] theorem State.moreOutstanding_stations (s : State) (i : SlotId) : (s.moreOutstanding i).stations = s.stations := rfl
@[simp] theorem State.moreOutstanding_slots (s : State) (i : SlotId) : (s.moreOutstanding i).slots = s.slots.put i { s.slots.at i with outstanding := (s.slots.at i).outstanding + 1 } := rfl
@[simp] theorem State.moreOutstanding_gate (s : State) (i : SlotId) : (s.moreOutstanding i).gate = s.gate := rfl
@[simp] theorem State.moreOutstanding_fields (s : State) (i : SlotId) : (s.moreOutstanding i).fields = s.fields := rfl
@[simp] theorem State.moreOutstanding_tallies (s : State) (i : SlotId) : (s.moreOutstanding i).tallies = s.tallies := rfl
@[simp] theorem State.moreOutstanding_lines (s : State) (i : SlotId) : (s.moreOutstanding i).lines = s.lines := rfl
@[simp] theorem State.moreOutstanding_pins (s : State) (i : SlotId) : (s.moreOutstanding i).pins = s.pins := rfl
@[simp] theorem State.moreOutstanding_sampleLeft (s : State) (i : SlotId) : (s.moreOutstanding i).sampleLeft = s.sampleLeft := rfl
@[simp] theorem State.moreOutstanding_elements (s : State) (i : SlotId) : (s.moreOutstanding i).elements = s.elements := rfl
@[simp] theorem State.moreOutstanding_bus (s : State) (i : SlotId) : (s.moreOutstanding i).bus = s.bus := rfl
@[simp] theorem State.moreOutstanding_beacons (s : State) (i : SlotId) : (s.moreOutstanding i).beacons = s.beacons := rfl
@[simp] theorem State.moreOutstanding_mgmt (s : State) (i : SlotId) : (s.moreOutstanding i).mgmt = s.mgmt := rfl
@[simp] theorem State.moreOutstanding_timing (s : State) (i : SlotId) : (s.moreOutstanding i).timing = s.timing := rfl
@[simp] theorem State.moreOutstanding_budgetLeft (s : State) (i : SlotId) : (s.moreOutstanding i).budgetLeft = s.budgetLeft := rfl
@[simp] theorem State.moreOutstanding_loader (s : State) (i : SlotId) : (s.moreOutstanding i).loader = s.loader := rfl
@[simp] theorem State.moreOutstanding_choices (s : State) (i : SlotId) : (s.moreOutstanding i).choices = s.choices := rfl
@[simp] theorem State.moreOutstanding_pending (s : State) (i : SlotId) : (s.moreOutstanding i).pending = s.pending := rfl

@[simp] theorem State.setMode_link (s : State) (m : DeviceMode) : (s.setMode m).link = s.link := rfl
@[simp] theorem State.setMode_stations (s : State) (m : DeviceMode) : (s.setMode m).stations = s.stations := rfl
@[simp] theorem State.setMode_slots (s : State) (m : DeviceMode) : (s.setMode m).slots = s.slots := rfl
@[simp] theorem State.setMode_gate (s : State) (m : DeviceMode) : (s.setMode m).gate = s.gate := rfl
@[simp] theorem State.setMode_fields (s : State) (m : DeviceMode) : (s.setMode m).fields = s.fields := rfl
@[simp] theorem State.setMode_tallies (s : State) (m : DeviceMode) : (s.setMode m).tallies = s.tallies := rfl
@[simp] theorem State.setMode_lines (s : State) (m : DeviceMode) : (s.setMode m).lines = s.lines := rfl
@[simp] theorem State.setMode_pins (s : State) (m : DeviceMode) : (s.setMode m).pins = s.pins := rfl
@[simp] theorem State.setMode_sampleLeft (s : State) (m : DeviceMode) : (s.setMode m).sampleLeft = s.sampleLeft := rfl
@[simp] theorem State.setMode_elements (s : State) (m : DeviceMode) : (s.setMode m).elements = s.elements := rfl
@[simp] theorem State.setMode_bus (s : State) (m : DeviceMode) : (s.setMode m).bus = s.bus := rfl
@[simp] theorem State.setMode_beacons (s : State) (m : DeviceMode) : (s.setMode m).beacons = s.beacons := rfl
@[simp] theorem State.setMode_mgmt (s : State) (m : DeviceMode) : (s.setMode m).mgmt = { s.mgmt with mode := m } := rfl
@[simp] theorem State.setMode_timing (s : State) (m : DeviceMode) : (s.setMode m).timing = s.timing := rfl
@[simp] theorem State.setMode_budgetLeft (s : State) (m : DeviceMode) : (s.setMode m).budgetLeft = s.budgetLeft := rfl
@[simp] theorem State.setMode_loader (s : State) (m : DeviceMode) : (s.setMode m).loader = s.loader := rfl
@[simp] theorem State.setMode_choices (s : State) (m : DeviceMode) : (s.setMode m).choices = s.choices := rfl
@[simp] theorem State.setMode_pending (s : State) (m : DeviceMode) : (s.setMode m).pending = s.pending := rfl

@[simp] theorem State.setCursor_link (s : State) (t : ReadTable) (n : Nat) : (s.setCursor t n).link = s.link := rfl
@[simp] theorem State.setCursor_stations (s : State) (t : ReadTable) (n : Nat) : (s.setCursor t n).stations = s.stations := rfl
@[simp] theorem State.setCursor_slots (s : State) (t : ReadTable) (n : Nat) : (s.setCursor t n).slots = s.slots := rfl
@[simp] theorem State.setCursor_gate (s : State) (t : ReadTable) (n : Nat) : (s.setCursor t n).gate = s.gate := rfl
@[simp] theorem State.setCursor_fields (s : State) (t : ReadTable) (n : Nat) : (s.setCursor t n).fields = s.fields := rfl
@[simp] theorem State.setCursor_tallies (s : State) (t : ReadTable) (n : Nat) : (s.setCursor t n).tallies = s.tallies := rfl
@[simp] theorem State.setCursor_lines (s : State) (t : ReadTable) (n : Nat) : (s.setCursor t n).lines = s.lines := rfl
@[simp] theorem State.setCursor_pins (s : State) (t : ReadTable) (n : Nat) : (s.setCursor t n).pins = s.pins := rfl
@[simp] theorem State.setCursor_sampleLeft (s : State) (t : ReadTable) (n : Nat) : (s.setCursor t n).sampleLeft = s.sampleLeft := rfl
@[simp] theorem State.setCursor_elements (s : State) (t : ReadTable) (n : Nat) : (s.setCursor t n).elements = s.elements := rfl
@[simp] theorem State.setCursor_bus (s : State) (t : ReadTable) (n : Nat) : (s.setCursor t n).bus = s.bus := rfl
@[simp] theorem State.setCursor_beacons (s : State) (t : ReadTable) (n : Nat) : (s.setCursor t n).beacons = s.beacons := rfl
@[simp] theorem State.setCursor_mgmt (s : State) (t : ReadTable) (n : Nat) : (s.setCursor t n).mgmt = { s.mgmt with cursor := some (t, n) } := rfl
@[simp] theorem State.setCursor_timing (s : State) (t : ReadTable) (n : Nat) : (s.setCursor t n).timing = s.timing := rfl
@[simp] theorem State.setCursor_budgetLeft (s : State) (t : ReadTable) (n : Nat) : (s.setCursor t n).budgetLeft = s.budgetLeft := rfl
@[simp] theorem State.setCursor_loader (s : State) (t : ReadTable) (n : Nat) : (s.setCursor t n).loader = s.loader := rfl
@[simp] theorem State.setCursor_choices (s : State) (t : ReadTable) (n : Nat) : (s.setCursor t n).choices = s.choices := rfl
@[simp] theorem State.setCursor_pending (s : State) (t : ReadTable) (n : Nat) : (s.setCursor t n).pending = s.pending := rfl

@[simp] theorem State.dropSafe_link (s : State) (e : ElementId) : (s.dropSafe e).link = s.link := rfl
@[simp] theorem State.dropSafe_stations (s : State) (e : ElementId) : (s.dropSafe e).stations = s.stations := rfl
@[simp] theorem State.dropSafe_slots (s : State) (e : ElementId) : (s.dropSafe e).slots = s.slots := rfl
@[simp] theorem State.dropSafe_gate (s : State) (e : ElementId) : (s.dropSafe e).gate = s.gate := rfl
@[simp] theorem State.dropSafe_fields (s : State) (e : ElementId) : (s.dropSafe e).fields = s.fields := rfl
@[simp] theorem State.dropSafe_tallies (s : State) (e : ElementId) : (s.dropSafe e).tallies = s.tallies := rfl
@[simp] theorem State.dropSafe_lines (s : State) (e : ElementId) : (s.dropSafe e).lines = s.lines := rfl
@[simp] theorem State.dropSafe_pins (s : State) (e : ElementId) : (s.dropSafe e).pins = s.pins := rfl
@[simp] theorem State.dropSafe_sampleLeft (s : State) (e : ElementId) : (s.dropSafe e).sampleLeft = s.sampleLeft := rfl
@[simp] theorem State.dropSafe_elements (s : State) (e : ElementId) : (s.dropSafe e).elements = s.elements := rfl
@[simp] theorem State.dropSafe_bus (s : State) (e : ElementId) : (s.dropSafe e).bus = { s.bus with safeQueue := s.bus.safeQueue.filter (· != e) } := rfl
@[simp] theorem State.dropSafe_beacons (s : State) (e : ElementId) : (s.dropSafe e).beacons = s.beacons := rfl
@[simp] theorem State.dropSafe_mgmt (s : State) (e : ElementId) : (s.dropSafe e).mgmt = s.mgmt := rfl
@[simp] theorem State.dropSafe_timing (s : State) (e : ElementId) : (s.dropSafe e).timing = s.timing := rfl
@[simp] theorem State.dropSafe_budgetLeft (s : State) (e : ElementId) : (s.dropSafe e).budgetLeft = s.budgetLeft := rfl
@[simp] theorem State.dropSafe_loader (s : State) (e : ElementId) : (s.dropSafe e).loader = s.loader := rfl
@[simp] theorem State.dropSafe_choices (s : State) (e : ElementId) : (s.dropSafe e).choices = s.choices := rfl
@[simp] theorem State.dropSafe_pending (s : State) (e : ElementId) : (s.dropSafe e).pending = s.pending := rfl

@[simp] theorem State.fly_link (s : State) (t : Transaction) : (s.fly t).link = s.link := rfl
@[simp] theorem State.fly_stations (s : State) (t : Transaction) : (s.fly t).stations = s.stations := rfl
@[simp] theorem State.fly_slots (s : State) (t : Transaction) : (s.fly t).slots = s.slots := rfl
@[simp] theorem State.fly_gate (s : State) (t : Transaction) : (s.fly t).gate = s.gate := rfl
@[simp] theorem State.fly_fields (s : State) (t : Transaction) : (s.fly t).fields = s.fields := rfl
@[simp] theorem State.fly_tallies (s : State) (t : Transaction) : (s.fly t).tallies = s.tallies := rfl
@[simp] theorem State.fly_lines (s : State) (t : Transaction) : (s.fly t).lines = s.lines := rfl
@[simp] theorem State.fly_pins (s : State) (t : Transaction) : (s.fly t).pins = s.pins := rfl
@[simp] theorem State.fly_sampleLeft (s : State) (t : Transaction) : (s.fly t).sampleLeft = s.sampleLeft := rfl
@[simp] theorem State.fly_elements (s : State) (t : Transaction) : (s.fly t).elements = s.elements := rfl
@[simp] theorem State.fly_bus (s : State) (t : Transaction) : (s.fly t).bus = { s.bus with activity := .flight t } := rfl
@[simp] theorem State.fly_beacons (s : State) (t : Transaction) : (s.fly t).beacons = s.beacons := rfl
@[simp] theorem State.fly_mgmt (s : State) (t : Transaction) : (s.fly t).mgmt = s.mgmt := rfl
@[simp] theorem State.fly_timing (s : State) (t : Transaction) : (s.fly t).timing = s.timing := rfl
@[simp] theorem State.fly_budgetLeft (s : State) (t : Transaction) : (s.fly t).budgetLeft = s.budgetLeft := rfl
@[simp] theorem State.fly_loader (s : State) (t : Transaction) : (s.fly t).loader = s.loader := rfl
@[simp] theorem State.fly_choices (s : State) (t : Transaction) : (s.fly t).choices = s.choices := rfl
@[simp] theorem State.fly_pending (s : State) (t : Transaction) : (s.fly t).pending = s.pending := rfl

@[simp] theorem State.setFetch_link (s : State) (e : ElementId) : (s.setFetch e).link = s.link := rfl
@[simp] theorem State.setFetch_stations (s : State) (e : ElementId) : (s.setFetch e).stations = s.stations := rfl
@[simp] theorem State.setFetch_slots (s : State) (e : ElementId) : (s.setFetch e).slots = s.slots := rfl
@[simp] theorem State.setFetch_gate (s : State) (e : ElementId) : (s.setFetch e).gate = s.gate := rfl
@[simp] theorem State.setFetch_fields (s : State) (e : ElementId) : (s.setFetch e).fields = s.fields := rfl
@[simp] theorem State.setFetch_tallies (s : State) (e : ElementId) : (s.setFetch e).tallies = s.tallies := rfl
@[simp] theorem State.setFetch_lines (s : State) (e : ElementId) : (s.setFetch e).lines = s.lines := rfl
@[simp] theorem State.setFetch_pins (s : State) (e : ElementId) : (s.setFetch e).pins = s.pins := rfl
@[simp] theorem State.setFetch_sampleLeft (s : State) (e : ElementId) : (s.setFetch e).sampleLeft = s.sampleLeft := rfl
@[simp] theorem State.setFetch_bus (s : State) (e : ElementId) : (s.setFetch e).bus = s.bus := rfl
@[simp] theorem State.setFetch_beacons (s : State) (e : ElementId) : (s.setFetch e).beacons = s.beacons := rfl
@[simp] theorem State.setFetch_mgmt (s : State) (e : ElementId) : (s.setFetch e).mgmt = s.mgmt := rfl
@[simp] theorem State.setFetch_timing (s : State) (e : ElementId) : (s.setFetch e).timing = s.timing := rfl
@[simp] theorem State.setFetch_budgetLeft (s : State) (e : ElementId) : (s.setFetch e).budgetLeft = s.budgetLeft := rfl
@[simp] theorem State.setFetch_loader (s : State) (e : ElementId) : (s.setFetch e).loader = s.loader := rfl
@[simp] theorem State.setFetch_choices (s : State) (e : ElementId) : (s.setFetch e).choices = s.choices := rfl
@[simp] theorem State.setFetch_pending (s : State) (e : ElementId) : (s.setFetch e).pending = s.pending := rfl

@[simp] theorem State.setRetries_link (s : State) (e : ElementId) (n : Nat) : (s.setRetries e n).link = s.link := rfl
@[simp] theorem State.setRetries_stations (s : State) (e : ElementId) (n : Nat) : (s.setRetries e n).stations = s.stations := rfl
@[simp] theorem State.setRetries_slots (s : State) (e : ElementId) (n : Nat) : (s.setRetries e n).slots = s.slots := rfl
@[simp] theorem State.setRetries_gate (s : State) (e : ElementId) (n : Nat) : (s.setRetries e n).gate = s.gate := rfl
@[simp] theorem State.setRetries_fields (s : State) (e : ElementId) (n : Nat) : (s.setRetries e n).fields = s.fields := rfl
@[simp] theorem State.setRetries_tallies (s : State) (e : ElementId) (n : Nat) : (s.setRetries e n).tallies = s.tallies := rfl
@[simp] theorem State.setRetries_lines (s : State) (e : ElementId) (n : Nat) : (s.setRetries e n).lines = s.lines := rfl
@[simp] theorem State.setRetries_pins (s : State) (e : ElementId) (n : Nat) : (s.setRetries e n).pins = s.pins := rfl
@[simp] theorem State.setRetries_sampleLeft (s : State) (e : ElementId) (n : Nat) : (s.setRetries e n).sampleLeft = s.sampleLeft := rfl
@[simp] theorem State.setRetries_bus (s : State) (e : ElementId) (n : Nat) : (s.setRetries e n).bus = s.bus := rfl
@[simp] theorem State.setRetries_beacons (s : State) (e : ElementId) (n : Nat) : (s.setRetries e n).beacons = s.beacons := rfl
@[simp] theorem State.setRetries_mgmt (s : State) (e : ElementId) (n : Nat) : (s.setRetries e n).mgmt = s.mgmt := rfl
@[simp] theorem State.setRetries_timing (s : State) (e : ElementId) (n : Nat) : (s.setRetries e n).timing = s.timing := rfl
@[simp] theorem State.setRetries_budgetLeft (s : State) (e : ElementId) (n : Nat) : (s.setRetries e n).budgetLeft = s.budgetLeft := rfl
@[simp] theorem State.setRetries_loader (s : State) (e : ElementId) (n : Nat) : (s.setRetries e n).loader = s.loader := rfl
@[simp] theorem State.setRetries_choices (s : State) (e : ElementId) (n : Nat) : (s.setRetries e n).choices = s.choices := rfl
@[simp] theorem State.setRetries_pending (s : State) (e : ElementId) (n : Nat) : (s.setRetries e n).pending = s.pending := rfl

@[simp] theorem State.restartActionPoll_link (s : State) (e : ElementId) : (s.restartActionPoll e).link = s.link := rfl
@[simp] theorem State.restartActionPoll_stations (s : State) (e : ElementId) : (s.restartActionPoll e).stations = s.stations := rfl
@[simp] theorem State.restartActionPoll_slots (s : State) (e : ElementId) : (s.restartActionPoll e).slots = s.slots := rfl
@[simp] theorem State.restartActionPoll_gate (s : State) (e : ElementId) : (s.restartActionPoll e).gate = s.gate := rfl
@[simp] theorem State.restartActionPoll_fields (s : State) (e : ElementId) : (s.restartActionPoll e).fields = s.fields := rfl
@[simp] theorem State.restartActionPoll_tallies (s : State) (e : ElementId) : (s.restartActionPoll e).tallies = s.tallies := rfl
@[simp] theorem State.restartActionPoll_lines (s : State) (e : ElementId) : (s.restartActionPoll e).lines = s.lines := rfl
@[simp] theorem State.restartActionPoll_pins (s : State) (e : ElementId) : (s.restartActionPoll e).pins = s.pins := rfl
@[simp] theorem State.restartActionPoll_sampleLeft (s : State) (e : ElementId) : (s.restartActionPoll e).sampleLeft = s.sampleLeft := rfl
@[simp] theorem State.restartActionPoll_bus (s : State) (e : ElementId) : (s.restartActionPoll e).bus = s.bus := rfl
@[simp] theorem State.restartActionPoll_beacons (s : State) (e : ElementId) : (s.restartActionPoll e).beacons = s.beacons := rfl
@[simp] theorem State.restartActionPoll_mgmt (s : State) (e : ElementId) : (s.restartActionPoll e).mgmt = s.mgmt := rfl
@[simp] theorem State.restartActionPoll_timing (s : State) (e : ElementId) : (s.restartActionPoll e).timing = s.timing := rfl
@[simp] theorem State.restartActionPoll_budgetLeft (s : State) (e : ElementId) : (s.restartActionPoll e).budgetLeft = s.budgetLeft := rfl
@[simp] theorem State.restartActionPoll_loader (s : State) (e : ElementId) : (s.restartActionPoll e).loader = s.loader := rfl
@[simp] theorem State.restartActionPoll_choices (s : State) (e : ElementId) : (s.restartActionPoll e).choices = s.choices := rfl
@[simp] theorem State.restartActionPoll_pending (s : State) (e : ElementId) : (s.restartActionPoll e).pending = s.pending := rfl

@[simp] theorem State.restartSensor_link (s : State) (e : ElementId) : (s.restartSensor e).link = s.link := rfl
@[simp] theorem State.restartSensor_stations (s : State) (e : ElementId) : (s.restartSensor e).stations = s.stations := rfl
@[simp] theorem State.restartSensor_slots (s : State) (e : ElementId) : (s.restartSensor e).slots = s.slots := rfl
@[simp] theorem State.restartSensor_gate (s : State) (e : ElementId) : (s.restartSensor e).gate = s.gate := rfl
@[simp] theorem State.restartSensor_fields (s : State) (e : ElementId) : (s.restartSensor e).fields = s.fields := rfl
@[simp] theorem State.restartSensor_tallies (s : State) (e : ElementId) : (s.restartSensor e).tallies = s.tallies := rfl
@[simp] theorem State.restartSensor_lines (s : State) (e : ElementId) : (s.restartSensor e).lines = s.lines := rfl
@[simp] theorem State.restartSensor_pins (s : State) (e : ElementId) : (s.restartSensor e).pins = s.pins := rfl
@[simp] theorem State.restartSensor_sampleLeft (s : State) (e : ElementId) : (s.restartSensor e).sampleLeft = s.sampleLeft := rfl
@[simp] theorem State.restartSensor_bus (s : State) (e : ElementId) : (s.restartSensor e).bus = s.bus := rfl
@[simp] theorem State.restartSensor_beacons (s : State) (e : ElementId) : (s.restartSensor e).beacons = s.beacons := rfl
@[simp] theorem State.restartSensor_mgmt (s : State) (e : ElementId) : (s.restartSensor e).mgmt = s.mgmt := rfl
@[simp] theorem State.restartSensor_timing (s : State) (e : ElementId) : (s.restartSensor e).timing = s.timing := rfl
@[simp] theorem State.restartSensor_budgetLeft (s : State) (e : ElementId) : (s.restartSensor e).budgetLeft = s.budgetLeft := rfl
@[simp] theorem State.restartSensor_loader (s : State) (e : ElementId) : (s.restartSensor e).loader = s.loader := rfl
@[simp] theorem State.restartSensor_choices (s : State) (e : ElementId) : (s.restartSensor e).choices = s.choices := rfl
@[simp] theorem State.restartSensor_pending (s : State) (e : ElementId) : (s.restartSensor e).pending = s.pending := rfl

@[simp] theorem State.writeRule_link (s : State) (e : ElementId) (k : EventKind) (r : ScoreRule) : (s.writeRule e k r).link = s.link := rfl
@[simp] theorem State.writeRule_stations (s : State) (e : ElementId) (k : EventKind) (r : ScoreRule) : (s.writeRule e k r).stations = s.stations := rfl
@[simp] theorem State.writeRule_slots (s : State) (e : ElementId) (k : EventKind) (r : ScoreRule) : (s.writeRule e k r).slots = s.slots := rfl
@[simp] theorem State.writeRule_gate (s : State) (e : ElementId) (k : EventKind) (r : ScoreRule) : (s.writeRule e k r).gate = s.gate := rfl
@[simp] theorem State.writeRule_fields (s : State) (e : ElementId) (k : EventKind) (r : ScoreRule) : (s.writeRule e k r).fields = s.fields := rfl
@[simp] theorem State.writeRule_tallies (s : State) (e : ElementId) (k : EventKind) (r : ScoreRule) : (s.writeRule e k r).tallies = s.tallies := rfl
@[simp] theorem State.writeRule_lines (s : State) (e : ElementId) (k : EventKind) (r : ScoreRule) : (s.writeRule e k r).lines = s.lines := rfl
@[simp] theorem State.writeRule_pins (s : State) (e : ElementId) (k : EventKind) (r : ScoreRule) : (s.writeRule e k r).pins = s.pins := rfl
@[simp] theorem State.writeRule_sampleLeft (s : State) (e : ElementId) (k : EventKind) (r : ScoreRule) : (s.writeRule e k r).sampleLeft = s.sampleLeft := rfl
@[simp] theorem State.writeRule_bus (s : State) (e : ElementId) (k : EventKind) (r : ScoreRule) : (s.writeRule e k r).bus = s.bus := rfl
@[simp] theorem State.writeRule_beacons (s : State) (e : ElementId) (k : EventKind) (r : ScoreRule) : (s.writeRule e k r).beacons = s.beacons := rfl
@[simp] theorem State.writeRule_mgmt (s : State) (e : ElementId) (k : EventKind) (r : ScoreRule) : (s.writeRule e k r).mgmt = s.mgmt := rfl
@[simp] theorem State.writeRule_timing (s : State) (e : ElementId) (k : EventKind) (r : ScoreRule) : (s.writeRule e k r).timing = s.timing := rfl
@[simp] theorem State.writeRule_budgetLeft (s : State) (e : ElementId) (k : EventKind) (r : ScoreRule) : (s.writeRule e k r).budgetLeft = s.budgetLeft := rfl
@[simp] theorem State.writeRule_loader (s : State) (e : ElementId) (k : EventKind) (r : ScoreRule) : (s.writeRule e k r).loader = s.loader := rfl
@[simp] theorem State.writeRule_choices (s : State) (e : ElementId) (k : EventKind) (r : ScoreRule) : (s.writeRule e k r).choices = s.choices := rfl
@[simp] theorem State.writeRule_pending (s : State) (e : ElementId) (k : EventKind) (r : ScoreRule) : (s.writeRule e k r).pending = s.pending := rfl

@[simp] theorem State.clearFlags_link (s : State) (p : LineId → Bool) : (s.clearFlags p).link = s.link := rfl
@[simp] theorem State.clearFlags_stations (s : State) (p : LineId → Bool) : (s.clearFlags p).stations = s.stations := rfl
@[simp] theorem State.clearFlags_slots (s : State) (p : LineId → Bool) : (s.clearFlags p).slots = s.slots := rfl
@[simp] theorem State.clearFlags_gate (s : State) (p : LineId → Bool) : (s.clearFlags p).gate = s.gate := rfl
@[simp] theorem State.clearFlags_fields (s : State) (p : LineId → Bool) : (s.clearFlags p).fields = s.fields := rfl
@[simp] theorem State.clearFlags_tallies (s : State) (p : LineId → Bool) : (s.clearFlags p).tallies = s.tallies := rfl
@[simp] theorem State.clearFlags_lines (s : State) (p : LineId → Bool) : (s.clearFlags p).lines = clearEdges (fun n _ => p n) s.lines := rfl
@[simp] theorem State.clearFlags_pins (s : State) (p : LineId → Bool) : (s.clearFlags p).pins = s.pins := rfl
@[simp] theorem State.clearFlags_sampleLeft (s : State) (p : LineId → Bool) : (s.clearFlags p).sampleLeft = s.sampleLeft := rfl
@[simp] theorem State.clearFlags_elements (s : State) (p : LineId → Bool) : (s.clearFlags p).elements = s.elements := rfl
@[simp] theorem State.clearFlags_bus (s : State) (p : LineId → Bool) : (s.clearFlags p).bus = s.bus := rfl
@[simp] theorem State.clearFlags_beacons (s : State) (p : LineId → Bool) : (s.clearFlags p).beacons = s.beacons := rfl
@[simp] theorem State.clearFlags_mgmt (s : State) (p : LineId → Bool) : (s.clearFlags p).mgmt = s.mgmt := rfl
@[simp] theorem State.clearFlags_timing (s : State) (p : LineId → Bool) : (s.clearFlags p).timing = s.timing := rfl
@[simp] theorem State.clearFlags_budgetLeft (s : State) (p : LineId → Bool) : (s.clearFlags p).budgetLeft = s.budgetLeft := rfl
@[simp] theorem State.clearFlags_loader (s : State) (p : LineId → Bool) : (s.clearFlags p).loader = s.loader := rfl
@[simp] theorem State.clearFlags_choices (s : State) (p : LineId → Bool) : (s.clearFlags p).choices = s.choices := rfl
@[simp] theorem State.clearFlags_pending (s : State) (p : LineId → Bool) : (s.clearFlags p).pending = s.pending := rfl

@[simp] theorem State.applyLine_link (s : State) (n : LineId) (r : LineRole) (v : Level) (b : Bool) : (s.applyLine n r v b).link = s.link := rfl
@[simp] theorem State.applyLine_stations (s : State) (n : LineId) (r : LineRole) (v : Level) (b : Bool) : (s.applyLine n r v b).stations = s.stations := rfl
@[simp] theorem State.applyLine_slots (s : State) (n : LineId) (r : LineRole) (v : Level) (b : Bool) : (s.applyLine n r v b).slots = s.slots := rfl
@[simp] theorem State.applyLine_gate (s : State) (n : LineId) (r : LineRole) (v : Level) (b : Bool) : (s.applyLine n r v b).gate = s.gate := rfl
@[simp] theorem State.applyLine_fields (s : State) (n : LineId) (r : LineRole) (v : Level) (b : Bool) : (s.applyLine n r v b).fields = s.fields := rfl
@[simp] theorem State.applyLine_tallies (s : State) (n : LineId) (r : LineRole) (v : Level) (b : Bool) : (s.applyLine n r v b).tallies = s.tallies := rfl
@[simp] theorem State.applyLine_pins (s : State) (n : LineId) (r : LineRole) (v : Level) (b : Bool) : (s.applyLine n r v b).pins = s.pins := rfl
@[simp] theorem State.applyLine_sampleLeft (s : State) (n : LineId) (r : LineRole) (v : Level) (b : Bool) : (s.applyLine n r v b).sampleLeft = s.sampleLeft := rfl
@[simp] theorem State.applyLine_elements (s : State) (n : LineId) (r : LineRole) (v : Level) (b : Bool) : (s.applyLine n r v b).elements = s.elements := rfl
@[simp] theorem State.applyLine_bus (s : State) (n : LineId) (r : LineRole) (v : Level) (b : Bool) : (s.applyLine n r v b).bus = s.bus := rfl
@[simp] theorem State.applyLine_beacons (s : State) (n : LineId) (r : LineRole) (v : Level) (b : Bool) : (s.applyLine n r v b).beacons = s.beacons := rfl
@[simp] theorem State.applyLine_mgmt (s : State) (n : LineId) (r : LineRole) (v : Level) (b : Bool) : (s.applyLine n r v b).mgmt = s.mgmt := rfl
@[simp] theorem State.applyLine_timing (s : State) (n : LineId) (r : LineRole) (v : Level) (b : Bool) : (s.applyLine n r v b).timing = s.timing := rfl
@[simp] theorem State.applyLine_budgetLeft (s : State) (n : LineId) (r : LineRole) (v : Level) (b : Bool) : (s.applyLine n r v b).budgetLeft = s.budgetLeft := rfl
@[simp] theorem State.applyLine_loader (s : State) (n : LineId) (r : LineRole) (v : Level) (b : Bool) : (s.applyLine n r v b).loader = s.loader := rfl
@[simp] theorem State.applyLine_choices (s : State) (n : LineId) (r : LineRole) (v : Level) (b : Bool) : (s.applyLine n r v b).choices = s.choices := rfl
@[simp] theorem State.applyLine_pending (s : State) (n : LineId) (r : LineRole) (v : Level) (b : Bool) : (s.applyLine n r v b).pending = s.pending := rfl

@[simp] theorem State.releaseSlot_link (s : State) (i : SlotId) : (s.releaseSlot i).link = s.link := rfl
@[simp] theorem State.releaseSlot_stations (s : State) (i : SlotId) : (s.releaseSlot i).stations = s.stations := rfl
@[simp] theorem State.releaseSlot_gate (s : State) (i : SlotId) : (s.releaseSlot i).gate = s.gate := rfl
@[simp] theorem State.releaseSlot_fields (s : State) (i : SlotId) : (s.releaseSlot i).fields = s.fields := rfl
@[simp] theorem State.releaseSlot_tallies (s : State) (i : SlotId) : (s.releaseSlot i).tallies = s.tallies := rfl
@[simp] theorem State.releaseSlot_lines (s : State) (i : SlotId) : (s.releaseSlot i).lines = s.lines := rfl
@[simp] theorem State.releaseSlot_pins (s : State) (i : SlotId) : (s.releaseSlot i).pins = s.pins := rfl
@[simp] theorem State.releaseSlot_sampleLeft (s : State) (i : SlotId) : (s.releaseSlot i).sampleLeft = s.sampleLeft := rfl
@[simp] theorem State.releaseSlot_elements (s : State) (i : SlotId) : (s.releaseSlot i).elements = s.elements := rfl
@[simp] theorem State.releaseSlot_bus (s : State) (i : SlotId) : (s.releaseSlot i).bus = s.bus := rfl
@[simp] theorem State.releaseSlot_beacons (s : State) (i : SlotId) : (s.releaseSlot i).beacons = s.beacons := rfl
@[simp] theorem State.releaseSlot_mgmt (s : State) (i : SlotId) : (s.releaseSlot i).mgmt = s.mgmt := rfl
@[simp] theorem State.releaseSlot_timing (s : State) (i : SlotId) : (s.releaseSlot i).timing = s.timing := rfl
@[simp] theorem State.releaseSlot_budgetLeft (s : State) (i : SlotId) : (s.releaseSlot i).budgetLeft = s.budgetLeft := rfl
@[simp] theorem State.releaseSlot_loader (s : State) (i : SlotId) : (s.releaseSlot i).loader = s.loader := rfl
@[simp] theorem State.releaseSlot_choices (s : State) (i : SlotId) : (s.releaseSlot i).choices = s.choices := rfl
@[simp] theorem State.releaseSlot_pending (s : State) (i : SlotId) : (s.releaseSlot i).pending = s.pending := rfl

@[simp] theorem State.placeSlot_link (s : State) (f : FieldId) (i : SlotId) (a : Alliance) (n : Nat) : (s.placeSlot f i a n).link = s.link := rfl
@[simp] theorem State.placeSlot_stations (s : State) (f : FieldId) (i : SlotId) (a : Alliance) (n : Nat) : (s.placeSlot f i a n).stations = s.stations := rfl
@[simp] theorem State.placeSlot_gate (s : State) (f : FieldId) (i : SlotId) (a : Alliance) (n : Nat) : (s.placeSlot f i a n).gate = s.gate := rfl
@[simp] theorem State.placeSlot_fields (s : State) (f : FieldId) (i : SlotId) (a : Alliance) (n : Nat) : (s.placeSlot f i a n).fields = s.fields := rfl
@[simp] theorem State.placeSlot_tallies (s : State) (f : FieldId) (i : SlotId) (a : Alliance) (n : Nat) : (s.placeSlot f i a n).tallies = s.tallies := rfl
@[simp] theorem State.placeSlot_lines (s : State) (f : FieldId) (i : SlotId) (a : Alliance) (n : Nat) : (s.placeSlot f i a n).lines = s.lines := rfl
@[simp] theorem State.placeSlot_pins (s : State) (f : FieldId) (i : SlotId) (a : Alliance) (n : Nat) : (s.placeSlot f i a n).pins = s.pins := rfl
@[simp] theorem State.placeSlot_sampleLeft (s : State) (f : FieldId) (i : SlotId) (a : Alliance) (n : Nat) : (s.placeSlot f i a n).sampleLeft = s.sampleLeft := rfl
@[simp] theorem State.placeSlot_elements (s : State) (f : FieldId) (i : SlotId) (a : Alliance) (n : Nat) : (s.placeSlot f i a n).elements = s.elements := rfl
@[simp] theorem State.placeSlot_bus (s : State) (f : FieldId) (i : SlotId) (a : Alliance) (n : Nat) : (s.placeSlot f i a n).bus = s.bus := rfl
@[simp] theorem State.placeSlot_beacons (s : State) (f : FieldId) (i : SlotId) (a : Alliance) (n : Nat) : (s.placeSlot f i a n).beacons = s.beacons := rfl
@[simp] theorem State.placeSlot_mgmt (s : State) (f : FieldId) (i : SlotId) (a : Alliance) (n : Nat) : (s.placeSlot f i a n).mgmt = s.mgmt := rfl
@[simp] theorem State.placeSlot_timing (s : State) (f : FieldId) (i : SlotId) (a : Alliance) (n : Nat) : (s.placeSlot f i a n).timing = s.timing := rfl
@[simp] theorem State.placeSlot_budgetLeft (s : State) (f : FieldId) (i : SlotId) (a : Alliance) (n : Nat) : (s.placeSlot f i a n).budgetLeft = s.budgetLeft := rfl
@[simp] theorem State.placeSlot_loader (s : State) (f : FieldId) (i : SlotId) (a : Alliance) (n : Nat) : (s.placeSlot f i a n).loader = s.loader := rfl
@[simp] theorem State.placeSlot_choices (s : State) (f : FieldId) (i : SlotId) (a : Alliance) (n : Nat) : (s.placeSlot f i a n).choices = s.choices := rfl
@[simp] theorem State.placeSlot_pending (s : State) (f : FieldId) (i : SlotId) (a : Alliance) (n : Nat) : (s.placeSlot f i a n).pending = s.pending := rfl

@[simp] theorem State.send_link (s : State) (f : Frame) (b : Bool) : (s.send f b).link = { s.link with transmitter := .sending f.wire s.link.rate b } := rfl
@[simp] theorem State.send_stations (s : State) (f : Frame) (b : Bool) : (s.send f b).stations = s.stations := rfl
@[simp] theorem State.send_slots (s : State) (f : Frame) (b : Bool) : (s.send f b).slots = s.slots := rfl
@[simp] theorem State.send_gate (s : State) (f : Frame) (b : Bool) : (s.send f b).gate = s.gate := rfl
@[simp] theorem State.send_fields (s : State) (f : Frame) (b : Bool) : (s.send f b).fields = s.fields := rfl
@[simp] theorem State.send_tallies (s : State) (f : Frame) (b : Bool) : (s.send f b).tallies = s.tallies := rfl
@[simp] theorem State.send_lines (s : State) (f : Frame) (b : Bool) : (s.send f b).lines = s.lines := rfl
@[simp] theorem State.send_pins (s : State) (f : Frame) (b : Bool) : (s.send f b).pins = s.pins := rfl
@[simp] theorem State.send_sampleLeft (s : State) (f : Frame) (b : Bool) : (s.send f b).sampleLeft = s.sampleLeft := rfl
@[simp] theorem State.send_elements (s : State) (f : Frame) (b : Bool) : (s.send f b).elements = s.elements := rfl
@[simp] theorem State.send_bus (s : State) (f : Frame) (b : Bool) : (s.send f b).bus = s.bus := rfl
@[simp] theorem State.send_beacons (s : State) (f : Frame) (b : Bool) : (s.send f b).beacons = s.beacons := rfl
@[simp] theorem State.send_mgmt (s : State) (f : Frame) (b : Bool) : (s.send f b).mgmt = s.mgmt := rfl
@[simp] theorem State.send_timing (s : State) (f : Frame) (b : Bool) : (s.send f b).timing = s.timing := rfl
@[simp] theorem State.send_budgetLeft (s : State) (f : Frame) (b : Bool) : (s.send f b).budgetLeft = s.budgetLeft := rfl
@[simp] theorem State.send_loader (s : State) (f : Frame) (b : Bool) : (s.send f b).loader = s.loader := rfl
@[simp] theorem State.send_choices (s : State) (f : Frame) (b : Bool) : (s.send f b).choices = s.choices := rfl
@[simp] theorem State.send_pending (s : State) (f : Frame) (b : Bool) : (s.send f b).pending = s.pending := rfl

@[simp] theorem State.refillAll_link (s : State) : (s.refillAll).link = s.link := rfl
@[simp] theorem State.refillAll_stations (s : State) : (s.refillAll).stations = s.stations := rfl
@[simp] theorem State.refillAll_gate (s : State) : (s.refillAll).gate = s.gate := rfl
@[simp] theorem State.refillAll_fields (s : State) : (s.refillAll).fields = s.fields := rfl
@[simp] theorem State.refillAll_tallies (s : State) : (s.refillAll).tallies = s.tallies := rfl
@[simp] theorem State.refillAll_lines (s : State) : (s.refillAll).lines = s.lines := rfl
@[simp] theorem State.refillAll_pins (s : State) : (s.refillAll).pins = s.pins := rfl
@[simp] theorem State.refillAll_sampleLeft (s : State) : (s.refillAll).sampleLeft = s.sampleLeft := rfl
@[simp] theorem State.refillAll_elements (s : State) : (s.refillAll).elements = s.elements := rfl
@[simp] theorem State.refillAll_bus (s : State) : (s.refillAll).bus = s.bus := rfl
@[simp] theorem State.refillAll_beacons (s : State) : (s.refillAll).beacons = s.beacons := rfl
@[simp] theorem State.refillAll_mgmt (s : State) : (s.refillAll).mgmt = s.mgmt := rfl
@[simp] theorem State.refillAll_timing (s : State) : (s.refillAll).timing = s.timing := rfl
@[simp] theorem State.refillAll_budgetLeft (s : State) : (s.refillAll).budgetLeft = some Config.budgetPeriod := rfl
@[simp] theorem State.refillAll_loader (s : State) : (s.refillAll).loader = s.loader := rfl
@[simp] theorem State.refillAll_choices (s : State) : (s.refillAll).choices = s.choices := rfl
@[simp] theorem State.refillAll_pending (s : State) : (s.refillAll).pending = s.pending := rfl

@[simp] theorem State.beaconPeriodEnds_link (s : State) : (s.beaconPeriodEnds).link = s.link := rfl
@[simp] theorem State.beaconPeriodEnds_stations (s : State) : (s.beaconPeriodEnds).stations = s.stations := rfl
@[simp] theorem State.beaconPeriodEnds_slots (s : State) : (s.beaconPeriodEnds).slots = s.slots := rfl
@[simp] theorem State.beaconPeriodEnds_gate (s : State) : (s.beaconPeriodEnds).gate = s.gate := rfl
@[simp] theorem State.beaconPeriodEnds_fields (s : State) : (s.beaconPeriodEnds).fields = s.fields := rfl
@[simp] theorem State.beaconPeriodEnds_tallies (s : State) : (s.beaconPeriodEnds).tallies = s.tallies := rfl
@[simp] theorem State.beaconPeriodEnds_lines (s : State) : (s.beaconPeriodEnds).lines = s.lines := rfl
@[simp] theorem State.beaconPeriodEnds_pins (s : State) : (s.beaconPeriodEnds).pins = s.pins := rfl
@[simp] theorem State.beaconPeriodEnds_sampleLeft (s : State) : (s.beaconPeriodEnds).sampleLeft = s.sampleLeft := rfl
@[simp] theorem State.beaconPeriodEnds_elements (s : State) : (s.beaconPeriodEnds).elements = s.elements := rfl
@[simp] theorem State.beaconPeriodEnds_bus (s : State) : (s.beaconPeriodEnds).bus = s.bus := rfl
@[simp] theorem State.beaconPeriodEnds_beacons (s : State) : (s.beaconPeriodEnds).beacons = { s.beacons with routine := Table.fill 4 true, left := some s.timing.beacon } := rfl
@[simp] theorem State.beaconPeriodEnds_mgmt (s : State) : (s.beaconPeriodEnds).mgmt = s.mgmt := rfl
@[simp] theorem State.beaconPeriodEnds_timing (s : State) : (s.beaconPeriodEnds).timing = s.timing := rfl
@[simp] theorem State.beaconPeriodEnds_budgetLeft (s : State) : (s.beaconPeriodEnds).budgetLeft = s.budgetLeft := rfl
@[simp] theorem State.beaconPeriodEnds_loader (s : State) : (s.beaconPeriodEnds).loader = s.loader := rfl
@[simp] theorem State.beaconPeriodEnds_choices (s : State) : (s.beaconPeriodEnds).choices = s.choices := rfl
@[simp] theorem State.beaconPeriodEnds_pending (s : State) : (s.beaconPeriodEnds).pending = s.pending := rfl

@[simp] theorem State.probePeriodEnds_link (s : State) : (s.probePeriodEnds).link = s.link := rfl
@[simp] theorem State.probePeriodEnds_stations (s : State) : (s.probePeriodEnds).stations = s.stations := rfl
@[simp] theorem State.probePeriodEnds_slots (s : State) : (s.probePeriodEnds).slots = s.slots := rfl
@[simp] theorem State.probePeriodEnds_gate (s : State) : (s.probePeriodEnds).gate = s.gate := rfl
@[simp] theorem State.probePeriodEnds_fields (s : State) : (s.probePeriodEnds).fields = s.fields := rfl
@[simp] theorem State.probePeriodEnds_tallies (s : State) : (s.probePeriodEnds).tallies = s.tallies := rfl
@[simp] theorem State.probePeriodEnds_lines (s : State) : (s.probePeriodEnds).lines = s.lines := rfl
@[simp] theorem State.probePeriodEnds_pins (s : State) : (s.probePeriodEnds).pins = s.pins := rfl
@[simp] theorem State.probePeriodEnds_sampleLeft (s : State) : (s.probePeriodEnds).sampleLeft = s.sampleLeft := rfl
@[simp] theorem State.probePeriodEnds_elements (s : State) : (s.probePeriodEnds).elements = s.elements := rfl
@[simp] theorem State.probePeriodEnds_bus (s : State) : (s.probePeriodEnds).bus = { s.bus with probeTurn := true, probeLeft := some s.timing.probe } := rfl
@[simp] theorem State.probePeriodEnds_beacons (s : State) : (s.probePeriodEnds).beacons = s.beacons := rfl
@[simp] theorem State.probePeriodEnds_mgmt (s : State) : (s.probePeriodEnds).mgmt = s.mgmt := rfl
@[simp] theorem State.probePeriodEnds_timing (s : State) : (s.probePeriodEnds).timing = s.timing := rfl
@[simp] theorem State.probePeriodEnds_budgetLeft (s : State) : (s.probePeriodEnds).budgetLeft = s.budgetLeft := rfl
@[simp] theorem State.probePeriodEnds_loader (s : State) : (s.probePeriodEnds).loader = s.loader := rfl
@[simp] theorem State.probePeriodEnds_choices (s : State) : (s.probePeriodEnds).choices = s.choices := rfl
@[simp] theorem State.probePeriodEnds_pending (s : State) : (s.probePeriodEnds).pending = s.pending := rfl

@[simp] theorem State.endRest_link (s : State) : (s.endRest).link = s.link := rfl
@[simp] theorem State.endRest_stations (s : State) : (s.endRest).stations = s.stations := rfl
@[simp] theorem State.endRest_slots (s : State) : (s.endRest).slots = s.slots := rfl
@[simp] theorem State.endRest_gate (s : State) : (s.endRest).gate = s.gate := rfl
@[simp] theorem State.endRest_fields (s : State) : (s.endRest).fields = s.fields := rfl
@[simp] theorem State.endRest_tallies (s : State) : (s.endRest).tallies = s.tallies := rfl
@[simp] theorem State.endRest_lines (s : State) : (s.endRest).lines = s.lines := rfl
@[simp] theorem State.endRest_pins (s : State) : (s.endRest).pins = s.pins := rfl
@[simp] theorem State.endRest_sampleLeft (s : State) : (s.endRest).sampleLeft = s.sampleLeft := rfl
@[simp] theorem State.endRest_elements (s : State) : (s.endRest).elements = s.elements := rfl
@[simp] theorem State.endRest_bus (s : State) : (s.endRest).bus = { s.bus with activity := .idle, state := if s.bus.state = .pausing then .paused else s.bus.state } := rfl
@[simp] theorem State.endRest_beacons (s : State) : (s.endRest).beacons = s.beacons := rfl
@[simp] theorem State.endRest_mgmt (s : State) : (s.endRest).mgmt = s.mgmt := rfl
@[simp] theorem State.endRest_timing (s : State) : (s.endRest).timing = s.timing := rfl
@[simp] theorem State.endRest_budgetLeft (s : State) : (s.endRest).budgetLeft = s.budgetLeft := rfl
@[simp] theorem State.endRest_loader (s : State) : (s.endRest).loader = s.loader := rfl
@[simp] theorem State.endRest_choices (s : State) : (s.endRest).choices = s.choices := rfl
@[simp] theorem State.endRest_pending (s : State) : (s.endRest).pending = s.pending := rfl

@[simp] theorem State.clearScores_link (s : State) (f : FieldId) : (s.clearScores f).link = s.link := rfl
@[simp] theorem State.clearScores_stations (s : State) (f : FieldId) : (s.clearScores f).stations = s.stations := rfl
@[simp] theorem State.clearScores_slots (s : State) (f : FieldId) : (s.clearScores f).slots = s.slots := rfl
@[simp] theorem State.clearScores_gate (s : State) (f : FieldId) : (s.clearScores f).gate = s.gate := rfl
@[simp] theorem State.clearScores_fields (s : State) (f : FieldId) : (s.clearScores f).fields = s.fields := rfl
@[simp] theorem State.clearScores_tallies (s : State) (f : FieldId) : (s.clearScores f).tallies = s.tallies.put f .zero := rfl
@[simp] theorem State.clearScores_lines (s : State) (f : FieldId) : (s.clearScores f).lines = s.lines := rfl
@[simp] theorem State.clearScores_pins (s : State) (f : FieldId) : (s.clearScores f).pins = s.pins := rfl
@[simp] theorem State.clearScores_sampleLeft (s : State) (f : FieldId) : (s.clearScores f).sampleLeft = s.sampleLeft := rfl
@[simp] theorem State.clearScores_bus (s : State) (f : FieldId) : (s.clearScores f).bus = s.bus := rfl
@[simp] theorem State.clearScores_beacons (s : State) (f : FieldId) : (s.clearScores f).beacons = s.beacons := rfl
@[simp] theorem State.clearScores_mgmt (s : State) (f : FieldId) : (s.clearScores f).mgmt = s.mgmt := rfl
@[simp] theorem State.clearScores_timing (s : State) (f : FieldId) : (s.clearScores f).timing = s.timing := rfl
@[simp] theorem State.clearScores_budgetLeft (s : State) (f : FieldId) : (s.clearScores f).budgetLeft = s.budgetLeft := rfl
@[simp] theorem State.clearScores_loader (s : State) (f : FieldId) : (s.clearScores f).loader = s.loader := rfl
@[simp] theorem State.clearScores_choices (s : State) (f : FieldId) : (s.clearScores f).choices = s.choices := rfl
@[simp] theorem State.clearScores_pending (s : State) (f : FieldId) : (s.clearScores f).pending = s.pending := rfl

/-! ### What a loaded element keeps after an update -/

theorem State.loadedAt_def (s : State) (e : ElementId) : s.loadedAt e = (s.elements.at e).loaded := rfl

@[simp] theorem State.updLoaded_loadedAt_same (s : State) (e : ElementId) (g : Loaded → Loaded) :
    (s.updLoaded e g).loadedAt e = (s.loadedAt e).map g := by
  simp [State.updLoaded, State.loadedAt]

@[simp] theorem State.updLoaded_loadedAt_other (s : State) {e k : ElementId} (g : Loaded → Loaded) (h : k ≠ e) :
    (s.updLoaded e g).loadedAt k = s.loadedAt k := by
  simp [State.updLoaded, State.loadedAt, h]

theorem State.updLoaded_at (s : State) (e k : ElementId) (g : Loaded → Loaded) :
    (s.updLoaded e g).elements.at k =
      if k = e then { s.elements.at e with loaded := (s.loadedAt e).map g } else s.elements.at k := by
  simp [State.updLoaded, State.updElement, Table.at_put, State.loadedAt]

/-! ### Notices -/

@[simp] theorem State.queueNotice_mode (s : State) (c : NoticeContent) : (s.queueNotice c).mgmt.mode = s.mgmt.mode := by
  unfold State.queueNotice State.updMgmt; dsimp only; split <;> rfl

@[simp] theorem State.queueNotice_cursor (s : State) (c : NoticeContent) :
    (s.queueNotice c).mgmt.cursor = s.mgmt.cursor := by
  unfold State.queueNotice State.updMgmt; dsimp only; split <;> rfl

@[simp] theorem State.queueNotice_restartPending (s : State) (c : NoticeContent) :
    (s.queueNotice c).mgmt.restartPending = s.mgmt.restartPending := by
  unfold State.queueNotice State.updMgmt; dsimp only; split <;> rfl

theorem State.queueNotice_room (s : State) (c : NoticeContent) (h : s.mgmt.notices.length < Config.noticeCapacity) :
    (s.queueNotice c).mgmt =
      { s.mgmt with notices := s.mgmt.notices ++ [{ dropped := s.mgmt.dropped, content := c }], dropped := 0 } := by
  simp [State.queueNotice, h]

theorem State.queueNotice_full (s : State) (c : NoticeContent) (h : Config.noticeCapacity ≤ s.mgmt.notices.length) :
    (s.queueNotice c).mgmt = { s.mgmt with dropped := min Config.maxDropped (s.mgmt.dropped + 1) } := by
  simp [State.queueNotice, Nat.not_lt.mpr h]

end Sys2Proof.Machine
end

