-- ==== Sys2Proof/Laws/Arbiter.lean ====
section
/-! SUPPORT. What every procedure of the Element Arbiter leaves alone (`ArbiterKeeps`), one lemma each. -/

namespace Sys2Proof.Machine

open Sys2Proof

theorem ArbiterKeeps.refl (s : State) : ArbiterKeeps s s where
  link := rfl
  stations := rfl
  slots := fun _ => rfl
  gate := rfl
  fields := rfl
  tallies := rfl
  lines := rfl
  pins := rfl
  sampleLeft := rfl
  rules := fun _ => rfl
  eventCount := fun _ => rfl
  busSide := fun _ => rfl
  bus := rfl
  beacons := rfl
  mgmt := rfl
  timing := rfl
  budgetLeft := rfl
  loader := rfl
  choices := rfl
  pending := rfl

theorem ArbiterKeeps.trans {s t u : State} (h : ArbiterKeeps s t) (k : ArbiterKeeps t u) : ArbiterKeeps s u where
  link := by rw [k.link, h.link]
  stations := k.stations.trans h.stations
  slots := fun i => by rw [k.slots i, h.slots i]
  gate := k.gate.trans h.gate
  fields := k.fields.trans h.fields
  tallies := k.tallies.trans h.tallies
  lines := k.lines.trans h.lines
  pins := k.pins.trans h.pins
  sampleLeft := k.sampleLeft.trans h.sampleLeft
  rules := fun e => (k.rules e).trans (h.rules e)
  eventCount := fun e => (k.eventCount e).trans (h.eventCount e)
  busSide := fun e => (k.busSide e).trans (h.busSide e)
  bus := k.bus.trans h.bus
  beacons := k.beacons.trans h.beacons
  mgmt := k.mgmt.trans h.mgmt
  timing := k.timing.trans h.timing
  budgetLeft := k.budgetLeft.trans h.budgetLeft
  loader := k.loader.trans h.loader
  choices := k.choices.trans h.choices
  pending := k.pending.trans h.pending

theorem ArbiterKeeps.foldl {α : Type} {step : State → α → State} (h : ∀ s a, ArbiterKeeps s (step s a)) (l : List α) :
    ∀ s, ArbiterKeeps s (l.foldl step s) := by
  induction l with
  | nil => exact fun s => .refl s
  | cons a l ih => exact fun s => (h s a).trans (ih (step s a))

theorem ArbiterKeeps.updLoaded (s : State) (e : ElementId) (g : Loaded → Loaded) (h : ∀ l, (g l).busSide = l.busSide) :
    ArbiterKeeps s (s.updLoaded e g) := by
  have hb : ∀ k, ((s.updLoaded e g).elements.at k).rules = (s.elements.at k).rules ∧
      ((s.updLoaded e g).elements.at k).eventCount = (s.elements.at k).eventCount := by
    intro k; rw [State.updLoaded_at]; split
    · next he => subst he; exact ⟨rfl, rfl⟩
    · exact ⟨rfl, rfl⟩
  exact { ArbiterKeeps.refl s with
    rules := fun k => (hb k).1
    eventCount := fun k => (hb k).2
    busSide := fun k => by
      by_cases hk : k = e
      · subst hk
        rw [State.updLoaded_loadedAt_same]
        cases s.loadedAt k <;> simp [h]
      · rw [State.updLoaded_loadedAt_other _ _ hk] }

theorem ArbiterKeeps.updLoaded_const (s : State) (e : ElementId) (l l' : Loaded) (hl : s.loadedAt e = some l)
    (h : l'.busSide = l.busSide) : ArbiterKeeps s (s.updLoaded e fun _ => l') := by
  have k := ArbiterKeeps.updLoaded s e (fun x => if x = l then l' else x) (fun x => by split <;> simp [*])
  have : (s.updLoaded e fun _ => l') = s.updLoaded e (fun x => if x = l then l' else x) := by
    simp only [State.updLoaded, State.updElement]
    simp only [State.loadedAt] at hl
    rw [hl]; simp
  rw [this]; exact k

theorem ArbiterKeeps.queueVerdict (s : State) (i : SlotId) (b : Byte) (o : Outcome) (t : Byte) :
    ArbiterKeeps s (s.queueVerdict i b o t) := { ArbiterKeeps.refl s with link := rfl }

theorem ArbiterKeeps.verdictFor (s : State) (i : SlotId) (e : ElementId) (o : Outcome) (t : Byte) :
    ArbiterKeeps s (s.verdictFor i e o t) := .queueVerdict s i _ o t

theorem ArbiterKeeps.outstanding (s : State) (i : SlotId) (g : Nat → Nat) :
    ArbiterKeeps s (s.updSlot i fun x => { x with outstanding := g x.outstanding }) :=
  { ArbiterKeeps.refl s with
    slots := fun k => by
      simp only [State.updSlot_slots, Table.at_put]
      split
      · next h => subst h; rfl
      · rfl }

theorem ArbiterKeeps.lessOutstanding (s : State) (i : SlotId) : ArbiterKeeps s (s.lessOutstanding i) :=
  .outstanding s i (· - 1)

theorem ArbiterKeeps.moreOutstanding (s : State) (i : SlotId) : ArbiterKeeps s (s.moreOutstanding i) :=
  .outstanding s i (· + 1)

theorem ArbiterKeeps.grant (s : State) (e : ElementId) (i : SlotId) (r : Request) : ArbiterKeeps s (s.grant e i r) := by
  unfold State.grant
  refine .trans ?_ (.verdictFor _ _ _ _ _)
  exact .updLoaded s e _ fun _ => rfl

theorem ArbiterKeeps.grantSelection (s : State) (e : ElementId) : ArbiterKeeps s (s.grantSelection e) := by
  unfold State.grantSelection
  split
  · exact .refl s
  · split
    · split
      · exact .refl s
      · refine .trans ?_ (.grant _ _ _ _)
        exact .updLoaded s e _ fun _ => rfl
    · exact .refl s

theorem ArbiterKeeps.dropNext (s : State) (e : ElementId) (h : Hold) : ArbiterKeeps s (s.dropNext e h) := by
  unfold State.dropNext
  split
  · exact .verdictFor _ _ _ _ _
  · exact .refl s

theorem ArbiterKeeps.releaseHold (s : State) (e : ElementId) (h : Hold) (r : Reason) :
    ArbiterKeeps s (s.releaseHold e h r) := by
  unfold State.releaseHold
  refine .trans ?_ (.dropNext _ _ _)
  refine .trans ?_ (.updLoaded _ _ _ fun _ => rfl)
  refine .trans ?_ (.verdictFor _ _ _ _ _)
  exact .lessOutstanding _ _

theorem ArbiterKeeps.cancelUnsent (s : State) (e : ElementId) (i : SlotId) : ArbiterKeeps s (s.cancelUnsent e i) := by
  unfold State.cancelUnsent
  split
  · exact .refl s
  · split
    · exact .refl s
    · split
      · refine .trans ?_ (.verdictFor _ _ _ _ _)
        exact .updLoaded s e _ fun _ => rfl
      · exact .refl s

theorem ArbiterKeeps.selectIfFree (s : State) (e : ElementId) : ArbiterKeeps s (s.selectIfFree e) := by
  unfold State.selectIfFree
  split
  · exact .refl s
  · split
    · exact .grantSelection s e
    · exact .refl s

theorem ArbiterKeeps.endHold (s : State) (e : ElementId) (r : Reason) : ArbiterKeeps s (s.endHold e r) := by
  unfold State.endHold
  split
  · exact .refl s
  · exact ((ArbiterKeeps.releaseHold s e _ r).trans (.cancelUnsent _ _ _)).trans (.selectIfFree _ _)

theorem ArbiterKeeps.withdraw (s : State) (e : ElementId) (c : Claim) (r : Reason) :
    ArbiterKeeps s (s.withdraw e c r) := by
  unfold State.withdraw
  refine .trans ?_ (.grantSelection _ _)
  refine .trans ?_ (.verdictFor _ _ _ _ _)
  refine .trans ?_ (.lessOutstanding _ _)
  exact .updLoaded s e _ fun _ => rfl

theorem ArbiterKeeps.withdrawClaimOf (s : State) (i : SlotId) (r : Reason) (e : ElementId) :
    ArbiterKeeps s (s.withdrawClaimOf i r e) := by
  unfold State.withdrawClaimOf
  split
  · exact .withdraw s e _ r
  · exact .refl s

theorem ArbiterKeeps.endHoldOf (s : State) (i : SlotId) (r : Reason) (e : ElementId) :
    ArbiterKeeps s (s.endHoldOf i r e) := by
  unfold State.endHoldOf
  split
  · split
    · exact .endHold s e r
    · exact .refl s
  · exact .refl s

theorem ArbiterKeeps.takeAway (s : State) (i : SlotId) (r : Reason) (e : ElementId) :
    ArbiterKeeps s (s.takeAway i r e) :=
  .trans (.withdrawClaimOf s i r e) (.endHoldOf _ i r e)

theorem ArbiterKeeps.slotEvent (s : State) (i : SlotId) (r : Reason) : ArbiterKeeps s (s.slotEvent i r) :=
  .foldl (fun s e => .takeAway s i r e) _ s

theorem ArbiterKeeps.withdrawAll (s : State) (e : ElementId) (r : Reason) : ArbiterKeeps s (s.withdrawAll e r) := by
  unfold State.withdrawAll
  split
  · exact .refl s
  · exact .foldl (fun s c => .withdraw s e c r) _ s

theorem ArbiterKeeps.phaseTest (s : State) (f : FieldId) (p : Phase) (e : ElementId) :
    ArbiterKeeps s (s.phaseTest f p e) := by
  unfold State.phaseTest
  split
  · exact .refl s
  · split
    · exact .trans (.withdrawAll s e .phase) (.endHold _ _ _)
    · exact .refl s

theorem ArbiterKeeps.phaseEvent (s : State) (f : FieldId) (p : Phase) : ArbiterKeeps s (s.phaseEvent f p) :=
  .foldl (fun s e => .phaseTest s f p e) _ s

theorem ArbiterKeeps.failActuation (s : State) (e : ElementId) (r : Reason) :
    ArbiterKeeps s (s.failActuation e r) := by
  unfold State.failActuation
  split
  · refine .trans ?_ (.verdictFor _ _ _ _ _)
    exact .updLoaded s e _ fun _ => rfl
  · exact .refl s

theorem ArbiterKeeps.elementLost (s : State) (e : ElementId) (r : Reason) : ArbiterKeeps s (s.elementLost e r) :=
  .trans (.trans (.failActuation s e r) (.withdrawAll _ _ _)) (.endHold _ _ _)

theorem ArbiterKeeps.takeNext (s : State) (e : ElementId) (l : Loaded) (h : Hold) (n : Request) :
    ArbiterKeeps s (s.takeNext e l h n) := by
  unfold State.takeNext
  split
  · exact .updLoaded s e _ fun _ => rfl
  · refine .trans ?_ (.verdictFor _ _ _ _ _)
    exact .updLoaded s e _ fun _ => rfl

theorem ArbiterKeeps.afterActuation (s : State) (e : ElementId) : ArbiterKeeps s (s.afterActuation e) := by
  unfold State.afterActuation
  split
  · exact .refl s
  · split
    · exact .grantSelection s e
    · split
      · exact .refl s
      · exact .takeNext s e _ _ _

theorem ArbiterKeeps.endActuation (s : State) (e : ElementId) (how : ActEnd) :
    ArbiterKeeps s (s.endActuation e how) := by
  unfold State.endActuation
  split
  · exact .refl s
  · refine .trans ?_ (.afterActuation _ _)
    refine .trans ?_ (.verdictFor _ _ _ _ _)
    exact .updLoaded s e _ fun _ => rfl

theorem ArbiterKeeps.gateOffEvents (s before : State) (r : Reason) : ArbiterKeeps s (s.gateOffEvents before r) :=
  .foldl (fun s i => .slotEvent s i r) _ s

end Sys2Proof.Machine
end

