-- ==== Sys2Proof/Laws/Bus.lean ====
section
/-! SUPPORT. What every procedure of the Element Bus Master leaves alone (`BusKeeps`), one lemma each. -/

namespace Sys2Proof.Machine

open Sys2Proof

theorem BusKeeps.refl (s : State) : BusKeeps s s where
  link := rfl
  stations := rfl
  slots := fun _ => rfl
  gate := rfl
  fields := rfl
  tallies := rfl
  lines := rfl
  pins := rfl
  sampleLeft := rfl
  rules := fun _ => rfl
  eventCount := fun _ => rfl
  entry := fun _ => rfl
  busState := rfl
  probeLeft := rfl
  beacons := rfl
  mgmt := rfl
  notices := List.prefix_rfl
  timing := rfl
  budgetLeft := rfl
  loader := rfl
  choices := rfl
  pending := rfl

theorem BusKeeps.trans {s t u : State} (h : BusKeeps s t) (k : BusKeeps t u) : BusKeeps s u where
  link := by rw [k.link, h.link]
  stations := k.stations.trans h.stations
  slots := fun i => by rw [k.slots i, h.slots i]
  gate := k.gate.trans h.gate
  fields := k.fields.trans h.fields
  tallies := k.tallies.trans h.tallies
  lines := k.lines.trans h.lines
  pins := k.pins.trans h.pins
  sampleLeft := k.sampleLeft.trans h.sampleLeft
  rules := fun e => (k.rules e).trans (h.rules e)
  eventCount := fun e => (k.eventCount e).trans (h.eventCount e)
  entry := fun e => (k.entry e).trans (h.entry e)
  busState := k.busState.trans h.busState
  probeLeft := k.probeLeft.trans h.probeLeft
  beacons := k.beacons.trans h.beacons
  mgmt := by rw [k.mgmt, h.mgmt]
  notices := h.notices.trans k.notices
  timing := k.timing.trans h.timing
  budgetLeft := k.budgetLeft.trans h.budgetLeft
  loader := k.loader.trans h.loader
  choices := k.choices.trans h.choices
  pending := k.pending.trans h.pending

theorem BusKeeps.foldl {α : Type} {step : State → α → State} (h : ∀ s a, BusKeeps s (step s a)) (l : List α) :
    ∀ s, BusKeeps s (l.foldl step s) := by
  induction l with
  | nil => exact fun s => .refl s
  | cons a l ih => exact fun s => (h s a).trans (ih (step s a))

/-- What the Element Arbiter leaves alone includes what the Element Bus Master leaves alone. -/
theorem ArbiterKeeps.toBus {s t : State} (h : ArbiterKeeps s t) : BusKeeps s t where
  link := h.link
  stations := h.stations
  slots := fun i => by
    have := h.slots i
    have hs : (t.slots.at i).silent = (s.slots.at i).silent := by rw [this]
    rw [hs]; exact this
  gate := h.gate
  fields := h.fields
  tallies := h.tallies
  lines := h.lines
  pins := h.pins
  sampleLeft := h.sampleLeft
  rules := h.rules
  eventCount := h.eventCount
  entry := fun e => by
    have := congrArg (Option.map BusSide.entry) (h.busSide e)
    simpa [Option.map_map, Function.comp_def, Loaded.busSide] using this
  busState := by rw [h.bus]
  probeLeft := by rw [h.bus]
  beacons := h.beacons
  mgmt := by rw [h.mgmt]
  notices := by rw [h.mgmt]
  timing := h.timing
  budgetLeft := h.budgetLeft
  loader := h.loader
  choices := h.choices
  pending := h.pending

theorem BusKeeps.updLoaded (s : State) (e : ElementId) (g : Loaded → Loaded) (h : ∀ l, (g l).entry = l.entry) :
    BusKeeps s (s.updLoaded e g) := by
  have hb : ∀ k, ((s.updLoaded e g).elements.at k).rules = (s.elements.at k).rules ∧
      ((s.updLoaded e g).elements.at k).eventCount = (s.elements.at k).eventCount := by
    intro k; rw [State.updLoaded_at]; split
    · next he => subst he; exact ⟨rfl, rfl⟩
    · exact ⟨rfl, rfl⟩
  exact { BusKeeps.refl s with
    rules := fun k => (hb k).1
    eventCount := fun k => (hb k).2
    entry := fun k => by
      by_cases hk : k = e
      · subst hk
        rw [State.updLoaded_loadedAt_same]
        cases s.loadedAt k <;> simp [h]
      · rw [State.updLoaded_loadedAt_other _ _ hk] }

/-- A loaded element replaced by one with the same entry. -/
theorem BusKeeps.putLoaded (s : State) (e : ElementId) (l l' : Loaded) (hl : s.loadedAt e = some l)
    (h : l'.entry = l.entry) : BusKeeps s (s.updLoaded e fun _ => l') := by
  have k := BusKeeps.updLoaded s e (fun x => if x = l then l' else x) (fun x => by split <;> simp [*])
  have : (s.updLoaded e fun _ => l') = s.updLoaded e (fun x => if x = l then l' else x) := by
    simp only [State.updLoaded, State.updElement]
    simp only [State.loadedAt] at hl
    rw [hl]; simp
  rw [this]; exact k

theorem BusKeeps.updBus (s : State) (g : Bus → Bus) (h : ∀ b, (g b).state = b.state) (k : ∀ b, (g b).probeLeft = b.probeLeft) :
    BusKeeps s (s.updBus g) :=
  { BusKeeps.refl s with busState := h s.bus, probeLeft := k s.bus }

theorem BusKeeps.queueNotice (s : State) (c : NoticeContent) : BusKeeps s (s.queueNotice c) :=
  { BusKeeps.refl s with
    mgmt := by unfold State.queueNotice State.updMgmt; dsimp only; split <;> rfl
    notices := by
      unfold State.queueNotice State.updMgmt; dsimp only; split
      · exact List.prefix_append _ _
      · exact List.prefix_rfl }

theorem BusKeeps.verdictFor (s : State) (i : SlotId) (e : ElementId) (o : Outcome) (t : Byte) :
    BusKeeps s (s.verdictFor i e o t) := (ArbiterKeeps.verdictFor s i e o t).toBus

theorem BusKeeps.dropSafe (s : State) (e : ElementId) : BusKeeps s (s.dropSafe e) :=
  .updBus s _ (fun _ => rfl) fun _ => rfl

theorem BusKeeps.queueSafe (s : State) (e : ElementId) : BusKeeps s (s.queueSafe e) := by
  unfold State.queueSafe
  split
  · exact .refl s
  · refine .trans ?_ (.updBus _ _ (fun _ => rfl) fun _ => rfl)
    exact .updLoaded s e _ fun _ => rfl

@[simp] theorem Loaded.withPresence_entry (l : Loaded) (p : Presence) (n : Nat) :
    (l.withPresence p n).entry = l.entry := by
  unfold Loaded.withPresence; dsimp only; split <;> rfl

theorem BusKeeps.setPresence (s : State) (e : ElementId) (p : Presence) : BusKeeps s (s.setPresence e p) := by
  unfold State.setPresence
  split
  · refine .trans ?_ (.dropSafe _ _)
    exact .updLoaded s e _ fun l => l.withPresence_entry p s.timing.sensor
  · exact .updLoaded s e _ fun l => l.withPresence_entry p s.timing.sensor

theorem BusKeeps.reportLoss (s : State) (e : ElementId) (p q : Presence) : BusKeeps s (s.reportLoss e p q) := by
  unfold State.reportLoss
  split
  · exact (ArbiterKeeps.elementLost s e _).toBus
  · exact .refl s

theorem BusKeeps.changePresence (s : State) (e : ElementId) (p : Presence) : BusKeeps s (s.changePresence e p) := by
  unfold State.changePresence
  split
  · exact .refl s
  · refine .trans ?_ (.queueNotice _ _)
    exact .trans (.setPresence s e p) (.reportLoss _ _ _ _)

theorem BusKeeps.becomeFaulted (s : State) (e : ElementId) (c : FaultCause) : BusKeeps s (s.becomeFaulted e c) := by
  unfold State.becomeFaulted
  split
  · exact .refl s
  · split
    · exact .refl s
    all_goals exact .changePresence s e _

theorem BusKeeps.becomeAbsent (s : State) (e : ElementId) (p : Presence) : BusKeeps s (s.becomeAbsent e p) := by
  unfold State.becomeAbsent
  split
  · exact .changePresence s e _
  · exact .changePresence s e _
  · exact .refl s
  · exact .refl s

theorem BusKeeps.setMisses (s : State) (e : ElementId) (n : Nat) : BusKeeps s (s.setMisses e n) :=
  .updLoaded s e _ fun _ => rfl

theorem BusKeeps.countMiss (s : State) (e : ElementId) : BusKeeps s (s.countMiss e) := by
  unfold State.countMiss
  split
  · exact .refl s
  · split
    · exact .setMisses s e _
    · exact .trans (.trans (.setMisses s e _) (.becomeAbsent _ _ _)) (.dropSafe _ _)

@[simp] theorem Loaded.safed_entry (l : Loaded) (n : Nat) : (l.safed n).entry = l.entry := by
  unfold Loaded.safed; split
  · rfl
  · split <;> rfl

theorem BusKeeps.safeElement (s : State) (f : FieldId) (e : ElementId) : BusKeeps s (s.safeElement f e) := by
  unfold State.safeElement State.safeIfPresent
  split
  · exact .refl s
  · split
    · refine .trans ?_ (.updLoaded _ _ _ fun l => l.safed_entry _)
      split
      · exact .queueSafe s e
      · exact .refl s
    · exact .refl s

theorem BusKeeps.safeField (s : State) (f : FieldId) : BusKeeps s (s.safeField f) :=
  .foldl (fun s e => .safeElement s f e) _ s

theorem BusKeeps.clearIdleTurn (s : State) : BusKeeps s s.clearIdleTurn := by
  unfold State.clearIdleTurn
  split
  · exact .updBus s _ (fun _ => rfl) fun _ => rfl
  · exact .refl s

@[simp] theorem Loaded.started_entry (l : Loaded) (c : BusCommand) : (l.started c).entry = l.entry := by
  unfold Loaded.started
  split
  · split
    · split <;> rfl
    · rfl
  all_goals rfl

theorem BusKeeps.startTransaction (s : State) (e : ElementId) (c : BusCommand) :
    BusKeeps s (s.startTransaction e c) := by
  unfold State.startTransaction
  split
  · exact .refl s
  · next l hl =>
    refine .trans ?_ (.updBus _ _ (fun _ => rfl) fun _ => rfl)
    exact .putLoaded s e l _ hl (l.started_entry c)

theorem BusKeeps.arbitrate (s : State) : BusKeeps s s.arbitrate := by
  unfold State.arbitrate
  split
  · split
    · exact .startTransaction s _ _
    · exact .refl s
  · exact .refl s

/-- The start of a transaction writes its element and the bus, and nothing else (R128). -/
theorem State.startTransaction_eq (s : State) (e : ElementId) (c : BusCommand) :
    s.startTransaction e c =
      { s with elements := (s.startTransaction e c).elements, bus := (s.startTransaction e c).bus } := by
  unfold State.startTransaction; split <;> rfl

theorem State.clearIdleTurn_eq (s : State) : s.clearIdleTurn = { s with bus := s.clearIdleTurn.bus } := by
  unfold State.clearIdleTurn; split <;> rfl

/-- The bus arbiter writes elements and the bus, and nothing else (R128, R138). -/
theorem State.settle_eq (s : State) : s.settle = { s with elements := s.settle.elements, bus := s.settle.bus } := by
  unfold State.settle State.arbitrate
  rw [State.clearIdleTurn_eq]
  split
  · split
    · rw [State.startTransaction_eq]
    · rfl
  · rfl

theorem BusKeeps.settle (s : State) : BusKeeps s s.settle := .trans (.clearIdleTurn s) (.arbitrate _)

theorem BusKeeps.restPair (s : State) : BusKeeps s s.restPair := .updBus s _ (fun _ => rfl) fun _ => rfl

theorem BusKeeps.setFetch (s : State) (e : ElementId) : BusKeeps s (s.setFetch e) := .updLoaded s e _ fun _ => rfl

theorem BusKeeps.flipFetch (s : State) (e : ElementId) : BusKeeps s (s.flipFetch e) := .updLoaded s e _ fun _ => rfl

theorem BusKeeps.setRetries (s : State) (e : ElementId) (n : Nat) : BusKeeps s (s.setRetries e n) :=
  .updLoaded s e _ fun _ => rfl

theorem BusKeeps.restartActionPoll (s : State) (e : ElementId) : BusKeeps s (s.restartActionPoll e) :=
  .updLoaded s e _ fun l => by split <;> rfl

theorem BusKeeps.restartSensor (s : State) (e : ElementId) : BusKeeps s (s.restartSensor e) :=
  .updLoaded s e _ fun l => by split <;> rfl

theorem BusKeeps.endActuation (s : State) (e : ElementId) (how : ActEnd) : BusKeeps s (s.endActuation e how) :=
  (ArbiterKeeps.endActuation s e how).toBus

theorem BusKeeps.probeAnswered (s : State) (e : ElementId) (l : Loaded) (st : Status) (payload : List Byte) :
    BusKeeps s (s.probeAnswered e l st payload) := by
  unfold State.probeAnswered
  split
  · split
    · split
      · exact .changePresence s e _
      · exact .changePresence s e _
    · exact .refl s
  · exact .becomeFaulted s e _
  · exact .refl s

theorem BusKeeps.actuateWaiting (s : State) (e : ElementId) (l : Loaded) (a : Actuation) (st : Status)
    (payload : List Byte) : BusKeeps s (s.actuateWaiting e l a st payload) := by
  unfold State.actuateWaiting
  split
  · exact .updLoaded s e _ fun _ => rfl
  · exact .updLoaded s e _ fun _ => rfl
  · exact .trans (.setRetries s e 0) (.endActuation _ _ _)
  · exact .trans (.trans (.setRetries s e 0) (.setFetch _ _)) (.endActuation _ _ _)
  · split
    · exact .updLoaded s e _ fun _ => rfl
    · exact .trans (.setRetries s e 0) (.endActuation _ _ _)
  · exact .trans (.setRetries s e 0) (.endActuation _ _ _)
  · exact .becomeFaulted s e _

theorem BusKeeps.actuateCancelling (s : State) (e : ElementId) (st : Status) (payload : List Byte) :
    BusKeeps s (s.actuateCancelling e st payload) := by
  unfold State.actuateCancelling
  split
  · exact .refl s
  · exact .refl s
  · exact .endActuation s e _
  · exact .trans (.setFetch s e) (.endActuation _ _ _)
  · exact .setRetries s e 0
  · exact .setRetries s e 0
  · exact .becomeFaulted s e _

theorem BusKeeps.actuateAnswered (s : State) (e : ElementId) (l : Loaded) (st : Status) (payload : List Byte) :
    BusKeeps s (s.actuateAnswered e l st payload) := by
  unfold State.actuateAnswered
  split
  · split
    · exact .actuateWaiting s e l _ st payload
    · exact .actuateCancelling s e st payload
    · split
      · exact .setFetch s e
      · exact .refl s
  · split
    · exact .setFetch s e
    · exact .refl s

theorem BusKeeps.actionPollAnswered (s : State) (e : ElementId) (l : Loaded) (st : Status) (payload : List Byte) :
    BusKeeps s (s.actionPollAnswered e l st payload) := by
  unfold State.actionPollAnswered
  split
  · split
    · exact .endActuation s e _
    · exact .refl s
  · split
    · split
      · exact .trans (.setFetch s e) (.endActuation _ _ _)
      · exact .setFetch s e
    · exact .setFetch s e
  · exact .becomeFaulted s e _
  all_goals exact .refl s

theorem BusKeeps.sensorPollAnswered (s : State) (e : ElementId) (st : Status) :
    BusKeeps s (s.sensorPollAnswered e st) := by
  unfold State.sensorPollAnswered
  split
  · exact .setFetch s e
  · exact .becomeFaulted s e _
  all_goals exact .refl s

theorem BusKeeps.endCancelling (s : State) (e : ElementId) : BusKeeps s (s.endCancelling e) := by
  unfold State.endCancelling
  split
  · split
    · exact .endActuation s e _
    · exact .refl s
  · exact .refl s

theorem BusKeeps.safeAnswered (s : State) (e : ElementId) (l : Loaded) (st : Status) :
    BusKeeps s (s.safeAnswered e l st) := by
  unfold State.safeAnswered
  split
  · exact .trans (.trans (.dropSafe s e) (.setRetries _ _ _)) (.endCancelling _ _)
  · exact .trans (.trans (.dropSafe s e) (.setRetries _ _ _)) (.endCancelling _ _)
  · exact .trans (.trans (.trans (.dropSafe s e) (.setRetries _ _ _)) (.setFetch _ _)) (.endCancelling _ _)
  · split
    · exact .setRetries s e _
    · exact .trans (.trans (.dropSafe s e) (.setRetries _ _ _)) (.becomeFaulted _ _ _)
  · exact .trans (.dropSafe s e) (.becomeFaulted _ _ _)
  all_goals exact .refl s

/-- An answer to any command but FETCH, whose reports change tallies and event counts. -/
theorem BusKeeps.answered (s : State) (e : ElementId) (l : Loaded) (c : BusCommand) (st : Status)
    (payload : List Byte) (h : c ≠ .fetch) : BusKeeps s (s.answered e l c st payload) := by
  unfold State.answered
  split
  · exact .probeAnswered s e l st payload
  · exact .safeAnswered s e l st
  · split
    · exact .actuateAnswered s e l st payload
    · exact .refl s
  · split
    · exact .trans (.actionPollAnswered s e l st payload) (.restartActionPoll _ _)
    · exact .refl s
  · split
    · exact .trans (.sensorPollAnswered s e st) (.restartSensor _ _)
    · exact .refl s
  · exact absurd rfl h

theorem BusKeeps.missedAgain (s : State) (e : ElementId) (c : BusCommand) : BusKeeps s (s.missedAgain e c) := by
  unfold State.missedAgain
  split
  · exact .setFetch s e
  · exact .restartActionPoll s e
  · exact .restartSensor s e
  all_goals exact .refl s

theorem BusKeeps.actOnMiss (s : State) (e : ElementId) (c : BusCommand) : BusKeeps s (s.actOnMiss e c) := by
  unfold State.actOnMiss
  split
  · exact .refl s
  · refine .trans ?_ (.countMiss _ _)
    split
    · exact .missedAgain s e c
    · exact .refl s

/-- The end of a transaction that brings no reports. -/
theorem BusKeeps.endTransaction (s : State) (t : Transaction) (o : BusOutcome)
    (h : t.command = .fetch → ∀ st payload, o ≠ .answered st payload) : BusKeeps s (s.endTransaction t o) := by
  unfold State.endTransaction
  split
  · exact .restPair s
  · split
    · next st payload =>
      refine .trans (.restPair s) ?_
      unfold State.actOnAnswer
      split
      · exact .refl _
      · refine .trans (.setMisses _ _ _) (.answered _ _ _ _ _ _ ?_)
        intro hc
        exact h hc st payload rfl
    · exact .trans (.restPair s) (.actOnMiss _ _ _)
    · exact .trans (.restPair s) (.actOnMiss _ _ _)

theorem BusKeeps.passActionLimit (s : State) (e : ElementId) : BusKeeps s (s.passActionLimit e) := by
  unfold State.passActionLimit
  refine .trans ?_ (.queueSafe _ _)
  refine .trans ?_ (.queueNotice _ _)
  refine .trans ?_ (ArbiterKeeps.elementLost _ _ _).toBus
  exact .trans (.setPresence s e _) (.endActuation _ _ _)

theorem BusKeeps.markSilent (s : State) (i : SlotId) : BusKeeps s (s.markSilent i) := by
  unfold State.markSilent
  refine .trans ?_ (ArbiterKeeps.slotEvent _ _ _).toBus
  refine .trans ?_ (.queueNotice _ _)
  exact { BusKeeps.refl s with
    slots := fun k => by
      simp only [State.updSlot_slots, Table.at_put]
      split
      · next h => subst h; rfl
      · rfl }

theorem BusKeeps.silenceTest (s : State) (i : SlotId) : BusKeeps s (s.silenceTest i) := by
  unfold State.silenceTest
  split
  · exact .markSilent s i
  · exact .refl s

theorem BusKeeps.silenceTests (s : State) : BusKeeps s s.silenceTests := .foldl BusKeeps.silenceTest _ s

theorem BusKeeps.testSilence (s : State) (f : FieldId) : BusKeeps s (s.testSilence f) :=
  .foldl BusKeeps.silenceTest _ s

theorem BusKeeps.clearSilent (s : State) (f : FieldId) : BusKeeps s (s.clearSilent f) := by
  refine .foldl (fun s i => ?_) _ s
  exact { BusKeeps.refl s with
    slots := fun k => by
      simp only [State.updSlot_slots, Table.at_put]
      split
      · next h => subst h; rfl
      · rfl }

end Sys2Proof.Machine
end

