-- ==== Sys2Proof/Laws/Sequencer.lean ====
section
/-! SUPPORT. What the Match Sequencer's procedures leave alone (`FieldKeeps`) and what they write in their field. -/

namespace Sys2Proof.Machine

open Sys2Proof

theorem FieldKeeps.refl (f : FieldId) (s : State) : FieldKeeps f s s where
  link := rfl
  stations := rfl
  slots := fun _ => rfl
  gate := rfl
  fields := fun _ _ => rfl
  tallies := rfl
  lines := rfl
  pins := rfl
  sampleLeft := rfl
  rules := fun _ => rfl
  eventCount := fun _ => rfl
  entry := fun _ => rfl
  busState := rfl
  probeLeft := rfl
  urgent := fun _ _ => rfl
  routine := rfl
  beaconLeft := rfl
  mgmt := rfl
  notices := List.prefix_rfl
  timing := rfl
  budgetLeft := rfl
  loader := rfl
  choices := rfl
  pending := rfl

theorem FieldKeeps.trans {f : FieldId} {s t u : State} (h : FieldKeeps f s t) (k : FieldKeeps f t u) :
    FieldKeeps f s u where
  link := by rw [k.link, h.link]
  stations := k.stations.trans h.stations
  slots := fun i => by rw [k.slots i, h.slots i]
  gate := k.gate.trans h.gate
  fields := fun g hg => (k.fields g hg).trans (h.fields g hg)
  tallies := k.tallies.trans h.tallies
  lines := k.lines.trans h.lines
  pins := k.pins.trans h.pins
  sampleLeft := k.sampleLeft.trans h.sampleLeft
  rules := fun e => (k.rules e).trans (h.rules e)
  eventCount := fun e => (k.eventCount e).trans (h.eventCount e)
  entry := fun e => (k.entry e).trans (h.entry e)
  busState := k.busState.trans h.busState
  probeLeft := k.probeLeft.trans h.probeLeft
  urgent := fun g hg => (k.urgent g hg).trans (h.urgent g hg)
  routine := k.routine.trans h.routine
  beaconLeft := k.beaconLeft.trans h.beaconLeft
  mgmt := by rw [k.mgmt, h.mgmt]
  notices := h.notices.trans k.notices
  timing := k.timing.trans h.timing
  budgetLeft := k.budgetLeft.trans h.budgetLeft
  loader := k.loader.trans h.loader
  choices := k.choices.trans h.choices
  pending := k.pending.trans h.pending

/-- What the bus and the arbiter leave alone includes what an event of any field leaves alone. -/
theorem BusKeeps.toField {s t : State} (h : BusKeeps s t) (f : FieldId) : FieldKeeps f s t where
  link := h.link
  stations := h.stations
  slots := h.slots
  gate := h.gate
  fields := fun g _ => by rw [h.fields]
  tallies := h.tallies
  lines := h.lines
  pins := h.pins
  sampleLeft := h.sampleLeft
  rules := h.rules
  eventCount := h.eventCount
  entry := h.entry
  busState := h.busState
  probeLeft := h.probeLeft
  urgent := fun g _ => by rw [h.beacons]
  routine := by rw [h.beacons]
  beaconLeft := by rw [h.beacons]
  mgmt := h.mgmt
  notices := h.notices
  timing := h.timing
  budgetLeft := h.budgetLeft
  loader := h.loader
  choices := h.choices
  pending := h.pending

theorem FieldKeeps.updField (f : FieldId) (s : State) (g : MatchRecord → MatchRecord) :
    FieldKeeps f s (s.updField f g) :=
  { FieldKeeps.refl f s with fields := fun k hk => by simp [hk] }

theorem FieldKeeps.setUrgent (f : FieldId) (s : State) : FieldKeeps f s (s.setUrgent f) :=
  { FieldKeeps.refl f s with urgent := fun k hk => by simp [hk] }

/-- The announcements of a phase change after the urgent mark has been set (R55). -/
theorem BusKeeps.announcePhase (s : State) (f : FieldId) (n : Nat) (a : Bool) :
    BusKeeps (s.setUrgent f) (s.announcePhase f n a) := by
  unfold State.announcePhase
  dsimp only
  have h1 : BusKeeps (s.setUrgent f) ((s.setUrgent f).queueNotice (.phase f (s.fields.at f).phase n a)) :=
    .queueNotice _ _
  have h2 : ∀ t : State, BusKeeps t (if (s.fields.at f).phase = .teleop ∨ (s.fields.at f).phase = .endgame
      then t.phaseEvent f (s.fields.at f).phase else t) := by
    intro t; split
    · exact (ArbiterKeeps.phaseEvent t f _).toBus
    · exact .refl t
  split
  · exact .trans (.trans h1 (h2 _)) (.testSilence _ _)
  · exact .trans (.trans h1 (h2 _)) (.clearSilent _ _)

/-- What an announcement leaves alone. -/
theorem FieldKeeps.announcePhase (f : FieldId) (s : State) (n : Nat) (a : Bool) :
    FieldKeeps f s (s.announcePhase f n a) :=
  .trans (.setUrgent f s) ((BusKeeps.announcePhase s f n a).toField f)

@[simp] theorem State.announcePhase_fields (s : State) (f : FieldId) (n : Nat) (a : Bool) :
    (s.announcePhase f n a).fields = s.fields := (BusKeeps.announcePhase s f n a).fields

@[simp] theorem State.announcePhase_beacons (s : State) (f : FieldId) (n : Nat) (a : Bool) :
    (s.announcePhase f n a).beacons = { s.beacons with urgent := s.beacons.urgent.put f true } :=
  (BusKeeps.announcePhase s f n a).beacons

/-- The entry to a phase writes the phase and the remaining time, and nothing else of the field (R49). -/
@[simp] theorem State.enterPhase_fields (s : State) (f : FieldId) (dest : Phase × Nat) :
    (s.enterPhase f dest).fields =
      s.fields.put f { s.fields.at f with phase := dest.1, remaining := dest.2 } := by
  simp [State.enterPhase]

theorem FieldKeeps.enterPhase (f : FieldId) (s : State) (dest : Phase × Nat) : FieldKeeps f s (s.enterPhase f dest) :=
  .trans (.updField f s _) (.announcePhase f _ _ _)

@[simp] theorem State.enterPhase_beacons (s : State) (f : FieldId) (dest : Phase × Nat) :
    (s.enterPhase f dest).beacons = { s.beacons with urgent := s.beacons.urgent.put f true } := by
  simp [State.enterPhase]

@[simp] theorem State.gateOffEvents_fields (s b : State) (r : Reason) : (s.gateOffEvents b r).fields = s.fields :=
  (ArbiterKeeps.gateOffEvents s b r).fields

@[simp] theorem State.gateOffEvents_beacons (s b : State) (r : Reason) : (s.gateOffEvents b r).beacons = s.beacons :=
  (ArbiterKeeps.gateOffEvents s b r).beacons

@[simp] theorem State.expireInto_fields (s : State) (f : FieldId) (dest : Phase × Nat) :
    (s.expireInto f dest).fields = s.fields.put f { s.fields.at f with phase := dest.1, remaining := dest.2 } := by
  simp [State.expireInto]

theorem FieldKeeps.expireInto (f : FieldId) (s : State) (dest : Phase × Nat) : FieldKeeps f s (s.expireInto f dest) :=
  .trans (.trans (.updField f s _) ((ArbiterKeeps.gateOffEvents _ _ _).toBus.toField f)) (.announcePhase f _ _ _)

@[simp] theorem State.settle_link (s : State) : s.settle.link = s.link := by rw [State.settle_eq]
@[simp] theorem State.settle_stations (s : State) : s.settle.stations = s.stations := by rw [State.settle_eq]
@[simp] theorem State.settle_slots (s : State) : s.settle.slots = s.slots := by rw [State.settle_eq]
@[simp] theorem State.settle_gate (s : State) : s.settle.gate = s.gate := by rw [State.settle_eq]
@[simp] theorem State.settle_fields (s : State) : s.settle.fields = s.fields := by rw [State.settle_eq]
@[simp] theorem State.settle_tallies (s : State) : s.settle.tallies = s.tallies := by rw [State.settle_eq]
@[simp] theorem State.settle_lines (s : State) : s.settle.lines = s.lines := by rw [State.settle_eq]
@[simp] theorem State.settle_pins (s : State) : s.settle.pins = s.pins := by rw [State.settle_eq]
@[simp] theorem State.settle_sampleLeft (s : State) : s.settle.sampleLeft = s.sampleLeft := by rw [State.settle_eq]
@[simp] theorem State.settle_beacons (s : State) : s.settle.beacons = s.beacons := by rw [State.settle_eq]
@[simp] theorem State.settle_mgmt (s : State) : s.settle.mgmt = s.mgmt := by rw [State.settle_eq]
@[simp] theorem State.settle_timing (s : State) : s.settle.timing = s.timing := by rw [State.settle_eq]
@[simp] theorem State.settle_budgetLeft (s : State) : s.settle.budgetLeft = s.budgetLeft := by rw [State.settle_eq]
@[simp] theorem State.settle_loader (s : State) : s.settle.loader = s.loader := by rw [State.settle_eq]
@[simp] theorem State.settle_choices (s : State) : s.settle.choices = s.choices := by rw [State.settle_eq]
@[simp] theorem State.settle_pending (s : State) : s.settle.pending = s.pending := by rw [State.settle_eq]
@[simp] theorem State.safeField_fields (s : State) (f : FieldId) : (s.safeField f).fields = s.fields :=
  (BusKeeps.safeField s f).fields
@[simp] theorem State.safeField_beacons (s : State) (f : FieldId) : (s.safeField f).beacons = s.beacons :=
  (BusKeeps.safeField s f).beacons
@[simp] theorem State.queueNotice_beacons' (s : State) (c : NoticeContent) : (s.queueNotice c).beacons = s.beacons := rfl

/-- What the entry of a field to STOPPED leaves alone (R61). -/
theorem FieldKeeps.enterStopped (f : FieldId) (s : State) (c : StopCause) : FieldKeeps f s (s.enterStopped f c) := by
  unfold State.enterStopped
  refine .trans ?_ ((BusKeeps.queueNotice _ _).toField f)
  refine .trans ?_ (.setUrgent f _)
  refine .trans ?_ ((BusKeeps.safeField _ f).toField f)
  refine .trans ?_ ((ArbiterKeeps.gateOffEvents _ _ _).toBus.toField f)
  exact .updField f s _

/-- The entry of a field to STOPPED writes its cause and nothing else of the field (R61). -/
@[simp] theorem State.enterStopped_fields (s : State) (f : FieldId) (c : StopCause) :
    (s.enterStopped f c).fields = s.fields.put f { s.fields.at f with stopped := some c } := by
  simp [State.enterStopped]

@[simp] theorem State.enterStopped_beacons (s : State) (f : FieldId) (c : StopCause) :
    (s.enterStopped f c).beacons = { s.beacons with urgent := s.beacons.urgent.put f true } := by
  simp [State.enterStopped]

theorem FieldKeeps.stopField (f : FieldId) (s : State) (c : StopCause) : FieldKeeps f s (s.stopField f c) := by
  unfold State.stopField
  split
  · exact .enterStopped f s c
  · exact .refl f s

theorem FieldKeeps.resumeField (f : FieldId) (s : State) (src : ResumeSource) : FieldKeeps f s (s.resumeField f src) := by
  unfold State.resumeField
  refine .trans ?_ ((BusKeeps.queueNotice _ _).toField f)
  refine .trans ?_ (.setUrgent f _)
  exact .updField f s _

end Sys2Proof.Machine
end

