-- ==== Sys2Proof/Laws/Command.lean ====
section
/-! SUPPORT. What a MANAGE command does when its frame is at the head of the receive store: its rule runs on the state
without the frame, and its reply joins the reply queue. And what a robot's or driver station's frame is found to be. -/

namespace Sys2Proof.Machine

open Sys2Proof

theorem CommandFrame.manageHead {s : State} {f : Frame} {rest : List Frame} {code : Byte} {ops : List Byte}
    (h : CommandFrame s f rest code ops) : s.manageHead = some f := by
  have hc : s.classify f = .manage := by
    have hd : s.forPart f.dst = true := by
      unfold State.forPart Config.broadcast
      rcases h.dst with d | d <;> simp [d]
    simp [State.classify, h.src, h.kind, FrameKind.code, hd]
  simp [State.manageHead, State.headFrame, h.mode, h.store, hc]

/-- The state in which a command's rule runs: the frame has left the receive store (R11). -/
theorem State.popStore_eq {s : State} {f : Frame} {rest : List Frame} (h : s.link.store = f :: rest) :
    s.popStore = s.taken rest := by
  simp [State.popStore, State.updLink, State.taken, h]

/-- A command of the right length is answered as its owning rule says (R178, R179). -/
theorem CommandReady.command {s : State} {f : Frame} {rest : List Frame} {code : Byte} {ops : List Byte}
    (h : CommandReady s f rest code ops) (run : State → List Byte → Answer) :
    s.command code (ops.length + 1) run =
      (s.taken rest).answer f code (run (s.taken rest) ops) := by
  unfold State.command
  rw [h.manageHead]
  simp only [h.payload, if_true, List.length_cons]
  unfold State.dispose
  have hroom : ¬ Config.replyCapacity ≤ s.link.replies.length := by have := h.room; simp [Config.replyCapacity]; omega
  simp [State.popStore_eq h.store, State.taken, h.live, hroom]

/-- A command whose rule answers DONE. -/
theorem CommandReady.done {s t : State} {f : Frame} {rest : List Frame} {code : Byte} {ops data : List Byte}
    (h : CommandReady s f rest code ops) {n : Nat} (hn : n = ops.length + 1) (run : State → List Byte → Answer)
    (hr : run (s.taken rest) ops = .ok (t, data)) :
    s.command code n run = t.queueReply f code (.done data) := by
  subst hn; rw [h.command, hr]; rfl

/-- A command's frame is discarded while the agent is restart-pending or the reply queue is full (R178). -/
theorem CommandFrame.discarded {s : State} {f : Frame} {rest : List Frame} {code : Byte} {ops : List Byte}
    (h : CommandFrame s f rest code ops) (hb : s.mgmt.restartPending = true ∨ 4 ≤ s.link.replies.length) (n : Nat)
    (run : State → List Byte → Answer) : s.command code n run = s.taken rest := by
  unfold State.command
  rw [h.manageHead]
  simp only [h.payload, if_true]
  unfold State.dispose
  rcases hb with hb | hb
  · simp [State.popStore_eq h.store, State.taken, hb]
  · simp [State.popStore_eq h.store, State.taken, Config.replyCapacity, hb]

/-- A command whose rule refuses it changes nothing else (R179). -/
theorem CommandReady.refused {s : State} {f : Frame} {rest : List Frame} {code : Byte} {ops : List Byte}
    (h : CommandReady s f rest code ops) {n : Nat} (hn : n = ops.length + 1) (run : State → List Byte → Answer)
    {r : ReplyReason} (hr : run (s.taken rest) ops = .error r) :
    s.command code n run = s.replied f rest code (.refused r) := by
  subst hn; rw [h.command, hr]; rfl

/-- A command of another length is refused with LENGTH (R179). -/
theorem CommandReady.wrongLength {s : State} {f : Frame} {rest : List Frame} {code : Byte} {ops : List Byte}
    (h : CommandReady s f rest code ops) {n : Nat} (hn : n ≠ ops.length + 1) (run : State → List Byte → Answer) :
    s.command code n run = s.replied f rest code (.refused .length) := by
  unfold State.command
  rw [h.manageHead]
  have hn' : ¬ (ops.length + 1 = n) := fun e => hn e.symm
  simp only [h.payload, if_true, List.length_cons, hn', if_false]
  unfold State.dispose
  have hroom : ¬ Config.replyCapacity ≤ s.link.replies.length := by have := h.room; simp [Config.replyCapacity]; omega
  simp [State.popStore_eq h.store, State.taken, h.live, hroom]
  rfl

theorem RobotFrame.headFrame {s : State} {f : Frame} {rest : List Frame} {i : SlotId} {radio : Radio}
    (h : RobotFrame s f rest i radio) : s.headFrame = some (f, .robot i radio) := by
  obtain ⟨st, hs, hr, hi⟩ := h.station
  simp [State.headFrame, State.classify, h.mode, h.store, h.range, h.notConsole, h.notManage, hs, hr, hi, FrameKind.code]

theorem DriverFrame.headFrame {s : State} {f : Frame} {rest : List Frame} {i : SlotId}
    (h : DriverFrame s f rest i) : s.headFrame = some (f, .driver i) := by
  obtain ⟨st, radio, hs, hr, hi⟩ := h.station
  simp [State.headFrame, State.classify, h.mode, h.store, h.range, h.notConsole, h.notManage, hs, hr, hi, FrameKind.code]

end Sys2Proof.Machine
end

