-- ==== Sys2Proof/Laws/Elements.lean ====
section
/-! SUPPORT. What the procedures of the Element Arbiter and of the bus make of the element they act on, and that they
leave every other element alone. -/

namespace Sys2Proof.Machine

open Sys2Proof

/-! ### What is kept of an element, update by update -/

@[simp] theorem State.updSlot_loadedAt (s : State) (i : SlotId) (g : Slot → Slot) (e : ElementId) :
    (s.updSlot i g).loadedAt e = s.loadedAt e := rfl
@[simp] theorem State.updField_loadedAt (s : State) (f : FieldId) (g : MatchRecord → MatchRecord) (e : ElementId) :
    (s.updField f g).loadedAt e = s.loadedAt e := rfl
@[simp] theorem State.updLink_loadedAt (s : State) (g : Link → Link) (e : ElementId) :
    (s.updLink g).loadedAt e = s.loadedAt e := rfl
@[simp] theorem State.updBus_loadedAt (s : State) (g : Bus → Bus) (e : ElementId) :
    (s.updBus g).loadedAt e = s.loadedAt e := rfl
@[simp] theorem State.updMgmt_loadedAt (s : State) (g : Mgmt → Mgmt) (e : ElementId) :
    (s.updMgmt g).loadedAt e = s.loadedAt e := rfl
@[simp] theorem State.verdictFor_loadedAt (s : State) (i : SlotId) (k : ElementId) (o : Outcome) (t : Byte) (e : ElementId) :
    (s.verdictFor i k o t).loadedAt e = s.loadedAt e := rfl
@[simp] theorem State.queueVerdict_loadedAt (s : State) (i : SlotId) (b : Byte) (o : Outcome) (t : Byte) (e : ElementId) :
    (s.queueVerdict i b o t).loadedAt e = s.loadedAt e := rfl
@[simp] theorem State.queueNotice_loadedAt (s : State) (c : NoticeContent) (e : ElementId) :
    (s.queueNotice c).loadedAt e = s.loadedAt e := rfl
@[simp] theorem State.lessOutstanding_loadedAt (s : State) (i : SlotId) (e : ElementId) :
    (s.lessOutstanding i).loadedAt e = s.loadedAt e := rfl
@[simp] theorem State.moreOutstanding_loadedAt (s : State) (i : SlotId) (e : ElementId) :
    (s.moreOutstanding i).loadedAt e = s.loadedAt e := rfl
@[simp] theorem State.setUrgent_loadedAt (s : State) (f : FieldId) (e : ElementId) :
    (s.setUrgent f).loadedAt e = s.loadedAt e := rfl
@[simp] theorem State.dropSafe_loadedAt (s : State) (k e : ElementId) : (s.dropSafe k).loadedAt e = s.loadedAt e := rfl
@[simp] theorem State.restPair_loadedAt (s : State) (e : ElementId) : s.restPair.loadedAt e = s.loadedAt e := rfl
@[simp] theorem State.taken_loadedAt (s : State) (rest : List Frame) (e : ElementId) :
    (s.taken rest).loadedAt e = s.loadedAt e := rfl
@[simp] theorem State.replied_loadedAt (s : State) (f : Frame) (rest : List Frame) (c : Byte) (o : ReplyOutcome)
    (e : ElementId) : (s.replied f rest c o).loadedAt e = s.loadedAt e := rfl
@[simp] theorem State.countReport_loadedAt (s : State) (k : ElementId) (n : Nat) (e : ElementId) :
    (s.countReport k n).loadedAt e = s.loadedAt e := by
  simp only [State.countReport, State.loadedAt, State.updElement_elements, Table.at_put]
  split
  · next h => subst h; rfl
  · rfl

@[simp] theorem State.dropNext_loadedAt (s : State) (k : ElementId) (h : Hold) (e : ElementId) :
    (s.dropNext k h).loadedAt e = s.loadedAt e := by
  unfold State.dropNext; split <;> rfl

/-- What is kept of an element, by its number. -/
theorem State.updLoaded_loadedAt (s : State) (e k : ElementId) (g : Loaded → Loaded) :
    (s.updLoaded e g).loadedAt k = if k = e then (s.loadedAt e).map g else s.loadedAt k := by
  by_cases h : k = e
  · subst h; simp
  · simp [h]

/-! ### The Element Arbiter on the other elements -/

theorem State.grant_others (s : State) (e : ElementId) (i : SlotId) (r : Request) {k : ElementId} (h : k ≠ e) :
    (s.grant e i r).loadedAt k = s.loadedAt k := by
  simp [State.grant, h]

theorem State.grantSelection_others (s : State) (e : ElementId) {k : ElementId} (h : k ≠ e) :
    (s.grantSelection e).loadedAt k = s.loadedAt k := by
  unfold State.grantSelection
  split
  · rfl
  · split
    · split
      · rfl
      · rw [State.grant_others _ _ _ _ h]; simp [h]
    · rfl

theorem State.releaseHold_others (s : State) (e : ElementId) (x : Hold) (r : Reason) {k : ElementId} (h : k ≠ e) :
    (s.releaseHold e x r).loadedAt k = s.loadedAt k := by
  simp [State.releaseHold, h]

theorem State.cancelUnsent_others (s : State) (e : ElementId) (i : SlotId) {k : ElementId} (h : k ≠ e) :
    (s.cancelUnsent e i).loadedAt k = s.loadedAt k := by
  unfold State.cancelUnsent
  split
  · rfl
  · split
    · rfl
    · split
      · simp [h]
      · rfl

theorem State.selectIfFree_others (s : State) (e : ElementId) {k : ElementId} (h : k ≠ e) :
    (s.selectIfFree e).loadedAt k = s.loadedAt k := by
  unfold State.selectIfFree
  split
  · rfl
  · split
    · exact State.grantSelection_others s e h
    · rfl

theorem State.endHold_others (s : State) (e : ElementId) (r : Reason) {k : ElementId} (h : k ≠ e) :
    (s.endHold e r).loadedAt k = s.loadedAt k := by
  unfold State.endHold
  split
  · rfl
  · rw [State.selectIfFree_others _ _ h, State.cancelUnsent_others _ _ _ h, State.releaseHold_others _ _ _ _ h]

theorem State.withdraw_others (s : State) (e : ElementId) (c : Claim) (r : Reason) {k : ElementId} (h : k ≠ e) :
    (s.withdraw e c r).loadedAt k = s.loadedAt k := by
  unfold State.withdraw
  dsimp only
  rw [State.grantSelection_others _ _ h]
  simp [h]

theorem State.takeAway_others (s : State) (i : SlotId) (r : Reason) (e : ElementId) {k : ElementId} (h : k ≠ e) :
    (s.takeAway i r e).loadedAt k = s.loadedAt k := by
  have h1 : (s.withdrawClaimOf i r e).loadedAt k = s.loadedAt k := by
    unfold State.withdrawClaimOf; split
    · exact State.withdraw_others s e _ r h
    · rfl
  rw [← h1]
  unfold State.takeAway State.endHoldOf
  split
  · split
    · exact State.endHold_others _ e r h
    · rfl
  · rfl

theorem State.withdrawAll_others (s : State) (e : ElementId) (r : Reason) {k : ElementId} (h : k ≠ e) :
    (s.withdrawAll e r).loadedAt k = s.loadedAt k := by
  unfold State.withdrawAll
  split
  · rfl
  · next l hl =>
    clear hl
    generalize l.claims = q
    induction q generalizing s with
    | nil => rfl
    | cons c q ih => rw [List.foldl_cons, ih, State.withdraw_others _ _ _ _ h]

theorem State.afterActuation_others (s : State) (e : ElementId) {k : ElementId} (h : k ≠ e) :
    (s.afterActuation e).loadedAt k = s.loadedAt k := by
  unfold State.afterActuation
  split
  · rfl
  · split
    · exact State.grantSelection_others s e h
    · split
      · rfl
      · unfold State.takeNext; split <;> simp [h]

theorem State.endActuation_others (s : State) (e : ElementId) (how : ActEnd) {k : ElementId} (h : k ≠ e) :
    (s.endActuation e how).loadedAt k = s.loadedAt k := by
  unfold State.endActuation
  split
  · rfl
  · rw [State.afterActuation_others _ _ h]; simp [h]

theorem State.elementLost_others (s : State) (e : ElementId) (r : Reason) {k : ElementId} (h : k ≠ e) :
    (s.elementLost e r).loadedAt k = s.loadedAt k := by
  unfold State.elementLost State.failActuation
  rw [State.endHold_others _ _ _ h, State.withdrawAll_others _ _ _ h]
  split
  · simp [h]
  · rfl

/-! ### Grant selection where there is nothing to grant -/

/-- Grant selection does nothing off a PRESENT element, on one with a hold or an actuation, or with an empty queue (R101). -/
theorem State.grantSelection_none {s : State} {e : ElementId} {l : Loaded} (hl : s.loadedAt e = some l)
    (h : l.presence ≠ .present ∨ l.hold ≠ none ∨ l.act ≠ none ∨ l.claims = []) : s.grantSelection e = s := by
  unfold State.grantSelection
  rw [hl]
  dsimp only
  split
  · next hc =>
    obtain ⟨h1, h2, h3⟩ := hc
    have hq : l.claims = [] := by
      rcases h with h | h | h | h
      · exact absurd h1 h
      · exact absurd h2 h
      · exact absurd h3 h
      · exact h
    have : s.pickClaim l = none := by
      unfold State.pickClaim
      simp only [hq, List.find?_nil]
      split <;> rfl
    rw [this]
  · rfl

/-- The withdrawal of a claim where no grant follows (R104). -/
theorem State.withdraw_quiet {s : State} {e : ElementId} {l : Loaded} (hl : s.loadedAt e = some l)
    (h : l.presence ≠ .present ∨ l.hold ≠ none ∨ l.act ≠ none) (c : Claim) (r : Reason) :
    s.withdraw e c r =
      (((s.updLoaded e fun l => { l with claims := l.claims.erase c }).lessOutstanding c.slot).verdictFor c.slot e
        (.withdrawn r) c.request.tag) := by
  unfold State.withdraw
  dsimp only
  refine State.grantSelection_none (l := { l with claims := l.claims.erase c }) (by simp [hl]) ?_
  tauto

/-- Off a PRESENT element, the withdrawal of the queue empties it and leaves the rest of the element (R108). -/
theorem State.withdrawAll_quiet {s : State} {e : ElementId} {l : Loaded} (hl : s.loadedAt e = some l)
    (h : l.presence ≠ .present) (r : Reason) :
    (s.withdrawAll e r).loadedAt e = some { l with claims := [] } := by
  have aux : ∀ (q : List Claim) (s : State) (l : Loaded), l.presence ≠ .present → s.loadedAt e = some l → l.claims = q →
      (q.foldl (fun s c => s.withdraw e c r) s).loadedAt e = some { l with claims := [] } := by
    intro q
    induction q with
    | nil => intro s l _ hl hq; rw [List.foldl_nil, hl]; congr 1; rw [← hq]
    | cons c q ih =>
      intro s l hp hl hq
      rw [List.foldl_cons]
      have h1 : (s.withdraw e c r).loadedAt e = some { l with claims := l.claims.erase c } := by
        rw [State.withdraw_quiet hl (.inl hp)]; simp [hl]
      rw [ih _ { l with claims := l.claims.erase c } hp h1 (by simp [hq])]
  unfold State.withdrawAll
  rw [hl]
  exact aux l.claims s l h hl rfl

/-- The end of a hold where no grant follows: the hold is gone, its last-release record and alliance are set, and an
unsent actuation is gone with it (R99). -/
theorem State.endHold_quiet {s : State} {e : ElementId} {l : Loaded} {x : Hold} (hl : s.loadedAt e = some l)
    (hx : l.hold = some x) (h : l.presence ≠ .present ∨ l.claims = []) (r : Reason) :
    ∃ l', (s.endHold e r).loadedAt e = some l' ∧
      (l' = l.released x.slot (s.slotAlliance x.slot) ∨
        (∃ a, l.act = some a ∧ a.state = .waitingBus ∧ a.sent = false ∧
          l' = (l.released x.slot (s.slotAlliance x.slot)).withoutAct s.timing.sensor)) := by
  unfold State.endHold
  rw [hl]
  simp only [Option.bind_some, hx]
  have h1 : (s.releaseHold e x r).loadedAt e = some (l.released x.slot (s.slotAlliance x.slot)) := by
    simp [State.releaseHold, hl]
  have ht : (s.releaseHold e x r).timing = s.timing := (ArbiterKeeps.releaseHold s e x r).timing
  generalize s.releaseHold e x r = t at h1 ht
  have sel : ∀ (u : State) (m : Loaded), u.loadedAt e = some m → (m.presence ≠ .present ∨ m.claims = []) →
      u.selectIfFree e = u := by
    intro u m hm hq
    unfold State.selectIfFree
    rw [hm]
    dsimp only
    split
    · exact State.grantSelection_none hm (by tauto)
    · rfl
  unfold State.cancelUnsent
  rw [h1]
  dsimp only
  cases ha : (l.released x.slot (s.slotAlliance x.slot)).act with
  | none =>
    refine ⟨_, ?_, .inl rfl⟩
    dsimp only
    rw [sel _ _ h1 h]
    exact h1
  | some a =>
    dsimp only
    split
    · next hc =>
      have hw : ((t.updLoaded e fun l => l.withoutAct t.timing.sensor).verdictFor x.slot e .cancelled a.request.tag).loadedAt e
          = some ((l.released x.slot (s.slotAlliance x.slot)).withoutAct s.timing.sensor) := by
        simp [h1, ht]
      refine ⟨_, ?_, .inr ⟨a, ha, hc.1, hc.2, rfl⟩⟩
      rw [sel _ _ hw (by simpa [Loaded.withoutAct, Loaded.released] using h), hw]
    · refine ⟨_, ?_, .inl rfl⟩
      rw [sel _ _ h1 h]
      exact h1

/-- Grant selection leaves the last-release record and the last holder alliance (R101). -/
theorem State.grantSelection_lastRelease (s : State) (e : ElementId) (l : Loaded) (h : s.loadedAt e = some l) :
    ∃ l', (s.grantSelection e).loadedAt e = some l' ∧ l'.lastRelease = l.lastRelease ∧ l'.lastAlliance = l.lastAlliance := by
  unfold State.grantSelection; rw [h]; dsimp only
  split
  · split
    · exact ⟨l, h, rfl, rfl⟩
    · simp [State.grant, h, Loaded.withAct]
  · exact ⟨l, h, rfl, rfl⟩

/-- The end of a hold sets the last-release record and the last holder alliance (R99). -/
theorem State.endHold_lastRelease {s : State} {e : ElementId} {l : Loaded} {x : Hold} (hl : s.loadedAt e = some l)
    (hx : l.hold = some x) (r : Reason) :
    ∃ l', (s.endHold e r).loadedAt e = some l' ∧ l'.lastRelease = some { slot := x.slot, since := 0 } ∧
      (∀ a, s.slotAlliance x.slot = some a → l'.lastAlliance = some a) := by
  unfold State.endHold
  rw [hl]; simp only [Option.bind_some, hx]
  have h1 : (s.releaseHold e x r).loadedAt e = some (l.released x.slot (s.slotAlliance x.slot)) := by
    simp [State.releaseHold, hl]
  generalize s.releaseHold e x r = t at h1
  obtain ⟨m, hm, hm2, hm3⟩ : ∃ m, (t.cancelUnsent e x.slot).loadedAt e = some m ∧ m.lastRelease = some { slot := x.slot, since := 0 } ∧
     m.lastAlliance = (l.released x.slot (s.slotAlliance x.slot)).lastAlliance := by
    unfold State.cancelUnsent; rw [h1]; dsimp only
    split
    · exact ⟨_, h1, rfl, rfl⟩
    · split
      · simp [h1, Loaded.withoutAct, Loaded.released]
      · exact ⟨_, h1, rfl, rfl⟩
  have key : ∀ a, s.slotAlliance x.slot = some a → m.lastAlliance = some a := by
    intro a ha; rw [hm3, ha]; rfl
  unfold State.selectIfFree; rw [hm]; dsimp only
  split
  · obtain ⟨l', a, b, c⟩ := State.grantSelection_lastRelease _ _ _ hm
    exact ⟨l', a, b.trans hm2, fun q hq => c.trans (key q hq)⟩
  · exact ⟨m, hm, hm2, key⟩

/-- The end of a hold with an empty queue: the outstanding count falls, and RELEASED is the verdict (R99, R103). -/
theorem State.endHold_empty {s : State} {e : ElementId} {l : Loaded} {x : Hold} (hl : s.loadedAt e = some l)
    (hx : l.hold = some x) (hc : l.claims = []) (r : Reason) :
    ((s.endHold e r).slots.at x.slot).outstanding = (s.slots.at x.slot).outstanding - 1 ∧ 
     (l.act = none → x.next = none → (s.endHold e r).link.verdicts = enqueueVerdict s.link.verdicts
        { slot := x.slot, element := elementByte e, outcome := .released r, tag := x.tag }) ∧
     ∃ l', (s.endHold e r).loadedAt e = some l' ∧ l'.hold = none := by
  unfold State.endHold
  rw [hl]; simp only [Option.bind_some, hx]
  have h1 : (s.releaseHold e x r).loadedAt e = some (l.released x.slot (s.slotAlliance x.slot)) := by
    simp [State.releaseHold, hl]
  have h2 : ((s.releaseHold e x r).slots.at x.slot).outstanding = (s.slots.at x.slot).outstanding - 1 := by
    have : ∀ t : State, (t.dropNext e x).slots = t.slots := by intro t; unfold State.dropNext; split <;> rfl
    simp [State.releaseHold, this, State.verdictFor, State.queueVerdict, State.lessOutstanding]
  have h3 : x.next = none → (s.releaseHold e x r).link.verdicts = enqueueVerdict s.link.verdicts
        { slot := x.slot, element := elementByte e, outcome := .released r, tag := x.tag } := by
    intro hn; simp [State.releaseHold, State.dropNext, hn]
  generalize s.releaseHold e x r = t at h1 h2 h3
  have sel : ∀ (u : State) (m : Loaded), u.loadedAt e = some m → m.claims = [] →
      u.selectIfFree e = u := by
    intro u m hm hq
    unfold State.selectIfFree
    rw [hm]
    dsimp only
    split
    · exact State.grantSelection_none hm (by tauto)
    · rfl
  unfold State.cancelUnsent
  rw [h1]
  dsimp only
  cases ha : (l.released x.slot (s.slotAlliance x.slot)).act with
  | none =>
    dsimp only
    rw [sel _ _ h1 hc]
    exact ⟨h2, fun _ => h3, _, h1, rfl⟩
  | some a =>
    dsimp only
    have hna : l.act ≠ none := by intro e; rw [show (l.released x.slot (s.slotAlliance x.slot)).act = l.act from rfl, e] at ha; cases ha
    split
    · have hw : ((t.updLoaded e fun l => l.withoutAct t.timing.sensor).verdictFor x.slot e .cancelled a.request.tag).loadedAt e
          = some ((l.released x.slot (s.slotAlliance x.slot)).withoutAct t.timing.sensor) := by
        simp [h1]
      rw [sel _ _ hw hc]
      exact ⟨h2, fun k => absurd k hna, _, hw, rfl⟩
    · rw [sel _ _ h1 hc]
      exact ⟨h2, fun k => absurd k hna, _, h1, rfl⟩

/-- The loss of an element leaves it without actuation, queue and hold, and its presence as it was set (R108). -/
theorem State.elementLost_spec {s : State} {e : ElementId} {l : Loaded} (hl : s.loadedAt e = some l)
    (h : l.presence ≠ .present) (r : Reason) :
    ∃ l', (s.elementLost e r).loadedAt e = some l' ∧ l'.act = none ∧ l'.hold = none ∧ l'.claims = [] ∧
      l'.busSide = l.busSide ∧ l'.resend = (if l.act = none then l.resend else none) ∧
      l'.actionPoll = (if l.act = none then l.actionPoll else none) ∧ l'.sensor = l.sensor := by
  unfold State.elementLost
  obtain ⟨m, hm, hma, hmb, hmh, hmr, hmp, hms⟩ : ∃ m, (s.failActuation e r).loadedAt e = some m ∧ m.act = none ∧
      m.busSide = l.busSide ∧ m.hold = l.hold ∧ m.resend = (if l.act = none then l.resend else none) ∧
      m.actionPoll = (if l.act = none then l.actionPoll else none) ∧ m.sensor = l.sensor := by
    unfold State.failActuation
    rw [hl]
    simp only [Option.bind_some]
    cases ha : l.act with
    | none => exact ⟨l, hl, ha, rfl, rfl, by simp, by simp, rfl⟩
    | some a =>
      refine ⟨l.withoutAct s.timing.sensor, by simp [hl], rfl, rfl, rfl, by simp [Loaded.withoutAct],
        by simp [Loaded.withoutAct], ?_⟩
      have : (l.presence == Presence.present) = false := by simpa using h
      simp [Loaded.withoutAct, this]
  have hmp' : m.presence ≠ .present := by
    have : m.busSide.presence = l.busSide.presence := by rw [hmb]
    simp only [Loaded.busSide] at this
    rw [this]; exact h
  have h2 := State.withdrawAll_quiet hm hmp' .elementDown
  generalize (s.failActuation e r).withdrawAll e .elementDown = u at h2
  cases hh : m.hold with
  | none =>
    refine ⟨{ m with claims := [] }, ?_, hma, hh, rfl, hmb, hmr, hmp, hms⟩
    have : (u.loadedAt e).bind (·.hold) = none := by rw [h2]; exact hh
    unfold State.endHold
    rw [this]
    exact h2
  | some x =>
    obtain ⟨l', h3, h4⟩ := State.endHold_quiet h2 (x := x) hh (.inr rfl) .elementLost
    refine ⟨l', h3, ?_⟩
    rcases h4 with rfl | ⟨a, ha, _⟩
    · exact ⟨hma, rfl, rfl, hmb, hmr, hmp, hms⟩
    · rw [hma] at ha; cases ha

/-! ### The bus arbiter on the elements -/

/-- While the pair is not idle, or the bus is not RUNNING, the bus arbiter starts nothing (R128). -/
theorem State.settle_busy {s : State} (h : s.bus.activity ≠ .idle ∨ s.bus.state ≠ .running) :
    s.settle.elements = s.elements ∧ s.settle.bus.activity = s.bus.activity := by
  have hc : s.clearIdleTurn.bus.activity = s.bus.activity ∧ s.clearIdleTurn.bus.state = s.bus.state ∧
      s.clearIdleTurn.elements = s.elements := by
    unfold State.clearIdleTurn; split <;> exact ⟨rfl, rfl, rfl⟩
  unfold State.settle State.arbitrate
  rw [if_neg (by rw [hc.1, hc.2.1]; tauto)]
  exact ⟨hc.2.2, hc.1⟩

/-- The bus arbiter leaves each element as it was, or has started a transaction for it (R128). -/
theorem State.settle_loadedAt (s : State) (e : ElementId) :
    s.settle.loadedAt e = s.loadedAt e ∨
      ∃ l c t, s.loadedAt e = some l ∧ s.settle.loadedAt e = some (l.started c) ∧ s.settle.bus.activity = .flight t ∧
        t.element = e ∧ t.command = c := by
  have hc : ∀ k, s.clearIdleTurn.loadedAt k = s.loadedAt k := by
    intro k; unfold State.clearIdleTurn; split <;> rfl
  unfold State.settle State.arbitrate
  split
  · split
    · next k c _ =>
      unfold State.startTransaction
      split
      · exact .inl (hc e)
      · next l hl =>
        by_cases hk : e = k
        · subst hk
          refine .inr ⟨l, c, ?_⟩
          refine ⟨_, (hc e).symm.trans hl, ?_, rfl, rfl, rfl⟩
          simp [hl]
        · left; simp [hk, hc]
    · exact .inl (hc e)
  · exact .inl (hc e)

/-- As `settle_loadedAt`, for an element whose entry is loaded. -/
theorem State.settle_get {s : State} {e : ElementId} {l : Loaded} (h : s.loadedAt e = some l) :
    ∃ l', s.settle.loadedAt e = some l' ∧ (l' = l ∨ ∃ c t, l' = l.started c ∧ s.settle.bus.activity = .flight t ∧
        t.element = e ∧ t.command = c) := by
  rcases s.settle_loadedAt e with k | ⟨m, c, t, h1, h2, h3, h4, h5⟩
  · exact ⟨l, k.trans h, .inl rfl⟩
  · rw [h] at h1; cases h1
    exact ⟨_, h2, .inr ⟨c, t, rfl, h3, h4, h5⟩⟩

/-- The bus arbiter keeps the SAFE queue (R128, R139). -/
@[simp] theorem State.settle_safeQueue (s : State) : s.settle.bus.safeQueue = s.bus.safeQueue := by
  have hc : s.clearIdleTurn.bus.safeQueue = s.bus.safeQueue := by unfold State.clearIdleTurn; split <;> rfl
  unfold State.settle State.arbitrate
  split
  · split
    · unfold State.startTransaction; split
      · exact hc
      · exact hc
    · exact hc
  · exact hc

/-- The start of a transaction leaves queue, hold, presence and miss count of its element (R128). -/
theorem Loaded.started_keeps (l : Loaded) (c : BusCommand) :
    (l.started c).claims = l.claims ∧ (l.started c).hold = l.hold ∧ (l.started c).presence = l.presence ∧
      (l.started c).misses = l.misses ∧ (l.started c).lastRelease = l.lastRelease ∧
      (l.started c).lastAlliance = l.lastAlliance ∧ (l.started c).fetchToggle = l.fetchToggle ∧
      (l.started c).act.map (fun a => (a.slot, a.request, a.state, a.running)) =
        l.act.map (fun a => (a.slot, a.request, a.state, a.running)) := by
  unfold Loaded.started
  split
  · split
    · next a ha => split <;> simp [ha]
    · next ha => simp [ha]
  all_goals simp

end Sys2Proof.Machine
end

