-- ==== Sys2Proof/Laws/Schedule.lean ====
section
/-! SUPPORT. The bus schedule of R128: the Bool tests of the model say what `State.Due` and `State.FirstDue` say, and one
lemma says all that the bus arbiter can do. -/

namespace Sys2Proof.Machine

open Sys2Proof

/-! ### First choices -/

/-- The first number of a range that passes a test. -/
theorem find_allOf {n : Nat} {p : Fin n → Bool} {e : Fin n} :
    (allOf n).find? p = some e ↔ p e = true ∧ ∀ k, k < e → p k = false := by
  unfold allOf
  rw [List.find?_eq_some_iff_getElem]
  refine and_congr_right fun _ => ⟨?_, fun h => ?_⟩
  · rintro ⟨i, hi, he, h⟩ k hk
    have h1 : e.val = i := by rw [← he]; simp
    have := h k.val (by omega)
    simpa using this
  · refine ⟨e.val, by simp, by simp, fun j hj => ?_⟩
    have := h ⟨j, by omega⟩ hj
    simpa using this

/-- A test on the loaded entry of an element. -/
theorem State.lowest_eq_some {s : State} {p : ElementId → Loaded → Bool} {e : ElementId} :
    s.lowest p = some e ↔ (∃ l, s.loadedAt e = some l ∧ p e l = true) ∧
      ∀ k m, s.loadedAt k = some m → p k m = true → e ≤ k := by
  unfold State.lowest
  rw [find_allOf]
  refine and_congr ?_ ?_
  · split
    · next l hl => simp [hl]
    · next hl => simp [hl]
  · constructor
    · intro h k m hk hp
      by_contra hlt
      have := h k (not_le.mp hlt)
      rw [hk] at this; simp [hp] at this
    · intro h k hk
      split
      · next m hm =>
        cases hp : p k m with
        | false => rfl
        | true => exact absurd (h k m hm hp) (not_le.mpr hk)
      · rfl

/-- Without a loaded element that passes a test none is the lowest. -/
theorem State.lowest_eq_none {s : State} {p : ElementId → Loaded → Bool} :
    s.lowest p = none ↔ ∀ k m, s.loadedAt k = some m → p k m = false := by
  unfold State.lowest
  rw [List.find?_eq_none]
  constructor
  · intro h k m hk
    have := h k (List.mem_finRange k)
    rw [hk] at this; simpa using this
  · intro h k _
    split
    · next m hm => simp [h k m hm]
    · simp

/-- The element that the probe turn names is the missing one that comes first after the last probed one, wrapping (R138). -/
theorem State.probeCandidate_eq_some {s : State} {e : ElementId} :
    s.probeCandidate = some e ↔ (∃ l, s.loadedAt e = some l ∧ l.missing = true) ∧
      ∀ k m, s.loadedAt k = some m → m.missing = true → e - (s.bus.lastProbed + 1) ≤ k - (s.bus.lastProbed + 1) := by
  unfold State.probeCandidate
  rw [List.find?_map, Option.map_eq_some_iff]
  constructor
  · rintro ⟨a, ha, rfl⟩
    rw [find_allOf] at ha
    obtain ⟨h1, h2⟩ := ha
    refine ⟨?_, fun k m hk hm => ?_⟩
    · simp only [Function.comp] at h1
      split at h1
      · next l hl => exact ⟨l, hl, h1⟩
      · cases h1
    · by_contra hlt
      rw [add_sub_cancel_left] at hlt
      have := h2 (k - (s.bus.lastProbed + 1)) (not_le.mp hlt)
      simp only [Function.comp, add_sub_cancel, hk, hm] at this
      cases this
  · rintro ⟨⟨l, hl, hm⟩, h⟩
    refine ⟨e - (s.bus.lastProbed + 1), ?_, by rw [add_sub_cancel]⟩
    rw [find_allOf]
    refine ⟨by simp only [Function.comp, add_sub_cancel, hl, hm], fun k hk => ?_⟩
    simp only [Function.comp]
    split
    · next m hm' =>
      cases hq : m.missing with
      | false => rfl
      | true =>
        have := h _ m hm' hq
        rw [add_sub_cancel_left] at this
        exact absurd this (not_le.mpr hk)
    · rfl

/-- Without a missing element the probe turn names none (R138). -/
theorem State.probeCandidate_eq_none {s : State} :
    s.probeCandidate = none ↔ ∀ k m, s.loadedAt k = some m → m.missing = false := by
  unfold State.probeCandidate
  rw [List.find?_eq_none]
  constructor
  · intro h k m hk
    have := h k (List.mem_map.mpr ⟨k - (s.bus.lastProbed + 1), List.mem_finRange _, add_sub_cancel _ _⟩)
    rw [hk] at this; simpa using this
  · intro h k _
    split
    · next m hm => simp [h k m hm]
    · simp

/-! ### What is due (R128) -/

theorem countdownDue_iff (c : Option Nat) : countdownDue c = true ↔ c = some 0 := by
  unfold countdownDue; split <;> simp_all

theorem Loaded.missing_iff (l : Loaded) : l.missing = true ↔ l.presence = .unknown ∨ l.presence = .absent := by
  simp [Loaded.missing]

/-- The test of an ACTUATE is `Due` (R130). -/
theorem State.dueActuate_iff (s : State) (e : ElementId) (l : Loaded) : s.dueActuate e l = true ↔ s.Due e l .actuate := by
  unfold State.dueActuate State.Due State.safePending Loaded.isPresent
  simp only [Bool.and_eq_true, beq_iff_eq, Bool.not_eq_true', Bool.or_eq_true, countdownDue_iff, List.contains_eq_mem,
    decide_eq_false_iff_not, and_assoc]
  refine and_congr_right fun _ => and_congr_right fun _ => and_congr_right fun _ => ?_
  split
  · next a ha => simp [ha]
  · next ha => simp [ha]

/-- The first due transaction is that of `FirstDue` (R128). -/
theorem State.firstDue_eq_some {s : State} {e : ElementId} {c : BusCommand} :
    s.firstDue = some (e, c) ↔ ∃ l, s.FirstDue e l c := by
  have hs : ∀ k, s.dueSafe = some k ↔ ∃ m, s.loadedAt k = some m ∧ s.Due k m .safe := by
    intro k
    unfold State.dueSafe State.Due
    rw [Option.filter_eq_some_iff]
    constructor
    · rintro ⟨h1, h2⟩
      split at h2
      · next m hm => exact ⟨m, hm, h1, by simpa using h2⟩
      · cases h2
    · rintro ⟨m, hm, h1, h2⟩
      exact ⟨h1, by rw [hm]; simpa using h2⟩
  have hs0 : s.dueSafe = none ↔ ∀ k m, s.loadedAt k = some m → ¬ s.Due k m .safe := by
    rw [Option.eq_none_iff_forall_ne_some]
    constructor
    · intro h k m hm hd; exact h k ((hs k).mpr ⟨m, hm, hd⟩)
    · intro h k hk; obtain ⟨m, hm, hd⟩ := (hs k).mp hk; exact h k m hm hd
  -- the three tests on a mark or a countdown
  have d3 : ∀ k m, (m.isPresent && m.fetchMark) = true ↔ s.Due k m .fetch := by
    intro k m; simp [State.Due, Loaded.isPresent]
  have d4 : ∀ k m, (m.isPresent && countdownDue m.actionPoll) = true ↔ s.Due k m .actionPoll := by
    intro k m; simp [State.Due, Loaded.isPresent, countdownDue_iff]
  have d5 : ∀ k m, (m.isPresent && countdownDue m.sensor) = true ↔ s.Due k m .sensorPoll := by
    intro k m; simp [State.Due, Loaded.isPresent, countdownDue_iff]
  have low : ∀ (p : ElementId → Loaded → Bool) (d : BusCommand), (∀ k m, p k m = true ↔ s.Due k m d) →
      (∀ k, s.lowest p = some k ↔ (∃ m, s.loadedAt k = some m ∧ s.Due k m d) ∧
        ∀ j m, s.loadedAt j = some m → s.Due j m d → k ≤ j) ∧
      (s.lowest p = none ↔ ∀ k m, s.loadedAt k = some m → ¬ s.Due k m d) := by
    intro p d hp
    refine ⟨fun k => ?_, ?_⟩
    · rw [State.lowest_eq_some]; simp only [hp]
    · rw [State.lowest_eq_none]; simp only [← hp, Bool.not_eq_true]
  have l2 := low s.dueActuate .actuate s.dueActuate_iff
  have l3 := low _ .fetch d3
  have l4 := low _ .actionPoll d4
  have l5 := low _ .sensorPoll d5
  have one : ∀ k m, s.Due k m .safe → ∀ j n, s.Due j n .safe → k ≤ j := by
    intro k m hk j n hj
    have : some k = some j := hk.1.symm.trans hj.1
    cases this; exact le_refl _
  have mk : ∀ (d : BusCommand) (k : ElementId), (∃ l, s.FirstDue k l d) ↔
      (∃ m, s.loadedAt k = some m ∧ s.Due k m d) ∧
      (∀ j m b, s.loadedAt j = some m → s.Due j m b → d.rank ≤ b.rank) ∧
      (d ≠ .probe → ∀ j m, s.loadedAt j = some m → s.Due j m d → k ≤ j) ∧
      (d = .probe → ∀ j m, s.loadedAt j = some m → s.Due j m d →
        k - (s.bus.lastProbed + 1) ≤ j - (s.bus.lastProbed + 1)) := by
    intro d k
    constructor
    · rintro ⟨l, h⟩; exact ⟨⟨l, h.loaded, h.due⟩, h.rank, h.lowest, h.afterLast⟩
    · rintro ⟨⟨l, h1, h2⟩, h3, h4, h5⟩; exact ⟨l, h1, h2, h3, h4, h5⟩
  -- the outcome of one level
  have lvl : ∀ (d : BusCommand) (k : ElementId), d ≠ .probe → (∃ m, s.loadedAt k = some m ∧ s.Due k m d) →
      (∀ j m, s.loadedAt j = some m → s.Due j m d → k ≤ j) →
      (∀ j m b, s.loadedAt j = some m → s.Due j m b → d.rank ≤ b.rank) →
      (some (k, d) = some (e, c) ↔ ∃ l, s.FirstDue e l c) := by
    intro d k hd h1 h2 h3
    constructor
    · intro h; cases h
      exact (mk _ _).mpr ⟨h1, h3, fun _ => h2, fun h => absurd h hd⟩
    · rintro ⟨l, h⟩
      obtain ⟨m, h4, h5⟩ := h1
      have r1 := h.rank k m d h4 h5
      have r2 := h3 e l c h.loaded h.due
      have : c = d := by
        have : c.rank = d.rank := by omega
        revert this; cases c <;> cases d <;> simp [BusCommand.rank]
      subst this
      have a := h.lowest hd k m h4 h5
      have b := h2 e l h.loaded h.due
      rw [le_antisymm a b]
  unfold State.firstDue
  cases e1 : s.dueSafe with
  | some k =>
    obtain ⟨m, hm, hd⟩ := (hs k).mp e1
    exact lvl .safe k (by decide) ⟨m, hm, hd⟩ (fun j n _ hj => one _ _ hd _ _ hj) 
      fun _ _ b _ _ => by cases b <;> simp [BusCommand.rank]
  | none =>
    have n1 := hs0.mp e1
    dsimp only
    cases e2 : s.lowest s.dueActuate with
    | some k =>
      obtain ⟨h1, h2⟩ := (l2.1 k).mp e2
      refine lvl .actuate k (by decide) h1 h2 fun j m b hj hb => ?_
      cases b <;> simp [BusCommand.rank]
      exact n1 j m hj hb
    | none =>
      have n2 := l2.2.mp e2
      dsimp only
      cases e3 : s.lowest fun _ l => l.isPresent && l.fetchMark with
      | some k =>
        obtain ⟨h1, h2⟩ := (l3.1 k).mp e3
        refine lvl .fetch k (by decide) h1 h2 fun j m b hj hb => ?_
        cases b <;> simp [BusCommand.rank]
        · exact n2 j m hj hb
        · exact n1 j m hj hb
      | none =>
        have n3 := l3.2.mp e3
        dsimp only
        cases e4 : s.lowest fun _ l => l.isPresent && countdownDue l.actionPoll with
        | some k =>
          obtain ⟨h1, h2⟩ := (l4.1 k).mp e4
          refine lvl .actionPoll k (by decide) h1 h2 fun j m b hj hb => ?_
          cases b <;> simp [BusCommand.rank]
          · exact n2 j m hj hb
          · exact n3 j m hj hb
          · exact n1 j m hj hb
        | none =>
          have n4 := l4.2.mp e4
          dsimp only
          cases e5 : s.lowest fun _ l => l.isPresent && countdownDue l.sensor with
          | some k =>
            obtain ⟨h1, h2⟩ := (l5.1 k).mp e5
            refine lvl .sensorPoll k (by decide) h1 h2 fun j m b hj hb => ?_
            cases b <;> simp [BusCommand.rank]
            · exact n2 j m hj hb
            · exact n4 j m hj hb
            · exact n3 j m hj hb
            · exact n1 j m hj hb
          | none =>
            have n5 := l5.2.mp e5
            dsimp only
            have only : ∀ j m b, s.loadedAt j = some m → s.Due j m b → b = .probe := by
              intro j m b hj hb
              cases b
              · rfl
              · exact absurd hb (n2 j m hj)
              · exact absurd hb (n4 j m hj)
              · exact absurd hb (n5 j m hj)
              · exact absurd hb (n3 j m hj)
              · exact absurd hb (n1 j m hj)
            by_cases hp : s.bus.probeTurn = true
            · rw [if_pos hp, Option.map_eq_some_iff]
              constructor
              · rintro ⟨k, hk, h⟩
                cases h
                obtain ⟨⟨l, h1, h2⟩, h3⟩ := State.probeCandidate_eq_some.mp hk
                rw [mk]
                exact ⟨⟨l, h1, hp, l.missing_iff.mp h2⟩, fun j m b hj hb => by rw [only j m b hj hb],
                  fun h => absurd rfl h, fun _ j m hj hd => h3 j m hj (m.missing_iff.mpr hd.2)⟩
              · rintro ⟨l, h⟩
                have := only _ _ _ h.loaded h.due
                subst this
                exact ⟨e, State.probeCandidate_eq_some.mpr ⟨⟨l, h.loaded, l.missing_iff.mpr h.due.2⟩,
                  fun j m hj hm => h.afterLast rfl j m hj ⟨hp, m.missing_iff.mp hm⟩⟩, rfl⟩
            · rw [if_neg hp]
              constructor
              · intro h; cases h
              · rintro ⟨l, h⟩
                have := only _ _ _ h.loaded h.due
                subst this
                exact absurd h.due.1 hp

/-! ### The bus arbiter (R128, R138) -/

@[simp] theorem State.clearIdleTurn_loadedAt (s : State) (e : ElementId) : s.clearIdleTurn.loadedAt e = s.loadedAt e := by
  unfold State.clearIdleTurn; split <;> rfl

/-- What the clearing of an idle probe turn does to the bus (R138). -/
theorem State.clearIdleTurn_bus (s : State) :
    s.clearIdleTurn.bus = { s.bus with probeTurn := s.bus.probeTurn && s.probeCandidate.isSome } := by
  unfold State.clearIdleTurn
  split
  · next h => simp [h]
  · next h =>
    obtain ⟨k, hk⟩ := Option.ne_none_iff_exists'.mp h
    simp [hk]

/-- The clearing of an idle probe turn changes nothing that is due (R138). -/
theorem State.clearIdleTurn_due (s : State) (e : ElementId) (l : Loaded) (hl : s.loadedAt e = some l) (c : BusCommand) :
    s.clearIdleTurn.Due e l c ↔ s.Due e l c := by
  unfold State.Due
  rw [s.clearIdleTurn_bus]
  cases c <;> try exact Iff.rfl
  show (s.bus.probeTurn && s.probeCandidate.isSome) = true ∧ _ ↔ _
  constructor
  · rintro ⟨h1, h2⟩; simp only [Bool.and_eq_true] at h1; exact ⟨h1.1, h2⟩
  · rintro ⟨h1, h2⟩
    refine ⟨?_, h2⟩
    rw [h1, Bool.true_and]
    cases hc : s.probeCandidate with
    | some _ => rfl
    | none => exact absurd (l.missing_iff.mpr h2) (by rw [State.probeCandidate_eq_none.mp hc e l hl]; decide)

/-- Nor does it change which is the first due (R128). -/
theorem State.clearIdleTurn_firstDue {s : State} {e : ElementId} {l : Loaded} {c : BusCommand} :
    s.clearIdleTurn.FirstDue e l c ↔ s.FirstDue e l c := by
  have hb : s.clearIdleTurn.bus.lastProbed = s.bus.lastProbed := by rw [s.clearIdleTurn_bus]
  have hl := s.clearIdleTurn_loadedAt
  have hd := s.clearIdleTurn_due
  constructor
  · rintro ⟨h1, h2, h3, h4, h5⟩
    simp only [hl, hb] at h1 h3 h4 h5
    exact ⟨h1, (hd e l h1 c).mp h2, fun k m d hk hx => h3 k m d hk ((hd k m hk d).mpr hx),
      fun hc k m hk hx => h4 hc k m hk ((hd k m hk c).mpr hx), fun hc k m hk hx => h5 hc k m hk ((hd k m hk c).mpr hx)⟩
  · rintro ⟨h1, h2, h3, h4, h5⟩
    refine ⟨by rwa [hl], (hd e l h1 c).mpr h2, ?_, ?_, ?_⟩ <;> simp only [hl, hb]
    · exact fun k m d hk hx => h3 k m d hk ((hd k m hk d).mp hx)
    · exact fun hc k m hk hx => h4 hc k m hk ((hd k m hk c).mp hx)
    · exact fun hc k m hk hx => h5 hc k m hk ((hd k m hk c).mp hx)

/-- On a RUNNING bus with the pair idle the first due transaction starts (R128). -/
theorem State.settle_first {s : State} {e : ElementId} {l : Loaded} {c : BusCommand} (hr : s.bus.state = .running)
    (hi : s.bus.activity = .idle) (h : s.FirstDue e l c) : s.settle = s.clearIdleTurn.startTransaction e c := by
  have hf : s.clearIdleTurn.firstDue = some (e, c) := State.firstDue_eq_some.mpr ⟨l, State.clearIdleTurn_firstDue.mpr h⟩
  unfold State.settle State.arbitrate
  rw [if_pos (by rw [s.clearIdleTurn_bus]; exact ⟨hr, hi⟩), hf]

/-- With nothing due, or without a RUNNING bus and an idle pair, nothing starts (R128). -/
theorem State.settle_nothing {s : State}
    (h : s.bus.state ≠ .running ∨ s.bus.activity ≠ .idle ∨ ∀ e l c, ¬ s.FirstDue e l c) :
    s.settle = s.clearIdleTurn := by
  unfold State.settle State.arbitrate
  by_cases hc : s.clearIdleTurn.bus.state = .running ∧ s.clearIdleTurn.bus.activity = .idle
  · rw [if_pos hc]
    rw [s.clearIdleTurn_bus] at hc
    have hn : s.clearIdleTurn.firstDue = none := by
      rcases h with h | h | h
      · exact absurd hc.1 h
      · exact absurd hc.2 h
      · cases hf : s.clearIdleTurn.firstDue with
        | none => rfl
        | some p =>
          obtain ⟨l, hl⟩ := State.firstDue_eq_some.mp (show _ = some (p.1, p.2) from hf)
          exact absurd (State.clearIdleTurn_firstDue.mp hl) (h _ _ _)
    rw [hn]
  · rw [if_neg hc]

/-- What the bus arbiter does to an element whose entry is loaded: nothing, or its transaction was the first due and has
started (R128). -/
theorem State.settle_get_due {s : State} {e : ElementId} {l : Loaded} (h : s.loadedAt e = some l) :
    s.settle.loadedAt e = some l ∨ ∃ c, s.FirstDue e l c ∧ s.settle.loadedAt e = some (l.started c) ∧
      ∃ t, s.settle.bus.activity = .flight t ∧ t.element = e ∧ t.command = c := by
  by_cases hr : s.bus.state = .running ∧ s.bus.activity = .idle ∧ ∃ k m c, s.FirstDue k m c
  · obtain ⟨h1, h2, k, m, c, hf⟩ := hr
    rw [State.settle_first h1 h2 hf]
    unfold State.startTransaction
    rw [s.clearIdleTurn_loadedAt, hf.loaded]
    by_cases hk : e = k
    · subst hk
      have := hf.loaded.symm.trans h; cases this
      exact .inr ⟨c, hf, by simp [h], _, rfl, rfl, rfl⟩
    · left; simp [hk, h]
  · left
    rw [State.settle_nothing (by
      by_contra hn
      push Not at hn
      exact hr ⟨hn.1, hn.2.1, hn.2.2⟩), s.clearIdleTurn_loadedAt, h]

end Sys2Proof.Machine
end

