-- ==== Sys2Proof/Laws/Frames.lean ====
section
/-! SUPPORT. Characters on the arena link and on the element bus, a robot's frame at the head of the receive store, and what a CLAIM or a RELEASE
that reaches the Element Arbiter does. -/

namespace Sys2Proof.Machine

open Sys2Proof

/-! ### Characters (R2) -/

/-- A character sampled from the ten levels that a byte is sent as is that byte with its stop bit (R2). -/
@[simp] theorem linkCharacter_linkLevels (b : Byte) : linkCharacter (linkLevels b) = some (b, true) := by
  revert b; decide +kernel

/-- Ten levels with a low start bit and a high stop bit are those of some byte (R2). -/
theorem linkLevels_surjective (bits : BitVec 10) (h0 : bits.getLsbD 0 = false) (h9 : bits.getLsbD 9 = true) :
    bits = linkLevels (bits.extractLsb' 1 8) := by
  revert bits; decide +kernel

/-- Eleven levels of which the first is low are read as the character that the other ten spell (R2, R119). -/
@[simp] theorem busCharacter_append (stop mark : Bool) (data : Byte) :
    busCharacter (BitVec.ofBool stop ++ BitVec.ofBool mark ++ data ++ 0#1) = some { data, mark, stop } := by
  revert stop mark data; decide +kernel

/-- A character sampled from the eleven levels that it is sent as is that character with its stop bit (R119). -/
@[simp] theorem busCharacter_busLevels (b : Byte) (mark : Bool) :
    busCharacter (busLevels b mark) = some { data := b, mark, stop := true } :=
  busCharacter_append true mark b

/-- A listening receiver hears every edge that finds it with its wait over, or the pair rested (R2, R119). -/
theorem Transaction.hears_eq (t : Transaction) (edge : BusEdge) (h : t.breakHold = true → edge.rested = true) :
    t.hears edge = busCharacter edge.bits := by
  have : t.deaf edge.rested = false := by
    unfold Transaction.deaf
    cases hb : t.breakHold
    · rfl
    · rw [h hb]; rfl
  unfold Transaction.hears
  rw [this]; rfl

/-- ANSWER_CHARACTER at a listening part is the edge's reading and nothing else (R123). -/
theorem execAnswerCharacter_listening {s : State} {t : Transaction} {chars : List BusChar} (ev : AnswerEvent)
    (hf : s.bus.activity = .flight t) (hl : t.stage.listening = some chars) :
    execAnswerCharacter ev s = .next (s.answerEdge t chars ev) := by
  unfold execAnswerCharacter
  rw [hf]
  dsimp only
  rw [hl]

/-- The row of a command ends its transaction where ANSWER_CHARACTER with the same edge does (R123). -/
theorem State.completeAnswer_eq {s : State} {k : BusCommand} {edge : BusEdge} {t : Transaction} {chars : List BusChar}
    {c : BusChar} (hf : s.bus.activity = .flight t) (hs : t.stage = .answer chars) (hk : t.command = k)
    (hc : t.hears edge = some c) (hd : answerComplete (chars ++ [c]) = true) :
    s.completeAnswer k edge = s.answerReceived t chars c := by
  have : s.completesAnswer k edge = some (t, chars, c) := by
    unfold State.completesAnswer
    rw [hf]
    dsimp only
    rw [hs, hc]
    dsimp only
    rw [if_pos ⟨hk, hd⟩]
  unfold State.completeAnswer
  rw [this]

/-! ### A robot's frame (R31) -/

section
variable (s : State) (rest : List Frame) (i : SlotId) (radio : Radio)

/-- Taking a robot's frame and refreshing its slot is `takenFromRobot` (R31). -/
theorem State.taken_refresh : (s.taken rest).refresh i radio = s.takenFromRobot rest i radio := by
  unfold State.refresh State.takenFromRobot State.taken
  by_cases h : (s.slots.at i).silent = true
  · simp [h, State.queueNotice, State.updMgmt, State.updSlot, Slot.refreshed]; rfl
  · simp [h, State.updSlot, Slot.refreshed]

@[simp] theorem State.takenFromRobot_link : (s.takenFromRobot rest i radio).link = { s.link with store := rest } := rfl

@[simp] theorem State.takenFromRobot_slots :
    (s.takenFromRobot rest i radio).slots = s.slots.put i ((s.slots.at i).refreshed radio) := rfl

@[simp] theorem State.takenFromRobot_loadedAt (e : ElementId) :
    (s.takenFromRobot rest i radio).loadedAt e = s.loadedAt e := by
  unfold State.takenFromRobot; dsimp only; split <;> rfl

@[simp] theorem State.takenFromRobot_fields : (s.takenFromRobot rest i radio).fields = s.fields := by
  unfold State.takenFromRobot; dsimp only; split <;> rfl

@[simp] theorem State.takenFromRobot_stations : (s.takenFromRobot rest i radio).stations = s.stations := by
  unfold State.takenFromRobot; dsimp only; split <;> rfl

@[simp] theorem State.takenFromRobot_gate : (s.takenFromRobot rest i radio).gate = s.gate := by
  unfold State.takenFromRobot; dsimp only; split <;> rfl

/-- A refresh leaves everything of a slot but its radio, its age and its silent mark (R31). -/
theorem State.takenFromRobot_slot (j : SlotId) : ∃ r age silent,
    (s.takenFromRobot rest i radio).slots.at j = { s.slots.at j with radio := r, age, silent } := by
  rw [State.takenFromRobot_slots, Table.at_put]
  split
  · next h => subst h; exact ⟨radio, 0, false, rfl⟩
  · exact ⟨_, _, _, rfl⟩

@[simp] theorem State.takenFromRobot_outstanding (j : SlotId) :
    ((s.takenFromRobot rest i radio).slots.at j).outstanding = (s.slots.at j).outstanding := by
  obtain ⟨_, _, _, h⟩ := s.takenFromRobot_slot rest i radio j; rw [h]

@[simp] theorem State.takenFromRobot_effectiveGate (j : SlotId) :
    (s.takenFromRobot rest i radio).effectiveGate j = s.effectiveGate j := by
  obtain ⟨_, _, _, h⟩ := s.takenFromRobot_slot rest i radio j
  unfold State.effectiveGate; rw [h, s.takenFromRobot_fields]

@[simp] theorem State.takenFromRobot_gateOpen (j : SlotId) :
    (s.takenFromRobot rest i radio).gateOpen j = s.gateOpen j := by
  unfold State.gateOpen; rw [s.takenFromRobot_effectiveGate]

@[simp] theorem State.takenFromRobot_slotField (j : SlotId) :
    (s.takenFromRobot rest i radio).slotField j = s.slotField j := by
  obtain ⟨_, _, _, h⟩ := s.takenFromRobot_slot rest i radio j
  unfold State.slotField; rw [h]

@[simp] theorem State.takenFromRobot_slotAlliance (j : SlotId) :
    (s.takenFromRobot rest i radio).slotAlliance j = s.slotAlliance j := by
  obtain ⟨_, _, _, h⟩ := s.takenFromRobot_slot rest i radio j
  unfold State.slotAlliance; rw [h]

/-- The slot that was heard is not silent (R31). -/
@[simp] theorem State.takenFromRobot_silent : ((s.takenFromRobot rest i radio).slots.at i).silent = false := by
  simp [Slot.refreshed]

/-- A refresh does not change whether the frame is dropped (R31 to R33). -/
@[simp] theorem State.takenFromRobot_robotDrop (f : Frame) :
    (s.takenFromRobot rest i radio).robotDrop i f = s.robotDrop i f := by
  obtain ⟨_, _, _, h⟩ := s.takenFromRobot_slot rest i radio i
  unfold State.robotDrop State.tellAllowed State.forPart
  rw [h, s.takenFromRobot_stations]; rfl

end

variable {s : State} {f : Frame} {rest : List Frame} {i : SlotId} {radio : Radio} {b : Byte}

/-- A CLAIM that reaches the Element Arbiter is handed to it whole, and then the bus arbiter chooses (R31, R32, R89). -/
theorem ClaimFrame.exec_eq {r : Request} (h : ClaimFrame s f rest i radio b r) :
    exec .claim s = .next (((s.takenFromRobot rest i radio).takeClaim i b r).settle) := by
  obtain ⟨more, hp⟩ := h.payload
  have hk : frameKindOf f.kind = some .claim := by simp [h.kind, frameKindOf]
  have hd : s.robotDrop i f = none := by
    have : s.forPart f.dst = true := by rcases h.forPart with d | d <;> simp [State.forPart, d, Config.broadcast]
    simp [State.robotDrop, h.notBypassed, hk, this, hp, minimumLength]
  simp only [exec, execClaim, h.headFrame, hk, State.takeRobot, State.popStore_eq h.store, State.taken_refresh,
    State.takenFromRobot_robotDrop, hd]
  simp [State.claimPayload, hp]

/-- A RELEASE that reaches the Element Arbiter is handed to it, and then the bus arbiter chooses (R31, R32, R97). -/
theorem ReleaseFrame.exec_eq (h : ReleaseFrame s f rest i radio b) :
    exec .release s = .next (((s.takenFromRobot rest i radio).takeRelease i b).settle) := by
  obtain ⟨more, hp⟩ := h.payload
  have hk : frameKindOf f.kind = some .release := by simp [h.kind, frameKindOf]
  have hd : s.robotDrop i f = none := by
    have : s.forPart f.dst = true := by rcases h.forPart with d | d <;> simp [State.forPart, d, Config.broadcast]
    simp [State.robotDrop, h.notBypassed, hk, this, hp, minimumLength]
  simp only [exec, execRelease, h.headFrame, hk, State.takeRobot, State.popStore_eq h.store, State.taken_refresh,
    State.takenFromRobot_robotDrop, hd]
  simp [State.releasePayload, hp]

/-! ### Grant selection (R101, R102) -/

/-- The eligibility test of the model is `MayHold` (R101). -/
theorem State.eligible_iff (s : State) (l : Loaded) (c : Claim) : s.eligible l c = true ↔ s.MayHold l.entry c := by
  unfold State.eligible State.MayHold; simp [and_assoc]

/-- The first element of a list that passes a test, with none before it that does. -/
theorem find_split {α : Type} {p : α → Bool} {a b : List α} {d : α} (ha : ∀ c ∈ a, p c = false) (hd : p d = true) :
    (a ++ d :: b).find? p = some d := by
  rw [List.find?_append, List.find?_eq_none.mpr (by simpa using ha)]; simp [hd]

/-- Grant selection takes the claim that `Picks` names (R101, R102). -/
theorem State.pickClaim_of_picks {l : Loaded} {a c : List Claim} {d : Claim} (hq : l.claims = a ++ d :: c)
    (h : s.Picks l.entry l.lastAlliance a d c) : s.pickClaim l = some d := by
  obtain ⟨hd, h⟩ := h
  have E := s.eligible_iff l
  have oldest : (∀ c ∈ a, ¬ s.MayHold l.entry c) → l.claims.find? (s.eligible l) = some d := fun ha => by
    rw [hq]; exact find_split (fun c hc => by rw [Bool.eq_false_iff]; exact fun hx => ha c hc ((E c).mp hx)) ((E d).mpr hd)
  unfold State.pickClaim
  dsimp only
  split
  · next x hdis hlast =>
    rcases h with ⟨hp, ha⟩ | ⟨ha, hb⟩
    · have hne : s.slotAlliance d.slot ≠ some x := by
        rcases hp with hp | hp | hp
        · rw [hdis] at hp; cases hp
        · rw [hlast] at hp; cases hp
        · rwa [hlast] at hp
      rw [hq, find_split (p := fun c => s.eligible l c && s.slotAlliance c.slot != some x)
        (fun c hc => by
          rw [Bool.eq_false_iff]; intro hx
          simp only [Bool.and_eq_true, bne_iff_ne] at hx
          exact ha c hc ((E c).mp hx.1) (.inr (.inr (by rw [hlast]; exact hx.2))))
        (by simp [(E d).mpr hd, hne])]
    · have : l.claims.find? (fun c => s.eligible l c && s.slotAlliance c.slot != some x) = none := by
        rw [List.find?_eq_none]
        intro c hc hx
        simp only [Bool.and_eq_true, bne_iff_ne] at hx
        rw [hq, List.mem_append] at hc
        exact hc.elim (fun hc => ha c hc ((E c).mp hx.1))
          fun hc => hb c hc ((E c).mp hx.1) (.inr (.inr (by rw [hlast]; exact hx.2)))
      rw [this]; exact oldest ha
  · next hno =>
    have all : ∀ c, s.Preferred l.entry l.lastAlliance c := fun c => by
      unfold State.Preferred
      cases hdis : l.entry.discipline with
      | fifo => exact .inl rfl
      | alternate =>
        cases hlast : l.lastAlliance with
        | none => exact .inr (.inl rfl)
        | some x => exact absurd hlast (hno x hdis)
    exact oldest (h.elim (fun h c hc hm => h.2 c hc hm (all c)) fun h => h.1)

/-- Without an eligible claim grant selection takes none (R101). -/
theorem State.pickClaim_none {l : Loaded} (h : ∀ d ∈ l.claims, ¬ s.MayHold l.entry d) : s.pickClaim l = none := by
  have h1 : ∀ p : Claim → Bool, l.claims.find? (fun c => s.eligible l c && p c) = none := by
    intro p; rw [List.find?_eq_none]; intro c hc hx
    simp only [Bool.and_eq_true] at hx
    exact h c hc ((s.eligible_iff l c).mp hx.1)
  have h2 : l.claims.find? (s.eligible l) = none := by simpa using h1 fun _ => true
  unfold State.pickClaim
  dsimp only
  split
  · rw [h1, h2]
  · exact h2

end Sys2Proof.Machine
end

