-- ==== Sys2Proof/Laws/Events.lean ====
section
/-! SUPPORT. What gate-off, silent and phase events do to the claims and holds of every element and to the verdict queue
(R104 to R107): they take from slots, grant only to slots that wait, and answer each thing taken. -/

namespace Sys2Proof.Machine

open Sys2Proof

/-! ### Verdicts that are queued -/

/-- Between two states only verdicts that pass `P` join the verdict queue, and none leaves it while it has room (R15). -/
structure Reports (P : Verdict → Prop) (s t : State) : Prop where
  grows : t.link.verdicts.length < 16 → s.link.verdicts <+: t.link.verdicts
  only : ∀ v ∈ t.link.verdicts, v ∈ s.link.verdicts ∨ P v

variable {P : Verdict → Prop} {s t u : State} {e : ElementId} {i : SlotId} {r : Reason}

theorem Reports.refl (s : State) : Reports P s s := ⟨fun _ => List.prefix_rfl, fun _ h => .inl h⟩

theorem Reports.trans (h : Reports P s t) (k : Reports P t u) : Reports P s u where
  grows hu := by
    have := k.grows hu
    exact (h.grows (Nat.lt_of_le_of_lt this.length_le hu)).trans this
  only v hv := (k.only v hv).elim (h.only v) .inr

theorem Reports.mono {Q : Verdict → Prop} (h : Reports P s t) (hq : ∀ v, P v → Q v) : Reports Q s t :=
  ⟨h.grows, fun v hv => (h.only v hv).imp_right (hq v)⟩

theorem Reports.of_eq (h : t.link.verdicts = s.link.verdicts) : Reports P s t :=
  ⟨fun _ => by rw [h], fun v hv => .inl (by rwa [h] at hv)⟩

/-- While the queue has room a verdict joins it at its end (R15). -/
theorem enqueueVerdict_of_room {q : List Verdict} {v : Verdict} (h : (enqueueVerdict q v).length < 16) :
    enqueueVerdict q v = q ++ [v] := by
  by_cases hq : q.length < 16
  · simp [enqueueVerdict, Config.verdictCapacity, hq]
  · exfalso
    by_cases ha : (q.any fun x => x.slot == v.slot) = true
    · obtain ⟨x, hx, hp⟩ := List.any_eq_true.mp ha
      have h1 := List.length_eraseP_of_mem (p := fun x => x.slot == v.slot) hx hp
      rw [enqueueVerdict, Config.verdictCapacity, if_neg hq, if_pos ha, List.length_append, h1, List.length_singleton] at h
      omega
    · rw [enqueueVerdict, Config.verdictCapacity, if_neg hq, if_neg ha] at h
      exact hq h

theorem mem_enqueueVerdict {q : List Verdict} {v x : Verdict} (h : x ∈ enqueueVerdict q v) : x ∈ q ∨ x = v := by
  unfold enqueueVerdict at h
  split at h
  · simpa using h
  · split at h
    · simp only [List.mem_append, List.mem_singleton] at h
      exact h.imp_left List.mem_of_mem_eraseP
    · exact .inl h

theorem Reports.verdictFor (s : State) (i : SlotId) (e : ElementId) (o : Outcome) (tag : Byte)
    (h : P { slot := i, element := elementByte e, outcome := o, tag }) : Reports P s (s.verdictFor i e o tag) where
  grows hl := by
    simp only [State.verdictFor_link] at *
    rw [enqueueVerdict_of_room hl]; exact List.prefix_append _ _
  only v hv := by
    simp only [State.verdictFor_link] at hv
    exact (mem_enqueueVerdict hv).imp_right fun k => by rw [k]; exact h

/-- A verdict stands in the verdict queue, unless the queue is full (R15). -/
def Said (t : State) (v : Verdict) : Prop := t.link.verdicts.length < 16 → v ∈ t.link.verdicts

theorem Said.verdictFor (s : State) (i : SlotId) (e : ElementId) (o : Outcome) (tag : Byte) :
    Said (s.verdictFor i e o tag) { slot := i, element := elementByte e, outcome := o, tag } := fun hl => by
  simp only [State.verdictFor_link] at *
  rw [enqueueVerdict_of_room hl]; simp

theorem Said.later {v : Verdict} (h : Said s v) (k : Reports P s t) : Said t v := fun hl =>
  (k.grows hl).subset (h (Nat.lt_of_le_of_lt (k.grows hl).length_le hl))

/-! ### Claims and holds that are taken -/

/-- From `l` to `m` claims are only taken away, a new holder is one that waited or held before, and an actuation that is sent
or past WAITING-BUS goes on (R99, R101, R104). -/
structure Loaded.Shrinks (l m : Loaded) : Prop where
  entry : m.entry = l.entry
  claims : m.claims.Sublist l.claims
  hold : ∀ h, m.hold = some h → (∃ x, l.hold = some x ∧ x.slot = h.slot) ∨ ∃ c ∈ l.claims, c.slot = h.slot
  act : ∀ a, l.act = some a → a.state ≠ .waitingBus ∨ a.sent = true → m.act = some a

theorem Loaded.Shrinks.refl (l : Loaded) : l.Shrinks l := ⟨rfl, .refl _, fun h hh => .inl ⟨h, hh, rfl⟩, fun _ h _ => h⟩

theorem Loaded.Shrinks.trans {l m n : Loaded} (h : l.Shrinks m) (k : m.Shrinks n) : l.Shrinks n where
  entry := k.entry.trans h.entry
  claims := k.claims.trans h.claims
  hold x hx := by
    rcases k.hold x hx with ⟨y, hy, e⟩ | ⟨c, hc, e⟩
    · rcases h.hold y hy with ⟨z, hz, e'⟩ | ⟨c, hc, e'⟩
      · exact .inl ⟨z, hz, e'.trans e⟩
      · exact .inr ⟨c, hc, e'.trans e⟩
    · exact .inr ⟨c, h.claims.subset hc, e⟩
  act a ha hg := k.act a (h.act a ha hg) hg

theorem Loaded.Shrinks.freeOf {l m : Loaded} (h : l.Shrinks m) {i : SlotId} (hi : l.freeOf i) : m.freeOf i where
  left c hc := hi.1 c (h.claims.subset hc)
  right x hx := by
    rcases h.hold x hx with ⟨y, hy, e⟩ | ⟨c, hc, e⟩
    · rw [← e]; exact hi.2 y hy
    · rw [← e]; exact hi.1 c hc

theorem Loaded.Shrinks.nodup {l m : Loaded} (h : l.Shrinks m) (k : (l.claims.map (·.slot)).Nodup) :
    (m.claims.map (·.slot)).Nodup := k.sublist (h.claims.map _)

/-- What a procedure of the Element Arbiter on element `e` does that takes claims and holds away: its frame, the element's
claims and hold, and the verdicts that pass `P`. -/
structure TakesOn (P : Verdict → Prop) (e : ElementId) (s t : State) : Prop where
  keeps : ArbiterKeeps s t
  others : ∀ k, k ≠ e → t.loadedAt k = s.loadedAt k
  shrinks : ∀ l, s.loadedAt e = some l → ∃ m, t.loadedAt e = some m ∧ l.Shrinks m
  reports : Reports P s t

theorem TakesOn.refl (s : State) : TakesOn P e s s :=
  ⟨.refl s, fun _ _ => rfl, fun l h => ⟨l, h, .refl l⟩, .refl s⟩

theorem TakesOn.trans (h : TakesOn P e s t) (k : TakesOn P e t u) : TakesOn P e s u where
  keeps := h.keeps.trans k.keeps
  others x hx := (k.others x hx).trans (h.others x hx)
  shrinks l hl := by
    obtain ⟨m, hm, a⟩ := h.shrinks l hl
    obtain ⟨n, hn, b⟩ := k.shrinks m hm
    exact ⟨n, hn, a.trans b⟩
  reports := h.reports.trans k.reports

theorem TakesOn.verdictFor (s : State) (i : SlotId) (e k : ElementId) (o : Outcome) (tag : Byte)
    (h : P { slot := i, element := elementByte k, outcome := o, tag }) : TakesOn P e s (s.verdictFor i k o tag) :=
  ⟨.verdictFor s i k o tag, fun _ _ => rfl, fun l hl => ⟨l, hl, .refl l⟩, .verdictFor s i k o tag h⟩

theorem TakesOn.lessOutstanding (s : State) (i : SlotId) (e : ElementId) : TakesOn P e s (s.lessOutstanding i) :=
  ⟨.lessOutstanding s i, fun _ _ => rfl, fun l hl => ⟨l, hl, .refl l⟩, .of_eq rfl⟩

theorem TakesOn.updLoaded (s : State) (e : ElementId) (g : Loaded → Loaded) (hb : ∀ l, (g l).busSide = l.busSide)
    (h : ∀ l, s.loadedAt e = some l → l.Shrinks (g l)) : TakesOn P e s (s.updLoaded e g) :=
  ⟨.updLoaded s e g hb, fun k hk => by simp [hk], fun l hl => ⟨g l, by simp [hl], h l hl⟩, .of_eq rfl⟩

theorem State.pickClaim_mem {l : Loaded} {c : Claim} (h : s.pickClaim l = some c) : c ∈ l.claims := by
  unfold State.pickClaim at h
  dsimp only at h
  split at h
  · split at h
    · next k => cases h; exact List.mem_of_find?_eq_some k
    · exact List.mem_of_find?_eq_some h
  · exact List.mem_of_find?_eq_some h

/-- The frame of the Element Arbiter leaves what decides whether a claim may be granted (R101). -/
theorem ArbiterKeeps.gateOpen (h : ArbiterKeeps s t) (i : SlotId) : t.gateOpen i = s.gateOpen i := by
  unfold State.gateOpen State.effectiveGate; rw [h.slots i, h.fields]

theorem ArbiterKeeps.slotField (h : ArbiterKeeps s t) (i : SlotId) : t.slotField i = s.slotField i := by
  unfold State.slotField; rw [h.slots i]

theorem ArbiterKeeps.silent (h : ArbiterKeeps s t) (i : SlotId) : (t.slots.at i).silent = (s.slots.at i).silent := by
  rw [h.slots i]

theorem ArbiterKeeps.mayHold (h : ArbiterKeeps s t) (x : ElementEntry) (c : Claim) : t.MayHold x c ↔ s.MayHold x c := by
  unfold State.MayHold; rw [h.gateOpen, h.silent, h.fields]

theorem State.pickClaim_mayHold {l : Loaded} {c : Claim} (h : s.pickClaim l = some c) : s.MayHold l.entry c := by
  rw [← s.eligible_iff]
  unfold State.pickClaim at h
  dsimp only at h
  split at h
  · split at h
    · next k => cases h; have := List.find?_some k; simp only [Bool.and_eq_true] at this; exact this.1
    · exact List.find?_some (p := s.eligible l) h
  · exact List.find?_some (p := s.eligible l) h

/-- Grant selection does nothing, or grants a claim that waits on an element with neither hold nor actuation (R95, R101). -/
theorem State.grantSelection_cases (s : State) (e : ElementId) :
    s.grantSelection e = s ∨ ∃ l c, s.loadedAt e = some l ∧ (l.hold = none ∧ l.act = none) ∧ c ∈ l.claims ∧ s.MayHold l.entry c ∧
      s.grantSelection e = (s.updLoaded e fun l => { l with claims := l.claims.erase c }).grant e c.slot c.request := by
  unfold State.grantSelection
  split
  · exact .inl rfl
  · next l hl =>
    split
    · next hc =>
      split
      · exact .inl rfl
      · next c hp => exact .inr ⟨l, c, hl, hc.2, s.pickClaim_mem hp, s.pickClaim_mayHold hp, rfl⟩
    · exact .inl rfl

/-- The element that a grant takes: the claim granted leaves the queue, and its slot holds (R95). -/
theorem State.granted_same {l : Loaded} (hl : s.loadedAt e = some l) (c : Claim) :
    ∃ m h, ((s.updLoaded e fun l => { l with claims := l.claims.erase c }).grant e c.slot c.request).loadedAt e = some m ∧
      m.entry = l.entry ∧ m.claims = l.claims.erase c ∧ m.hold = some h ∧ h.slot = c.slot := by
  have h1 : (s.updLoaded e fun l => { l with claims := l.claims.erase c }).loadedAt e =
      some { l with claims := l.claims.erase c } := by simp [hl]
  have h2 : ((s.updLoaded e fun l => { l with claims := l.claims.erase c }).grant e c.slot c.request).loadedAt e =
      some { ({ l with claims := l.claims.erase c } : Loaded).withAct c.slot c.request with
        hold := some { slot := c.slot, tag := c.request.tag, remaining := l.entry.holdLimit, next := none } } := by
    unfold State.grant
    rw [State.verdictFor_loadedAt, State.updLoaded_loadedAt_same, h1, Option.map_some]
  exact ⟨_, _, h2, rfl, rfl, rfl, rfl⟩

theorem TakesOn.grantSelection (s : State) (e : ElementId) (hP : ∀ v : Verdict, v.outcome = .granted → P v) :
    TakesOn P e s (s.grantSelection e) := by
  refine ⟨.grantSelection s e, fun k hk => s.grantSelection_others e hk, fun l hl => ?_, ?_⟩
  · rcases s.grantSelection_cases e with h | ⟨l', c, hl', hn, hc, -, h⟩
    · exact ⟨l, by rw [h]; exact hl, .refl l⟩
    · rw [hl] at hl'; cases hl'
      obtain ⟨m, x, hm, m1, m2, m3, m4⟩ := State.granted_same hl c
      refine ⟨m, by rw [h]; exact hm, m1, by rw [m2]; exact List.erase_sublist, fun y hy => .inr ⟨c, hc, ?_⟩,
        fun a ha => by rw [hn.2] at ha; cases ha⟩
      rw [m3] at hy; cases hy; exact m4.symm
  · rcases s.grantSelection_cases e with h | ⟨l, c, -, -, -, -, h⟩
    · rw [h]; exact .refl s
    · rw [h]; unfold State.grant
      refine .trans ?_ (.verdictFor _ _ _ _ _ (hP _ rfl))
      exact .of_eq rfl

/-- Grant selection leaves the claims that may not be granted, and a hold; a new hold is that of a claim that may be granted
(R101). -/
theorem State.grantSelection_stays {l m : Loaded} (hl : s.loadedAt e = some l) (hm : (s.grantSelection e).loadedAt e = some m) :
    (∀ c ∈ l.claims, ¬ s.MayHold l.entry c → c ∈ m.claims) ∧ (∀ h, l.hold = some h → m.hold = some h) ∧
      ∀ h, m.hold = some h → l.hold = some h ∨ ∃ c ∈ l.claims, s.MayHold l.entry c ∧ c.slot = h.slot := by
  rcases s.grantSelection_cases e with h | ⟨l', d, hl', hn, hd, hp, h⟩
  · rw [h, hl] at hm; cases hm; exact ⟨fun _ h _ => h, fun _ h => h, fun _ h => .inl h⟩
  · rw [hl] at hl'; cases hl'
    obtain ⟨m', x, hm', m1, m2, m3, m4⟩ := State.granted_same hl d
    rw [h, hm'] at hm; cases hm
    refine ⟨?_, ?_, ?_⟩
    · intro c hc hx
      rw [m2]; exact (List.mem_erase_of_ne fun he => hx (by rw [he]; exact hp)).mpr hc
    · intro y hy
      rw [hn.1] at hy; cases hy
    · intro y hy
      rw [m3] at hy; cases hy; exact .inr ⟨d, hd, hp, m4.symm⟩

theorem TakesOn.dropNext (s : State) (e : ElementId) (h : Hold) (hP : ∀ v : Verdict, v.outcome = .cancelled → P v) :
    TakesOn P e s (s.dropNext e h) := by
  unfold State.dropNext
  split
  · exact .verdictFor _ _ _ _ _ _ (hP _ rfl)
  · exact .refl s

theorem TakesOn.cancelUnsent (s : State) (e : ElementId) (i : SlotId) (hP : ∀ v : Verdict, v.outcome = .cancelled → P v) :
    TakesOn P e s (s.cancelUnsent e i) := by
  unfold State.cancelUnsent
  split
  · exact .refl s
  · split
    · exact .refl s
    · split
      · refine .trans ?_ (.verdictFor _ _ _ _ _ _ (hP _ rfl))
        refine .updLoaded s e _ (fun _ => rfl) fun l' hl' => ⟨rfl, .refl _, fun h hh => .inl ⟨h, hh, rfl⟩, fun b hb hg => ?_⟩
        simp_all
      · exact .refl s

theorem State.cancelUnsent_same {l : Loaded} (hl : s.loadedAt e = some l) (i : SlotId) :
    ∃ m, (s.cancelUnsent e i).loadedAt e = some m ∧ m.claims = l.claims ∧ m.hold = l.hold ∧ m.entry = l.entry := by
  unfold State.cancelUnsent
  rw [hl]
  dsimp only
  split
  · exact ⟨l, hl, rfl, rfl, rfl⟩
  · split
    · have h : ∀ i o t, ((s.updLoaded e fun l => l.withoutAct s.timing.sensor).verdictFor i e o t).loadedAt e =
          some (l.withoutAct s.timing.sensor) := fun i o t => by simp [hl]
      exact ⟨_, h _ _ _, rfl, rfl, rfl⟩
    · exact ⟨l, hl, rfl, rfl, rfl⟩

/-- The verdicts of a procedure that takes away with a reason. -/
def Taking (r : Reason) (v : Verdict) : Prop :=
  v.outcome = .granted ∨ v.outcome = .cancelled ∨ v.outcome = .released r ∨ v.outcome = .withdrawn r

theorem TakesOn.selectIfFree (s : State) (e : ElementId) : TakesOn (Taking r) e s (s.selectIfFree e) := by
  unfold State.selectIfFree
  split
  · exact .refl s
  · split
    · exact .grantSelection s e fun _ h => .inl h
    · exact .refl s

theorem State.selectIfFree_stays {l m : Loaded} (hl : s.loadedAt e = some l) (hm : (s.selectIfFree e).loadedAt e = some m) :
    (∀ c ∈ l.claims, ¬ s.MayHold l.entry c → c ∈ m.claims) := by
  unfold State.selectIfFree at hm
  rw [hl] at hm
  dsimp only at hm
  split at hm
  · exact (State.grantSelection_stays hl hm).1
  · rw [hl] at hm; cases hm; exact fun _ h _ => h

theorem TakesOn.releaseHold (s : State) (e : ElementId) (h : Hold) (r : Reason) :
    TakesOn (Taking r) e s (s.releaseHold e h r) ∧
      Said (s.releaseHold e h r) { slot := h.slot, element := elementByte e, outcome := .released r, tag := h.tag } ∧
      (s.releaseHold e h r).loadedAt e = (s.loadedAt e).map fun l => l.released h.slot (s.slotAlliance h.slot) := by
  have h2 : TakesOn (Taking r) e ((s.lessOutstanding h.slot).verdictFor h.slot e (.released r) h.tag)
      (((s.lessOutstanding h.slot).verdictFor h.slot e (.released r) h.tag).updLoaded e fun l =>
        l.released h.slot (s.slotAlliance h.slot)) :=
    .updLoaded _ e _ (fun _ => rfl) fun l _ => ⟨rfl, .refl _, fun x hx => (by cases hx), fun _ h _ => h⟩
  have h3 := TakesOn.dropNext (P := Taking r) (((s.lessOutstanding h.slot).verdictFor h.slot e (.released r) h.tag).updLoaded e
    fun l => l.released h.slot (s.slotAlliance h.slot)) e h fun _ k => .inr (.inl k)
  refine ⟨.trans (.trans (.trans (.lessOutstanding s h.slot e) (.verdictFor _ _ _ _ _ _ (.inr (.inr (.inl rfl))))) h2) h3,
    ((Said.verdictFor _ _ _ _ _).later h2.reports).later h3.reports, by simp [State.releaseHold]⟩

/-- The end of a hold: the holder is told RELEASED; of the slot that held nothing is left on the element when it has no
claim on it; and the claims that may not be granted stay (R99). -/
theorem TakesOn.endHold (s : State) (e : ElementId) (r : Reason) : TakesOn (Taking r) e s (s.endHold e r) ∧
    (∀ l, s.loadedAt e = some l → l.hold = none → s.endHold e r = s) ∧
    ∀ l h m, s.loadedAt e = some l → l.hold = some h → (s.endHold e r).loadedAt e = some m →
      Said (s.endHold e r) { slot := h.slot, element := elementByte e, outcome := .released r, tag := h.tag } ∧
      ((∀ c ∈ l.claims, c.slot ≠ h.slot) → m.freeOf h.slot) ∧
      (∀ c ∈ l.claims, ¬ s.MayHold l.entry c → c ∈ m.claims) := by
  have main : ∀ l h, s.loadedAt e = some l → l.hold = some h →
      s.endHold e r = ((s.releaseHold e h r).cancelUnsent e h.slot).selectIfFree e := fun l h hl hh => by
    unfold State.endHold; rw [hl]; simp [hh]
  refine ⟨?_, fun l hl hh => by unfold State.endHold; rw [hl]; simp [hh], fun l h m hl hh hm => ?_⟩
  · unfold State.endHold
    split
    · exact .refl s
    · next h _ =>
      exact .trans (.trans (TakesOn.releaseHold s e h r).1 (.cancelUnsent _ _ _ fun _ k => .inr (.inl k))) (.selectIfFree _ _)
  · rw [main l h hl hh] at hm ⊢
    obtain ⟨k1, k2, k3⟩ := TakesOn.releaseHold s e h r
    have k4 := TakesOn.cancelUnsent (P := Taking r) (s.releaseHold e h r) e h.slot fun _ k => .inr (.inl k)
    have k5 := TakesOn.selectIfFree (r := r) ((s.releaseHold e h r).cancelUnsent e h.slot) e
    rw [hl, Option.map_some] at k3
    obtain ⟨x, hx, x1, x2, x3⟩ := State.cancelUnsent_same k3 h.slot
    obtain ⟨m', hm', sh⟩ := k5.shrinks x hx
    rw [hm] at hm'; cases hm'
    refine ⟨(k2.later k4.reports).later k5.reports, fun hc => sh.freeOf ⟨?_, ?_⟩, fun c hc hn => ?_⟩
    · rw [x1]; exact hc
    · rw [x2]; intro y hy; cases hy
    · refine State.selectIfFree_stays hx hm c (by rw [x1]; exact hc) ?_
      rw [x3, k4.keeps.mayHold, k1.keeps.mayHold]; exact hn

/-! ### Withdrawals (R104) -/

/-- A withdrawal: the claim leaves the queue and its slot is told; grant selection may then grant a claim that waits, and
leaves those that may not be granted (R104). -/
theorem TakesOn.withdraw (s : State) (e : ElementId) (c : Claim) (r : Reason) :
    TakesOn (Taking r) e s (s.withdraw e c r) ∧
    Said (s.withdraw e c r) { slot := c.slot, element := elementByte e, outcome := .withdrawn r, tag := c.request.tag } ∧
    ∀ l m, s.loadedAt e = some l → (s.withdraw e c r).loadedAt e = some m →
      m.claims.Sublist (l.claims.erase c) ∧ (∀ h, l.hold = some h → m.hold = some h) ∧
      (∀ h, m.hold = some h → l.hold = some h ∨ ∃ d ∈ l.claims.erase c, s.MayHold l.entry d ∧ d.slot = h.slot) ∧
      (∀ d ∈ l.claims.erase c, ¬ s.MayHold l.entry d → d ∈ m.claims) := by
  have h1 : TakesOn (Taking r) e s (s.updLoaded e fun l => { l with claims := l.claims.erase c }) :=
    .updLoaded s e _ (fun _ => rfl) fun l _ => ⟨rfl, List.erase_sublist, fun h hh => .inl ⟨h, hh, rfl⟩, fun _ h _ => h⟩
  have h2 := h1.trans (.lessOutstanding _ c.slot e)
  have h3 := h2.trans (.verdictFor _ c.slot e e (.withdrawn r) c.request.tag (.inr (.inr (.inr rfl))))
  have h4 := TakesOn.grantSelection (P := Taking r) (((s.updLoaded e fun l =>
    { l with claims := l.claims.erase c }).lessOutstanding c.slot).verdictFor c.slot e (.withdrawn r) c.request.tag) e
    fun _ h => .inl h
  refine ⟨h3.trans h4, (Said.verdictFor _ _ _ _ _).later h4.reports, fun l m hl hm => ?_⟩
  have hx : (((s.updLoaded e fun l => { l with claims := l.claims.erase c }).lessOutstanding c.slot).verdictFor c.slot e
      (.withdrawn r) c.request.tag).loadedAt e = some { l with claims := l.claims.erase c } := by simp [hl]
  have hm' : (State.grantSelection _ e).loadedAt e = some m := hm
  obtain ⟨n, hn, sh⟩ := h4.shrinks _ hx
  rw [hm'] at hn; cases hn
  obtain ⟨k1, k2, k3⟩ := State.grantSelection_stays hx hm'
  simp only [h3.keeps.mayHold] at k1 k3
  exact ⟨sh.claims, k2, k3, k1⟩

/-! ### One slot on one element (R105, R106) -/

/-- The claim that a slot has queued, where no queue holds two claims of one slot (R91). -/
theorem Loaded.claimOf_eq {l : Loaded} {c : Claim} (hn : (l.claims.map (·.slot)).Nodup) (hc : c ∈ l.claims) :
    l.claimOf c.slot = some c := by
  unfold Loaded.claimOf
  cases hf : l.claims.find? fun d => d.slot == c.slot with
  | none => exact absurd (List.find?_eq_none.mp hf c hc) (by simp)
  | some d =>
    have hd := List.mem_of_find?_eq_some hf
    have hs : d.slot = c.slot := by simpa using List.find?_some hf
    exact congrArg some (List.inj_on_of_nodup_map hn hd hc hs)

/-- Where a slot has neither claim nor hold, nothing is taken from it (R105). -/
theorem State.takeAway_free (s : State) (i : SlotId) (r : Reason) (e : ElementId)
    (h : ∀ l, s.loadedAt e = some l → l.freeOf i) : s.takeAway i r e = s := by
  have h1 : s.withdrawClaimOf i r e = s := by
    unfold State.withdrawClaimOf
    split
    · next c hc =>
      cases hl : s.loadedAt e with
      | none => rw [hl] at hc; cases hc
      | some l =>
        rw [hl, Option.bind_some] at hc
        exact absurd (by simpa using List.find?_some hc) ((h l hl).1 c (List.mem_of_find?_eq_some hc))
    · rfl
  unfold State.takeAway
  rw [h1]
  unfold State.endHoldOf
  split
  · next l hl =>
    split
    · next hb =>
      unfold Loaded.heldBy at hb
      split at hb
      · next x hx => exact absurd (by simpa using hb) ((h l hl).2 x hx)
      · cases hb
    · rfl
  · rfl

/-- What the withdrawal of a slot's claim on one element does (R104, R105). -/
theorem TakesOn.withdrawClaimOf (s : State) (i : SlotId) (r : Reason) (e : ElementId) :
    TakesOn (Taking r) e s (s.withdrawClaimOf i r e) ∧
    ∀ l m, s.loadedAt e = some l → (s.withdrawClaimOf i r e).loadedAt e = some m →
      ((l.claims.map (·.slot)).Nodup → ∀ c ∈ m.claims, c.slot ≠ i) ∧
      ((l.claims.map (·.slot)).Nodup → ∀ c ∈ l.claims, c.slot = i →
        Said (s.withdrawClaimOf i r e) { slot := i, element := elementByte e, outcome := .withdrawn r, tag := c.request.tag }) ∧
      (∀ h, l.hold = some h → m.hold = some h) ∧
      (∀ c ∈ l.claims, c.slot ≠ i → ¬ s.MayHold l.entry c → c ∈ m.claims) := by
  unfold State.withdrawClaimOf
  cases hl : s.loadedAt e with
  | none => exact ⟨.refl s, fun l m h => by cases h⟩
  | some l =>
    rw [Option.bind_some]
    cases hc : l.claimOf i with
    | none =>
      refine ⟨.refl s, fun l' m h hm => ?_⟩
      cases h
      dsimp only at hm
      rw [hl] at hm; cases hm
      have hno : ∀ c ∈ l.claims, c.slot ≠ i := fun c hc' => by simpa using List.find?_eq_none.mp hc c hc'
      exact ⟨fun _ => hno, fun _ c hc' hi => absurd hi (hno c hc'), fun _ h => h, fun _ h _ _ => h⟩
    | some c =>
      obtain ⟨k1, k2, k3⟩ := TakesOn.withdraw s e c r
      refine ⟨k1, fun l' m h hm => ?_⟩
      cases h
      obtain ⟨j1, j2, j3, j4⟩ := k3 l m hl hm
      have hcm : c ∈ l.claims := List.mem_of_find?_eq_some hc
      have hci : c.slot = i := by simpa using List.find?_some hc
      refine ⟨fun hn d hd hi => ?_, fun hn d hd hi => ?_, j2, fun d hd hi hx => ?_⟩
      · have hd' := j1.subset hd
        have hdn := List.mem_of_mem_erase hd'
        have : d = c := List.inj_on_of_nodup_map hn hdn hcm (hi.trans hci.symm)
        rw [this] at hd'
        exact (List.Nodup.not_mem_erase (List.Nodup.of_map _ hn)) hd'
      · have : d = c := List.inj_on_of_nodup_map hn hd hcm (hi.trans hci.symm)
        rw [this, ← hci]; exact k2
      · exact j4 d ((List.mem_erase_of_ne fun he => hi (by rw [he]; exact hci)).mpr hd) hx

/-- What taking away a slot's claim and hold on one element does: neither is left, each is answered with the reason, another
slot's hold stays, and another slot's claim stays that may not be granted (R105, R106). -/
theorem TakesOn.takeAway (s : State) (i : SlotId) (r : Reason) (e : ElementId) :
    TakesOn (Taking r) e s (s.takeAway i r e) ∧
    ∀ l m, s.loadedAt e = some l → (s.takeAway i r e).loadedAt e = some m →
      ((l.claims.map (·.slot)).Nodup → m.freeOf i) ∧
      (∀ h, l.hold = some h → h.slot = i →
        Said (s.takeAway i r e) { slot := i, element := elementByte e, outcome := .released r, tag := h.tag }) ∧
      ((l.claims.map (·.slot)).Nodup → ∀ c ∈ l.claims, c.slot = i →
        Said (s.takeAway i r e) { slot := i, element := elementByte e, outcome := .withdrawn r, tag := c.request.tag }) ∧
      (∀ h, l.hold = some h → h.slot ≠ i → m.hold = some h) ∧
      (∀ c ∈ l.claims, c.slot ≠ i → ¬ s.MayHold l.entry c → c ∈ m.claims) := by
  obtain ⟨a1, a2⟩ := TakesOn.withdrawClaimOf s i r e
  unfold State.takeAway
  generalize s.withdrawClaimOf i r e = u at *
  unfold State.endHoldOf
  cases hn : u.loadedAt e with
  | none =>
    refine ⟨a1, fun l m hl hm => ?_⟩
    obtain ⟨n, hn', -⟩ := a1.shrinks l hl
    rw [hn] at hn'; cases hn'
  | some n =>
    dsimp only
    split
    · next hb =>
      obtain ⟨x, hx, hxi⟩ : ∃ x, n.hold = some x ∧ x.slot = i := by
        unfold Loaded.heldBy at hb
        split at hb
        · next x hx => exact ⟨x, hx, by simpa using hb⟩
        · cases hb
      obtain ⟨b1, -, b3⟩ := TakesOn.endHold u e r
      refine ⟨a1.trans b1, fun l m hl hm => ?_⟩
      obtain ⟨c1, c2, c3, c4⟩ := a2 l n hl hn
      obtain ⟨d1, d2, d3⟩ := b3 n x m hn hx hm
      obtain ⟨n', hn', sh⟩ := a1.shrinks l hl
      rw [hn] at hn'; cases hn'
      refine ⟨fun hd => ?_, fun h hh hi => ?_, fun hd c hc hi => (c2 hd c hc hi).later b1.reports, fun h hh hi => ?_,
        fun c hc hi hx' => d3 c (c4 c hc hi hx') ?_⟩
      · rw [← hxi]; exact d2 (by rw [hxi]; exact c1 hd)
      · have := c3 h hh
        rw [hx] at this; cases this
        rw [← hxi]; exact d1
      · have := c3 h hh
        rw [hx] at this; cases this
        exact absurd hxi hi
      · rw [sh.entry, a1.keeps.mayHold]; exact hx'
    · next hb =>
      have hno : ∀ x, n.hold = some x → x.slot ≠ i := fun x hx hi => hb (by unfold Loaded.heldBy; rw [hx]; simpa using hi)
      refine ⟨a1, fun l m hl hm => ?_⟩
      rw [hn] at hm; cases hm
      obtain ⟨c1, c2, c3, c4⟩ := a2 l n hl hn
      exact ⟨fun hd => ⟨c1 hd, hno⟩, fun h hh hi => absurd hi (hno h (c3 h hh)), c2, fun h hh _ => c3 h hh, c4⟩

/-! ### A phase event on one element (R107) -/

/-- The withdrawal of a whole queue in which no claim may be granted empties it, leaves the hold, and tells every slot (R104,
R107). -/
theorem TakesOn.withdrawAll (s : State) (e : ElementId) (r : Reason) :
    TakesOn (Taking r) e s (s.withdrawAll e r) ∧
    ∀ l, s.loadedAt e = some l → (∀ c ∈ l.claims, ¬ s.MayHold l.entry c) →
      (s.withdrawAll e r).loadedAt e = some { l with claims := [] } ∧ ∀ c ∈ l.claims,
        Said (s.withdrawAll e r) { slot := c.slot, element := elementByte e, outcome := .withdrawn r, tag := c.request.tag } := by
  have fold : ∀ (q : List Claim) (s : State),
      TakesOn (Taking r) e s (q.foldl (fun s c => s.withdraw e c r) s) := by
    intro q
    induction q with
    | nil => exact fun s => .refl s
    | cons c q ih => exact fun s => (TakesOn.withdraw s e c r).1.trans (ih _)
  have aux : ∀ (q : List Claim) (s : State) (l : Loaded), s.loadedAt e = some l → (∀ c ∈ l.claims, ¬ s.MayHold l.entry c) →
      l.claims = q →
      (q.foldl (fun s c => s.withdraw e c r) s).loadedAt e = some { l with claims := [] } ∧ ∀ c ∈ q,
        Said (q.foldl (fun s c => s.withdraw e c r) s)
          { slot := c.slot, element := elementByte e, outcome := .withdrawn r, tag := c.request.tag } := by
    intro q
    induction q with
    | nil =>
      intro s l hl _ hq
      refine ⟨?_, fun c hc => by cases hc⟩
      rw [List.foldl_nil, hl]; congr 1; rw [← hq]
    | cons c q ih =>
      intro s l hl hn hq
      obtain ⟨k1, k2, -⟩ := TakesOn.withdraw s e c r
      have h1 : (s.withdraw e c r).loadedAt e = some { l with claims := q } := by
        have h3 : (((s.updLoaded e fun l => { l with claims := l.claims.erase c }).lessOutstanding c.slot).verdictFor c.slot e
            (.withdrawn r) c.request.tag).loadedAt e = some { l with claims := q } := by simp [hl, hq]
        have h4 : ArbiterKeeps s (((s.updLoaded e fun l => { l with claims := l.claims.erase c }).lessOutstanding
            c.slot).verdictFor c.slot e (.withdrawn r) c.request.tag) := by
          refine .trans ?_ (.verdictFor _ _ _ _ _)
          refine .trans ?_ (.lessOutstanding _ _)
          exact .updLoaded s e _ fun _ => rfl
        unfold State.withdraw
        dsimp only
        rcases State.grantSelection_cases (((s.updLoaded e fun l => { l with claims := l.claims.erase c }).lessOutstanding
          c.slot).verdictFor c.slot e (.withdrawn r) c.request.tag) e with h | ⟨m, d, hm, -, hd, hp, -⟩
        · rw [h]; exact h3
        · rw [h3] at hm; cases hm
          exact absurd ((h4.mayHold _ _).mp hp) (hn d (by rw [hq]; exact List.mem_cons_of_mem _ hd))
      obtain ⟨j1, j2⟩ := ih _ _ h1 (fun d hd => by
        rw [k1.keeps.mayHold]; exact hn d (by rw [hq]; exact List.mem_cons_of_mem _ hd)) rfl
      rw [List.foldl_cons]
      refine ⟨j1, fun d hd => ?_⟩
      rcases List.mem_cons.mp hd with rfl | hd
      · exact k2.later (fold q _).reports
      · exact j2 d hd
  unfold State.withdrawAll
  split
  · next hl => exact ⟨.refl s, fun l h => by rw [hl] at h; cases h⟩
  · next l hl =>
    refine ⟨fold _ s, fun m hm hn => ?_⟩
    rw [hl] at hm; cases hm
    exact aux _ s l hl hn rfl

/-- What a phase event does to one element: one of the field whose phase mask lacks the new phase loses its queue and its
hold, each answered with PHASE; any other is left alone (R107). -/
theorem TakesOn.phaseTest (s : State) (f : FieldId) (p : Phase) (e : ElementId) :
    TakesOn (Taking .phase) e s (s.phaseTest f p e) ∧
    ∀ l, s.loadedAt e = some l →
      (¬ (l.entry.field = f ∧ phaseIn l.entry.phaseMask p = false) → s.phaseTest f p e = s) ∧
      (l.claims = [] → l.hold = none → s.phaseTest f p e = s) ∧
      ((s.fields.at f).phase = p → l.entry.field = f → phaseIn l.entry.phaseMask p = false →
        (∀ m, (s.phaseTest f p e).loadedAt e = some m → m.claims = [] ∧ m.hold = none) ∧
        (∀ h, l.hold = some h → Said (s.phaseTest f p e)
          { slot := h.slot, element := elementByte e, outcome := .released .phase, tag := h.tag }) ∧
        (∀ c ∈ l.claims, Said (s.phaseTest f p e)
          { slot := c.slot, element := elementByte e, outcome := .withdrawn .phase, tag := c.request.tag })) := by
  unfold State.phaseTest
  cases hl : s.loadedAt e with
  | none => exact ⟨.refl s, fun l h => by cases h⟩
  | some l =>
    dsimp only
    obtain ⟨a1, a2⟩ := TakesOn.withdrawAll s e .phase
    obtain ⟨b1, b2, b3⟩ := TakesOn.endHold (s.withdrawAll e .phase) e .phase
    refine ⟨?_, fun l' h => ?_⟩
    · split
      · exact a1.trans b1
      · exact .refl s
    · cases h
      refine ⟨fun hn => if_neg hn, fun hc hh => ?_, fun hp hf hm => ?_⟩
      · split
        · have : s.withdrawAll e .phase = s := by unfold State.withdrawAll; rw [hl]; simp [hc]
          rw [this] at b2 ⊢
          exact b2 l hl hh
        · rfl
      · rw [if_pos ⟨hf, hm⟩]
        have hno : ∀ c ∈ l.claims, ¬ s.MayHold l.entry c := fun c _ hx => by
          have := hx.2.2; rw [hf, hp, hm] at this; cases this
        obtain ⟨c1, c2⟩ := a2 l hl hno
        refine ⟨fun m hm' => ?_, fun h hh => ?_, fun c hc => (c2 c hc).later b1.reports⟩
        · obtain ⟨m', hm2, sh⟩ := b1.shrinks _ c1
          rw [hm'] at hm2; cases hm2
          refine ⟨List.sublist_nil.mp sh.claims, ?_⟩
          cases hh : l.hold with
          | none =>
            rw [b2 _ c1 hh, c1] at hm'; cases hm'; exact hh
          | some h =>
            obtain ⟨-, d2, -⟩ := b3 _ h m c1 hh hm'
            have hfree := d2 fun c hc => by cases hc
            cases hx : m.hold with
            | none => rfl
            | some y =>
              rcases sh.hold y hx with ⟨z, hz, hzy⟩ | ⟨c, hc, -⟩
              · have hz' : l.hold = some z := hz
                rw [hh] at hz'; cases hz'
                exact absurd hzy.symm (hfree.2 y hx)
              · cases hc
        · obtain ⟨n, hn, -⟩ := b1.shrinks _ c1
          exact (b3 _ h n c1 hh hn).1

/-! ### Every element in turn -/

/-- What procedures that take claims and holds away do together. -/
structure TakesAll (P : Verdict → Prop) (s t : State) : Prop where
  keeps : ArbiterKeeps s t
  shrinks : ∀ e l, s.loadedAt e = some l → ∃ m, t.loadedAt e = some m ∧ l.Shrinks m
  reports : Reports P s t

theorem TakesAll.refl (s : State) : TakesAll P s s := ⟨.refl s, fun _ l h => ⟨l, h, .refl l⟩, .refl s⟩

theorem TakesAll.trans (h : TakesAll P s t) (k : TakesAll P t u) : TakesAll P s u where
  keeps := h.keeps.trans k.keeps
  shrinks e l hl := by
    obtain ⟨m, hm, a⟩ := h.shrinks e l hl
    obtain ⟨n, hn, b⟩ := k.shrinks e m hm
    exact ⟨n, hn, a.trans b⟩
  reports := h.reports.trans k.reports

theorem TakesOn.all (h : TakesOn P e s t) : TakesAll P s t :=
  ⟨h.keeps, fun k l hl => by
    by_cases hk : k = e
    · subst hk; exact h.shrinks l hl
    · exact ⟨l, by rw [h.others k hk]; exact hl, .refl l⟩, h.reports⟩

/-- A procedure run on one element after another: each element meets it once, as it was at the start. -/
theorem TakesAll.foldl {step : State → ElementId → State} (h : ∀ s e, TakesOn P e s (step s e)) :
    ∀ (es : List ElementId), es.Nodup → ∀ s, TakesAll P s (es.foldl step s) ∧
      (∀ e, e ∉ es → (es.foldl step s).loadedAt e = s.loadedAt e) ∧
      ∀ e ∈ es, ∃ u, TakesAll P s u ∧ u.loadedAt e = s.loadedAt e ∧ TakesAll P (step u e) (es.foldl step s) ∧
        (es.foldl step s).loadedAt e = (step u e).loadedAt e := by
  intro es
  induction es with
  | nil => exact fun _ s => ⟨.refl s, fun _ _ => rfl, fun e he => by cases he⟩
  | cons k es ih =>
    intro hn s
    obtain ⟨hk, hn⟩ := List.nodup_cons.mp hn
    obtain ⟨i1, i2, i3⟩ := ih hn (step s k)
    rw [List.foldl_cons]
    refine ⟨(h s k).all.trans i1, fun e he => ?_, fun e he => ?_⟩
    · rw [List.mem_cons, not_or] at he
      rw [i2 e he.2, (h s k).others e he.1]
    · rcases List.mem_cons.mp he with rfl | he
      · exact ⟨s, .refl s, rfl, i1, i2 e hk⟩
      · obtain ⟨u, u1, u2, u3, u4⟩ := i3 e he
        have hne : e ≠ k := fun hx => hk (hx ▸ he)
        exact ⟨u, (h s k).all.trans u1, u2.trans ((h s k).others e hne), u3, u4⟩

/-- What an event takes from slot `i` with reason `r`, on every element: nothing of the slot is left, each thing taken is
answered, and other slots' holds stay (R105, R106). -/
structure SlotTaken (r : Reason) (i : SlotId) (s t : State) : Prop where
  shrinks : ∀ e l, s.loadedAt e = some l → ∃ m, t.loadedAt e = some m ∧ l.Shrinks m
  reports : Reports (Taking r) s t
  free : ∀ e l m, s.loadedAt e = some l → t.loadedAt e = some m → (l.claims.map (·.slot)).Nodup → m.freeOf i
  released : ∀ e l h, s.loadedAt e = some l → l.hold = some h → h.slot = i →
    Said t { slot := i, element := elementByte e, outcome := .released r, tag := h.tag }
  withdrawn : ∀ e l, s.loadedAt e = some l → (l.claims.map (·.slot)).Nodup → ∀ c ∈ l.claims, c.slot = i →
    Said t { slot := i, element := elementByte e, outcome := .withdrawn r, tag := c.request.tag }
  holds : ∀ e l m h, s.loadedAt e = some l → t.loadedAt e = some m → l.hold = some h → h.slot ≠ i → m.hold = some h
  claims : ∀ e l m, s.loadedAt e = some l → t.loadedAt e = some m → ∀ c ∈ l.claims, c.slot ≠ i →
    ¬ s.MayHold l.entry c → c ∈ m.claims
  same : ∀ e l, s.loadedAt e = some l → l.freeOf i → t.loadedAt e = some l

/-- What a gate-off or silent event of one slot does (R105, R106). -/
theorem SlotTaken.slotEvent (s : State) (i : SlotId) (r : Reason) : SlotTaken r i s (s.slotEvent i r) := by
  obtain ⟨f1, -, f3⟩ := TakesAll.foldl (fun s e => (TakesOn.takeAway s i r e).1) (allOf 48) (List.nodup_finRange 48) s
  have at_ : ∀ e l m, s.loadedAt e = some l → (s.slotEvent i r).loadedAt e = some m →
      ∃ u, TakesAll (Taking r) s u ∧ u.loadedAt e = some l ∧ Reports (Taking r) (u.takeAway i r e) (s.slotEvent i r) ∧
        (u.takeAway i r e).loadedAt e = some m := by
    intro e l m hl hm
    obtain ⟨u, u1, u2, u3, u4⟩ := f3 e (List.mem_finRange e)
    exact ⟨u, u1, u2.trans hl, u3.reports, by rw [← u4]; exact hm⟩
  refine ⟨f1.shrinks, f1.reports, ?_, ?_, ?_, ?_, ?_, ?_⟩
  · intro e l m hl hm hn
    obtain ⟨u, -, u2, -, u4⟩ := at_ e l m hl hm
    exact ((TakesOn.takeAway u i r e).2 l m u2 u4).1 hn
  · intro e l h hl hh hi
    obtain ⟨m, hm, -⟩ := f1.shrinks e l hl
    obtain ⟨u, -, u2, u3, u4⟩ := at_ e l m hl hm
    exact (((TakesOn.takeAway u i r e).2 l m u2 u4).2.1 h hh hi).later u3
  · intro e l hl hn c hc hi
    obtain ⟨m, hm, -⟩ := f1.shrinks e l hl
    obtain ⟨u, -, u2, u3, u4⟩ := at_ e l m hl hm
    exact (((TakesOn.takeAway u i r e).2 l m u2 u4).2.2.1 hn c hc hi).later u3
  · intro e l m h hl hm hh hi
    obtain ⟨u, -, u2, -, u4⟩ := at_ e l m hl hm
    exact ((TakesOn.takeAway u i r e).2 l m u2 u4).2.2.2.1 h hh hi
  · intro e l m hl hm c hc hi hx
    obtain ⟨u, u1, u2, -, u4⟩ := at_ e l m hl hm
    exact ((TakesOn.takeAway u i r e).2 l m u2 u4).2.2.2.2 c hc hi (by rw [u1.keeps.mayHold]; exact hx)
  · intro e l hl hf
    obtain ⟨u, -, u2, -, u4⟩ := f3 e (List.mem_finRange e)
    have : (s.slotEvent i r).loadedAt e = (u.takeAway i r e).loadedAt e := u4
    rw [this, u.takeAway_free i r e fun l' hl' => by rw [u2, hl] at hl'; cases hl'; exact hf, u2, hl]

/-- What a phase event of a field does whose phase is the new one: every element of the field whose phase mask lacks it loses
queue and hold, each thing answered with PHASE, and every other element is left alone (R107). -/
theorem TakesAll.phaseEvent (s : State) (f : FieldId) (p : Phase) (hp : (s.fields.at f).phase = p) :
    TakesAll (Taking .phase) s (s.phaseEvent f p) ∧
    ∀ e l, s.loadedAt e = some l →
      (¬ (l.entry.field = f ∧ phaseIn l.entry.phaseMask p = false) ∨ (l.claims = [] ∧ l.hold = none) →
        (s.phaseEvent f p).loadedAt e = some l) ∧
      (l.entry.field = f → phaseIn l.entry.phaseMask p = false →
        (∀ m, (s.phaseEvent f p).loadedAt e = some m → m.claims = [] ∧ m.hold = none) ∧
        (∀ h, l.hold = some h → Said (s.phaseEvent f p)
          { slot := h.slot, element := elementByte e, outcome := .released .phase, tag := h.tag }) ∧
        (∀ c ∈ l.claims, Said (s.phaseEvent f p)
          { slot := c.slot, element := elementByte e, outcome := .withdrawn .phase, tag := c.request.tag })) := by
  obtain ⟨f1, -, f3⟩ := TakesAll.foldl (fun s e => (TakesOn.phaseTest s f p e).1) (allOf 48) (List.nodup_finRange 48) s
  refine ⟨f1, fun e l hl => ?_⟩
  obtain ⟨u, u1, u2, u3, u4⟩ := f3 e (List.mem_finRange e)
  have u4 : (s.phaseEvent f p).loadedAt e = (u.phaseTest f p e).loadedAt e := u4
  obtain ⟨-, k⟩ := TakesOn.phaseTest u f p e
  obtain ⟨k1, k2, k3⟩ := k l (u2.trans hl)
  refine ⟨fun h => ?_, fun hf hm => ?_⟩
  · rw [u4, h.elim k1 fun h => k2 h.1 h.2, u2, hl]
  · obtain ⟨j1, j2, j3⟩ := k3 (by rw [u1.keeps.fields]; exact hp) hf hm
    exact ⟨fun m hm => j1 m (by rw [← u4]; exact hm), fun h hh => (j2 h hh).later u3.reports,
      fun c hc => (j3 c hc).later u3.reports⟩

/-! ### Several slots, one after another (R27, R41) -/

/-- What the events of several slots take, one after another, with one reason: nothing of these slots is left, each hold and
each claim that may not be granted meanwhile is answered, and the other slots' holds stay (R41, R105, R106). -/
structure SlotsTaken (r : Reason) (slots : List SlotId) (s t : State) : Prop where
  shrinks : ∀ e l, s.loadedAt e = some l → ∃ m, t.loadedAt e = some m ∧ l.Shrinks m
  reports : Reports (Taking r) s t
  quiet : slots = [] → t.link.verdicts = s.link.verdicts
  free : ∀ i ∈ slots, ∀ e l m, s.loadedAt e = some l → t.loadedAt e = some m → (l.claims.map (·.slot)).Nodup → m.freeOf i
  released : ∀ e l h, s.loadedAt e = some l → l.hold = some h → h.slot ∈ slots →
    Said t { slot := h.slot, element := elementByte e, outcome := .released r, tag := h.tag }
  withdrawn : ∀ e l, s.loadedAt e = some l → (l.claims.map (·.slot)).Nodup → ∀ c ∈ l.claims, c.slot ∈ slots →
    ¬ s.MayHold l.entry c → Said t { slot := c.slot, element := elementByte e, outcome := .withdrawn r, tag := c.request.tag }
  holds : ∀ e l m h, s.loadedAt e = some l → t.loadedAt e = some m → l.hold = some h → h.slot ∉ slots → m.hold = some h
  same : ∀ e l, s.loadedAt e = some l → (∀ i ∈ slots, l.freeOf i) → t.loadedAt e = some l

theorem SlotsTaken.foldl {step : State → SlotId → State} (h : ∀ s i, SlotTaken r i s (step s i))
    (hm : ∀ s i x c, (step s i).MayHold x c → s.MayHold x c) :
    ∀ (slots : List SlotId), slots.Nodup → ∀ s, SlotsTaken r slots s (slots.foldl step s) := by
  intro slots
  induction slots with
  | nil =>
    intro _ s
    refine ⟨fun e l hl => ⟨l, hl, .refl l⟩, .refl s, fun _ => rfl, fun i hi => absurd hi List.not_mem_nil,
      fun e l h _ _ hi => absurd hi List.not_mem_nil, fun e l _ _ c _ hi => absurd hi List.not_mem_nil, ?_, fun e l hl _ => hl⟩
    intro e l m h hl hm hh _
    rw [List.foldl_nil, hl] at hm; cases hm; exact hh
  | cons k slots ih =>
    intro hn s
    obtain ⟨hk, hn⟩ := List.nodup_cons.mp hn
    have a := h s k
    have b := ih hn (step s k)
    rw [List.foldl_cons]
    refine ⟨fun e l hl => ?_, a.reports.trans b.reports, fun hx => absurd hx (List.cons_ne_nil _ _), fun i hi e l m hl hm' hd => ?_,
      fun e l x hl hx hi => ?_, fun e l hl hd c hc hi hno => ?_, fun e l m x hl hm' hx hi => ?_, fun e l hl hf => ?_⟩
    · obtain ⟨n, hn', s1⟩ := a.shrinks e l hl
      obtain ⟨o, ho, s2⟩ := b.shrinks e n hn'
      exact ⟨o, ho, s1.trans s2⟩
    · obtain ⟨n, hn', s1⟩ := a.shrinks e l hl
      rcases List.mem_cons.mp hi with rfl | hi
      · obtain ⟨o, ho, s2⟩ := b.shrinks e n hn'
        rw [hm'] at ho; cases ho
        exact s2.freeOf (a.free e l n hl hn' hd)
      · exact b.free i hi e n m hn' hm' (s1.nodup hd)
    · by_cases hik : x.slot = k
      · rw [hik]; exact (a.released e l x hl hx hik).later b.reports
      · obtain ⟨n, hn', -⟩ := a.shrinks e l hl
        exact b.released e n x hn' (a.holds e l n x hl hn' hx hik) ((List.mem_cons.mp hi).resolve_left hik)
    · by_cases hik : c.slot = k
      · rw [hik]; exact (a.withdrawn e l hl hd c hc hik).later b.reports
      · obtain ⟨n, hn', s1⟩ := a.shrinks e l hl
        refine b.withdrawn e n hn' (s1.nodup hd) c (a.claims e l n hl hn' c hc hik hno)
          ((List.mem_cons.mp hi).resolve_left hik) ?_
        rw [s1.entry]
        exact fun hx => hno (hm _ _ _ _ hx)
    · rw [List.mem_cons, not_or] at hi
      obtain ⟨n, hn', -⟩ := a.shrinks e l hl
      exact b.holds e n m x hn' hm' (a.holds e l n x hl hn' hx hi.1) hi.2
    · exact b.same e l (a.same e l hl (hf k List.mem_cons_self)) fun i hi => hf i (List.mem_cons_of_mem _ hi)

/-- The gate-off events of one change (R27, R105). -/
theorem SlotsTaken.gateOffEvents (s before : State) (r : Reason) :
    SlotsTaken r (s.gatesClosed before) s (s.gateOffEvents before r) :=
  .foldl (fun s i => .slotEvent s i r) (fun s i x c hx => ((ArbiterKeeps.slotEvent s i r).mayHold x c).mp hx) _
    ((List.nodup_finRange 32).filter _) s

/-- The marking of one slot as silent (R41, R106). -/
theorem SlotTaken.markSilent (s : State) (i : SlotId) : SlotTaken .silent i s (s.markSilent i) := by
  have k := SlotTaken.slotEvent ((s.updSlot i fun x => { x with silent := true }).queueNotice (.silent i)) i .silent
  have hr : Reports (Taking .silent) s (s.markSilent i) := by
    refine Reports.trans ?_ k.reports
    exact .of_eq rfl
  refine ⟨k.shrinks, hr, k.free, k.released, k.withdrawn, k.holds, fun e l m hl hm c hc hi hx => ?_, k.same⟩
  refine k.claims e l m hl hm c hc hi fun h => hx ?_
  have hs : ((s.updSlot i fun x => { x with silent := true }).queueNotice (.silent i)).slots.at c.slot = s.slots.at c.slot := by
    simp [hi]
  obtain ⟨h1, h2, h3⟩ := h
  refine ⟨?_, by rw [← hs]; exact h2, h3⟩
  rw [← h1]
  unfold State.gateOpen State.effectiveGate
  rw [hs]; rfl

theorem State.markSilent_mayHold (s : State) (i : SlotId) (x : ElementEntry) (c : Claim) (h : (s.markSilent i).MayHold x c) :
    s.MayHold x c := by
  unfold State.markSilent at h
  rw [(ArbiterKeeps.slotEvent _ i .silent).mayHold] at h
  obtain ⟨h1, h2, h3⟩ := h
  have hs : ∃ b, ((s.updSlot i fun x => { x with silent := true }).queueNotice (.silent i)).slots.at c.slot =
      { s.slots.at c.slot with silent := b } ∧ (b = false → (s.slots.at c.slot).silent = false) := by
    rw [State.queueNotice_slots, State.updSlot_slots, Table.at_put]
    split
    · next he => exact ⟨true, by rw [he], fun hx => by cases hx⟩
    · exact ⟨_, rfl, id⟩
  obtain ⟨b, hb, hb'⟩ := hs
  rw [hb] at h2
  refine ⟨?_, hb' h2, h3⟩
  rw [← h1]
  unfold State.gateOpen State.effectiveGate
  rw [hb]; rfl

/-- Marking slots silent one after another (R41). -/
theorem SlotsTaken.markSilent (slots : List SlotId) (hn : slots.Nodup) (s : State) :
    SlotsTaken .silent slots s (slots.foldl State.markSilent s) :=
  .foldl SlotTaken.markSilent State.markSilent_mayHold slots hn s

/-! ### Which slots a test of silence marks (R41) -/

/-- A test of silence would mark the slot (R41). -/
def State.dueSilent (s : State) (i : SlotId) : Bool :=
  !(s.slots.at i).silent && s.inTimedPhase i && decide (s.timing.silent < (s.slots.at i).age)

theorem State.silenceTest_eq (s : State) (i : SlotId) : s.silenceTest i = if s.dueSilent i then s.markSilent i else s := by
  unfold State.silenceTest State.dueSilent
  congr 1
  simp [and_assoc]

/-- The slots after one is marked silent: the mark is set, and of the rest only outstanding counts fall (R41, R106). -/
theorem State.markSilent_slots (s : State) (i j : SlotId) : (s.markSilent i).slots.at j = { s.slots.at j with
    silent := (s.slots.at j).silent || decide (j = i), outstanding := ((s.markSilent i).slots.at j).outstanding } := by
  have h := (ArbiterKeeps.slotEvent ((s.updSlot i fun x => { x with silent := true }).queueNotice (.silent i)) i .silent).slots j
  unfold State.markSilent
  rw [h, State.queueNotice_slots, State.updSlot_slots, Table.at_put]
  by_cases hj : j = i
  · subst hj; simp
  · simp [hj]

theorem State.markSilent_notices (s : State) (i : SlotId) (h : s.mgmt.notices.length < 16) :
    (s.markSilent i).mgmt.notices = s.mgmt.notices ++ [{ dropped := s.mgmt.dropped, content := .silent i }] ∧
      (s.markSilent i).mgmt.dropped = 0 := by
  unfold State.markSilent
  rw [(ArbiterKeeps.slotEvent _ i .silent).mgmt]
  simp [State.queueNotice, State.updMgmt, Config.noticeCapacity, h]

theorem State.markSilent_dueSilent (s : State) {i j : SlotId} (h : j ≠ i) : (s.markSilent i).dueSilent j = s.dueSilent j := by
  have hs : ∃ n, (s.markSilent i).slots.at j = { s.slots.at j with outstanding := n } := by
    refine ⟨((s.markSilent i).slots.at j).outstanding, (s.markSilent_slots i j).trans ?_⟩
    simp [h]
  obtain ⟨n, hs⟩ := hs
  have hf : (s.markSilent i).fields = s.fields := (BusKeeps.markSilent s i).fields
  have ht : (s.markSilent i).timing = s.timing := (BusKeeps.markSilent s i).timing
  unfold State.dueSilent State.inTimedPhase State.slotField
  rw [hs, hf, ht]

/-- Tests of silence one after another mark the slots that were due at the start (R41). -/
theorem State.foldl_silenceTest : ∀ (slots : List SlotId), slots.Nodup → ∀ s : State,
    slots.foldl State.silenceTest s = (slots.filter s.dueSilent).foldl State.markSilent s := by
  intro slots
  induction slots with
  | nil => intro _ s; rw [List.filter_nil, List.foldl_nil, List.foldl_nil]
  | cons k slots ih =>
    intro hn s
    obtain ⟨hk, hn⟩ := List.nodup_cons.mp hn
    have hne : ∀ j ∈ slots, j ≠ k := fun j hj he => hk (by rwa [← he])
    rw [List.foldl_cons, State.silenceTest_eq, ih hn]
    cases hd : s.dueSilent k with
    | false => rw [if_neg Bool.false_ne_true, List.filter_cons_of_neg (by rw [hd]; exact Bool.false_ne_true)]
    | true =>
      rw [if_pos rfl, List.filter_cons_of_pos hd, List.foldl_cons,
        List.filter_congr fun j hj => s.markSilent_dueSilent (hne j hj)]

/-- The slots after several are marked silent (R41, R106). -/
theorem State.foldl_markSilent_slots : ∀ (slots : List SlotId) (s : State) (j : SlotId),
    (slots.foldl State.markSilent s).slots.at j = { s.slots.at j with
      silent := (s.slots.at j).silent || decide (j ∈ slots)
      outstanding := ((slots.foldl State.markSilent s).slots.at j).outstanding } := by
  intro slots
  induction slots with
  | nil => intro s j; simp
  | cons k slots ih =>
    intro s j
    rw [List.foldl_cons]
    refine (ih (s.markSilent k) j).trans ?_
    rw [s.markSilent_slots k j]
    simp only [List.mem_cons, Bool.decide_or, Bool.or_assoc]

/-- The notices of several slots marked silent one after another, while the notice queue has room (R41, R188). -/
theorem State.foldl_markSilent_notices : ∀ (slots : List SlotId) (s : State),
    s.mgmt.notices.length + slots.length ≤ 16 →
    (slots.foldl State.markSilent s).mgmt.notices = s.mgmt.notices ++
      slots.mapIdx fun n i => { dropped := if n = 0 then s.mgmt.dropped else 0, content := .silent i } := by
  intro slots
  induction slots with
  | nil => intro s _; simp
  | cons k slots ih =>
    intro s h
    rw [List.length_cons] at h
    obtain ⟨h1, h2⟩ := s.markSilent_notices k (by omega)
    rw [List.foldl_cons, ih _ (by rw [h1]; simp; omega), h1, h2]
    simp [List.mapIdx_cons]

end Sys2Proof.Machine
end

