-- ==== Sys2Proof/Laws/Actuations.lean ====
section
/-! SUPPORT. What the end of an actuation does, and what it brings: the hold's next action, or the grant that grant selection
makes (R95, R101, R102, R115). -/

namespace Sys2Proof.Machine

open Sys2Proof

variable {s t : State} {e : ElementId} {l l' : Loaded} {a : Actuation} {o : Outcome}

theorem Loaded.withoutAct_eq (h : l.act = some a) (n : Nat) : l.withoutAct n = l.actRemoved a n := by
  unfold Loaded.withoutAct Loaded.actRemoved Loaded.busy Actuation.onElement
  rw [h]
  congr 1
  cases hs : a.state <;> cases l.presence <;> cases l.entry.kind <;> simp [ElementKind.senses, hs]

/-- A grant on a loaded element makes its hold and its actuation record, and queues GRANTED (R95). -/
theorem State.grant_spec (hl : s.loadedAt e = some l) (i : SlotId) (r : Request) :
    (s.grant e i r).loadedAt e = some { l.withAct i r with
      hold := some { slot := i, tag := r.tag, remaining := l.entry.holdLimit, next := none } } ∧
    (s.grant e i r).slots = s.slots ∧ (s.grant e i r).link.verdicts = enqueueVerdict s.link.verdicts
      { slot := i, element := elementByte e, outcome := .granted, tag := r.tag } := by
  refine ⟨by simp [State.grant, hl], by simp [State.grant], by simp [State.grant]⟩

/-- Grant selection on a PRESENT element that is free grants the claim that `Picks` names (R101, R102). -/
theorem State.grantSelection_picks (hl : s.loadedAt e = some l) (hp : l.presence = .present) (hh : l.hold = none)
    (ha : l.act = none) {before behind : List Claim} {d : Claim} (hq : l.claims = before ++ d :: behind)
    (hd : s.Picks l.entry l.lastAlliance before d behind) :
    (s.grantSelection e).loadedAt e = some { { l with claims := before ++ behind }.withAct d.slot d.request with
      hold := some { slot := d.slot, tag := d.request.tag, remaining := l.entry.holdLimit, next := none } } ∧
    (s.grantSelection e).slots = s.slots ∧ (s.grantSelection e).link.verdicts = enqueueVerdict s.link.verdicts
      { slot := d.slot, element := elementByte e, outcome := .granted, tag := d.request.tag } := by
  have hc : l.claims.erase d = before ++ behind := by
    rw [hq, List.erase_append_right, List.erase_cons_head]
    intro hx
    rcases hd.2 with ⟨h1, h2⟩ | ⟨h1, -⟩
    · exact h2 d hx hd.1 h1
    · exact h1 d hx hd.1
  have hg : s.grantSelection e = (s.updLoaded e fun l => { l with claims := l.claims.erase d }).grant e d.slot d.request := by
    unfold State.grantSelection
    rw [hl]
    dsimp only
    rw [if_pos ⟨hp, hh, ha⟩, State.pickClaim_of_picks hq hd]
  have hl' : (s.updLoaded e fun l => { l with claims := l.claims.erase d }).loadedAt e =
      some { l with claims := before ++ behind } := by simp [hl, hc]
  obtain ⟨h1, h2, h3⟩ := State.grant_spec hl' d.slot d.request
  rw [hg]
  exact ⟨h1, by rw [h2]; simp, by rw [h3]; simp⟩

/-- What a state that agrees with another on gates, silent marks, fields and placings lets grant selection pick (R101, R102). -/
theorem State.Picks.of_same (hs : t.slots = s.slots) (hf : t.fields = s.fields) {x : ElementEntry} {last : Option Alliance}
    {before behind : List Claim} {d : Claim} : t.Picks x last before d behind ↔ s.Picks x last before d behind := by
  unfold State.Picks State.MayHold State.Preferred State.gateOpen State.effectiveGate State.slotAlliance
  rw [hs, hf]

theorem State.MayHold.of_same (hs : t.slots = s.slots) (hf : t.fields = s.fields) {x : ElementEntry} {c : Claim} :
    t.MayHold x c ↔ s.MayHold x c := by
  unfold State.MayHold State.gateOpen State.effectiveGate
  rw [hs, hf]

theorem State.grantSelection_slots (s : State) (e : ElementId) : (s.grantSelection e).slots = s.slots := by
  rcases s.grantSelection_cases e with h | ⟨l, c, hl, -, -, -, h⟩
  · rw [h]
  · rw [h]; simp [State.grant]

/-- Grant selection grants nothing on an element that is not PRESENT, or without an eligible claim (R101). -/
theorem State.grantSelection_still (hl : s.loadedAt e = some l)
    (h : l.presence ≠ .present ∨ ∀ c ∈ l.claims, ¬ s.MayHold l.entry c) : s.grantSelection e = s := by
  unfold State.grantSelection
  rw [hl]
  dsimp only
  split
  · next hp => rw [State.pickClaim_none (h.resolve_left fun hn => hn hp.1)]
  · rfl

/-- The three ways on from the end of an actuation (R115). -/
theorem State.afterActuation_cases (hl : s.loadedAt e = some l) :
    (l.hold = none → s.afterActuation e = s.grantSelection e) ∧
    (∀ h, l.hold = some h → h.next = none → s.afterActuation e = s) ∧
    ∀ h n, l.hold = some h → h.next = some n → s.afterActuation e = s.takeNext e l h n := by
  refine ⟨fun hh => ?_, fun h hh hn => ?_, fun h n hh hn => ?_⟩ <;> unfold State.afterActuation <;> rw [hl] <;>
    dsimp only <;> rw [hh] <;> dsimp only <;> rw [hn]

/-- The end of an actuation (R115). -/
theorem State.endActuation_spec (hl : s.loadedAt e = some l) (ha : l.act = some a) (how : ActEnd) :
    ∃ l', (s.endActuation e how).loadedAt e = some l' ∧ ActuationEnds s (s.endActuation e how) e l l' a how.outcome := by
  obtain ⟨u, hu⟩ : ∃ u, u = (s.updLoaded e fun l => l.withoutAct s.timing.sensor).verdictFor a.slot e how.outcome a.request.tag :=
    ⟨_, rfl⟩
  have ul : u.loadedAt e = some (l.actRemoved a s.timing.sensor) := by rw [hu]; simp [hl, Loaded.withoutAct_eq ha]
  have us : u.slots = s.slots := by rw [hu]; simp
  have uf : u.fields = s.fields := by rw [hu]; simp
  have uv : u.link.verdicts = enqueueVerdict s.link.verdicts
      { slot := a.slot, element := elementByte e, outcome := how.outcome, tag := a.request.tag } := by rw [hu]; simp
  have others : ∀ k, k ≠ e → (s.endActuation e how).loadedAt k = s.loadedAt k := fun k hk => s.endActuation_others e how hk
  have hE : s.endActuation e how = u.afterActuation e := by
    unfold State.endActuation
    rw [hl, Option.bind_some, ha, hu]
  rw [hE] at others ⊢
  obtain ⟨c1, c2, c3⟩ := State.afterActuation_cases ul
  obtain ⟨l', hl'⟩ : ∃ l', (u.afterActuation e).loadedAt e = some l' := by
    have := (ArbiterKeeps.afterActuation u e).busSide e
    rw [ul] at this
    exact Option.isSome_iff_exists.mp (by simpa using congrArg Option.isSome this)
  refine ⟨l', hl', ⟨?_, others, ?_, fun h hh hn => ?_, fun h n hh hn hp => ?_, fun h n hh hn hp => ?_,
    fun before d behind hh hp hq hd => ?_, fun hh hf => ?_⟩⟩
  · cases hh : l.hold with
    | none => rw [c1 hh, State.grantSelection_slots, us]
    | some h =>
      cases hn : h.next with
      | none => rw [c2 h hh hn, us]
      | some n => rw [c3 h n hh hn]; unfold State.takeNext; split <;> simpa using us
  · cases hh : l.hold with
    | none =>
      rw [c1 hh] at hl'
      rcases u.grantSelection_cases e with hg | ⟨k, c, hk, -, -, -, hg⟩
      · rw [hg, ul] at hl'; cases hl'; rw [← hh]; rfl
      · have hk' : (u.updLoaded e fun l => { l with claims := l.claims.erase c }).loadedAt e =
            some { k with claims := k.claims.erase c } := by simp [hk]
        rw [hg, (State.grant_spec hk' c.slot c.request).1] at hl'
        rw [ul] at hk; cases hk; cases hl'; rw [← hh]; rfl
    | some h =>
      cases hn : h.next with
      | none => rw [c2 h hh hn, ul] at hl'; cases hl'; rw [← hh]; rfl
      | some n =>
        rw [c3 h n hh hn] at hl'
        unfold State.takeNext at hl'
        split at hl' <;> simp only [State.verdictFor_loadedAt, State.updLoaded_loadedAt, if_true, ul] at hl' <;> cases hl' <;>
          rw [← hh] <;> rfl
  · rw [c2 h hh hn] at hl' ⊢
    exact ⟨Option.some.inj (hl'.symm.trans ul), uv⟩
  · rw [c3 h n hh hn] at hl' ⊢
    unfold State.takeNext at hl' ⊢
    rw [if_pos (show (l.actRemoved a s.timing.sensor).presence = .present from hp)] at hl' ⊢
    rw [State.updLoaded_loadedAt, if_pos rfl, ul] at hl'
    exact ⟨⟨_, rfl, (Option.some.inj hl').symm⟩, by simpa using uv⟩
  · rw [c3 h n hh hn] at hl' ⊢
    unfold State.takeNext at hl' ⊢
    rw [if_neg (show (l.actRemoved a s.timing.sensor).presence ≠ .present from hp)] at hl' ⊢
    rw [State.verdictFor_loadedAt, State.updLoaded_loadedAt, if_pos rfl, ul] at hl'
    exact ⟨(Option.some.inj hl').symm, by simp [uv]⟩
  · rw [c1 hh] at hl' ⊢
    obtain ⟨h1, -, h3⟩ := State.grantSelection_picks ul hp hh rfl hq ((State.Picks.of_same us uf).mpr hd)
    exact ⟨⟨_, rfl, Option.some.inj (hl'.symm.trans h1)⟩, by rw [h3, uv]⟩
  · have : u.grantSelection e = u := State.grantSelection_still ul
      (hf.imp id fun hf c hc hm => hf c hc ((State.MayHold.of_same us uf).mp hm))
    rw [c1 hh, this] at hl' ⊢
    exact ⟨Option.some.inj (hl'.symm.trans ul), uv⟩

/-- No actuation is RUNNING or CANCELLING after the end of one (R115). -/
theorem State.endActuation_rests (hl : s.loadedAt e = some l) {how : ActEnd}
    (h : (s.endActuation e how).loadedAt e = some l') (ha : l.act ≠ none) : l'.busy = false := by
  obtain ⟨a, ha⟩ := Option.ne_none_iff_exists'.mp ha
  obtain ⟨m, hm, E⟩ := State.endActuation_spec hl ha how
  rw [h] at hm; cases hm
  cases hh : l.hold with
  | some x =>
    cases hn : x.next with
    | none => rw [(E.quiet x hh hn).1]; rfl
    | some n =>
      by_cases hp : l.presence = .present
      · obtain ⟨⟨y, hy, hl'⟩, -⟩ := E.next x n hh hn hp
        rw [hl', hy]; rfl
      · rw [(E.dropped x n hh hn hp).1]; rfl
  | none =>
    obtain ⟨u, hu⟩ : ∃ u, u = (s.updLoaded e fun l => l.withoutAct s.timing.sensor).verdictFor a.slot e how.outcome a.request.tag :=
      ⟨_, rfl⟩
    have ul : u.loadedAt e = some (l.actRemoved a s.timing.sensor) := by rw [hu]; simp [hl, Loaded.withoutAct_eq ha]
    have hE : s.endActuation e how = u.grantSelection e := by
      unfold State.endActuation
      rw [hl, Option.bind_some, ha]
      dsimp only
      rw [← hu, (State.afterActuation_cases ul).1 hh]
    rw [hE] at h
    rcases u.grantSelection_cases e with hg | ⟨k, c, hk, -, -, -, hg⟩
    · rw [hg, ul] at h; cases h; rfl
    · have hk' : (u.updLoaded e fun l => { l with claims := l.claims.erase c }).loadedAt e =
          some { k with claims := k.claims.erase c } := by simp [hk]
      rw [hg, (State.grant_spec hk' c.slot c.request).1] at h
      cases h; rfl

/-! ### The end of an actuation within an answer -/

variable {u w : State}

/-- `ActuationEnds` speaks of slots, fields, verdicts, the sensor period and what is kept of the elements alone. -/
theorem ActuationEnds.transfer (h : ActuationEnds u t e l l' a o) (hs : u.slots = s.slots) (hf : u.fields = s.fields)
    (hv : u.link.verdicts = s.link.verdicts) (ht : u.timing = s.timing) (ho : ∀ k, k ≠ e → u.loadedAt k = s.loadedAt k)
    (ws : w.slots = t.slots) (wo : ∀ k, w.loadedAt k = t.loadedAt k) (wv : w.link.verdicts = t.link.verdicts) :
    ActuationEnds s w e l l' a o := by
  obtain ⟨h1, h2, h0, h3, h4, h5, h6, h7⟩ := h
  rw [ht] at h0
  rw [ht, hv, ← wv] at h3 h4 h5 h6 h7
  exact ⟨by rw [ws, h1, hs], fun k hk => by rw [wo, h2 k hk, ho k hk], h0, h3, h4, h5,
    fun b d c q1 q2 q3 q4 => h6 b d c q1 q2 q3 ((State.Picks.of_same hs hf).mpr q4),
    fun q1 q2 => h7 q1 (q2.imp id fun q c hc hm => q c hc ((State.MayHold.of_same hs hf).mp hm))⟩

/-- While the pair rests the bus arbiter starts nothing, and changes the probe turn alone (R128, R138). -/
theorem State.settle_rest (h : s.bus.activity = .rest) : (∀ k, s.settle.loadedAt k = s.loadedAt k) ∧
    s.settle.slots = s.slots ∧ s.settle.link = s.link ∧ s.settle.mgmt = s.mgmt ∧ s.settle.bus.activity = .rest ∧
    s.settle.bus.safeQueue = s.bus.safeQueue := by
  have : s.settle = s.clearIdleTurn := by
    unfold State.settle State.arbitrate
    rw [if_neg]
    rintro ⟨-, h2⟩
    unfold State.clearIdleTurn at h2
    split at h2 <;> simp [h] at h2
  rw [this]
  unfold State.clearIdleTurn
  split <;> simp [h]

/-- The state in which the answer to a transaction with element `e` is acted on: the pair rests, and the miss count is 0
(R123, R125). -/
def State.heardFrom (s : State) (e : ElementId) : State := s.restPair.setMisses e 0

theorem State.heardFrom_spec (hl : s.loadedAt e = some l) : (s.heardFrom e).loadedAt e = some { l with misses := 0 } ∧
    (∀ k, k ≠ e → (s.heardFrom e).loadedAt k = s.loadedAt k) ∧ (s.heardFrom e).bus = { s.bus with activity := .rest } ∧
    (s.heardFrom e).slots = s.slots ∧ (s.heardFrom e).fields = s.fields ∧ (s.heardFrom e).link = s.link ∧
    (s.heardFrom e).mgmt = s.mgmt ∧ (s.heardFrom e).timing = s.timing :=
  ⟨by simp [State.heardFrom, State.setMisses, hl], fun k hk => by simp [State.heardFrom, State.setMisses, hk],
    by simp [State.heardFrom, State.setMisses, State.restPair], by simp [State.heardFrom, State.setMisses, State.restPair],
    by simp [State.heardFrom, State.setMisses, State.restPair], by simp [State.heardFrom, State.setMisses, State.restPair],
    by simp [State.heardFrom, State.setMisses, State.restPair], by simp [State.heardFrom, State.setMisses, State.restPair]⟩

/-- The edge that completes an answer has it acted on, and the bus arbiter chooses (R123, R125, R126). -/
theorem AnswerEnds.run {k : BusCommand} {edge : BusEdge} {r : Transaction} {chars : List BusChar} {st : Status}
    {payload : List Byte} (h : AnswerEnds s k edge r chars l st payload) :
    s.completeAnswer k edge = ((s.heardFrom r.element).answered r.element l k st payload).settle := by
  obtain ⟨c, hc, hd, hp⟩ := h.answer
  rw [State.completeAnswer_eq h.flight h.stage h.command hc hd]
  unfold State.answerReceived
  dsimp only
  rw [if_pos hd]
  unfold State.endTransaction
  rw [h.live, h.command, hp]
  simp only [Bool.false_eq_true, if_false]
  unfold State.actOnAnswer
  rw [State.restPair_loadedAt, h.loaded]
  rfl

/-- The end of an actuation, and the bus arbiter's choice, after what else an answer does to its element (R115, R128). -/
theorem State.endActuation_settled {m : Loaded} (hb : u.bus.activity = .rest) (hm : u.loadedAt e = some m)
    (ha : m.act = some a) (how : ActEnd) (ho : ∀ k, k ≠ e → u.loadedAt k = s.loadedAt k) (hs : u.slots = s.slots)
    (hf : u.fields = s.fields) (hl : u.link = s.link) (ht : u.timing = s.timing) :
    ∃ l', (u.endActuation e how).settle.loadedAt e = some l' ∧
      ActuationEnds s (u.endActuation e how).settle e m l' a how.outcome := by
  obtain ⟨l', q1, q2⟩ := State.endActuation_spec hm ha how
  have qb : (u.endActuation e how).bus.activity = .rest := by rw [(ArbiterKeeps.endActuation u e how).bus, hb]
  obtain ⟨z1, z2, z3, -⟩ := State.settle_rest qb
  exact ⟨l', by rw [z1]; exact q1, q2.transfer hs hf (by rw [hl]) ht ho z2 z1 (by rw [z3])⟩

end Sys2Proof.Machine
end

