-- ==== Sys2Proof/Laws/Stops.lean ====
section
/-! SUPPORT. What the shutting and safing of fields, by a stop or an abort, does to the claims, holds and actuations of every
element, to the verdict queue and to the SAFE queue (R27, R61, R66, R105, R109, R139). -/

namespace Sys2Proof.Machine

open Sys2Proof

variable {s t u : State} {g : FieldId} {fs gs : List FieldId} {e : ElementId} {i : SlotId} {r : Reason}

/-! ### Safing (R109, R139) -/

/-- The element is one of field `g` that is PRESENT and has no SAFE pending: it joins the SAFE queue when its field is safed
(R139). -/
def State.joins (s : State) (g : FieldId) (e : ElementId) : Bool :=
  decide (e ∉ s.bus.safeQueue) && (s.loadedAt e).any fun l => l.entry.field == g && l.presence == .present

/-- A safed element's actuation is CANCELLING when it was RUNNING or sent; its queue, hold, entry and presence stay (R109). -/
theorem Loaded.safed_spec (l : Loaded) (n : Nat) :
    (l.safed n).claims = l.claims ∧ (l.safed n).hold = l.hold ∧ (l.safed n).busSide = l.busSide ∧
      ∀ a, l.act = some a → a.state ≠ .waitingBus ∨ a.sent = true →
        (l.safed n).act = some { a with state := .cancelling, running := if a.state = .waitingBus then 0 else a.running } := by
  unfold Loaded.safed
  split
  · next h => exact ⟨rfl, rfl, rfl, fun a ha => by rw [h] at ha; cases ha⟩
  · next b h =>
    split
    · next hs => exact ⟨rfl, rfl, rfl, fun a ha _ => by rw [h] at ha; cases ha; simp [hs]⟩
    · next hs _ => exact ⟨rfl, rfl, rfl, fun a ha _ => by rw [h] at ha; cases ha; simp [hs]⟩
    · next hs hn => exact ⟨rfl, rfl, rfl, fun a ha hg => by rw [h] at ha; cases ha; simp_all⟩
    · next hs => exact ⟨rfl, rfl, rfl, fun a ha _ => by rw [h] at ha; cases ha; rw [h]; rcases b with ⟨_, _, b, _, _⟩; cases hs; rfl⟩

/-- The safing of one element (R109, R139). -/
theorem State.safeElement_spec (s : State) (g : FieldId) (e : ElementId) :
    s.safeElement g e = { s with elements := (s.safeElement g e).elements, bus := (s.safeElement g e).bus } ∧
    (s.safeElement g e).bus.safeQueue = s.bus.safeQueue ++ (if s.joins g e then [e] else []) ∧
    (∀ k, k ≠ e → (s.safeElement g e).loadedAt k = s.loadedAt k) ∧
    (s.safeElement g e).loadedAt e = (s.loadedAt e).map fun l =>
      if l.entry.field = g then
        ({ l with retries := if s.joins g e then 0 else l.retries } : Loaded).safed s.timing.actionPoll
      else l := by
  unfold State.safeElement
  cases hl : s.loadedAt e with
  | none => exact ⟨rfl, by simp [State.joins, hl], fun _ _ => rfl, hl⟩
  | some l =>
    dsimp only
    have hp : s.safePending e = decide (e ∈ s.bus.safeQueue) := by simp [State.safePending, List.contains_eq_mem]
    by_cases hf : l.entry.field = g
    · rw [if_pos hf]
      have hj : s.joins g e = (decide (l.presence = .present) && !s.safePending e) := by
        simp [State.joins, hl, hf, hp, Bool.and_comm, beq_eq_decide]
      unfold State.safeIfPresent State.queueSafe
      by_cases h1 : l.presence = .present
      · cases h2 : s.safePending e with
        | true => simp [hj, h1, h2, hl, hf]; exact ⟨rfl, fun k hk => by simp [hk], by rw [← h1]⟩
        | false =>
          simp [hj, h1, h2, hl, hf]
          refine ⟨rfl, fun k hk => by simp [hk]⟩
      · simp [hj, h1, hl, hf]; exact ⟨rfl, fun k hk => by simp [hk]⟩
    · rw [if_neg hf]
      exact ⟨rfl, by simp [State.joins, hl, hf], fun _ _ => rfl, by simp [hl, hf]⟩

/-- The safing of a field: its PRESENT elements without a pending SAFE join the SAFE queue in ascending order with their retry
counts 0, and the actuations on its elements are cancelled (R109, R139). -/
theorem State.safeField_spec (s : State) (g : FieldId) :
    s.safeField g = { s with elements := (s.safeField g).elements, bus := (s.safeField g).bus } ∧
    (s.safeField g).bus.safeQueue = s.bus.safeQueue ++ (allOf 48).filter (s.joins g) ∧
    ∀ e, (s.safeField g).loadedAt e = (s.loadedAt e).map fun l =>
      if l.entry.field = g then
        ({ l with retries := if s.joins g e then 0 else l.retries } : Loaded).safed s.timing.actionPoll
      else l := by
  have aux : ∀ (es : List ElementId), es.Nodup → ∀ s : State, ∃ u, es.foldl (fun s e => s.safeElement g e) s = u ∧
      u = { s with elements := u.elements, bus := u.bus } ∧
      u.bus.safeQueue = s.bus.safeQueue ++ es.filter (s.joins g) ∧
      (∀ k, k ∉ es → u.loadedAt k = s.loadedAt k) ∧
      ∀ e ∈ es, u.loadedAt e = (s.loadedAt e).map fun l =>
        if l.entry.field = g then
          ({ l with retries := if s.joins g e then 0 else l.retries } : Loaded).safed s.timing.actionPoll
        else l := by
    intro es
    induction es with
    | nil => exact fun _ s => ⟨s, rfl, rfl, by simp, fun _ _ => rfl, fun e he => absurd he List.not_mem_nil⟩
    | cons k es ih =>
      intro hn s
      obtain ⟨hk, hn⟩ := List.nodup_cons.mp hn
      obtain ⟨a1, a2, a3, a4⟩ := s.safeElement_spec g k
      obtain ⟨u, u0, u1, u2, u3, u4⟩ := ih hn (s.safeElement g k)
      have hne : ∀ e ∈ es, e ≠ k := fun e he hx => hk (by rwa [← hx])
      have hj : ∀ e, e ≠ k → (s.safeElement g k).joins g e = s.joins g e := fun e he => by
        unfold State.joins
        rw [a2, a3 e he]
        split <;> simp [he]
      have ht : (s.safeElement g k).timing = s.timing := by rw [a1]
      refine ⟨u, by rw [List.foldl_cons]; exact u0, by rw [u1, a1], ?_, fun e he => ?_, fun e he => ?_⟩
      · rw [u2, a2, List.filter_congr fun e he => hj e (hne e he), List.filter_cons]
        split <;> simp
      · rw [List.mem_cons, not_or] at he
        rw [u3 e he.2, a3 e he.1]
      · rcases List.mem_cons.mp he with rfl | he
        · rw [u3 e hk, a4]
        · rw [u4 e he, a3 e (hne e he), hj e (hne e he), ht]
  obtain ⟨u, u0, u1, u2, -, u4⟩ := aux (allOf 48) (List.nodup_finRange 48) s
  have : s.safeField g = u := u0
  rw [this]
  exact ⟨u1, u2, fun e => u4 e (List.mem_finRange e)⟩

/-! ### The shutting of fields -/

/-- A loaded element without its actuation record: what Shrinks says of claims and holds alone. -/
def Loaded.bare (l : Loaded) : Loaded := { l with act := none }

/-- What the shutting of fields does, before the bus arbiter chooses: as FieldsShut, with what of claims, holds and the bus
side of every element it leaves. -/
structure ShutLaw (r : Reason) (fs : List FieldId) (s t : State) : Prop where
  slots : ∀ i, t.slots.at i =
    { s.slots.at i with outstanding := (t.slots.at i).outstanding, silent := (t.slots.at i).silent }
  others : ∀ g, g ∉ fs → t.fields.at g = s.fields.at g
  gates : ∀ i g, s.slotField i = some g → g ∈ fs → t.effectiveGate i = .off
  loaded : ∀ e l, s.loadedAt e = some l → ∃ m, t.loadedAt e = some m ∧ l.bare.Shrinks m.bare ∧
    m.busSide = { l.busSide with
      retries := if l.entry.field ∈ fs ∧ l.presence = .present ∧ e ∉ s.bus.safeQueue then 0 else l.retries } ∧
    (∀ a, l.act = some a → a.state ≠ .waitingBus ∨ a.sent = true → m.act = some (if l.entry.field ∈ fs then
      { a with state := .cancelling, running := if a.state = .waitingBus then 0 else a.running } else a)) ∧
    ((l.claims.map (·.slot)).Nodup → ∀ i, s.ShutWith fs i → m.freeOf i) ∧
    (∀ h, l.hold = some h → ¬ s.ShutWith fs h.slot → m.hold = some h) ∧
    ((∀ i, s.ShutWith fs i → l.freeOf i) → m.claims = l.claims ∧ m.hold = l.hold)
  empty : ∀ e, s.loadedAt e = none → t.loadedAt e = none
  reports : Reports (Taking r) s t
  released : ∀ e l h, s.loadedAt e = some l → l.hold = some h → s.ShutWith fs h.slot →
    Said t { slot := h.slot, element := elementByte e, outcome := .released r, tag := h.tag }
  withdrawn : ∀ e l, s.loadedAt e = some l → (l.claims.map (·.slot)).Nodup → ∀ c ∈ l.claims, s.ShutWith fs c.slot →
    s.OneFieldOn l c.slot →
    Said t { slot := c.slot, element := elementByte e, outcome := .withdrawn r, tag := c.request.tag }
  safeQueue : t.bus.safeQueue = s.bus.safeQueue ++ fs.flatMap fun g => (allOf 48).filter (s.joins g)

theorem Loaded.Shrinks.bare {l m : Loaded} (h : l.Shrinks m) : l.bare.Shrinks m.bare :=
  ⟨h.entry, h.claims, h.hold, fun _ ha => by cases ha⟩

theorem Loaded.freeOf_bare {l : Loaded} : l.bare.freeOf i ↔ l.freeOf i := Iff.rfl

theorem State.not_shutWith_nil : ¬ s.ShutWith [] i := fun h => by obtain ⟨g, hg, -⟩ := h; cases hg

/-- What shuts no field leaves everything. -/
theorem ShutLaw.refl (s : State) : ShutLaw r [] s s where
  slots _ := rfl
  others _ _ := rfl
  gates _ _ _ h := by cases h
  loaded e l hl := ⟨l, hl, .refl _, by simp [Loaded.busSide], fun a ha _ => by simpa using ha,
    fun _ i h => absurd h State.not_shutWith_nil, fun _ h _ => h, fun _ => ⟨rfl, rfl⟩⟩
  empty _ h := h
  reports := .refl s
  released _ _ _ _ _ h := absurd h State.not_shutWith_nil
  withdrawn _ _ _ _ _ _ h := absurd h State.not_shutWith_nil
  safeQueue := by simp

/-- A field whose new record turns every gate of its slots OFF: the gate-off events of its slots, and its safing (R27, R61,
R66, R105, R109). -/
theorem ShutLaw.shutField (s : State) (g : FieldId) (m : MatchRecord) (r : Reason)
    (hoff : ∀ i, s.slotField i = some g → (s.updField g fun _ => m).effectiveGate i = .off) :
    ShutLaw r [g] s (((s.updField g fun _ => m).gateOffEvents s r).safeField g) := by
  obtain ⟨v, hv⟩ : ∃ v, v = s.updField g fun _ => m := ⟨_, rfl⟩
  rw [← hv] at hoff ⊢
  have vl : ∀ e, v.loadedAt e = s.loadedAt e := fun e => by rw [hv]; rfl
  have vs : v.slots = s.slots := by rw [hv]; rfl
  have vf : ∀ k, k ≠ g → v.fields.at k = s.fields.at k := fun k hk => by rw [hv]; simp [hk]
  have vg : ∀ i, s.slotField i ≠ some g → v.gateOpen i = s.gateOpen i := fun i hi => by
    unfold State.slotField at hi
    unfold State.gateOpen State.effectiveGate
    rw [vs]
    cases hp : (s.slots.at i).placing with
    | none => rfl
    | some p => dsimp only; rw [vf p.field fun h => hi (by rw [hp, ← h]; rfl)]
  have closed : ∀ i, i ∈ v.gatesClosed s ↔ s.ShutWith [g] i := fun i => by
    simp only [State.gatesClosed, State.ShutWith, allOf, List.mem_filter, List.mem_finRange, true_and, Bool.and_eq_true,
      Bool.not_eq_true', List.mem_singleton, exists_eq_left]
    constructor
    · rintro ⟨h1, h2⟩
      refine ⟨?_, h1⟩
      by_contra hx
      rw [vg i hx, h1] at h2; cases h2
    · rintro ⟨h1, h2⟩
      exact ⟨h2, by unfold State.gateOpen; rw [hoff i h1]; rfl⟩
  have ha := SlotsTaken.gateOffEvents v s r
  have hk := ArbiterKeeps.gateOffEvents v s r
  have vb : v.bus.safeQueue = s.bus.safeQueue := by rw [hv]; rfl
  have vk : v.link = s.link := by rw [hv]; rfl
  obtain ⟨a, haa⟩ : ∃ a, a = v.gateOffEvents s r := ⟨_, rfl⟩
  rw [← haa] at ha hk ⊢
  obtain ⟨b1, b2, b3⟩ := a.safeField_spec g
  have side : ∀ e, (a.loadedAt e).map Loaded.busSide = (s.loadedAt e).map Loaded.busSide := fun e => by rw [hk.busSide, vl]
  have hj : ∀ k e, a.joins k e = s.joins k e := fun k e => by
    unfold State.joins
    rw [hk.bus, vb]
    have h := side e
    cases h1 : a.loadedAt e <;> cases h2 : s.loadedAt e <;> rw [h1, h2] at h <;> try cases h
    · simp only [Option.map_some, Option.some.injEq] at h
      have he := congrArg BusSide.entry h
      have hp := congrArg BusSide.presence h
      simp only [Loaded.busSide] at he hp
      simp [he, hp]
  have safedS : (a.safeField g).slots = a.slots := by rw [b1]
  have safedF : (a.safeField g).fields = a.fields := by rw [b1]
  have safedL : (a.safeField g).link = a.link := by rw [b1]
  have told : ∀ {x}, Said a x → Said (a.safeField g) x := fun h => h.later (P := fun _ => True) (.of_eq (by rw [safedL]))
  refine ⟨fun i => ?_, fun k hk' => ?_, fun i k hi hk' => ?_, fun e l hl => ?_, fun e he => ?_, ?_, ?_, ?_, ?_⟩
  · rw [safedS, hk.slots i, vs]
  · rw [safedF, hk.fields, vf k (by simpa using hk')]
  · rw [List.mem_singleton] at hk'
    subst hk'
    rw [← hoff i hi]
    unfold State.effectiveGate
    rw [safedS, safedF, hk.fields, hk.slots i]
  · obtain ⟨n, hn, sh⟩ := ha.shrinks e l ((vl e).trans hl)
    have hs := side e
    rw [hn, hl, Option.map_some, Option.map_some, Option.some.injEq] at hs
    have hp := congrArg BusSide.presence hs
    have hr := congrArg BusSide.retries hs
    simp only [Loaded.busSide] at hp hr
    have hnj : a.joins g e = decide (l.entry.field = g ∧ l.presence = .present ∧ e ∉ s.bus.safeQueue) := by
      rw [hj, Bool.eq_iff_iff]
      simp [State.joins, hl]
      exact ⟨fun ⟨x, y, z⟩ => ⟨y, z, x⟩, fun ⟨y, z, x⟩ => ⟨x, y, z⟩⟩
    by_cases hf : l.entry.field = g
    · obtain ⟨c1, c2, c3, c4⟩ := Loaded.safed_spec { n with retries := if a.joins g e then 0 else n.retries } a.timing.actionPoll
      refine ⟨_, by rw [b3 e, hn, Option.map_some, if_pos (by rw [sh.entry]; exact hf)], ⟨?_, ?_, ?_, ?_⟩, ?_, ?_, ?_, ?_, ?_⟩
      · show (Loaded.safed _ _).entry = _; rw [Loaded.safed_entry]; exact sh.entry
      · show (Loaded.safed _ _).claims.Sublist _; rw [c1]; exact sh.claims
      · intro h hh; exact sh.hold h (by rw [← c2]; exact hh)
      · intro _ h; cases h
      · rw [c3, hnj]
        have hs' := hs
        simp only [Loaded.busSide, BusSide.mk.injEq] at hs' ⊢
        simp [hs', hf]
      · intro x hx hgo
        rw [if_pos (List.mem_singleton.mpr hf)]
        exact c4 x (sh.act x hx hgo) hgo
      · intro hnd i hi
        have := ha.free i ((closed i).mpr hi) e l n ((vl e).trans hl) hn hnd
        exact ⟨fun c hc => this.1 c (by rw [← c1]; exact hc), fun h hh => this.2 h (by rw [← c2]; exact hh)⟩
      · intro h hh hno
        rw [c2]; exact ha.holds e l n h ((vl e).trans hl) hn hh fun hx => hno ((closed _).mp hx)
      · intro hfree
        have := ha.same e l ((vl e).trans hl) fun i hi => hfree i ((closed i).mp hi)
        rw [hn] at this; cases this
        exact ⟨c1, c2⟩
    · refine ⟨n, by rw [b3 e, hn, Option.map_some, if_neg (by rw [sh.entry]; exact hf)], sh.bare, ?_, ?_, ?_, ?_, ?_⟩
      · rw [hs]; simp [hf, Loaded.busSide]
      · intro x hx hgo
        rw [if_neg fun h => hf (List.mem_singleton.mp h)]; exact sh.act x hx hgo
      · intro hnd i hi
        exact ha.free i ((closed i).mpr hi) e l n ((vl e).trans hl) hn hnd
      · intro h hh hno
        exact ha.holds e l n h ((vl e).trans hl) hn hh fun hx => hno ((closed _).mp hx)
      · intro hfree
        have := ha.same e l ((vl e).trans hl) fun i hi => hfree i ((closed i).mp hi)
        rw [hn] at this; cases this
        exact ⟨rfl, rfl⟩
  · have := side e
    rw [he, Option.map_none, Option.map_eq_none_iff] at this
    rw [b3 e, this]; rfl
  · exact (Reports.trans (.of_eq (by rw [vk])) ha.reports).trans (.of_eq (by rw [safedL]))
  · intro e l h hl hh hi
    exact told (ha.released e l h ((vl e).trans hl) hh ((closed _).mpr hi))
  · intro e l hl hnd c hc hi _
    refine told (ha.withdrawn e l ((vl e).trans hl) hnd c hc ((closed _).mpr hi) fun hx => ?_)
    obtain ⟨k, hk', hf, -⟩ := hi
    rw [List.mem_singleton] at hk'; subst hk'
    have := hx.1
    unfold State.gateOpen at this
    rw [hoff _ hf] at this; cases this
  · rw [b2, hk.bus, vb]
    simp only [List.flatMap_cons, List.flatMap_nil, List.append_nil]
    rw [List.filter_congr fun e _ => hj g e]

/-- Two states that agree on slots but for outstanding counts and silent marks, on fields, elements, verdicts and SAFE queue:
what ShutLaw speaks of. -/
structure ShutSame (s t : State) : Prop where
  slots : ∀ i, t.slots.at i =
    { s.slots.at i with outstanding := (t.slots.at i).outstanding, silent := (t.slots.at i).silent }
  fields : t.fields = s.fields
  loaded : ∀ e, t.loadedAt e = s.loadedAt e
  verdicts : t.link.verdicts = s.link.verdicts
  safeQueue : t.bus.safeQueue = s.bus.safeQueue

theorem ShutSame.effectiveGate (h : ShutSame s t) (i : SlotId) : t.effectiveGate i = s.effectiveGate i := by
  unfold State.effectiveGate; rw [h.slots i, h.fields]

theorem ShutSame.gateOpen (h : ShutSame s t) (i : SlotId) : t.gateOpen i = s.gateOpen i := by
  unfold State.gateOpen; rw [h.effectiveGate]

theorem ShutSame.slotField (h : ShutSame s t) (i : SlotId) : t.slotField i = s.slotField i := by
  unfold State.slotField; rw [h.slots i]

theorem ShutSame.refl (s : State) : ShutSame s s := ⟨fun _ => rfl, rfl, fun _ => rfl, rfl, rfl⟩

theorem ShutSame.shutWith (h : ShutSame s t) (fs : List FieldId) (i : SlotId) : t.ShutWith fs i ↔ s.ShutWith fs i := by
  unfold State.ShutWith; simp only [h.slotField, h.gateOpen]

/-- A change of what ShutLaw does not speak of, after the shutting. -/
theorem ShutLaw.after (h : ShutLaw r fs s t) (k : ShutSame t u) : ShutLaw r fs s u where
  slots i := by rw [k.slots i, h.slots i]
  others g hg := by rw [k.fields]; exact h.others g hg
  gates i g hi hg := by rw [k.effectiveGate]; exact h.gates i g hi hg
  loaded e l hl := by simpa only [k.loaded] using h.loaded e l hl
  empty e he := by rw [k.loaded]; exact h.empty e he
  reports := h.reports.trans (.of_eq k.verdicts)
  released e l x hl hx hi := (h.released e l x hl hx hi).later (P := Taking r) (.of_eq k.verdicts)
  withdrawn e l hl hn c hc hi ho := (h.withdrawn e l hl hn c hc hi ho).later (P := Taking r) (.of_eq k.verdicts)
  safeQueue := by rw [k.safeQueue]; exact h.safeQueue

/-- A change of what ShutLaw does not speak of, before the shutting. -/
theorem ShutLaw.before (k : ShutSame s t) (h : ShutLaw r fs t u) : ShutLaw r fs s u := by
  have hj : ∀ g e, t.joins g e = s.joins g e := fun g e => by unfold State.joins; rw [k.safeQueue, k.loaded]
  refine ⟨fun i => by rw [h.slots i, k.slots i], fun g hg => by rw [← k.fields]; exact h.others g hg,
    fun i g hi hg => h.gates i g (by rw [k.slotField]; exact hi) hg, fun e l hl => ?_,
    fun e he => h.empty e (by rw [k.loaded]; exact he), (Reports.of_eq k.verdicts).trans h.reports,
    fun e l x hl hx hi => h.released e l x (by rw [k.loaded]; exact hl) hx ((k.shutWith fs _).mpr hi),
    fun e l hl hn c hc hi ho => h.withdrawn e l (by rw [k.loaded]; exact hl) hn c hc ((k.shutWith fs _).mpr hi)
      (by unfold State.OneFieldOn; simp only [k.slotField]; exact ho), ?_⟩
  · have := h.loaded e l (by rw [k.loaded]; exact hl)
    simpa only [k.shutWith, k.safeQueue] using this
  · rw [h.safeQueue, k.safeQueue, funext fun g => List.filter_congr fun e _ => hj g e]

/-- The shutting of some fields after that of others: fields shut one after another (R60, R61). -/
theorem ShutLaw.append (h : ShutLaw r fs s t) (k : ShutLaw r gs t u) (hd : ∀ g ∈ gs, g ∉ fs) :
    ShutLaw r (fs ++ gs) s u := by
  have sf : ∀ i, t.slotField i = s.slotField i := fun i => by unfold State.slotField; rw [h.slots i]
  have open_ : ∀ i, (∀ g, s.slotField i = some g → g ∉ fs) → t.gateOpen i = s.gateOpen i := fun i hi => by
    unfold State.slotField at hi
    unfold State.gateOpen State.effectiveGate
    rw [h.slots i]
    cases hp : (s.slots.at i).placing with
    | none => rfl
    | some p => dsimp only; rw [h.others p.field (hi p.field (by rw [hp]; rfl))]
  have shut : ∀ i, s.ShutWith (fs ++ gs) i ↔ s.ShutWith fs i ∨ t.ShutWith gs i := fun i => by
    unfold State.ShutWith
    constructor
    · rintro ⟨g, hg, hf, ho⟩
      rcases List.mem_append.mp hg with hg | hg
      · exact .inl ⟨g, hg, hf, ho⟩
      · refine .inr ⟨g, hg, by rw [sf]; exact hf, ?_⟩
        rw [open_ i fun x hx => by rw [hf] at hx; cases hx; exact hd g hg]; exact ho
    · rintro (⟨g, hg, hf, ho⟩ | ⟨g, hg, hf, ho⟩)
      · exact ⟨g, List.mem_append_left _ hg, hf, ho⟩
      · rw [sf] at hf
        rw [open_ i fun x hx => by rw [hf] at hx; cases hx; exact hd g hg] at ho
        exact ⟨g, List.mem_append_right _ hg, hf, ho⟩
  have side : ∀ e l m, s.loadedAt e = some l → t.loadedAt e = some m → m.entry = l.entry ∧ m.presence = l.presence ∧
      m.retries = if l.entry.field ∈ fs ∧ l.presence = .present ∧ e ∉ s.bus.safeQueue then 0 else l.retries := by
    intro e l m hl hm
    obtain ⟨m', hm', -, hb, -⟩ := h.loaded e l hl
    rw [hm] at hm'; cases hm'
    exact ⟨congrArg BusSide.entry hb, congrArg BusSide.presence hb, congrArg BusSide.retries hb⟩
  have queued : ∀ e l, s.loadedAt e = some l → l.entry.field ∉ fs → (e ∈ t.bus.safeQueue ↔ e ∈ s.bus.safeQueue) := by
    intro e l hl hf
    rw [h.safeQueue, List.mem_append, or_iff_left]
    rw [List.mem_flatMap]
    rintro ⟨g, hg, he⟩
    have hj := (List.mem_filter.mp he).2
    unfold State.joins at hj
    rw [hl] at hj
    simp only [Option.any_some, Bool.and_eq_true, beq_iff_eq] at hj
    exact hf (by rw [hj.2.1]; exact hg)
  refine ⟨fun i => by rw [k.slots i, h.slots i], fun g hg => ?_, fun i g hi hg => ?_, fun e l hl => ?_,
    fun e he => k.empty e (h.empty e he), h.reports.trans k.reports, fun e l x hl hx hi => ?_,
    fun e l hl hn c hc hi ho => ?_, ?_⟩
  · rw [List.mem_append, not_or] at hg
    rw [k.others g hg.2, h.others g hg.1]
  · rcases List.mem_append.mp hg with hg | hg
    · have h1 := h.gates i g hi hg
      by_cases hg' : g ∈ gs
      · exact absurd hg (hd g hg')
      · unfold State.slotField at hi
        unfold State.effectiveGate at h1 ⊢
        rw [k.slots i]
        have hp : (t.slots.at i).placing = (s.slots.at i).placing := by rw [h.slots i]
        rw [hp] at h1 ⊢
        cases hq : (s.slots.at i).placing with
        | none => rfl
        | some p =>
          rw [hq] at h1 hi
          simp only [Option.map_some, Option.some.injEq] at hi
          dsimp only at h1 ⊢
          rw [k.others p.field (by rw [hi]; exact hg')]; exact h1
    · exact k.gates i g (by rw [sf]; exact hi) hg
  · obtain ⟨m, hm, m1, m2, m3, m4, m5, m6⟩ := h.loaded e l hl
    obtain ⟨n, hn, n1, n2, n3, n4, n5, n6⟩ := k.loaded e m hm
    obtain ⟨he, hp, hr⟩ := side e l m hl hm
    rw [he] at n3
    refine ⟨n, hn, m1.trans n1, ?_, fun a ha hg => ?_, fun hnd i hi => ?_, fun x hx hi => ?_, fun hf => ?_⟩
    · rw [n2, m2, he, hp, hr]
      by_cases hf : l.entry.field ∈ fs
      · have hg : l.entry.field ∉ gs := fun hx => hd _ hx hf
        simp [hf, hg]
      · simp only [hf, queued e l hl hf, List.mem_append, false_or, false_and, if_false]
    · by_cases hf : l.entry.field ∈ fs
      · have := m3 a ha hg
        rw [if_pos hf] at this
        have := n3 _ this (.inl (by simp))
        rw [if_neg fun hx => hd _ hx hf] at this
        rw [if_pos (List.mem_append_left _ hf)]; exact this
      · have := m3 a ha hg
        rw [if_neg hf] at this
        have := n3 _ this hg
        rw [this]; simp [hf]
    · rcases (shut i).mp hi with hi | hi
      · exact Loaded.freeOf_bare.mp (n1.freeOf (Loaded.freeOf_bare.mpr (m4 hnd i hi)))
      · exact n4 (m1.nodup hnd) i hi
    · rw [shut, not_or] at hi
      exact n5 x (m5 x hx hi.1) hi.2
    · obtain ⟨c1, c2⟩ := m6 fun i hi => hf i ((shut i).mpr (.inl hi))
      obtain ⟨d1, d2⟩ := n6 fun i hi => by
        have := hf i ((shut i).mpr (.inr hi))
        unfold Loaded.freeOf at this ⊢; rw [c1, c2]; exact this
      exact ⟨d1.trans c1, d2.trans c2⟩
  · by_cases hs : s.ShutWith fs x.slot
    · exact (h.released e l x hl hx hs).later k.reports
    · obtain ⟨m, hm, -, -, -, -, m5, -⟩ := h.loaded e l hl
      exact k.released e m x hm (m5 x hx hs) (((shut _).mp hi).resolve_left hs)
  · by_cases hs : s.ShutWith fs c.slot
    · exact (h.withdrawn e l hl hn c hc hs ho).later k.reports
    · obtain ⟨m, hm, m1, -, -, -, -, m6⟩ := h.loaded e l hl
      have hi' := ((shut _).mp hi).resolve_left hs
      obtain ⟨c1, c2⟩ := m6 fun j hj => ho j fun hx => by
        obtain ⟨g, hg, hf, -⟩ := hi'
        obtain ⟨g', hg', hf', -⟩ := hj
        rw [sf, ← hx, hf'] at hf
        cases hf
        exact hd _ hg hg'
      refine k.withdrawn e m hm (m1.nodup hn) c (by rw [c1]; exact hc) hi' fun j hj => ?_
      rw [sf, sf] at hj
      have := ho j hj
      unfold Loaded.freeOf at this ⊢; rw [c1, c2]; exact this
  · rw [k.safeQueue, h.safeQueue, List.flatMap_append, List.append_assoc]
    have : ∀ g ∈ gs, (allOf 48).filter (t.joins g) = (allOf 48).filter (s.joins g) := fun g hg => by
      refine List.filter_congr fun e _ => ?_
      unfold State.joins
      cases hl : s.loadedAt e with
      | none => rw [h.empty e hl]; simp
      | some l =>
        obtain ⟨m, hm, -⟩ := h.loaded e l hl
        obtain ⟨he, hp, -⟩ := side e l m hl hm
        rw [hm]
        simp only [Option.any_some, he, hp]
        by_cases hf : l.entry.field = g
        · simp only [queued e l hl (by rw [hf]; exact hd g hg)]
        · have : (l.entry.field == g) = false := by simpa using hf
          simp only [this, Bool.false_and, Bool.and_false]
    rw [List.flatMap_congr this]

/-! ### The shutting as the statements say it -/

/-- The bus arbiter leaves an actuation that is sent or past WAITING-BUS, the element's queue and hold, and a retry count of 0
(R128, R130). -/
theorem State.settle_kept {l : Loaded} (h : s.loadedAt e = some l) : ∃ m, s.settle.loadedAt e = some m ∧
    m.claims = l.claims ∧ m.hold = l.hold ∧ (l.retries = 0 → m.retries = 0) ∧
    ∀ a, l.act = some a → a.state ≠ .waitingBus ∨ a.sent = true → m.act = some a := by
  rcases State.settle_get_due h with k | ⟨c, hf, k, -⟩
  · exact ⟨l, k, rfl, rfl, id, fun _ ha _ => ha⟩
  · refine ⟨_, k, (l.started_keeps c).1, (l.started_keeps c).2.1, fun h0 => ?_, fun a ha hg => ?_⟩
    · unfold Loaded.started
      split <;> try exact h0
      split
      · split <;> first | exact h0 | rfl
      · exact h0
    · have hd := hf.due
      cases c <;> try exact ha
      obtain ⟨-, -, -, b, hb, hw⟩ := hd
      rw [ha] at hb; cases hb
      have hs := hg.resolve_left fun hn => hn hw
      simp only [Loaded.started, ha, hs, if_true]

/-- What the shutting of fields comes to once the bus arbiter has chosen. -/
theorem ShutLaw.fieldsShut (h : ShutLaw r fs s t) (k : ShutSame t.settle u) : FieldsShut r fs s u := by
  have kv : u.link.verdicts = t.link.verdicts := by rw [k.verdicts, State.settle_link]
  have kg : ∀ i, u.effectiveGate i = t.effectiveGate i := fun i => by
    rw [k.effectiveGate]; unfold State.effectiveGate; rw [State.settle_slots, State.settle_fields]
  have loaded : ∀ e l, s.loadedAt e = some l → ∃ m n, t.loadedAt e = some m ∧ u.loadedAt e = some n ∧
      n.claims = m.claims ∧ n.hold = m.hold ∧ (m.retries = 0 → n.retries = 0) ∧
      ∀ a, m.act = some a → a.state ≠ .waitingBus ∨ a.sent = true → n.act = some a := fun e l hl => by
    obtain ⟨m, hm, -⟩ := h.loaded e l hl
    obtain ⟨n, hn, hk⟩ := State.settle_kept hm
    exact ⟨m, n, hm, by rw [k.loaded]; exact hn, hk⟩
  refine ⟨fun g hg i hi => ?_, ⟨fun hd e l n i hl hn hi => ?_, fun e l hl hf => ?_, fun _ hlen e l x hl hx => ⟨fun hi => ?_, ?_⟩,
    fun v hv => ?_⟩, fun hd hlen e l c hl hc hi => ?_, ?_, fun e l hl hf hp hq => ?_, fun e l a hl ha hg => ?_⟩
  · rw [kg]; exact h.gates i g hi hg
  · obtain ⟨m, n', hm, hn', c1, c2, -⟩ := loaded e l hl
    rw [hn] at hn'; cases hn'
    obtain ⟨m', hm', -, -, -, m4, -⟩ := h.loaded e l hl
    rw [hm] at hm'; cases hm'
    have := m4 (hd e l hl) i (hi.resolve_right List.not_mem_nil)
    unfold Loaded.freeOf at this ⊢; rw [c1, c2]; exact this
  · obtain ⟨m, n, hm, hn, c1, c2, -⟩ := loaded e l hl
    obtain ⟨m', hm', -, -, -, -, -, m6⟩ := h.loaded e l hl
    rw [hm] at hm'; cases hm'
    obtain ⟨d1, d2⟩ := m6 fun i hi => hf i (.inl hi)
    rw [hn, Option.map_some, c1, c2, d1, d2]
  · rw [kv] at hlen ⊢
    exact h.released e l x hl hx hi hlen
  · intro _ hi; cases hi
  · rw [kv] at hv
    rcases h.reports.only v hv with hv | hv | hv | hv | hv
    · exact .inl hv
    · exact .inr (.inl hv)
    · exact .inr (.inr (.inl hv))
    · exact .inr (.inr (.inr (.inl hv)))
    · exact .inr (.inr (.inr (.inr (.inl hv))))
  · rw [kv] at hlen ⊢
    exact h.withdrawn e l hl (hd e l hl) c hc hi.1 hi.2 hlen
  · rw [k.safeQueue, State.settle_safeQueue]; exact h.safeQueue
  · obtain ⟨m, n, hm, hn, -, -, c3, -⟩ := loaded e l hl
    obtain ⟨m', hm', -, m2, -⟩ := h.loaded e l hl
    rw [hm] at hm'; cases hm'
    have := congrArg BusSide.retries m2
    simp only [Loaded.busSide, hf, hp, hq, not_false_eq_true, and_self, if_true] at this
    rw [hn, Option.map_some, c3 this]
  · obtain ⟨m, n, hm, hn, -, -, -, c4⟩ := loaded e l hl
    obtain ⟨m', hm', -, -, m3, -⟩ := h.loaded e l hl
    rw [hm] at hm'; cases hm'
    rw [hn, Option.map_some, c4 _ (m3 a ha hg)]
    split
    · exact .inl (by simp)
    · exact hg

/-! ### The entry of fields to STOPPED (R60, R61) -/

/-- The urgent mark and a notice are no part of what ShutLaw speaks of. -/
theorem ShutSame.announced (s : State) (g : FieldId) (c : NoticeContent) : ShutSame s ((s.setUrgent g).queueNotice c) :=
  ⟨fun _ => rfl, rfl, fun _ => rfl, rfl, rfl⟩

/-- The entry of one field to STOPPED, before the bus arbiter chooses (R61). -/
theorem ShutLaw.enterStopped (s : State) (g : FieldId) (c : StopCause) : ShutLaw .stopped [g] s (s.enterStopped g c) := by
  have off : ∀ i, s.slotField i = some g →
      (s.updField g fun m => { m with stopped := some c }).effectiveGate i = .off := fun i hi => by
    unfold State.slotField at hi
    unfold State.effectiveGate
    rw [State.updField_slots]
    cases hp : (s.slots.at i).placing with
    | none => rfl
    | some p =>
      rw [hp, Option.map_some, Option.some.injEq] at hi
      simp [hi]
  have h := ShutLaw.shutField s g { s.fields.at g with stopped := some c } .stopped off
  have he : (s.updField g fun m => { m with stopped := some c }) =
      s.updField g fun _ => { s.fields.at g with stopped := some c } := rfl
  unfold State.enterStopped
  dsimp only
  rw [he]
  exact h.after (.announced _ g _)

/-- What the entry of fields to STOPPED does, before the bus arbiter chooses: as StopsEntered. -/
structure StopsLaw (entered : List (FieldId × StopCause)) (s t : State) : Prop where
  shut : ShutLaw .stopped (entered.map (·.1)) s t
  fields : ∀ x ∈ entered, t.fields.at x.1 = { s.fields.at x.1 with stopped := some x.2 } ∧ t.beacons.urgent.at x.1 = true
  others : ∀ g, g ∉ entered.map (·.1) → t.fields.at g = s.fields.at g ∧ t.beacons.urgent.at g = s.beacons.urgent.at g
  notices : s.mgmt.notices.length + entered.length ≤ 16 → t.mgmt.notices = s.mgmt.notices ++
    entered.mapIdx fun k x => { dropped := if k = 0 then s.mgmt.dropped else 0, content := .stop x.1 x.2 }

theorem State.enterStopped_mgmt (s : State) (g : FieldId) (c : StopCause) (h : s.mgmt.notices.length < 16) :
    (s.enterStopped g c).mgmt.notices = s.mgmt.notices ++ [{ dropped := s.mgmt.dropped, content := .stop g c }] ∧
      (s.enterStopped g c).mgmt.dropped = 0 := by
  have hm : ∀ v : State, ((v.gateOffEvents s .stopped).safeField g).mgmt = v.mgmt := fun v => by
    rw [(State.safeField_spec _ g).1]
    exact (ArbiterKeeps.gateOffEvents v s .stopped).mgmt
  unfold State.enterStopped State.queueNotice State.updMgmt
  dsimp only [State.setUrgent]
  rw [hm, State.updField_mgmt, Config.noticeCapacity, if_pos h]
  exact ⟨rfl, rfl⟩

/-- Fields that enter STOPPED one after another (R60, R61). -/
theorem StopsLaw.foldl : ∀ (entered : List (FieldId × StopCause)), (entered.map (·.1)).Nodup → ∀ s : State,
    StopsLaw entered s (entered.foldl (fun s x => s.enterStopped x.1 x.2) s) := by
  intro entered
  induction entered with
  | nil =>
    exact fun _ s => ⟨.refl s, fun _ h => absurd h List.not_mem_nil, fun _ _ => ⟨rfl, rfl⟩, fun _ => by simp⟩
  | cons x entered ih =>
    intro hn s
    rw [List.map_cons, List.nodup_cons] at hn
    obtain ⟨hx, hn⟩ := hn
    have k := ih hn (s.enterStopped x.1 x.2)
    rw [List.foldl_cons]
    refine ⟨(ShutLaw.enterStopped s x.1 x.2).append k.shut fun g hg hgx => ?_, fun y hy => ?_, fun g hg => ?_, fun hl => ?_⟩
    · rw [List.mem_singleton] at hgx
      exact hx (hgx ▸ hg)
    · rcases List.mem_cons.mp hy with rfl | hy
      · obtain ⟨k1, k2⟩ := k.others y.1 hx
        rw [k1, k2]; simp
      · obtain ⟨k1, k2⟩ := k.fields y hy
        have hne : y.1 ≠ x.1 := fun he => hx (he ▸ List.mem_map_of_mem hy)
        rw [k1, k2]; simp [hne]
    · rw [List.map_cons, List.mem_cons, not_or] at hg
      obtain ⟨k1, k2⟩ := k.others g hg.2
      rw [k1, k2]; simp [hg.1]
    · rw [List.length_cons] at hl
      obtain ⟨h1, h2⟩ := s.enterStopped_mgmt x.1 x.2 (by omega)
      rw [k.notices (by rw [h1]; simp; omega), h1, h2]
      simp [List.mapIdx_cons]

/-- What the entry of fields to STOPPED comes to once the bus arbiter has chosen. -/
theorem StopsLaw.stopsEntered {entered : List (FieldId × StopCause)} (h : StopsLaw entered s t) (k : ShutSame t.settle u)
    (hb : u.beacons = t.beacons) (hm : u.mgmt = t.mgmt) : StopsEntered entered s u where
  toFieldsShut := h.shut.fieldsShut k
  fields x hx := by rw [k.fields, State.settle_fields, hb]; exact h.fields x hx
  others g hg := by rw [k.fields, State.settle_fields, hb]; exact h.others g hg
  notices hl := by rw [hm]; exact h.notices hl

/-- Stops that reach fields one after another, each field once: those RUNNING in a stoppable phase enter STOPPED (R60, R62). -/
theorem State.foldl_stopField : ∀ (stops : List (FieldId × StopCause)), (stops.map (·.1)).Nodup → ∀ s : State,
    stops.foldl (fun s x => s.stopField x.1 x.2) s =
      (stops.filter fun x => (s.fields.at x.1).phase.stoppable && (s.fields.at x.1).stopped.isNone).foldl
        (fun s x => s.enterStopped x.1 x.2) s := by
  intro stops
  induction stops with
  | nil => intro _ s; rw [List.filter_nil, List.foldl_nil, List.foldl_nil]
  | cons x stops ih =>
    intro hn s
    rw [List.map_cons, List.nodup_cons] at hn
    obtain ⟨hx, hn⟩ := hn
    have hne : ∀ y ∈ stops, y.1 ≠ x.1 := fun y hy he => hx (he ▸ List.mem_map_of_mem hy)
    rw [List.foldl_cons, ih hn]
    have hf : ∀ y ∈ stops, (s.stopField x.1 x.2).fields.at y.1 = s.fields.at y.1 := fun y hy =>
      (FieldKeeps.stopField x.1 s x.2).fields y.1 (hne y hy)
    rw [List.filter_congr fun y hy => by rw [hf y hy]]
    unfold State.stopField
    by_cases h : (s.fields.at x.1).phase.stoppable = true ∧ (s.fields.at x.1).stopped = none
    · rw [if_pos h, List.filter_cons_of_pos (by simp [h]), List.foldl_cons]
    · rw [if_neg h, List.filter_cons_of_neg (by simpa [Option.isNone_iff_eq_none] using h)]

/-! ### What a change of lines leaves alone -/

theorem LineKeeps.refl (s : State) : LineKeeps s s :=
  ⟨rfl, rfl, fun _ => rfl, rfl, rfl, fun _ => rfl, fun _ => rfl, fun _ => rfl, rfl, rfl, rfl, rfl, rfl, rfl, rfl, rfl, rfl⟩

theorem LineKeeps.trans (h : LineKeeps s t) (k : LineKeeps t u) : LineKeeps s u where
  link := by rw [k.link, h.link]
  stations := k.stations.trans h.stations
  slots i := by rw [k.slots i, h.slots i]
  gate := k.gate.trans h.gate
  tallies := k.tallies.trans h.tallies
  rules e := (k.rules e).trans (h.rules e)
  eventCount e := (k.eventCount e).trans (h.eventCount e)
  entry e := (k.entry e).trans (h.entry e)
  busState := k.busState.trans h.busState
  probeLeft := k.probeLeft.trans h.probeLeft
  routine := k.routine.trans h.routine
  beaconLeft := k.beaconLeft.trans h.beaconLeft
  mgmt := by rw [k.mgmt, h.mgmt]
  timing := k.timing.trans h.timing
  budgetLeft := k.budgetLeft.trans h.budgetLeft
  loader := k.loader.trans h.loader
  pending := k.pending.trans h.pending

/-- An event of a field that marks no slot silent and clears no such mark is within what a change of lines may change. -/
theorem FieldKeeps.toLine (h : FieldKeeps g s t) (hs : ∀ i, (t.slots.at i).silent = (s.slots.at i).silent) : LineKeeps s t where
  link := h.link
  stations := h.stations
  slots i := by
    have h1 := h.slots i
    rw [hs i] at h1
    exact h1
  gate := h.gate
  tallies := h.tallies
  rules := h.rules
  eventCount := h.eventCount
  entry := h.entry
  busState := h.busState
  probeLeft := h.probeLeft
  routine := h.routine
  beaconLeft := h.beaconLeft
  mgmt := h.mgmt
  timing := h.timing
  budgetLeft := h.budgetLeft
  loader := h.loader
  pending := h.pending

theorem LineKeeps.settle (s : State) : LineKeeps s s.settle :=
  ((BusKeeps.settle s).toField 0).toLine fun i => by rw [State.settle_slots]

theorem LineKeeps.stopField (s : State) (g : FieldId) (c : StopCause) : LineKeeps s (s.stopField g c) := by
  refine (FieldKeeps.stopField g s c).toLine fun i => ?_
  unfold State.stopField
  split
  · obtain ⟨v, hv, hs⟩ : ∃ v : State, v = (s.updField g fun m => { m with stopped := some c }) ∧ v.slots = s.slots :=
      ⟨_, rfl, State.updField_slots _ _ _⟩
    unfold State.enterStopped
    dsimp only
    rw [← hv, State.queueNotice_slots, State.setUrgent_slots, (State.safeField_spec _ g).1,
      (ArbiterKeeps.gateOffEvents v s .stopped).silent i, hs]
  · rfl

theorem LineKeeps.resumeField (s : State) (g : FieldId) (c : ResumeSource) : LineKeeps s (s.resumeField g c) :=
  (FieldKeeps.resumeField g s c).toLine fun _ => rfl

/-- What changes only lines, pins, the sample countdown and the count of free values used. -/
theorem LineKeeps.ofLines (lines : Table 16 LineRecord) (pins : Table 16 Level) (left : Option Nat) (choices : Nat) :
    LineKeeps s { s with lines, pins, sampleLeft := left, choices } :=
  { LineKeeps.refl s with }

end Sys2Proof.Machine
end

