-- ==== Sys2Proof/WellFormed.lean ====
section
/-! DEFINITION. What makes a command well-formed: each operand lies in the range its row gives it. Fields,
slots, elements and lines are in range by their types. -/

namespace Sys2Proof

/-- The size of the settings memory's 24-bit address space in bytes (R192). -/
def memorySpace : Nat := 2 ^ 24

/-- A command is well-formed when an OVERLONG length byte is above 48 (R7) and a settings image fits the
24-bit address space of the settings memory (R192). Every other operand is in range by its type. -/
def Instr.wellFormed : Instr → Bool
  | .overlong b => 48 < b.toNat
  | .endOfStarting image _ => image.length ≤ memorySpace
  | _ => true

/-- The proposition form of `Instr.wellFormed`. -/
abbrev Instr.WellFormed (i : Instr) : Prop := i.wellFormed = true

end Sys2Proof
end

