-- ==== Sys2Proof/Tests/Slice0.lean ====
section
/-! SUPPORT. Tests and witnesses. A `test_` theorem checks one value worked out from the manual, not from the model; a
`witness_` theorem gives a state and operands that meet the hypotheses of the statement it is named after, clause by
clause and at the ends of the ranges. -/

namespace Sys2Proof.Tests

open Sys2Proof Sys2Proof.Machine

/-! ### States -/

/-- The command answers a next state of which `p` holds. -/
def after (c : Instr) (s : State) (p : State → Bool) : Bool :=
  match exec c s with
  | .next t => p t
  | .fault _ | .refused _ => false

theorem after_spec {c : Instr} {s : State} {p : State → Bool} (h : after c s p = true) :
    ∃ t, exec c s = .next t ∧ p t = true := by
  unfold after at h
  split at h
  · exact ⟨_, ‹_›, h⟩
  · cases h
  · cases h

/-- A COMMISSIONED part with its bus RUNNING and its tables empty. -/
def ready : State :=
  { State.reset with
    mgmt := { State.reset.mgmt with mode := .commissioned }
    bus := { State.reset.bus with state := .running }
    loader := .finished }

/-- A frame alone in the receive store. -/
def withHead (s : State) (f : Frame) : State := { s with link := { s.link with store := [f] } }

/-- A MANAGE frame from the console. -/
def manage (code : Byte) (operands : List Byte) : Frame :=
  { dst := 0xF0#8, src := 0xFA#8, kind := 0x40#8, seq := 7#8, payload := code :: operands }

/-- A frame from the robot of slot 2. -/
def robot (kind : Byte) (payload : List Byte) : Frame :=
  { dst := 0xF0#8, src := 0x05#8, kind, seq := 9#8, payload }

/-- A frame from the driver station of slot 2. -/
def driver (kind : Byte) (payload : List Byte) : Frame :=
  { dst := 0xFF#8, src := 0x85#8, kind, seq := 128#8, payload }

/-- A match of field B in a phase: match 7, A 15.0 s, no pause, T 135.0 s, E 30.0 s, slot 2 as East 1. -/
def matchIn (p : Phase) (stop : Option StopCause) : MatchRecord :=
  { MatchRecord.afterReset with
    number := 7, durA := 150, durT := 1350, durE := 300, list := (Table.fill 6 none).put 0 (some 2), phase := p
    stopped := stop, remaining := 100000, grace := 3000 }

/-- An element entry of field B: SHARED, BOTH, action 0, every phase. -/
def entry : ElementEntry :=
  { busAddr := 9#8, field := 1, owner := .shared, kind := .both, actionMask := 0x81#8, phaseMask := 7#3,
    holdLimit := 3000, coolDown := 500, actionLimit := 2000, discipline := .fifo }

/-- A PRESENT element with that entry and nothing else. -/
def idle : Loaded := { Loaded.fresh entry with presence := .present }

/-- A hold of slot 2. -/
def hold : Hold := { slot := 2, tag := 0x33#8, remaining := 3000, next := none }

/-- An actuation for slot 2. -/
def acting (st : ActState) : Actuation :=
  { slot := 2, request := { action := 0#8, argument := 1#8, tag := 0x33#8 }, state := st, sent := true, running := 5 }

/-- A PAUSED bus and a match in a phase: robot 448 in slot 2 with both stations, the element `l` as element 3. -/
def arena (p : Phase) (stop : Option StopCause) (l : Loaded) : State :=
  { ready with
    stations := [{ addr := 0x05#8, slot := 2, role := .robot, acceptTwin := true },
                 { addr := 0x85#8, slot := 2, role := .driver, acceptTwin := false }]
    slots := ready.slots.put 2 { Slot.free with
      team := 448, placing := some { field := 1, alliance := .east, position := 1 }, ceiling := 512, refill := 20, credit := 512 }
    fields := ready.fields.put 1 (matchIn p stop)
    elements := ready.elements.put 3 { Element.empty with loaded := some l }
    bus := { ready.bus with state := .paused } }

/-- The arena with a change of slot 2. -/
def slotIn (p : Phase) (g : Slot → Slot) : State := (arena p none idle).updSlot 2 g

/-- Every loaded element of the state satisfies `p`. -/
def allLoaded (s : State) (p : ElementId → Loaded → Bool) : Bool := (allOf 48).all fun e => (s.loadedAt e).all (p e)

theorem allLoaded_spec {s : State} {p : ElementId → Loaded → Bool} (h : allLoaded s p = true) (e : ElementId) (l : Loaded)
    (hl : s.loadedAt e = some l) : p e l = true := by
  have := List.all_eq_true.mp h e (List.mem_finRange e)
  rw [hl] at this
  exact this

/-- The Management Agent of the state answers the console's frame. -/
def answers (s : State) : Bool :=
  s.mgmt.mode != .starting && s.link.console == 0xFA#8 && s.link.own == 0xF0#8 && !s.mgmt.restartPending &&
    decide (s.link.replies.length < 4)

theorem commandReady (s : State) (code : Byte) (ops : List Byte) (h : answers s = true) :
    CommandReady (withHead s (manage code ops)) (manage code ops) [] code ops := by
  simp only [answers, Bool.and_eq_true, bne_iff_ne, beq_iff_eq, Bool.not_eq_true', decide_eq_true_eq] at h
  obtain ⟨⟨⟨⟨h1, h2⟩, h3⟩, h4⟩, h5⟩ := h
  exact ⟨⟨h1, rfl, h2.symm, .inl h3.symm, rfl, rfl⟩, h4, h5⟩

/-- The stations of the arena are in force. -/
def stationed (s : State) : Bool :=
  s.mgmt.mode != .starting && s.link.console == 0xFA#8 && s.stations == (arena .pre none idle).stations

theorem robotFrame (s : State) (kind : Byte) (payload : List Byte) (hk : kind ≠ 0x40#8) (h : stationed s = true) :
    RobotFrame (withHead s (robot kind payload)) (robot kind payload) [] 2 .primary := by
  simp only [stationed, Bool.and_eq_true, bne_iff_ne, beq_iff_eq] at h
  obtain ⟨⟨h1, h2⟩, h3⟩ := h
  refine ⟨h1, rfl, rfl, ?_, hk, ?_⟩
  · show (0x05#8 : Byte) ≠ s.link.console
    rw [h2]; decide
  · refine ⟨{ addr := 0x05#8, slot := 2, role := .robot, acceptTwin := true }, ?_, rfl, rfl⟩
    show findStation s.stations 0x05#8 = _
    rw [h3]; rfl

theorem driverFrame (s : State) (kind : Byte) (payload : List Byte) (hk : kind ≠ 0x40#8) (h : stationed s = true) :
    DriverFrame (withHead s (driver kind payload)) (driver kind payload) [] 2 := by
  simp only [stationed, Bool.and_eq_true, bne_iff_ne, beq_iff_eq] at h
  obtain ⟨⟨h1, h2⟩, h3⟩ := h
  refine ⟨h1, rfl, rfl, ?_, hk, ?_⟩
  · show (0x85#8 : Byte) ≠ s.link.console
    rw [h2]; decide
  · refine ⟨{ addr := 0x85#8, slot := 2, role := .driver, acceptTwin := false }, .primary, ?_, rfl, rfl⟩
    show findStation s.stations 0x85#8 = _
    rw [h3]; rfl

/-! ### Well-formedness, checks, characters -/

/-- A length byte of 48 is no OVERLONG (R7). -/
theorem test_wellFormed_refuses_short_overlong : ¬ (Instr.overlong 48#8).WellFormed := by decide

/-- No settings image is longer than the 24-bit address space (R192). -/
theorem test_wellFormed_refuses_long_image (image : List Byte) (h : 2 ^ 24 < image.length) :
    ¬ (Instr.endOfStarting image true).WellFormed := by
  intro hw
  have : image.length ≤ 2 ^ 24 := of_decide_eq_true hw
  omega

/-- The check of the digits 1 to 9 with the polynomial and start value of R4 is 0x29B1. -/
theorem test_linkCheck : linkCheck [0x31, 0x32, 0x33, 0x34, 0x35, 0x36, 0x37, 0x38, 0x39] = 0x29B1#16 := by decide +kernel

/-- The check of the digits 1 to 9 with the polynomial and start value of R121 is 0xF4. -/
theorem test_busCheck : busCheck [0x31, 0x32, 0x33, 0x34, 0x35, 0x36, 0x37, 0x38, 0x39] = 0xF4#8 := by decide +kernel

/-! ### Witnesses: steps, reset, the end of STARTING -/

/-- A command waits. -/
theorem witness_StepRunsFrontCommand :
    ({ ready with pending := [.commission, .start] } : State).pending = .commission :: [.start] := rfl

/-- No command waits and a frame is in the store. -/
theorem witness_IdleStepTakesHeadFrame : (withHead ready (manage 0x01 [])).pending = [] ∧
    (withHead ready (manage 0x01 [])).link.store = manage 0x01 [] :: [] := ⟨rfl, rfl⟩

/-- A millisecond of a running match with a hold, a running actuation, a SILENT slot's neighbours and every countdown of the
element bus at `n`, in which no other event falls. -/
def between (n : Nat) : State :=
  { arena .endgame none { idle with
      hold := some { hold with remaining := 2 }, act := some { acting .running with running := 1999 }
      lastRelease := some { slot := 2, since := 65535 }, actionPoll := some n, sensor := some n, resend := some n } with
    bus := { ready.bus with state := .paused, probeLeft := some n }
    sampleLeft := some 2, budgetLeft := some 2 }

/-- Every countdown at its last millisecond, and every countdown one before it. -/
theorem witness_MillisecondMovesCounters : (∀ n ∈ [1, 2], (between n).pending = [] ∧ (between n).link.store = [] ∧
      (between n).nextTake = none ∧ (between n).mgmt.mode ≠ .starting ∧ ∀ m ∈ allMoments, m.comes (between n) = false) ∧
    ((between 1).bus.probeLeft = some 1 ∧ ∃ l, (between 1).loadedAt 3 = some l ∧ l.resend = some 1) ∧
    ((between 2).bus.probeLeft ≠ some 1 ∧ ∀ e l, (between 2).loadedAt e = some l →
      l.resend ≠ some 1 ∧ l.actionPoll ≠ some 1 ∧ l.sensor ≠ some 1) := by
  refine ⟨by decide +kernel, ⟨rfl, _, rfl, rfl⟩, by decide, fun e l h => ?_⟩
  have := allLoaded_spec (s := between 2) (p := fun _ l => l.resend != some 1 && l.actionPoll != some 1 && l.sensor != some 1)
    (by decide +kernel) e l h
  simpa [and_assoc] using this

/-- An image's bytes with its check. -/
def imageOf (b : List Byte) : List Byte := b ++ linkCheckBytes b

/-- A head of an image of the given length: the default addresses, 1 Mbit/s, the default timings. -/
def imageHead (length : Byte) : List Byte :=
  [0xC4, 0x48, 0, length, 0xF0, 0xFA, 1, 4, 4, 0x03, 0xE8, 0, 100, 0x01, 0xF4, 0x0B, 0xB8, 20, 50, 0, 200, 4] ++
    List.replicate 16 0x11

/-- An image of one element entry, SHARED, with one rule of the given beneficiary. -/
def oneEntry (beneficiary : Byte) : List Byte :=
  imageHead 68 ++ [3, 9, 1, 2, 3, 1, 7, 0x0B, 0xB8, 0x01, 0xF4, 0x07, 0xD0, 0] ++ [beneficiary, 5, 3, 10] ++
    [0xFF, 0, 0, 0, 0xFF, 0, 0, 0, 0xFF, 0, 0, 0]

/-- The Settings Loader at a stage of the reading. -/
def reading (stage : LoaderStage) : State := { State.reset with loader := { stage, buffer := [] } }

/-- All the bytes of an image with an error in its last check byte. -/
def wholeRead (error : Byte) : List Byte :=
  (imageOf (imageHead 38)).dropLast ++ [(imageOf (imageHead 38)).getLastD 0 + error]

/-- The four bytes of the read command, the image, and the two ways to end; a byte that fails each test of R193, bytes after
which the reading goes on, and a last check byte that matches and one that does not. -/
theorem witness_ImageValidity :
    (∀ k, (reading k).pending = [] ∧ (reading k).link.store = [] ∧ (reading k).nextTake = none ∧ (reading k).mgmt.mode = .starting ∧
      (reading k).loader.stage = k) ∧
    ([0xC4#8] ++ [0x49#8] ≠ [0xC4#8, 0x48#8] ∧ ¬ ∃ n, n ≤ 48 ∧ nat16 (([0xC4#8, 0x48, 0] ++ [39#8]).getD 2 0) (([0xC4#8, 0x48, 0] ++ [39#8]).getD 3 0) = 38 + 30 * n) ∧
    (∃ n, n ≤ 48 ∧ nat16 (([0xC4#8, 0x48, 0x05] ++ [0xC6#8]).getD 2 0) (([0xC4#8, 0x48, 0x05] ++ [0xC6#8]).getD 3 0) = 38 + 30 * n) ∧
    ((wholeRead 0).take 2 = [0xC4#8, 0x48#8] ∧ nat16 ((wholeRead 0).getD 2 0) ((wholeRead 0).getD 3 0) = 38 + 30 * 0 ∧
      (wholeRead 0).length = nat16 ((wholeRead 0).getD 2 0) ((wholeRead 0).getD 3 0) + 2 ∧
      (wholeRead 0).drop ((wholeRead 0).length - 2) = linkCheckBytes ((wholeRead 0).take ((wholeRead 0).length - 2))) ∧
    (wholeRead 1).drop ((wholeRead 1).length - 2) ≠ linkCheckBytes ((wholeRead 1).take ((wholeRead 1).length - 2)) := by
  refine ⟨fun _ => ⟨rfl, rfl, rfl, rfl, rfl⟩, ⟨by decide, ?_⟩, ⟨48, by decide, by decide⟩, by decide +kernel, by decide +kernel⟩
  rintro ⟨n, _, h⟩
  have : nat16 (([0xC4#8, 0x48, 0] ++ [39#8]).getD 2 0) (([0xC4#8, 0x48, 0] ++ [39#8]).getD 3 0) = 39 := by decide
  omega

/-- A memory with no image leaves the defaults, and so does a reading that has failed. -/
theorem witness_EndOfStartingDefaults :
    (State.reset.mgmt.mode = .starting ∧ State.reset.loader.stage ≠ .inReset ∧
      validImage (State.reset.loader.buffer ++ []) 0xFF = none ∧ State.reset.mgmt.notices.length < 16) ∧
    ((reading .failed).mgmt.mode = .starting ∧ (reading .failed).loader.stage = .failed) := by decide +kernel

/-- The rules of an image entry, the first with a beneficiary and points, the last with another. -/
def entryRules (first last : Byte) : List Byte :=
  [first, 5, 100, 10] ++ [0xFF, 0, 0, 0] ++ [0xFF, 0, 0, 0] ++ [last, 0, 0, 0]

/-- A state whose element 3 is loaded with bus address 9. -/
def loadedThree : State := { State.reset with elements := State.reset.elements.put 3 { Element.empty with loaded := some idle } }

set_option maxRecDepth 100000 in
/-- A head alone and a head with an entry; one entry for each reason to skip it, at the ends of the
ranges, and one that is loaded. -/
theorem witness_EndOfStartingAppliesImage :
    (State.reset.mgmt.mode = .starting ∧ State.reset.loader.stage ≠ .inReset ∧ State.reset.loader.stage ≠ .failed ∧
      State.reset.mgmt.notices.length < 16 ∧
      validImage (State.reset.loader.buffer ++ imageOf (imageHead 38)) 0x00 = some (imageHead 38) ∧
      validImage (State.reset.loader.buffer ++ imageOf (oneEntry 3)) 0x00 = some (oneEntry 3)) ∧
    ((entryRules 3 0xFF).length = 16 ∧ 48 ≤ (48#8).toNat ∧ (0#8).toNat = 0 ∧ 63 < (64#8).toNat ∧ 4 ≤ (4#8).toNat ∧
      ownerOf 3 = none ∧ kindOf 0 = none ∧ 8 ≤ (8#8).toNat ∧ disciplineOf 2 = none ∧ (kindOf 1 = some .sensing ∧ 1#8 ≠ 0) ∧
      (kindOf 3 ≠ some .sensing ∧ 0#8 = 0) ∧
      (5 ≤ ((entryRules 3 5).getD (4 * (3 : Fin 4).val) 0).toNat ∧ (entryRules 3 5).getD (4 * (3 : Fin 4).val) 0 ≠ 0xFF#8) ∧
      (ownerOf 2 = some .shared ∧ ((entryRules 1 0xFF).getD (4 * (0 : Fin 4).val) 0).toNat ≤ 1) ∧
      (3#8 = elementByte 3 ∧ loadedThree.loadedAt 3 = some idle) ∧
      (47#8 = elementByte 47 ∧ (3 : ElementId) ≠ 47 ∧ loadedThree.loadedAt 3 = some idle ∧ idle.entry.busAddr = 9#8)) ∧
    (47#8 = elementByte 47 ∧ (63#8).toNat ≤ 63 ∧ fieldOf 3 = some 3 ∧ ownerOf 2 = some .shared ∧ kindOf 3 = some .both ∧
      (7#8).toNat < 8 ∧ disciplineOf 1 = some .alternate ∧ (0x80#8 ≠ 0 ∧ 7#8 ≠ 0) ∧
      (∀ j : Fin 4, (entryRules 4 2).getD (4 * j.val) 0 = 0xFF#8 ∨ ((entryRules 4 2).getD (4 * j.val) 0).toNat ≤ 4) ∧
      (∀ j : Fin 4, 2 ≤ ((entryRules 4 2).getD (4 * j.val) 0).toNat) ∧ loadedThree.loadedAt 47 = none ∧
      ∀ k l, loadedThree.loadedAt k = some l → l.entry.busAddr ≠ 63#8) := by
  refine ⟨by decide +kernel, by decide, rfl, by decide, rfl, rfl, rfl, by decide, rfl, by decide, by decide, by decide, rfl, fun k l h => ?_⟩
  simpa using allLoaded_spec (s := loadedThree) (p := fun _ l => l.entry.busAddr != 63#8) (by decide +kernel) k l h

/-! ### Witnesses: the receive line -/

/-- A frame of the longest payload, and one free place in the store. -/
def longest : Frame := { manage 0x01 [] with payload := List.replicate 48 0xA5#8 }

/-- The receiver inside a frame. -/
def receiving (s : State) (got : List Byte) : State := { s with link := { s.link with receiver := .inFrame got } }

/-- The store with `n` frames. -/
def stored (n : Nat) : State := { ready with link := { ready.link with store := List.replicate n longest } }

/-- A break has ended: its missing stop bit holds off the next start bit. -/
def broken (s : State) : State := { s with link := { s.link with breakHold := true } }

/-- Characters without a rest between them, and one that follows the rest after a break. -/
theorem witness_FrameOnTheLineIsStored : longest.payload.length ≤ 48 ∧ (stored 7).link.receiver = .hunting ∧
    (stored 7).link.store.length < 8 ∧ (stored 7).loader.stage ≠ .inReset ∧
    ((stored 7).link.breakHold = true → false = true) ∧ (broken (stored 7)).link.breakHold = true ∧
    ((broken (stored 7)).link.breakHold = true → true = true) := by decide

/-- The characters of a short frame after its lead byte, without its last check byte. -/
def shortGot : List Byte := (manage 0x01 []).wire.tail.dropLast

/-- The last check byte of that frame. -/
def shortCheck : Byte := (manage 0x01 []).wire.getLastD 0

theorem witness_FrameCompleteOutcomes :
    ((receiving (stored 0) shortGot).link.receiver = .inFrame shortGot ∧ frameDone (shortGot ++ [shortCheck + 1]) = true ∧
      frameChecks (shortGot ++ [shortCheck + 1]) = false) ∧
    (frameDone (shortGot ++ [shortCheck]) = true ∧ frameChecks (shortGot ++ [shortCheck]) = true ∧
      8 ≤ (receiving (stored 8) shortGot).link.store.length ∧ (receiving (stored 7) shortGot).link.store.length < 8) := by
  decide +kernel

/-- A break held off and ended, a glitch, a missing stop bit; HUNTING; a frame three bytes long, a length byte of 48 and of
49, a byte of the payload, and the last check byte. -/
theorem witness_ReceiverMoments : (ready.loader.stage ≠ .inReset ∧ (broken ready).loader.stage ≠ .inReset) ∧
    ((broken ready).link.breakHold = true ∧ ready.link.breakHold = false ∧ (ready.link.breakHold = true → false = true)) ∧
    ((0x3FF#10).getLsbD 0 = true ∧ (0x000#10).getLsbD 0 = false ∧ (0x000#10).getLsbD 9 = false ∧
      (0x200#10).getLsbD 0 = false ∧ (0x200#10).getLsbD 9 = true) ∧
    ((stored 0).link.receiver = .hunting ∧ 0xA4#8 ≠ 0xA5#8) ∧
    ((receiving ready [1, 2, 3]).link.receiver = .inFrame [1, 2, 3] ∧ [1#8, 2#8, 3#8].length < 4) ∧
    ((receiving ready [1, 2, 3, 4]).link.receiver = .inFrame [1, 2, 3, 4] ∧ [1#8, 2#8, 3#8, 4#8].length = 4 ∧
      (48#8).toNat ≤ 48 ∧ 48 < (49#8).toNat) ∧
    (4 < [1#8, 2, 3, 4, 1].length ∧ frameDone ([1#8, 2, 3, 4, 1] ++ [7#8]) = false ∧
      frameDone (shortGot ++ [shortCheck]) = true) := by decide +kernel

/-! ### Witnesses: the Traffic Gate -/

/-- STARTING with a frame in the store and `n` replies waiting. -/
def startingWith (n : Nat) (f : Frame) : State :=
  { withHead State.reset f with link := { State.reset.link with
      store := [f], replies := List.replicate n { seq := 0, code := 0, outcome := .wait } } }

/-- STARTING with three replies waiting. -/
def starting (f : Frame) : State := startingWith 3 f

/-- The same, the part being restart-pending. -/
def restarting (f : Frame) : State := { starting f with mgmt := { State.reset.mgmt with restartPending := true } }

/-- A console MANAGE frame with room for its reply; with four replies waiting, and restart-pending; and another frame. -/
theorem witness_StartingFrameResult :
    ((starting (manage 0x01 [])).mgmt.mode = .starting ∧ (starting (manage 0x01 [])).link.store = manage 0x01 [] :: [] ∧
      (manage 0x01 []).kind = 0x40#8 ∧ (manage 0x01 []).src = (starting (manage 0x01 [])).link.console ∧
      (starting (manage 0x01 [])).mgmt.restartPending = false ∧ (starting (manage 0x01 [])).link.replies.length < 4) ∧
    (∀ s ∈ [startingWith 4 (manage 0x01 []), restarting (manage 0x01 [])], s.mgmt.mode = .starting ∧
      s.link.store = manage 0x01 [] :: [] ∧ (manage 0x01 []).src = s.link.console ∧
      (s.mgmt.restartPending = true ∨ 4 ≤ s.link.replies.length)) ∧
    ((starting (robot 0x11 [])).mgmt.mode = .starting ∧ (starting (robot 0x11 [])).link.store = robot 0x11 [] :: [] ∧
      ((robot 0x11 []).kind ≠ 0x40#8 ∨ (robot 0x11 []).src ≠ (starting (robot 0x11 [])).link.console)) := by decide

/-- A robot's frame to an address. -/
def robotTo (kind dst : Byte) (payload : List Byte) : Frame := { robot kind payload with dst }

theorem robotFrameTo (s : State) (kind dst : Byte) (payload : List Byte) (hk : kind ≠ 0x40#8) (h : stationed s = true) :
    RobotFrame (withHead s (robotTo kind dst payload)) (robotTo kind dst payload) [] 2 .primary := by
  obtain ⟨h1, _, h3, h4, h5, h6⟩ := robotFrame s kind payload hk h
  exact ⟨h1, rfl, h3, h4, h5, h6⟩

/-- A driver station's frame to an address. -/
def driverTo (kind dst : Byte) (payload : List Byte) : Frame := { driver kind payload with dst }

theorem driverFrameTo (s : State) (kind dst : Byte) (payload : List Byte) (hk : kind ≠ 0x40#8) (h : stationed s = true) :
    DriverFrame (withHead s (driverTo kind dst payload)) (driverTo kind dst payload) [] 2 := by
  obtain ⟨h1, _, h3, h4, h5, h6⟩ := driverFrame s kind payload hk h
  exact ⟨h1, rfl, h3, h4, h5, h6⟩

/-- The Station Table's ROBOT entry of slot 2. -/
def robotStation : Station := { addr := 0x05#8, slot := 2, role := .robot, acceptTwin := true }

/-- One frame for each of the reasons: those of a source that is no station, the driver's and the robot's. -/
theorem witness_DroppedFrameResult :
    ((ready.mgmt.mode ≠ .starting ∧ (withHead ready (driver 0x10 [])).link.store = driver 0x10 [] :: []) ∧
      (stationAddress 0x40#8 = false ∧ 0x40#8 ≠ ready.link.console) ∧
      ((manage 0x01 []).kind = 0x40#8 ∧ (robot 0x40 []).kind = 0x40#8 ∧ (robot 0x40 []).src ≠ ready.link.console) ∧
      (stationAddress (robot 0x11 []).src = true ∧ (robot 0x11 []).src ≠ ready.link.console ∧
        findStation ready.stations (robot 0x11 []).src = none) ∧
      ((manage 0x01 []).src = ready.link.console ∧ ({ manage 0x01 [] with kind := 0x41#8 } : Frame).kind ≠ 0x40#8) ∧
      (({ manage 0x01 [] with dst := 0xF1#8 } : Frame).dst ≠ ready.link.own ∧
        ({ manage 0x01 [] with dst := 0xF1#8 } : Frame).dst ≠ 0xFF#8)) ∧
    ((∀ kind dst payload, kind ≠ 0x40#8 → DriverFrame (withHead (arena .teleop none idle) (driverTo kind dst payload))
        (driverTo kind dst payload) [] 2) ∧ (driverTo 0x11 0xFF []).kind ≠ 0x10#8 ∧
      stationOf (arena .teleop none idle).stations .robot 2 = some robotStation ∧
      ((0x06#8 : Byte) ≠ (arena .teleop none idle).link.own ∧ 0x06#8 ≠ 0xFF#8 ∧ 0x06#8 ≠ robotStation.addr ∧
        0x06#8 ≠ robotStation.addr + 0x40#8) ∧ 0x45#8 = robotStation.addr + 0x40#8) ∧
    (∀ flag : Bool, (∀ kind dst payload, kind ≠ 0x40#8 → RobotFrame
        (withHead (slotIn .teleop fun x => { x with bypassed := flag }) (robotTo kind dst payload)) (robotTo kind dst payload) [] 2 .primary) ∧
      ((slotIn .teleop fun x => { x with bypassed := flag }).slots.at 2).bypassed = flag) ∧
    ((robotTo 0x10 0xF0 []).kind ≠ 0x11#8 ∧ (robotTo 0x10 0xF0 []).kind ≠ 0x20#8 ∧ (robotTo 0x10 0xF0 []).kind ≠ 0x21#8 ∧
      (0x86#8 : Byte) ≠ ready.link.console ∧
      (∀ st, stationOf (arena .teleop none idle).stations .driver 2 = some st → 0x86#8 ≠ st.addr) ∧
      (0xF1#8 : Byte) ≠ ready.link.own ∧ (robotTo 0x20 0xF0 [3, 0, 0]).payload.length < 4 ∧ (robotTo 0x21 0xFF []).payload = []) := by
  refine ⟨by decide, ⟨fun k d p hk => driverFrameTo _ k d p hk rfl, by decide⟩,
    fun flag => ⟨fun k d p hk => robotFrameTo _ k d p hk (by cases flag <;> rfl), rfl⟩, by decide, by decide, by decide, by decide,
    fun st h => ?_, by decide⟩
  cases h; decide

/-- No last sequence; differences of 1 and 127; differences of 0 and 128. -/
theorem witness_DriveIsHeldOrStale :
    (∀ q : Option Byte, DriverFrame (withHead (slotIn .teleop fun x => { x with lastSeq := q }) (driver 0x10 [0])) (driver 0x10 [0]) [] 2) ∧
    ((driver 0x10 [0]).kind = 0x10#8 ∧ (driver 0x10 [0]).dst = 0xFF#8 ∧ 1 ≤ (driver 0x10 [0]).payload.length ∧
      stationOf (arena .teleop none idle).stations .robot 2 =
        some { addr := 0x05#8, slot := 2, role := .robot, acceptTwin := true }) ∧
    (∀ q ∈ [127#8, 1#8], 1 ≤ ((driver 0x10 [0]).seq - q).toNat ∧ ((driver 0x10 [0]).seq - q).toNat ≤ 127) ∧
    (((driver 0x10 [0]).seq - 128#8).toNat = 0 ∧ 127 < ((driver 0x10 [0]).seq - 0#8).toNat) :=
  ⟨fun q => driverFrame _ _ _ (by decide) (by cases q <;> rfl), by decide, by decide, by decide⟩

/-- The arena with a credit and `n` TELLs queued. -/
def telling (credit n : Nat) : State :=
  { slotIn .teleop fun x => { x with credit } with
    link := { ready.link with tells := List.replicate n longest } }

/-- A credit one short of the cost, a full queue, and a credit and a queue that just suffice. -/
theorem witness_TellIsQueuedWithinBudget :
    (∀ s ∈ [telling 10 0, telling 11 16, telling 11 15],
      RobotFrame (withHead s { robot 0x11 [1, 2, 3] with dst := 0xFA#8 }) { robot 0x11 [1, 2, 3] with dst := 0xFA#8 } [] 2 .primary ∧
      (s.slots.at 2).bypassed = false ∧ (0xFA#8 : Byte) = s.link.console) ∧
    (((telling 10 0).slots.at 2).credit < 8 + 3 ∧
      (8 + 3 ≤ ((telling 11 16).slots.at 2).credit ∧ 16 ≤ (telling 11 16).link.tells.length) ∧
      (8 + 3 ≤ ((telling 11 15).slots.at 2).credit ∧ (telling 11 15).link.tells.length < 16)) := by
  refine ⟨?_, by decide⟩
  intro s hs
  simp only [List.mem_cons, List.not_mem_nil, or_false] at hs
  obtain rfl | rfl | rfl := hs <;>
    exact ⟨⟨by decide, rfl, rfl, by decide, by decide, _, rfl, rfl, rfl⟩, by decide, by decide⟩

/-- A slot that is SILENT, with one free place for a notice, and one that is not. -/
def hearing (silent : Bool) : State :=
  { slotIn .teleop fun x => { x with silent } with
    mgmt := { ready.mgmt with notices := List.replicate 15 { dropped := 0, content := .silent 0 } } }

theorem witness_RobotFrameRefreshesSlot :
    (∀ b : Bool, ∀ k : Byte, k ≠ 0x40#8 → RobotFrame (withHead (hearing b) (robot k [])) (robot k []) [] 2 .primary) ∧
    ((Instr.release, 0x21#8) ∈ [(Instr.tell, 0x11#8), (.claim, 0x20#8), (.release, 0x21#8)] ∧
      ((hearing true).slots.at 2).silent = true ∧ (hearing true).mgmt.notices.length < 16 ∧
      ((hearing false).slots.at 2).silent = false) :=
  ⟨fun b k hk => robotFrame _ _ _ hk (by cases b <;> rfl), by decide⟩

/-! ### Witnesses: claims -/

/-- An element held by another slot, with three claims of others before it. -/
def contended : Loaded :=
  { idle with
    hold := some { hold with slot := 7 }
    claims := [8, 9, 10].map fun i => { slot := i, request := { action := 0#8, argument := 0#8, tag := 0#8 } }
    lastRelease := some { slot := 2, since := 500 } }

/-- The CLAIM that these witnesses send, and what it asks for. -/
def asks (b action : Byte) : Frame := robot 0x20 [b, action, 1, 0x33]
def asked (action : Byte) : Request := { action, argument := 1, tag := 0x33 }

theorem claimFrame (s : State) (b action : Byte) (h : stationed s = true) (hb : (s.slots.at 2).bypassed = false)
    (ho : s.link.own = 0xF0#8) :
    ClaimFrame (withHead s (asks b action)) (asks b action) [] 2 .primary b (asked action) :=
  ⟨robotFrame s _ _ (by decide) h, rfl, hb, .inl ho.symm, [], rfl⟩

theorem releaseFrame (s : State) (b : Byte) (h : stationed s = true) (hb : (s.slots.at 2).bypassed = false)
    (ho : s.link.own = 0xF0#8) :
    ReleaseFrame (withHead s (robot 0x21 [b])) (robot 0x21 [b]) [] 2 .primary b :=
  ⟨robotFrame s _ _ (by decide) h, rfl, hb, .inl ho.symm, [], rfl⟩

/-- The arena with slot 2's CLAIM of action 7 on element 3 in the store. -/
def claimed (l : Loaded) : State := withHead (arena .teleop none l) (asks 3 7)

theorem claimReaches (l : Loaded) (h : l.entry.field = 1) : ClaimReaches (claimed l) 2 3 l :=
  ⟨rfl, rfl, by rw [h]; rfl⟩

theorem claimAllowed (l : Loaded) (h : l.entry = entry) (hp : l.presence = .present) : ClaimAllowed (claimed l) 2 3 l (asked 7) :=
  ⟨claimReaches l (by rw [h]; rfl), by rw [h]; decide, by rw [h]; decide, by rw [h]; rfl, by rw [h]; exact .inl rfl, hp⟩

theorem claimNew (l : Loaded) (h : l.entry = entry) (hp : l.presence = .present) (hh : ∀ x, l.hold = some x → x.slot ≠ 2)
    (hq : ∀ c ∈ l.claims, c.slot ≠ 2) : ClaimNew (claimed l) 2 3 l (asked 7) := ⟨claimAllowed l h hp, hh, hq⟩

/-- A claim of a slot. -/
def claimOf (i : SlotId) : Claim := { slot := i, request := asked 0 }

/-- Slot 2 waits between two others. -/
def waits : Loaded := { contended with claims := [claimOf 8, claimOf 2, claimOf 9] }

/-- Slot 2 holds the element, with an actuation and a next action. -/
def holds (act : Option Actuation) (next : Option Request) : Loaded := { idle with hold := some { hold with next }, act }

theorem contended_hold (x : Hold) (h : contended.hold = some x) : x.slot ≠ 2 := by cases h; decide

/-- An in-hold action without an actuation, with one, and with a next action to replace; a claim that waits; a new claim of a
free element and of one with one place left in its queue. -/
theorem witness_ClaimIsGrantedQueuedOrRefused :
    (∀ l, ClaimFrame (claimed l) (asks 3 7) [] 2 .primary (elementByte 3) (asked 7)) ∧
    ((∀ l ∈ [holds none none, holds (some (acting .running)) none, holds (some (acting .running)) (some (asked 0))],
        ClaimAllowed (claimed l) 2 3 l (asked 7) ∧ ∃ h, l.hold = some h ∧ h.slot = 2) ∧
      (holds none none).act = none ∧ (holds (some (acting .running)) none).act = some (acting .running)) ∧
    (ClaimAllowed (claimed waits) 2 3 waits (asked 7) ∧ (∀ h, waits.hold = some h → h.slot ≠ 2) ∧
      waits.claims = [claimOf 8] ++ claimOf 2 :: [claimOf 9] ∧ (claimOf 2).slot = 2 ∧
      ∀ d ∈ [claimOf 8] ++ [claimOf 9], d.slot ≠ 2) ∧
    (ClaimPasses (claimed idle) 2 3 idle (asked 7) ∧ idle.hold = none ∧ idle.act = none) ∧
    (ClaimPasses (claimed contended) 2 3 contended (asked 7) ∧ contended.hold ≠ none) := by
  refine ⟨fun l => claimFrame _ _ _ rfl rfl rfl, ⟨fun l h => ?_, rfl, rfl⟩,
    ⟨claimAllowed _ rfl rfl, (by intro h hh; cases hh; decide), rfl, rfl, by decide⟩,
    ⟨⟨claimNew _ rfl rfl (by intro x h; cases h) (by decide), by decide, (by intro x h; cases h), by decide⟩, rfl, rfl⟩,
    ⟨⟨claimNew _ rfl rfl contended_hold (by decide), by decide, (by intro x h _; cases h; decide), by decide⟩, by decide⟩⟩
  simp only [List.mem_cons, List.not_mem_nil, or_false] at h
  obtain rfl | rfl | rfl := h <;> exact ⟨claimAllowed _ rfl rfl, _, rfl, rfl⟩

/-- One claim for each reason to refuse it, in the order of the tests. -/
theorem witness_ClaimRefused :
    ClaimRefused (withHead (arena .teleop (some .console) idle) (asks 3 7)) 2 3 (asked 7) .gateOff ∧
    ClaimRefused (claimed idle) 2 48 (asked 7) .noElement ∧ ClaimRefused (claimed idle) 2 (elementByte 4) (asked 7) .noElement ∧
    ClaimRefused (claimed { idle with entry := { entry with field := 2 } }) 2 (elementByte 3) (asked 7) .noElement ∧
    ClaimRefused (claimed idle) 2 (elementByte 3) (asked 8) .badAction ∧
    ClaimRefused (claimed { idle with entry := { entry with phaseMask := 5 } }) 2 (elementByte 3) (asked 7) .phase ∧
    ClaimRefused (claimed { idle with entry := { entry with owner := .west } }) 2 (elementByte 3) (asked 7) .notYours ∧
    ClaimRefused (claimed { idle with presence := .absent }) 2 (elementByte 3) (asked 7) .elementDown ∧
    ClaimRefused (withHead (slotIn .teleop fun x => { x with outstanding := 2 }) (asks 3 7)) 2 (elementByte 3) (asked 7) .tooMany ∧
    ClaimRefused (claimed { contended with lastRelease := some { slot := 2, since := 499 } }) 2 (elementByte 3) (asked 7) .cooling ∧
    ClaimRefused (claimed { contended with claims := claimOf 11 :: contended.claims }) 2 (elementByte 3) (asked 7) .queueFull := by
  refine ⟨.gateOff (by decide), .noNumber rfl (by decide), .noEntry 4 rfl rfl rfl, .otherField 3 _ rfl rfl rfl (by decide),
    .badAction 3 _ rfl (claimReaches _ rfl) (.inr (by decide)),
    .phase 3 _ rfl (claimReaches _ rfl) ⟨by decide, by decide⟩ (by decide),
    .notYours 3 _ rfl (claimReaches _ rfl) ⟨by decide, by decide⟩ (by decide) ⟨by decide, by decide⟩,
    .elementDown 3 _ rfl (claimReaches _ rfl) ⟨by decide, by decide⟩ (by decide) (.inl rfl) (by decide),
    .tooMany 3 idle rfl ⟨⟨⟨rfl, rfl, rfl⟩, by decide, by decide, rfl, .inl rfl, rfl⟩, (by intro x h; cases h), by decide⟩ (by decide),
    .cooling 3 _ _ rfl (claimNew _ rfl rfl (by intro x h; cases h; decide) (by decide)) (by decide) rfl (by decide),
    .queueFull 3 _ rfl (claimNew _ rfl rfl (by intro x h; cases h; decide) (by decide)) (by decide)
      (by intro x h _; cases h; decide) (by decide)⟩

/-- Slots 8 of East and 9 of West play beside slot 2, which holds element 3; claims wait for it. -/
def crowded (d : Discipline) (claims : List Claim) : State :=
  let place (a : Alliance) (position : Nat) : Slot := { Slot.free with team := 448, placing := some { field := 1, alliance := a, position } }
  { arena .teleop none { holds none none with entry := { entry with discipline := d }, claims } with
    slots := (((arena .teleop none idle).slots.put 8 (place .east 2)).put 9 (place .west 1)) }

/-- A claim of the crowd may be granted. -/
theorem crowd_mayHold (d : Discipline) (q : List Claim) (i : SlotId) (h : i = 8 ∨ i = 9) :
    (crowded d q).MayHold { entry with discipline := d } (claimOf i) := by
  rcases h with rfl | rfl <;> exact ⟨rfl, rfl, by show phaseIn 7#3 .teleop = true; decide⟩

/-- Under ALTERNATE a claim of the last holder's alliance is not preferred. -/
theorem crowd_notPreferred (q : List Claim) :
    ¬ (crowded .alternate q).Preferred { entry with discipline := .alternate } (some .east) (claimOf 8) := by
  rintro (h | h | h)
  · cases h
  · cases h
  · exact h rfl

/-- The end of a hold and the RELEASE of a queued claim: the next holder under FIFO and under ALTERNATE, with and without a
claim of the other alliance; none without an open gate; an actuation that runs on; and a RELEASE by a slot that has neither
claim nor hold, or of no element. -/
theorem witness_HoldEnds :
    (∀ d q, ReleaseFrame (withHead (crowded d q) (robot 0x21 [3])) (robot 0x21 [3]) [] hold.slot .primary (elementByte 3) ∧
      (crowded d q).slotAlliance hold.slot = some .east) ∧
    ((crowded .fifo ([] ++ claimOf 8 :: [claimOf 9])).Picks { entry with discipline := .fifo } (some .east) [] (claimOf 8) [claimOf 9] ∧
      (crowded .alternate ([claimOf 8] ++ claimOf 9 :: [])).Picks { entry with discipline := .alternate } (some .east)
        [claimOf 8] (claimOf 9) [] ∧
      (crowded .alternate ([] ++ claimOf 8 :: [])).Picks { entry with discipline := .alternate } (some .east) [] (claimOf 8) []) ∧
    (∀ d ∈ contended.claims, ¬ (arena .teleop none contended).MayHold contended.entry d) ∧
    (∀ a ∈ [acting .running, acting .waitingBus], a.state ≠ .waitingBus ∨ a.sent = true) ∧
    (ReleaseFrame (withHead (arena .teleop none waits) (robot 0x21 [3])) (robot 0x21 [3]) [] 2 .primary (elementByte 3) ∧
      waits.claims = [claimOf 8] ++ claimOf 2 :: [claimOf 9] ∧ (∀ d ∈ [claimOf 8], d.slot ≠ 2) ∧ waits.hold ≠ none) ∧
    (ReleaseFrame (withHead (arena .teleop none contended) (robot 0x21 [3])) (robot 0x21 [3]) [] 2 .primary (elementByte 3) ∧
      ∀ c ∈ contended.claims, c.slot ≠ 2) ∧
    ReleaseFrame (withHead (arena .teleop none contended) (robot 0x21 [48])) (robot 0x21 [48]) [] 2 .primary 48 := by
  refine ⟨fun d q => ⟨releaseFrame _ _ rfl rfl rfl, rfl⟩,
    ⟨⟨crowd_mayHold _ _ _ (.inl rfl), .inl ⟨.inl rfl, (by intro c h; cases h)⟩⟩,
      ⟨crowd_mayHold _ _ _ (.inr rfl), .inl ⟨.inr (.inr (by decide)), fun c h _ => ?_⟩⟩,
      ⟨crowd_mayHold _ _ _ (.inl rfl), .inr ⟨(by intro c h; cases h), fun c h _ => ?_⟩⟩⟩, ?_, by decide,
    ⟨releaseFrame _ _ rfl rfl rfl, rfl, by decide, by decide⟩, ⟨releaseFrame _ _ rfl rfl rfl, by decide⟩, releaseFrame _ _ rfl rfl rfl⟩
  · cases List.mem_singleton.mp h; exact crowd_notPreferred _
  · cases List.mem_singleton.mp h; exact crowd_notPreferred _
  · unfold State.MayHold; decide

/-! ### Witnesses: the Management Agent -/

/-- Three replies wait, so that one more has room. -/
def nearlyFull (s : State) : State :=
  { s with link := { s.link with replies := List.replicate 3 { seq := 0, code := 0, outcome := .wait } } }

theorem witness_WrongLengthIsRefused : (Instr.start, 0x41#8, 2) ∈ commandTable ∧
    CommandReady (withHead (nearlyFull ready) (manage 0x41 [])) (manage 0x41 []) [] 0x41 [] ∧ ([] : List Byte).length + 1 ≠ 2 ∧
    CommandReady (withHead (nearlyFull ready) (manage 0x41 [1, 1])) (manage 0x41 [1, 1]) [] 0x41 [1, 1] ∧
    [1#8, 1#8].length + 1 ≠ 2 :=
  ⟨by decide, commandReady _ _ _ (by decide), by decide, commandReady _ _ _ (by decide), by decide⟩

/-- A part in restart-pending, and one with a full reply queue. -/
def deaf (restart : Bool) : State :=
  { ready with
    mgmt := { ready.mgmt with restartPending := restart }
    link := { ready.link with replies := List.replicate 4 { seq := 0, code := 0, outcome := .wait } } }

/-- The codes 0x62 and 0x00, no code at all, and a deaf agent. -/
theorem witness_UnknownRefusedAndBusyDiscards :
    (CommandReady (withHead ready (manage 0x62 [1])) (manage 0x62 [1]) [] 0x62 [1] ∧ (∀ p ∈ commandTable, p.2.1 ≠ 0x62#8) ∧
      ∀ p ∈ commandTable, p.2.1 ≠ 0x00#8) ∧
    ((withHead ready { manage 0 [] with payload := [] }).link.store = { manage 0 [] with payload := [] } :: [] ∧
      ({ manage 0 [] with payload := [] } : Frame).dst = ready.link.own ∧ ready.mgmt.restartPending = false) ∧
    (∀ b : Bool, CommandFrame (withHead (deaf b) (manage 0x41 [1])) (manage 0x41 [1]) [] 0x41 [1] ∧
      ((deaf b).mgmt.restartPending = true ∨ 4 ≤ (deaf b).link.replies.length)) :=
  ⟨⟨commandReady _ _ _ (by decide), by decide, by decide⟩, ⟨rfl, rfl, rfl⟩,
    fun b => ⟨⟨by cases b <;> decide, rfl, rfl, .inl rfl, rfl, rfl⟩, .inr (by cases b <;> decide)⟩⟩

theorem witness_DeviceModeCommands :
    CommandReady (withHead ready (manage 0x01 [])) (manage 0x01 []) [] 0x01 [] ∧
    CommandReady (withHead ready (manage 0x03 [])) (manage 0x03 []) [] 0x03 [] ∧
    (CommandReady (withHead ready (manage 0x02 [])) (manage 0x02 []) [] 0x02 [] ∧ ready.mgmt.mode = .commissioned ∧
      ∀ g, (ready.fields.at g).phase = .idle) ∧
    (CommandReady (withHead (arena .post none idle) (manage 0x02 [])) (manage 0x02 []) [] 0x02 [] ∧
      (arena .post none idle).mgmt.mode = .commissioned ∧ ((arena .post none idle).fields.at 1).phase ≠ .idle) :=
  ⟨commandReady _ _ _ (by decide), commandReady _ _ _ (by decide), ⟨commandReady _ _ _ (by decide), by decide⟩,
    commandReady _ _ _ (by decide), by decide⟩

/-- A Station Table of 63 driver stations, of slots 0 to 31 in turn. -/
def sixtyThree : State :=
  { ready with
    stations := (List.range 63).map fun k =>
      { addr := BitVec.ofNat 8 (0x81 + k), slot := Fin.ofNat 31 k |>.castSucc, role := .driver, acceptTwin := false } }

/-- The same with a 64th entry. -/
def sixtyFour : State :=
  { sixtyThree with stations := sixtyThree.stations ++ [{ addr := 0x01#8, slot := 0, role := .robot, acceptTwin := false }] }

/-- A LOAD STATION in the store. -/
theorem loadStationReady (s : State) (a b c : Byte) (h : answers s = true) :
    CommandReady (withHead s (manage 0x10 [a, b, c])) (manage 0x10 [a, b, c]) [] 0x10 [a, b, c] := commandReady _ _ _ h

/-- The operands of LOAD STATION out of their ranges; a twin that another entry matches; a role and slot that another entry
has; a full table; a 64th entry with the highest primary address and its twin; a robot and a driver entry in place of the one
there is. -/
theorem witness_StationCommands :
    (answers sixtyThree = true ∧ answers sixtyFour = true ∧ answers (arena .pre none idle) = true) ∧
    (∀ a ∈ [0x00#8, 0x40, 0x80, 0xC0], ¬ (1 ≤ a.toNat ∧ a.toNat ≤ 0x3F) ∧ ¬ (0x41 ≤ a.toNat ∧ a.toNat ≤ 0x7F) ∧
      ¬ (0x81 ≤ a.toNat ∧ a.toNat ≤ 0xBF)) ∧
    (32 ≤ (32#8).toNat ∧ 2 ≤ (2#8).toNat ∧ 0x3F < (0x41#8).toNat) ∧
    (31#8 = byte (31 : SlotId).val ∧ 1#8 = byte (bit true) ∧ 0#8 = byte (bit false) ∧ (0x3F#8).toNat ≤ 0x3F ∧
      (0x81 ≤ (0xBF#8).toNat ∧ (0xBF#8).toNat ≤ 0xBF)) ∧
    (∃ st ∈ (arena .pre none idle).stations, st.addr ≠ 0x45#8 ∧ st.matchesSource 0x45 ≠ none) ∧
    ((∀ st ∈ (arena .pre none idle).stations, st.addr ≠ 0x06#8 → st.matchesSource 0x06 = none) ∧
      ∃ st ∈ (arena .pre none idle).stations, st.addr ≠ 0x06#8 ∧ st.role = Role.robot ∧ st.slot = 2) ∧
    ((∀ st ∈ sixtyFour.stations, st.addr ≠ 0x3F#8 → st.matchesSource 0x3F = none ∧ st.matchesSource (0x3F + 0x40#8) = none) ∧
      (∀ st ∈ sixtyFour.stations, st.addr ≠ 0x3F#8 → ¬ (st.role = Role.robot ∧ st.slot = 31)) ∧
      (ownEntry sixtyFour.stations 0x3F).isNone = true ∧ 64 ≤ sixtyFour.stations.length ∧ sixtyThree.stations.length < 64 ∧
      ∀ st ∈ sixtyThree.stations, st ∈ sixtyFour.stations) ∧
    ((∀ st ∈ (arena .pre none idle).stations, st.addr ≠ 0x05#8 → st.matchesSource 0x05 = none ∧ ¬ (st.role = Role.robot ∧ st.slot = 3)) ∧
      ownEntry (arena .pre none idle).stations 0x05 = some robotStation ∧ robotStation.slot ≠ 3) ∧
    ((∀ st ∈ sixtyThree.stations, st.addr ≠ 0xBF#8 → st.matchesSource 0xBF = none ∧ ¬ (st.role = Role.driver ∧ st.slot = 31)) ∧
      (ownEntry sixtyThree.stations 0xBF).isSome = true) := by
  refine ⟨?_, ?_, ?_, ?_, ?_, ?_, ?_, ?_, ?_⟩ <;> decide +kernel

/-- A CLEAR STATION of an entry that is there, and of one that is not. -/
theorem witness_StationCommands_clear :
    (CommandReady (withHead sixtyThree (manage 0x11 [0x05])) (manage 0x11 [0x05]) [] 0x11 [0x05] ∧
      ownEntry sixtyThree.stations 0x05 = none) ∧
    (CommandReady (withHead (arena .pre none idle) (manage 0x11 [0x05])) (manage 0x11 [0x05]) [] 0x11 [0x05] ∧
      ownEntry (arena .pre none idle).stations 0x05 = some robotStation) :=
  ⟨⟨commandReady _ _ _ (by decide), by decide +kernel⟩, commandReady _ _ _ (by decide), by decide +kernel⟩

/-- Slot 31 loaded and in no match. -/
def loadedSlot : State := ready.updSlot 31 fun x => { x with team := 99999 }

/-- The largest team and ceiling on a free slot, the same team on a placed one, another team; the clears: of a free slot, of
one in no match, of one in a match, and of none; and the operands of LOAD SLOT just out of their ranges. -/
theorem witness_SlotCommands :
    (CommandReady (withHead ready (manage 0x12 [31, 1, 0x86, 0x9F, 0x0F, 0xFF, 255])) (manage 0x12 [31, 1, 0x86, 0x9F, 0x0F, 0xFF, 255])
        [] 0x12 [31, 1, 0x86, 0x9F, 0x0F, 0xFF, 255] ∧ slotOf 31 = some 31 ∧ nat24 1 0x86 0x9F = 99999 ∧ nat16 0x0F 0xFF = 4095 ∧
      (ready.slots.at 31).placing = none) ∧
    (CommandReady (withHead (arena .pre none idle) (manage 0x12 [2, 0, 1, 0xC0, 0, 64, 0])) (manage 0x12 [2, 0, 1, 0xC0, 0, 64, 0])
        [] 0x12 [2, 0, 1, 0xC0, 0, 64, 0] ∧ ((arena .pre none idle).slots.at 2).placing ≠ none ∧
      ((arena .pre none idle).slots.at 2).team = nat24 0 1 0xC0 ∧ ((arena .pre none idle).slots.at 2).team ≠ nat24 0 0 1 ∧
      64 ≤ nat16 0 64) ∧
    CommandReady (withHead (arena .pre none idle) (manage 0x12 [2, 0, 0, 1, 0, 64, 0])) (manage 0x12 [2, 0, 0, 1, 0, 64, 0])
        [] 0x12 [2, 0, 0, 1, 0, 64, 0] ∧
    (CommandReady (withHead ready (manage 0x13 [31])) (manage 0x13 [31]) [] 0x13 [31] ∧ (ready.slots.at 31).team = 0 ∧
      CommandReady (withHead loadedSlot (manage 0x13 [31])) (manage 0x13 [31]) [] 0x13 [31] ∧
      (loadedSlot.slots.at 31).placing = none ∧ (loadedSlot.slots.at 31).team ≠ 0 ∧
      CommandReady (withHead (arena .pre none idle) (manage 0x13 [2])) (manage 0x13 [2]) [] 0x13 [2] ∧ slotOf 2 = some 2 ∧
      CommandReady (withHead ready (manage 0x13 [32])) (manage 0x13 [32]) [] 0x13 [32] ∧ 32 ≤ (32#8).toNat) ∧
    ((∀ ops : List Byte, CommandReady (withHead ready (manage 0x12 ops)) (manage 0x12 ops) [] 0x12 ops) ∧ nat24 0 0 0 = 0 ∧
      99999 < nat24 1 0x86 0xA0 ∧ nat16 0 63 < 64 ∧ 4095 < nat16 0x10 0) :=
  ⟨⟨commandReady _ _ _ (by decide), by decide⟩, ⟨commandReady _ _ _ (by decide), by decide⟩, commandReady _ _ _ (by decide),
    ⟨commandReady _ _ _ (by decide), by decide, commandReady _ _ _ (by decide), by decide, by decide,
      commandReady _ _ _ (by decide), rfl, commandReady _ _ _ (by decide), by decide⟩,
    fun ops => commandReady _ _ ops (by decide), by decide⟩

/-- The operands of a SET TIMING that changes the sample period to 32, and of one that changes none of p, k and W. -/
def timings (sample p : Byte) : List Byte := [0, 100, 0x01, 0xF4, 0x0B, 0xB8, 20, 50, 0, 200, sample, p, 4, 0x03, 0xE8]

/-- A slot of a match in TELEOP that has been unheard for one millisecond more than the timeout of `timings`; it holds element 3. -/
def lateSlot : State :=
  (arena .teleop none { idle with hold := some hold }).updSlot 2 fun x => { x with age := 501 }

/-- A period out of the list; another period with a match loaded; another p on a RUNNING bus; a change of all on a PAUSED
bus; and no change of period, p, k and W, with a slot that the new timeout finds silent. -/
theorem witness_SetTimingResult :
    (∀ s ops, answers s = true → CommandReady (withHead s (manage 0x32 ops)) (manage 0x32 ops) [] 0x32 ops) ∧
    (answers ready = true ∧ (3#8).toNat ∉ [1, 2, 4, 8, 16, 32] ∧ (32#8).toNat ∈ [1, 2, 4, 8, 16, 32] ∧
      (4#8).toNat ∈ [1, 2, 4, 8, 16, 32]) ∧
    (answers (arena .teleop none idle) = true ∧ (32#8).toNat ≠ (arena .teleop none idle).timing.sample ∧
      ((arena .teleop none idle).fields.at 1).phase ≠ .idle) ∧
    ((4#8).toNat = ready.timing.sample ∧ clamp 0 7 (5#8).toNat ≠ ready.timing.p ∧ ready.bus.state ≠ .paused) ∧
    (answers { ready with bus := { ready.bus with state := .paused } } = true ∧ ∀ g, (ready.fields.at g).phase = .idle) ∧
    (answers lateSlot = true ∧ (4#8).toNat = lateSlot.timing.sample ∧ clamp 0 7 (4#8).toNat = lateSlot.timing.p ∧
      clamp 0 15 (4#8).toNat = lateSlot.timing.k ∧ clamp 200 5000 (nat16 0x03 0xE8) / 100 * 100 = lateSlot.timing.window ∧
      (lateSlot.slots.at 2).silent = false ∧ clamp 100 2000 (nat16 0x01 0xF4) < (lateSlot.slots.at 2).age ∧
      lateSlot.slotField 2 = some 1 ∧ (lateSlot.fields.at 1).phase.timed = true ∧ lateSlot.mgmt.notices.length + 1 ≤ 16) :=
  ⟨fun s ops h => commandReady s _ ops h, by decide, by decide, by decide, by decide, by decide⟩

/-- The last index of a table and the one after it; no cursor, a cursor at the last index and one before it. -/
theorem witness_ReadCommands :
    (CommandReady (withHead ready (manage 0x60 [2, 47])) (manage 0x60 [2, 47]) [] 0x60 [2, 47] ∧
      CommandReady (withHead ready (manage 0x60 [2, 48])) (manage 0x60 [2, 48]) [] 0x60 [2, 48] ∧ readTableOf 2 = some .element ∧
      (47#8).toNat ≤ ReadTable.element.last ∧ ReadTable.element.last < (48#8).toNat) ∧
    (∀ c : Option (ReadTable × Nat), CommandReady
        (withHead { ready with mgmt := { ready.mgmt with cursor := c } } (manage 0x61 [])) (manage 0x61 []) [] 0x61 []) ∧
    (ReadTable.element.last ≤ 47 ∧ 46 < ReadTable.element.last) ∧
    (CommandReady (withHead ready (manage 0x60 [8, 0])) (manage 0x60 [8, 0]) [] 0x60 [8, 0] ∧ 8 ≤ (8#8).toNat) := ⟨⟨commandReady _ _ _ (by decide), commandReady _ _ _ (by decide), by decide⟩, fun _ => commandReady _ _ _ rfl, by decide,
    commandReady _ _ _ (by decide), by decide⟩

/-- A station address without an entry, the addresses of both radios of one; a slot without stations and one with both; an
empty element and loaded ones, the last with a full queue; an element number without rules and one with a rule. -/
theorem witness_ReadCommands_entries :
    (∀ x ∈ ready.stations, ¬ x.Matches 9#8) ∧
    (∀ a ∈ [0x05#8, 0x45#8], robotStation ∈ (arena .teleop none idle).stations ∧ robotStation.Matches a ∧
      ∀ x ∈ (arena .teleop none idle).stations, x.Matches a → x = robotStation) ∧
    ((arena .teleop none idle).NoStation .robot 31 ∧ (arena .teleop none idle).NoStation .driver 31 ∧
      (arena .teleop none idle).OnlyStation .robot 2 robotStation ∧
      (arena .teleop none idle).OnlyStation .driver 2 { addr := 0x85#8, slot := 2, role := .driver, acceptTwin := false }) ∧
    (ready.loadedAt 3 = none ∧ (arena .teleop none waits).loadedAt 3 = some waits ∧ waits.claims.length ≤ 4 ∧
      ({ waits with claims := waits.claims ++ [claimOf 10] } : Loaded).claims.length ≤ 4) ∧
    ((∀ k, (ready.elements.at 3).rules.at k = none) ∧
      (((ready.updElement 47 fun x => { x with rules := x.rules.put 3 (some { auto := 4, teleop := 99, endgame := 7, beneficiary := .owner }) }).elements.at
        47).rules.at 3 ≠ none)) := by
  refine ⟨nofun, ?_, ?_, ⟨rfl, rfl, by decide, by decide⟩, by decide, by decide⟩
  · simp [arena, robotStation, Station.Matches]
  · simp [arena, robotStation, State.NoStation, State.OnlyStation, ready, State.reset]

/-! ### Witnesses: referee lines, elements, rules, the bus -/

/-- Operands of LOAD LINE just out of their ranges; a HALL-STOP record on the last line of an IDLE field with the other fields
IDLE, the same with another field live, and a record of a live field; and the clears, one of them of no field. -/
theorem witness_LineCommands :
    (∀ s ops, answers s = true → CommandReady (withHead s (manage 0x30 ops)) (manage 0x30 ops) [] 0x30 ops ∧
      CommandReady (withHead s (manage 0x31 ops)) (manage 0x31 ops) [] 0x31 ops) ∧
    (16 ≤ (16#8).toNat ∧ 32 ≤ (0x20#8).toNat ∧ 4 ≤ (0x1C#8).toNat % 8) ∧
    (15#8 = byte (15 : LineId).val ∧ 0x1B#8 = byte (LineRole.hallStop.code + 8 * Level.code .high + 16 * bit true)) ∧
    (answers ready = true ∧ ∀ g, (ready.fields.at g).phase = .idle) ∧
    (answers (arena .post none idle) = true ∧ ((arena .post none idle).fields.at (lineField 15)).phase = .idle ∧
      ((arena .post none idle).fields.at (lineField 7)).phase ≠ .idle ∧ lineField 7 = 1) ∧
    (4 ≤ (4#8).toNat ∧ 4#8 ≠ 0xFF#8 ∧ 3#8 = fieldByte 3) :=
  ⟨fun s ops h => ⟨commandReady s _ ops h, commandReady s _ ops h⟩, by decide, by decide, by decide, by decide, by decide⟩

/-- The STOP line of field B without its filter. -/
def unfiltered (p : Phase) (stop : Option StopCause) : State :=
  { arena p stop idle with lines := ready.lines.put 4 { ready.lines.at 4 with filterOn := false } }

/-- Field B stopped or not, its four lines with these roles, a previous sample of LOW, and these edge flags. -/
def fourLines (stop : Option StopCause) (roles : LineId → LineRole) (edge : LineId → Bool) : State :=
  { arena .teleop stop idle with
    lines := Vector.ofFn fun n : Fin 16 => { ready.lines.at n with
      role := if lineField n = 1 then roles n else .unused
      previous := .low, edge := edge n } }

/-- Line 4 is a STOP line, 5 a HALL-STOP line, and 6 and 7 are RESUME-KEY lines. -/
def mixed (n : LineId) : LineRole := if n = 4 then .stop else if n = 5 then .hallStop else .resumeKey

/-- A line is found newly active by a sample. -/
def turnsActive (s : State) (pins : BitVec 16) (n : LineId) : Bool :=
  after (.lineSample pins) s fun t => (t.lines.at n).filtered == (s.lines.at n).activeLevel &&
    (s.lines.at n).filtered != (s.lines.at n).activeLevel

/-- A sample that makes the STOP line and the HALL-STOP line active, and one that makes the combination hold on a STOPPED field
with a STOP line's edge flag set. -/
theorem witness_LineSampleFilters : (arena .teleop none idle).mgmt.mode ≠ .starting ∧
    (((arena .teleop none idle).lines.at 4).filterOn = true ∧ ((unfiltered .teleop none).lines.at 4).filterOn = false) ∧
    ((∀ n, turnsActive (fourLines none mixed fun _ => false) 0xFFCF n = decide (n = 4 ∨ n = 5)) ∧
      ((fourLines none mixed fun _ => false).fields.at 1).phase.stoppable = true ∧
      ((fourLines none mixed fun _ => false).fields.at 1).stopped = none ∧ lineField 4 = 1 ∧ mixed 4 = .stop ∧ mixed 5 = .hallStop) ∧
    ((∀ n, turnsActive (fourLines (some .console) mixed fun n => n == 4) 0xFF3F n = decide (n = 6 ∨ n = 7)) ∧
      lineField 6 = 1 ∧ lineField 7 = 1 ∧ mixed 6 = .resumeKey ∧ mixed 7 = .resumeKey ∧
      ((fourLines (some .console) mixed fun n => n == 4).fields.at 1).stopped ≠ none ∧
      ((fourLines (some .console) mixed fun n => n == 4).lines.at 5).edge = false) := by decide +kernel

/-- Line 4 without its filter, with a role, and the other lines of its field RESUME-KEY lines at a level. -/
def unfilteredIn (stop : Option StopCause) (role : LineRole) (others : Level) : State :=
  { arena .teleop stop idle with
    lines := Vector.ofFn fun n : Fin 16 => { ready.lines.at n with
      role := if n = 4 then role else if lineField n = 1 then .resumeKey else .unused
      filterOn := n != 4, filtered := if n = 4 then .high else others } }

/-- A STOP line and a HALL-STOP line that become active; a RESUME-KEY line that completes its combination, on a STOPPED field
and on one that is not, and one that does not; a line without a role; a line that becomes inactive; and a filtered line. -/
theorem witness_UnfilteredStopLineStopsItsField : (unfiltered .teleop none).mgmt.mode ≠ .starting ∧
    (((unfiltered .teleop none).lines.at 4).filterOn = false ∧ ((unfiltered .teleop none).lines.at 4).role = .stop ∧
      Level.low = ((unfiltered .teleop none).lines.at 4).activeLevel ∧ ((unfiltered .teleop none).lines.at 4).filtered ≠ .low ∧
      ((unfiltered .teleop none).fields.at (lineField 4)).phase.stoppable = true ∧
      ((unfiltered .teleop none).fields.at (lineField 4)).stopped = none) ∧
    (∀ p ∈ [(none, LineRole.hallStop, Level.low), (none, .unused, .low), (none, .resumeKey, .high), (none, .resumeKey, .low),
        (some .console, .resumeKey, .low)],
      ((unfilteredIn p.1 p.2.1 p.2.2).lines.at 4).filterOn = false ∧ ((unfilteredIn p.1 p.2.1 p.2.2).lines.at 4).role = p.2.1 ∧
      Level.low = ((unfilteredIn p.1 p.2.1 p.2.2).lines.at 4).activeLevel ∧
      ((unfilteredIn p.1 p.2.1 p.2.2).lines.at 4).filtered ≠ .low) ∧
    ((∀ stop ∈ [none, some StopCause.console], ∀ k : LineId, k ≠ 4 → lineField k = lineField 4 →
        ((unfilteredIn stop .resumeKey .low).lines.at k).role = .resumeKey →
        ((unfilteredIn stop .resumeKey .low).lines.at k).filtered = ((unfilteredIn stop .resumeKey .low).lines.at k).activeLevel) ∧
      Resumable (unfilteredIn (some .console) .resumeKey .low) (unfilteredIn (some .console) .resumeKey .low).lines (lineField 4) ∧
      ¬ Resumable (unfilteredIn none .resumeKey .low) (unfilteredIn none .resumeKey .low).lines (lineField 4)) ∧
    ((5 : LineId) ≠ 4 ∧ lineField 5 = lineField 4 ∧ ((unfilteredIn none .resumeKey .high).lines.at 5).role = .resumeKey ∧
      ((unfilteredIn none .resumeKey .high).lines.at 5).filtered ≠ ((unfilteredIn none .resumeKey .high).lines.at 5).activeLevel) ∧
    (Level.high ≠ ((unfiltered .teleop none).lines.at 4).activeLevel ∧ ((unfiltered .teleop none).lines.at 5).filterOn = true) := by
  refine ⟨by decide, by decide, by decide +kernel, ⟨by decide +kernel, ⟨by decide, ?_⟩, fun h => h.1 rfl⟩, by decide, by decide⟩
  unfold StopLineOf; decide +kernel

/-- The operands of a LOAD ELEMENT for the last element: the last bus address, field B, SHARED, BOTH. -/
def lastElement : List Byte := [47, 63, 1, 2, 3, 0x80, 7, 0xFF, 0xFF, 0, 0, 0, 0, 1]

/-- An empty entry, and one loaded already, of IDLE fields. -/
theorem witness_LoadElementResult :
    CommandReady (withHead (arena .idle none idle) (manage 0x20 lastElement)) (manage 0x20 lastElement) [] 0x20 lastElement ∧
    (47#8 = elementByte 47 ∧ (63#8).toNat ≤ 63 ∧ 1#8 = fieldByte 1 ∧ ownerOf 2 = some .shared ∧ kindOf 3 = some .both ∧
      (7#8).toNat < 8 ∧ disciplineOf 1 = some .alternate ∧ (0x80#8 ≠ 0 ∧ 7#8 ≠ 0)) ∧
    (∀ j r, ((arena .idle none idle).elements.at 47).rules.at j = some r → r.beneficiary ≠ .owner ∧ r.beneficiary ≠ .opponent) ∧
    ((arena .idle none idle).fields.at 1).phase = .idle ∧
    (∀ l, (arena .idle none idle).loadedAt 47 = some l → ((arena .idle none idle).fields.at l.entry.field).phase = .idle ∧ l.act = none) ∧
    (∀ l, (arena .idle none idle).loadedAt 3 = some l → ((arena .idle none idle).fields.at l.entry.field).phase = .idle ∧ l.act = none) ∧
    (∀ j l, j ≠ 47 → (arena .idle none idle).loadedAt j = some l → l.entry.busAddr ≠ 63#8) := by
  refine ⟨commandReady _ _ _ (by decide), by decide, ?_, by decide, ?_, ?_, ?_⟩
  · have none : ∀ j : Fin 4, ((arena .idle none idle).elements.at 47).rules.at j = none := by decide
    intro j r h
    rw [none j] at h; cases h
  · intro l h; cases h
  · intro l h; cases h; decide
  · intro j l _ h
    have := allLoaded_spec (s := arena .idle none idle) (p := fun _ l => l.entry.busAddr != 63#8) (by decide +kernel) j l h
    simpa using this

/-- An element with a rule that names its owner. -/
def ownerRuled : State := (arena .idle none idle).updElement 3 fun x =>
  { x with rules := x.rules.put 1 (some { auto := 4, teleop := 99, endgame := 7, beneficiary := .owner }) }

/-- Every operand just out of its range; a SENSING entry with an action, an ACTUATING one without an action and a BOTH without a
phase; a rule that names the owner; a live field, and a loaded entry of one; an actuation left over; a bus address in use. -/
theorem witness_LoadElementResult_refused :
    (∀ s ops, answers s = true → CommandReady (withHead s (manage 0x20 ops)) (manage 0x20 ops) [] 0x20 ops) ∧
    (48 ≤ (48#8).toNat ∧ (0#8).toNat = 0 ∧ 63 < (64#8).toNat ∧ 4 ≤ (4#8).toNat ∧ 3 ≤ (3#8).toNat ∧ 8 ≤ (8#8).toNat ∧
      2 ≤ (2#8).toNat) ∧
    (kindOf 1 = some .sensing ∧ 1#8 ≠ 0 ∧ kindOf 2 = some .actuating ∧ kindOf 3 = some .both) ∧
    (answers ownerRuled = true ∧ (ownerRuled.elements.at 3).rules.at 1 =
      some { auto := 4, teleop := 99, endgame := 7, beneficiary := .owner }) ∧
    (answers (arena .post none idle) = true ∧ ((arena .post none idle).fields.at 1).phase ≠ .idle ∧
      ((arena .post none idle).fields.at 0).phase = .idle ∧ (arena .post none idle).loadedAt 3 = some idle ∧ idle.entry.field = 1) ∧
    (answers (arena .idle none { idle with act := some (acting .cancelling) }) = true ∧
      (arena .idle none { idle with act := some (acting .cancelling) }).loadedAt 3 = some { idle with act := some (acting .cancelling) }) ∧
    (answers (arena .idle none idle) = true ∧ (3 : ElementId) ≠ 47 ∧ (arena .idle none idle).loadedAt 3 = some idle ∧
      idle.entry.busAddr = 9#8 ∧ (arena .idle none idle).loadedAt 47 = none) :=
  ⟨fun s ops h => commandReady s _ ops h, by decide, by decide, by decide, ⟨by decide, by decide, by decide, rfl, rfl⟩,
    ⟨by decide, rfl⟩, by decide, by decide, rfl, rfl, rfl⟩

/-- The first number above the elements; an empty entry, a live field, an actuation left over in an IDLE field, an entry to clear; no entry, no fault, a fault. -/
theorem witness_ClearElementCommands :
    (∀ s, answers s = true → ∀ c ∈ [0x21#8, 0x22#8],
      CommandReady (withHead s (manage c [48])) (manage c [48]) [] c [48] ∧ 48 ≤ (48#8).toNat) ∧
    (∀ s, answers s = true → CommandReady (withHead s (manage 0x21 [3])) (manage 0x21 [3]) [] 0x21 [3] ∧
      CommandReady (withHead s (manage 0x22 [3])) (manage 0x22 [3]) [] 0x22 [3]) ∧ elementOf 3 = some 3 ∧
    (answers ready = true ∧ ready.loadedAt 3 = none) ∧
    (answers (arena .teleop none idle) = true ∧ (arena .teleop none idle).loadedAt 3 = some idle ∧
      ((arena .teleop none idle).fields.at idle.entry.field).phase ≠ .idle) ∧
    (answers (arena .idle none { idle with act := some (acting .cancelling) }) = true ∧
      ((arena .idle none idle).fields.at idle.entry.field).phase = .idle ∧ some (acting .cancelling) ≠ none) ∧
    ((∀ c, idle.presence ≠ .faulted c) ∧ ({ idle with presence := .faulted .timeout } : Loaded).presence = .faulted .timeout) :=
  ⟨fun s h _ _ => ⟨commandReady s _ _ h, by decide⟩, fun s h => ⟨commandReady s _ _ h, commandReady s _ _ h⟩, rfl, ⟨by decide, rfl⟩, ⟨by decide, rfl, by decide⟩,
    ⟨by decide, by decide, by decide⟩, (by intro c h; cases h), rfl⟩

/-- A HOLDER rule and an OWNER rule of a SHARED element in an IDLE field, and a HOLDER rule in a live field. -/
theorem witness_LoadScoreRuleResult :
    (CommandReady (withHead (arena .idle none idle) (manage 0x23 [3, 3, 255, 99, 0, 2])) (manage 0x23 [3, 3, 255, 99, 0, 2])
        [] 0x23 [3, 3, 255, 99, 0, 2] ∧ elementOf 3 = some 3 ∧ eventKindOf 3 = some 3 ∧ beneficiaryOf 2 = some .holder ∧
      ∀ l, (arena .idle none idle).loadedAt 3 = some l → ((arena .idle none idle).fields.at l.entry.field).phase = .idle ∧
        (l.entry.owner = .shared → Beneficiary.holder ≠ .owner ∧ Beneficiary.holder ≠ .opponent)) ∧
    (CommandReady (withHead (arena .idle none idle) (manage 0x23 [3, 3, 0, 0, 0, 0])) (manage 0x23 [3, 3, 0, 0, 0, 0])
        [] 0x23 [3, 3, 0, 0, 0, 0] ∧ beneficiaryOf 0 = some .owner ∧ idle.entry.owner = .shared) ∧
    (CommandReady (withHead (arena .post none idle) (manage 0x23 [3, 3, 0, 0, 0, 2])) (manage 0x23 [3, 3, 0, 0, 0, 2])
        [] 0x23 [3, 3, 0, 0, 0, 2] ∧ (arena .post none idle).loadedAt 3 = some idle ∧
      ((arena .post none idle).fields.at idle.entry.field).phase ≠ .idle) ∧
    (CommandReady (withHead ready (manage 0x23 [48, 3, 0, 0, 0, 4])) (manage 0x23 [48, 3, 0, 0, 0, 4]) [] 0x23 [48, 3, 0, 0, 0, 4] ∧
      48 ≤ (48#8).toNat) := by
  refine ⟨⟨commandReady _ _ _ (by decide), rfl, rfl, rfl, ?_⟩, ⟨commandReady _ _ _ (by decide), rfl, rfl⟩,
    ⟨commandReady _ _ _ (by decide), rfl, by decide⟩, commandReady _ _ _ (by decide), by decide⟩
  intro l h; cases h; exact ⟨by decide, fun _ => ⟨by decide, by decide⟩⟩

/-- A live field; IDLE and POST fields with the bus RUNNING and with it PAUSED. -/
theorem witness_BusPauseAndResume :
    (CommandReady (withHead (arena .pre none idle) (manage 0x33 [])) (manage 0x33 []) [] 0x33 [] ∧
      ∃ g, ((arena .pre none idle).fields.at g).phase.stoppable = true) ∧
    (CommandReady (withHead ready (manage 0x33 [])) (manage 0x33 []) [] 0x33 [] ∧
      (∀ g, (ready.fields.at g).phase.stoppable = false) ∧ ready.bus.state = .running) ∧
    (CommandReady (withHead (arena .post none idle) (manage 0x33 [])) (manage 0x33 []) [] 0x33 [] ∧
      (∀ g, ((arena .post none idle).fields.at g).phase.stoppable = false) ∧ (arena .post none idle).bus.state = .paused) ∧
    CommandReady (withHead (arena .post none idle) (manage 0x34 [])) (manage 0x34 []) [] 0x34 [] ∧
    CommandReady (withHead ready (manage 0x34 [])) (manage 0x34 []) [] 0x34 [] :=
  ⟨⟨commandReady _ _ _ (by decide), by decide⟩, ⟨commandReady _ _ _ (by decide), by decide⟩,
    ⟨commandReady _ _ _ (by decide), by decide⟩, commandReady _ _ _ (by decide), commandReady _ _ _ (by decide)⟩

/-! ### Witnesses: the score tally -/

theorem witness_DigitAdder : 9999 ≤ 9999 ∧ Bcd.max = Bcd.ofNat 9999 := by decide

/-- Points 99 and count 15, points 0, and a field in PRE. -/
theorem witness_PenaltyResult :
    (CommandReady (withHead (arena .post none idle) (manage 0x50 [1, 1, 99, 15])) (manage 0x50 [1, 1, 99, 15]) [] 0x50 [1, 1, 99, 15] ∧
      1#8 = fieldByte 1 ∧ 1#8 = byte Alliance.west.code ∧ (99#8).toNat ≤ 99 ∧ (15#8).toNat ≤ 15 ∧
      ((arena .post none idle).fields.at 1).phase ≠ .idle ∧ ((arena .post none idle).fields.at 1).phase ≠ .pre) ∧
    (CommandReady (withHead (arena .post none idle) (manage 0x50 [1, 1, 100, 1])) (manage 0x50 [1, 1, 100, 1]) [] 0x50 [1, 1, 100, 1] ∧
      99 < (100#8).toNat) ∧
    (CommandReady (withHead (arena .pre none idle) (manage 0x50 [1, 0, 1, 1])) (manage 0x50 [1, 0, 1, 1]) [] 0x50 [1, 0, 1, 1] ∧
      ((arena .pre none idle).fields.at 1).phase = .pre) :=
  ⟨⟨commandReady _ _ _ (by decide), by decide⟩, ⟨commandReady _ _ _ (by decide), by decide⟩, commandReady _ _ _ (by decide), by decide⟩

/-- Amounts −999 and 999, −1000, and a field in IDLE. -/
theorem witness_CorrectResult :
    (CommandReady (withHead (arena .auto none idle) (manage 0x51 [1, 0, 0xFC, 0x19])) (manage 0x51 [1, 0, 0xFC, 0x19]) [] 0x51 [1, 0, 0xFC, 0x19] ∧
      1#8 = fieldByte 1 ∧ 0#8 = byte Alliance.east.code ∧ int16 0xFC 0x19 = -999 ∧ int16 0x03 0xE7 = 999 ∧
      ((arena .auto none idle).fields.at 1).phase ≠ .idle ∧ ((arena .auto none idle).fields.at 1).phase ≠ .pre) ∧
    (CommandReady (withHead (arena .auto none idle) (manage 0x51 [1, 0, 0xFC, 0x18])) (manage 0x51 [1, 0, 0xFC, 0x18]) [] 0x51 [1, 0, 0xFC, 0x18] ∧
      int16 0xFC 0x18 < -999) ∧
    (CommandReady (withHead ready (manage 0x51 [0, 1, 0x03, 0xE7])) (manage 0x51 [0, 1, 0x03, 0xE7]) [] 0x51 [0, 1, 0x03, 0xE7] ∧
      (ready.fields.at 0).phase = .idle) :=
  ⟨⟨commandReady _ _ _ (by decide), by decide⟩, ⟨commandReady _ _ _ (by decide), by decide⟩, commandReady _ _ _ (by decide), by decide⟩

/-- The arena with one rule on element 3. -/
def ruled (p : Phase) (b : Beneficiary) (l : Loaded) : State :=
  (arena p none l).updElement 3 fun x =>
    { x with rules := x.rules.put 1 (some { auto := 4, teleop := 99, endgame := 7, beneficiary := b }) }

/-- A report that is late, one without a rule, one without a holder, and ones that are scored, the last in POST. -/
theorem witness_ReportIsJudged :
    ((arena .pre none idle).loadedAt 3 = some idle ∧ 15 ≤ 15 ∧ (arena .pre none idle).mgmt.notices.length < 16 ∧
      scoredByPhase ((arena .pre none idle).fields.at 1) = false) ∧
    (scoredByPhase ((arena .teleop none idle).fields.at 1) = true ∧ ((arena .teleop none idle).elements.at 3).rules.at 1 = none) ∧
    (∃ r, ((ruled .teleop .holder idle).elements.at 3).rules.at 1 = some r ∧ r.beneficiary = .holder ∧ idle.hold = none) ∧
    (∃ r, scoredByPhase ((ruled .teleop .holder { idle with hold := some hold }).fields.at 1) = true ∧
      ((ruled .teleop .holder { idle with hold := some hold }).elements.at 3).rules.at 1 = some r ∧ r.auto ≤ 99 ∧ r.teleop ≤ 99 ∧
      r.endgame ≤ 99 ∧ (ruled .teleop .holder { idle with hold := some hold }).creditedAlliance { idle with hold := some hold } r.beneficiary =
        some .east) ∧
    (∃ r, scoredByPhase ((ruled .post .west idle).fields.at 1) = true ∧ ((ruled .post .west idle).elements.at 3).rules.at 1 = some r ∧
      (ruled .post .west idle).creditedAlliance idle r.beneficiary = some .west) ∧
    ((∀ o, ({ idle with entry := { entry with owner := o } } : Loaded).entry.owner = o) ∧ idle.hold = none ∧
      ({ idle with hold := some hold } : Loaded).hold = some hold ∧
      ((arena .teleop none idle).slots.at hold.slot).placing = some { field := 1, alliance := .east, position := 1 }) :=
  ⟨by decide, by decide, ⟨_, rfl, rfl, rfl⟩, ⟨_, rfl, rfl, by decide, by decide, by decide, rfl⟩, ⟨_, rfl, rfl, rfl⟩,
    fun _ => rfl, rfl, rfl, rfl⟩

/-! ### Witnesses: matches -/

/-- A part with slots 0 to 31 loaded and free, and field B in a phase. -/
def staffed (p : Phase) : State :=
  { ready with slots := Table.fill 32 { Slot.free with team := 448 }, fields := ready.fields.put 1 (matchIn p none) }

/-- The operands of a LOAD MATCH of field D: match 999, A 300.0 s, P 100.0 s, T and E 300.0 s. -/
def longMatch (places : List Byte) : List Byte :=
  [3, 0x03, 0xE7, 0x0B, 0xB8, 0x03, 0xE8, 0x0B, 0xB8, 0x0B, 0xB8] ++ places

/-- Six slots with the last one empty, a slot twice, and no slot at all; a field that no line stops, and one that a line does. -/
theorem witness_LoadMatchResult :
    (CommandReady (withHead (staffed .idle) (manage 0x40 (longMatch [31, 0, 1, 2, 3, 0xFF]))) (manage 0x40 (longMatch [31, 0, 1, 2, 3, 0xFF]))
        [] 0x40 (longMatch [31, 0, 1, 2, 3, 0xFF]) ∧ [31#8, 0, 1, 2, 3, 0xFF].length = 6 ∧ (staffed .idle).mgmt.mode = .commissioned ∧
      3#8 = fieldByte 3 ∧ nat16 0x03 0xE7 ≤ 999 ∧ nat16 0x0B 0xB8 ≤ 3000 ∧ nat16 0x03 0xE8 ≤ 1000 ∧
      ((staffed .idle).fields.at 3).phase = .idle ∧ ∃ list, placesOf [31, 0, 1, 2, 3, 0xFF] = some list ∧
        (∀ i ∈ listedSlots list, ((staffed .idle).slots.at i).team ≠ 0 ∧ ((staffed .idle).slots.at i).placing = none) ∧ (listedSlots list).Nodup) ∧
    (∃ list, placesOf [31, 31, 1, 2, 3, 0xFF] = some list ∧ ¬ (listedSlots list).Nodup) ∧
    (∃ list, placesOf [2, 0xFF, 0xFF, 0xFF, 0xFF, 0xFF] = some list ∧ (∃ i ∈ listedSlots list, (ready.slots.at i).team = 0) ∧
      (∀ i ∈ listedSlots list, ((arena .idle none idle).slots.at i).team ≠ 0) ∧
      (∃ i ∈ listedSlots list, ((arena .idle none idle).slots.at i).placing ≠ none)) ∧
    (((staffed .post).fields.at 1).phase ≠ .idle ∧ State.reset.mgmt.mode ≠ .commissioned ∧ nat16 0 0 = 0 ∧ 999 < nat16 0x03 0xE8 ∧
      ({ ready with mgmt := { ready.mgmt with mode := .uncommissioned } } : State).mgmt.mode = .uncommissioned) ∧
    (heldCause (staffed .idle).lines 3 = none ∧
      heldCause ((staffed .idle).lines.put 12 { (staffed .idle).lines.at 12 with filtered := .low }) 3 ≠ none ∧
      ({ idle with entry := { entry with field := 3 } } : Loaded).entry.field = 3 ∧ 3 ∉ (staffed .idle).bus.safeQueue) :=
  ⟨⟨commandReady _ _ _ (by decide), by decide, by decide, by decide, by decide, by decide, by decide, by decide,
    _, rfl, by decide, by decide⟩, ⟨_, rfl, by decide⟩, ⟨_, rfl, by decide, by decide, by decide⟩, by decide, by decide⟩

/-- The arena with its STOP line inactive, active, or inactive with its edge flag set. -/
def lined (stop : Option StopCause) (level : Level) (edge : Bool) : State :=
  { arena .teleop stop idle with lines := ready.lines.put 4 { ready.lines.at 4 with filtered := level, edge } }

theorem witness_StartAndResumeResult :
    (∀ s : State, ∀ c : Byte, answers s = true → CommandReady (withHead s (manage c [4])) (manage c [4]) [] c [4] ∧ 4 ≤ (4#8).toNat) ∧
    (∀ s : State, ∀ c : Byte, answers s = true → CommandReady (withHead s (manage c [fieldByte 1])) (manage c [fieldByte 1]) [] c [fieldByte 1]) ∧
    (answers (arena .pre none idle) = true ∧ ((arena .pre none idle).fields.at 1).stopped = none ∧
      answers (arena .pre (some (.line 4)) idle) = true ∧ ((arena .pre (some (.line 4)) idle).fields.at 1).stopped ≠ none ∧
      answers ready = true ∧ (ready.fields.at 1).phase ≠ .pre) ∧
    (answers (lined none .high false) = true ∧ ((lined none .high false).fields.at 1).stopped = none) ∧
    (answers (lined (some .console) .low true) = true ∧ ((lined (some .console) .low true).lines.at 4).role = .stop ∧
      lineField 4 = 1 ∧ ((lined (some .console) .low true).lines.at 4).filtered = ((lined (some .console) .low true).lines.at 4).activeLevel) ∧
    (answers (lined (some .console) .high true) = true ∧
      (∀ n, ((lined (some .console) .high true).lines.at n).role = .stop ∧ lineField n = 1 ∨ ((lined (some .console) .high true).lines.at n).role = .hallStop →
        ((lined (some .console) .high true).lines.at n).filtered ≠ ((lined (some .console) .high true).lines.at n).activeLevel) ∧
      ((lined (some .console) .high true).lines.at 4).edge = true) ∧
    (answers (lined (some .console) .high false) = true ∧
      ∀ n, ((lined (some .console) .high false).lines.at n).role = .stop ∧ lineField n = 1 ∨ ((lined (some .console) .high false).lines.at n).role = .hallStop →
        ((lined (some .console) .high false).lines.at n).filtered ≠ ((lined (some .console) .high false).lines.at n).activeLevel ∧
        ((lined (some .console) .high false).lines.at n).edge = false) :=
  ⟨fun s c h => ⟨commandReady s c _ h, by decide⟩, fun s c h => commandReady s c _ h, by decide, by decide, by decide, by decide, by decide⟩

/-- A field above 3; both commands in every phase and stop state; slot 2 with an open gate, a claim and a hold; a RUNNING and a sent WAITING-BUS
actuation. -/
theorem witness_StopAndAbortResult :
    (∀ c ∈ [0x42#8, 0x44#8], CommandReady (withHead ready (manage c [4])) (manage c [4]) [] c [4] ∧ 4 ≤ (4#8).toNat) ∧
    (∀ p stop l, CommandReady (withHead (arena p stop l) (manage 0x42 [fieldByte 1])) (manage 0x42 [fieldByte 1]) [] 0x42 [fieldByte 1] ∧
      CommandReady (withHead (arena p stop l) (manage 0x44 [fieldByte 1])) (manage 0x44 [fieldByte 1]) [] 0x44 [fieldByte 1] ∧
      ((arena p stop l).fields.at 1).phase = p ∧ ((arena p stop l).fields.at 1).stopped = stop ∧
      (arena p stop l).loadedAt 3 = some l ∧ (arena p stop l).slotField 2 = some 1) ∧
    ((Phase.teleop ≠ .idle ∧ Phase.teleop ≠ .pre ∧ Phase.teleop ≠ .post) ∧ (Phase.pre ≠ .idle ∧ Phase.pre ≠ .post)) ∧
    (idle.entry.field = 1 ∧ idle.presence = .present ∧ (arena .teleop none idle).mgmt.notices.length < 16) ∧
    ((arena .teleop none waits).gateOpen 2 = true ∧ (arena .teleop none waits).ClaimsDistinct) ∧
    (∀ a ∈ [acting .running, acting .waitingBus], a.state ≠ .waitingBus ∨ a.sent = true) := by
  refine ⟨fun _ _ => ⟨commandReady _ _ _ (by decide), by decide⟩, fun _ _ _ => ⟨commandReady _ _ _ rfl, commandReady _ _ _ rfl, rfl, rfl, rfl, rfl⟩, by decide, by decide, ⟨by decide, fun e l h => ?_⟩,
    by decide⟩
  simpa using allLoaded_spec (s := arena .teleop none waits) (p := fun _ l => decide (l.claims.map (·.slot)).Nodup) (by decide +kernel) e l h

/-- What a stop or an abort of some fields finds: element 3, kept as `l`, PRESENT on one of them and not in the SAFE queue, its
hold and a claim of slots whose gates shut, no slot of another field on it, and an actuation that is made CANCELLING. -/
structure Shuts (fields : List FieldId) (s : State) (l : Loaded) : Prop where
  distinct : s.ClaimsDistinct
  loaded : s.loadedAt 3 = some l
  hold : ∃ h, l.hold = some h ∧ s.ShutWith fields h.slot
  claim : ∃ c ∈ l.claims, s.ShutWith fields c.slot ∧ s.OneFieldOn l c.slot
  element : l.entry.field ∈ fields ∧ l.presence = .present ∧ 3 ∉ s.bus.safeQueue
  act : ∃ a, l.act = some a ∧ (a.state ≠ .waitingBus ∨ a.sent = true)

/-- Slot 2 holds the element, with an actuation, and slot 8 waits for it. -/
def engaged (a : ActState) : Loaded := { holds (some (acting a)) none with claims := [claimOf 8] }

/-- Slot 2 holds element 3, whose phase mask is `mask` and whose queue is `queue`; slot 9 is past the timeout; slots 2, 8 and 9
are on field B. -/
def claimedIn (p : Phase) (mask : BitVec 3) (queue : List Claim) : State :=
  let place (a : Alliance) (position : Nat) : Slot := { Slot.free with team := 448, placing := some { field := 1, alliance := a, position } }
  { arena p none { holds none none with entry := { entry with phaseMask := mask }, claims := queue } with
    slots := (((arena p none idle).slots.put 8 (place .east 2)).put 9 { place .west 1 with age := 501 }) }

/-- The state with those slots, and element 3 engaged. -/
def engagedIn (s : State) (a : ActState) : State :=
  { s with slots := (claimedIn .teleop 7 []).slots, elements := (arena .teleop none (engaged a)).elements }

theorem engaged_shuts (s : State) (a : ActState) (fields : List FieldId) (hf : 1 ∈ fields)
    (h2 : (engagedIn s a).gateOpen 2 = true) (h8 : (engagedIn s a).gateOpen 8 = true) (hq : 3 ∉ s.bus.safeQueue) :
    Shuts fields (engagedIn s a) (engaged a) := by
  refine ⟨fun e l h => ?_, rfl, ⟨_, rfl, 1, hf, rfl, h2⟩, ⟨_, List.mem_singleton_self _, ⟨1, hf, rfl, h8⟩, fun j hj => ?_⟩,
    ⟨hf, rfl, hq⟩, _, rfl, .inr rfl⟩
  · simpa using allLoaded_spec (s := arena .teleop none (engaged a)) (p := fun _ l => decide (l.claims.map (·.slot)).Nodup)
      (by cases a <;> decide +kernel) e l h
  · refine ⟨fun c hc hcj => ?_, fun h hh hcj => ?_⟩
    · cases List.mem_singleton.mp hc; subst hcj; exact hj rfl
    · cases hh; subst hcj; exact hj rfl

/-- The stops and the abort of field B: the console's, a sampled STOP and HALL-STOP line, an unfiltered STOP line, and an
unfiltered HALL-STOP line. -/
def shutting : List (Instr × State) :=
  [(.stop, withHead (arena .teleop none idle) (manage 0x42 [1])), (.abort, withHead (arena .teleop none idle) (manage 0x44 [1])),
    (.lineSample 0xFFCF, fourLines none mixed fun _ => false), (.unfilteredLineChange 4 .low, unfiltered .teleop none),
    (.unfilteredLineChange 4 .low, unfilteredIn none .hallStop .high)]

/-- Each of them finds the engaged element, and leaves room for the verdicts and the notice; an element with nothing to lose,
and one of another field. -/
theorem witness_FieldsShut :
    (∀ p ∈ shutting, ∀ a ∈ [ActState.running, .waitingBus], Shuts [1] (engagedIn p.2 a) (engaged a) ∧
      ∃ t, exec p.1 (engagedIn p.2 a) = .next t ∧ t.link.verdicts.length < 16 ∧
        (engagedIn p.2 a).mgmt.notices.length + 1 ≤ 16) ∧
    (∀ i, idle.freeOf i) ∧ ({ entry with field := 0 } : ElementEntry).field ∉ [(1 : FieldId)] := by
  refine ⟨fun p hp a ha => ⟨?_, ?_⟩, fun i => ⟨nofun, nofun⟩, by decide⟩
  · have : ∀ p ∈ shutting, ∀ a ∈ [ActState.running, .waitingBus], (engagedIn p.2 a).gateOpen 2 = true ∧
        (engagedIn p.2 a).gateOpen 8 = true ∧ 3 ∉ p.2.bus.safeQueue := by decide +kernel
    obtain ⟨h2, h8, hq⟩ := this p hp a ha
    exact engaged_shuts _ _ _ (by decide) h2 h8 hq
  · have : ∀ p ∈ shutting, ∀ a ∈ [ActState.running, .waitingBus], after p.1 (engagedIn p.2 a) (fun t =>
      decide (t.link.verdicts.length < 16 ∧ (engagedIn p.2 a).mgmt.notices.length + 1 ≤ 16)) = true := by decide +kernel
    obtain ⟨t, ht, h⟩ := after_spec (this p hp a ha)
    exact ⟨t, ht, of_decide_eq_true h⟩

theorem witness_CommitAndResetResult :
    (∀ c ∈ [0x45#8, 0x46#8], CommandReady (withHead ready (manage c [4])) (manage c [4]) [] c [4] ∧ 4 ≤ (4#8).toNat) ∧
    ((Instr.commit, 0x45#8) ∈ [(Instr.commit, 0x45#8), (.resetMatch, 0x46#8)] ∧ (Instr.resetMatch, 0x46#8) ∈ [(Instr.commit, 0x45#8), (.resetMatch, 0x46#8)]) ∧
    (∀ p, CommandReady (withHead (arena p none idle) (manage 0x45 [fieldByte 1])) (manage 0x45 [fieldByte 1]) [] 0x45 [fieldByte 1] ∧
      CommandReady (withHead (arena p none idle) (manage 0x46 [fieldByte 1])) (manage 0x46 [fieldByte 1]) [] 0x46 [fieldByte 1] ∧
      ((arena p none idle).fields.at 1).phase = p) ∧
    ((2 : SlotId) ∈ listedSlots ((arena .post none idle).fields.at 1).list ∧ (3 : SlotId) ∉ listedSlots ((arena .post none idle).fields.at 1).list) :=
  ⟨fun _ _ => ⟨commandReady _ _ _ (by decide), by decide⟩, by decide, fun _ => ⟨commandReady _ _ _ rfl, commandReady _ _ _ rfl, rfl⟩, by decide⟩

/-- A slot above 31; a placed slot with its flags clear and with one set, and a slot in no match; the element is held by the
slot, the slot waits for it, and verdicts have room. -/
theorem witness_DisableAndBypassResult :
    (∀ c ∈ [0x47#8, 0x48#8], CommandReady (withHead ready (manage c [32])) (manage c [32]) [] c [32] ∧ 32 ≤ (32#8).toNat) ∧
    ((arena .teleop none waits).gateOpen 2 = true ∧ claimOf 2 ∈ waits.claims ∧
      ∀ p ∈ [(Instr.disableSlot, 0x47#8), (.bypassSlot, 0x48#8)], ∀ l ∈ [waits, { contended with hold := some hold }],
        ∃ t, exec p.1 (withHead (arena .teleop none l) (manage p.2 [2])) = .next t ∧ t.link.verdicts.length < 16) ∧
    (∀ s : State, ∀ c : Byte, answers s = true → CommandReady (withHead s (manage c [byte (2 : SlotId).val])) (manage c [byte (2 : SlotId).val]) []
      c [byte (2 : SlotId).val]) ∧
    (answers ready = true ∧ (ready.slots.at 2).placing = none) ∧
    (answers (slotIn .teleop fun x => { x with disabled := true }) = true ∧
      ((slotIn .teleop fun x => { x with disabled := true }).slots.at 2).placing ≠ none ∧
      ((slotIn .teleop fun x => { x with disabled := true }).slots.at 2).disabled = true) ∧
    (answers (arena .teleop none { contended with hold := some hold }) = true ∧
      ((arena .teleop none { contended with hold := some hold }).slots.at 2).placing = some { field := 1, alliance := .east, position := 1 } ∧
      ((arena .teleop none { contended with hold := some hold }).slots.at 2).bypassed = false ∧
      (arena .teleop none { contended with hold := some hold }).gateOpen 2 = true ∧
      (arena .teleop none { contended with hold := some hold }).ClaimsDistinct) := by
  refine ⟨fun _ _ => ⟨commandReady _ _ _ (by decide), by decide⟩, ⟨by decide, by decide, fun p hp l hl => ?_⟩,
    fun s c h => commandReady s c _ h, by decide, by decide, by decide, by decide, by decide, by decide, ?_⟩
  · have : ∀ p ∈ [(Instr.disableSlot, 0x47#8), (.bypassSlot, 0x48#8)], ∀ l ∈ [waits, { contended with hold := some hold }],
        after p.1 (withHead (arena .teleop none l) (manage p.2 [2])) (fun t => decide (t.link.verdicts.length < 16)) = true := by
      decide +kernel
    obtain ⟨t, ht, h⟩ := after_spec (this p hp l hl)
    exact ⟨t, ht, of_decide_eq_true h⟩
  intro e l h
  have := allLoaded_spec (s := arena .teleop none { contended with hold := some hold })
    (p := fun _ l => decide (l.claims.map (·.slot)).Nodup) (by decide +kernel) e l h
  simpa using this

/-- Entry to PAUSE from AUTO shuts slot 2's gate; entry to TELEOP finds an element whose mask lacks it; slot 9 is found silent
on both; START of a match does so too; and there is room for the notices and verdicts. -/
theorem witness_PhaseAnnounced :
    ((claimedIn .auto 7 [claimOf 8]).PhaseTakes 1 .pause { holds none none with claims := [claimOf 8] } 2 ∧
      (claimedIn .auto 7 [claimOf 8]).PhaseTakes 1 .pause { holds none none with claims := [claimOf 8] } 8) ∧
    ((claimedIn .pause 1 [claimOf 8]).PhaseTakes 1 .teleop { holds none none with entry := { entry with phaseMask := 1 } } 2 ∧
      ∀ i, ¬ (claimedIn .pause 7 []).PhaseTakes 1 .teleop { holds none none with entry := { entry with phaseMask := 7 } } i) ∧
    ((claimedIn .auto 7 []).silentAtEntry 1 .pause = [9] ∧ (claimedIn .pre 7 []).silentAtEntry 1 .auto = [9] ∧
      (claimedIn .endgame 7 []).silentAtEntry 1 .post = []) ∧
    ((claimedIn .auto 7 [claimOf 8]).mgmt.notices.length + 1 < 16 ∧ (claimedIn .auto 7 [claimOf 8]).ClaimsDistinct ∧
      ∃ t, exec (.pauseExpiry 1) (claimedIn .pause 1 [claimOf 8]) = .next t ∧ t.link.verdicts.length < 16) := by
  refine ⟨⟨.inl ⟨.inl rfl, rfl, by decide⟩, .inl ⟨.inl rfl, rfl, by decide⟩⟩, ⟨.inr ⟨.inl rfl, rfl, by decide⟩, ?_⟩,
    by decide +kernel, by decide, fun e l h => ?_, _, rfl, by decide +kernel⟩
  · rintro i (⟨h | h, _⟩ | ⟨_, _, h⟩)
    · cases h
    · cases h
    · exact absurd h (by decide)
  · simpa using allLoaded_spec (s := claimedIn .auto 7 [claimOf 8]) (p := fun _ l => decide (l.claims.map (·.slot)).Nodup)
      (by decide +kernel) e l h

/-- The field in each of the phases that expire, with and without an ENDGAME. -/
theorem witness_PhaseExpiries :
    (∀ p, ((arena p none idle).fields.at 1).stopped = none ∧ ((arena p none idle).fields.at 1).phase = p ∧
      ((arena p none idle).fields.at 1).aborted = false ∧ 0 < ((arena p none idle).fields.at 1).durE) ∧
    (((arena .teleop none idle).updField 1 fun m => { m with durE := 0 }).fields.at 1).phase = .teleop ∧
    (((arena .teleop none idle).updField 1 fun m => { m with durE := 0 }).fields.at 1).durE = 0 :=
  ⟨fun _ => ⟨rfl, rfl, rfl, by simp [arena, matchIn, Table.at, Table.put]⟩, rfl, rfl⟩

/-! ### Witnesses: periods, silence, the action limit -/

theorem witness_PeriodsAndCountdowns :
    (ready.mgmt.mode ≠ .starting ∧ ({ ready with bus := { ready.bus with probeLeft := some 200 } } : State).bus.probeLeft ≠ none) ∧
    (∃ l, (between 2).loadedAt 3 = some l ∧ l.resend ≠ none ∧ l.actionPoll ≠ none ∧ l.sensor ≠ none) ∧
    (∃ l, (arena .teleop none { idle with presence := .absent }).loadedAt 3 = some l ∧ (l.presence = .unknown ∨ l.presence = .absent)) :=
  ⟨by decide, ⟨_, rfl, by decide, by decide, by decide⟩, _, rfl, .inr rfl⟩

/-- Slot 2 holds the element, or waits for it. -/
theorem witness_SilentTimeoutResult :
    (claimOf 2 ∈ waits.claims ∧ ∀ l ∈ [waits, { contended with hold := some hold }],
      ∃ t, exec (.silentTimeout 2) (arena .endgame none l) = .next t ∧ t.link.verdicts.length < 16) ∧
    ((arena .endgame none { contended with hold := some hold }).slots.at 2).silent = false ∧
    (arena .endgame none { contended with hold := some hold }).slotField 2 = some 1 ∧
    ((arena .endgame none { contended with hold := some hold }).fields.at 1).phase.timed = true ∧
    (arena .endgame none { contended with hold := some hold }).ClaimsDistinct := by
  refine ⟨⟨by decide, fun l hl => ?_⟩, by decide, by decide, by decide, ?_⟩
  · have : ∀ l ∈ [waits, { contended with hold := some hold }], after (.silentTimeout 2) (arena .endgame none l)
        (fun t => decide (t.link.verdicts.length < 16)) = true := by decide +kernel
    obtain ⟨t, ht, h⟩ := after_spec (this l hl)
    exact ⟨t, ht, of_decide_eq_true h⟩
  intro e l h
  have := allLoaded_spec (s := arena .endgame none { contended with hold := some hold })
    (p := fun _ l => decide (l.claims.map (·.slot)).Nodup) (by decide +kernel) e l h
  simpa using this

theorem witness_ActionLimitResult : ∃ l a, (arena .teleop none { idle with act := some (acting .cancelling) }).loadedAt 3 = some l ∧
    l.act = some a ∧ (a.state = .running ∨ a.state = .cancelling) ∧ l.presence = .present ∧ l.claims = [] ∧ l.hold = none :=
  ⟨_, _, rfl, rfl, .inr rfl, rfl, rfl, rfl⟩

/-! ### Witnesses: the transmitter -/

/-- A transmitter that is FREE with one item of every kind waiting, as far as the marks say. -/
def waiting (urgent verdict held routine reply notice tell : Bool) : State :=
  { arena .teleop none idle with
    beacons := { ready.beacons with urgent := Table.fill 4 urgent, routine := Table.fill 4 routine }
    slots := (arena .teleop none idle).slots.put 31 { Slot.free with held := if held then some (driver 0x10 [0]) else none }
    link := { ready.link with
      verdicts := if verdict then [{ slot := 2, element := 3, outcome := .granted, tag := 5 }] else []
      replies := if reply then [{ seq := 0, code := 3, outcome := .done [] }] else []
      tells := if tell then [robot 0x11 []] else [] }
    mgmt := { ready.mgmt with notices := if notice then [{ dropped := 0, content := .silent 0 }] else [], restartPending := true } }

/-- Each source with every source before it empty and every source after it waiting; the round robin goes past slot 31. -/
theorem witness_TransmitterOrder :
    (∀ b c d e f g : Bool, (waiting true b c d e f g).link.transmitter = .free ∧ (waiting true b c d e f g).beacons.urgent.at 0 = true) ∧
    (∀ f, (waiting false true true true true true true).beacons.urgent.at f = false) ∧ (waiting false true true true true true true).link.verdicts ≠ [] ∧
    ((waiting false false true true true true true).link.verdicts = [] ∧
      ((waiting false false true true true true true).slots.at ((waiting false false true true true true true).link.lastServed + 1 + 31)).held ≠ none ∧
      ∀ j : Fin 32, j < 31 → ((waiting false false true true true true true).slots.at ((waiting false false true true true true true).link.lastServed + 1 + j)).held = none) ∧
    ((∀ i, ((waiting false false false true true true true).slots.at i).held = none) ∧ (waiting false false false true true true true).beacons.routine.at 0 = true) ∧
    ((∀ f, (waiting false false false false true true true).beacons.routine.at f = false) ∧ (waiting false false false false true true true).link.replies ≠ []) ∧
    ((waiting false false false false false true true).link.replies = [] ∧ (waiting false false false false false true true).mgmt.notices ≠ []) ∧
    ((waiting false false false false false false true).mgmt.notices = [] ∧ (waiting false false false false false false true).link.tells ≠ []) ∧
    ((waiting false false false false false false false).link.tells = [] ∧ Transmitter.gap ≠ .free ∧
      Transmitter.sending [] .mbit1 true = .sending [] .mbit1 true ∧ Transmitter.sending [] .mbit1 false ≠ .free) :=
  ⟨fun _ _ _ _ _ _ => ⟨rfl, rfl⟩, by decide, by decide, by decide, by decide, by decide, by decide, by decide, by decide⟩

/-- A beacon is due for field B, whose first place holds slot 2; the slot holds element 3 and no lower one. -/
def beaconDue : State :=
  { arena .teleop none (holds none none) with beacons := { ready.beacons with urgent := (Table.fill 4 false).put 1 true } }

/-- The beacon of a field without a match, and of one with a slot that holds an element, in a phase of each kind. -/
theorem witness_TakeBeaconResult : (waiting true true true true true true true).nextTake = some (.beacon 0) ∧
    (beaconDue.nextTake = some (.beacon 1) ∧ (beaconDue.fields.at 1).phase.timed = true ∧
      (beaconDue.fields.at 1).list.at 0 = some 2) ∧
    (beaconDue.Holds 2 3 ∧ ∀ j, j < 3 → ¬ beaconDue.Holds 2 j) ∧
    (∀ e, ¬ (arena .teleop none idle).Holds 2 e) ∧
    (∀ p, ((arena p none idle).fields.at 1).phase = p) := by
  have only : ∀ (l : Loaded) (s : State), s.elements = (arena .teleop none l).elements → ∀ e, s.Holds 2 e → e = 3 ∧ l.hold ≠ none := by
    rintro l s he e ⟨m, h, hm, hh, -⟩
    have hm' : (arena .teleop none l).loadedAt e = some m := by rw [← hm]; unfold State.loadedAt; rw [he]
    by_cases h3 : e = 3
    · subst h3
      have : some l = some m := hm'
      cases this
      exact ⟨rfl, by rw [hh]; exact nofun⟩
    · have : (arena .teleop none l).loadedAt e = none := by
        simp [State.loadedAt, arena, ready, State.reset, h3, Element.empty]
      rw [this] at hm'; cases hm'
  refine ⟨by decide, by decide, ⟨⟨_, _, rfl, rfl, rfl⟩, fun j hj h => ?_⟩, fun e h => (only idle _ rfl e h).2 rfl, fun _ => rfl⟩
  have := (only (holds none none) _ rfl j h).1
  subst this
  exact absurd hj (by decide)

/-- Each take; a verdict and a DRIVE for a slot without a ROBOT entry too; gates of a slot in no match, disabled, bypassed, of
a STOPPED field, and of a field in every phase. -/
theorem witness_TakeQueuedItems :
    ((arena .teleop none idle).NoStation .robot 31 ∧ ∀ r : Radio,
      ((slotIn .teleop fun x => { x with radio := r }).slots.at 2).radio = r ∧
      (slotIn .teleop fun x => { x with radio := r }).OnlyStation .robot 2 robotStation) ∧
    ((waiting false true true true true true true).nextTake = some .verdict ∧ (waiting false true true true true true true).radioAddress 2 = some 0x05#8 ∧
      ready.radioAddress 2 = none) ∧
    ((waiting false false true true true true true).nextTake = some (.drive 31) ∧
      ((waiting false false true true true true true).slots.at 31).held = some (driver 0x10 [0]) ∧ (driver 0x10 [0]).payload = 0 :: [] ∧
      (waiting false false true true true true true).radioAddress 31 = none) ∧
    ((slotIn .teleop fun x => { x with held := some (driver 0x10 [0]) }).nextTake = some (.drive 2) ∧
      (slotIn .teleop fun x => { x with held := some (driver 0x10 [0]) }).radioAddress 2 = some 0x05#8) ∧
    (waiting false false false false true true true).nextTake = some .reply ∧
    (waiting false false false false false true true).nextTake = some .notice ∧
    (waiting false false false false false false true).nextTake = some .tell ∧
    ((ready.slots.at 2).placing = none ∧ ((slotIn .teleop fun x => { x with disabled := true }).slots.at 2).disabled = true ∧
      ((slotIn .teleop fun x => { x with bypassed := true }).slots.at 2).bypassed = true ∧
      ((arena .teleop (some .console) idle).fields.at 1).stopped ≠ none ∧
      ∀ p ∈ [Phase.idle, .pre, .auto, .pause, .teleop, .endgame, .post],
        ((arena p none idle).slots.at 2).placing = some { field := 1, alliance := .east, position := 1 } ∧
        ((arena p none idle).slots.at 2).disabled = false ∧ ((arena p none idle).slots.at 2).bypassed = false ∧
        ((arena p none idle).fields.at 1).stopped = none ∧ ((arena p none idle).fields.at 1).phase = p) := by
  refine ⟨⟨?_, fun r => ⟨by cases r <;> rfl, ?_⟩⟩, by decide +kernel⟩
  · simp [arena, State.NoStation]
  · simp [arena, slotIn, robotStation, State.OnlyStation, State.updSlot]

/-! ### Witnesses: transactions -/

/-- A transaction with element 3 at a stage. -/
def flying (c : BusCommand) (stage : Stage) : Transaction :=
  { element := 3, command := c, bytes := masterFrame 9 c false [], window := 1000, void := false, breakHold := false, stage }

/-- The arena, with slots 8 and 9 playing beside slot 2, and that transaction in flight. -/
def inFlight (c : BusCommand) (stage : Stage) (l : Loaded) : State :=
  { arena .teleop none l with
    slots := (crowded .fifo []).slots
    bus := { ready.bus with activity := .flight (flying c stage) } }

/-- The characters of an answer of element 3. -/
def answerChars (status : Byte) (payload : List Byte) : List BusChar :=
  { data := 73, mark := true, stop := true } ::
    ([status, byte payload.length] ++ payload ++ [busCheck ([status, byte payload.length] ++ payload)]).map
      fun b => { data := b, mark := false, stop := true }

/-- The last character of an answer. -/
def lastChar (l : List BusChar) : BusChar := l.getLastD { data := 0, mark := false, stop := true }

/-- The falling edge that brings a character. -/
def edgeOf (c : BusChar) : BusEdge :=
  { rested := false, bits := BitVec.ofBool c.stop ++ BitVec.ofBool c.mark ++ c.data ++ 0#1 }

/-- The falling edge that brings the last character of an answer. -/
def lastEdge (l : List BusChar) : BusEdge := edgeOf (lastChar l)

/-- A transaction without a wait hears the character of such an edge. -/
theorem hears_edgeOf (t : Transaction) (h : t.breakHold = false) (c : BusChar) : t.hears (edgeOf c) = some c :=
  (t.hears_eq (edgeOf c) (by rw [h]; intro hx; cases hx)).trans (busCharacter_append c.stop c.mark c.data)

/-- A RUNNING bus at its rest, with elements 3 and 40. -/
def resting (l m : Loaded) : State :=
  { arena .teleop none l with
    elements := (ready.elements.put 3 { Element.empty with loaded := some l }).put 40 { Element.empty with loaded := some m }
    bus := { ready.bus with activity := .rest } }

/-- An element with everything due but a SAFE. -/
def dueAll : Loaded :=
  { idle with act := some { acting .waitingBus with sent := false }, fetchMark := true, actionPoll := some 0, sensor := some 0 }

/-- The edge-read rows of the commands. -/
def answerRows : List (BusCommand × (BusEdge → Instr)) :=
  [(.probe, .probeAnswer), (.actuate, .actuateAnswer), (.actionPoll, .actionPollAnswer), (.sensorPoll, .sensorPollAnswer),
    (.fetch, .fetchAnswer), (.safe, .safeAnswer)]

/-- A transaction in flight that a low stop bit has made wait for the pair to rest. -/
def waitingRest (stage : Stage) : State :=
  { arena .teleop none idle with
    bus := { ready.bus with activity := .flight { flying .sensorPoll stage with breakHold := true } } }

/-- The stages of a transaction, with the wait for the pair's rest and without; a glitch; a character that goes on and one that
completes the answer to each command; each command as the first due, with the same of a higher element and everything of lower rank
due too; a PROBE after the last probed element and one that wraps; nothing due; and a bus that is not RUNNING. -/
theorem witness_BusMoments :
    (∀ st, (inFlight .sensorPoll st idle).bus.activity = .flight (flying .sensorPoll st) ∧ (flying .sensorPoll st).stage = st) ∧
    (∀ st, (waitingRest st).bus.activity = .flight { flying .sensorPoll st with breakHold := true }) ∧
    ((BitVec.allOnes 11).getLsbD 0 = true ∧ answerComplete ([] ++ [{ data := 9, mark := true, stop := false }]) = false ∧
      answerComplete ((answerChars 0 []).take 2 ++ [{ data := 9, mark := false, stop := true }]) = false) ∧
    (∀ p ∈ answerRows, (flying p.1 (.answer (answerChars 0 []).dropLast)).command = p.1 ∧
      (flying p.1 (.answer (answerChars 0 []).dropLast)).hears (lastEdge (answerChars 0 [])) = some (lastChar (answerChars 0 [])) ∧
      answerComplete ((answerChars 0 []).dropLast ++ [lastChar (answerChars 0 [])]) = true) ∧
    ((resting idle idle).bus.activity = .rest ∧ (resting idle idle).bus.state = .running ∧
      ({ resting idle idle with bus := { ready.bus with state := .pausing } } : State).bus.state ≠ .running) ∧
    ((∃ l, { resting dueAll dueAll with bus := { ready.bus with safeQueue := [40] } }.FirstDue 40 l .safe) ∧
      (∃ l, (resting dueAll dueAll).FirstDue 3 l .actuate) ∧
      (∃ l, (resting { dueAll with act := none } { dueAll with act := none }).FirstDue 3 l .fetch) ∧
      (∃ l, (resting { dueAll with act := none, fetchMark := false } { dueAll with act := none, fetchMark := false }).FirstDue 3 l .actionPoll) ∧
      (∃ l, (resting { idle with sensor := some 0 } { idle with sensor := some 0 }).FirstDue 3 l .sensorPoll) ∧
      (∃ l, { resting (.fresh entry) (.fresh entry) with bus := { ready.bus with probeTurn := true, lastProbed := 3 } }.FirstDue 40 l .probe) ∧
      (∃ l, { resting (.fresh entry) (.fresh entry) with bus := { ready.bus with probeTurn := true, lastProbed := 40 } }.FirstDue 3 l .probe)) ∧
    (∀ e l c, (resting idle idle).loadedAt e = some l → ¬ (resting idle idle).Due e l c) := by
  refine ⟨fun _ => ⟨rfl, rfl⟩, fun _ => rfl, by decide, fun p _ => ⟨rfl, hears_edgeOf _ rfl _, by decide +kernel⟩, by decide,
    ⟨?_, ?_, ?_, ?_, ?_, ?_, ?_⟩, fun e l c h => ?_⟩
  iterate 7 exact State.firstDue_eq_some.mp (by decide +kernel)
  have hl : l = idle := by
    simpa using allLoaded_spec (s := resting idle idle) (p := fun _ l => l == idle) (by decide +kernel) e l h
  subst hl
  cases c <;> simp [State.Due, resting, idle, Loaded.fresh, ready, State.reset, Bus.afterReset]

/-- The first miss and the third, in the window and in the answer, and a void transaction. -/
theorem witness_MissIsCounted :
    (∀ st, (inFlight .fetch st { idle with misses := 2 }).bus.activity = .flight (flying .fetch st) ∧
      (inFlight .fetch st { idle with misses := 2 }).loadedAt (flying .fetch st).element = some { idle with misses := 2 }) ∧
    ((flying .fetch .window).stage = .window ∧ (flying .fetch (.answer [])).stage = .answer [] ∧ (flying .fetch .window).void = false ∧
      ({ flying .fetch .window with void := true } : Transaction).void = true) ∧
    (({ idle with misses := 1 } : Loaded).misses + 1 < 3 ∧ 3 ≤ ({ idle with misses := 2 } : Loaded).misses + 1 ∧ idle.presence = .present) :=
  ⟨fun _ => ⟨rfl, rfl⟩, by decide, by decide⟩

/-- The shortest answer and the longest of a FETCH; a status byte that names none, and statuses that their commands do not allow
with that payload length. -/
theorem witness_AnswerFrameIsRead :
    ((∀ st, statusOf 7#8 = some st → statusAllowed .sensorPoll st 0 = false) ∧
      (∀ st, statusOf 0#8 = some st → statusAllowed .fetch st 0 = false ∧ statusAllowed .fetch st 5 = false ∧ statusAllowed .actuate st 1 = false) ∧
      (∀ st, statusOf 2#8 = some st → statusAllowed .probe st 2 = false) ∧ (List.replicate 8 0#8).length ≤ 8) ∧
    (statusOf 0 = some .ok ∧ statusAllowed .sensorPoll .ok 0 = true ∧ statusOf 3 = some .more ∧
      statusAllowed .fetch .more [0x41#8, 0x82#8, 0xC3#8, 0x0F#8].length = true) ∧
    ((answerChars 3 [0x41, 0x82, 0xC3, 0x0F]).map (·.data) =
        [9 + 64, 3, byte 4] ++ [0x41, 0x82, 0xC3, 0x0F] ++ [busCheck ([3, byte 4] ++ [0x41, 0x82, 0xC3, 0x0F])]) ∧
    (∀ k < 8, ∃ x, (answerChars 3 [0x41, 0x82, 0xC3, 0x0F])[k]? = some x ∧ x.stop = true ∧ x.mark = decide (k = 0)) ∧
    8#8 ≠ 9#8 := by
  refine ⟨⟨nofun, (by intro st h; cases h; decide), (by intro st h; cases h; decide), by decide⟩, by decide, by decide +kernel, ?_, by decide⟩
  intro k hk
  match k, hk with
  | 0, _ | 1, _ | 2, _ | 3, _ | 4, _ | 5, _ | 6, _ | 7, _ => exact ⟨_, rfl, by decide, by decide⟩

/-- A transaction of the command `c` with the element `l` that the edge of the answer's last character completes. -/
theorem answerEnds (c : BusCommand) (l : Loaded) (b : Byte) (st : Status) (payload : List Byte)
    (h : answerComplete ((answerChars b payload).dropLast ++ [lastChar (answerChars b payload)]) = true ∧
      parseAnswer 9 c ((answerChars b payload).dropLast ++ [lastChar (answerChars b payload)]) = .answered st payload) :
    AnswerEnds (inFlight c (.answer (answerChars b payload).dropLast) l) c (lastEdge (answerChars b payload))
      (flying c (.answer (answerChars b payload).dropLast)) (answerChars b payload).dropLast l st payload :=
  ⟨rfl, rfl, rfl, rfl, rfl, _, hears_edgeOf _ rfl _, h.1, h.2⟩

/-- A matching class, a class that does not match, and FAULT, of an UNKNOWN and of a PRESENT element. -/
theorem witness_ProbeAnswerResult :
    (∀ l, AnswerEnds (inFlight .probe (.answer (answerChars 0 [3, 0xFF]).dropLast) l) .probe (lastEdge (answerChars 0 [3, 0xFF]))
      (flying .probe (.answer (answerChars 0 [3, 0xFF]).dropLast)) (answerChars 0 [3, 0xFF]).dropLast l .ok [3, 0xFF]) ∧
    (∀ l, AnswerEnds (inFlight .probe (.answer (answerChars 0 [1, 0]).dropLast) l) .probe (lastEdge (answerChars 0 [1, 0]))
      (flying .probe (.answer (answerChars 0 [1, 0]).dropLast)) (answerChars 0 [1, 0]).dropLast l .ok [1, 0]) ∧
    (∀ l, AnswerEnds (inFlight .probe (.answer (answerChars 6 []).dropLast) l) .probe (lastEdge (answerChars 6 []))
      (flying .probe (.answer (answerChars 6 []).dropLast)) (answerChars 6 []).dropLast l .fault []) ∧
    (Loaded.fresh entry).presence = .unknown ∧ idle.presence = .present :=
  ⟨fun l => answerEnds .probe l 0 .ok [3, 0xFF] (by decide +kernel), fun l => answerEnds .probe l 0 .ok [1, 0] (by decide +kernel),
    fun l => answerEnds .probe l 6 .fault [] (by decide +kernel), rfl, rfl⟩

/-- An element without a hold whose actuation of slot 2 ends, while claims wait for it; East held it last. -/
def ending (d : Discipline) (claims : List Claim) : Loaded :=
  { idle with entry := { entry with discipline := d }, act := some (acting .cancelling), lastAlliance := some .east, claims }

theorem flight_mayHold (c : BusCommand) (st : Stage) (d : Discipline) (q : List Claim) (i : SlotId) (h : i = 8 ∨ i = 9) :
    (inFlight c st (ending d q)).MayHold (ending d q).entry (claimOf i) := by
  rcases h with rfl | rfl <;> exact ⟨rfl, rfl, by show phaseIn 7#3 .teleop = true; decide⟩

theorem flight_notPreferred (c : BusCommand) (st : Stage) (q : List Claim) :
    ¬ (inFlight c st (ending .alternate q)).Preferred (ending .alternate q).entry (some .east) (claimOf 8) := by
  rintro (h | h | h)
  · cases h
  · cases h
  · exact h rfl

/-- The end of an actuation, in an answer: a hold without a next action, and with one on an element that is PRESENT and on one
that is FAULTED; the claim that is granted under FIFO, and under ALTERNATE with and without a claim of the other alliance; no
claim that may be granted; and an element that is not PRESENT. -/
theorem witness_ActuationEnds (c : BusCommand) (st : Stage) :
    (∃ h, (holds (some (acting .cancelling)) none).hold = some h ∧ h.next = none) ∧
    (∀ p ∈ [Presence.present, .faulted .fault], ∃ h n,
      ({ holds (some (acting .cancelling)) (some (asked 0)) with presence := p } : Loaded).hold = some h ∧ h.next = some n) ∧
    (∀ d q, (ending d q).hold = none ∧ (ending d q).presence = .present ∧ (ending d q).claims = q ∧
      (ending d q).lastAlliance = some .east) ∧
    ((inFlight c st (ending .fifo ([] ++ claimOf 8 :: [claimOf 9]))).Picks (ending .fifo []).entry (some .east)
        [] (claimOf 8) [claimOf 9] ∧
      (inFlight c st (ending .alternate ([claimOf 8] ++ claimOf 9 :: []))).Picks (ending .alternate []).entry (some .east)
        [claimOf 8] (claimOf 9) [] ∧
      (inFlight c st (ending .alternate ([] ++ claimOf 8 :: []))).Picks (ending .alternate []).entry (some .east)
        [] (claimOf 8) []) ∧
    (∀ k ∈ (ending .fifo [claimOf 11]).claims,
      ¬ (inFlight c st (ending .fifo [claimOf 11])).MayHold (ending .fifo []).entry k) ∧
    ({ ending .fifo [claimOf 8] with presence := .faulted .fault } : Loaded).presence ≠ .present := by
  refine ⟨⟨_, rfl, rfl⟩, fun p _ => ⟨_, _, rfl, rfl⟩, fun d q => ⟨rfl, rfl, rfl, rfl⟩,
    ⟨⟨flight_mayHold c st _ _ _ (.inl rfl), .inl ⟨.inl rfl, (by intro c h; cases h)⟩⟩,
      ⟨flight_mayHold c st _ _ _ (.inr rfl), .inl ⟨.inr (.inr (by show (some Alliance.west : Option Alliance) ≠ some .east; decide)), fun k h _ => ?_⟩⟩,
      ⟨flight_mayHold c st _ _ _ (.inl rfl), .inr ⟨(by intro c h; cases h), fun k h _ => ?_⟩⟩⟩, fun k h hm => ?_, by decide⟩
  · cases List.mem_singleton.mp h; exact flight_notPreferred c st _
  · cases List.mem_singleton.mp h; exact flight_notPreferred c st _
  · cases List.mem_singleton.mp h; exact absurd hm.1 (by show ¬ (crowded .fifo []).gateOpen 11 = true; decide)

/-- Every status of an ACTUATE, for a record in WAITING-BUS and in CANCELLING, with and without a next action, the third and
fourth RETRY, an element that is not PRESENT, and one without a record. -/
theorem witness_ActuateAnswerResult :
    (∀ p ∈ [(0#8, Status.ok, []), (1#8, .hold, []), (2#8, .done, [0x55#8]), (3#8, .more, [0x55#8]), (4#8, .retry, []), (5#8, .reject, []),
        (6#8, .fault, [])],
      ∀ l, AnswerEnds (inFlight .actuate (.answer (answerChars p.1 p.2.2).dropLast) l) .actuate (lastEdge (answerChars p.1 p.2.2))
        (flying .actuate (.answer (answerChars p.1 p.2.2).dropLast)) (answerChars p.1 p.2.2).dropLast l p.2.1 p.2.2) ∧
    (∀ st ∈ [ActState.waitingBus, .cancelling], ({ idle with act := some (acting st), retries := 2 } : Loaded).act = some (acting st) ∧
      (acting st).state = st ∧ (acting st).state ≠ .running) ∧
    ((holds (some (acting .waitingBus)) none).hold = some { hold with next := none } ∧
      (holds (some (acting .cancelling)) (some (asked 0))).hold = some { hold with next := some (asked 0) }) ∧
    (({ idle with retries := 2 } : Loaded).retries + 1 < 4 ∧ 3 ≤ ({ idle with retries := 3 } : Loaded).retries) ∧
    (({ idle with presence := .faulted .timeout, act := some (acting .waitingBus) } : Loaded).presence ≠ .present ∧ idle.act = none) := by
  refine ⟨?_, by decide, ⟨rfl, rfl⟩, by decide, by decide, rfl⟩
  have all : ∀ p ∈ [(0#8, Status.ok, []), (1#8, .hold, []), (2#8, .done, [0x55#8]), (3#8, .more, [0x55#8]), (4#8, .retry, []), (5#8, .reject, []),
      (6#8, .fault, [])],
      answerComplete ((answerChars p.1 p.2.2).dropLast ++ [lastChar (answerChars p.1 p.2.2)]) = true ∧
      parseAnswer 9 .actuate ((answerChars p.1 p.2.2).dropLast ++ [lastChar (answerChars p.1 p.2.2)]) = .answered p.2.1 p.2.2 := by decide +kernel
  exact fun p hp l => answerEnds .actuate l _ _ _ (all p hp)

/-- Every status of a POLL, MORE without a result too, of both POLLs, and an element that is not PRESENT. -/
theorem witness_PollAnswers :
    (∀ p ∈ [(0#8, Status.ok, []), (1#8, .hold, []), (2#8, .done, [0x55#8]), (3#8, .more, [0x55#8]), (3#8, .more, []), (6#8, .fault, [])], ∀ l,
      AnswerEnds (inFlight .actionPoll (.answer (answerChars p.1 p.2.2).dropLast) l) .actionPoll (lastEdge (answerChars p.1 p.2.2))
        (flying .actionPoll (.answer (answerChars p.1 p.2.2).dropLast)) (answerChars p.1 p.2.2).dropLast l p.2.1 p.2.2 ∧
      AnswerEnds (inFlight .sensorPoll (.answer (answerChars p.1 p.2.2).dropLast) l) .sensorPoll (lastEdge (answerChars p.1 p.2.2))
        (flying .sensorPoll (.answer (answerChars p.1 p.2.2).dropLast)) (answerChars p.1 p.2.2).dropLast l p.2.1 p.2.2) ∧
    (∃ a, ({ idle with act := some (acting .running) } : Loaded).act = some a ∧ a.state = .running) ∧ idle.presence = .present ∧
    ({ idle with presence := .faulted .timeout } : Loaded).presence ≠ .present := by
  refine ⟨?_, ⟨_, rfl, rfl⟩, rfl, by decide⟩
  have all : ∀ p ∈ [(0#8, Status.ok, []), (1#8, .hold, []), (2#8, .done, [0x55#8]), (3#8, .more, [0x55#8]), (3#8, .more, []), (6#8, .fault, [])],
      ∀ c ∈ [BusCommand.actionPoll, .sensorPoll],
      answerComplete ((answerChars p.1 p.2.2).dropLast ++ [lastChar (answerChars p.1 p.2.2)]) = true ∧
      parseAnswer 9 c ((answerChars p.1 p.2.2).dropLast ++ [lastChar (answerChars p.1 p.2.2)]) = .answered p.2.1 p.2.2 := by decide +kernel
  exact fun p hp l => ⟨answerEnds .actionPoll l _ _ _ (all p hp _ (by decide)), answerEnds .sensorPoll l _ _ _ (all p hp _ (by decide))⟩

theorem witness_FetchAnswerResult :
    (∀ p ∈ [(0#8, Status.ok, [0x41#8]), (3#8, .more, [0x41#8, 0x82#8, 0xC3#8, 0x0F#8]), (6#8, .fault, [])],
      ∀ l, AnswerEnds (inFlight .fetch (.answer (answerChars p.1 p.2.2).dropLast) l) .fetch (lastEdge (answerChars p.1 p.2.2))
        (flying .fetch (.answer (answerChars p.1 p.2.2).dropLast)) (answerChars p.1 p.2.2).dropLast l p.2.1 p.2.2) ∧ idle.presence = .present ∧
    ({ idle with presence := .faulted .timeout } : Loaded).presence ≠ .present := by
  refine ⟨?_, rfl, by decide⟩
  have all : ∀ p ∈ [(0#8, Status.ok, [0x41#8]), (3#8, .more, [0x41#8, 0x82#8, 0xC3#8, 0x0F#8]), (6#8, .fault, [])],
      answerComplete ((answerChars p.1 p.2.2).dropLast ++ [lastChar (answerChars p.1 p.2.2)]) = true ∧
      parseAnswer 9 .fetch ((answerChars p.1 p.2.2).dropLast ++ [lastChar (answerChars p.1 p.2.2)]) = .answered p.2.1 p.2.2 := by decide +kernel
  exact fun p hp l => answerEnds .fetch l _ _ _ (all p hp)

/-- Every status of a SAFE, with a CANCELLING actuation and without, and the third and fourth RETRY. -/
theorem witness_SafeAnswerResult :
    (∀ p ∈ [(0#8, Status.ok, []), (2#8, .done, [0x55#8]), (3#8, .more, []), (4#8, .retry, []), (6#8, .fault, [])],
      ∀ l, AnswerEnds (inFlight .safe (.answer (answerChars p.1 p.2.2).dropLast) l) .safe (lastEdge (answerChars p.1 p.2.2))
        (flying .safe (.answer (answerChars p.1 p.2.2).dropLast)) (answerChars p.1 p.2.2).dropLast l p.2.1 p.2.2) ∧
    ((∃ a, ({ idle with act := some (acting .cancelling) } : Loaded).act = some a ∧ a.state = .cancelling) ∧ idle.act = none ∧ idle.claims = [] ∧
      ({ idle with retries := 2 } : Loaded).retries + 1 < 4 ∧ 3 ≤ ({ idle with retries := 3 } : Loaded).retries) := by
  refine ⟨?_, ⟨_, rfl, rfl⟩, rfl, rfl, by decide, by decide⟩
  have all : ∀ p ∈ [(0#8, Status.ok, []), (2#8, .done, [0x55#8]), (3#8, .more, []), (4#8, .retry, []), (6#8, .fault, [])],
      answerComplete ((answerChars p.1 p.2.2).dropLast ++ [lastChar (answerChars p.1 p.2.2)]) = true ∧
      parseAnswer 9 .safe ((answerChars p.1 p.2.2).dropLast ++ [lastChar (answerChars p.1 p.2.2)]) = .answered p.2.1 p.2.2 := by decide +kernel
  exact fun p hp l => answerEnds .safe l _ _ _ (all p hp)

/-! ### Witnesses: queues and bounds -/

/-- A verdict queue with one free place, a full one without a verdict of slot 2, and a full one with one. -/
theorem witness_FullQueues :
    let v (i : SlotId) : Verdict := { slot := i, element := 0, outcome := .granted, tag := 0 }
    (List.replicate 15 (v 0)).length < 16 ∧ (16 ≤ (List.replicate 16 (v 0)).length ∧ ∀ x ∈ List.replicate 16 (v 0), x.slot ≠ (v 2).slot) ∧
    (List.replicate 3 (v 0) ++ v 2 :: List.replicate 12 (v 1) = List.replicate 3 (v 0) ++ v 2 :: List.replicate 12 (v 1) ∧
      16 ≤ (List.replicate 3 (v 0) ++ v 2 :: List.replicate 12 (v 1)).length ∧ ∀ y ∈ List.replicate 3 (v 0), y.slot ≠ (v 2).slot) := by decide

/-- The arena is bounded, and so the step from it says something. -/
theorem witness_QueuesStayBounded : (arena .teleop none contended).QueuesBounded ∧
    ∃ t, step { arena .teleop none contended with pending := [.beaconPeriod] } = .next t :=
  ⟨⟨by decide, by decide, by decide, by decide, by decide, by decide, by decide, (by unfold LinkCounters.bounded; decide),
    (by unfold GateCounters.bounded; decide)⟩, _, rfl⟩

/-- A lawful state with work in it: slot 2 holds element 3, slot 8 waits for it, slot 9 has neither, and the three are listed. -/
def lawful : State :=
  (((engagedIn (arena .teleop none idle) .running).updField 1 fun m => { m with list := (m.list.put 1 (some 8)).put 3 (some 9) }).updSlot 2
    fun x => { x with outstanding := 1 }).updSlot 8 fun x => { x with outstanding := 1 }

theorem lawful_lawful : lawful.Lawful := by
  refine ⟨nofun, by decide +kernel, ⟨by decide +kernel, fun i p hp => ?_⟩, by decide +kernel, fun e l i hl hi => ?_⟩
  · have h : ∀ i, ((lawful.slots.at i).placing.all fun p => (allOf 6).any fun k => (lawful.fields.at p.field).list.at k == some i) = true := by
      decide +kernel
    have hk := h i
    rw [hp, Option.all_some, List.any_eq_true] at hk
    obtain ⟨k, -, hk⟩ := hk
    exact ⟨k, by simpa using hk⟩
  · have h := allLoaded_spec (s := lawful) (p := fun _ l => (allOf 32).all fun i =>
      !(l.claims.any (·.slot == i) || l.heldBy i) || (lawful.gateOpen i && lawful.slotField i == some l.entry.field)) (by decide +kernel) e l hl
    have hk := List.all_eq_true.mp h i (List.mem_finRange i)
    rw [Bool.or_eq_true, Bool.not_eq_true'] at hk
    refine hk.elim (fun hn => absurd ⟨fun c hc hs => ?_, fun x hx hs => ?_⟩ hi) fun hk => by simpa using hk
    · rw [Bool.or_eq_false_iff] at hn
      exact Bool.noConfusion (hn.1.symm.trans (List.any_eq_true.mpr ⟨c, hc, by simp [hs]⟩))
    · simp [Loaded.heldBy, hx, hs] at hn

theorem witness_RecordsStayBounded : lawful.RecordsBounded ∧ (∃ l, lawful.loadedAt 3 = some l ∧ ¬ l.freeOf 2 ∧ ¬ l.freeOf 8) ∧
    ∃ t, step { lawful with pending := [.beaconPeriod] } = .next t := by
  have h := allLoaded_spec (s := lawful)
    (p := fun _ l => decide (l.claims.length ≤ 4 ∧ (l.claims.map (·.slot)).Nodup ∧ l.misses ≤ 3 ∧ l.retries ≤ 3)) (by decide +kernel)
  simp only [decide_eq_true_eq] at h
  exact ⟨⟨lawful_lawful, by decide, fun e l hl => (h e l hl).1, fun e l hl => (h e l hl).2.1, fun e l hl => (h e l hl).2.2.1,
    fun e l hl => (h e l hl).2.2.2, by decide⟩,
    ⟨engaged .running, rfl, fun h => h.2 _ rfl rfl, fun h => h.1 _ (List.mem_singleton_self _) rfl⟩, _, rfl⟩

/-! ### One step each, with the values of the manual's examples and rules -/

/-- A verdict was queued last. -/
def saidLast (t : State) (i : SlotId) (o : Outcome) (tag : Byte) : Bool :=
  t.link.verdicts.getLast? == some { slot := i, element := 3, outcome := o, tag }

/-- A reply with an outcome was queued last. -/
def repliedLast (t : State) (o : ReplyOutcome) : Bool := (t.link.replies.getLast?.map (·.outcome)) == some o

/-- "Reading through a damaged stream": the length byte 0x40 ends the frame under OVERLONG. -/
theorem test_overlong : after (.characterReceived ⟨true, linkLevels 0x40#8⟩) (receiving ready [0x81, 0x14, 0x10, 0x07])
    (fun t => t.link.receiver == .hunting && t.link.counters.overlong == 1) = true := by decide

/-- R2: the bits of 0xA5, least significant first, between a low start bit and a high stop bit. -/
theorem test_linkLevels : linkLevels 0xA5#8 = 0b1101001010#10 ∧ linkCharacter (linkLevels 0xA5#8) = some (0xA5#8, true) := by decide

/-- R2: after a missing stop bit no falling edge begins a character until the line has rested. -/
theorem test_break : after .framing ready (fun t => t.link.breakHold &&
    after (.characterReceived ⟨false, linkLevels 0xA5#8⟩) t (fun u => u.link.breakHold && u.link.receiver == .hunting) &&
    after (.characterReceived ⟨true, linkLevels 0xA5#8⟩) t (fun u => !u.link.breakHold && u.link.receiver == .inFrame [])) = true := by decide

/-- R119: the address 9 with the mark bit set, least significant bit first, between a low start bit and a high stop bit. -/
theorem test_busLevels : busLevels 9#8 true = 0b11000010010#11 ∧
    busCharacter 0b11000010010#11 = some { data := 9, mark := true, stop := true } ∧ busCharacter 0b11000010011#11 = none := by decide

/-- R2, R119: after a character whose stop bit is low, no falling edge on the pair begins a character until it has rested. -/
theorem test_busBreak :
    after (.answerCharacter (.completes ⟨false, 0b01010010010#11⟩)) (inFlight .sensorPoll .window idle) (fun t =>
      t.bus.activity == .flight { flying .sensorPoll (.answer [{ data := 73, mark := true, stop := false }]) with breakHold := true } &&
      after (.answerCharacter (.completes ⟨false, 0b10000000000#11⟩)) t (fun u => u.bus.activity == t.bus.activity) &&
      after (.answerCharacter (.completes ⟨true, 0b10000000000#11⟩)) t (fun u => u.bus.activity == .flight (flying .sensorPoll
        (.answer [{ data := 73, mark := true, stop := false }, { data := 0, mark := false, stop := true }])))) = true := by decide +kernel

/-- R192 and section 11.7: the read command and the address 0, and its first bit to go out. -/
theorem test_readCommand : readCommand = [0x03, 0x00, 0x00, 0x00] ∧
    portLevels 0x03 = [false, false, false, false, false, false, true, true] := by decide

/-- R193 test 1: a second byte that is not 0x48 ends the reading, and select is released (R192). -/
theorem test_signature : let l : Loader := { stage := .receiving, buffer := [0xC4] }
    l.clockIn 0x49 = { stage := .failed, buffer := [] } ∧ l.clockIn 0x48 = { stage := .receiving, buffer := [0xC4, 0x48] } ∧
    (reading .receiving).settingsSelect = .low ∧ (reading .failed).settingsSelect = .high := by decide +kernel

/-- R191: while RSTN is held low the part does nothing; when it rises the reading begins. -/
theorem test_rstn : after (.deviceReset .low) ready (fun t => t.settingsSelect == .high &&
    after (.deviceReset .high) t (fun u => u.settingsSelect == .low && u.settingsOut == some 0x03)) = true := by decide +kernel

/-- R128: of two countdowns that reach 0 at the end of one millisecond, an action POLL of element 40 is due first, before a
sensor POLL of element 3. -/
theorem test_together : (match step { resting { idle with sensor := some 1 } { idle with act := some (acting .running), actionPoll := some 1 } with
      bus := ready.bus } with
    | .next t => (match t.bus.activity with
      | .flight r => r.element == 40 && r.command == .actionPoll
      | _ => false)
    | _ => false) = true := by decide +kernel

/-- "One slot's DRIVE stream": after 251 the sequence 3 is accepted. -/
theorem test_drive_wraps : after .drive (withHead (slotIn .teleop fun x => { x with lastSeq := some 251 }) { driver 0x10 [0] with seq := 3 })
    (fun t => (t.slots.at 2).lastSeq == some 3#8 && t.gate.stale == 0) = true := by decide

/-- "One slot's DRIVE stream": after 130 the sequence 2 is STALE. -/
theorem test_drive_stale : after .drive (withHead (slotIn .teleop fun x => { x with lastSeq := some 130 }) { driver 0x10 [0] with seq := 2 })
    (fun t => (t.slots.at 2).lastSeq == some 130#8 && t.gate.stale == 1) = true := by decide

/-- "A TELL budget at its limits": a TELL of length 48 finds a credit of 32 and is THROTTLED. -/
theorem test_tell_throttled : after .tell (withHead (telling 32 0) { robot 0x11 (List.replicate 48 0) with dst := 0xFA })
    (fun t => (t.slots.at 2).credit == 32 && (t.slots.at 2).throttled && t.gate.throttled == 1) = true := by decide

/-- "Loading stations": 0x45 is the twin of the entry 0x05. -/
theorem test_loadStation_twinConflict : after .loadStation (withHead (arena .pre none idle) (manage 0x10 [0x45, 9, 0]))
    (fun t => repliedLast t (.refused .twinConflict) && t.stations.length == 2) = true := by decide

/-- "Phase sequences at the edges of the durations", sixth row: A = 0, P = 0, T = 1, E = 1 starts in ENDGAME with 100 ms. -/
theorem test_start_endgame : after .start (withHead { arena .pre none idle with
      fields := ready.fields.put 1 { matchIn .pre none with durA := 0, durP := 0, durT := 1, durE := 1 } } (manage 0x41 [1]))
    (fun t => (t.fields.at 1).phase == .endgame && (t.fields.at 1).remaining == 100) = true := by decide +kernel

/-- "A stop, a held line and a hall stop": a RESUME with line 4 still active is refused STOP-HELD. -/
theorem test_resume_stopHeld : after .resume (withHead (lined (some (.line 4)) .low true) (manage 0x43 [1]))
    (fun t => repliedLast t (.refused .stopHeld)) = true := by decide

/-- "A stop, a held line and a hall stop": with line 4 inactive and its flag set, STOP-LATCHED. -/
theorem test_resume_stopLatched : after .resume (withHead (lined (some (.line 4)) .high true) (manage 0x43 [1]))
    (fun t => repliedLast t (.refused .stopLatched)) = true := by decide

/-- "Pulses through the filter": the second of two LOW samples turns line 4 active and stops Field B. -/
theorem test_sample_stops : after (.lineSample 0xFFEF) { arena .teleop none idle with
      lines := ready.lines.put 4 { ready.lines.at 4 with previous := .low } }
    (fun t => (t.fields.at 1).stopped == some (.line 4) && (t.lines.at 4).edge) = true := by decide +kernel

/-- "One FIFO element through a round of claims": the third claim of the element is QUEUED in place 2. -/
theorem test_claim_queued : after .claim (withHead (arena .teleop none { contended with claims := contended.claims.take 1 }) (robot 0x20 [3, 0, 1, 9]))
    (fun t => saidLast t 2 (.queued 2) 9) = true := by decide +kernel

/-- "One FIFO element through a round of claims": 700 ms after its release a slot is refused COOLING. -/
theorem test_claim_cooling : after .claim (withHead (arena .teleop none { contended with
      entry := { entry with coolDown := 1000 }, lastRelease := some { slot := 2, since := 700 } }) (robot 0x20 [3, 0, 1, 11]))
    (fun t => saidLast t 2 (.refused .cooling) 11) = true := by decide +kernel

/-- "An element's presence through a bad hour": an element whose firmware lacks an action is FAULTED MISMATCH. -/
theorem test_probe_mismatch : after (.probeAnswer (lastEdge (answerChars 0 [3, 1])))
    (inFlight .probe (.answer (answerChars 0 [3, 1]).dropLast) { idle with presence := .absent, misses := 3 })
    (fun t => (t.loadedAt 3).map (fun l => (l.presence, l.misses)) == some (.faulted .mismatch, 0)) = true := by decide +kernel

/-- "A stop during an actuation": a SAFE answered OK ends the CANCELLING actuation. -/
theorem test_safe_cancels : after (.safeAnswer (lastEdge (answerChars 0 [])))
    { inFlight .safe (.answer (answerChars 0 []).dropLast) { idle with act := some (acting .cancelling) } with
      bus := { ready.bus with activity := .flight (flying .safe (.answer (answerChars 0 []).dropLast)), safeQueue := [3, 7] } }
    (fun t => saidLast t 2 .cancelled 0x33 && t.bus.safeQueue == [7]) = true := by decide +kernel

/-- "The digit adder at work": 0987 and 0036, 9990 and 0036, 9990 and 0009, 8514 and 1485. -/
theorem test_digitAdder : addPoints (Bcd.ofNat 987) false 36 = (Bcd.ofNat 1023, false) ∧
    addPoints (Bcd.ofNat 9990) false 36 = (Bcd.ofNat 9999, true) ∧ addPoints (Bcd.ofNat 9990) false 9 = (Bcd.ofNat 9999, false) ∧
    addPoints (Bcd.ofNat 8514) false 1485 = (Bcd.ofNat 9999, false) := by decide

/-- R162: 0030 by −50, 9950 by +80, 9000 by +999. -/
theorem test_correct : correctPoints (Bcd.ofNat 30) false (-50) = (Bcd.ofNat 0, false) ∧
    correctPoints (Bcd.ofNat 9950) false 80 = (Bcd.ofNat 9999, true) ∧
    correctPoints (Bcd.ofNat 9000) false 999 = (Bcd.ofNat 9999, false) := by decide

/-- "One match on Field D": West penalised, 7 points, count 2, gives East 0034 from 0020. -/
theorem test_penalty : after .penalty (withHead ((arena .teleop none idle).updTally 1 fun x => { x with east := Bcd.ofNat 20 }) (manage 0x50 [1, 1, 7, 2]))
    (fun t => repliedLast t (.done [1, 0, 0x00, 0x34, 0])) = true := by decide

/-- "Walking the element table": READ NEXT at ELEMENT 47 is refused END. -/
theorem test_readNext_end : after .readNext (withHead { ready with mgmt := { ready.mgmt with cursor := some (.element, 47) } } (manage 0x61 []))
    (fun t => repliedLast t (.refused .tableEnd)) = true := by decide

/-- "The notice queue under load": the notice placed after three lost ones carries 3. -/
theorem test_notice_dropped : let s := { ready with mgmt := { ready.mgmt with dropped := 3 } }
    (s.queueNotice (.silent 1)).mgmt.notices = [{ dropped := 3, content := .silent 1 }] ∧ (s.queueNotice (.silent 1)).mgmt.dropped = 0 := by decide

/-- "One field through a stop and a resume": 90340 ms show as 91 s; R120: p 4 and k 4 give 100,000 bit/s. -/
theorem test_seconds_and_rate : secondsUp 90340 = 91 ∧ secondsUp 90000 = 90 ∧ Timing.default.busRate = 100000 := by decide

end Sys2Proof.Tests
end

section
/-! SUPPORT. The bounds of the queues, tables and counters, carried through every procedure of the part: one lemma for each
procedure, so that a row's lemma is the composition of those of the procedures it calls. -/

namespace Sys2Proof.Machine

open Sys2Proof

/-- What every procedure behind the receive line and the transmitter does to the queues, tables and counters: the receive
store, the replies, the TELLs and the counters are as they were, and the verdicts, the notices, the dropped count and the
Station Table stay within their capacities (R15, R20, R188, R190). -/
structure QueuesKept (s t : State) : Prop where
  store : t.link.store = s.link.store
  replies : t.link.replies = s.link.replies
  tells : t.link.tells = s.link.tells
  counters : t.link.counters = s.link.counters
  gate : t.gate = s.gate
  verdicts : s.link.verdicts.length ≤ 16 → t.link.verdicts.length ≤ 16
  stations : s.stations.length ≤ 64 → t.stations.length ≤ 64
  notices : s.mgmt.notices.length ≤ 16 → t.mgmt.notices.length ≤ 16
  dropped : s.mgmt.dropped ≤ 255 → t.mgmt.dropped ≤ 255

theorem QueuesKept.refl (s : State) : QueuesKept s s := ⟨rfl, rfl, rfl, rfl, rfl, id, id, id, id⟩

/-- A verdict is queued while there is room, or takes the place of another (R15). -/
theorem length_enqueueVerdict_le {q : List Verdict} (h : q.length ≤ 16) (v : Verdict) :
    (enqueueVerdict q v).length ≤ 16 := by
  unfold enqueueVerdict
  split
  · next hr => rw [List.length_append, List.length_singleton]; exact hr
  · split
    · next ha =>
      obtain ⟨x, hx, hp⟩ := List.any_eq_true.mp ha
      have hq : 0 < q.length := List.length_pos_of_mem hx
      rw [List.length_append, List.length_eraseP_of_mem hx hp, List.length_singleton]
      omega
    · exact h

namespace QueuesKept

variable {s₀ s : State}

/-- A procedure applied to each entry of a list keeps the bounds if it keeps them once. -/
theorem foldl {α : Type} {f : State → α → State} (hf : ∀ {s}, QueuesKept s₀ s → ∀ a, QueuesKept s₀ (f s a))
    (h : QueuesKept s₀ s) (l : List α) : QueuesKept s₀ (l.foldl f s) := by
  induction l generalizing s with
  | nil => exact h
  | cons a l ih => exact ih (hf h a)

/-- What stands in no queue, table or counter that is bounded may take any value. -/
theorem others (h : QueuesKept s₀ s) {slots : Table 32 Slot} {fields : Table 4 MatchRecord} {tallies : Table 4 FieldTally}
    {lines : Table 16 LineRecord} {pins : Table 16 Level} {sampleLeft budgetLeft : Option Nat} {elements : Table 48 Element}
    {bus : Bus} {beacons : Beacons} {timing : Timing} {loader : Loader} {choices : Nat} {pending : List Instr} :
    QueuesKept s₀ { s with
      slots, fields, tallies, lines, pins, sampleLeft, budgetLeft, elements, bus, beacons, timing, loader, choices, pending } :=
  { h with }

theorem updSlot (h : QueuesKept s₀ s) (i : SlotId) (g : Slot → Slot) : QueuesKept s₀ (s.updSlot i g) := h.others
theorem updField (h : QueuesKept s₀ s) (f : FieldId) (g : MatchRecord → MatchRecord) :
    QueuesKept s₀ (s.updField f g) := h.others
theorem updTally (h : QueuesKept s₀ s) (f : FieldId) (g : FieldTally → FieldTally) :
    QueuesKept s₀ (s.updTally f g) := h.others
theorem updElement (h : QueuesKept s₀ s) (e : ElementId) (g : Element → Element) :
    QueuesKept s₀ (s.updElement e g) := h.others
theorem updLoaded (h : QueuesKept s₀ s) (e : ElementId) (g : Loaded → Loaded) :
    QueuesKept s₀ (s.updLoaded e g) := h.others
theorem updBus (h : QueuesKept s₀ s) (g : Bus → Bus) : QueuesKept s₀ (s.updBus g) := h.others
theorem setUrgent (h : QueuesKept s₀ s) (f : FieldId) : QueuesKept s₀ (s.setUrgent f) := h.others
theorem setMode (h : QueuesKept s₀ s) (m : DeviceMode) : QueuesKept s₀ (s.setMode m) := { h with }
theorem setCursor (h : QueuesKept s₀ s) (t : ReadTable) (i : Nat) : QueuesKept s₀ (s.setCursor t i) := { h with }

theorem queueVerdict (h : QueuesKept s₀ s) (i : SlotId) (b : Byte) (o : Outcome) (tag : Byte) :
    QueuesKept s₀ (s.queueVerdict i b o tag) :=
  { h with verdicts := fun hv => length_enqueueVerdict_le (h.verdicts hv) _ }

theorem verdictFor (h : QueuesKept s₀ s) (i : SlotId) (e : ElementId) (o : Outcome) (tag : Byte) :
    QueuesKept s₀ (s.verdictFor i e o tag) :=
  h.queueVerdict i _ o tag

/-- A notice is queued while there is room, or raises the dropped count to at most 255 (R188, R190). -/
theorem queueNotice (h : QueuesKept s₀ s) (c : NoticeContent) : QueuesKept s₀ (s.queueNotice c) := by
  rcases Nat.lt_or_ge s.mgmt.notices.length 16 with hr | hf
  · have hm := s.queueNotice_room c hr
    exact { h with
      notices := fun _ => by rw [hm, List.length_append, List.length_singleton]; exact hr
      dropped := fun _ => by rw [hm]; exact Nat.zero_le _ }
  · have hm := s.queueNotice_full c hf
    exact { h with
      notices := fun hn => by rw [hm]; exact h.notices hn
      dropped := fun _ => by rw [hm]; exact Nat.min_le_left _ _ }

/-! ### The Element Arbiter -/

theorem lessOutstanding (h : QueuesKept s₀ s) (i : SlotId) : QueuesKept s₀ (s.lessOutstanding i) := h.updSlot i _
theorem moreOutstanding (h : QueuesKept s₀ s) (i : SlotId) : QueuesKept s₀ (s.moreOutstanding i) := h.updSlot i _

theorem grant (h : QueuesKept s₀ s) (e : ElementId) (i : SlotId) (r : Request) : QueuesKept s₀ (s.grant e i r) :=
  (h.updLoaded e _).verdictFor i e _ _

theorem grantSelection (h : QueuesKept s₀ s) (e : ElementId) : QueuesKept s₀ (s.grantSelection e) := by
  obtain hs | ⟨-, c, -, -, -, -, hs⟩ := s.grantSelection_cases e
  · rwa [hs]
  · rw [hs]; exact (h.updLoaded e _).grant e _ _

theorem dropNext (h : QueuesKept s₀ s) (e : ElementId) (x : Hold) : QueuesKept s₀ (s.dropNext e x) := by
  unfold State.dropNext
  split
  · exact h.verdictFor _ e _ _
  · exact h

theorem releaseHold (h : QueuesKept s₀ s) (e : ElementId) (x : Hold) (r : Reason) :
    QueuesKept s₀ (s.releaseHold e x r) :=
  (((h.lessOutstanding x.slot).verdictFor x.slot e _ _).updLoaded e _).dropNext e x

theorem cancelUnsent (h : QueuesKept s₀ s) (e : ElementId) (i : SlotId) : QueuesKept s₀ (s.cancelUnsent e i) := by
  unfold State.cancelUnsent
  split
  · exact h
  · split
    · exact h
    · split
      · exact (h.updLoaded e _).verdictFor i e _ _
      · exact h

theorem selectIfFree (h : QueuesKept s₀ s) (e : ElementId) : QueuesKept s₀ (s.selectIfFree e) := by
  unfold State.selectIfFree
  split
  · exact h
  · split
    · exact h.grantSelection e
    · exact h

theorem endHold (h : QueuesKept s₀ s) (e : ElementId) (r : Reason) : QueuesKept s₀ (s.endHold e r) := by
  unfold State.endHold
  split
  · exact h
  · exact ((h.releaseHold e _ r).cancelUnsent e _).selectIfFree e

theorem withdraw (h : QueuesKept s₀ s) (e : ElementId) (c : Claim) (r : Reason) : QueuesKept s₀ (s.withdraw e c r) :=
  (((h.updLoaded e _).lessOutstanding c.slot).verdictFor c.slot e _ _).grantSelection e

theorem withdrawClaimOf (h : QueuesKept s₀ s) (i : SlotId) (r : Reason) (e : ElementId) :
    QueuesKept s₀ (s.withdrawClaimOf i r e) := by
  unfold State.withdrawClaimOf
  split
  · exact h.withdraw e _ r
  · exact h

theorem endHoldOf (h : QueuesKept s₀ s) (i : SlotId) (r : Reason) (e : ElementId) :
    QueuesKept s₀ (s.endHoldOf i r e) := by
  unfold State.endHoldOf
  split
  · split
    · exact h.endHold e r
    · exact h
  · exact h

theorem takeAway (h : QueuesKept s₀ s) (i : SlotId) (r : Reason) (e : ElementId) : QueuesKept s₀ (s.takeAway i r e) :=
  (h.withdrawClaimOf i r e).endHoldOf i r e

theorem slotEvent (h : QueuesKept s₀ s) (i : SlotId) (r : Reason) : QueuesKept s₀ (s.slotEvent i r) :=
  h.foldl (fun h e => h.takeAway i r e) _

theorem withdrawAll (h : QueuesKept s₀ s) (e : ElementId) (r : Reason) : QueuesKept s₀ (s.withdrawAll e r) := by
  unfold State.withdrawAll
  split
  · exact h
  · exact h.foldl (fun h c => h.withdraw e c r) _

theorem phaseTest (h : QueuesKept s₀ s) (f : FieldId) (p : Phase) (e : ElementId) :
    QueuesKept s₀ (s.phaseTest f p e) := by
  unfold State.phaseTest
  split
  · exact h
  · split
    · exact (h.withdrawAll e _).endHold e _
    · exact h

theorem phaseEvent (h : QueuesKept s₀ s) (f : FieldId) (p : Phase) : QueuesKept s₀ (s.phaseEvent f p) :=
  h.foldl (fun h e => h.phaseTest f p e) _

theorem failActuation (h : QueuesKept s₀ s) (e : ElementId) (r : Reason) : QueuesKept s₀ (s.failActuation e r) := by
  unfold State.failActuation
  split
  · exact (h.updLoaded e _).verdictFor _ e _ _
  · exact h

theorem elementLost (h : QueuesKept s₀ s) (e : ElementId) (r : Reason) : QueuesKept s₀ (s.elementLost e r) :=
  ((h.failActuation e r).withdrawAll e _).endHold e _

theorem takeNext (h : QueuesKept s₀ s) (e : ElementId) (l : Loaded) (x : Hold) (r : Request) :
    QueuesKept s₀ (s.takeNext e l x r) := by
  unfold State.takeNext
  split
  · exact h.updLoaded e _
  · exact (h.updLoaded e _).verdictFor _ e _ _

theorem afterActuation (h : QueuesKept s₀ s) (e : ElementId) : QueuesKept s₀ (s.afterActuation e) := by
  unfold State.afterActuation
  split
  · exact h
  · split
    · exact h.grantSelection e
    · split
      · exact h
      · exact h.takeNext e _ _ _

theorem endActuation (h : QueuesKept s₀ s) (e : ElementId) (how : ActEnd) : QueuesKept s₀ (s.endActuation e how) := by
  unfold State.endActuation
  split
  · exact h
  · exact ((h.updLoaded e _).verdictFor _ e _ _).afterActuation e

theorem gateOffEvents (h : QueuesKept s₀ s) (before : State) (r : Reason) : QueuesKept s₀ (s.gateOffEvents before r) :=
  h.foldl (fun h i => h.slotEvent i r) _

theorem markSilent (h : QueuesKept s₀ s) (i : SlotId) : QueuesKept s₀ (s.markSilent i) :=
  ((h.updSlot i _).queueNotice _).slotEvent i _

theorem silenceTest (h : QueuesKept s₀ s) (i : SlotId) : QueuesKept s₀ (s.silenceTest i) := by
  unfold State.silenceTest
  split
  · exact h.markSilent i
  · exact h

theorem silenceTests (h : QueuesKept s₀ s) : QueuesKept s₀ s.silenceTests := h.foldl silenceTest _

theorem testSilence (h : QueuesKept s₀ s) (f : FieldId) : QueuesKept s₀ (s.testSilence f) := h.foldl silenceTest _

/-! ### Claims and releases -/

theorem inHold (h : QueuesKept s₀ s) (e : ElementId) (l : Loaded) (x : Hold) (r : Request) :
    QueuesKept s₀ (s.inHold e l x r) := by
  unfold State.inHold
  split
  · exact (h.updLoaded e _).verdictFor _ e _ _
  · dsimp only
    split
    · exact ((h.updLoaded e _).verdictFor _ e _ _).verdictFor _ e _ _
    · exact (h.updLoaded e _).verdictFor _ e _ _

theorem admitClaim (h : QueuesKept s₀ s) (i : SlotId) (e : ElementId) (l : Loaded) (r : Request) :
    QueuesKept s₀ (s.admitClaim i e l r) := by
  unfold State.admitClaim
  dsimp only
  split
  · exact (h.moreOutstanding i).grant e i r
  · exact ((h.moreOutstanding i).updLoaded e _).verdictFor i e _ _

theorem takeClaim (h : QueuesKept s₀ s) (i : SlotId) (b : Byte) (r : Request) : QueuesKept s₀ (s.takeClaim i b r) := by
  unfold State.takeClaim
  split
  · exact h.queueVerdict i b _ _
  · split
    · split
      · exact h.inHold _ _ _ r
      · exact h
    · split
      · exact (h.updLoaded _ _).verdictFor i _ _ _
      · split
        · exact h.queueVerdict i b _ _
        · exact h.admitClaim i _ _ r

theorem takeRelease (h : QueuesKept s₀ s) (i : SlotId) (b : Byte) : QueuesKept s₀ (s.takeRelease i b) := by
  unfold State.takeRelease
  split
  · exact h.queueVerdict i b _ _
  · split
    · exact h.queueVerdict i b _ _
    · split
      · exact h.endHold _ _
      · split
        · exact h.withdraw _ _ _
        · exact h.queueVerdict i b _ _

/-! ### The Element Bus Master -/

theorem settle (h : QueuesKept s₀ s) : QueuesKept s₀ s.settle := by rw [s.settle_eq]; exact { h with }

theorem dropSafe (h : QueuesKept s₀ s) (e : ElementId) : QueuesKept s₀ (s.dropSafe e) := h.updBus _

theorem queueSafe (h : QueuesKept s₀ s) (e : ElementId) : QueuesKept s₀ (s.queueSafe e) := by
  unfold State.queueSafe
  split
  · exact h
  · exact (h.updLoaded e _).updBus _

theorem setPresence (h : QueuesKept s₀ s) (e : ElementId) (p : Presence) : QueuesKept s₀ (s.setPresence e p) := by
  unfold State.setPresence
  split
  · exact (h.updLoaded e _).dropSafe e
  · exact h.updLoaded e _

theorem reportLoss (h : QueuesKept s₀ s) (e : ElementId) (p q : Presence) : QueuesKept s₀ (s.reportLoss e p q) := by
  unfold State.reportLoss
  split
  · exact h.elementLost e _
  · exact h

theorem changePresence (h : QueuesKept s₀ s) (e : ElementId) (p : Presence) : QueuesKept s₀ (s.changePresence e p) := by
  unfold State.changePresence
  split
  · exact h
  · exact ((h.setPresence e p).reportLoss e _ p).queueNotice _

theorem becomeFaulted (h : QueuesKept s₀ s) (e : ElementId) (c : FaultCause) : QueuesKept s₀ (s.becomeFaulted e c) := by
  unfold State.becomeFaulted
  split
  · exact h
  · split
    · exact h
    all_goals exact h.changePresence e _

theorem becomeAbsent (h : QueuesKept s₀ s) (e : ElementId) (p : Presence) : QueuesKept s₀ (s.becomeAbsent e p) := by
  cases p
  case present | unknown => exact h.changePresence e _
  case absent | faulted => exact h

theorem setMisses (h : QueuesKept s₀ s) (e : ElementId) (k : Nat) : QueuesKept s₀ (s.setMisses e k) := h.updLoaded e _

theorem countMiss (h : QueuesKept s₀ s) (e : ElementId) : QueuesKept s₀ (s.countMiss e) := by
  unfold State.countMiss
  split
  · exact h
  · split
    · exact h.setMisses e _
    · exact ((h.setMisses e _).becomeAbsent e _).dropSafe e

theorem safeElement (h : QueuesKept s₀ s) (f : FieldId) (e : ElementId) : QueuesKept s₀ (s.safeElement f e) := by
  unfold State.safeElement State.safeIfPresent
  split
  · exact h
  · split
    · split
      · exact (h.queueSafe e).updLoaded e _
      · exact h.updLoaded e _
    · exact h

theorem safeField (h : QueuesKept s₀ s) (f : FieldId) :
    QueuesKept s₀ (s.safeField f) := h.foldl (fun h e => h.safeElement f e) _

theorem restartActionPoll (h : QueuesKept s₀ s) (e : ElementId) :
    QueuesKept s₀ (s.restartActionPoll e) := h.updLoaded e _
theorem restartSensor (h : QueuesKept s₀ s) (e : ElementId) : QueuesKept s₀ (s.restartSensor e) := h.updLoaded e _
theorem setFetch (h : QueuesKept s₀ s) (e : ElementId) : QueuesKept s₀ (s.setFetch e) := h.updLoaded e _
theorem flipFetch (h : QueuesKept s₀ s) (e : ElementId) : QueuesKept s₀ (s.flipFetch e) := h.updLoaded e _
theorem setRetries (h : QueuesKept s₀ s) (e : ElementId) (k : Nat) : QueuesKept s₀ (s.setRetries e k) := h.updLoaded e _
theorem restPair (h : QueuesKept s₀ s) : QueuesKept s₀ s.restPair := h.updBus _
theorem fly (h : QueuesKept s₀ s) (t : Transaction) : QueuesKept s₀ (s.fly t) := h.updBus _

theorem probeAnswered (h : QueuesKept s₀ s) (e : ElementId) (l : Loaded) (st : Status) (payload : List Byte) :
    QueuesKept s₀ (s.probeAnswered e l st payload) := by
  unfold State.probeAnswered
  split
  · split
    · split
      · exact h.changePresence e _
      · exact h.changePresence e _
    · exact h
  · exact h.becomeFaulted e _
  · exact h

theorem actuateWaiting (h : QueuesKept s₀ s) (e : ElementId) (l : Loaded) (a : Actuation) (st : Status)
    (payload : List Byte) :
    QueuesKept s₀ (s.actuateWaiting e l a st payload) := by
  cases st
  case ok | hold => exact h.updLoaded e _
  case done | reject => exact (h.setRetries e 0).endActuation e _
  case more => exact ((h.setRetries e 0).setFetch e).endActuation e _
  case retry =>
    unfold State.actuateWaiting
    dsimp only
    split
    · exact h.updLoaded e _
    · exact (h.setRetries e 0).endActuation e _
  case fault => exact h.becomeFaulted e _

theorem actuateCancelling (h : QueuesKept s₀ s) (e : ElementId) (st : Status) (payload : List Byte) :
    QueuesKept s₀ (s.actuateCancelling e st payload) := by
  cases st
  case ok | hold => exact h
  case done => exact h.endActuation e _
  case more => exact (h.setFetch e).endActuation e _
  case retry | reject => exact h.setRetries e 0
  case fault => exact h.becomeFaulted e _

theorem actuateAnswered (h : QueuesKept s₀ s) (e : ElementId) (l : Loaded) (st : Status) (payload : List Byte) :
    QueuesKept s₀ (s.actuateAnswered e l st payload) := by
  unfold State.actuateAnswered
  split
  · split
    · exact h.actuateWaiting e l _ st payload
    · exact h.actuateCancelling e st payload
    · split
      · exact h.setFetch e
      · exact h
  · split
    · exact h.setFetch e
    · exact h

theorem actionPollAnswered (h : QueuesKept s₀ s) (e : ElementId) (l : Loaded) (st : Status) (payload : List Byte) :
    QueuesKept s₀ (s.actionPollAnswered e l st payload) := by
  unfold State.actionPollAnswered
  split
  · split
    · exact h.endActuation e _
    · exact h
  · split
    · split
      · exact (h.setFetch e).endActuation e _
      · exact h.setFetch e
    · exact h.setFetch e
  · exact h.becomeFaulted e _
  all_goals exact h

theorem sensorPollAnswered (h : QueuesKept s₀ s) (e : ElementId) (st : Status) :
    QueuesKept s₀ (s.sensorPollAnswered e st) := by
  cases st
  case more => exact h.setFetch e
  case fault => exact h.becomeFaulted e _
  case ok | hold | done | retry | reject => exact h

/-! ### Reports and scores -/

theorem takeReport (h : QueuesKept s₀ s) (e : ElementId) (k : EventKind) (count : Nat) :
    QueuesKept s₀ (s.takeReport e k count) := by
  unfold State.takeReport
  split
  · exact h
  · have hc : QueuesKept s₀ (s.countReport e count) := h.updElement e _
    unfold State.judgeReport
    dsimp only
    split
    · exact hc.queueNotice _
    · split
      · exact hc.queueNotice _
      · split
        · exact hc.queueNotice _
        · exact (hc.updTally _ _).queueNotice _

theorem takeReports (h : QueuesKept s₀ s) (e : ElementId) (bytes : List Byte) :
    QueuesKept s₀ (s.takeReports e bytes) := by
  refine h.foldl (fun h b => ?_) _
  split
  · exact h
  · exact h.takeReport e _ _

/-! ### The end of a transaction -/

theorem fetchAnswered (h : QueuesKept s₀ s) (e : ElementId) (st : Status) (payload : List Byte) :
    QueuesKept s₀ (s.fetchAnswered e st payload) := by
  cases st
  case ok => exact (h.takeReports e payload).flipFetch e
  case more => exact ((h.takeReports e payload).flipFetch e).setFetch e
  case fault => exact h.becomeFaulted e _
  case hold | done | retry | reject => exact h

theorem endCancelling (h : QueuesKept s₀ s) (e : ElementId) : QueuesKept s₀ (s.endCancelling e) := by
  unfold State.endCancelling
  split
  · split
    · exact h.endActuation e _
    · exact h
  · exact h

theorem safeAnswered (h : QueuesKept s₀ s) (e : ElementId) (l : Loaded) (st : Status) :
    QueuesKept s₀ (s.safeAnswered e l st) := by
  cases st
  case ok | done => exact ((h.dropSafe e).setRetries e 0).endCancelling e
  case more => exact (((h.dropSafe e).setRetries e 0).setFetch e).endCancelling e
  case retry =>
    unfold State.safeAnswered
    dsimp only
    split
    · exact h.setRetries e _
    · exact ((h.dropSafe e).setRetries e 0).becomeFaulted e _
  case fault => exact (h.dropSafe e).becomeFaulted e _
  case hold | reject => exact h

theorem answered (h : QueuesKept s₀ s) (e : ElementId) (l : Loaded) (c : BusCommand) (st : Status) (payload : List Byte) :
    QueuesKept s₀ (s.answered e l c st payload) := by
  unfold State.answered
  cases c <;> dsimp only
  case probe => exact h.probeAnswered e l st payload
  case safe => exact h.safeAnswered e l st
  all_goals split
  case actuate.isTrue => exact h.actuateAnswered e l st payload
  case actionPoll.isTrue => exact (h.actionPollAnswered e l st payload).restartActionPoll e
  case sensorPoll.isTrue => exact (h.sensorPollAnswered e st).restartSensor e
  case fetch.isTrue => exact h.fetchAnswered e st payload
  all_goals exact h

theorem actOnAnswer (h : QueuesKept s₀ s) (e : ElementId) (c : BusCommand) (st : Status) (payload : List Byte) :
    QueuesKept s₀ (s.actOnAnswer e c st payload) := by
  unfold State.actOnAnswer
  split
  · exact h
  · exact (h.setMisses e 0).answered e _ c st payload

theorem missedAgain (h : QueuesKept s₀ s) (e : ElementId) (c : BusCommand) : QueuesKept s₀ (s.missedAgain e c) := by
  cases c
  case fetch => exact h.setFetch e
  case actionPoll => exact h.restartActionPoll e
  case sensorPoll => exact h.restartSensor e
  case probe | actuate | safe => exact h

theorem actOnMiss (h : QueuesKept s₀ s) (e : ElementId) (c : BusCommand) : QueuesKept s₀ (s.actOnMiss e c) := by
  unfold State.actOnMiss
  split
  · exact h
  · split
    · exact (h.missedAgain e c).countMiss e
    · exact h.countMiss e

theorem endTransaction (h : QueuesKept s₀ s) (t : Transaction) (o : BusOutcome) :
    QueuesKept s₀ (s.endTransaction t o) := by
  unfold State.endTransaction
  split
  · exact h.restPair
  · split
    · exact h.restPair.actOnAnswer _ _ _ _
    all_goals exact h.restPair.actOnMiss _ _

theorem answerReceived (h : QueuesKept s₀ s) (t : Transaction) (chars : List BusChar) (c : BusChar) :
    QueuesKept s₀ (s.answerReceived t chars c) := by
  unfold State.answerReceived
  dsimp only
  split
  · exact (h.endTransaction t _).settle
  · exact h.fly _

theorem answerEdge (h : QueuesKept s₀ s) (t : Transaction) (chars : List BusChar) (ev : AnswerEvent) :
    QueuesKept s₀ (s.answerEdge t chars ev) := by
  unfold State.answerEdge
  split
  · exact h
  · split
    · exact h.fly _
    · exact h.fly _
    · split
      · exact h.fly _
      · exact h.answerReceived t chars _

theorem completeAnswer (h : QueuesKept s₀ s) (k : BusCommand) (edge : BusEdge) :
    QueuesKept s₀ (s.completeAnswer k edge) := by
  unfold State.completeAnswer
  split
  · exact h.answerReceived _ _ _
  · exact h

theorem passActionLimit (h : QueuesKept s₀ s) (e : ElementId) : QueuesKept s₀ (s.passActionLimit e) :=
  ((((h.setPresence e _).endActuation e _).elementLost e _).queueNotice _).queueSafe e

theorem voidTransaction (h : QueuesKept s₀ s) (e : ElementId) : QueuesKept s₀ (s.voidTransaction e) := { h with }

theorem writeEntry (h : QueuesKept s₀ s) (e : ElementId) (l : Option Loaded) : QueuesKept s₀ (s.writeEntry e l) :=
  ((h.updElement e _).dropSafe e).voidTransaction e

/-! ### The Match Sequencer and the Referee Line Unit -/

theorem clearSilent (h : QueuesKept s₀ s) (f : FieldId) :
    QueuesKept s₀ (s.clearSilent f) := h.foldl (fun h i => h.updSlot i _) _

theorem announcePhase (h : QueuesKept s₀ s) (f : FieldId) (k : Nat) (a : Bool) :
    QueuesKept s₀ (s.announcePhase f k a) := by
  unfold State.announcePhase
  dsimp only
  have hq := (h.setUrgent f).queueNotice (.phase f (s.fields.at f).phase k a)
  have hp : ∀ t, QueuesKept s₀ t → QueuesKept s₀ (if (s.fields.at f).phase = .teleop ∨ (s.fields.at f).phase = .endgame then
      t.phaseEvent f (s.fields.at f).phase else t) := by
    intro t ht
    split
    · exact ht.phaseEvent f _
    · exact ht
  split
  · exact (hp _ hq).testSilence f
  · exact (hp _ hq).clearSilent f

theorem enterPhase (h : QueuesKept s₀ s) (f : FieldId) (dest : Phase × Nat) : QueuesKept s₀ (s.enterPhase f dest) :=
  (h.updField f _).announcePhase f _ _

theorem expireInto (h : QueuesKept s₀ s) (f : FieldId) (dest : Phase × Nat) : QueuesKept s₀ (s.expireInto f dest) :=
  ((h.updField f _).gateOffEvents s _).announcePhase f _ _

theorem expireMatch (h : QueuesKept s₀ s) (f : FieldId) :
    QueuesKept s₀ (s.expireMatch f) := (h.updField f _).expireInto f _

theorem enterStopped (h : QueuesKept s₀ s) (f : FieldId) (c : StopCause) : QueuesKept s₀ (s.enterStopped f c) :=
  ((((h.updField f _).gateOffEvents s _).safeField f).setUrgent f).queueNotice _

theorem stopField (h : QueuesKept s₀ s) (f : FieldId) (c : StopCause) : QueuesKept s₀ (s.stopField f c) := by
  unfold State.stopField
  split
  · exact h.enterStopped f c
  · exact h

theorem resumeField (h : QueuesKept s₀ s) (f : FieldId) (source : ResumeSource) :
    QueuesKept s₀ (s.resumeField f source) :=
  ((h.updField f _).setUrgent f).queueNotice _

theorem placeAll (h : QueuesKept s₀ s) (f : FieldId) (l : Table 6 (Option SlotId)) :
    QueuesKept s₀ (s.placeAll f l) := by
  refine h.foldl (fun h k => ?_) _
  split
  · exact h.updSlot _ _
  · exact h

theorem toIdle (h : QueuesKept s₀ s) (f : FieldId) : QueuesKept s₀ (s.toIdle f) := by
  have hr : QueuesKept s₀ (s.releaseAll f) := h.foldl (fun h i => h.updSlot i _) _
  exact (hr.updField f _).announcePhase f _ _

theorem clearScores (h : QueuesKept s₀ s) (f : FieldId) : QueuesKept s₀ (s.clearScores f) := h.others

theorem loadMatch (h : QueuesKept s₀ s) (f : FieldId) (m : MatchRecord) : QueuesKept s₀ (s.loadMatch f m) := by
  unfold State.loadMatch
  dsimp only
  have hc := ((h.updField f fun _ => m).placeAll f m.list).clearScores f
  split
  · exact (hc.announcePhase f _ _).stopField f _
  · exact hc.announcePhase f _ _

theorem abortMatch (h : QueuesKept s₀ s) (f : FieldId) : QueuesKept s₀ (s.abortMatch f) := by
  unfold State.abortMatch
  exact (((h.updField f _).gateOffEvents s _).safeField f).announcePhase f _ _

theorem setSlotFlag (h : QueuesKept s₀ s) (i : SlotId) (f : FieldId) (r : Reason) (g : Slot → Slot) :
    QueuesKept s₀ (s.setSlotFlag i f r g) :=
  (((h.updSlot i g).gateOffEvents s r).setUrgent f).settle

theorem activate (h : QueuesKept s₀ s) (k : LineId) : QueuesKept s₀ (s.activate k) := by
  unfold State.activate
  split
  · exact h.others.stopField _ _
  · exact h.others.foldl (fun h f => h.stopField f _) _
  all_goals exact h

theorem combine (h : QueuesKept s₀ s) (f : FieldId) : QueuesKept s₀ (s.combine f) := by
  unfold State.combine
  dsimp only
  split
  · exact h.others.resumeField f _
  · exact h.others

theorem changeLines (h : QueuesKept s₀ s) (p : LineId → Bool) (g : LineId → LineRecord → LineRecord) :
    QueuesKept s₀ (s.changeLines p g) := by
  unfold State.changeLines
  exact (h.others.foldl activate _).foldl combine _

theorem sampleLines (h : QueuesKept s₀ s) (pins : Table 16 Level) : QueuesKept s₀ (s.sampleLines pins) := by
  unfold State.sampleLines
  dsimp only
  split
  · exact h.others.foldl (fun h p => h.changeLines p _) _
  · exact h.others.changeLines _ _

theorem takeSample (h : QueuesKept s₀ s) (pins : Table 16 Level) : QueuesKept s₀ (s.takeSample pins) :=
  (h.others.sampleLines pins).settle

theorem changePin (h : QueuesKept s₀ s) (k : LineId) (v : Level) : QueuesKept s₀ (s.changePin k v) := by
  unfold State.changePin
  dsimp only
  split
  · exact h.others
  · exact h.others.changeLines _ _

end QueuesKept

end Sys2Proof.Machine
end

section
/-! SUPPORT. The queues, tables and counters through the rule of every command, and through the moments of a millisecond. -/

namespace Sys2Proof.Machine

open Sys2Proof

/-! ### What a command's rule answers -/

/-- A command's rule refuses, or answers DONE with a state whose queues are kept (R179). -/
inductive AnswerKeeps (s : State) : Answer → Prop
  | error (r : ReplyReason) : AnswerKeeps s (.error r)
  | ok {t : State} (h : QueuesKept s t) (data : List Byte) : AnswerKeeps s (.ok (t, data))

section
variable {s₀ s : State}

theorem AnswerKeeps.commission (h : QueuesKept s₀ s) (ops : List Byte) : AnswerKeeps s₀ (runCommission s ops) := by
  cases ops
  · exact .ok (h.setMode _) _
  · exact .error _

theorem AnswerKeeps.decommission (h : QueuesKept s₀ s) (ops : List Byte) : AnswerKeeps s₀ (runDecommission s ops) := by
  unfold runDecommission
  split
  · split
    · exact .error _
    · exact .ok (h.setMode _) _
  · exact .error _

theorem AnswerKeeps.restart (h : QueuesKept s₀ s) (ops : List Byte) : AnswerKeeps s₀ (runRestart s ops) := by
  have hr : QueuesKept s₀ (s.updMgmt fun m => { m with restartPending := true }) := { h with }
  cases ops
  · exact .ok hr _
  · exact .error _

/-- The entries below and above an address fill no more places than the table (R20). -/
theorem length_below_above_le (stations : List Station) (a : Byte) :
    (stations.filter fun st => st.addr.toNat < a.toNat).length + (stations.filter fun st => a.toNat < st.addr.toNat).length ≤
      stations.length := by
  rw [← List.countP_eq_length_filter, ← List.countP_eq_length_filter, List.length_eq_countP_add_countP
    (fun st : Station => decide (st.addr.toNat < a.toNat))]
  refine Nat.add_le_add_left (List.countP_mono_left fun st _ h => ?_) _
  simp only [decide_eq_true_eq] at h ⊢
  omega

/-- They leave a place free when the address has an entry of its own (R20). -/
theorem length_below_above_lt {stations : List Station} {a : Byte} {st : Station} (h : ownEntry stations a = some st) :
    (stations.filter fun st => st.addr.toNat < a.toNat).length + (stations.filter fun st => a.toNat < st.addr.toNat).length <
      stations.length := by
  have hm : st ∈ stations := List.mem_of_find?_eq_some h
  have ha : st.addr = a := by simpa using List.find?_some h
  have hl := length_below_above_le (stations.erase st) a
  have hp : 0 < stations.length := List.length_pos_of_mem hm
  rw [List.length_erase_of_mem hm] at hl
  rw [((List.perm_cons_erase hm).filter _).length_eq, ((List.perm_cons_erase hm).filter _).length_eq]
  simp only [List.filter_cons, ha, Nat.lt_irrefl, decide_false, Bool.false_eq_true, if_false]
  omega

/-- LOAD STATION adds an entry only while the table has room, and replaces the entry of its address otherwise (R20, R21). -/
theorem length_insertStation_le {stations : List Station} (h : stations.length ≤ 64) (new : Station)
    (hr : ¬ ((ownEntry stations new.addr).isNone ∧ 64 ≤ stations.length)) : (insertStation stations new).length ≤ 64 := by
  simp only [insertStation, List.length_append, List.length_singleton]
  cases ho : ownEntry stations new.addr with
  | none =>
    have hle := length_below_above_le stations new.addr
    have hroom : ¬ 64 ≤ stations.length := fun hf => hr ⟨by rw [ho]; rfl, hf⟩
    omega
  | some st =>
    have hlt := length_below_above_lt ho
    omega

theorem QueuesKept.loadStationEntry (h : QueuesKept s₀ s) (new : Station)
    (hr : ¬ ((ownEntry s.stations new.addr).isNone ∧ 64 ≤ s.stations.length)) : QueuesKept s₀ (s.loadStationEntry new) := by
  have ht : QueuesKept s₀ { s with stations := insertStation s.stations new } :=
    { h with stations := fun hs => length_insertStation_le (h.stations hs) new hr }
  unfold State.loadStationEntry
  dsimp only
  split
  · exact ht
  · split
    · exact (ht.updSlot _ _).updSlot _ _
    · exact ht.updSlot _ _

theorem AnswerKeeps.loadStation (h : QueuesKept s₀ s) (ops : List Byte) : AnswerKeeps s₀ (runLoadStation s ops) := by
  unfold runLoadStation
  split
  · split
    · dsimp only
      split
      · exact .error _
      · split
        · exact .error _
        · split
          · exact .error _
          · split
            · exact .error _
            · split
              · exact .error _
              · next hr => exact .ok (h.loadStationEntry _ hr) _
    · exact .error _
  · exact .error _

theorem AnswerKeeps.clearStation (h : QueuesKept s₀ s) (ops : List Byte) : AnswerKeeps s₀ (runClearStation s ops) := by
  unfold runClearStation
  split
  · next a =>
    have ht : QueuesKept s₀ { s with stations := s.stations.filter fun x => x.addr != a } :=
      { h with stations := fun hs => Nat.le_trans (List.length_filter_le _ _) (h.stations hs) }
    split
    · exact .error _
    · dsimp only
      split
      · exact .ok (ht.updSlot _ _) _
      · exact .ok ht _
  · exact .error _

theorem AnswerKeeps.loadSlot (h : QueuesKept s₀ s) (ops : List Byte) : AnswerKeeps s₀ (runLoadSlot s ops) := by
  unfold runLoadSlot
  split
  · split
    · exact .error _
    · dsimp only
      split
      · exact .error _
      · split
        · exact .ok (h.updSlot _ _) _
        · split
          · exact .ok (h.updSlot _ _) _
          · exact .error _
  · exact .error _

theorem AnswerKeeps.clearSlot (h : QueuesKept s₀ s) (ops : List Byte) : AnswerKeeps s₀ (runClearSlot s ops) := by
  unfold runClearSlot
  split
  · split
    · exact .error _
    · split
      · exact .error _
      · split
        · exact .ok h _
        · exact .ok (h.updSlot _ _) _
  · exact .error _

theorem QueuesKept.writeTimings (h : QueuesKept s₀ s) (t : Timing) : QueuesKept s₀ (s.writeTimings t) := by
  unfold State.writeTimings
  exact h.others.silenceTests.settle

theorem AnswerKeeps.setTiming (h : QueuesKept s₀ s) (ops : List Byte) : AnswerKeeps s₀ (runSetTiming s ops) := by
  unfold runSetTiming
  split
  · split
    · exact .error _
    · dsimp only
      split
      · exact .error _
      · exact .ok (h.writeTimings _) _
  · exact .error _

theorem AnswerKeeps.read (h : QueuesKept s₀ s) (ops : List Byte) : AnswerKeeps s₀ (runRead s ops) := by
  unfold runRead
  split
  · split
    · exact .error _
    · split
      · exact .error _
      · exact .ok (h.setCursor _ _) _
  · exact .error _

theorem AnswerKeeps.readNext (h : QueuesKept s₀ s) (ops : List Byte) : AnswerKeeps s₀ (runReadNext s ops) := by
  unfold runReadNext
  split
  · split
    · exact .error _
    · split
      · exact .error _
      · exact .ok (h.setCursor _ _) _
  · exact .error _

theorem AnswerKeeps.loadMatch (h : QueuesKept s₀ s) (ops : List Byte) : AnswerKeeps s₀ (runLoadMatch s ops) := by
  unfold runLoadMatch
  split
  · split
    · exact .error _
    · split
      · dsimp only
        split
        · exact .error _
        · split
          · exact .error _
          · exact .ok (h.loadMatch _ _).settle _
      · exact .error _
  · exact .error _

/-- A command that names a field alone (R59 to R69). -/
theorem AnswerKeeps.onField {run : State → FieldId → Answer} (hr : ∀ f, AnswerKeeps s₀ (run s f)) (ops : List Byte) :
    AnswerKeeps s₀ (onField s run ops) := by
  unfold Machine.onField
  split
  · split
    · exact .error _
    · exact hr _
  · exact .error _

theorem AnswerKeeps.start (h : QueuesKept s₀ s) (f : FieldId) : AnswerKeeps s₀ (runStart s f) := by
  unfold runStart
  split
  · exact .error _
  · split
    · exact .error _
    · exact .ok (h.enterPhase f _).settle _

theorem AnswerKeeps.stop (h : QueuesKept s₀ s) (f : FieldId) : AnswerKeeps s₀ (runStop s f) := by
  unfold runStop
  split
  · exact .ok (h.stopField f _).settle _
  · exact .error _

theorem AnswerKeeps.resume (h : QueuesKept s₀ s) (f : FieldId) : AnswerKeeps s₀ (runResume s f) := by
  unfold runResume
  split
  · exact .error _
  · exact .ok (h.resumeField f _) _

theorem AnswerKeeps.abort (h : QueuesKept s₀ s) (f : FieldId) : AnswerKeeps s₀ (runAbort s f) := by
  unfold runAbort
  split
  · exact .ok (h.abortMatch f).settle _
  · exact .error _

theorem AnswerKeeps.commit (h : QueuesKept s₀ s) (f : FieldId) : AnswerKeeps s₀ (runCommit s f) := by
  unfold runCommit
  split
  · exact .ok ((h.updField f _).toIdle f) _
  · exact .error _

theorem AnswerKeeps.resetMatch (h : QueuesKept s₀ s) (f : FieldId) : AnswerKeeps s₀ (runResetMatch s f) := by
  unfold runResetMatch
  split
  · exact .ok (h.toIdle f) _
  · exact .error _

theorem AnswerKeeps.disableSlot (h : QueuesKept s₀ s) (ops : List Byte) : AnswerKeeps s₀ (runDisableSlot s ops) := by
  unfold runDisableSlot
  split
  · split
    · exact .error _
    · split
      · exact .error _
      · split
        · exact .ok h _
        · exact .ok (h.setSlotFlag _ _ _ _) _
  · exact .error _

theorem AnswerKeeps.bypassSlot (h : QueuesKept s₀ s) (ops : List Byte) : AnswerKeeps s₀ (runBypassSlot s ops) := by
  unfold runBypassSlot
  split
  · split
    · exact .error _
    · split
      · exact .error _
      · split
        · exact .ok h _
        · exact .ok (h.setSlotFlag _ _ _ _) _
  · exact .error _

theorem AnswerKeeps.penalty (h : QueuesKept s₀ s) (ops : List Byte) : AnswerKeeps s₀ (runPenalty s ops) := by
  unfold runPenalty
  split
  · split
    · split
      · exact .error _
      · split
        · exact .error _
        · exact .ok (h.updTally _ _) _
    · exact .error _
  · exact .error _

theorem AnswerKeeps.correct (h : QueuesKept s₀ s) (ops : List Byte) : AnswerKeeps s₀ (runCorrect s ops) := by
  unfold runCorrect
  split
  · split
    · split
      · exact .error _
      · split
        · exact .error _
        · exact .ok (h.updTally _ _) _
    · exact .error _
  · exact .error _

theorem AnswerKeeps.loadLine (h : QueuesKept s₀ s) (ops : List Byte) : AnswerKeeps s₀ (runLoadLine s ops) := by
  unfold runLoadLine
  split
  · split
    · split
      · exact .error _
      · exact .ok h.others _
    · exact .error _
  · exact .error _

theorem AnswerKeeps.clearLineFlags (h : QueuesKept s₀ s) (ops : List Byte) : AnswerKeeps s₀ (runClearLineFlags s ops) := by
  unfold runClearLineFlags
  split
  · split
    · exact .ok h.others _
    · split
      · exact .ok h.others _
      · exact .error _
  · exact .error _

theorem AnswerKeeps.loadElement (h : QueuesKept s₀ s) (ops : List Byte) : AnswerKeeps s₀ (runLoadElement s ops) := by
  unfold runLoadElement
  split
  · split
    · split
      · exact .error _
      · exact .ok (h.writeEntry _ _).settle _
    · exact .error _
  · exact .error _

theorem AnswerKeeps.clearElementEntry (h : QueuesKept s₀ s) (ops : List Byte) :
    AnswerKeeps s₀ (runClearElementEntry s ops) := by
  unfold runClearElementEntry
  split
  · split
    · exact .error _
    · split
      · exact .ok h _
      · split
        · exact .error _
        · split
          · exact .error _
          · exact .ok (h.writeEntry _ _).settle _
  · exact .error _

theorem AnswerKeeps.clearElementFault (h : QueuesKept s₀ s) (ops : List Byte) :
    AnswerKeeps s₀ (runClearElementFault s ops) := by
  unfold runClearElementFault
  split
  · split
    · exact .error _
    · split
      · exact .error _
      · split
        · exact .ok ((h.setMisses _ _).changePresence _ _).settle _
        all_goals exact .error _
  · exact .error _

theorem AnswerKeeps.loadScoreRule (h : QueuesKept s₀ s) (ops : List Byte) : AnswerKeeps s₀ (runLoadScoreRule s ops) := by
  unfold runLoadScoreRule
  split
  · split
    · split
      · exact .error _
      · exact .ok (h.updElement _ _) _
    · exact .error _
  · exact .error _

theorem AnswerKeeps.busPause (h : QueuesKept s₀ s) (ops : List Byte) : AnswerKeeps s₀ (runBusPause s ops) := by
  unfold runBusPause
  split
  · split
    · exact .error _
    · split
      · exact .ok (h.updBus _) _
      all_goals exact .ok h _
  · exact .error _

theorem AnswerKeeps.busResume (h : QueuesKept s₀ s) (ops : List Byte) : AnswerKeeps s₀ (runBusResume s ops) := by
  unfold runBusResume
  split
  · split
    · exact .ok (h.updBus _).settle _
    · exact .ok (h.updBus _).settle _
    all_goals exact .error _
  · exact .error _

/-- A command's row is its rule, run on the operands of the head frame, and no rule touches the queues but as
`QueuesKept` says (R178, R179). -/
theorem exec_command {c : Instr} {code : Byte} {n : Nat} (h : (c, code, n) ∈ commandTable) :
    ∃ run, (∀ s, exec c s = .next (s.command code n run)) ∧ ∀ t ops, AnswerKeeps t (run t ops) := by
  cases c <;> simp [commandTable] at h <;> obtain ⟨rfl, rfl⟩ := h
  case commission => exact ⟨_, fun _ => rfl, fun t => .commission (.refl t)⟩
  case decommission => exact ⟨_, fun _ => rfl, fun t => .decommission (.refl t)⟩
  case restart => exact ⟨_, fun _ => rfl, fun t => .restart (.refl t)⟩
  case loadStation => exact ⟨_, fun _ => rfl, fun t => .loadStation (.refl t)⟩
  case clearStation => exact ⟨_, fun _ => rfl, fun t => .clearStation (.refl t)⟩
  case loadSlot => exact ⟨_, fun _ => rfl, fun t => .loadSlot (.refl t)⟩
  case clearSlot => exact ⟨_, fun _ => rfl, fun t => .clearSlot (.refl t)⟩
  case loadMatch => exact ⟨_, fun _ => rfl, fun t => .loadMatch (.refl t)⟩
  case start => exact ⟨_, fun _ => rfl, fun t => .onField (.start (.refl t))⟩
  case stop => exact ⟨_, fun _ => rfl, fun t => .onField (.stop (.refl t))⟩
  case resume => exact ⟨_, fun _ => rfl, fun t => .onField (.resume (.refl t))⟩
  case abort => exact ⟨_, fun _ => rfl, fun t => .onField (.abort (.refl t))⟩
  case commit => exact ⟨_, fun _ => rfl, fun t => .onField (.commit (.refl t))⟩
  case resetMatch => exact ⟨_, fun _ => rfl, fun t => .onField (.resetMatch (.refl t))⟩
  case disableSlot => exact ⟨_, fun _ => rfl, fun t => .disableSlot (.refl t)⟩
  case bypassSlot => exact ⟨_, fun _ => rfl, fun t => .bypassSlot (.refl t)⟩
  case loadLine => exact ⟨_, fun _ => rfl, fun t => .loadLine (.refl t)⟩
  case clearLineFlags => exact ⟨_, fun _ => rfl, fun t => .clearLineFlags (.refl t)⟩
  case loadElement => exact ⟨_, fun _ => rfl, fun t => .loadElement (.refl t)⟩
  case clearElementEntry => exact ⟨_, fun _ => rfl, fun t => .clearElementEntry (.refl t)⟩
  case clearElementFault => exact ⟨_, fun _ => rfl, fun t => .clearElementFault (.refl t)⟩
  case loadScoreRule => exact ⟨_, fun _ => rfl, fun t => .loadScoreRule (.refl t)⟩
  case penalty => exact ⟨_, fun _ => rfl, fun t => .penalty (.refl t)⟩
  case correct => exact ⟨_, fun _ => rfl, fun t => .correct (.refl t)⟩
  case setTiming => exact ⟨_, fun _ => rfl, fun t => .setTiming (.refl t)⟩
  case busPause => exact ⟨_, fun _ => rfl, fun t => .busPause (.refl t)⟩
  case busResume => exact ⟨_, fun _ => rfl, fun t => .busResume (.refl t)⟩
  case read => exact ⟨_, fun _ => rfl, fun t => .read (.refl t)⟩
  case readNext => exact ⟨_, fun _ => rfl, fun t => .readNext (.refl t)⟩

/-! ### Frames, timers and moments -/

namespace QueuesKept

theorem refresh (h : QueuesKept s₀ s) (i : SlotId) (radio : Radio) : QueuesKept s₀ (s.refresh i radio) := by
  unfold State.refresh
  dsimp only
  split
  · exact (h.updSlot i _).queueNotice _
  · exact h.updSlot i _

theorem claimPayload (h : QueuesKept s₀ s) (i : SlotId) (p : List Byte) : QueuesKept s₀ (s.claimPayload i p) := by
  unfold State.claimPayload
  split
  · exact (h.takeClaim i _ _).settle
  · exact h

theorem releasePayload (h : QueuesKept s₀ s) (i : SlotId) (p : List Byte) : QueuesKept s₀ (s.releasePayload i p) := by
  cases p
  · exact h
  · exact (h.takeRelease i _).settle

theorem passSilence (h : QueuesKept s₀ s) (i : SlotId) : QueuesKept s₀ (s.passSilence i) := by
  unfold State.passSilence
  split
  · exact ((h.updSlot i _).markSilent i).settle
  · exact h

theorem refillAll (h : QueuesKept s₀ s) : QueuesKept s₀ s.refillAll := { h with }

theorem beaconPeriodEnds (h : QueuesKept s₀ s) : QueuesKept s₀ s.beaconPeriodEnds := { h with }

theorem expireHold (h : QueuesKept s₀ s) (e : ElementId) : QueuesKept s₀ (s.expireHold e) := by
  unfold State.expireHold
  split
  · exact h
  · exact (h.endHold e _).settle

theorem applyEntry {p : State × Nat} (h : QueuesKept s₀ p.1) (b : List Byte) :
    QueuesKept s₀ (State.applyEntry p b).1 := by
  unfold State.applyEntry
  split
  · split
    · exact h.others
    · exact h
  · exact h

theorem loadEntries (h : QueuesKept s₀ s) (entries : List (List Byte)) : QueuesKept s₀ (s.loadEntries entries).1 := by
  have hl : ∀ (l : List (List Byte)) (p : State × Nat),
      QueuesKept s₀ p.1 → QueuesKept s₀ (l.foldl State.applyEntry p).1 := by
    intro l
    induction l with
    | nil => exact fun p hp => hp
    | cons b l ih => exact fun p hp => ih _ (applyEntry hp b)
  exact hl entries _ { h with }

theorem leaveStarting (h : QueuesKept s₀ s) (valid : Bool) (skipped : Nat) :
    QueuesKept s₀ (s.leaveStarting valid skipped) := by
  unfold State.leaveStarting
  exact ((((h.setMode _).updBus _).beaconPeriodEnds.others).queueNotice _).settle

theorem countdownsFall (h : QueuesKept s₀ s) (cs : List Countdown) : QueuesKept s₀ (s.countdownsFall cs) := by
  refine QueuesKept.settle (h.foldl (fun h c => ?_) _)
  split
  · cases c
    all_goals exact h.others
  · exact h

theorem moment (h : QueuesKept s₀ s) (m : Moment) : QueuesKept s₀ (m.act s) := by
  cases m
  case autoExpiry f => exact (h.expireInto f _).settle
  case pauseExpiry f => exact (h.expireInto f _).settle
  case endgameBoundary f => exact (h.enterPhase f _).settle
  case matchEnd f => exact (h.expireMatch f).settle
  case graceEnd f => exact h.others
  case holdExpiry e => exact h.expireHold e
  case actionLimit e => exact (h.passActionLimit e).settle
  case countdowns cs => exact h.countdownsFall cs
  case budget => exact h.refillAll
  case silence => exact h.silenceTests.settle
  case beacon => exact h.beaconPeriodEnds
  case sample => exact h.takeSample _

theorem countAndRun (h : QueuesKept s₀ s) : QueuesKept s₀ s.countAndRun := by
  unfold State.countAndRun State.runMoments
  dsimp only [State.advance]
  refine h.others.foldl (fun h m => ?_) _
  split
  · exact h.moment m
  · exact h

end QueuesKept

end

end Sys2Proof.Machine
end

section
/-! SUPPORT. Every row and every step of the part keeps the bounds of the queues, tables and counters. -/

namespace Sys2Proof.Machine

open Sys2Proof

/-- `State.QueuesBounded` with the bound of the reply queue as a parameter: a command's rule runs in a state with room for
its reply, and no rule uses that room up (R178, R180). -/
structure State.Within (n : Nat) (s : State) : Prop where
  store : s.link.store.length ≤ 8
  verdicts : s.link.verdicts.length ≤ 16
  replies : s.link.replies.length ≤ n
  tells : s.link.tells.length ≤ 16
  stations : s.stations.length ≤ 64
  notices : s.mgmt.notices.length ≤ 16
  dropped : s.mgmt.dropped ≤ 255
  counters : s.link.counters.bounded
  gate : s.gate.bounded

theorem State.within_four {s : State} : s.Within 4 ↔ s.QueuesBounded :=
  ⟨fun h => { h with }, fun h => { h with }⟩

/-! ### Queues and counters -/

theorem saturate_le (n k : Nat) : saturate n k ≤ 65535 := Nat.min_le_left _ _

theorem LinkCounters.bounded.count {c : LinkCounters} (h : c.bounded) (e : LinkError) : (c.count e).bounded := by
  obtain ⟨check, framing, overlong, truncated, overrun, received, sent⟩ := h
  cases e
  · exact ⟨saturate_le _ _, framing, overlong, truncated, overrun, received, sent⟩
  · exact ⟨check, saturate_le _ _, overlong, truncated, overrun, received, sent⟩
  · exact ⟨check, framing, saturate_le _ _, truncated, overrun, received, sent⟩
  · exact ⟨check, framing, overlong, saturate_le _ _, overrun, received, sent⟩
  · exact ⟨check, framing, overlong, truncated, saturate_le _ _, received, sent⟩

theorem LinkCounters.bounded.received {c : LinkCounters} (h : c.bounded) :
    LinkCounters.bounded { c with received := saturate c.received 1 } := by
  obtain ⟨check, framing, overlong, truncated, overrun, -, sent⟩ := h
  exact ⟨check, framing, overlong, truncated, overrun, saturate_le _ _, sent⟩

theorem LinkCounters.bounded.sent {c : LinkCounters} (h : c.bounded) :
    LinkCounters.bounded { c with sent := saturate c.sent 1 } := by
  obtain ⟨check, framing, overlong, truncated, overrun, received, -⟩ := h
  exact ⟨check, framing, overlong, truncated, overrun, received, saturate_le _ _⟩

theorem GateCounters.bounded.count {c : GateCounters} (h : c.bounded) (r : DropReason) : (c.count r).bounded := by
  obtain ⟨unknownSource, badKind, bypassed, misdirected, stale, throttled, tellFull, superseded⟩ := h
  cases r
  · exact ⟨saturate_le _ _, badKind, bypassed, misdirected, stale, throttled, tellFull, superseded⟩
  · exact ⟨unknownSource, saturate_le _ _, bypassed, misdirected, stale, throttled, tellFull, superseded⟩
  · exact ⟨unknownSource, badKind, saturate_le _ _, misdirected, stale, throttled, tellFull, superseded⟩
  · exact ⟨unknownSource, badKind, bypassed, saturate_le _ _, stale, throttled, tellFull, superseded⟩
  · exact ⟨unknownSource, badKind, bypassed, misdirected, saturate_le _ _, throttled, tellFull, superseded⟩
  · exact ⟨unknownSource, badKind, bypassed, misdirected, stale, saturate_le _ _, tellFull, superseded⟩
  · exact ⟨unknownSource, badKind, bypassed, misdirected, stale, throttled, saturate_le _ _, superseded⟩
  · exact ⟨unknownSource, badKind, bypassed, misdirected, stale, throttled, tellFull, saturate_le _ _⟩


namespace State.Within

variable {n : Nat} {s : State}

/-- What the procedures behind the receive line and the transmitter do keeps the bounds. -/
theorem keep (h : s.Within n) {t : State} (k : QueuesKept s t) : t.Within n where
  store := by rw [k.store]; exact h.store
  verdicts := k.verdicts h.verdicts
  replies := by rw [k.replies]; exact h.replies
  tells := by rw [k.tells]; exact h.tells
  stations := k.stations h.stations
  notices := k.notices h.notices
  dropped := k.dropped h.dropped
  counters := by rw [k.counters]; exact h.counters
  gate := by rw [k.gate]; exact h.gate

/-- A reply uses one place of the reply queue (R180). -/
theorem queueReply (h : s.Within n) (f : Frame) (code : Byte) (o : ReplyOutcome) : (s.queueReply f code o).Within (n + 1) :=
  { h with replies := by simpa [State.queueReply] using h.replies }

theorem countDrop (h : s.Within n) (r : DropReason) : (s.countDrop r).Within n := { h with gate := h.gate.count r }

theorem countError (h : s.Within n) (e : LinkError) : (s.countError e).Within n := { h with counters := h.counters.count e }

theorem popStore (h : s.Within n) : s.popStore.Within n :=
  { h with store := Nat.le_trans (by simp [State.popStore, State.updLink]) h.store }

/-! ### Taking a command -/

/-- A command runs only when the reply queue has room for its answer (R178, R180). -/
theorem dispose (h : s.Within 4) (f : Frame) (code : Byte) {run : State → Answer}
    (hr : ∀ t, AnswerKeeps t (run t)) : (s.dispose f code run).Within 4 := by
  unfold State.dispose
  dsimp only
  split
  · exact h.popStore
  · split
    · exact h.popStore
    · next hroom =>
      have h3 : s.popStore.Within 3 :=
        { h.popStore with replies := by simp only [Config.replyCapacity] at hroom; omega }
      unfold State.answer
      generalize hx : run s.popStore = x
      obtain r | ⟨k, data⟩ := hx ▸ hr s.popStore
      · exact h3.queueReply f code _
      · exact (h3.keep k).queueReply f code _

theorem command (h : s.Within 4) (code : Byte) (length : Nat) {run : State → List Byte → Answer}
    (hr : ∀ t ops, AnswerKeeps t (run t ops)) : (s.command code length run).Within 4 := by
  unfold State.command
  split
  · exact h
  · split
    · exact h
    · split
      · refine h.dispose _ code fun t => ?_
        split
        · exact hr t _
        · exact .error _
      · exact h

/-! ### The receive line and the transmitter -/

theorem completeFrame (h : s.Within n) (got : List Byte) : (s.completeFrame got).Within n := by
  unfold State.completeFrame
  split
  · exact h.countError _
  · split
    · exact h.countError _
    · next hroom =>
      split
      · exact h.countError _
      · exact { h with
          store := by simp only [Config.storeCapacity] at hroom; simp [State.updLink]; omega
          counters := h.counters.received }

theorem abandonFrame (h : s.Within n) (e : LinkError) : (s.abandonFrame e).Within n := by
  unfold State.abandonFrame
  split
  · exact h
  · exact h.countError e

theorem defective (h : s.Within n) : s.defective.Within n := { h.abandonFrame .framing with }

theorem receive (h : s.Within n) (b : Byte) : (s.receive b).Within n := by
  unfold State.receive
  split
  · split
    · exact { h with }
    · exact h
  · split
    · exact h.countError _
    · split
      · exact h.completeFrame _
      · exact { h with }

theorem edge (h : s.Within n) (edge : LinkEdge) : (s.edge edge).Within n := by
  unfold State.edge
  split
  · exact h
  · have hb : (s.updLink fun l => { l with breakHold := false }).Within n := { h with }
    dsimp only
    split
    · exact hb
    · exact hb.receive _
    · exact hb.defective

theorem send (h : s.Within n) (f : Frame) (b : Bool) : (s.send f b).Within n := { h with }

theorem sendOwn (h : s.Within n) (dst : Byte) (k : FrameKind) (payload : List Byte) : (s.sendOwn dst k payload).Within n :=
  { h with }

theorem sendBeacon (h : s.Within n) (f : FieldId) : (s.sendBeacon f).Within n := by
  unfold State.sendBeacon
  exact (h.keep ((QueuesKept.refl s).others.foldl (fun k i => k.updSlot i _) _)).sendOwn _ _ _

theorem sendVerdict (h : s.Within n) (v : Verdict) : (s.sendVerdict v).Within n := by
  have ht : (s.updLink fun l => { l with verdicts := l.verdicts.tail }).Within n :=
    { h with verdicts := Nat.le_trans (by simp [State.updLink]) h.verdicts }
  unfold State.sendVerdict
  dsimp only
  split
  · exact ht
  · exact ht.sendOwn _ _ _

theorem sendDrive (h : s.Within n) (i : SlotId) : (s.sendDrive i).Within n := by
  have ht : ((s.updSlot i fun x => { x with held := none }).updLink fun l => { l with lastServed := i }).Within n :=
    { h with }
  unfold State.sendDrive
  split
  · exact h
  · dsimp only
    split
    · exact ht.countDrop _
    · exact ht.send _ _

theorem sendReply (h : s.Within n) (r : Reply) : (s.sendReply r).Within n :=
  { h with replies := Nat.le_trans (by simp [State.sendReply, State.send, State.updLink]) h.replies }

theorem sendNotice (h : s.Within n) (x : Notice) : (s.sendNotice x).Within n :=
  { h with notices :=
      Nat.le_trans (by simp [State.sendNotice, State.sendOwn, State.send, State.updLink, State.updMgmt]) h.notices }

theorem sendTell (h : s.Within n) (f : Frame) : (s.sendTell f).Within n :=
  { h with tells := Nat.le_trans (by simp [State.sendTell, State.send, State.updLink]) h.tells }

/-- Every queue is empty and every counter is 0 after device reset (R10, R11, R43, R191). -/
theorem reset : State.reset.Within n where
  store := Nat.zero_le _
  verdicts := Nat.zero_le _
  replies := Nat.zero_le _
  tells := Nat.zero_le _
  stations := Nat.zero_le _
  notices := Nat.zero_le _
  dropped := Nat.zero_le _
  counters := by simp [State.reset, Link.afterReset, LinkCounters.zero, LinkCounters.bounded]
  gate := by simp [State.reset, GateCounters.zero, GateCounters.bounded]

theorem deviceReset (s : State) (rstn : Level) : (s.deviceReset rstn).Within n := reset.keep (QueuesKept.refl _).others

/-! ### Frames at the Traffic Gate -/

theorem takeRobot (h : s.Within n) (i : SlotId) (radio : Radio) (f : Frame) {act : State → State}
    (ha : ∀ {t : State}, t.Within n → (act t).Within n) : (s.takeRobot i radio f act).Within n := by
  have hr := h.popStore.keep (.refresh (.refl _) i radio)
  unfold State.takeRobot
  dsimp only
  split
  · exact hr.countDrop _
  · exact ha hr

theorem holdDrive (h : s.Within n) (i : SlotId) (f : Frame) : (s.holdDrive i f).Within n := by
  have k := QueuesKept.refl s
  unfold State.holdDrive
  split
  · dsimp only
    split
    · exact (h.keep (k.updSlot i _)).countDrop _
    · exact h.keep (k.updSlot i _)
  · exact h.countDrop _

theorem budgetTell (h : s.Within n) (i : SlotId) (f : Frame) : (s.budgetTell i f).Within n := by
  have k := QueuesKept.refl s
  unfold State.budgetTell
  split
  · exact (h.keep (k.updSlot i _)).countDrop _
  · split
    · exact h.countDrop _
    · next hroom =>
      exact { h with tells := by simp only [Config.tellCapacity] at hroom; simp [State.updLink]; omega }

/-! ### The end of STARTING and the end of a millisecond -/

theorem applyHead (h : s.Within n) (rate : ArenaRate) (own console : Byte) (t : Timing)
    (line : LineId → LineRole × Level × Bool) : (s.applyHead rate own console t line).Within n := by
  unfold State.applyHead
  have ha : ((s.abandonFrame .truncated).updLink fun l => { l with rate, own, console }).Within n :=
    { h.abandonFrame .truncated with }
  exact ha.keep ((QueuesKept.refl _).others.foldl (fun k _ => k.others) _)

theorem endStarting (h : s.Within n) (image : List Byte) (fill : Byte) : (s.endStarting image fill).Within n := by
  unfold State.endStarting
  split
  · exact (h.applyHead _ _ _ _ _).keep (((QueuesKept.refl _).loadEntries _).leaveStarting _ _)
  · exact (h.applyHead _ _ _ _ _).keep (((QueuesKept.refl _).loadEntries _).leaveStarting _ _)

theorem readStep (h : s.Within n) : s.readStep.Within n := by
  unfold State.readStep
  split
  · exact { h with }
  · exact { h with }
  · exact h.endStarting _ _
  · exact h.endStarting _ _
  all_goals exact h

theorem tick (h : s.Within n) : s.tick.Within n := by
  have k := QueuesKept.refl s
  unfold State.tick
  split
  · exact h.readStep
  · split
    · have kt : QueuesKept s ({ s with choices := s.choices + 1 }.takeSample s.pins) := k.others.takeSample _
      exact h.keep kt.others.countAndRun.others
    · exact h.keep k.others.countAndRun

end State.Within

/-! ### Rows and steps -/

/-- What is answered is a next state within the bounds, with room in the reply queue for what `QueuesBounded` allows. -/
inductive StepWithin : Host.Outcome State Fault Refusal → Prop
  | next {t : State} (h : t.Within 4) : StepWithin (.next t)

/-- A row that makes one of two changes. -/
theorem StepWithin.ite {p : Prop} [Decidable p] {t u : State} (ht : t.Within 4) (hu : u.Within 4) :
    StepWithin (.next (if p then t else u)) := by
  split
  · exact .next ht
  · exact .next hu

/-- The row of every MANAGE command keeps the bounds. -/
theorem State.Within.manage {s : State} (h : s.Within 4) {c : Instr} (hc : c ∈ commandTable.map Prod.fst) :
    StepWithin (Machine.exec c s) := by
  obtain ⟨⟨c, code, n⟩, hm, rfl⟩ := List.mem_map.mp hc
  obtain ⟨run, hx, hr⟩ := exec_command hm
  rw [hx]
  exact .next (h.command code n hr)

/-- Every row keeps the bounds. -/
theorem State.Within.exec {s : State} (h : s.Within 4) (c : Instr) : StepWithin (exec c s) := by
  have k := QueuesKept.refl s
  cases c
  case deviceReset rstn => exact .next (.deviceReset s rstn)
  case endOfStarting image fill => exact .ite (h.endStarting _ _) h
  case frameComplete check =>
    simp only [Machine.exec, execFrameComplete]
    split
    · exact .next h
    · exact .ite (h.completeFrame _) h
  case framing => exact .ite h h.defective
  case overlong length =>
    simp only [Machine.exec, execOverlong]
    split
    · exact .next h
    · exact .ite (h.countError _) h
  case truncated => exact .next (h.abandonFrame _)
  case startingFrame =>
    simp only [Machine.exec, execStartingFrame]
    split
    · refine .next ?_
      split
      · next hc =>
        obtain ⟨-, -, -, hroom⟩ := hc
        have h3 : s.popStore.Within 3 := { h.popStore with replies := Nat.le_of_lt_succ hroom }
        exact h3.queueReply _ _ _
      · exact h.popStore
    · exact .next h
  case droppedFrame =>
    simp only [Machine.exec, execDroppedFrame]
    split
    · exact .next (h.popStore.countDrop _)
    · split
      · exact .next (h.takeRobot _ _ _ id)
      · exact .next h
    · split
      · exact .next (h.popStore.countDrop _)
      · exact .next h
    all_goals exact .next h
  case drive =>
    simp only [Machine.exec, execDrive]
    split
    · split
      · split
        · exact .next (h.popStore.countDrop _)
        · exact .next (h.popStore.holdDrive _ _)
      · exact .next h
    all_goals exact .next h
  case tell =>
    simp only [Machine.exec, execTell]
    split
    · split
      · exact .next (h.takeRobot _ _ _ fun h => h.budgetTell _ _)
      · exact .next h
    all_goals exact .next h
  case claim =>
    simp only [Machine.exec, execClaim]
    split
    · split
      · exact .next (h.takeRobot _ _ _ fun h => h.keep (.claimPayload (.refl _) _ _))
      · exact .next h
    all_goals exact .next h
  case release =>
    simp only [Machine.exec, execRelease]
    split
    · split
      · exact .next (h.takeRobot _ _ _ fun h => h.keep (.releasePayload (.refl _) _ _))
      · exact .next h
    all_goals exact .next h
  case unknownCommand =>
    simp only [Machine.exec, execUnknownCommand]
    split
    · exact .next h
    · split
      · exact .next (h.dispose _ _ fun _ => .error _)
      · refine .next ?_
        split
        · exact h
        · exact h.dispose _ _ fun _ => .error _
  case commission | decommission | restart | loadStation | clearStation | loadSlot | clearSlot | loadMatch | start | stop |
      resume | abort | commit | resetMatch | disableSlot | bypassSlot | loadLine | clearLineFlags | loadElement |
      clearElementEntry | clearElementFault | loadScoreRule | penalty | correct | setTiming | busPause | busResume | read |
      readNext => exact h.manage (by decide)
  case takeBeacon =>
    simp only [Machine.exec, execTakeBeacon]
    split
    · exact .next (h.sendBeacon _)
    · exact .next h
  case takeVerdict =>
    simp only [Machine.exec, execTakeVerdict]
    split
    · exact .next (h.sendVerdict _)
    · exact .next h
  case takeDrive =>
    simp only [Machine.exec, execTakeDrive]
    split
    · exact .next (h.sendDrive _)
    · exact .next h
  case takeReply =>
    simp only [Machine.exec, execTakeReply]
    split
    · exact .next (h.sendReply _)
    · exact .next h
  case takeNotice =>
    simp only [Machine.exec, execTakeNotice]
    split
    · exact .next (h.sendNotice _)
    · exact .next h
  case takeTell =>
    simp only [Machine.exec, execTakeTell]
    split
    · exact .next (h.sendTell _)
    · exact .next h
  case frameSent =>
    simp only [Machine.exec, execFrameSent]
    split
    · exact .next (.deviceReset s _)
    · exact .next { h with counters := h.counters.sent }
    all_goals exact .next h
  case transmitterFree =>
    simp only [Machine.exec, execTransmitterFree]
    split
    · exact .next { h with }
    all_goals exact .next h
  case autoExpiry f | pauseExpiry f => exact .ite (h.keep (k.expireInto f _).settle) h
  case endgameBoundary f => exact .ite (h.keep (k.enterPhase f _).settle) h
  case matchEndExpiry f => exact .ite (h.keep (k.expireMatch f).settle) h
  case postGraceEnd f => exact .ite (h.keep (k.updField f _)) h
  case holdExpiry e => exact .next (h.keep (k.expireHold e))
  case budgetTick => exact .ite (h.keep k.refillAll) h
  case silentTimeout i => exact .next (h.keep (k.passSilence i))
  case beaconPeriod => exact .ite (h.keep k.beaconPeriodEnds) h
  case lineSample pins => exact .ite (h.keep (k.takeSample _)) h
  case unfilteredLineChange n v => exact .ite (h.keep (k.changePin n v).settle) (h.keep k.others)
  case actionLimit e => exact .ite (h.keep (k.passActionLimit e).settle) h
  case resendCountdown e | actionPollCountdown e | sensorCountdown e => exact .ite (h.keep (k.updLoaded e _).settle) h
  case probeCountdown => exact .ite (h.keep (k.updBus _).settle) h
  case busRestEnd =>
    simp only [Machine.exec, execBusRestEnd]
    split
    · exact .next (h.keep (k.updBus _).settle)
    all_goals exact .next h
  case masterFrameEnd =>
    simp only [Machine.exec, execMasterFrameEnd]
    split
    · split
      · exact .next (h.keep (k.fly _))
      all_goals exact .next h
    all_goals exact .next h
  case answerWindowExpiry =>
    simp only [Machine.exec, execAnswerWindowExpiry]
    split
    · split
      · exact .next (h.keep (k.endTransaction _ _).settle)
      all_goals exact .next h
    all_goals exact .next h
  case answerCutOff =>
    simp only [Machine.exec, execAnswerCutOff]
    split
    · split
      · exact .next (h.keep (k.endTransaction _ _).settle)
      all_goals exact .next h
    all_goals exact .next h
  case probeAnswer edge | actuateAnswer edge | actionPollAnswer edge | sensorPollAnswer edge | fetchAnswer edge |
      safeAnswer edge => exact .next (h.keep (k.completeAnswer _ edge))
  case characterReceived edge => exact .ite h (h.edge edge)
  case answerCharacter ev =>
    simp only [Machine.exec, execAnswerCharacter]
    split
    · split
      · exact .next (h.keep (k.answerEdge _ _ ev))
      · exact .next h
    all_goals exact .next h

/-- Every step keeps the bounds: that of the front command, and the part's own next moment. -/
theorem State.Within.step {s : State} (h : s.Within 4) : StepWithin (step s) := by
  unfold Machine.step
  split
  · exact (h.keep (QueuesKept.refl s).others).exec _
  · unfold ownStep
    split
    · exact h.exec _
    · split
      · exact h.exec _
      · exact .next h.tick

/-- Settles O59: `State.Within`, which says the same bounds, is kept by every row and by the part's own moments. -/
theorem queuesStayBounded : Obligations.QueuesStayBounded := by
  intro s t h hs
  have hw := (State.within_four.mpr h).step
  rw [hs] at hw
  obtain ⟨ht⟩ := hw
  exact State.within_four.mp ht

end Sys2Proof.Machine
end

section
/-! SUPPORT. The row that takes the head frame of the receive store (R11, R28, R29). -/

namespace Sys2Proof.Machine

open Sys2Proof

/-- The frame that is taken is the head, and no other frame leaves or joins the receive store. -/
def Takes (c : Instr) (s : State) : Prop := ∃ t, exec c s = .next t ∧ t.link.store = s.link.store.tail

/-- A command code that the table names is that of its row (section 11.5). -/
theorem commandRow_known (c : Byte) (h : knownCode c = true) : ∃ n, (commandRow c, c, n) ∈ commandTable := by
  have hall : ∀ c : Byte, knownCode c = true → (commandTable.any fun r => r.1 == commandRow c && r.2.1 == c) = true := by
    decide +kernel
  obtain ⟨⟨row, code, n⟩, hm, hr⟩ := List.any_eq_true.mp (hall c h)
  simp only [Bool.and_eq_true, beq_iff_eq] at hr
  obtain ⟨rfl, rfl⟩ := hr
  exact ⟨n, hm⟩

/-- Any other code is that of no row (R179). -/
theorem commandRow_unknown (c : Byte) (h : knownCode c = false) : commandRow c = .unknownCommand := by
  revert c; decide +kernel

section
variable {s : State} {f : Frame} {rest : List Frame}

theorem State.popStore_store (s : State) : s.popStore.link.store = s.link.store.tail := rfl

theorem State.headFrame_eq (hm : s.mgmt.mode ≠ .starting) (hs : s.link.store = f :: rest) :
    s.headFrame = some (f, s.classify f) := by
  simp [State.headFrame, hm, hs]

theorem State.manageHead_eq (hh : s.headFrame = some (f, .manage)) : s.manageHead = some f := by
  simp [State.manageHead, hh]

/-- A MANAGE frame that is disposed of is taken, whatever its rule answers (R178). -/
theorem State.dispose_store (s : State) (f : Frame) (code : Byte) {run : State → Answer}
    (hr : ∀ t, AnswerKeeps t (run t)) : (s.dispose f code run).link.store = s.link.store.tail := by
  unfold State.dispose
  dsimp only
  split
  · rfl
  · split
    · rfl
    · unfold State.answer
      generalize hx : run s.popStore = x
      obtain r | ⟨k, data⟩ := hx ▸ hr s.popStore
      · rfl
      · exact k.store

/-- A robot's frame is taken, whatever is then done with it (R31). -/
theorem State.takeRobot_store (s : State) (i : SlotId) (radio : Radio) (f : Frame) {act : State → State}
    (ha : ∀ t, (act t).link.store = t.link.store) : (s.takeRobot i radio f act).link.store = s.link.store.tail := by
  have hr := ((QueuesKept.refl s.popStore).refresh i radio).store
  unfold State.takeRobot
  dsimp only
  split
  · exact hr
  · exact (ha _).trans hr

theorem State.holdDrive_store (s : State) (i : SlotId) (f : Frame) : (s.holdDrive i f).link.store = s.link.store := by
  unfold State.holdDrive
  dsimp only
  split
  · split <;> rfl
  · rfl

theorem State.budgetTell_store (s : State) (i : SlotId) (f : Frame) : (s.budgetTell i f).link.store = s.link.store := by
  unfold State.budgetTell
  split
  · rfl
  · split <;> rfl

theorem Takes.dropped {r : DropReason} (hh : s.headFrame = some (f, .dropped r)) : Takes .droppedFrame s :=
  ⟨s.popStore.countDrop r, by simp [exec, execDroppedFrame, hh], rfl⟩

/-- A MANAGE frame is taken by the row of its code, or by UNKNOWN_COMMAND (R179). -/
theorem Takes.manage (hh : s.headFrame = some (f, .manage)) : Takes (f.payload.head?.elim .unknownCommand commandRow) s := by
  have hm := State.manageHead_eq hh
  cases hp : f.payload with
  | nil =>
    refine ⟨_, ?_, s.dispose_store f 0 (run := fun _ => .error .unknownCommand) fun _ => .error _⟩
    simp [exec, execUnknownCommand, hm, hp]
  | cons c ops =>
    simp only [List.head?_cons, Option.elim_some]
    cases hk : knownCode c with
    | false =>
      rw [commandRow_unknown c hk]
      refine ⟨_, ?_, s.dispose_store f c (run := fun _ => .error .unknownCommand) fun _ => .error _⟩
      simp [exec, execUnknownCommand, hm, hp, hk]
    | true =>
      obtain ⟨n, hn⟩ := commandRow_known c hk
      obtain ⟨run, hx, hr⟩ := exec_command hn
      refine ⟨_, hx s, ?_⟩
      unfold State.command
      simp only [hm, hp, if_true]
      refine s.dispose_store f c fun t => ?_
      split
      · exact hr t _
      · exact .error _

/-- A robot's frame that is not dropped is a TELL, a CLAIM or a RELEASE (R31). -/
theorem State.robotDrop_none {i : SlotId} (h : s.robotDrop i f = none) :
    frameKindOf f.kind = some .tell ∨ frameKindOf f.kind = some .claim ∨ frameKindOf f.kind = some .release := by
  unfold State.robotDrop at h
  split at h
  · cases h
  · split at h
    · next hk => exact .inl hk
    · next hk => exact .inr (.inl hk)
    · next hk => exact .inr (.inr hk)
    all_goals cases h

theorem Takes.robot {i : SlotId} {radio : Radio} (hh : s.headFrame = some (f, .robot i radio)) :
    Takes (s.robotRow i f) s := by
  unfold State.robotRow
  cases hd : s.robotDrop i f with
  | some r =>
    refine ⟨_, ?_, s.takeRobot_store i radio f (act := id) fun _ => rfl⟩
    simp [exec, execDroppedFrame, hh, hd]
  | none =>
    simp only [Option.isSome_none, Bool.false_eq_true, if_false]
    rcases State.robotDrop_none hd with hk | hk | hk
    · refine ⟨_, ?_, s.takeRobot_store i radio f (act := fun s => s.budgetTell i f) fun t => t.budgetTell_store i f⟩
      simp [exec, execTell, hh, hk]
    · refine ⟨_, ?_, s.takeRobot_store i radio f (act := fun s => s.claimPayload i f.payload)
        fun t => ((QueuesKept.refl t).claimPayload i _).store⟩
      simp [exec, execClaim, hh, hk]
    · refine ⟨_, ?_, s.takeRobot_store i radio f (act := fun s => s.releasePayload i f.payload)
        fun t => ((QueuesKept.refl t).releasePayload i _).store⟩
      simp [exec, execRelease, hh, hk]

/-- A driver station's frame that is not dropped is a DRIVE (R36). -/
theorem State.driverDrop_none {i : SlotId} (h : s.driverDrop i f = none) : frameKindOf f.kind = some .drive := by
  unfold State.driverDrop at h
  split at h
  · next hk => exact hk
  all_goals cases h

theorem Takes.driver {i : SlotId} (hh : s.headFrame = some (f, .driver i)) :
    Takes (if (s.driverDrop i f).isSome then .droppedFrame else .drive) s := by
  cases hd : s.driverDrop i f with
  | some r => exact ⟨s.popStore.countDrop r, by simp [exec, execDroppedFrame, hh, hd], rfl⟩
  | none =>
    refine ⟨s.popStore.holdDrive i f, ?_, State.holdDrive_store _ i f⟩
    simp [exec, execDrive, hh, hd, State.driverDrop_none hd]

/-- While STARTING every frame is taken by STARTING_FRAME (R28). -/
theorem Takes.starting (hm : s.mgmt.mode = .starting) (hs : s.link.store = f :: rest) : Takes .startingFrame s := by
  refine ⟨_, by simp only [exec, execStartingFrame, hm, hs]; rfl, ?_⟩
  split <;> rfl

/-- The frame at the head of the receive store is taken by the row that is its own (R11, R28, R29). -/
theorem State.frameRow_takes (hs : s.link.store = f :: rest) : ∃ c, s.frameRow = some c ∧ Takes c s := by
  by_cases hm : s.mgmt.mode = .starting
  · exact ⟨_, by simp [State.frameRow, hs, hm], .starting hm hs⟩
  · have hh := State.headFrame_eq hm hs
    generalize s.classify f = k at hh
    cases k with
    | dropped r => exact ⟨_, by simp [State.frameRow, hs, hm, hh], .dropped hh⟩
    | manage => exact ⟨_, by simp [State.frameRow, hs, hm, hh], .manage hh⟩
    | robot i radio => exact ⟨_, by simp [State.frameRow, hs, hm, hh], .robot hh⟩
    | driver i => exact ⟨_, by simp [State.frameRow, hs, hm, hh], .driver hh⟩

end

/-- Settles O3: with an empty queue the step is the part's own, which runs the row of the head frame. -/
theorem idleStepTakesHeadFrame : Obligations.IdleStepTakesHeadFrame := by
  intro s f rest hp hs
  obtain ⟨c, hc, t, ht, hstore⟩ := State.frameRow_takes hs
  refine ⟨c, t, hc, ?_, ht, by rw [hstore, hs]; rfl⟩
  simp only [step, hp, ownStep, hc]

end Sys2Proof.Machine
end

section
/-! SUPPORT. The full queues, the state after device reset, and the transmitter arbiter's choice. -/

namespace Sys2Proof.Machine

open Sys2Proof

/-! ### Full queues (R15, R188, R190) -/

theorem enqueueVerdict_room {q : List Verdict} (h : q.length < 16) (v : Verdict) : enqueueVerdict q v = q ++ [v] := if_pos h

theorem enqueueVerdict_discards {q : List Verdict} {v : Verdict} (h : 16 ≤ q.length) (hs : ∀ x ∈ q, x.slot ≠ v.slot) :
    enqueueVerdict q v = q := by
  have ha : (q.any fun x => x.slot == v.slot) = false := by simpa using hs
  rw [enqueueVerdict, Config.verdictCapacity, if_neg (Nat.not_lt.mpr h), ha]
  rfl

theorem enqueueVerdict_displaces {a b : List Verdict} {x v : Verdict} (h : 16 ≤ (a ++ x :: b).length) (hx : x.slot = v.slot)
    (ha : ∀ y ∈ a, y.slot ≠ v.slot) : enqueueVerdict (a ++ x :: b) v = a ++ b ++ [v] := by
  have hany : ((a ++ x :: b).any fun y => y.slot == v.slot) = true := by simp [hx]
  have herase : (a ++ x :: b).eraseP (fun y => y.slot == v.slot) = a ++ b := by
    rw [List.eraseP_append_right _ fun y hy => by simpa using ha y hy, List.eraseP_cons_of_pos (by simpa using hx)]
  rw [enqueueVerdict, Config.verdictCapacity, if_neg (Nat.not_lt.mpr h), hany, herase]
  rfl

theorem State.queueNotice_eq (s : State) (c : NoticeContent) :
    s.queueNotice c = { s with mgmt := (s.queueNotice c).mgmt } := rfl

/-- Settles O57, by the room in either queue and the place of the slot's oldest verdict. -/
theorem fullQueues : Obligations.FullQueues := by
  refine ⟨fun q v => ⟨fun h => enqueueVerdict_room h v, enqueueVerdict_discards, ?_⟩, fun s c => ⟨fun h => ?_, fun h => ?_⟩⟩
  · rintro a x b rfl h hx ha
    exact enqueueVerdict_displaces h hx ha
  · rw [s.queueNotice_eq, s.queueNotice_room c h]
  · rw [s.queueNotice_eq, s.queueNotice_full c h]; rfl

/-! ### Device reset (R191) -/

@[simp] theorem State.reset_slots (i : SlotId) : State.reset.slots.at i = .free := Table.at_fill _ i

@[simp] theorem State.reset_fields (f : FieldId) : State.reset.fields.at f = .afterReset := Table.at_fill _ f

@[simp] theorem State.reset_loadedAt (e : ElementId) : State.reset.loadedAt e = none := by
  rw [State.loadedAt_def]
  exact congrArg Element.loaded (Table.at_fill Element.empty e)

/-- No slot has a claim or a hold after device reset (R85, R103). -/
theorem State.reset_workOf (i : SlotId) : State.reset.workOf i = 0 := by
  simp [State.workOf]

theorem State.reset_lawful : State.reset.Lawful where
  starting _ g := by rw [State.reset_fields]; rfl
  stopped g _ := by rw [State.reset_fields]; rfl
  placing :=
    { listed := fun g k i h => by simp [MatchRecord.afterReset] at h
      placed := fun i p h => by simp [Slot.free] at h }
  outstanding i := by rw [State.reset_workOf, State.reset_slots]; exact ⟨rfl, Nat.zero_le _⟩
  working e l i h := by simp at h

theorem State.reset_recordsBounded : State.reset.RecordsBounded where
  lawful := State.reset_lawful
  credit i := by rw [State.reset_slots]; exact Nat.zero_le _
  claims e l h := by simp at h
  distinct e l h := by simp at h
  misses e l h := by simp at h
  retries e l h := by simp at h
  safeQueue := List.nodup_nil

/-- Settles O58: every queue and table is empty, every counter is 0 and every record is at its reset value. -/
theorem resetIsBounded : Obligations.ResetIsBounded :=
  ⟨State.within_four.mp .reset, State.reset_recordsBounded⟩

end Sys2Proof.Machine
end

section
/-! SUPPORT. The order in which the transmitter arbiter takes its sources, and the end of a frame (R17 to R19). -/

namespace Sys2Proof.Machine

open Sys2Proof

theorem lowestMarked_eq_some {marks : Table 4 Bool} {f : FieldId} :
    lowestMarked marks = some f ↔ marks.at f = true ∧ ∀ g, g < f → marks.at g = false := find_allOf

theorem lowestMarked_eq_none {marks : Table 4 Bool} (h : ∀ f, marks.at f = false) : lowestMarked marks = none := by
  simp [lowestMarked, h]

section
variable {s : State}

/-- The round robin finds the first held DRIVE from the slot after the last served one (R17). -/
theorem State.nextHeld_eq_some {k : SlotId} (hk : (s.slots.at (s.link.lastServed + 1 + k)).held ≠ none)
    (hlt : ∀ j, j < k → (s.slots.at (s.link.lastServed + 1 + j)).held = none) :
    s.nextHeld = some (s.link.lastServed + 1 + k) := by
  unfold State.nextHeld
  rw [List.find?_map, Option.map_eq_some_iff]
  refine ⟨k, find_allOf.mpr ⟨Option.isSome_iff_ne_none.mpr hk, fun j hj => ?_⟩, rfl⟩
  simp [hlt j hj]

theorem State.nextHeld_eq_none (h : ∀ i, (s.slots.at i).held = none) : s.nextHeld = none := by
  simp [State.nextHeld, h]

/-! ### The sources in their order (R17) -/

theorem State.nextTake_busy (h : s.link.transmitter ≠ .free) : s.nextTake = none := if_neg h

variable (hfree : s.link.transmitter = .free)
include hfree

theorem State.nextTake_urgent {f : FieldId} (h : lowestMarked s.beacons.urgent = some f) :
    s.nextTake = some (.beacon f) := by
  simp [State.nextTake, hfree, h]

variable (hurgent : lowestMarked s.beacons.urgent = none)
include hurgent

theorem State.nextTake_verdict (h : s.link.verdicts ≠ []) : s.nextTake = some .verdict := by
  simp [State.nextTake, hfree, hurgent, h]

variable (hverdicts : s.link.verdicts = [])
include hverdicts

theorem State.nextTake_drive {i : SlotId} (h : s.nextHeld = some i) : s.nextTake = some (.drive i) := by
  simp [State.nextTake, hfree, hurgent, hverdicts, h]

variable (hheld : s.nextHeld = none)
include hheld

theorem State.nextTake_routine {f : FieldId} (h : lowestMarked s.beacons.routine = some f) :
    s.nextTake = some (.beacon f) := by
  simp [State.nextTake, hfree, hurgent, hverdicts, hheld, h]

variable (hroutine : lowestMarked s.beacons.routine = none)
include hroutine

theorem State.nextTake_reply (h : s.link.replies ≠ []) : s.nextTake = some .reply := by
  simp [State.nextTake, hfree, hurgent, hverdicts, hheld, hroutine, h]

variable (hreplies : s.link.replies = [])
include hreplies

theorem State.nextTake_notice (h : s.mgmt.notices ≠ []) : s.nextTake = some .notice := by
  simp [State.nextTake, hfree, hurgent, hverdicts, hheld, hroutine, hreplies, h]

variable (hnotices : s.mgmt.notices = [])
include hnotices

theorem State.nextTake_tell (h : s.link.tells ≠ []) : s.nextTake = some .tell := by
  simp [State.nextTake, hfree, hurgent, hverdicts, hheld, hroutine, hreplies, hnotices, h]

theorem State.nextTake_nothing (h : s.link.tells = []) : s.nextTake = none := by
  simp [State.nextTake, hfree, hurgent, hverdicts, hheld, hroutine, hreplies, hnotices, h]

end

/-! ### The end of a frame (R18, R19) -/

theorem exec_frameSent {s : State} {bytes : List Byte} {rate : ArenaRate} {reset : Bool}
    (h : s.link.transmitter = .sending bytes rate reset) :
    exec .frameSent s = if reset then exec (.deviceReset .high) s else .next { s with link := { s.link with
      transmitter := .gap, counters := { s.link.counters with sent := min 65535 (s.link.counters.sent + 1) } } } := by
  simp only [exec, execFrameSent, h]
  cases reset <;> rfl

theorem exec_transmitterFree {s : State} (h : s.link.transmitter = .gap) :
    exec .transmitterFree s = .next { s with link := { s.link with transmitter := .free } } := by
  simp only [exec, execTransmitterFree, h]
  rfl

/-- Settles O46, source by source in the order of R17. -/
theorem transmitterOrder : Obligations.TransmitterOrder := by
  intro s
  refine ⟨State.nextTake_busy, fun hfree => ⟨fun f hf hlt => ?_, fun hu => ?_⟩, fun _ _ h => exec_frameSent h,
    fun _ _ h => exec_frameSent h, exec_transmitterFree⟩
  · exact State.nextTake_urgent hfree (lowestMarked_eq_some.mpr ⟨hf, hlt⟩)
  · have hurgent := lowestMarked_eq_none hu
    refine ⟨State.nextTake_verdict hfree hurgent, fun hv => ⟨fun k hk hlt => ?_, fun hh => ?_⟩⟩
    · exact State.nextTake_drive hfree hurgent hv (State.nextHeld_eq_some hk hlt)
    · have hheld := State.nextHeld_eq_none hh
      refine ⟨fun f hf hlt => ?_, fun hr => ?_⟩
      · exact State.nextTake_routine hfree hurgent hv hheld (lowestMarked_eq_some.mpr ⟨hf, hlt⟩)
      · have hroutine := lowestMarked_eq_none hr
        exact ⟨State.nextTake_reply hfree hurgent hv hheld hroutine,
          State.nextTake_notice hfree hurgent hv hheld hroutine,
          State.nextTake_tell hfree hurgent hv hheld hroutine,
          State.nextTake_nothing hfree hurgent hv hheld hroutine⟩

end Sys2Proof.Machine
end

section
/-! SUPPORT. The receive line: the reading of an edge, the receiver in each of its states, and a whole frame sampled bit by
bit (R2 to R10). -/

namespace Sys2Proof.Machine

open Sys2Proof

/-! ### The shape of a frame (R3, R5) -/

theorem frameDone_iff (got : List Byte) : frameDone got = true ↔ ∃ dst src kind seq n rest,
    got = dst :: src :: kind :: seq :: n :: rest ∧ n.toNat ≤ 48 ∧ rest.length = n.toNat + 2 := by
  unfold frameDone
  split
  · next dst src kind seq n rest =>
    rw [Bool.and_eq_true, decide_eq_true_eq, beq_iff_eq]
    constructor
    · exact fun h => ⟨dst, src, kind, seq, n, rest, rfl, h⟩
    · rintro ⟨_, _, _, _, _, _, hg, h⟩
      cases hg
      exact h
  · next hs =>
    simp only [Bool.false_eq_true, false_iff]
    rintro ⟨dst, src, kind, seq, n, rest, hg, -⟩
    exact hs dst src kind seq n rest hg

/-- A run of characters that makes a whole frame has at least its header, its length and its check. -/
theorem frameDone_length {got : List Byte} (h : frameDone got = true) : 7 ≤ got.length := by
  obtain ⟨dst, src, kind, seq, n, rest, rfl, -, hl⟩ := (frameDone_iff got).mp h
  simp only [List.length_cons]
  omega

theorem frameDone_short {got : List Byte} (h : got.length < 7) : frameDone got = false :=
  Bool.eq_false_iff.mpr fun hd => absurd (frameDone_length hd) (Nat.not_le.mpr h)

theorem frameOf_isSome {got : List Byte} (h : frameDone got = true) : ∃ f, frameOf got = some f := by
  obtain ⟨dst, src, kind, seq, n, rest, rfl, -⟩ := (frameDone_iff got).mp h
  exact ⟨_, rfl⟩

/-! ### The end of a frame (R5 to R10) -/

section
variable {s : State} {got : List Byte}

theorem exec_frameComplete {c : Byte} (hr : s.link.receiver = .inFrame got) (hd : frameDone (got ++ [c]) = true) :
    exec (.frameComplete c) s = .next (s.completeFrame (got ++ [c])) := by
  simp only [exec, execFrameComplete, hr, hd, if_true]

theorem State.completeFrame_check (h : frameChecks got = false) : s.completeFrame got = s.countError .check := by
  rw [State.completeFrame, if_pos h]

theorem State.completeFrame_overrun (h : frameChecks got = true) (hf : 8 ≤ s.link.store.length) :
    s.completeFrame got = s.countError .overrun := by
  have hn : ¬ frameChecks got = false := by simp [h]
  rw [State.completeFrame, if_neg hn, Config.storeCapacity, if_pos hf]

theorem State.completeFrame_stored {f : Frame} (h : frameChecks got = true) (hr : s.link.store.length < 8)
    (hf : frameOf got = some f) : s.completeFrame got = { s with link := { s.link with
      receiver := .hunting, store := s.link.store ++ [f],
      counters := { s.link.counters with received := min 65535 (s.link.counters.received + 1) } } } := by
  have hn : ¬ frameChecks got = false := by simp [h]
  rw [State.completeFrame, if_neg hn, Config.storeCapacity, if_neg (Nat.not_le.mpr hr), hf]
  rfl

/-- Settles O10: a wrong check, a full store, and a frame that joins it. -/
theorem frameCompleteOutcomes : Obligations.FrameCompleteOutcomes := by
  intro s got c hr hd
  rw [exec_frameComplete hr hd]
  refine ⟨fun hc => ?_, fun hc hf => ?_, fun hc hroom => ?_⟩
  · rw [State.completeFrame_check hc]; rfl
  · rw [State.completeFrame_overrun hc hf]; rfl
  · obtain ⟨f, hf⟩ := frameOf_isSome hd
    exact ⟨f, hf, by rw [State.completeFrame_stored hc hroom hf]⟩

theorem State.abandonFrame_hunting (hr : s.link.receiver = .hunting) (e : LinkError) : s.abandonFrame e = s := by
  simp only [State.abandonFrame, hr]

theorem State.abandonFrame_inFrame (hr : s.link.receiver = .inFrame got) (e : LinkError) :
    s.abandonFrame e = s.countError e := by
  simp only [State.abandonFrame, hr]

/-! ### Edges (R2) -/

/-- The levels of a character: a low start bit, the data bits, a high stop bit (section 1.1). -/
theorem linkLevels_getLsbD (b : Byte) (k : Nat) :
    (linkLevels b).getLsbD k = if k = 0 then false else if k ≤ 8 then b.getLsbD (k - 1) else decide (k = 9) := by
  rw [linkLevels, BitVec.getLsbD_append, BitVec.getLsbD_append]
  rcases k with - | k
  · rfl
  · by_cases h : k < 8
    · simp [h, Nat.succ_le_of_lt h]
    · have hk : ¬ k + 1 ≤ 8 := by omega
      simp only [hk, Nat.succ_ne_zero, if_false, BitVec.getLsbD_one]
      grind

/-- An edge has begun a character or been found a glitch: the wait after a missing stop bit is over (R2). -/
def State.attentive (s : State) : State := { s with link := { s.link with breakHold := false } }

theorem State.edge_deaf (hb : s.link.breakHold = true) (bits : BitVec 10) : s.edge ⟨false, bits⟩ = s := by
  simp [State.edge, hb]

section
variable {rested : Bool} (hw : s.link.breakHold = true → rested = true)
include hw

theorem State.edge_waitOver : (s.link.breakHold && !rested) = false := by
  cases hb : s.link.breakHold with
  | false => rfl
  | true => rw [hw hb]; rfl

theorem State.edge_glitch {bits : BitVec 10} (h0 : bits.getLsbD 0 = true) : s.edge ⟨rested, bits⟩ = s.attentive := by
  simp only [State.edge, State.edge_waitOver hw, linkCharacter, h0]
  rfl

theorem State.edge_noStop {bits : BitVec 10} (h0 : bits.getLsbD 0 = false) (h9 : bits.getLsbD 9 = false) :
    s.edge ⟨rested, bits⟩ = s.attentive.defective := by
  simp only [State.edge, State.edge_waitOver hw, linkCharacter, h0, h9]
  rfl

theorem State.edge_character (b : Byte) : s.edge ⟨rested, linkLevels b⟩ = s.attentive.receive b := by
  simp only [State.edge, State.edge_waitOver hw, linkCharacter_linkLevels]
  rfl

end

/-- A missing stop bit sets the wait of R2 whether or not one was running. -/
theorem State.attentive_defective (s : State) : s.attentive.defective = s.defective := by
  have hr : s.attentive.link.receiver = s.link.receiver := rfl
  unfold State.defective State.abandonFrame
  rw [hr]
  cases s.link.receiver <;> rfl

/-! ### Characters (R3, R7) -/

theorem State.receive_lead (hr : s.link.receiver = .hunting) :
    s.receive 0xA5#8 = { s with link := { s.link with receiver := .inFrame [] } } := by
  simp only [State.receive, hr]
  rfl

theorem State.receive_ignored (hr : s.link.receiver = .hunting) {b : Byte} (hb : b ≠ 0xA5#8) : s.receive b = s := by
  rw [State.receive, hr]
  exact if_neg hb

theorem State.receive_placed (hr : s.link.receiver = .inFrame got) {b : Byte} (hl : ¬ (got.length = 4 ∧ 48 < b.toNat))
    (hd : frameDone (got ++ [b]) = false) :
    s.receive b = { s with link := { s.link with receiver := .inFrame (got ++ [b]) } } := by
  rw [State.receive, hr]
  exact (if_neg hl).trans (if_neg (Bool.eq_false_iff.mp hd))

theorem State.receive_overlong (hr : s.link.receiver = .inFrame got) {b : Byte} (hl : got.length = 4 ∧ 48 < b.toNat) :
    s.receive b = s.countError .overlong := by
  rw [State.receive, hr]
  exact if_pos hl

theorem State.receive_complete (hr : s.link.receiver = .inFrame got) {b : Byte} (hd : frameDone (got ++ [b]) = true) :
    s.receive b = s.completeFrame (got ++ [b]) := by
  have hl : ¬ (got.length = 4 ∧ 48 < b.toNat) := fun h => by
    have := frameDone_length hd
    rw [List.length_append, List.length_singleton] at this
    omega
  rw [State.receive, hr]
  exact (if_neg hl).trans (if_pos hd)

theorem exec_overlong {b : Byte} (hr : s.link.receiver = .inFrame got) (hl : got.length = 4 ∧ 48 < b.toNat) :
    exec (.overlong b) s = .next (s.countError .overlong) := by
  simp only [exec, execOverlong, hr]
  exact congrArg _ (if_pos hl)

section
variable (hs : s.loader.stage ≠ .inReset)
include hs

theorem exec_characterReceived (edge : LinkEdge) : exec (.characterReceived edge) s = .next (s.edge edge) := by
  simp [exec, execCharacterReceived, State.inReset, hs]

theorem exec_framing : exec .framing s = .next s.defective := by
  simp [exec, execFraming, State.inReset, hs]

end

end

/-- Settles O11: the levels of a character, the reading of an edge, and the receiver hunting and in a frame. -/
theorem receiverMoments : Obligations.ReceiverMoments := by
  refine ⟨fun b => ⟨?_, ?_, fun k hk => ?_⟩, fun bits h0 h9 => ⟨_, linkLevels_surjective bits h0 h9⟩, fun s hs => ?_⟩
  · rw [linkLevels_getLsbD]; rfl
  · rw [linkLevels_getLsbD]; rfl
  · rw [linkLevels_getLsbD, if_neg (Nat.succ_ne_zero k), if_pos (Nat.succ_le_of_lt hk)]; rfl
  · refine ⟨fun bits hb => ?_, fun rested hw => ⟨fun bits h0 => ?_, fun bits h0 h9 => ?_, fun hr => ⟨?_, fun b hb => ?_⟩,
      fun got b hr => ⟨fun hp => ?_, fun hl hb => ?_, fun hd => ?_⟩⟩, fun hr => ⟨?_, ?_⟩,
      fun got hr => ⟨fun b hl hb => ?_, ?_, ?_⟩⟩
    · rw [exec_characterReceived hs, State.edge_deaf hb]
    · rw [exec_characterReceived hs, State.edge_glitch hw h0]; rfl
    · rw [exec_characterReceived hs, State.edge_noStop hw h0 h9, State.attentive_defective, exec_framing hs]
    · rw [exec_characterReceived hs, State.edge_character hw, State.receive_lead (s := s.attentive) hr]; rfl
    · rw [exec_characterReceived hs, State.edge_character hw, State.receive_ignored (s := s.attentive) hr hb]; rfl
    · have hlong : ¬ (got.length = 4 ∧ 48 < b.toNat) := by omega
      have hopen : frameDone (got ++ [b]) = false := by
        rcases hp with h | ⟨h, -⟩ | ⟨-, h⟩
        · exact frameDone_short (by rw [List.length_append, List.length_singleton]; omega)
        · exact frameDone_short (by rw [List.length_append, List.length_singleton]; omega)
        · exact h
      rw [exec_characterReceived hs, State.edge_character hw, State.receive_placed (s := s.attentive) hr hlong hopen]; rfl
    · rw [exec_characterReceived hs, State.edge_character hw, State.receive_overlong (s := s.attentive) hr ⟨hl, hb⟩]
      exact (exec_overlong (s := s.attentive) hr ⟨hl, hb⟩).symm
    · rw [exec_characterReceived hs, State.edge_character hw, State.receive_complete (s := s.attentive) hr hd]
      exact (exec_frameComplete (s := s.attentive) hr hd).symm
    · rw [exec_framing hs, State.defective, State.abandonFrame_hunting hr]; rfl
    · exact congrArg _ (State.abandonFrame_hunting hr _)
    · rw [exec_overlong hr ⟨hl, hb⟩]; rfl
    · rw [exec_framing hs, State.defective, State.abandonFrame_inFrame hr]; rfl
    · exact congrArg _ (State.abandonFrame_inFrame hr _)

/-! ### A whole frame, bit by bit (R2 to R5) -/

/-- The characters of a frame after its lead byte, in the order of the link (R4). -/
def Frame.characters (f : Frame) : List Byte := f.body ++ linkCheckBytes f.body

theorem Frame.wire_eq (f : Frame) : f.wire = 0xA5#8 :: f.characters := rfl

theorem byte_toNat {n : Nat} (h : n < 256) : (byte n).toNat = n := by
  simpa [byte] using Nat.mod_eq_of_lt h

section
variable {f : Frame} (hf : f.payload.length ≤ 48)
include hf

/-- The length byte tells how many characters follow it: the payload and the two check bytes (R4). -/
theorem Frame.characters_eq : ∃ n rest, f.characters = f.dst :: f.src :: f.kind :: f.seq :: n :: rest ∧
    n.toNat = f.payload.length ∧ rest = f.payload ++ linkCheckBytes f.body ∧ rest.length = n.toNat + 2 := by
  have hn : (byte f.payload.length).toNat = f.payload.length := byte_toNat (by omega)
  exact ⟨_, f.payload ++ linkCheckBytes f.body, rfl, hn, rfl, by rw [hn, List.length_append]; rfl⟩

theorem Frame.characters_done : frameDone f.characters = true := by
  obtain ⟨n, rest, hc, hn, -, hl⟩ := f.characters_eq hf
  exact (frameDone_iff _).mpr ⟨_, _, _, _, n, rest, hc, by omega, hl⟩

theorem Frame.characters_frameOf : frameOf f.characters = some f := by
  obtain ⟨n, rest, hc, hn, hrest, -⟩ := f.characters_eq hf
  rw [hc, frameOf, hn, hrest, List.take_left']
  rfl

/-- Short of its last character a frame is neither complete nor found too long (R3, R7). -/
theorem Frame.characters_open {p q : List Byte} {b : Byte} (h : f.characters = p ++ b :: q) (hq : q ≠ []) :
    ¬ (p.length = 4 ∧ 48 < b.toNat) ∧ frameDone (p ++ [b]) = false := by
  obtain ⟨n, rest, hc, hn, -, hl⟩ := f.characters_eq hf
  rw [hc] at h
  constructor
  · rintro ⟨h4, hb⟩
    obtain ⟨-, ht⟩ := List.append_inj (s₁ := [f.dst, f.src, f.kind, f.seq]) (t₁ := n :: rest) h (by simp [h4])
    obtain ⟨rfl, -⟩ := List.cons.inj ht
    omega
  · refine Bool.eq_false_iff.mpr fun hd => ?_
    obtain ⟨_, _, _, _, m, rest', hp, -, hl'⟩ := (frameDone_iff _).mp hd
    rw [List.append_cons, hp] at h
    simp only [List.cons_append, List.cons.injEq] at h
    obtain ⟨-, -, -, -, rfl, rfl⟩ := h
    have := List.length_pos_of_ne_nil hq
    rw [List.length_append] at hl
    omega

end

theorem Frame.characters_check (f : Frame) : frameChecks f.characters = true := by
  have hl : f.characters.length - 2 = f.body.length := by
    rw [Frame.characters, List.length_append]
    rfl
  rw [frameChecks, hl, Frame.characters, List.drop_left, List.take_left, beq_self_eq_true]

/-! ### Runs -/

theorem run_next {M : Host.Core} {s t : M.State} (h : M.step s = .next t) (k : Nat) : M.run (k + 1) s = M.run k t := by
  simp only [Host.Core.run, h]

/-- A run executes the front command and goes on from what it answers. -/
theorem run_exec {s t : State} {c : Instr} {rest : List Instr} (hp : s.pending = c :: rest)
    (h : exec c { s with pending := rest } = .next t) (k : Nat) :
    Host.Core.run Sys2Proof.core (k + 1) s = Host.Core.run Sys2Proof.core k t := by
  have hstep : step s = .next t := by
    rw [step, hp]
    exact h
  exact run_next (M := Sys2Proof.core) (s := s) (t := t) hstep k

/-- The edges of a run of characters, one after another. -/
def edgesOf (rested : Bool) (bytes : List Byte) : List Instr := bytes.map fun b => .characterReceived ⟨rested, linkLevels b⟩

/-- The state while a frame is in progress: its characters after the lead byte, and no wait for the line to rest (R3). -/
def State.receiving (s : State) (got : List Byte) (pending : List Instr) : State :=
  { s with pending, link := { s.link with receiver := .inFrame got, breakHold := false } }

/-- The characters of a frame but its last are placed in order (R3). -/
theorem run_characters {f : Frame} (hf : f.payload.length ≤ 48) (s : State) (hs : s.loader.stage ≠ .inReset) (rested : Bool)
    (tail : List Instr) (k : Nat) {last : Byte} : ∀ bytes got : List Byte, f.characters = got ++ bytes ++ [last] →
      Host.Core.run Sys2Proof.core (bytes.length + k) (s.receiving got (edgesOf rested bytes ++ tail)) =
        Host.Core.run Sys2Proof.core k (s.receiving (got ++ bytes) tail) := by
  intro bytes
  induction bytes with
  | nil =>
    intro got _
    rw [List.append_nil, List.length_nil, Nat.zero_add]
    rfl
  | cons b bytes ih =>
    intro got hc
    have hsplit : f.characters = got ++ b :: (bytes ++ [last]) := by simpa using hc
    obtain ⟨hlong, hopen⟩ := f.characters_open hf hsplit (by simp)
    have hplaced : exec (.characterReceived ⟨rested, linkLevels b⟩) (s.receiving got (edgesOf rested bytes ++ tail)) =
        .next (s.receiving (got ++ [b]) (edgesOf rested bytes ++ tail)) := by
      rw [exec_characterReceived (s := s.receiving got _) hs, State.edge_character (fun h => absurd h Bool.false_ne_true),
        State.receive_placed (s := (s.receiving got _).attentive) rfl hlong hopen]
      rfl
    calc Host.Core.run Sys2Proof.core ((b :: bytes).length + k) (s.receiving got (edgesOf rested (b :: bytes) ++ tail))
      _ = Host.Core.run Sys2Proof.core (bytes.length + k) (s.receiving (got ++ [b]) (edgesOf rested bytes ++ tail)) := by
        rw [List.length_cons, Nat.add_right_comm]
        exact run_exec rfl hplaced _
      _ = Host.Core.run Sys2Proof.core k (s.receiving (got ++ b :: bytes) tail) := by
        rw [ih (got ++ [b]) (by simpa using hsplit)]
        simp

/-- The lead byte opens a frame (R3). -/
theorem run_lead {t : State} {rested : Bool} {rest : List Instr} (hs : t.loader.stage ≠ .inReset)
    (hr : t.link.receiver = .hunting) (hw : t.link.breakHold = true → rested = true)
    (hp : t.pending = .characterReceived ⟨rested, linkLevels 0xA5#8⟩ :: rest) (k : Nat) :
    Host.Core.run Sys2Proof.core (k + 1) t = Host.Core.run Sys2Proof.core k (t.receiving [] rest) := by
  refine run_exec hp ?_ k
  rw [exec_characterReceived (s := { t with pending := rest }) hs, State.edge_character (s := { t with pending := rest }) hw,
    State.receive_lead (s := State.attentive { t with pending := rest }) hr]
  rfl

/-- Settles O9: the lead byte opens the frame, each character is placed, and the last completes it with its check right. -/
theorem frameOnTheLineIsStored : Obligations.FrameOnTheLineIsStored := by
  intro s f rested hf hr hroom hs hw
  obtain ⟨bytes, last, hc⟩ : ∃ bytes last, f.characters = bytes ++ [last] :=
    ⟨_, _, (List.dropLast_append_getLast (l := f.characters) (by simp [Frame.characters, Frame.body])).symm⟩
  have hwire : f.wire = (0xA5#8 :: bytes) ++ [last] := by rw [Frame.wire_eq, hc]; rfl
  have hdone : frameDone (bytes ++ [last]) = true := hc ▸ f.characters_done hf
  have hlast : exec (.frameComplete last) (s.receiving bytes []) =
      .next ((s.receiving bytes []).completeFrame (bytes ++ [last])) := exec_frameComplete rfl hdone
  rw [hwire, List.dropLast_concat, List.getLastD_concat, List.length_append]
  refine (run_lead (t := { s with pending := edgesOf rested (0xA5#8 :: bytes) ++ [.frameComplete last] })
    (rest := edgesOf rested bytes ++ [.frameComplete last]) hs hr hw rfl _).trans ?_
  refine (run_characters hf s hs rested [.frameComplete last] 1 bytes [] hc).trans ?_
  refine (run_exec rfl hlast 0).trans ?_
  rw [State.completeFrame_stored (s := s.receiving bytes []) (hc ▸ f.characters_check) hroom (hc ▸ f.characters_frameOf hf)]
  simp only [State.receiving, hr]
  rfl

end Sys2Proof.Machine
end

section
/-! SUPPORT. The frames that the Traffic Gate drops, with the reason of each (R12, R29 to R36), and the Station Table entries
of a slot (R20, R21). -/

namespace Sys2Proof.Machine

open Sys2Proof

/-! ### The entries of a slot (R20, R21) -/

section
variable {stations : List Station} {role : Role} {i : SlotId} {st : Station}

theorem stationOf_mem (h : stationOf stations role i = some st) : st ∈ stations ∧ st.role = role ∧ st.slot = i := by
  have hp := List.find?_some h
  simp only [Bool.and_eq_true, beq_iff_eq] at hp
  exact ⟨List.mem_of_find?_eq_some h, hp⟩

theorem stationOf_none (h : ∀ x ∈ stations, x.role = role → x.slot ≠ i) : stationOf stations role i = none := by
  refine List.find?_eq_none.mpr fun x hx => ?_
  simp only [Bool.and_eq_true, beq_iff_eq, not_and]
  exact h x hx

theorem stationOf_only (hm : st ∈ stations) (hr : st.role = role) (hi : st.slot = i)
    (ho : ∀ x ∈ stations, x.role = role → x.slot = i → x = st) : stationOf stations role i = some st := by
  cases hf : stationOf stations role i with
  | none => exact absurd hf (by simpa [stationOf] using ⟨st, hm, hr, hi⟩)
  | some x =>
    obtain ⟨hx, hxr, hxi⟩ := stationOf_mem hf
    rw [ho x hx hxr hxi]

/-- The radio addresses of a ROBOT entry: its own, and 0x40 above it with accept-twin (R20). -/
theorem Station.isRadio_iff (hr : st.role = .robot) (a : Byte) :
    st.isRadio a = true ↔ a = st.addr ∨ (st.acceptTwin = true ∧ a = st.addr + 0x40#8) := by
  unfold Station.isRadio Station.matchesSource Config.twinOffset
  by_cases h : a = st.addr
  · simp [h]
  · by_cases ht : st.acceptTwin = true ∧ a = st.addr + 0x40#8
    · simp [ht, hr]
    · simp [h, ht, hr]

end

/-! ### Kinds and destinations (section 11.1, R12) -/

theorem frameKindOf_eq_some {b : Byte} {k : FrameKind} : frameKindOf b = some k ↔ b = k.code := by
  constructor
  · intro h
    unfold frameKindOf at h
    split at h <;> cases h <;> next hb => exact BitVec.eq_of_toNat_eq hb
  · rintro rfl
    cases k <;> rfl

section
variable {s : State} {f : Frame} {rest : List Frame} {i : SlotId} {radio : Radio} {r : DropReason}

theorem State.forPart_iff (s : State) (dst : Byte) : s.forPart dst = true ↔ dst = s.link.own ∨ dst = 0xFF#8 := by
  simp [State.forPart, Config.broadcast]

theorem State.tellAllowed_iff (s : State) (i : SlotId) (dst : Byte) : s.tellAllowed i dst = true ↔
    dst = s.link.console ∨ ∃ st, stationOf s.stations .driver i = some st ∧ dst = st.addr := by
  unfold State.tellAllowed
  cases stationOf s.stations .driver i <;> simp

theorem State.driveAllowed_iff (s : State) (i : SlotId) (dst : Byte) : s.driveAllowed i dst = true ↔
    ∃ st, stationOf s.stations .robot i = some st ∧
      (dst = s.link.own ∨ dst = 0xFF#8 ∨ dst = st.addr ∨ (st.acceptTwin = true ∧ dst = st.addr + 0x40#8)) := by
  unfold State.driveAllowed
  cases h : stationOf s.stations .robot i with
  | none => simp
  | some st => simp [s.forPart_iff, Station.isRadio_iff (stationOf_mem h).2.1, or_assoc]

/-! ### The reason of a frame, source by source (R29 to R36) -/

theorem State.classify_stranger (ha : stationAddress f.src = false) (hc : f.src ≠ s.link.console) :
    s.classify f = .dropped .unknownSource := by
  simp [State.classify, ha, hc]

theorem State.classify_falseManage (hk : f.kind = 0x40#8) (hc : f.src ≠ s.link.console) :
    s.classify f = .dropped .unknownSource := by
  simp [State.classify, hk, hc, FrameKind.code]

theorem State.classify_unlisted (hc : f.src ≠ s.link.console) (hs : findStation s.stations f.src = none) :
    s.classify f = .dropped .unknownSource := by
  simp [State.classify, hc, hs]

theorem State.classify_consoleKind (hc : f.src = s.link.console) (hk : f.kind ≠ 0x40#8) :
    s.classify f = .dropped .badKind := by
  simp [State.classify, hc, hk, FrameKind.code]

theorem State.classify_consoleElsewhere (hc : f.src = s.link.console) (hk : f.kind = 0x40#8) (ho : f.dst ≠ s.link.own)
    (hb : f.dst ≠ 0xFF#8) : s.classify f = .dropped .misdirected := by
  have hp : s.forPart f.dst = false := Bool.eq_false_iff.mpr fun h => ((s.forPart_iff _).mp h).elim ho hb
  simp [State.classify, hc, hk, hp, FrameKind.code]

theorem State.robotDrop_bypassed (h : (s.slots.at i).bypassed = true) : s.robotDrop i f = some .bypassed := by
  simp [State.robotDrop, h]

theorem State.driverDrop_kind (hk : f.kind ≠ 0x10#8) : s.driverDrop i f = some .badKind := by
  cases hd : s.driverDrop i f with
  | none => exact absurd (frameKindOf_eq_some.mp (State.driverDrop_none hd)) hk
  | some r =>
    unfold State.driverDrop at hd
    split at hd
    · next h => exact absurd (frameKindOf_eq_some.mp h) hk
    all_goals exact hd.symm

theorem State.driverDrop_elsewhere (hk : f.kind = 0x10#8) (hd : s.driveAllowed i f.dst = false) :
    s.driverDrop i f = some .misdirected := by
  simp [State.driverDrop, (frameKindOf_eq_some (k := .drive)).mpr hk, hd]

theorem State.driverDrop_empty (hk : f.kind = 0x10#8) (hd : s.driveAllowed i f.dst = true) (hp : f.payload = []) :
    s.driverDrop i f = some .badKind := by
  simp [State.driverDrop, (frameKindOf_eq_some (k := .drive)).mpr hk, hd, hp, minimumLength]

section
variable (hb : (s.slots.at i).bypassed = false)
include hb

theorem State.robotDrop_kind (ht : f.kind ≠ 0x11#8) (hc : f.kind ≠ 0x20#8) (hr : f.kind ≠ 0x21#8) :
    s.robotDrop i f = some .badKind := by
  unfold State.robotDrop
  rw [if_neg (Bool.eq_false_iff.mp hb)]
  split
  · next h => exact absurd (frameKindOf_eq_some.mp h) ht
  · next h => exact absurd (frameKindOf_eq_some.mp h) hc
  · next h => exact absurd (frameKindOf_eq_some.mp h) hr
  all_goals rfl

theorem State.robotDrop_tell (hk : f.kind = 0x11#8) (hd : s.tellAllowed i f.dst = false) :
    s.robotDrop i f = some .misdirected := by
  simp [State.robotDrop, hb, (frameKindOf_eq_some (k := .tell)).mpr hk, hd]

theorem State.robotDrop_elsewhere (hk : f.kind = 0x20#8 ∨ f.kind = 0x21#8) (hd : s.forPart f.dst = false) :
    s.robotDrop i f = some .misdirected := by
  rcases hk with hk | hk
  · simp [State.robotDrop, hb, (frameKindOf_eq_some (k := .claim)).mpr hk, hd]
  · simp [State.robotDrop, hb, (frameKindOf_eq_some (k := .release)).mpr hk, hd]

theorem State.robotDrop_short (hd : s.forPart f.dst = true)
    (hl : (f.kind = 0x20#8 ∧ f.payload.length < 4) ∨ (f.kind = 0x21#8 ∧ f.payload = [])) :
    s.robotDrop i f = some .badKind := by
  rcases hl with ⟨hk, hl⟩ | ⟨hk, hl⟩
  · simp [State.robotDrop, hb, (frameKindOf_eq_some (k := .claim)).mpr hk, hd, minimumLength, hl]
  · simp [State.robotDrop, hb, (frameKindOf_eq_some (k := .release)).mpr hk, hd, minimumLength, hl]

end

/-! ### The row that drops it (R29, R31) -/

theorem exec_dropped (hm : s.mgmt.mode ≠ .starting) (hs : s.link.store = f :: rest) (hc : s.classify f = .dropped r) :
    exec .droppedFrame s = .next ((s.taken rest).countDrop r) := by
  simp only [exec, execDroppedFrame, State.headFrame_eq hm hs, hc, State.popStore_eq hs]

theorem DriverFrame.exec_dropped (h : DriverFrame s f rest i) (hd : s.driverDrop i f = some r) :
    exec .droppedFrame s = .next ((s.taken rest).countDrop r) := by
  simp only [exec, execDroppedFrame, h.headFrame, hd, State.popStore_eq h.store]

theorem RobotFrame.exec_dropped (h : RobotFrame s f rest i radio) (hd : s.robotDrop i f = some r) :
    exec .droppedFrame s = .next { s.takenFromRobot rest i radio with gate := s.gate.count r } := by
  simp only [exec, execDroppedFrame, h.headFrame, hd, Option.isSome_some, if_true, State.takeRobot,
    State.popStore_eq h.store, State.taken_refresh, State.takenFromRobot_robotDrop, State.countDrop,
    State.takenFromRobot_gate]

end

/-- Settles O13: each source's reasons, in the order of R29 to R36. -/
theorem droppedFrameResult : Obligations.DroppedFrameResult := by
  intro s f rest hm hs
  refine ⟨fun ha hc => exec_dropped hm hs (State.classify_stranger ha hc),
    fun hk hc => exec_dropped hm hs (State.classify_falseManage hk hc),
    fun _ hc hf => exec_dropped hm hs (State.classify_unlisted hc hf),
    fun hc hk => exec_dropped hm hs (State.classify_consoleKind hc hk),
    fun hc hk ho hb => exec_dropped hm hs (State.classify_consoleElsewhere hc hk ho hb),
    fun i h => ⟨fun hk => h.exec_dropped (State.driverDrop_kind hk), fun hk hd => ?_, fun st hk hst hd hp => ?_⟩,
    fun i radio h => ⟨fun hb => h.exec_dropped (State.robotDrop_bypassed hb),
      fun hb ht hc hr => h.exec_dropped (State.robotDrop_kind hb ht hc hr),
      fun hb hk hc hd => ?_, fun hb hk ho hbr => ?_,
      fun hb hd hl => h.exec_dropped (State.robotDrop_short hb ((s.forPart_iff _).mpr hd) hl)⟩⟩
  · refine h.exec_dropped (State.driverDrop_elsewhere hk (Bool.eq_false_iff.mpr fun ha => ?_))
    obtain ⟨st, hst, hdst⟩ := (s.driveAllowed_iff i f.dst).mp ha
    obtain ⟨ho, hb, haddr, htwin⟩ := hd st hst
    rcases hdst with h | h | h | ⟨ht, h⟩
    · exact ho h
    · exact hb h
    · exact haddr h
    · exact htwin ht h
  · exact h.exec_dropped (State.driverDrop_empty hk ((s.driveAllowed_iff i f.dst).mpr ⟨st, hst, hd⟩) hp)
  · have ht : s.tellAllowed i f.dst = false := Bool.eq_false_iff.mpr fun ha => by
      rcases (s.tellAllowed_iff i f.dst).mp ha with h | ⟨st, hst, h⟩
      · exact hc h
      · exact hd st hst h
    exact h.exec_dropped (State.robotDrop_tell hb hk ht)
  · have hp : s.forPart f.dst = false := Bool.eq_false_iff.mpr fun h => ((s.forPart_iff _).mp h).elim ho hbr
    exact h.exec_dropped (State.robotDrop_elsewhere hb hk hp)

end Sys2Proof.Machine
end

section
/-! SUPPORT. The takes of verdicts, DRIVE frames, replies, notices and TELLs, with the codes and bytes they carry
(R14 to R16, R26, R39, R44, R116, R180, R188 to R190). -/

namespace Sys2Proof.Machine

open Sys2Proof

/-! ### Where a slot is reached and what its gate is (R26, R44) -/

section
variable {s : State} {i : SlotId} {st : Station} {p : Placing} {a : Byte}

theorem State.radioAddress_none (h : s.NoStation .robot i) : s.radioAddress i = none := by
  rw [State.radioAddress, stationOf_none h]
  rfl

theorem State.radioAddress_only (h : s.OnlyStation .robot i st) :
    s.radioAddress i = some (match (s.slots.at i).radio with
      | .primary => st.addr
      | .twin => st.addr + 0x40) := by
  obtain ⟨hm, hr, hi, ho⟩ := h
  rw [State.radioAddress, stationOf_only hm hr hi ho]
  cases (s.slots.at i).radio <;> rfl

theorem State.effectiveGate_shut
    (h : (s.slots.at i).placing = none ∨ (s.slots.at i).disabled = true ∨ (s.slots.at i).bypassed = true) :
    s.effectiveGate i = .off := by
  unfold State.effectiveGate
  cases hp : (s.slots.at i).placing with
  | none => rfl
  | some p =>
    rcases h with h | h | h
    · cases hp.symm.trans h
    · simp [h]
    · simp [h]

theorem State.effectiveGate_stopped (hp : (s.slots.at i).placing = some p) (h : (s.fields.at p.field).stopped ≠ none) :
    s.effectiveGate i = .off := by
  simp [State.effectiveGate, hp, Option.isSome_iff_ne_none.mpr h]

theorem State.effectiveGate_live (hp : (s.slots.at i).placing = some p) (hd : (s.slots.at i).disabled = false)
    (hb : (s.slots.at i).bypassed = false) (h : (s.fields.at p.field).stopped = none) :
    s.effectiveGate i = (match (s.fields.at p.field).phase with
      | .auto => .auto
      | .teleop | .endgame => .drive
      | .idle | .pre | .pause | .post => .off) := by
  simp only [State.effectiveGate, hp, hd, hb, h]
  rfl

theorem Gate.byte_code (g : Gate) : byte g.code = match g with
    | .off => 0x00#8
    | .auto => 0x01#8
    | .drive => 0x02#8 := by
  cases g <;> rfl

/-! ### The takes (R14 to R16, R39, R188) -/

theorem exec_takeVerdict {v : Verdict} {q : List Verdict} (hn : s.nextTake = some .verdict) (hq : s.link.verdicts = v :: q) :
    exec .takeVerdict s = .next (s.sendVerdict v) := by
  simp only [exec, execTakeVerdict, hn, hq]

theorem State.sendVerdict_unreached {v : Verdict} (h : s.radioAddress v.slot = none) :
    s.sendVerdict v = { s with link := { s.link with verdicts := s.link.verdicts.tail } } := by
  have ht : (s.updLink fun l => { l with verdicts := l.verdicts.tail }).radioAddress v.slot = none := h
  rw [State.sendVerdict]
  simp only [ht]
  rfl

theorem State.sendVerdict_reached {v : Verdict} (h : s.radioAddress v.slot = some a) : s.sendVerdict v =
    { s with link := { s.link with
      verdicts := s.link.verdicts.tail
      transmitter := .sending ({ dst := a, src := s.link.own, kind := 0x22, seq := s.link.origin, payload := v.payload } :
        Frame).wire s.link.rate false
      origin := s.link.origin + 1 } } := by
  have ht : (s.updLink fun l => { l with verdicts := l.verdicts.tail }).radioAddress v.slot = some a := h
  rw [State.sendVerdict]
  simp only [ht]
  rfl

theorem exec_takeDrive (hn : s.nextTake = some (.drive i)) : exec .takeDrive s = .next (s.sendDrive i) := by
  simp only [exec, execTakeDrive, hn]

/-- The hold store of a slot is given up and the slot is the last served (R17, R39). -/
def State.served (s : State) (i : SlotId) : State :=
  (s.updSlot i fun x => { x with held := none }).updLink fun l => { l with lastServed := i }

theorem State.served_radioAddress (s : State) (i : SlotId) : (s.served i).radioAddress i = s.radioAddress i := by
  simp [State.served, State.radioAddress, State.updLink, State.updSlot]

theorem State.sendDrive_unreached {f : Frame} (hh : (s.slots.at i).held = some f) (h : s.radioAddress i = none) :
    s.sendDrive i = (s.served i).countDrop .misdirected := by
  have ht : (s.served i).radioAddress i = none := (s.served_radioAddress i).trans h
  simp only [State.sendDrive, hh]
  simp only [State.served] at ht
  simp only [ht]
  rfl

theorem State.sendDrive_reached {f : Frame} (hh : (s.slots.at i).held = some f) (h : s.radioAddress i = some a) :
    s.sendDrive i = (s.served i).send { f with
      dst := a, payload := stampPayload (byte (s.effectiveGate i).code) f.payload } false := by
  have ht : (s.served i).radioAddress i = some a := (s.served_radioAddress i).trans h
  simp only [State.sendDrive, hh]
  simp only [State.served] at ht
  simp only [ht]
  rfl

theorem exec_takeReply {r : Reply} {q : List Reply} (hn : s.nextTake = some .reply) (hq : s.link.replies = r :: q) :
    exec .takeReply s = .next (s.sendReply r) := by
  simp only [exec, execTakeReply, hn, hq]

theorem exec_takeNotice {n : Notice} {q : List Notice} (hn : s.nextTake = some .notice) (hq : s.mgmt.notices = n :: q) :
    exec .takeNotice s = .next (s.sendNotice n) := by
  simp only [exec, execTakeNotice, hn, hq]

theorem exec_takeTell {f : Frame} {q : List Frame} (hn : s.nextTake = some .tell) (hq : s.link.tells = f :: q) :
    exec .takeTell s = .next (s.sendTell f) := by
  simp only [exec, execTakeTell, hn, hq]

end

/-! ### Codes and bytes (sections 11.2 and 11.5) -/

theorem Outcome.code_datum (o : Outcome) : (o.code, o.datum) = (match o with
    | .granted => (1, 0)
    | .queued n => (2, byte n)
    | .acting => (3, 0)
    | .done b => (4, b)
    | .failed r => (5, byte r.code)
    | .cancelled => (6, 0)
    | .released r => (7, byte r.code)
    | .withdrawn r => (8, byte r.code)
    | .refused r => (9, byte r.code)) := by
  cases o <;> rfl

theorem Reason.code_listed (r : Reason) : (r, r.code) ∈ [(Reason.byRobot, 1), (.expired, 2), (.phase, 3), (.stopped, 4),
    (.disabled, 5), (.bypassed, 6), (.aborted, 7), (.silent, 8), (.elementLost, 9), (.elementDown, 10), (.rejected, 11),
    (.timeout, 12), (.lost, 13), (.retries, 14), (.fault, 15), (.gateOff, 16), (.noElement, 17), (.badAction, 18),
    (.notYours, 19), (.tooMany, 20), (.cooling, 21), (.queueFull, 22), (.notHolding, 23)] := by
  cases r <;> decide

theorem ReplyReason.code_listed (r : ReplyReason) :
    (r, r.code) ∈ [(ReplyReason.unknownCommand, 1), (.length, 2), (.range, 3),
    (.notCommissioned, 4), (.fieldLive, 5), (.state, 6), (.duplicate, 7), (.twinConflict, 8), (.full, 9), (.slotBusy, 10),
    (.stopHeld, 11), (.stopLatched, 12), (.noEntry, 13), (.noCursor, 14), (.tableEnd, 15)] := by
  cases r <;> decide

/-- Settles O48: each take by its equation, each code and each byte by its kind. -/
theorem takeQueuedItems : Obligations.TakeQueuedItems := by
  intro s
  refine ⟨fun v q hn hq => ⟨fun hr => ?_, fun a hr => ?_⟩, fun i f b more hn hh hp => ⟨fun hr => ?_, fun a hr => ?_⟩,
    fun r q hn hq => ?_, fun n q hn hq => ?_, fun f q hn hq => ?_,
    fun i => ⟨State.effectiveGate_shut, fun p hp => ⟨State.effectiveGate_stopped hp, State.effectiveGate_live hp⟩⟩,
    fun i => ⟨State.radioAddress_none, fun st => State.radioAddress_only⟩, Outcome.code_datum, Reason.code_listed,
    fun r => ?_, ReplyReason.code_listed, fun n => ?_⟩
  · rw [exec_takeVerdict hn hq, State.sendVerdict_unreached hr, hq]; rfl
  · rw [exec_takeVerdict hn hq, State.sendVerdict_reached hr, hq]; rfl
  · rw [exec_takeDrive hn, State.sendDrive_unreached hh hr]; rfl
  · rw [exec_takeDrive hn, State.sendDrive_reached hh hr, hp, Gate.byte_code]; rfl
  · rw [exec_takeReply hn hq, State.sendReply, State.updLink, hq]; rfl
  · rw [exec_takeNotice hn hq, State.sendNotice, State.updMgmt, hq]; rfl
  · rw [exec_takeTell hn hq, State.sendTell, State.updLink, hq]; rfl
  · cases h : r.outcome <;> simp only [Reply.payload, h] <;> rfl
  · obtain ⟨dropped, content⟩ := n
    cases content with
    | resume f src => cases src <;> rfl
    | unattributed f e k c cause => cases cause <;> rfl
    | phase f p m a => cases a <;> rfl
    | score f e k c points a tally cap => cases cap <;> rfl
    | settings valid skipped => cases valid <;> rfl
    | stop | element | late | silent | heard => rfl

end Sys2Proof.Machine
end

section
/-! SUPPORT. The take of a beacon: what it clears, and its bytes (R14, R79, R118, R169 to R173). -/

namespace Sys2Proof.Machine

open Sys2Proof

/-! ### Bytes of a beacon (sections 11.3 and 11.4) -/

theorem Phase.byte_code (p : Phase) : byte p.code = match p with
    | .idle => 0x00#8
    | .pre => 0x01#8
    | .auto => 0x02#8
    | .pause => 0x03#8
    | .teleop => 0x04#8
    | .endgame => 0x05#8
    | .post => 0x06#8 := by
  cases p <;> rfl

theorem stopByte_eq (c : Option StopCause) : stopByte c = match c with
    | none => 0x00#8
    | some (.line n) => byte (0x90 + n.val)
    | some (.hall n) => byte (0xA0 + n.val)
    | some .console => 0xB0#8 := by
  rcases c with - | c
  · rfl
  · cases c <;> rfl

theorem Bcd.bytes_eq (t : Bcd) :
    t.bytes = [byte (16 * t.thousands.val + t.hundreds.val), byte (16 * t.tens.val + t.units.val)] := by
  rw [Bcd.bytes, packDigits, packDigits, Nat.mul_comm, Nat.mul_comm t.tens.val]

/-- A Bool at its place in a byte. -/
theorem mul_bit (n : Nat) (b : Bool) : n * bit b = if b then n else 0 := by
  cases b <;> simp [bit]

/-- Three marks in the low half of a byte and a number in the high half. -/
theorem byte_marks : ∀ (a b c : Bool) (n : Fin 16),
    let x := byte (bit a + 2 * bit b + 4 * bit c + 16 * n.val)
    x.getLsbD 0 = a ∧ x.getLsbD 1 = b ∧ x.getLsbD 2 = c ∧ x.getLsbD 3 = false ∧ x.toNat / 16 = n.val := by
  decide

/-- An edge flag that exists (R72). -/
theorem LineRecord.flag_iff (r : LineRecord) :
    r.flag = true ↔ r.edge = true ∧ (r.role = .stop ∨ r.role = .hallStop) := by
  simp [LineRecord.flag]

/-- The summary mark of a field (R79). -/
theorem summaryMark_iff (lines : Table 16 LineRecord) (g : FieldId) : summaryMark lines g = true ↔
    ∃ n, lineField n = g ∧ (lines.at n).edge = true ∧ ((lines.at n).role = .stop ∨ (lines.at n).role = .hallStop) := by
  simp [summaryMark, fieldLines, List.any_filter, LineRecord.flag_iff, mem_allOf]

theorem listedSlots_length (l : Table 6 (Option SlotId)) : (listedSlots l).length ≤ 6 :=
  (List.length_filterMap_le _ _).trans (by simp)

/-! ### What a beacon shows (R171, R172) -/

section
variable {m : MatchRecord}

theorem MatchRecord.secondsShown_timed (h : m.phase.timed = true) : m.secondsShown = (m.remaining + 999) / 1000 := by
  unfold MatchRecord.secondsShown
  cases hp : m.phase <;> simp_all [Phase.timed, secondsUp]

theorem MatchRecord.runFromAuto_time (m : MatchRecord) : m.runFromAuto.2 =
    100 * (if 0 < m.durA then m.durA else if 0 < m.durP then m.durP else if m.durE < m.durT then m.durT else m.durE) := by
  unfold MatchRecord.runFromAuto MatchRecord.runFromPause MatchRecord.runFromTeleop
  split_ifs <;> rfl

theorem MatchRecord.secondsShown_pre (h : m.phase = .pre) : m.secondsShown = (m.runFromAuto.2 + 999) / 1000 := by
  simp only [MatchRecord.secondsShown, h]
  rfl

theorem MatchRecord.secondsShown_over (h : m.phase = .idle ∨ m.phase = .post) : m.secondsShown = 0 := by
  rcases h with h | h <;> simp only [MatchRecord.secondsShown, h]

end

section
variable (s : State) (g : FieldId) (i : SlotId)

theorem State.holds_iff (e : ElementId) : s.Holds i e ↔ (match s.loadedAt e with
    | some l => l.heldBy i
    | none => false) = true := by
  unfold State.Holds Loaded.heldBy
  cases s.loadedAt e with
  | none => simp
  | some l => cases hl : l.hold <;> simp [hl]

/-- The byte of the lowest element that a slot holds (R118). -/
def State.heldByte : Byte :=
  match s.heldElement i with
  | some e => elementByte e
  | none => 0xFF#8

theorem State.heldByte_none (h : ∀ e, ¬ s.Holds i e) : s.heldByte i = 0xFF#8 := by
  have hn : s.heldElement i = none := List.find?_eq_none.mpr fun e _ he => h e ((s.holds_iff i e).mpr he)
  rw [State.heldByte, hn]

theorem State.heldByte_lowest {e : ElementId} (he : s.Holds i e) (hl : ∀ j, j < e → ¬ s.Holds i j) :
    s.heldByte i = byte e.val := by
  have hs : s.heldElement i = some e :=
    find_allOf.mpr ⟨(s.holds_iff i e).mp he, fun j hj => Bool.eq_false_iff.mpr fun h => hl j hj ((s.holds_iff i j).mpr h)⟩
  rw [State.heldByte, hs]
  rfl

/-- The byte of a place: the alliance in the high half, the position in the low half (section 11.4). -/
theorem placeOfIndex_code (k : Fin 6) : 16 * (placeOfIndex k.val).1.code + (placeOfIndex k.val).2 =
    (if k.val < 3 then 0x00 else 0x10) + k.val % 3 + 1 := by
  revert k
  decide

theorem State.beaconEntry_eq (k : Fin 6) : s.beaconEntry k.val i =
    [byte ((if k.val < 3 then 0x00 else 0x10) + k.val % 3 + 1)] ++ be24 (s.slots.at i).team ++
      [byte ((match s.effectiveGate i with
          | .off => 0
          | .auto => 1
          | .drive => 2) + (if (s.slots.at i).silent then 4 else 0) + if (s.slots.at i).throttled then 8 else 0),
       s.heldByte i] := by
  rw [← placeOfIndex_code, ← mul_bit, ← mul_bit]
  cases h : s.effectiveGate i <;> simp only [State.beaconEntry, h] <;> rfl

/-- The marks and the number of entries of a beacon (R172). -/
def State.beaconFlags : Byte :=
  byte (bit (s.tallies.at g).eastCap + 2 * bit (s.tallies.at g).westCap + 4 * bit (summaryMark s.lines g) +
    16 * (listedSlots (s.fields.at g).list).length)

theorem State.beaconFlags_marks : (s.beaconFlags g).getLsbD 0 = (s.tallies.at g).eastCap ∧
    (s.beaconFlags g).getLsbD 1 = (s.tallies.at g).westCap ∧ (s.beaconFlags g).getLsbD 2 = summaryMark s.lines g ∧
    (s.beaconFlags g).getLsbD 3 = false ∧ (s.beaconFlags g).toNat / 16 = (listedSlots (s.fields.at g).list).length :=
  byte_marks _ _ _ ⟨_, Nat.lt_of_le_of_lt (listedSlots_length (s.fields.at g).list) (by decide)⟩

theorem State.beaconEntries_eq : s.beaconEntries g =
    (allOf 6).flatMap fun k => ((s.fields.at g).list.at k).elim [] fun i => s.beaconEntry k.val i := by
  unfold State.beaconEntries
  congr 1
  funext k
  cases (s.fields.at g).list.at k <;> rfl

theorem State.beaconPayload_eq : s.beaconPayload g = [byte g.val] ++ be16 (s.fields.at g).number ++
    [byte (s.fields.at g).phase.code, stopByte (s.fields.at g).stopped] ++ be16 (s.fields.at g).secondsShown ++
    [byte (16 * (s.tallies.at g).east.thousands.val + (s.tallies.at g).east.hundreds.val),
     byte (16 * (s.tallies.at g).east.tens.val + (s.tallies.at g).east.units.val),
     byte (16 * (s.tallies.at g).west.thousands.val + (s.tallies.at g).west.hundreds.val),
     byte (16 * (s.tallies.at g).west.tens.val + (s.tallies.at g).west.units.val), s.beaconFlags g] ++
    (allOf 6).flatMap fun k => ((s.fields.at g).list.at k).elim [] fun i => s.beaconEntry k.val i := by
  rw [State.beaconPayload, State.beaconEntries_eq, Bcd.bytes_eq, Bcd.bytes_eq]
  rfl

end

/-! ### What a beacon clears (R169, R173) -/

/-- The slot table with the throttled marks of some slots clear. -/
def unthrottled (t : Table 32 Slot) (slots : List SlotId) : Table 32 Slot :=
  slots.foldl (fun t i => t.put i { t.at i with throttled := false }) t

theorem State.foldl_unthrottle (s : State) (slots : List SlotId) :
    slots.foldl (fun s i => s.updSlot i fun x => { x with throttled := false }) s =
      { s with slots := unthrottled s.slots slots } := by
  induction slots generalizing s with
  | nil => rfl
  | cons i slots ih => exact ih (s.updSlot i fun x => { x with throttled := false })

theorem unthrottled_at (t : Table 32 Slot) (slots : List SlotId) (j : SlotId) : (unthrottled t slots).at j =
    { t.at j with throttled := if j ∈ slots then false else (t.at j).throttled } := by
  induction slots generalizing t with
  | nil => rfl
  | cons i slots ih =>
    refine (ih (t.put i { t.at i with throttled := false })).trans ?_
    rw [Table.at_put]
    by_cases h : j = i <;> simp [h]

/-- The state after a field's beacon is taken: the marks clear and the frame on the line (R169, R173). -/
theorem State.sendBeacon_eq (s : State) (g : FieldId) : s.sendBeacon g = { s with
    slots := unthrottled s.slots (listedSlots (s.fields.at g).list)
    beacons := { s.beacons with urgent := s.beacons.urgent.put g false, routine := s.beacons.routine.put g false }
    link := { s.link with
      transmitter := .sending ({ dst := 0xFF, src := s.link.own, kind := 0x30, seq := s.link.origin
                                 payload := s.beaconPayload g } : Frame).wire s.link.rate false
      origin := s.link.origin + 1 } } := by
  rw [State.sendBeacon, State.foldl_unthrottle]
  rfl

theorem exec_takeBeacon {s : State} {g : FieldId} (h : s.nextTake = some (.beacon g)) :
    exec .takeBeacon s = .next (s.sendBeacon g) := by
  simp only [exec, execTakeBeacon, h]

/-- Settles O47: the clearing of the marks, and the payload place by place. -/
theorem takeBeaconResult : Obligations.TakeBeaconResult := by
  intro s g hn
  obtain ⟨h0, h1, h2, h3, h4⟩ := s.beaconFlags_marks g
  refine ⟨_, (s.fields.at g).secondsShown, s.beaconFlags g, fun k i => s.beaconEntry k.val i, exec_takeBeacon hn,
    fun f => ?_, fun i => ?_, ?_, MatchRecord.secondsShown_timed, fun hp => ?_, MatchRecord.secondsShown_over, h0, h1,
    h2 ▸ summaryMark_iff _ g, h3, h4,
    fun k i _ => ⟨s.heldByte i, s.beaconEntry_eq i k, s.heldByte_none i, fun e => s.heldByte_lowest i⟩⟩
  · rw [State.sendBeacon_eq, Table.at_put, Table.at_put]
    by_cases hf : f = g <;> simp [hf]
  · rw [State.sendBeacon_eq, unthrottled_at]
  · rw [State.sendBeacon_eq, s.beaconPayload_eq, Phase.byte_code, stopByte_eq] <;> rfl
  · rw [MatchRecord.secondsShown_pre hp, MatchRecord.runFromAuto_time]

end Sys2Proof.Machine
end

section
/-! SUPPORT. READ and READ NEXT, and the bytes of an entry of each table (R10, R20, R43, R79, R84, R118, R148, R181 to R184,
R187). -/

namespace Sys2Proof.Machine

open Sys2Proof

/-! ### Tables (section 11.3) -/

theorem readTableOf_eq_some {a : Byte} {t : ReadTable} : readTableOf a = some t ↔ a = byte t.code := by
  constructor
  · intro h
    unfold readTableOf at h
    split at h <;> cases h <;> next ha => exact BitVec.eq_of_toNat_eq ha
  · rintro rfl
    cases t <;> rfl

theorem readTableOf_eq_none {a : Byte} (h : 8 ≤ a.toNat) : readTableOf a = none := by
  cases ht : readTableOf a with
  | none => rfl
  | some t =>
    rw [readTableOf_eq_some.mp ht, byte_toNat] at h <;> cases t <;> simp [ReadTable.code] at *

theorem readTableOf_listed (a : Byte) (t : ReadTable) : readTableOf a = some t ↔ (a, t) ∈
    [(0, ReadTable.station), (1, .slot), (2, .element), (3, .rule), (4, .line), (5, .field), (6, .gate), (7, .link)] := by
  rw [readTableOf_eq_some]
  cases t <;> simp [ReadTable.code, byte]

theorem ReadTable.code_last_listed (t : ReadTable) : (t, t.code, t.last) ∈ [(ReadTable.station, 0, 255), (.slot, 1, 31),
    (.element, 2, 47), (.rule, 3, 47), (.line, 4, 15), (.field, 5, 3), (.gate, 6, 0), (.link, 7, 1)] := by
  cases t <;> decide

theorem Presence.code_listed (p : Presence) : (p, p.code, p.causeCode) ∈ [(Presence.unknown, 0, 0), (.present, 1, 0),
    (.absent, 2, 0), (.faulted .mismatch, 3, 1), (.faulted .fault, 3, 2), (.faulted .timeout, 3, 3),
    (.faulted .safeRefused, 3, 4)] := by
  cases p with
  | unknown | present | absent => decide
  | faulted c => cases c <;> decide

/-! ### The two commands (R181 to R183) -/

section
variable {s : State} {f : Frame} {rest : List Frame} {a b : Byte} {t : ReadTable} {n : Nat}

/-- Reading does not depend on what the receive store holds. -/
theorem State.taken_readData (s : State) (rest : List Frame) (t : ReadTable) (n : Nat) :
    (s.taken rest).readData t n = [byte t.code, byte n] ++ s.entryAt t n := by
  cases t <;> rfl

theorem exec_read_unknown (h : CommandReady s f rest 0x60 [a, b]) (ha : 8 ≤ a.toNat) :
    exec .read s = .next (s.replied f rest 0x60 (.refused .range)) :=
  congrArg _ (h.refused rfl runRead (by simp only [runRead, readTableOf_eq_none ha]))

theorem exec_read_beyond (h : CommandReady s f rest 0x60 [a, b]) (ht : readTableOf a = some t) (hb : t.last < b.toNat) :
    exec .read s = .next (s.replied f rest 0x60 (.refused .range)) :=
  congrArg _ (h.refused rfl runRead (by simp only [runRead, ht, hb, if_true]))

theorem exec_read (h : CommandReady s f rest 0x60 [a, b]) (ht : readTableOf a = some t) (hb : b.toNat ≤ t.last) :
    exec .read s = .next (({ s with mgmt := { s.mgmt with cursor := some (t, b.toNat) } }).replied f rest 0x60
      (.done ([byte t.code, byte b.toNat] ++ s.entryAt t b.toNat))) :=
  congrArg _ (h.done (t := (s.taken rest).setCursor t b.toNat) rfl runRead
    (by simp only [runRead, ht, Nat.not_lt.mpr hb, if_false, State.taken_readData]))

theorem exec_readNext_noCursor (h : CommandReady s f rest 0x61 []) (hc : s.mgmt.cursor = none) :
    exec .readNext s = .next (s.replied f rest 0x61 (.refused .noCursor)) :=
  congrArg _ (h.refused rfl runReadNext (by simp only [runReadNext, State.taken, hc]))

theorem exec_readNext_end (h : CommandReady s f rest 0x61 []) (hc : s.mgmt.cursor = some (t, n)) (hn : t.last ≤ n) :
    exec .readNext s = .next (s.replied f rest 0x61 (.refused .tableEnd)) :=
  congrArg _ (h.refused rfl runReadNext (by simp only [runReadNext, State.taken, hc, hn, if_true]))

theorem exec_readNext (h : CommandReady s f rest 0x61 []) (hc : s.mgmt.cursor = some (t, n)) (hn : n < t.last) :
    exec .readNext s = .next (({ s with mgmt := { s.mgmt with cursor := some (t, n + 1) } }).replied f rest 0x61
      (.done ([byte t.code, byte (n + 1)] ++ s.entryAt t (n + 1)))) := by
  have hc' : (s.taken rest).mgmt.cursor = some (t, n) := hc
  exact congrArg _ (h.done (t := (s.taken rest).setCursor t (n + 1)) rfl runReadNext
    (by simp only [runReadNext, hc', Nat.not_le.mpr hn, if_false, State.taken_readData]))

end

/-! ### STATION and SLOT entries (R20, R184) -/

section
variable {st : Station} {stations : List Station} {a : Byte}

theorem Station.matchesSource_none (h : ¬ st.Matches a) : st.matchesSource a = none := by
  obtain ⟨ha, ht⟩ := not_or.mp h
  rw [Station.matchesSource, if_neg ha]
  exact if_neg ht

theorem Station.matchesSource_some (h : st.Matches a) :
    st.matchesSource a = some (if a = st.addr then .primary else .twin) := by
  unfold Station.matchesSource
  split_ifs with ha ht
  · rfl
  · rfl
  · exact absurd h (not_or.mpr ⟨ha, ht⟩)

theorem findStation_none (h : ∀ x ∈ stations, ¬ x.Matches a) : findStation stations a = none :=
  List.findSome?_eq_none_iff.mpr fun x hx => by rw [Station.matchesSource_none (h x hx)]; rfl

theorem findStation_only (hm : st ∈ stations) (h : st.Matches a) (ho : ∀ x ∈ stations, x.Matches a → x = st) :
    findStation stations a = some (st, if a = st.addr then .primary else .twin) := by
  cases hf : findStation stations a with
  | none =>
    have hn := List.findSome?_eq_none_iff.mp hf st hm
    rw [Station.matchesSource_some h] at hn
    cases hn
  | some found =>
    obtain ⟨x, hx, hfound⟩ := List.exists_of_findSome?_eq_some hf
    by_cases hxm : x.Matches a
    · obtain rfl := ho x hx hxm
      rw [Station.matchesSource_some hxm] at hfound
      exact hfound.symm
    · rw [Station.matchesSource_none hxm] at hfound
      cases hfound

end

section
variable (s : State)

theorem byte_of_toNat (a : Byte) : byte a.toNat = a := by
  simp [byte]

theorem State.stationEntry_none {a : Byte} (h : ∀ x ∈ s.stations, ¬ x.Matches a) : s.entryAt .station a.toNat = [0] := by
  rw [State.entryAt, byte_of_toNat, State.stationEntry, findStation_none h]
  rfl

theorem State.stationEntry_only {a : Byte} {st : Station} (hm : st ∈ s.stations) (h : st.Matches a)
    (ho : ∀ x ∈ s.stations, x.Matches a → x = st) :
    s.entryAt .station a.toNat = [1, st.addr, byte st.slot.val, byte ((match st.role with
      | .robot => 0
      | .driver => 1) + (if st.acceptTwin then 2 else 0) + if a = st.addr then 0 else 4)] := by
  rw [State.entryAt, byte_of_toNat, State.stationEntry, findStation_only hm h ho]
  have hrole : bit (st.role == .driver) = match st.role with
      | .robot => 0
      | .driver => 1 := by cases st.role <;> rfl
  have hradio : (4 * bit ((if a = st.addr then Radio.primary else .twin) == .twin)) = if a = st.addr then 0 else 4 := by
    split_ifs <;> rfl
  simp only [hrole, hradio, mul_bit]
  rfl

/-- The address of a slot's entry of a role, 0xFF for none (R184). -/
def State.roleByte (role : Role) (i : SlotId) : Byte :=
  match stationOf s.stations role i with
  | some st => st.addr
  | none => 0xFF#8

variable {s}

theorem State.roleByte_none {role : Role} {i : SlotId} (h : s.NoStation role i) : s.roleByte role i = 0xFF := by
  rw [State.roleByte, stationOf_none h]
  rfl

theorem State.roleByte_only {role : Role} {i : SlotId} {st : Station} (h : s.OnlyStation role i st) :
    s.roleByte role i = st.addr := by
  obtain ⟨hm, hr, hi, ho⟩ := h
  rw [State.roleByte, stationOf_only hm hr hi ho]

end

theorem State.slotEntry_eq (s : State) (i : SlotId) : s.entryAt .slot i.val =
    [if (s.slots.at i).team = 0 then 0 else 1] ++ be24 (s.slots.at i).team ++
      (match (s.slots.at i).placing with
        | none => [0xFF, 0]
        | some p => [byte p.field.val, byte (16 * p.alliance.code + p.position)]) ++
      [byte ((if (s.slots.at i).disabled then 1 else 0) + (if (s.slots.at i).bypassed then 2 else 0) +
        (if (s.slots.at i).silent then 4 else 0) + (if (s.slots.at i).throttled then 8 else 0) +
        (if (s.slots.at i).radio = .twin then 16 else 0) + (if (s.slots.at i).held = none then 0 else 32) +
        if (s.slots.at i).lastSeq = none then 0 else 64)] ++
      be16 (s.slots.at i).ceiling ++ [byte (s.slots.at i).refill] ++ be16 (s.slots.at i).credit ++
      [((s.slots.at i).held.map (·.seq)).getD 0, (s.slots.at i).lastSeq.getD 0] ++ be16 (s.slots.at i).age ++
      [byte (s.slots.at i).outstanding, s.roleByte .robot i, s.roleByte .driver i] := by
  rw [State.entryAt, Fin.ofNat_val_eq_self, State.slotEntry]
  have hteam : byte (bit ((s.slots.at i).team != 0)) = if (s.slots.at i).team = 0 then 0 else 1 := by
    split_ifs with h <;> simp [h, bit] <;> rfl
  simp only [hteam, mul_bit, beq_iff_eq, Option.isSome_iff_ne_none, ne_eq, ite_not]
  cases (s.slots.at i).placing <;> cases (s.slots.at i).held <;> rfl

/-! ### ELEMENT and RULE entries (R118, R148, R184) -/

theorem claimBytes_padded {cs : List Claim} (h : cs.length ≤ 4) :
    (cs.flatMap Claim.bytes ++ List.replicate 12 (0 : Byte)).take 12 =
      cs.flatMap Claim.bytes ++ List.replicate (3 * (4 - cs.length)) 0 := by
  have hl : (cs.flatMap Claim.bytes).length = 3 * cs.length := by
    rw [List.length_flatMap]
    simp [Claim.bytes, Nat.mul_comm]
  rw [List.take_append, List.take_of_length_le (by omega), List.take_replicate, hl]
  congr 2
  omega

theorem Table.toList_eq {n : Nat} {α : Type} (t : Table n α) : t.toList = (allOf n).map t.at := by
  refine List.ext_getElem (by simp [allOf]) fun k h₁ h₂ => ?_
  simp [allOf, Table.at]

theorem holdBytes_eq (x : Option Hold) : holdBytes x = match x with
    | none => [0xFF, 0, 0, 0, 0, 0, 0]
    | some h => [byte h.slot.val, h.tag] ++ be16 h.remaining ++
      match h.next with
      | none => [0, 0, 0]
      | some n => [byte (0x80 + n.action.toNat), n.argument, n.tag] := by
  cases x <;> rfl

theorem actBytes_eq (x : Option Actuation) : actBytes x = match x with
    | none => [0xFF, 0, 0, 0, 0, 0]
    | some a => [byte a.slot.val, byte (a.request.action.toNat + 8 * a.state.code + if a.sent then 32 else 0),
        a.request.argument, a.request.tag] ++ be16 a.running := by
  cases x with
  | none => rfl
  | some a => simp only [actBytes, mul_bit]

theorem releaseBytes_eq (x : Option LastRelease) : releaseBytes x = match x with
    | none => [0xFF, 0, 0]
    | some r => [byte r.slot.val] ++ be16 r.since := by
  cases x <;> rfl

theorem ruleBytes_eq (r : Option ScoreRule) : ruleBytes r = match r with
    | none => [0xFF, 0, 0, 0]
    | some r => [byte r.beneficiary.code, byte r.auto, byte r.teleop, byte r.endgame] := by
  cases r <;> rfl

section
variable (s : State) (e : ElementId)

theorem State.elementEntry_empty (h : s.loadedAt e = none) :
    s.entryAt .element e.val = [0] ++ be16 (s.elements.at e).eventCount := by
  have h' : (s.elements.at e).loaded = none := h
  rw [State.entryAt, Fin.ofNat_val_eq_self]
  simp only [State.elementEntry, h']
  rfl

theorem State.elementEntry_loaded {l : Loaded} (h : s.loadedAt e = some l) (hc : l.claims.length ≤ 4) :
    s.entryAt .element e.val =
      [1, l.entry.busAddr,
        byte (l.entry.field.val + 4 * l.entry.owner.code + 16 * l.entry.kind.code + 64 * l.entry.discipline.code),
        l.entry.actionMask, byte (l.entry.phaseMask.toNat + 16 * l.claims.length)] ++
      be16 l.entry.holdLimit ++ be16 l.entry.coolDown ++ be16 l.entry.actionLimit ++
      [byte (l.presence.code + 4 * l.presence.causeCode + 32 * (l.lastAlliance.map Alliance.code).getD 3),
        byte (l.misses + 4 * l.retries + (if l.actToggle then 32 else 0) + if l.fetchToggle then 64 else 0)] ++
      be16 (s.elements.at e).eventCount ++ l.claims.flatMap Claim.bytes ++
      List.replicate (3 * (4 - l.claims.length)) 0 ++ holdBytes l.hold ++ actBytes l.act ++ releaseBytes l.lastRelease := by
  have h' : (s.elements.at e).loaded = some l := h
  rw [State.entryAt, Fin.ofNat_val_eq_self]
  simp only [State.elementEntry, h', claimBytes_padded hc, mul_bit, ← List.append_assoc]
  cases l.lastAlliance <;> rfl

theorem State.ruleEntry_none (h : ∀ k, (s.elements.at e).rules.at k = none) : s.entryAt .rule e.val = [0] := by
  rw [State.entryAt, Fin.ofNat_val_eq_self]
  simp only [State.ruleEntry, Table.toList_eq]
  simp [h]
  rfl

theorem State.ruleEntry_some (h : ∃ k, (s.elements.at e).rules.at k ≠ none) :
    s.entryAt .rule e.val = [(1 : Byte)] ++ (allOf 4).flatMap fun k => ruleBytes ((s.elements.at e).rules.at k) := by
  obtain ⟨k, hk⟩ := h
  have hn : ¬ (((allOf 4).map (s.elements.at e).rules.at).all Option.isNone = true) := by
    rw [List.all_map, List.all_eq_true]
    exact fun hall => hk (by simpa using hall k (mem_allOf k))
  rw [State.entryAt, Fin.ofNat_val_eq_self]
  simp only [State.ruleEntry, Table.toList_eq, if_neg hn, List.flatMap_map]
  rfl

end

/-! ### LINE and FIELD entries, and the settings entry (R79, R84, R184, R187) -/

section
variable (s : State)

theorem State.lineEntry_eq (n : LineId) : s.entryAt .line n.val = [1,
    byte ((s.lines.at n).role.code + 8 * Level.code (s.lines.at n).activeLevel +
      if (s.lines.at n).filterOn then 16 else 0),
    byte (Level.code (s.lines.at n).filtered +
      if (s.lines.at n).edge = true ∧ ((s.lines.at n).role = .stop ∨ (s.lines.at n).role = .hallStop) then 2 else 0)] := by
  rw [State.entryAt, Fin.ofNat_val_eq_self]
  simp only [State.lineEntry, LineRecord.recordByte, mul_bit, LineRecord.flag_iff]
  rfl

theorem State.fieldEntry_eq (g : FieldId) : s.entryAt .field g.val =
    [(1 : Byte)] ++ be16 (s.fields.at g).number ++ be16 (s.fields.at g).durA ++
      be16 (s.fields.at g).durP ++ be16 (s.fields.at g).durT ++ be16 (s.fields.at g).durE ++
      (allOf 6).map (fun k => (((s.fields.at g).list.at k).map fun i => byte i.val).getD 0xFF) ++
      [byte (s.fields.at g).phase.code, stopByte (s.fields.at g).stopped] ++
      be24 (s.fields.at g).remaining ++ be16 (s.fields.at g).grace ++
      (s.tallies.at g).east.bytes ++ (s.tallies.at g).west.bytes ++
      be16 (s.tallies.at g).eastCount ++ be16 (s.tallies.at g).westCount ++
      [byte ((if (s.tallies.at g).eastCap then 1 else 0) + (if (s.tallies.at g).westCap then 2 else 0) +
        (if summaryMark s.lines g then 4 else 0) + if (s.fields.at g).aborted then 8 else 0)] ++
      match (s.fields.at g).result with
      | none => [0, 0, 0, 0, 0, 0, 0]
      | some r => [byte (0x80 + (if r.eastCap then 1 else 0) + (if r.westCap then 2 else 0) +
          if r.aborted then 8 else 0)] ++ be16 r.number ++ r.east.bytes ++ r.west.bytes := by
  have hlist : (s.fields.at g).list.toList.map (fun p => orNone (p.map (·.val))) =
      (allOf 6).map (fun k => (((s.fields.at g).list.at k).map fun i => byte i.val).getD 0xFF) := by
    rw [Table.toList_eq, List.map_map]
    refine List.map_congr_left fun k _ => ?_
    rw [Function.comp_apply]
    cases (s.fields.at g).list.at k <;> rfl
  rw [State.entryAt, Fin.ofNat_val_eq_self]
  simp only [State.fieldEntry, hlist, mul_bit]
  cases (s.fields.at g).result <;> rfl

end

/-- Settles O25: the two commands, the code tables, and the entry of each table. -/
theorem readCommands : Obligations.ReadCommands := by
  refine ⟨fun s f rest a b h => exec_read_unknown h, fun s f rest a b t h ht => ⟨exec_read h ht, exec_read_beyond h ht⟩,
    fun s f rest h => ⟨exec_readNext_noCursor h, fun t n => exec_readNext_end h, fun t n => exec_readNext h⟩,
    readTableOf_listed, ReadTable.code_last_listed, ?codes,
    fun s => ⟨fun a => ⟨s.stationEntry_none, fun st => s.stationEntry_only⟩,
      fun i => ⟨s.roleByte .robot i, s.roleByte .driver i, State.roleByte_none, fun st => State.roleByte_only,
        State.roleByte_none, fun st => State.roleByte_only, s.slotEntry_eq i⟩,
      fun e => ⟨s.elementEntry_empty e, fun l h hc => ?loaded, s.ruleEntry_none e, fun h => ?rules⟩, s.lineEntry_eq,
      fun g => ⟨summaryMark s.lines g, summaryMark_iff s.lines g, s.fieldEntry_eq g⟩, rfl, rfl, rfl, rfl⟩⟩
  case codes =>
    refine ⟨?_, ?_, ?_, ?_, ?_, ?_, Presence.code_listed, ?_, ?_, ?_, ?_, ?_, ?_, ?stop, Bcd.bytes_eq⟩
    case stop =>
      rintro (- | c)
      · rfl
      · cases c <;> rfl
    all_goals
      intro a
      cases a <;> decide
  case loaded =>
    rw [s.elementEntry_loaded e h hc, holdBytes_eq, actBytes_eq, releaseBytes_eq]
    rfl
  case rules =>
    refine (s.ruleEntry_some e h).trans ?_
    exact congrArg (fun g => [(1 : Byte)] ++ (allOf 4).flatMap g) (funext fun k => ruleBytes_eq _)

end Sys2Proof.Machine
end

section
/-! SUPPORT. What a slot has queued and holds, counted (R103), and the bounds of the records of slots and elements that every
procedure of the Element Arbiter keeps. -/

namespace Sys2Proof.Machine

open Sys2Proof

/-! ### Claims and holds, counted (R103) -/

/-- How many claims slot `i` has in an element's queue, and 1 more when it holds the element (R103). -/
def Loaded.workOf (l : Loaded) (i : SlotId) : Nat :=
  (l.claims.filter fun c => decide (c.slot = i)).length +
    match l.hold with
    | some h => if h.slot = i then 1 else 0
    | none => 0

/-- `Loaded.workOf` of what is kept of an element number; an empty entry has no claims and no hold. -/
def workOn (x : Option Loaded) (i : SlotId) : Nat :=
  match x with
  | none => 0
  | some l => l.workOf i

theorem State.workOf_eq_sum (s : State) (i : SlotId) : s.workOf i = ∑ e : ElementId, workOn (s.loadedAt e) i := by
  rw [Fin.sum_univ_def]
  rfl

theorem Loaded.workOf_eq_zero {l : Loaded} {i : SlotId} : l.workOf i = 0 ↔ l.freeOf i := by
  unfold Loaded.workOf Loaded.freeOf
  rw [Nat.add_eq_zero_iff, List.length_eq_zero_iff, List.filter_eq_nil_iff]
  refine and_congr (by simp) ?_
  cases l.hold <;> simp

theorem State.workOn_le (s : State) (e : ElementId) (i : SlotId) : workOn (s.loadedAt e) i ≤ s.workOf i := by
  rw [s.workOf_eq_sum]
  exact Finset.single_le_sum (f := fun e => workOn (s.loadedAt e) i) (fun _ _ => Nat.zero_le _) (Finset.mem_univ e)

/-- A change of one element changes a slot's work by what it changes there. -/
theorem State.workOf_change {s t : State} {e : ElementId} (h : ∀ k, k ≠ e → t.loadedAt k = s.loadedAt k) (i : SlotId) :
    t.workOf i + workOn (s.loadedAt e) i = s.workOf i + workOn (t.loadedAt e) i := by
  have hs : ∑ k ∈ Finset.univ.erase e, workOn (t.loadedAt k) i = ∑ k ∈ Finset.univ.erase e, workOn (s.loadedAt k) i :=
    Finset.sum_congr rfl fun k hk => by rw [h k (Finset.ne_of_mem_erase hk)]
  rw [t.workOf_eq_sum, s.workOf_eq_sum, ← Finset.add_sum_erase _ _ (Finset.mem_univ e),
    ← Finset.add_sum_erase _ (fun k => workOn (s.loadedAt k) i) (Finset.mem_univ e), hs]
  omega

theorem State.workOf_eq_zero {s : State} {i : SlotId} (h : ∀ e l, s.loadedAt e = some l → l.freeOf i) : s.workOf i = 0 := by
  rw [s.workOf_eq_sum]
  refine Finset.sum_eq_zero fun e _ => ?_
  cases hl : s.loadedAt e with
  | none => rfl
  | some l => exact Loaded.workOf_eq_zero.2 (h e l hl)

theorem State.workOf_congr {s t : State} {i : SlotId} (h : ∀ e, workOn (t.loadedAt e) i = workOn (s.loadedAt e) i) :
    t.workOf i = s.workOf i := by
  rw [t.workOf_eq_sum, s.workOf_eq_sum]
  exact Finset.sum_congr rfl fun e _ => h e

theorem Loaded.workOf_erase (l : Loaded) {c : Claim} (hc : c ∈ l.claims) (i : SlotId) :
    l.workOf i = Loaded.workOf { l with claims := l.claims.erase c } i + if i = c.slot then 1 else 0 := by
  have hp : c.slot = i → 0 < l.claims.countP fun c => decide (c.slot = i) :=
    fun h => List.countP_pos_iff.2 ⟨c, hc, by simpa using h⟩
  simp only [Loaded.workOf, ← List.countP_eq_length_filter, List.countP_erase, hc, true_and, decide_eq_true_eq,
    eq_comm (a := i)]
  by_cases hi : c.slot = i
  · have := hp hi
    simp only [hi, if_true]
    omega
  · simp only [hi, if_false]
    omega

/-! ### The bounds -/

/-- The bounds of the record of a loaded element, with whom it may work for: `permits i g` says that slot `i` may have claims
and holds on elements of field `g`. -/
structure Loaded.Ordered (permits : SlotId → FieldId → Prop) (l : Loaded) : Prop where
  claims : l.claims.length ≤ 4
  distinct : (l.claims.map (·.slot)).Nodup
  misses : l.misses ≤ 3
  retries : l.retries ≤ 3
  working : ∀ i, ¬ l.freeOf i → permits i l.entry.field

/-- The bounds of `State.RecordsBounded` that need no gate: with `permits` for the slots that may have claims and holds, they
stand also while the gate-off events of a change are still being taken (R27). -/
structure State.Ordered (permits : SlotId → FieldId → Prop) (s : State) : Prop where
  loaded : ∀ e l, s.loadedAt e = some l → l.Ordered permits
  outstanding : ∀ i, (s.slots.at i).outstanding = s.workOf i ∧ (s.slots.at i).outstanding ≤ 2
  credit : ∀ i, (s.slots.at i).credit ≤ (s.slots.at i).ceiling
  safeQueue : s.bus.safeQueue.Nodup

/-- An update of an element's record that keeps its bounds and everyone's work on it. -/
def Loaded.Steady (permits : SlotId → FieldId → Prop) (l m : Loaded) : Prop :=
  (l.Ordered permits → m.Ordered permits) ∧ ∀ i, m.workOf i = l.workOf i

section
variable {P Q : SlotId → FieldId → Prop} {s t : State} {e : ElementId} {l m : Loaded}

theorem Loaded.Ordered.shrinks (h : l.Ordered P) (k : l.Shrinks m) (hb : m.busSide = l.busSide) : m.Ordered P where
  claims := k.claims.length_le.trans h.claims
  distinct := k.nodup h.distinct
  misses := (congrArg BusSide.misses hb).trans_le h.misses
  retries := (congrArg BusSide.retries hb).trans_le h.retries
  working i hi := k.entry ▸ h.working i fun hf => hi (k.freeOf hf)

theorem Loaded.Ordered.mono (h : l.Ordered P) (hq : ∀ i, ¬ l.freeOf i → P i l.entry.field → Q i l.entry.field) :
    l.Ordered Q :=
  { h with working := fun i hi => hq i hi (h.working i hi) }

/-- An update that touches neither claims, hold nor entry, and keeps the miss and retry counts in their bounds. -/
theorem Loaded.Steady.of_kept (hc : m.claims = l.claims) (hh : m.hold = l.hold) (he : m.entry = l.entry)
    (hm : l.misses ≤ 3 → m.misses ≤ 3) (hr : l.retries ≤ 3 → m.retries ≤ 3) : l.Steady P m := by
  have hw (i : SlotId) : m.workOf i = l.workOf i := by rw [Loaded.workOf, hc, hh]; rfl
  refine ⟨fun h => ⟨hc ▸ h.claims, hc ▸ h.distinct, hm h.misses, hr h.retries, fun i hi => ?_⟩, hw⟩
  rw [he]
  refine h.working i fun hf => hi ?_
  rwa [← Loaded.workOf_eq_zero, hw, Loaded.workOf_eq_zero]

/-- What is kept of a hold is its slot: its next action, its remaining time and its tag are no one's work. -/
theorem Loaded.workOf_hold {h h' : Hold} (hh : l.hold = some h) (hs : h'.slot = h.slot) (i : SlotId) :
    Loaded.workOf { l with hold := some h' } i = l.workOf i := by
  simp only [Loaded.workOf, hh, hs]

theorem Loaded.Steady.hold {h h' : Hold} (hh : l.hold = some h) (hs : h'.slot = h.slot) :
    l.Steady P { l with hold := some h' } := by
  refine ⟨fun k => ⟨k.claims, k.distinct, k.misses, k.retries, fun i hi => k.working i fun hf => hi ?_⟩,
    Loaded.workOf_hold hh hs⟩
  rwa [← Loaded.workOf_eq_zero, Loaded.workOf_hold hh hs, Loaded.workOf_eq_zero]

theorem Loaded.Steady.trans {n : Loaded} (h : l.Steady P m) (k : m.Steady P n) : l.Steady P n :=
  ⟨k.1 ∘ h.1, fun i => (k.2 i).trans (h.2 i)⟩

namespace State.Ordered

theorem mono (h : s.Ordered P) (hq : ∀ e l i, s.loadedAt e = some l → ¬ l.freeOf i → P i l.entry.field → Q i l.entry.field) :
    s.Ordered Q :=
  { h with loaded := fun e l hl => (h.loaded e l hl).mono fun i => hq e l i hl }

theorem same (h : s.Ordered P) (hl : ∀ e, t.loadedAt e = s.loadedAt e) (hs : t.slots = s.slots)
    (hq : t.bus.safeQueue = s.bus.safeQueue) : t.Ordered P where
  loaded e l hm := h.loaded e l (hl e ▸ hm)
  outstanding i := by
    rw [hs, State.workOf_congr fun e => congrArg (workOn · i) (hl e)]
    exact h.outstanding i
  credit i := hs ▸ h.credit i
  safeQueue := hq ▸ h.safeQueue

/-- One element's record and the outstanding counts change in step. -/
theorem change (h : s.Ordered P) (ho : ∀ k, k ≠ e → t.loadedAt k = s.loadedAt k) (hl : s.loadedAt e = some l)
    (hm : t.loadedAt e = some m) (hlm : m.Ordered P)
    (hw : ∀ i, (t.slots.at i).outstanding + l.workOf i = (s.slots.at i).outstanding + m.workOf i)
    (hle : ∀ i, (t.slots.at i).outstanding ≤ 2)
    (hc : ∀ i, (t.slots.at i).credit ≤ (t.slots.at i).ceiling) (hq : t.bus.safeQueue = s.bus.safeQueue) : t.Ordered P where
  loaded k n hn := by
    by_cases hk : k = e
    · subst hk
      obtain rfl : m = n := Option.some.inj (hm.symm.trans hn)
      exact hlm
    · exact h.loaded k n (ho k hk ▸ hn)
  outstanding i := by
    have hs := State.workOf_change ho i
    simp only [hl, hm, workOn] at hs
    have := (h.outstanding i).1
    have := hw i
    exact ⟨by omega, hle i⟩
  credit := hc
  safeQueue := hq ▸ h.safeQueue

/-- A procedure of the Element Arbiter on one element that moves work from claims to holds. -/
theorem takes {K : Verdict → Prop} (h : s.Ordered P) (k : TakesOn K e s t) (hs : t.slots = s.slots)
    (hw : ∀ l m i, s.loadedAt e = some l → t.loadedAt e = some m → m.workOf i = l.workOf i) : t.Ordered P := by
  cases hl : s.loadedAt e with
  | none =>
    have hn : ∀ k, t.loadedAt k = s.loadedAt k := fun j => by
      by_cases hj : j = e
      · subst hj
        have := k.keeps.busSide j
        rw [hl] at this ⊢
        simpa using this
      · exact k.others j hj
    exact h.same hn hs (congrArg Bus.safeQueue k.keeps.bus)
  | some l =>
    obtain ⟨m, hm, hlm⟩ := k.shrinks l hl
    have hb : m.busSide = l.busSide := by simpa [hl, hm] using k.keeps.busSide e
    refine h.change k.others hl hm ((h.loaded e l hl).shrinks hlm hb) (fun i => by rw [hw l m i hl hm, hs]) (fun i => ?_)
      (fun i => hs ▸ h.credit i) (congrArg Bus.safeQueue k.keeps.bus)
    rw [hs]
    exact (h.outstanding i).2

/-! ### Updates of the state -/

theorem updLoaded (h : s.Ordered P) (e : ElementId) {g : Loaded → Loaded}
    (hg : ∀ l, s.loadedAt e = some l → l.Steady P (g l)) : (s.updLoaded e g).Ordered P := by
  cases hl : s.loadedAt e with
  | none =>
    have hn : ∀ k, (s.updLoaded e g).loadedAt k = s.loadedAt k := fun k => by
      rw [State.updLoaded_loadedAt]
      split
      · next hk => rw [hk, hl]; rfl
      · rfl
    exact h.same hn rfl rfl
  | some l =>
    refine h.change (fun k hk => State.updLoaded_loadedAt_other s g hk) hl (m := g l) (by simp [hl])
      ((hg l hl).1 (h.loaded e l hl)) (fun i => by rw [(hg l hl).2 i]; rfl) (fun i => (h.outstanding i).2) h.credit rfl

/-- An element number on which no one has work is written, with a record on which no one has work. -/
theorem updElement (h : s.Ordered P) {e : ElementId} {g : Element → Element}
    (hs : ∀ l, s.loadedAt e = some l → ∀ i, l.freeOf i)
    (hg : ∀ m, (g (s.elements.at e)).loaded = some m → m.Ordered P ∧ ∀ i, m.freeOf i) : (s.updElement e g).Ordered P := by
  have he (k : ElementId) :
      (s.updElement e g).loadedAt k = if k = e then (g (s.elements.at e)).loaded else s.loadedAt k := by
    rw [State.loadedAt_def, State.updElement_elements, Table.at_put]
    split <;> rfl
  refine ⟨fun k l hl => ?_, fun i => ?_, h.credit, h.safeQueue⟩
  · rw [he] at hl
    split at hl
    · exact (hg l hl).1
    · exact h.loaded k l hl
  · rw [State.workOf_congr (s := s) fun k => ?_]
    · exact h.outstanding i
    · rw [he]
      split
      · next hk =>
        have h0 : workOn (g (s.elements.at e)).loaded i = 0 := by
          cases hm : (g (s.elements.at e)).loaded with
          | none => rfl
          | some m => exact Loaded.workOf_eq_zero.2 ((hg m hm).2 i)
        have h1 : workOn (s.loadedAt k) i = 0 := by
          subst hk
          cases hl : s.loadedAt k with
          | none => rfl
          | some l => exact Loaded.workOf_eq_zero.2 (hs l hl i)
        rw [h0, h1]
      · rfl

theorem updSlot (h : s.Ordered P) (i : SlotId) {g : Slot → Slot} (ho : ∀ x, (g x).outstanding = x.outstanding)
    (hc : ∀ x, x.credit ≤ x.ceiling → (g x).credit ≤ (g x).ceiling) : (s.updSlot i g).Ordered P where
  loaded := h.loaded
  outstanding j := by
    have hj : ((s.updSlot i g).slots.at j).outstanding = (s.slots.at j).outstanding := by
      rw [State.updSlot_slots, Table.at_put]
      split
      · next hj => rw [ho, hj]
      · rfl
    rw [hj]
    exact h.outstanding j
  credit j := by
    rw [State.updSlot_slots, Table.at_put]
    split
    · exact hc _ (h.credit i)
    · exact h.credit j
  safeQueue := h.safeQueue

theorem queueVerdict (h : s.Ordered P) (i : SlotId) (b : Byte) (o : Outcome) (tag : Byte) :
    (s.queueVerdict i b o tag).Ordered P := { h with }

theorem verdictFor (h : s.Ordered P) (i : SlotId) (e : ElementId) (o : Outcome) (tag : Byte) :
    (s.verdictFor i e o tag).Ordered P := { h with }

theorem queueNotice (h : s.Ordered P) (c : NoticeContent) : (s.queueNotice c).Ordered P := { h with }

theorem setUrgent (h : s.Ordered P) (f : FieldId) : (s.setUrgent f).Ordered P := { h with }

theorem updField (h : s.Ordered P) (f : FieldId) (g : MatchRecord → MatchRecord) : (s.updField f g).Ordered P := { h with }

theorem foldl {α : Type} {f : State → α → State} (hf : ∀ {s}, s.Ordered P → ∀ a, (f s a).Ordered P) (h : s.Ordered P)
    (l : List α) : (l.foldl f s).Ordered P := by
  induction l generalizing s with
  | nil => exact h
  | cons a l ih => exact ih (hf h a)

/-- A piece of a slot's work on an element ends, and its outstanding count falls by 1 (R103). -/
theorem drop (h : s.Ordered P) (hl : s.loadedAt e = some l) {g : Loaded → Loaded} (hg : (g l).Ordered P) (j : SlotId)
    (hw : ∀ i, l.workOf i = (g l).workOf i + if i = j then 1 else 0) : ((s.updLoaded e g).lessOutstanding j).Ordered P := by
  have hj (i : SlotId) : (((s.updLoaded e g).lessOutstanding j).slots.at i).outstanding + (if i = j then 1 else 0) =
      (s.slots.at i).outstanding := by
    have hi := (h.outstanding i).1
    have := s.workOn_le e i
    simp only [hl, workOn, hw i] at this
    rw [State.lessOutstanding_slots, Table.at_put]
    split
    · next hij => subst hij; simp_all; omega
    · rfl
  refine h.change (m := g l) (fun k hk => ?_) hl (by simp [hl]) hg (fun i => by have := hj i; have := hw i; omega)
    (fun i => ?_) (fun i => ?_) rfl
  · exact State.updLoaded_loadedAt_other s g hk
  · have := hj i
    have := (h.outstanding i).2
    omega
  · rw [State.lessOutstanding_slots, Table.at_put]
    split
    · exact h.credit j
    · exact h.credit i

/-- A slot's work on an element rises by one piece, and so does its outstanding count, below 2 (R92, R103). -/
theorem add (h : s.Ordered P) (hl : s.loadedAt e = some l) {g : Loaded → Loaded} (hg : (g l).Ordered P) {j : SlotId}
    (hj : (s.slots.at j).outstanding < 2) (hw : ∀ i, (g l).workOf i = l.workOf i + if i = j then 1 else 0) :
    ((s.moreOutstanding j).updLoaded e g).Ordered P := by
  have hs (i : SlotId) : (((s.moreOutstanding j).updLoaded e g).slots.at i).outstanding =
      (s.slots.at i).outstanding + if i = j then 1 else 0 := by
    rw [State.updLoaded_slots, State.moreOutstanding, State.updSlot_slots, Table.at_put]
    split
    · next hij => subst hij; rfl
    · rfl
  refine h.change (m := g l) (fun k hk => ?_) hl (by simp [hl]) hg (fun i => by have := hs i; have := hw i; omega)
    (fun i => ?_) (fun i => ?_) rfl
  · rw [State.updLoaded_loadedAt_other _ g hk, State.moreOutstanding_loadedAt]
  · rw [hs i]
    split
    · next hij => subst hij; omega
    · exact (h.outstanding i).2
  · rw [State.updLoaded_slots, State.moreOutstanding, State.updSlot_slots, Table.at_put]
    split
    · exact h.credit j
    · exact h.credit i

end State.Ordered

end

end Sys2Proof.Machine
end

section
/-! SUPPORT. Every procedure of the Element Arbiter and of the Element Bus Master keeps the bounds of the records
(`State.Ordered`). -/

namespace Sys2Proof.Machine

open Sys2Proof

theorem State.loadedAt_of_bind {s : State} {e : ElementId} {α : Type} {g : Loaded → Option α} {x : α}
    (h : (s.loadedAt e).bind g = some x) : ∃ l, s.loadedAt e = some l ∧ g l = some x :=
  Option.bind_eq_some_iff.1 h

theorem State.setPresence_presence (s : State) (e : ElementId) (p : Presence) {m : Loaded}
    (hm : (s.setPresence e p).loadedAt e = some m) : m.presence = p := by
  have hu : (s.setPresence e p).loadedAt e = (s.loadedAt e).map fun l => l.withPresence p s.timing.sensor := by
    unfold State.setPresence
    split <;> simp
  rw [hu, Option.map_eq_some_iff] at hm
  obtain ⟨l, -, rfl⟩ := hm
  rfl

namespace State.Ordered

variable {P : SlotId → FieldId → Prop} {s : State} {e : ElementId} {l : Loaded}

/-- An update that touches neither claims, hold, entry nor the miss and retry counts. -/
theorem updQuiet (h : s.Ordered P) (e : ElementId) {g : Loaded → Loaded} (hc : ∀ l, (g l).claims = l.claims)
    (hh : ∀ l, (g l).hold = l.hold) (hb : ∀ l, (g l).entry = l.entry ∧ (g l).misses = l.misses)
    (hr : ∀ l, l.retries ≤ 3 → (g l).retries ≤ 3) : (s.updLoaded e g).Ordered P :=
  h.updLoaded e fun l _ => .of_kept (hc l) (hh l) (hb l).1 (fun hm => (hb l).2.trans_le hm) (hr l)

/-! ### Grants, the end of a hold, withdrawals (R95, R99, R101, R104) -/

theorem grantSelection (h : s.Ordered P) (e : ElementId) : (s.grantSelection e).Ordered P := by
  refine h.takes (.grantSelection (P := Taking .byRobot) s e fun _ hv => .inl hv) (s.grantSelection_slots e)
    fun l m i hl hm => ?_
  rcases s.grantSelection_cases e with he | ⟨l', c, hl', ⟨hh, -⟩, hc, -, he⟩
  · rw [he, hl] at hm
    rw [Option.some.inj hm]
  · obtain rfl : l' = l := Option.some.inj (hl'.symm.trans hl)
    obtain ⟨m', x, hm', -, hmc, hmx, hx⟩ := State.granted_same hl c
    obtain rfl : m' = m := Option.some.inj (hm'.symm.trans (he ▸ hm))
    rw [l'.workOf_erase hc]
    simp only [Loaded.workOf, hmc, hmx, hh, hx, Nat.add_zero, eq_comm (a := i)]

theorem dropNext (h : s.Ordered P) (e : ElementId) (x : Hold) : (s.dropNext e x).Ordered P := by
  unfold State.dropNext
  split
  · exact h.verdictFor _ _ _ _
  · exact h

theorem releaseHold (h : s.Ordered P) (hl : s.loadedAt e = some l) {x : Hold} (hx : l.hold = some x) (r : Reason) :
    (s.releaseHold e x r).Ordered P := by
  have hs : l.Shrinks (l.released x.slot (s.slotAlliance x.slot)) :=
    ⟨rfl, .refl _, fun _ hy => (nomatch hy), fun _ ha _ => ha⟩
  have hd := h.drop hl (g := fun l => l.released x.slot (s.slotAlliance x.slot)) ((h.loaded e l hl).shrinks hs rfl) x.slot
    fun i => by simp only [Loaded.workOf, Loaded.released, hx, Nat.add_zero, eq_comm (a := i)]
  exact dropNext (s := ((s.lessOutstanding x.slot).verdictFor x.slot e (.released r) x.tag).updLoaded e fun l =>
    l.released x.slot (s.slotAlliance x.slot)) { hd with } e x

theorem withoutAct (h : s.Ordered P) (e : ElementId) (n : Nat) : (s.updLoaded e fun l => l.withoutAct n).Ordered P :=
  h.updQuiet e (fun _ => rfl) (fun _ => rfl) (fun _ => ⟨rfl, rfl⟩) fun _ => id

theorem cancelUnsent (h : s.Ordered P) (e : ElementId) (i : SlotId) : (s.cancelUnsent e i).Ordered P := by
  unfold State.cancelUnsent
  split
  · exact h
  · split
    · exact h
    · split
      · exact (h.withoutAct e _).verdictFor _ _ _ _
      · exact h

theorem selectIfFree (h : s.Ordered P) (e : ElementId) : (s.selectIfFree e).Ordered P := by
  unfold State.selectIfFree
  split
  · exact h
  · split
    · exact h.grantSelection e
    · exact h

theorem endHold (h : s.Ordered P) (e : ElementId) (r : Reason) : (s.endHold e r).Ordered P := by
  unfold State.endHold
  split
  · exact h
  · next x hx =>
    obtain ⟨l, hl, hx⟩ := State.loadedAt_of_bind hx
    exact ((h.releaseHold hl hx r).cancelUnsent e _).selectIfFree e

theorem eraseClaim (h : s.Ordered P) (hl : s.loadedAt e = some l) {c : Claim} (hc : c ∈ l.claims) :
    ((s.updLoaded e fun l => { l with claims := l.claims.erase c }).lessOutstanding c.slot).Ordered P := by
  have hs : l.Shrinks { l with claims := l.claims.erase c } :=
    ⟨rfl, List.erase_sublist, fun x hx => .inl ⟨x, hx, rfl⟩, fun _ ha _ => ha⟩
  exact h.drop hl ((h.loaded e l hl).shrinks hs rfl) c.slot (l.workOf_erase hc)

theorem withdraw (h : s.Ordered P) (hl : s.loadedAt e = some l) {c : Claim} (hc : c ∈ l.claims) (r : Reason) :
    (s.withdraw e c r).Ordered P :=
  ((h.eraseClaim hl hc).verdictFor _ _ _ _).grantSelection e

theorem withdrawClaimOf (h : s.Ordered P) (i : SlotId) (r : Reason) (e : ElementId) :
    (s.withdrawClaimOf i r e).Ordered P := by
  unfold State.withdrawClaimOf
  split
  · next c hc =>
    obtain ⟨l, hl, hc⟩ := State.loadedAt_of_bind hc
    exact h.withdraw hl (List.mem_of_find?_eq_some hc) r
  · exact h

theorem takeAway (h : s.Ordered P) (i : SlotId) (r : Reason) (e : ElementId) : (s.takeAway i r e).Ordered P := by
  have hw := h.withdrawClaimOf i r e
  unfold State.takeAway State.endHoldOf
  split
  · split
    · exact hw.endHold e r
    · exact hw
  · exact hw

theorem slotEvent (h : s.Ordered P) (i : SlotId) (r : Reason) : (s.slotEvent i r).Ordered P :=
  h.foldl (fun h e => h.takeAway i r e) _

/-- The whole queue is withdrawn, where no withdrawal makes a grant: the element is not PRESENT, or no claim of the queue is
eligible (R101, R104). -/
theorem withdrawAll (h : s.Ordered P) (e : ElementId) (r : Reason)
    (hq : ∀ l, s.loadedAt e = some l → l.presence ≠ .present ∨ ∀ c ∈ l.claims, ¬ s.MayHold l.entry c) :
    (s.withdrawAll e r).Ordered P := by
  unfold State.withdrawAll
  split
  · exact h
  · next l hl =>
    replace hq := hq l hl
    generalize hcs : l.claims = cs at hq ⊢
    induction cs generalizing s l with
    | nil => exact h
    | cons c cs ih =>
      have hc : c ∈ l.claims := hcs ▸ List.mem_cons_self
      have hl' : ((s.updLoaded e fun l => { l with claims := l.claims.erase c }).lessOutstanding c.slot).loadedAt e =
          some { l with claims := cs } := by simp [hl, hcs]
      have hk : ArbiterKeeps s
          ((s.updLoaded e fun l => { l with claims := l.claims.erase c }).lessOutstanding c.slot) :=
        .trans (.updLoaded s e (fun l => { l with claims := l.claims.erase c }) fun _ => rfl) (.lessOutstanding _ _)
      have hq' : l.presence ≠ .present ∨ ∀ d ∈ cs, ¬ s.MayHold l.entry d :=
        hq.imp_right fun hd d hm => hd d (List.mem_cons_of_mem _ hm)
      have hw : s.withdraw e c r = ((s.updLoaded e fun l => { l with claims := l.claims.erase c }).lessOutstanding c.slot
          |>.verdictFor c.slot e (.withdrawn r) c.request.tag) := by
        refine State.grantSelection_still (l := { l with claims := cs }) hl' (hq'.imp_right fun hd d hm hmay => ?_)
        exact hd d hm ((hk.mayHold l.entry d).1 hmay)
      rw [List.foldl_cons]
      have hlw : (s.withdraw e c r).loadedAt e = some { l with claims := cs } := by rw [hw]; exact hl'
      refine ih (h.withdraw hl hc r) _ hlw rfl (hq'.imp_right fun hd d hm hmay => hd d hm ?_)
      exact ((ArbiterKeeps.withdraw s e c r).mayHold l.entry d).1 hmay

theorem phaseTest (h : s.Ordered P) {f : FieldId} {p : Phase} (hp : (s.fields.at f).phase = p) (e : ElementId) :
    (s.phaseTest f p e).Ordered P := by
  unfold State.phaseTest
  split
  · exact h
  · next l hl =>
    split
    · next hf =>
      refine (h.withdrawAll e .phase fun m hm => .inr fun c _ hmay => ?_).endHold e .phase
      obtain rfl : m = l := Option.some.inj (hm.symm.trans hl)
      have hin := hmay.2.2
      rw [hf.1, hp, hf.2] at hin
      exact Bool.false_ne_true hin
    · exact h

theorem phaseEvent (h : s.Ordered P) {f : FieldId} {p : Phase} (hp : (s.fields.at f).phase = p) :
    (s.phaseEvent f p).Ordered P := by
  unfold State.phaseEvent
  generalize allOf 48 = es
  induction es generalizing s with
  | nil => exact h
  | cons e es ih => exact ih (h.phaseTest hp e) (by rw [(ArbiterKeeps.phaseTest s f p e).fields]; exact hp)

theorem gateOffEvents (h : s.Ordered P) (before : State) (r : Reason) : (s.gateOffEvents before r).Ordered P :=
  h.foldl (fun h i => h.slotEvent i r) _

theorem setSilent (h : s.Ordered P) (i : SlotId) (b : Bool) : (s.updSlot i fun x => { x with silent := b }).Ordered P :=
  h.updSlot i (fun _ => rfl) fun _ => id

theorem markSilent (h : s.Ordered P) (i : SlotId) : (s.markSilent i).Ordered P :=
  ((h.setSilent i true).queueNotice _).slotEvent i .silent

theorem silenceTest (h : s.Ordered P) (i : SlotId) : (s.silenceTest i).Ordered P := by
  unfold State.silenceTest
  split
  · exact h.markSilent i
  · exact h

theorem silenceTests (h : s.Ordered P) : s.silenceTests.Ordered P := h.foldl silenceTest _

theorem testSilence (h : s.Ordered P) (f : FieldId) : (s.testSilence f).Ordered P := h.foldl silenceTest _

theorem clearSilent (h : s.Ordered P) (f : FieldId) : (s.clearSilent f).Ordered P :=
  h.foldl (fun h i => h.setSilent i false) _

/-! ### The end of an actuation, the loss of an element (R108, R115) -/

theorem withAct (h : s.Ordered P) (e : ElementId) (i : SlotId) (r : Request) :
    (s.updLoaded e fun l => l.withAct i r).Ordered P :=
  h.updQuiet e (fun _ => rfl) (fun _ => rfl) (fun _ => ⟨rfl, rfl⟩) fun _ => id

theorem updHold (h : s.Ordered P) (hl : s.loadedAt e = some l) {x y : Hold} (hx : l.hold = some x) (hy : y.slot = x.slot) :
    (s.updLoaded e fun l => { l with hold := some y }).Ordered P := by
  refine h.updLoaded e fun m hm => ?_
  obtain rfl : m = l := Option.some.inj (hm.symm.trans hl)
  exact .hold hx hy

theorem takeNext (h : s.Ordered P) (hl : s.loadedAt e = some l) {x : Hold} (hx : l.hold = some x) (n : Request) :
    (s.takeNext e l x n).Ordered P := by
  unfold State.takeNext
  split
  · refine h.updLoaded e fun m hm => ?_
    obtain rfl : m = l := Option.some.inj (hm.symm.trans hl)
    exact .trans (m := { m with hold := some { x with next := none } }) (.hold hx rfl) (.of_kept rfl rfl rfl id id)
  · exact (h.updHold hl hx (y := { x with next := none }) rfl).verdictFor _ _ _ _

theorem afterActuation (h : s.Ordered P) (e : ElementId) : (s.afterActuation e).Ordered P := by
  unfold State.afterActuation
  split
  · exact h
  · next l hl =>
    split
    · exact h.grantSelection e
    · next x hx =>
      split
      · exact h
      · exact h.takeNext hl hx _

theorem endActuation (h : s.Ordered P) (e : ElementId) (how : ActEnd) : (s.endActuation e how).Ordered P := by
  unfold State.endActuation
  split
  · exact h
  · exact ((h.withoutAct e _).verdictFor _ _ _ _).afterActuation e

theorem failActuation (h : s.Ordered P) (e : ElementId) (r : Reason) : (s.failActuation e r).Ordered P := by
  unfold State.failActuation
  split
  · exact (h.withoutAct e _).verdictFor _ _ _ _
  · exact h

theorem elementLost (h : s.Ordered P) (e : ElementId) (r : Reason)
    (hp : ∀ l, s.loadedAt e = some l → l.presence ≠ .present) : (s.elementLost e r).Ordered P := by
  refine ((h.failActuation e r).withdrawAll e .elementDown fun m hm => .inl ?_).endHold e .elementLost
  have hb := (ArbiterKeeps.failActuation s e r).busSide e
  rw [hm] at hb
  cases hl : s.loadedAt e with
  | none => simp [hl] at hb
  | some l =>
    have := hp l hl
    rw [hl, Option.map_some, Option.map_some, Option.some.injEq] at hb
    exact (congrArg BusSide.presence hb).trans_ne this

/-! ### Claims and releases (R89 to R93, R97) -/

theorem inHold (h : s.Ordered P) (hl : s.loadedAt e = some l) {x : Hold} (hx : l.hold = some x) (r : Request) :
    (s.inHold e l x r).Ordered P := by
  unfold State.inHold
  split
  · exact (h.withAct e _ _).verdictFor _ _ _ _
  · have hu := h.updHold hl hx (y := { x with next := some r }) rfl
    dsimp only
    split
    · exact (hu.verdictFor _ _ _ _).verdictFor _ _ _ _
    · exact hu.verdictFor _ _ _ _

theorem replaceClaim (h : s.Ordered P) (e : ElementId) (i : SlotId) (r : Request) :
    (s.updLoaded e fun l => { l with claims := replaceClaim l.claims i r }).Ordered P := by
  refine h.updLoaded e fun l _ => ?_
  have hm : (Machine.replaceClaim l.claims i r).map (·.slot) = l.claims.map (·.slot) := by
    rw [Machine.replaceClaim, List.map_map]
    refine List.map_congr_left fun c _ => ?_
    simp only [Function.comp_apply]
    split <;> rfl
  have hw (j : SlotId) : Loaded.workOf { l with claims := Machine.replaceClaim l.claims i r } j = l.workOf j := by
    have hf (cs : List Claim) : (cs.filter fun c => decide (c.slot = j)).length =
        ((cs.map (·.slot)).filter fun k => decide (k = j)).length := by
      rw [List.filter_map, List.length_map]; rfl
    simp only [Loaded.workOf, hf, hm]
  refine ⟨fun k => ⟨?_, hm ▸ k.distinct, k.misses, k.retries, fun j hj => k.working j ?_⟩, hw⟩
  · rw [Machine.replaceClaim, List.length_map]
    exact k.claims
  · rwa [← Loaded.workOf_eq_zero, ← hw, Loaded.workOf_eq_zero]

/-- A new claim of a slot that may work on the element, with an outstanding count below 2 and without a claim in the queue,
which has room (R92, R93). -/
theorem admitClaim (h : s.Ordered P) (hl : s.loadedAt e = some l) {i : SlotId} (hp : P i l.entry.field)
    (ho : (s.slots.at i).outstanding < 2) (hr : l.claims.length < 4) (hn : ∀ c ∈ l.claims, c.slot ≠ i) (r : Request) :
    (s.admitClaim i e l r).Ordered P := by
  have hk := h.loaded e l hl
  unfold State.admitClaim
  dsimp only
  split
  · next hf =>
    refine verdictFor (h.add hl (j := i) ⟨hk.claims, hk.distinct, hk.misses, hk.retries, fun j hj => ?_⟩ ho fun j => ?_)
      _ _ _ _
    · by_cases hji : j = i
      · exact hji ▸ hp
      · refine hk.working j fun hfree => hj ⟨hfree.1, ?_⟩
        rintro _ ⟨⟩
        exact fun hij => hji hij.symm
    · simp only [Loaded.workOf, Loaded.withAct, hf.1, Nat.add_zero, eq_comm (a := i)]
  · refine verdictFor (h.add hl (j := i) ⟨?_, ?_, hk.misses, hk.retries, fun j hj => ?_⟩ ho fun j => ?_) _ _ _ _
    · rw [List.length_append]
      exact hr
    · rw [List.map_append, List.nodup_append]
      refine ⟨hk.distinct, List.nodup_singleton _, fun a ha b hb => ?_⟩
      obtain ⟨c, hc, rfl⟩ := List.mem_map.1 ha
      rw [List.map_singleton, List.mem_singleton] at hb
      exact hb ▸ hn c hc
    · by_cases hji : j = i
      · exact hji ▸ hp
      · refine hk.working j fun hfree => hj ⟨fun c hc => ?_, hfree.2⟩
        rcases List.mem_append.1 hc with hc | hc
        · exact hfree.1 c hc
        · rw [List.mem_singleton.1 hc]
          exact fun hij => hji hij.symm
    · simp only [Loaded.workOf, List.filter_append, List.length_append, List.filter_singleton, eq_comm (a := i)]
      by_cases hji : j = i
      · simp [hji]; omega
      · simp [hji]

theorem takeClaim (h : s.Ordered P) (i : SlotId) (b : Byte) (r : Request)
    (hp : ∀ g, s.gateOpen i = true → s.slotField i = some g → P i g) : (s.takeClaim i b r).Ordered P := by
  unfold State.takeClaim
  split
  · exact h.queueVerdict _ _ _ _
  · next e l ht =>
    obtain ⟨hg, hl, hf⟩ : s.gateOpen i = true ∧ s.loadedAt e = some l ∧ s.slotField i = some l.entry.field := by
      unfold State.testClaim at ht
      grind (splits := 16)
    split
    · split
      · next x hx => exact h.inHold hl hx r
      · exact h
    · split
      · exact (h.replaceClaim e i r).verdictFor _ _ _ _
      · next hn =>
        split
        · exact h.queueVerdict _ _ _ _
        · next hr =>
          have hc : ∀ c ∈ l.claims, c.slot ≠ i := fun c hc hi => by
            simpa [hi] using List.find?_eq_none.1 hn c hc
          obtain ⟨ho, hq⟩ : (s.slots.at i).outstanding < 2 ∧ l.claims.length < 4 := by
            unfold State.newClaimRefusal at hr
            split_ifs at hr with ho _ hq
            exact ⟨Nat.lt_of_not_le ho, Nat.lt_of_not_le hq⟩
          exact h.admitClaim hl (hp _ hg hf) ho hq hc r

theorem takeRelease (h : s.Ordered P) (i : SlotId) (b : Byte) : (s.takeRelease i b).Ordered P := by
  unfold State.takeRelease
  split
  · exact h.queueVerdict _ _ _ _
  · split
    · exact h.queueVerdict _ _ _ _
    · next l hl =>
      split
      · exact h.endHold _ _
      · split
        · next c hc => exact h.withdraw hl (List.mem_of_find?_eq_some hc) _
        · exact h.queueVerdict _ _ _ _

/-! ### Presence, misses and the SAFE queue (R125, R139 to R143) -/

theorem updBus (h : s.Ordered P) {g : Bus → Bus} (hq : (g s.bus).safeQueue.Nodup) : (s.updBus g).Ordered P :=
  { h with safeQueue := hq }

theorem dropSafe (h : s.Ordered P) (e : ElementId) : (s.dropSafe e).Ordered P := h.updBus (h.safeQueue.filter _)

theorem setRetries (h : s.Ordered P) (e : ElementId) {n : Nat} (hn : n ≤ 3) : (s.setRetries e n).Ordered P :=
  h.updQuiet e (fun _ => rfl) (fun _ => rfl) (fun _ => ⟨rfl, rfl⟩) fun _ _ => hn

theorem queueSafe (h : s.Ordered P) (e : ElementId) : (s.queueSafe e).Ordered P := by
  unfold State.queueSafe
  split
  · exact h
  · next he =>
    refine (h.setRetries e (Nat.zero_le 3)).updBus ?_
    have hn : e ∉ s.bus.safeQueue := by simpa [State.safePending] using he
    exact List.nodup_append.2 ⟨h.safeQueue, List.nodup_singleton e, fun a ha b hb =>
      fun hab => hn (List.mem_singleton.1 hb ▸ hab ▸ ha)⟩

theorem withPresence (h : s.Ordered P) (e : ElementId) (p : Presence) (n : Nat) :
    (s.updLoaded e fun l => l.withPresence p n).Ordered P := by
  have hl (l : Loaded) : (l.withPresence p n).claims = l.claims ∧ (l.withPresence p n).hold = l.hold ∧
      (l.withPresence p n).entry = l.entry ∧ (l.withPresence p n).misses = l.misses ∧
      (l.withPresence p n).retries = l.retries := by
    unfold Loaded.withPresence
    dsimp only
    split <;> exact ⟨rfl, rfl, rfl, rfl, rfl⟩
  exact h.updQuiet e (fun l => (hl l).1) (fun l => (hl l).2.1) (fun l => ⟨(hl l).2.2.1, (hl l).2.2.2.1⟩)
    fun l => (hl l).2.2.2.2.trans_le

theorem setPresence (h : s.Ordered P) (e : ElementId) (p : Presence) : (s.setPresence e p).Ordered P := by
  unfold State.setPresence
  split
  · exact (h.withPresence e p _).dropSafe e
  · exact h.withPresence e p _

/-- A presence change to a presence other than PRESENT, or of an element that is not PRESENT (R143). -/
theorem changePresence (h : s.Ordered P) (e : ElementId) {p : Presence}
    (hp : ∀ l, s.loadedAt e = some l → l.presence = .present → p ≠ .present) : (s.changePresence e p).Ordered P := by
  unfold State.changePresence
  split
  · exact h
  · next l hl =>
    refine queueNotice ?_ _
    unfold State.reportLoss
    split
    · next hb =>
      refine (h.setPresence e p).elementLost e _ fun m hm => ?_
      rw [s.setPresence_presence e p hm]
      exact hp l hl hb
    · exact h.setPresence e p

theorem becomeFaulted (h : s.Ordered P) (e : ElementId) (c : FaultCause) : (s.becomeFaulted e c).Ordered P := by
  unfold State.becomeFaulted
  split
  · exact h
  · split
    · exact h
    all_goals exact h.changePresence e fun _ _ _ => Presence.noConfusion

theorem becomeAbsent (h : s.Ordered P) (e : ElementId) (p : Presence) : (s.becomeAbsent e p).Ordered P := by
  unfold State.becomeAbsent
  split
  · exact h.changePresence e fun _ _ _ => Presence.noConfusion
  · exact h.changePresence e fun _ _ _ => Presence.noConfusion
  · exact h
  · exact h

theorem setMisses (h : s.Ordered P) (e : ElementId) {n : Nat} (hn : n ≤ 3) : (s.setMisses e n).Ordered P :=
  h.updLoaded e fun _ _ => .of_kept rfl rfl rfl (fun _ => hn) id

theorem countMiss (h : s.Ordered P) (e : ElementId) : (s.countMiss e).Ordered P := by
  unfold State.countMiss
  split
  · exact h
  · split
    · next hm => exact h.setMisses e (Nat.le_of_lt hm)
    · exact ((h.setMisses e (Nat.le_refl 3)).becomeAbsent e _).dropSafe e

theorem safeElement (h : s.Ordered P) (f : FieldId) (e : ElementId) : (s.safeElement f e).Ordered P := by
  unfold State.safeElement
  split
  · exact h
  · split
    · have hs : (s.safeIfPresent e ‹_›).Ordered P := by
        unfold State.safeIfPresent
        split
        · exact h.queueSafe e
        · exact h
      have hb (l : Loaded) (n : Nat) := (l.safed_spec n).2.2.1
      exact hs.updQuiet e (fun l => (l.safed_spec _).1) (fun l => (l.safed_spec _).2.1)
        (fun l => ⟨congrArg BusSide.entry (hb l _), congrArg BusSide.misses (hb l _)⟩)
        fun l => (congrArg BusSide.retries (hb l _)).trans_le
    · exact h

theorem safeField (h : s.Ordered P) (f : FieldId) : (s.safeField f).Ordered P := h.foldl (fun h e => h.safeElement f e) _

/-! ### The schedule and the outcomes of transactions (R128, R130 to R140) -/

theorem clearIdleTurn (h : s.Ordered P) : s.clearIdleTurn.Ordered P := by
  unfold State.clearIdleTurn
  split
  · exact h.updBus h.safeQueue
  · exact h

theorem startTransaction (h : s.Ordered P) (e : ElementId) (c : BusCommand) : (s.startTransaction e c).Ordered P := by
  unfold State.startTransaction
  split
  · exact h
  · next l hl =>
    obtain ⟨hc, hh, -, hm, -⟩ := l.started_keeps c
    have hr : l.retries ≤ 3 → (l.started c).retries ≤ 3 := by
      unfold Loaded.started
      grind
    refine updBus (h.updLoaded e fun k hk => ?_) h.safeQueue
    obtain rfl : k = l := Option.some.inj (hk.symm.trans hl)
    exact .of_kept hc hh (k.started_entry c) hm.trans_le hr

theorem settle (h : s.Ordered P) : s.settle.Ordered P := by
  unfold State.settle State.arbitrate
  split
  · split
    · exact h.clearIdleTurn.startTransaction _ _
    · exact h.clearIdleTurn
  · exact h.clearIdleTurn

theorem restartActionPoll (h : s.Ordered P) (e : ElementId) : (s.restartActionPoll e).Ordered P := by
  refine h.updLoaded e fun l _ => ?_
  split
  · exact .of_kept rfl rfl rfl id id
  · exact .of_kept rfl rfl rfl id id

theorem restartSensor (h : s.Ordered P) (e : ElementId) : (s.restartSensor e).Ordered P := by
  refine h.updLoaded e fun l _ => ?_
  split
  · exact .of_kept rfl rfl rfl id id
  · exact .of_kept rfl rfl rfl id id

theorem setFetch (h : s.Ordered P) (e : ElementId) : (s.setFetch e).Ordered P :=
  h.updLoaded e fun _ _ => .of_kept rfl rfl rfl id id

theorem flipFetch (h : s.Ordered P) (e : ElementId) : (s.flipFetch e).Ordered P :=
  h.updLoaded e fun _ _ => .of_kept rfl rfl rfl id id

theorem restPair (h : s.Ordered P) : s.restPair.Ordered P := h.updBus h.safeQueue

theorem fly (h : s.Ordered P) (t : Transaction) : (s.fly t).Ordered P := h.updBus h.safeQueue

theorem probeAnswered (h : s.Ordered P) (hl : ∀ m, s.loadedAt e = some m → m.presence = l.presence) (st : Status)
    (payload : List Byte) :
    (s.probeAnswered e l st payload).Ordered P := by
  unfold State.probeAnswered
  split
  · split
    · next hm =>
      split
      · refine h.changePresence e fun m hm' hp => ?_
        rw [Loaded.missing_iff, ← hl m hm', hp] at hm
        exact absurd hm (by decide)
      · exact h.changePresence e fun _ _ _ => Presence.noConfusion
    · exact h
  · exact h.becomeFaulted e _
  · exact h

theorem actuateWaiting (h : s.Ordered P) (hl : ∀ m, s.loadedAt e = some m → m.retries = l.retries) (a : Actuation)
    (st : Status) (payload : List Byte) : (s.actuateWaiting e l a st payload).Ordered P := by
  have h0 : (s.setRetries e 0).Ordered P := h.setRetries e (Nat.zero_le 3)
  cases st
  case ok => exact h.updLoaded e fun _ _ => .of_kept rfl rfl rfl id fun _ => Nat.zero_le 3
  case hold => exact h.updLoaded e fun _ _ => .of_kept rfl rfl rfl id fun _ => Nat.zero_le 3
  case done => exact h0.endActuation e _
  case more => exact (h0.setFetch e).endActuation e _
  case retry =>
    unfold State.actuateWaiting
    dsimp only
    split
    · next hr =>
      refine h.updLoaded e fun m hm => .of_kept rfl rfl rfl id fun _ => ?_
      rw [hl m hm]
      exact Nat.le_of_lt_succ hr
    · exact h0.endActuation e _
  case reject => exact h0.endActuation e _
  case fault => exact h.becomeFaulted e _

theorem actuateCancelling (h : s.Ordered P) (e : ElementId) (st : Status) (payload : List Byte) :
    (s.actuateCancelling e st payload).Ordered P := by
  cases st
  case ok => exact h
  case hold => exact h
  case done => exact h.endActuation e _
  case more => exact (h.setFetch e).endActuation e _
  case retry => exact h.setRetries e (Nat.zero_le 3)
  case reject => exact h.setRetries e (Nat.zero_le 3)
  case fault => exact h.becomeFaulted e _

theorem actuateAnswered (h : s.Ordered P) (hl : ∀ m, s.loadedAt e = some m → m.retries = l.retries) (st : Status)
    (payload : List Byte) :
    (s.actuateAnswered e l st payload).Ordered P := by
  have hm : (if st = .more then s.setFetch e else s).Ordered P := by
    split
    · exact h.setFetch e
    · exact h
  unfold State.actuateAnswered
  split
  · split
    · exact h.actuateWaiting hl _ st payload
    · exact h.actuateCancelling e st payload
    · exact hm
  · exact hm

theorem actionPollAnswered (h : s.Ordered P) (e : ElementId) (l : Loaded) (st : Status) (payload : List Byte) :
    (s.actionPollAnswered e l st payload).Ordered P := by
  unfold State.actionPollAnswered
  split
  · split
    · exact h.endActuation e _
    · exact h
  · split
    · split
      · exact (h.setFetch e).endActuation e _
      · exact h.setFetch e
    · exact h.setFetch e
  · exact h.becomeFaulted e _
  all_goals exact h

theorem sensorPollAnswered (h : s.Ordered P) (e : ElementId) (st : Status) : (s.sensorPollAnswered e st).Ordered P := by
  unfold State.sensorPollAnswered
  split
  · exact h.setFetch e
  · exact h.becomeFaulted e _
  all_goals exact h

/-- A report is counted and judged: nothing of it is anyone's work (R150). -/
theorem takeReport (h : s.Ordered P) (e : ElementId) (k : EventKind) (count : Nat) : (s.takeReport e k count).Ordered P := by
  have hl : ∀ j, (s.countReport e count).loadedAt j = s.loadedAt j := s.countReport_loadedAt e count
  have hc : (s.countReport e count).Ordered P := h.same hl rfl rfl
  unfold State.takeReport
  split
  · exact h
  · unfold State.judgeReport
    dsimp only
    split
    · exact hc.queueNotice _
    · split
      · exact hc.queueNotice _
      · split
        · exact hc.queueNotice _
        · exact queueNotice (s := (s.countReport e count).updTally _ _) { hc with } _

theorem takeReports (h : s.Ordered P) (e : ElementId) (bytes : List Byte) : (s.takeReports e bytes).Ordered P := by
  refine h.foldl (fun h b => ?_) _
  split
  · exact h
  · exact h.takeReport e _ _

theorem fetchAnswered (h : s.Ordered P) (e : ElementId) (st : Status) (payload : List Byte) :
    (s.fetchAnswered e st payload).Ordered P := by
  unfold State.fetchAnswered
  split
  · exact (h.takeReports e _).flipFetch e
  · exact ((h.takeReports e _).flipFetch e).setFetch e
  · exact h.becomeFaulted e _
  all_goals exact h

theorem endCancelling (h : s.Ordered P) (e : ElementId) : (s.endCancelling e).Ordered P := by
  unfold State.endCancelling
  split
  · split
    · exact h.endActuation e _
    · exact h
  · exact h

theorem safeAnswered (h : s.Ordered P) (e : ElementId) (l : Loaded) (st : Status) : (s.safeAnswered e l st).Ordered P := by
  have h0 : ((s.dropSafe e).setRetries e 0).Ordered P := (h.dropSafe e).setRetries e (Nat.zero_le 3)
  cases st
  case ok => exact h0.endCancelling e
  case done => exact h0.endCancelling e
  case more => exact (h0.setFetch e).endCancelling e
  case retry =>
    unfold State.safeAnswered
    dsimp only
    split
    · next hr => exact h.setRetries e (Nat.le_of_lt_succ hr)
    · exact h0.becomeFaulted e _
  case fault => exact (h.dropSafe e).becomeFaulted e _
  case hold => exact h
  case reject => exact h

theorem answered (h : s.Ordered P)
    (hl : ∀ m, s.loadedAt e = some m → m.presence = l.presence ∧ m.retries = l.retries) (c : BusCommand) (st : Status)
    (payload : List Byte) : (s.answered e l c st payload).Ordered P := by
  cases c
  case probe => exact h.probeAnswered (fun m hm => (hl m hm).1) st payload
  case safe => exact h.safeAnswered e l st
  all_goals
    unfold State.answered
    dsimp only
    split
  case actuate.isTrue => exact h.actuateAnswered (fun m hm => (hl m hm).2) st payload
  case actionPoll.isTrue => exact (h.actionPollAnswered e l st payload).restartActionPoll e
  case sensorPoll.isTrue => exact (h.sensorPollAnswered e st).restartSensor e
  case fetch.isTrue => exact h.fetchAnswered e st payload
  all_goals exact h

theorem actOnAnswer (h : s.Ordered P) (e : ElementId) (c : BusCommand) (st : Status) (payload : List Byte) :
    (s.actOnAnswer e c st payload).Ordered P := by
  unfold State.actOnAnswer
  split
  · exact h
  · next l hl =>
    refine (h.setMisses e (Nat.zero_le 3)).answered (fun m hm => ?_) c st payload
    rw [State.setMisses, State.updLoaded_loadedAt_same, hl, Option.map_some, Option.some.injEq] at hm
    exact ⟨hm ▸ rfl, hm ▸ rfl⟩

theorem missedAgain (h : s.Ordered P) (e : ElementId) (c : BusCommand) : (s.missedAgain e c).Ordered P := by
  cases c
  case fetch => exact h.setFetch e
  case actionPoll => exact h.restartActionPoll e
  case sensorPoll => exact h.restartSensor e
  all_goals exact h

theorem actOnMiss (h : s.Ordered P) (e : ElementId) (c : BusCommand) : (s.actOnMiss e c).Ordered P := by
  unfold State.actOnMiss
  split
  · exact h
  · split
    · exact (h.missedAgain e c).countMiss e
    · exact h.countMiss e

theorem endTransaction (h : s.Ordered P) (t : Transaction) (o : BusOutcome) : (s.endTransaction t o).Ordered P := by
  unfold State.endTransaction
  split
  · exact h.restPair
  · split
    · exact h.restPair.actOnAnswer _ _ _ _
    · exact h.restPair.actOnMiss _ _
    · exact h.restPair.actOnMiss _ _

theorem answerReceived (h : s.Ordered P) (t : Transaction) (chars : List BusChar) (c : BusChar) :
    (s.answerReceived t chars c).Ordered P := by
  unfold State.answerReceived
  dsimp only
  split
  · exact (h.endTransaction t _).settle
  · exact h.fly _

theorem completeAnswer (h : s.Ordered P) (k : BusCommand) (edge : BusEdge) : (s.completeAnswer k edge).Ordered P := by
  unfold State.completeAnswer
  split
  · exact h.answerReceived _ _ _
  · exact h

theorem answerEdge (h : s.Ordered P) (t : Transaction) (chars : List BusChar) (ev : AnswerEvent) :
    (s.answerEdge t chars ev).Ordered P := by
  unfold State.answerEdge
  split
  · exact h
  · split
    · exact h.fly _
    · exact h.fly _
    · split
      · exact h.fly _
      · exact h.answerReceived t chars _

theorem passActionLimit (h : s.Ordered P) (e : ElementId) : (s.passActionLimit e).Ordered P := by
  refine ((((h.setPresence e _).endActuation e _).elementLost e .fault fun m hm => ?_).queueNotice _).queueSafe e
  have hb := (ArbiterKeeps.endActuation (s.setPresence e (.faulted .timeout)) e (.failed .timeout)).busSide e
  rw [hm] at hb
  cases hl : (s.setPresence e (.faulted .timeout)).loadedAt e with
  | none => simp [hl] at hb
  | some l =>
    rw [hl, Option.map_some, Option.map_some, Option.some.injEq] at hb
    have hp : m.presence = l.presence := congrArg BusSide.presence hb
    rw [hp, s.setPresence_presence e _ hl]
    exact Presence.noConfusion

end State.Ordered

end Sys2Proof.Machine
end

section
/-! SUPPORT. The bounds and laws of the records across a change of gates: the gate-off events of a change take what the slots
have whose gates it shuts (R27, R105). -/

namespace Sys2Proof.Machine

open Sys2Proof

/-! ### The laws in two halves -/

/-- Slot `i` may have claims and holds on the elements of field `g`: its gate is open and it is placed there (R89, R105). -/
def State.Permits (s : State) (i : SlotId) (g : FieldId) : Prop := s.gateOpen i = true ∧ s.slotField i = some g

/-- The laws of `State.Lawful` on fields and placings alone (R47, R62, R195). -/
structure State.Sequenced (s : State) : Prop where
  starting : s.mgmt.mode = .starting → ∀ g, (s.fields.at g).phase = .idle
  stopped : ∀ g, (s.fields.at g).phase = .idle ∨ (s.fields.at g).phase = .post → (s.fields.at g).stopped = none
  placing : s.PlacedAsListed

theorem State.recordsBounded_iff (s : State) : s.RecordsBounded ↔ s.Ordered s.Permits ∧ s.Sequenced where
  mp h :=
    { left.loaded e l hl :=
        ⟨h.claims e l hl, h.distinct e l hl, h.misses e l hl, h.retries e l hl, fun i hi => h.lawful.working e l i hl hi⟩
      left.outstanding := h.lawful.outstanding
      left.credit := h.credit
      left.safeQueue := h.safeQueue
      right := { h.lawful with } }
  mpr h :=
    { lawful :=
        { h.2 with
          outstanding := h.1.outstanding
          working := fun e l i hl hi => (h.1.loaded e l hl).working i hi }
      credit := h.1.credit
      claims := fun e l hl => (h.1.loaded e l hl).claims
      distinct := fun e l hl => (h.1.loaded e l hl).distinct
      misses := fun e l hl => (h.1.loaded e l hl).misses
      retries := fun e l hl => (h.1.loaded e l hl).retries
      safeQueue := h.1.safeQueue }

theorem State.gateOpen_iff (s : State) (i : SlotId) : s.gateOpen i = true ↔
    ∃ p, (s.slots.at i).placing = some p ∧ (s.slots.at i).disabled = false ∧ (s.slots.at i).bypassed = false ∧
      (s.fields.at p.field).stopped = none ∧ ((s.fields.at p.field).phase = .auto ∨ (s.fields.at p.field).phase = .teleop ∨
        (s.fields.at p.field).phase = .endgame) := by
  unfold State.gateOpen State.effectiveGate
  cases (s.slots.at i).placing with
  | none => simp
  | some p =>
    simp only [Option.some.injEq, exists_eq_left']
    split
    · next hoff =>
      simp only [bne_self_eq_false, Bool.false_eq_true, false_iff]
      rintro ⟨hd, hb, hs, -⟩
      simp [hd, hb, hs] at hoff
    · next hon =>
      simp only [Bool.or_eq_true, not_or, Bool.not_eq_true, Option.isSome_eq_false_iff, Option.isNone_iff_eq_none] at hon
      cases (s.fields.at p.field).phase <;> simp [hon]

/-- What the laws on fields, placings and gates look at is the same; STARTING may have been left (R196). -/
structure SameStanding (s t : State) : Prop where
  mode : t.mgmt.mode = .starting → s.mgmt.mode = .starting
  fields : ∀ g, (t.fields.at g).phase = (s.fields.at g).phase ∧ (t.fields.at g).stopped = (s.fields.at g).stopped ∧
    (t.fields.at g).list = (s.fields.at g).list
  slots : ∀ i, (t.slots.at i).team = (s.slots.at i).team ∧ (t.slots.at i).placing = (s.slots.at i).placing ∧
    (t.slots.at i).disabled = (s.slots.at i).disabled ∧ (t.slots.at i).bypassed = (s.slots.at i).bypassed

section
variable {s t : State}

theorem SameStanding.refl (s : State) : SameStanding s s :=
  ⟨id, fun _ => ⟨rfl, rfl, rfl⟩, fun _ => ⟨rfl, rfl, rfl, rfl⟩⟩

theorem SameStanding.trans {u : State} (h : SameStanding s t) (k : SameStanding t u) : SameStanding s u where
  mode := h.mode ∘ k.mode
  fields g := by rw [(k.fields g).1, (k.fields g).2.1, (k.fields g).2.2]; exact h.fields g
  slots i := by rw [(k.slots i).1, (k.slots i).2.1, (k.slots i).2.2.1, (k.slots i).2.2.2]; exact h.slots i

theorem BusKeeps.standing (h : BusKeeps s t) : SameStanding s t where
  mode hm := by rw [h.mgmt] at hm; exact hm
  fields g := by rw [h.fields]; exact ⟨rfl, rfl, rfl⟩
  slots i := by rw [h.slots i]; exact ⟨rfl, rfl, rfl, rfl⟩

theorem ArbiterKeeps.standing (h : ArbiterKeeps s t) : SameStanding s t := h.toBus.standing

theorem SameStanding.slotField (h : SameStanding s t) (i : SlotId) : t.slotField i = s.slotField i := by
  rw [State.slotField, (h.slots i).2.1]
  rfl

theorem SameStanding.gateOpen (h : SameStanding s t) (i : SlotId) : t.gateOpen i = s.gateOpen i := by
  obtain ⟨-, hp, hd, hb⟩ := h.slots i
  rw [Bool.eq_iff_iff, State.gateOpen_iff, State.gateOpen_iff, hp, hd, hb]
  simp only [(h.fields _).1, (h.fields _).2.1]

theorem SameStanding.permits (h : SameStanding s t) : t.Permits = s.Permits := by
  funext i g
  rw [State.Permits, State.Permits, h.gateOpen, h.slotField]

theorem State.Sequenced.same (h : s.Sequenced) (k : SameStanding s t) : t.Sequenced where
  starting hm g := (k.fields g).1.trans (h.starting (k.mode hm) g)
  stopped g hg := by
    rw [(k.fields g).2.1]
    exact h.stopped g (by rwa [(k.fields g).1] at hg)
  placing :=
    { listed := fun g i j hj => by
        rw [(k.fields g).2.2] at hj
        rw [(k.fields g).1, (k.slots j).1, (k.slots j).2.1]
        exact h.placing.listed g i j hj
      placed := fun i p hp => by
        rw [(k.slots i).2.1] at hp
        rw [(k.fields _).2.2]
        exact h.placing.placed i p hp }

/-- The record of a field that is not IDLE changes: its list is kept, it stays out of IDLE, and it is not STOPPED in POST. -/
theorem State.Sequenced.updField (h : s.Sequenced) {f : FieldId} {g : MatchRecord → MatchRecord}
    (hi : (s.fields.at f).phase ≠ .idle) (hl : (g (s.fields.at f)).list = (s.fields.at f).list)
    (hp : (g (s.fields.at f)).phase ≠ .idle)
    (hs : (g (s.fields.at f)).phase = .post → (g (s.fields.at f)).stopped = none) : (s.updField f g).Sequenced where
  starting hm := absurd (h.starting hm f) hi
  stopped k hk := by
    rw [State.updField_fields, Table.at_put] at hk ⊢
    split at hk
    · next he =>
      rw [if_pos he]
      exact hs (hk.resolve_left hp)
    · next he =>
      rw [if_neg he]
      exact h.stopped k hk
  placing :=
    { listed := fun k i j hj => by
        rw [State.updField_fields, Table.at_put] at hj ⊢
        split at hj
        · next he =>
          rw [if_pos he]
          rw [hl, ← he] at hj
          exact ⟨hp, (h.placing.listed k i j hj).2⟩
        · next he =>
          rw [if_neg he]
          exact h.placing.listed k i j hj
      placed := fun i p hip => by
        obtain ⟨k, hk⟩ := h.placing.placed i p hip
        refine ⟨k, ?_⟩
        rw [State.updField_fields, Table.at_put]
        split
        · next he => rw [hl, ← he]; exact hk
        · exact hk }

/-! ### Changes that keep the bounds and laws -/

namespace State.RecordsBounded

theorem ordered (h : s.RecordsBounded) : s.Ordered s.Permits := ((State.recordsBounded_iff s).1 h).1

theorem sequenced (h : s.RecordsBounded) : s.Sequenced := ((State.recordsBounded_iff s).1 h).2

/-- Nothing changes that gates and placings rest on. -/
theorem keep (h : s.RecordsBounded) (k : SameStanding s t) (ho : t.Ordered s.Permits) : t.RecordsBounded :=
  (State.recordsBounded_iff t).2 ⟨k.permits ▸ ho, h.sequenced.same k⟩

/-- A change that shuts no gate of a slot with claims or holds and moves no such slot. -/
theorem of_permits (hs : t.Sequenced) (ho : t.Ordered s.Permits)
    (hp : ∀ i g, s.Permits i g → t.Permits i g) : t.RecordsBounded :=
  (State.recordsBounded_iff t).2 ⟨ho.mono fun _ _ i _ _ => hp i _, hs⟩

/-- A slot without an open gate has neither claims nor holds (R105). -/
theorem freeOf (h : s.RecordsBounded) {e : ElementId} {l : Loaded} (hl : s.loadedAt e = some l) {i : SlotId}
    (hi : ¬ s.Permits i l.entry.field) : l.freeOf i :=
  Classical.not_not.1 fun hf => hi (h.lawful.working e l i hl hf)

/-- A change that shuts gates, followed by the gate-off events of the slots whose gates it shut (R27, R105). -/
theorem gateOffEvents (hs : t.Sequenced) (ho : t.Ordered s.Permits)
    (hf : ∀ i, t.slotField i = s.slotField i) (r : Reason) : (t.gateOffEvents s r).RecordsBounded := by
  have hk := ArbiterKeeps.gateOffEvents t s r
  refine (State.recordsBounded_iff _).2 ⟨(ho.gateOffEvents s r).mono fun e m i hm hi hp => ?_, hs.same hk.standing⟩
  rw [hk.standing.permits]
  refine ⟨?_, (hf i).trans hp.2⟩
  by_contra hc
  have hmem : i ∈ t.gatesClosed s :=
    List.mem_filter.2 ⟨mem_allOf i, by simp only [hp.1, Bool.true_and, Bool.not_eq_true']; simpa using hc⟩
  cases hl : t.loadedAt e with
  | none =>
    have hb := hk.busSide e
    simp [hl, hm] at hb
  | some l => exact hi ((SlotsTaken.gateOffEvents t s r).free i hmem e l m hl hm (ho.loaded e l hl).distinct)

end State.RecordsBounded

/-! ### The Match Sequencer -/

theorem State.Ordered.announcePhase {P : SlotId → FieldId → Prop} (h : s.Ordered P) (f : FieldId) (n : Nat) (a : Bool) :
    (s.announcePhase f n a).Ordered P := by
  have hn := (h.setUrgent f).queueNotice (.phase f (s.fields.at f).phase n a)
  unfold State.announcePhase
  dsimp only
  split
  · split
    · exact (hn.phaseEvent rfl).testSilence f
    · exact hn.testSilence f
  · split
    · exact (hn.phaseEvent rfl).clearSilent f
    · exact hn.clearSilent f

theorem SameStanding.setUrgent (s : State) (f : FieldId) : SameStanding s (s.setUrgent f) := { SameStanding.refl s with }

namespace State.RecordsBounded

theorem settle (h : s.RecordsBounded) : s.settle.RecordsBounded := h.keep (BusKeeps.settle s).standing h.ordered.settle

theorem announcePhase (h : s.RecordsBounded) (f : FieldId) (n : Nat) (a : Bool) : (s.announcePhase f n a).RecordsBounded :=
  h.keep (.trans (.setUrgent s f) (BusKeeps.announcePhase s f n a).standing) (h.ordered.announcePhase f n a)

theorem queueNotice (h : s.RecordsBounded) (c : NoticeContent) : (s.queueNotice c).RecordsBounded :=
  h.keep (BusKeeps.queueNotice s c).standing (h.ordered.queueNotice c)

theorem setUrgent (h : s.RecordsBounded) (f : FieldId) : (s.setUrgent f).RecordsBounded :=
  h.keep (.setUrgent s f) (h.ordered.setUrgent f)

theorem safeField (h : s.RecordsBounded) (f : FieldId) : (s.safeField f).RecordsBounded :=
  h.keep (BusKeeps.safeField s f).standing (h.ordered.safeField f)

/-- A field that was not IDLE enters a phase that shuts no gate: its slots' gates are OFF, or the phase opens them (R49). -/
theorem enterPhase (h : s.RecordsBounded) {f : FieldId} {dest : Phase × Nat} (hi : (s.fields.at f).phase ≠ .idle)
    (hd : dest.1.timed = true) (hp : (s.fields.at f).phase = .pre ∨ dest.1 = .endgame) :
    (s.enterPhase f dest).RecordsBounded := by
  refine announcePhase (of_permits (h.sequenced.updField hi rfl ?_ ?_) (h.ordered.updField f _) fun i g hg => ?_) f _ _
  · rintro he
    rw [show dest.1 = .idle from he] at hd
    exact nomatch hd
  · rintro he
    rw [show dest.1 = .post from he] at hd
    exact nomatch hd
  · refine ⟨?_, hg.2⟩
    obtain ⟨p, hpl, hdis, hby, hst, hph⟩ := (s.gateOpen_iff i).1 hg.1
    refine (State.gateOpen_iff _ i).2 ⟨p, hpl, hdis, hby, ?_⟩
    rw [State.updField_fields, Table.at_put]
    split
    · next he =>
      subst he
      refine ⟨hst, .inr (.inr (hp.resolve_left fun hpre => ?_))⟩
      simp [hpre] at hph
    · exact ⟨hst, hph⟩

/-- A phase of a RUNNING field that is not IDLE expires (R50, R51, R53). -/
theorem expireInto (h : s.RecordsBounded) {f : FieldId} {dest : Phase × Nat} (hi : (s.fields.at f).phase ≠ .idle)
    (hr : (s.fields.at f).stopped = none) (hd : dest.1 ≠ .idle) : (s.expireInto f dest).RecordsBounded :=
  (gateOffEvents (h.sequenced.updField hi rfl hd fun _ => hr) (h.ordered.updField f _) (fun _ => rfl) .phase).announcePhase
    f _ _

theorem enterStopped (h : s.RecordsBounded) {f : FieldId} (hp : (s.fields.at f).phase.stoppable = true) (c : StopCause) :
    (s.enterStopped f c).RecordsBounded := by
  have hi : (s.fields.at f).phase ≠ .idle := fun he => by simp [he, Phase.stoppable] at hp
  have ho : (s.fields.at f).phase ≠ .post := fun he => by simp [he, Phase.stoppable] at hp
  exact ((((gateOffEvents (h.sequenced.updField hi rfl hi fun he => absurd he ho) (h.ordered.updField f _)
    (fun _ => rfl) .stopped).safeField f).setUrgent f).queueNotice _)

theorem stopField (h : s.RecordsBounded) (f : FieldId) (c : StopCause) : (s.stopField f c).RecordsBounded := by
  unfold State.stopField
  split
  · next hp => exact h.enterStopped hp.1 c
  · exact h

/-- A STOPPED field resumes: gates may open, and none shuts (R64). -/
theorem resumeField (h : s.RecordsBounded) {f : FieldId} (hs : (s.fields.at f).stopped ≠ none) (c : ResumeSource) :
    (s.resumeField f c).RecordsBounded := by
  have hi : (s.fields.at f).phase ≠ .idle := fun he => hs (h.lawful.stopped f (.inl he))
  refine setUrgent (of_permits (h.sequenced.updField hi rfl hi fun _ => rfl) (h.ordered.updField f _) fun i g hg => ?_) f
    |>.queueNotice _
  refine ⟨?_, hg.2⟩
  obtain ⟨p, hpl, hdis, hby, hst, hph⟩ := (s.gateOpen_iff i).1 hg.1
  refine (State.gateOpen_iff _ i).2 ⟨p, hpl, hdis, hby, ?_⟩
  rw [State.updField_fields, Table.at_put]
  split
  · next he => exact ⟨rfl, he ▸ hph⟩
  · exact ⟨hst, hph⟩

theorem abortMatch (h : s.RecordsBounded) {f : FieldId} (hi : (s.fields.at f).phase ≠ .idle) :
    (s.abortMatch f).RecordsBounded := by
  unfold State.abortMatch
  exact ((gateOffEvents (h.sequenced.updField hi rfl (by simp) fun _ => rfl) (h.ordered.updField f _) (fun _ => rfl)
    .aborted).safeField f).announcePhase f _ true

theorem expireMatch (h : s.RecordsBounded) {f : FieldId} (hi : (s.fields.at f).phase ≠ .idle)
    (hr : (s.fields.at f).stopped = none) : (s.expireMatch f).RecordsBounded := by
  have hk : SameStanding s (s.updField f fun m => { m with aborted := false, grace := s.timing.grace }) := by
    refine { SameStanding.refl s with fields := fun g => ?_ }
    rw [State.updField_fields, Table.at_put]
    split
    · next he => subst he; exact ⟨rfl, rfl, rfl⟩
    · exact ⟨rfl, rfl, rfl⟩
  refine expireInto (h.keep hk (h.ordered.updField f _)) (dest := (.post, 0)) ?_ ?_ (by simp)
  · rw [(hk.fields f).1]
    exact hi
  · rw [(hk.fields f).2.1]
    exact hr

/-- A flag of a slot is set, and the gate-off event follows where it shuts the gate (R71). -/
theorem setSlotFlag (h : s.RecordsBounded) (i : SlotId) (f : FieldId) (r : Reason) {g : Slot → Slot}
    (hg : ∀ x, (g x).team = x.team ∧ (g x).placing = x.placing)
    (ho : ∀ x, (g x).outstanding = x.outstanding ∧ (g x).credit = x.credit ∧ (g x).ceiling = x.ceiling) :
    (s.setSlotFlag i f r g).RecordsBounded := by
  have hslot (j : SlotId) : ((s.updSlot i g).slots.at j).team = (s.slots.at j).team ∧
      ((s.updSlot i g).slots.at j).placing = (s.slots.at j).placing := by
    rw [State.updSlot_slots, Table.at_put]
    split
    · next he => subst he; exact hg _
    · exact ⟨rfl, rfl⟩
  have hq : (s.updSlot i g).Sequenced :=
    { h.sequenced with
      placing :=
        { listed := fun k n j hj => by
            rw [(hslot j).1, (hslot j).2]
            exact h.sequenced.placing.listed k n j hj
          placed := fun j p hp => by
            rw [(hslot j).2] at hp
            exact h.sequenced.placing.placed j p hp } }
  have hb := gateOffEvents hq
    (h.ordered.updSlot i (fun x => (ho x).1) fun x hx => by rw [(ho x).2.1, (ho x).2.2]; exact hx)
    (fun j => by rw [State.slotField, (hslot j).2]; rfl) r
  exact (hb.setUrgent f).settle

end State.RecordsBounded

end

end Sys2Proof.Machine
end

section
/-! SUPPORT. The bounds and laws of the records across the placing and release of slots, the change of referee lines, and the
loading of elements (R47, R57, R67, R80, R87). -/

namespace Sys2Proof.Machine

open Sys2Proof

/-! ### Slot lists (R47) -/

theorem mem_listedSlots {l : Table 6 (Option SlotId)} {i : SlotId} : i ∈ listedSlots l ↔ ∃ k, l.at k = some i := by
  rw [listedSlots, Table.toList_eq, List.mem_filterMap]
  simp only [List.mem_map, id_eq]
  exact ⟨fun ⟨_, ⟨k, _, hk⟩, he⟩ => ⟨k, hk.trans he⟩, fun ⟨k, hk⟩ => ⟨_, ⟨k, mem_allOf k, rfl⟩, hk⟩⟩

/-- A slot stands in at most one place of a list without repeats. -/
theorem place_unique {l : Table 6 (Option SlotId)} (h : (listedSlots l).Nodup) {i : SlotId} {k n : Fin 6}
    (hk : l.at k = some i) (hn : l.at n = some i) : k = n := by
  rw [listedSlots, Table.toList_eq, List.filterMap_map, List.Nodup, List.pairwise_filterMap] at h
  by_contra hne
  have : Std.Symm fun a b => ∀ x, (id ∘ l.at) a = some x → ∀ y, (id ∘ l.at) b = some y → x ≠ y :=
    ⟨fun _ _ hab x hx y hy hxy => hab y hy x hx hxy.symm⟩
  have hp := h.forall (mem_allOf k) (mem_allOf n) hne
  exact hp i hk i hn rfl

/-! ### Release (R47) -/

theorem State.foldl_releaseSlot (l : List SlotId) (s : State) :
    (∃ slots, l.foldl State.releaseSlot s = { s with slots }) ∧
    ∀ i, (l.foldl State.releaseSlot s).slots.at i = if i ∈ l then
      { s.slots.at i with placing := none, disabled := false, bypassed := false, silent := false } else s.slots.at i := by
  induction l generalizing s with
  | nil => exact ⟨⟨s.slots, rfl⟩, fun i => by simp⟩
  | cons j l ih =>
    obtain ⟨⟨slots, he⟩, hs⟩ := ih (s.releaseSlot j)
    refine ⟨⟨slots, he⟩, fun i => ?_⟩
    rw [List.foldl_cons, hs, State.releaseSlot, State.updSlot_slots, Table.at_put]
    by_cases hij : i = j
    · subst hij
      simp
    · simp [hij]

section
variable {s : State} {f : FieldId}

theorem State.Ordered.releaseAll {P : SlotId → FieldId → Prop} (h : s.Ordered P) (f : FieldId) : (s.releaseAll f).Ordered P :=
  h.foldl (fun h i => h.updSlot i (g := fun x =>
    { x with placing := none, disabled := false, bypassed := false, silent := false }) (fun _ => rfl) fun _ => id) _

/-- A field in PRE or POST returns to IDLE: no slot of it has an open gate, and each is released (R67, R69). -/
theorem State.RecordsBounded.toIdle (h : s.RecordsBounded) (hp : (s.fields.at f).phase = .pre ∨ (s.fields.at f).phase = .post) :
    (s.toIdle f).RecordsBounded := by
  obtain ⟨⟨slots, he⟩, hs⟩ := State.foldl_releaseSlot (listedSlots (s.fields.at f).list) s
  have hfields : (s.releaseAll f).fields = s.fields := by rw [State.releaseAll, he]
  have hmode : (s.releaseAll f).mgmt = s.mgmt := by rw [State.releaseAll, he]
  have hkept (i : SlotId) (p : Placing) (hpl : (s.slots.at i).placing = some p) (hpf : p.field ≠ f) :
      (s.releaseAll f).slots.at i = s.slots.at i := by
    rw [State.releaseAll, hs i, if_neg fun hm => ?_]
    obtain ⟨k, hk⟩ := mem_listedSlots.1 hm
    have hp' := (h.lawful.placing.listed f k i hk).2.2
    rw [hpl, Option.some.injEq] at hp'
    exact hpf (hp' ▸ rfl)
  unfold State.toIdle
  refine State.RecordsBounded.announcePhase (.of_permits (s := s) ?_ ((h.ordered.releaseAll f).updField f _)
    fun i g hg => ?_) f _ _
  · refine ⟨fun hm g => ?_, fun g hg => ?_, fun g k i hk => ?_, fun i p hip => ?_⟩
    · rw [State.updField_fields, Table.at_put, hfields]
      split
      · rfl
      · exact h.lawful.starting (hmode ▸ hm) g
    · rw [State.updField_fields, Table.at_put, hfields] at hg ⊢
      split at hg
      · next hgf => rw [if_pos hgf]; rfl
      · next hgf => rw [if_neg hgf]; exact h.lawful.stopped g hg
    · rw [State.updField_fields, Table.at_put, hfields] at hk ⊢
      split at hk
      · exact absurd hk (by simp [MatchRecord.afterReset])
      · next hgf =>
        obtain ⟨hph, ht, hpl⟩ := h.lawful.placing.listed g k i hk
        rw [if_neg hgf, State.updField_slots, hkept i _ hpl hgf]
        exact ⟨hph, ht, hpl⟩
    · rw [State.updField_slots, State.releaseAll, hs i] at hip
      split at hip
      · exact nomatch hip
      · next hm =>
        obtain ⟨k, hk⟩ := h.lawful.placing.placed i p hip
        have hpf : p.field ≠ f := fun hpf => hm (mem_listedSlots.2 ⟨k, hpf ▸ hk⟩)
        exact ⟨k, by rw [State.updField_fields, Table.at_put_other _ _ hpf, hfields]; exact hk⟩
  · obtain ⟨p, hpl, hd, hb, hst, hph⟩ := (s.gateOpen_iff i).1 hg.1
    have hpf : p.field ≠ f := fun hpf => by
      rw [hpf] at hph
      rcases hp with hp | hp <;> simp [hp] at hph
    have hi := hkept i p hpl hpf
    refine ⟨(State.gateOpen_iff _ i).2 ⟨p, ?_⟩, ?_⟩
    · rw [State.updField_slots, hi, State.updField_fields, Table.at_put_other _ _ hpf, hfields]
      exact ⟨hpl, hd, hb, hst, hph⟩
    · rw [State.slotField, State.updField_slots, hi]
      exact hg.2

/-! ### Placing (R47, R57) -/

/-- What placing writes in a slot record. -/
def Slot.placed (x : Slot) (f : FieldId) (k : Fin 6) : Slot :=
  { x with
    placing := some { field := f, alliance := if k.val < 3 then .east else .west, position := k.val % 3 + 1 }
    disabled := false, bypassed := false, lastSeq := none }

theorem State.placeSlot_eq (s : State) (f : FieldId) (i : SlotId) (k : Fin 6) :
    s.placeSlot f i (placeOfIndex k.val).1 (placeOfIndex k.val).2 = s.updSlot i fun x => x.placed f k := by
  have hk : placeOfIndex k.val = (if k.val < 3 then .east else .west, k.val % 3 + 1) := by
    revert k
    decide
  rw [hk]
  rfl

theorem State.Ordered.placeAll {P : SlotId → FieldId → Prop} (h : s.Ordered P) (f : FieldId) (l : Table 6 (Option SlotId)) :
    (s.placeAll f l).Ordered P := by
  refine h.foldl (fun h k => ?_) _
  split
  · rw [State.placeSlot_eq]
    exact h.updSlot _ (fun _ => rfl) fun _ => id
  · exact h

theorem State.placeAll_spec (s : State) (f : FieldId) {l : Table 6 (Option SlotId)} (hn : (listedSlots l).Nodup) :
    (∃ slots, s.placeAll f l = { s with slots }) ∧
    (∀ i, i ∉ listedSlots l → (s.placeAll f l).slots.at i = s.slots.at i) ∧
    ∀ i k, l.at k = some i → (s.placeAll f l).slots.at i = (s.slots.at i).placed f k := by
  have hfold : ∀ (ks : List (Fin 6)) (t : State), ks.Nodup →
      let u := ks.foldl (fun s k => match l.at k with
        | some i => s.placeSlot f i (placeOfIndex k.val).1 (placeOfIndex k.val).2
        | none => s) t
      (∃ slots, u = { t with slots }) ∧ (∀ i, (∀ k ∈ ks, l.at k ≠ some i) → u.slots.at i = t.slots.at i) ∧
      ∀ i k, k ∈ ks → l.at k = some i → u.slots.at i = (t.slots.at i).placed f k := by
    intro ks
    induction ks with
    | nil => exact fun t _ => ⟨⟨t.slots, rfl⟩, fun _ _ => rfl, fun _ _ hk => nomatch hk⟩
    | cons n ks ih =>
      intro t hnd
      obtain ⟨hnk, hnd⟩ := List.nodup_cons.1 hnd
      rw [List.foldl_cons]
      split
      · next j hj =>
        rw [State.placeSlot_eq]
        obtain ⟨⟨slots, he⟩, hout, hin⟩ := ih (t.updSlot j fun x => x.placed f n) hnd
        refine ⟨⟨slots, he⟩, fun i hi => ?_, fun i k hk hki => ?_⟩
        · rw [hout i fun k hk => hi k (List.mem_cons_of_mem _ hk), State.updSlot_slots, Table.at_put_other]
          rintro rfl
          exact hi n List.mem_cons_self hj
        · rcases List.mem_cons.1 hk with rfl | hk
          · obtain rfl : j = i := Option.some.inj (hj.symm.trans hki)
            rw [hout j fun m hm hmj => hnk (place_unique hn hki hmj ▸ hm), State.updSlot_slots, Table.at_put_same]
          · rw [hin i k hk hki, State.updSlot_slots, Table.at_put_other]
            rintro rfl
            exact hnk (place_unique hn hki hj ▸ hk)
      · next hj =>
        obtain ⟨he, hout, hin⟩ := ih t hnd
        refine ⟨he, fun i hi => hout i fun k hk => hi k (List.mem_cons_of_mem _ hk), fun i k hk hki => ?_⟩
        rcases List.mem_cons.1 hk with rfl | hk
        · exact absurd (hj.symm.trans hki) nofun
        · exact hin i k hk hki
  obtain ⟨he, hout, hin⟩ := hfold (allOf 6) s (List.nodup_finRange 6)
  exact ⟨he, fun i hi => hout i fun k _ hk => hi (mem_listedSlots.2 ⟨k, hk⟩), fun i k hk => hin i k (mem_allOf k) hk⟩

theorem State.clearScores_loadedAt (s : State) (f : FieldId) (e : ElementId) :
    (s.clearScores f).loadedAt e = s.loadedAt e := by
  unfold State.clearScores State.loadedAt
  rw [Table.at_map]
  split
  · split <;> rfl
  · rfl

/-- A match is loaded in an IDLE field: its slots, loaded and in no match, are placed (R56, R57). -/
theorem State.RecordsBounded.loadMatch (h : s.RecordsBounded) (hm : s.mgmt.mode ≠ .starting)
    (hi : (s.fields.at f).phase = .idle) {m : MatchRecord} (hph : m.phase = .pre)
    (hl : ∀ i ∈ listedSlots m.list, (s.slots.at i).team ≠ 0 ∧ (s.slots.at i).placing = none)
    (hn : (listedSlots m.list).Nodup) : (s.loadMatch f m).RecordsBounded := by
  obtain ⟨⟨slots, he⟩, hout, hin⟩ := (s.updField f fun _ => m).placeAll_spec f hn
  have hfields : ((s.updField f fun _ => m).placeAll f m.list).fields = s.fields.put f m := by rw [he]; rfl
  have hmgmt : ((s.updField f fun _ => m).placeAll f m.list).mgmt = s.mgmt := by rw [he]; rfl
  have hkept (i : SlotId) (p : Placing) (hp : (s.slots.at i).placing = some p) :
      ((s.updField f fun _ => m).placeAll f m.list).slots.at i = s.slots.at i :=
    hout i fun hmem => nomatch hp.symm.trans (hl i hmem).2
  have hother {p : Placing} {i : SlotId} (hp : (s.slots.at i).placing = some p) : p.field ≠ f := by
    rintro rfl
    obtain ⟨k, hk⟩ := h.lawful.placing.placed i p hp
    exact (h.lawful.placing.listed _ k i hk).1 hi
  have hb : ((s.updField f fun _ => m).placeAll f m.list).RecordsBounded := by
    refine .of_permits (s := s) ⟨fun hst => ?_, fun g hg => ?_, fun g k i hk => ?_, fun i p hip => ?_⟩
      ((h.ordered.updField f _).placeAll f _) fun i g hg => ?_
    · exact absurd (hmgmt ▸ hst) hm
    · rw [hfields, Table.at_put] at hg ⊢
      split at hg
      · exact absurd hg (by simp [hph])
      · next hgf => rw [if_neg hgf]; exact h.lawful.stopped g hg
    · rw [hfields, Table.at_put] at hk ⊢
      split at hk
      · next hgf =>
        rw [if_pos hgf, hin i k hk, hph, hgf]
        exact ⟨by simp, (hl i (mem_listedSlots.2 ⟨k, hk⟩)).1, rfl⟩
      · next hgf =>
        obtain ⟨hp, ht, hpl⟩ := h.lawful.placing.listed g k i hk
        rw [if_neg hgf, hkept i _ hpl]
        exact ⟨hp, ht, hpl⟩
    · rw [hfields]
      by_cases hmem : i ∈ listedSlots m.list
      · obtain ⟨k, hk⟩ := mem_listedSlots.1 hmem
        rw [hin i k hk] at hip
        refine ⟨k, ?_⟩
        rw [← Option.some.inj hip, Table.at_put_same]
        exact hk
      · rw [hout i hmem] at hip
        obtain ⟨k, hk⟩ := h.lawful.placing.placed i p hip
        exact ⟨k, by rw [Table.at_put_other _ _ (hother hip)]; exact hk⟩
    · obtain ⟨p, hpl, hd, hb, hst, hop⟩ := (s.gateOpen_iff i).1 hg.1
      refine ⟨(State.gateOpen_iff _ i).2 ⟨p, ?_⟩, ?_⟩
      · rw [hkept i p hpl, hfields, Table.at_put_other _ _ (hother hpl)]
        exact ⟨hpl, hd, hb, hst, hop⟩
      · rw [State.slotField, hkept i p hpl]
        exact hg.2
  have hc : (((s.updField f fun _ => m).placeAll f m.list).clearScores f).RecordsBounded :=
    hb.keep { SameStanding.refl _ with } (hb.ordered.same (State.clearScores_loadedAt _ f) rfl rfl)
  unfold State.loadMatch
  dsimp only
  split
  · exact (hc.announcePhase f _ _).stopField f _
  · exact hc.announcePhase f _ _

/-! ### Referee lines (R80, R82) -/

namespace State.RecordsBounded

/-- What the records' bounds and laws do not look at. -/
theorem others (h : s.RecordsBounded) {link : Link} {stations : List Station} {gate : GateCounters}
    {tallies : Table 4 FieldTally} {lines : Table 16 LineRecord} {pins : Table 16 Level} {sampleLeft budgetLeft : Option Nat}
    {beacons : Beacons} {timing : Timing} {loader : Loader} {choices : Nat} {pending : List Instr} :
    State.RecordsBounded { s with
      link, stations, gate, tallies, lines, pins, sampleLeft, budgetLeft, beacons, timing, loader, choices, pending } :=
  h.keep { SameStanding.refl s with } { h.ordered with }

theorem foldl {α : Type} {g : State → α → State} (hg : ∀ {s}, s.RecordsBounded → ∀ a, (g s a).RecordsBounded)
    (h : s.RecordsBounded) (l : List α) : (l.foldl g s).RecordsBounded := by
  induction l generalizing s with
  | nil => exact h
  | cons a l ih => exact ih (hg h a)

theorem activate (h : s.RecordsBounded) (n : LineId) : (s.activate n).RecordsBounded := by
  unfold State.activate
  split
  · exact h.others.stopField _ _
  · exact h.others.foldl (fun h f => h.stopField f _) _
  all_goals exact h

theorem combine (h : s.RecordsBounded) (f : FieldId) : (s.combine f).RecordsBounded := by
  unfold State.combine
  dsimp only
  split
  · next hr =>
    refine h.others.resumeField (fun hs => ?_) _
    rw [State.resumeRefusal, if_pos hs] at hr
    exact nomatch hr
  · exact h.others

theorem changeLines (h : s.RecordsBounded) (p : LineId → Bool) (g : LineId → LineRecord → LineRecord) :
    (s.changeLines p g).RecordsBounded :=
  (h.others.foldl (fun h n => h.activate n) _).foldl (fun h f => h.combine f) _

theorem sampleLines (h : s.RecordsBounded) (pins : Table 16 Level) : (s.sampleLines pins).RecordsBounded := by
  unfold State.sampleLines
  dsimp only
  split
  · exact h.others.foldl (fun h p => h.changeLines p _) _
  · exact h.others.changeLines _ _

theorem takeSample (h : s.RecordsBounded) (pins : Table 16 Level) : (s.takeSample pins).RecordsBounded :=
  (h.others.sampleLines pins).settle

theorem changePin (h : s.RecordsBounded) (n : LineId) (v : Level) : (s.changePin n v).RecordsBounded := by
  unfold State.changePin
  dsimp only
  split
  · exact h.others
  · exact h.others.changeLines _ _

/-! ### Loading and clearing elements (R87, R88) -/

/-- On an element of an IDLE field no one has claims or holds (R105). -/
theorem idle_freeOf (h : s.RecordsBounded) {e : ElementId} {l : Loaded} (hl : s.loadedAt e = some l)
    (hi : (s.fields.at l.entry.field).phase = .idle) (i : SlotId) : l.freeOf i := by
  refine h.freeOf hl fun hp => ?_
  obtain ⟨p, hpl, -, -, -, hph⟩ := (s.gateOpen_iff i).1 hp.1
  have hf := hp.2
  rw [State.slotField, hpl, Option.map_some, Option.some.injEq] at hf
  simp [hf, hi] at hph

theorem updElement (h : s.RecordsBounded) {e : ElementId} {g : Element → Element}
    (hi : ∀ l, s.loadedAt e = some l → (s.fields.at l.entry.field).phase = .idle)
    (hg : ∀ m, (g (s.elements.at e)).loaded = some m → m.Ordered s.Permits ∧ ∀ i, m.freeOf i) :
    (s.updElement e g).RecordsBounded :=
  h.keep { SameStanding.refl s with } (h.ordered.updElement (fun _ hl => h.idle_freeOf hl (hi _ hl)) hg)

theorem updBus (h : s.RecordsBounded) {g : Bus → Bus} (hq : (g s.bus).safeQueue.Nodup) : (s.updBus g).RecordsBounded :=
  h.keep { SameStanding.refl s with } (h.ordered.updBus hq)

theorem writeEntry (h : s.RecordsBounded) {e : ElementId} {x : Option Loaded}
    (hi : ∀ l, s.loadedAt e = some l → (s.fields.at l.entry.field).phase = .idle)
    (hx : ∀ m, x = some m → m.Ordered s.Permits ∧ ∀ i, m.freeOf i) : (s.writeEntry e x).RecordsBounded := by
  unfold State.writeEntry State.voidTransaction
  refine updBus (s := (s.updElement e fun y => { y with loaded := x }).dropSafe e)
    (updBus (h.updElement hi hx) (h.safeQueue.filter _)) ?_
  split
  · split <;> exact h.safeQueue.filter _
  · exact h.safeQueue.filter _
  · exact h.safeQueue.filter _

end State.RecordsBounded

theorem Loaded.fresh_free (x : ElementEntry) (i : SlotId) : (Loaded.fresh x).freeOf i := ⟨nofun, nofun⟩

theorem Loaded.fresh_ordered (P : SlotId → FieldId → Prop) (x : ElementEntry) : (Loaded.fresh x).Ordered P where
  claims := Nat.zero_le 4
  distinct := List.nodup_nil
  misses := Nat.zero_le 3
  retries := Nat.zero_le 3
  working i hi := absurd (Loaded.fresh_free x i) hi

end

end Sys2Proof.Machine
end

section
/-! SUPPORT. Every row and every step of the part keeps the bounds of the records and the laws of the machine. -/

namespace Sys2Proof.Machine

open Sys2Proof

/-! ### What claims, releases and answers leave alone -/

theorem ArbiterKeeps.inHold (s : State) (e : ElementId) (l : Loaded) (x : Hold) (r : Request) :
    ArbiterKeeps s (s.inHold e l x r) := by
  have hu : ArbiterKeeps s (s.updLoaded e fun l => { l with hold := some { x with next := some r } }) :=
    .updLoaded s e _ fun _ => rfl
  unfold State.inHold
  split
  · exact .trans (.updLoaded s e (fun l => l.withAct x.slot r) fun _ => rfl) (.verdictFor _ _ _ _ _)
  · dsimp only
    split
    · exact hu.trans (.trans (.verdictFor _ _ _ _ _) (.verdictFor _ _ _ _ _))
    · exact hu.trans (.verdictFor _ _ _ _ _)

theorem ArbiterKeeps.admitClaim (s : State) (i : SlotId) (e : ElementId) (l : Loaded) (r : Request) :
    ArbiterKeeps s (s.admitClaim i e l r) := by
  unfold State.admitClaim
  dsimp only
  split
  · exact .trans (.moreOutstanding s i) (.grant _ _ _ _)
  · exact .trans (.moreOutstanding s i) (.trans
      (.updLoaded _ e (fun l => { l with claims := l.claims ++ [{ slot := i, request := r }] }) fun _ => rfl)
      (.verdictFor _ _ _ _ _))

theorem ArbiterKeeps.takeClaim (s : State) (i : SlotId) (b : Byte) (r : Request) : ArbiterKeeps s (s.takeClaim i b r) := by
  unfold State.takeClaim
  split
  · exact .queueVerdict s _ _ _ _
  · next e l _ =>
    split
    · split
      · exact .inHold s e l _ r
      · exact .refl s
    · split
      · exact .trans (.updLoaded s e (fun l => { l with claims := replaceClaim l.claims i r }) fun _ => rfl)
          (.verdictFor _ _ _ _ _)
      · split
        · exact .queueVerdict s _ _ _ _
        · exact .admitClaim s i e l r

theorem ArbiterKeeps.takeRelease (s : State) (i : SlotId) (b : Byte) : ArbiterKeeps s (s.takeRelease i b) := by
  unfold State.takeRelease
  split
  · exact .queueVerdict s _ _ _ _
  · split
    · exact .queueVerdict s _ _ _ _
    · split
      · exact .endHold s _ _
      · split
        · exact .withdraw s _ _ _
        · exact .queueVerdict s _ _ _ _

theorem BusKeeps.claimPayload (s : State) (i : SlotId) (p : List Byte) : BusKeeps s (s.claimPayload i p) := by
  unfold State.claimPayload
  split
  · exact (ArbiterKeeps.takeClaim s i _ _).toBus.trans (.settle _)
  · exact .refl s

theorem BusKeeps.releasePayload (s : State) (i : SlotId) (p : List Byte) : BusKeeps s (s.releasePayload i p) := by
  unfold State.releasePayload
  split
  · exact (ArbiterKeeps.takeRelease s i _).toBus.trans (.settle _)
  · exact .refl s

theorem SameStanding.takeReport (s : State) (e : ElementId) (k : EventKind) (n : Nat) :
    SameStanding s (s.takeReport e k n) := by
  have hn (t : State) (c : NoticeContent) : SameStanding t (t.queueNotice c) := (BusKeeps.queueNotice t c).standing
  have hc : SameStanding s (s.countReport e n) := { SameStanding.refl s with }
  unfold State.takeReport State.judgeReport
  dsimp only
  split
  · exact .refl s
  · split
    · exact hc.trans (hn _ _)
    · split
      · exact hc.trans (hn _ _)
      · split
        · exact hc.trans (hn _ _)
        · exact hc.trans (.trans (t := (s.countReport e n).updTally _ _) { SameStanding.refl _ with } (hn _ _))

theorem SameStanding.takeReports (s : State) (e : ElementId) (bytes : List Byte) :
    SameStanding s (s.takeReports e bytes) := by
  unfold State.takeReports
  induction bytes generalizing s with
  | nil => exact .refl s
  | cons b bytes ih =>
    rw [List.foldl_cons]
    split
    · exact ih s
    · exact (SameStanding.takeReport s e _ _).trans (ih _)

theorem SameStanding.fetchAnswered (s : State) (e : ElementId) (st : Status) (payload : List Byte) :
    SameStanding s (s.fetchAnswered e st payload) := by
  have hr := SameStanding.takeReports s e payload
  unfold State.fetchAnswered
  split
  · exact hr.trans (BusKeeps.flipFetch _ e).standing
  · exact hr.trans ((BusKeeps.flipFetch _ e).trans (.setFetch _ e)).standing
  · exact (BusKeeps.becomeFaulted s e _).standing
  all_goals exact .refl s

theorem SameStanding.endTransaction (s : State) (t : Transaction) (o : BusOutcome) :
    SameStanding s (s.endTransaction t o) := by
  by_cases hf : t.command = .fetch ∧ ∃ st payload, o = .answered st payload
  · obtain ⟨hf, st, payload, rfl⟩ := hf
    have hr := (BusKeeps.restPair s).standing
    have hm := hr.trans (BusKeeps.setMisses s.restPair t.element 0).standing
    change SameStanding s (if t.void then s.restPair else s.restPair.actOnAnswer t.element t.command st payload)
    rw [hf]
    split
    · exact hr
    · unfold State.actOnAnswer
      split
      · exact hr
      · unfold State.answered
        dsimp only
        split
        · exact hm.trans (.fetchAnswered _ _ _ _)
        · exact hm
  · exact (BusKeeps.endTransaction s t o fun hc st payload ho => hf ⟨hc, st, payload, ho⟩).standing

theorem SameStanding.answerReceived (s : State) (t : Transaction) (chars : List BusChar) (c : BusChar) :
    SameStanding s (s.answerReceived t chars c) := by
  unfold State.answerReceived
  dsimp only
  split
  · exact (SameStanding.endTransaction s t _).trans (BusKeeps.settle _).standing
  · exact { SameStanding.refl s with }

/-! ### Updates that keep the bounds and laws -/

namespace State.RecordsBounded

variable {s : State}

theorem bus {t : State} (h : s.RecordsBounded) (k : BusKeeps s t) (ho : t.Ordered s.Permits) : t.RecordsBounded :=
  h.keep k.standing ho

theorem updSlot (h : s.RecordsBounded) (i : SlotId) {g : Slot → Slot}
    (hk : ∀ x, (g x).team = x.team ∧ (g x).placing = x.placing ∧ (g x).disabled = x.disabled ∧ (g x).bypassed = x.bypassed)
    (ho : ∀ x, (g x).outstanding = x.outstanding)
    (hc : ∀ x, x.credit ≤ x.ceiling → (g x).credit ≤ (g x).ceiling) : (s.updSlot i g).RecordsBounded := by
  refine h.keep { SameStanding.refl s with slots := fun j => ?_ } (h.ordered.updSlot i ho hc)
  rw [State.updSlot_slots, Table.at_put]
  split
  · next hj => subst hj; exact hk _
  · exact ⟨rfl, rfl, rfl, rfl⟩

/-- A slot that is placed in no match has its record written, but for its outstanding count (R24, R25). -/
theorem updUnplaced (h : s.RecordsBounded) {i : SlotId} (hi : (s.slots.at i).placing = none) {g : Slot → Slot}
    (hg : ∀ x, (g x).outstanding = x.outstanding ∧ (x.placing = none → (g x).placing = none) ∧ (g x).credit ≤ (g x).ceiling) :
    (s.updSlot i g).RecordsBounded := by
  have hj (j : SlotId) (p : Placing) (hp : (s.slots.at j).placing = some p) :
      (s.updSlot i g).slots.at j = s.slots.at j := by
    rw [State.updSlot_slots, Table.at_put_other]
    rintro rfl
    exact nomatch hi.symm.trans hp
  refine .of_permits (s := s) { h.lawful with placing := ⟨fun k n j hl => ?_, fun j p hp => ?_⟩ }
    (h.ordered.updSlot i (fun x => (hg x).1) fun x _ => (hg x).2.2) fun j k hk => ?_
  · obtain ⟨hph, ht, hpl⟩ := h.lawful.placing.listed k n j hl
    rw [hj j _ hpl]
    exact ⟨hph, ht, hpl⟩
  · rw [State.updSlot_slots, Table.at_put] at hp
    split at hp
    · exact nomatch hp.symm.trans ((hg _).2.1 hi)
    · exact h.lawful.placing.placed j p hp
  · obtain ⟨p, hpl, hop⟩ := (s.gateOpen_iff j).1 hk.1
    refine ⟨(State.gateOpen_iff _ j).2 ⟨p, ?_⟩, ?_⟩
    · rw [hj j p hpl]
      exact ⟨hpl, hop⟩
    · rw [State.slotField, hj j p hpl]
      exact hk.2

theorem updMgmt (h : s.RecordsBounded) {g : Mgmt → Mgmt} (hg : (g s.mgmt).mode = .starting → s.mgmt.mode = .starting) :
    (s.updMgmt g).RecordsBounded :=
  h.keep { SameStanding.refl s with mode := hg } { h.ordered with }

theorem silenceTests (h : s.RecordsBounded) : s.silenceTests.RecordsBounded :=
  h.bus (.silenceTests s) h.ordered.silenceTests

theorem writeTimings (h : s.RecordsBounded) (t : Timing) : (s.writeTimings t).RecordsBounded :=
  h.others.silenceTests.settle

end State.RecordsBounded

/-! ### What a command's rule answers -/

/-- A rule's answer leaves the bounds and laws standing. -/
inductive AnswerBounded : Answer → Prop
  | error (r : ReplyReason) : AnswerBounded (.error r)
  | ok {t : State} (h : t.RecordsBounded) (data : List Byte) : AnswerBounded (.ok (t, data))

section
variable {s : State}

theorem AnswerBounded.commission (h : s.RecordsBounded) (ops : List Byte) : AnswerBounded (runCommission s ops) := by
  cases ops
  · exact .ok (h.updMgmt (g := fun m => { m with mode := .commissioned }) fun hm => nomatch hm) _
  · exact .error _

theorem AnswerBounded.decommission (h : s.RecordsBounded) (ops : List Byte) : AnswerBounded (runDecommission s ops) := by
  unfold runDecommission
  split
  · split
    · exact .error _
    · exact .ok (h.updMgmt (g := fun m => { m with mode := .uncommissioned }) fun hm => nomatch hm) _
  · exact .error _

theorem AnswerBounded.restart (h : s.RecordsBounded) (ops : List Byte) : AnswerBounded (runRestart s ops) := by
  cases ops
  · exact .ok (h.updMgmt id) _
  · exact .error _

theorem State.RecordsBounded.toPrimary (h : s.RecordsBounded) (i : SlotId) : (s.toPrimary i).RecordsBounded :=
  h.updSlot i (fun _ => ⟨rfl, rfl, rfl, rfl⟩) (fun _ => rfl) fun _ => id

theorem AnswerBounded.loadStation (h : s.RecordsBounded) (ops : List Byte) : AnswerBounded (runLoadStation s ops) := by
  have hl (new : Station) : (s.loadStationEntry new).RecordsBounded := by
    unfold State.loadStationEntry
    dsimp only
    split
    · exact h.others
    · split
      · exact (h.others.toPrimary _).toPrimary _
      · exact h.others.toPrimary _
  unfold runLoadStation
  split
  · split
    · dsimp only
      split_ifs
      · exact .error _
      · exact .error _
      · exact .error _
      · exact .error _
      · exact .error _
      · exact .ok (hl _) _
    · exact .error _
  · exact .error _

theorem AnswerBounded.clearStation (h : s.RecordsBounded) (ops : List Byte) : AnswerBounded (runClearStation s ops) := by
  unfold runClearStation
  split
  · split
    · exact .error _
    · dsimp only
      split
      · exact .ok (h.others.toPrimary _) _
      · exact .ok h.others _
  · exact .error _

theorem AnswerBounded.loadSlot (h : s.RecordsBounded) (ops : List Byte) : AnswerBounded (runLoadSlot s ops) := by
  unfold runLoadSlot
  split
  · split
    · exact .error _
    · dsimp only
      split
      · exact .error _
      · split
        · next hp => exact .ok (h.updUnplaced (g := fun x => x.fullLoad _ _ _) hp fun _ => ⟨rfl, id, Nat.le_refl _⟩) _
        · split
          · exact .ok (h.updSlot _ (g := fun x => x.budgetLoad _ _) (fun _ => ⟨rfl, rfl, rfl, rfl⟩) (fun _ => rfl) fun _ _ =>
            Nat.min_le_right _ _) _
          · exact .error _
  · exact .error _

theorem AnswerBounded.clearSlot (h : s.RecordsBounded) (ops : List Byte) : AnswerBounded (runClearSlot s ops) := by
  unfold runClearSlot
  split
  · split
    · exact .error _
    · split
      · exact .error _
      · next hp =>
        split
        · exact .ok h _
        · exact .ok (h.updUnplaced (g := Slot.cleared) (not_not.1 hp) fun _ => ⟨rfl, fun _ => rfl, Nat.zero_le _⟩) _
  · exact .error _

theorem AnswerBounded.onField {run : State → FieldId → Answer} (hr : ∀ f, AnswerBounded (run s f)) (ops : List Byte) :
    AnswerBounded (Machine.onField s run ops) := by
  unfold Machine.onField
  split
  · split
    · exact .error _
    · exact hr _
  · exact .error _

theorem State.matchRefusal_none {f : FieldId} {l : Table 6 (Option SlotId)} (hr : s.matchRefusal f l = none) :
    (s.fields.at f).phase = .idle ∧
      (∀ i ∈ listedSlots l, (s.slots.at i).team ≠ 0 ∧ (s.slots.at i).placing = none) ∧ (listedSlots l).Nodup := by
  unfold State.matchRefusal at hr
  split_ifs at hr with hi ht hp hn
  refine ⟨not_not.1 hi, fun i hm => ⟨?_, ?_⟩, hn⟩
  · simp only [List.any_eq_true, not_exists, not_and] at ht
    simpa using ht i hm
  · simp only [List.any_eq_true, not_exists, not_and] at hp
    simpa using hp i hm

theorem AnswerBounded.loadMatch (h : s.RecordsBounded) (ops : List Byte) : AnswerBounded (runLoadMatch s ops) := by
  unfold runLoadMatch
  split
  · split
    · exact .error _
    · next hm =>
      split
      · dsimp only
        split
        · exact .error _
        · split
          · exact .error _
          · next hr =>
            obtain ⟨hi, hl, hn⟩ := State.matchRefusal_none hr
            exact .ok (h.loadMatch (by simp [not_not.1 hm]) hi rfl hl hn).settle _
      · exact .error _
  · exact .error _

theorem MatchRecord.runFromTeleop_timed (m : MatchRecord) : m.runFromTeleop.1.timed = true := by
  unfold MatchRecord.runFromTeleop
  split <;> rfl

theorem MatchRecord.runFromPause_timed (m : MatchRecord) : m.runFromPause.1.timed = true := by
  unfold MatchRecord.runFromPause
  split
  · rfl
  · exact m.runFromTeleop_timed

theorem MatchRecord.runFromAuto_timed (m : MatchRecord) : m.runFromAuto.1.timed = true := by
  unfold MatchRecord.runFromAuto
  split
  · rfl
  · exact m.runFromPause_timed

theorem Phase.ne_idle_of_timed {p : Phase} (h : p.timed = true) : p ≠ .idle := by
  rintro rfl
  exact nomatch h

theorem AnswerBounded.start (h : s.RecordsBounded) (f : FieldId) : AnswerBounded (runStart s f) := by
  unfold runStart
  split
  · exact .error _
  · next hp =>
    have hpre := not_not.1 hp
    split
    · exact .error _
    · exact .ok (h.enterPhase (by simp [hpre]) (MatchRecord.runFromAuto_timed _) (.inl hpre)).settle _

theorem AnswerBounded.stop (h : s.RecordsBounded) (f : FieldId) : AnswerBounded (runStop s f) := by
  unfold runStop
  split
  · exact .ok (h.stopField f _).settle _
  · exact .error _

theorem AnswerBounded.resume (h : s.RecordsBounded) (f : FieldId) : AnswerBounded (runResume s f) := by
  unfold runResume
  split
  · exact .error _
  · next hr =>
    refine .ok (h.resumeField (fun hs => ?_) _) _
    rw [State.resumeRefusal, if_pos hs] at hr
    exact nomatch hr

theorem AnswerBounded.abort (h : s.RecordsBounded) (f : FieldId) : AnswerBounded (runAbort s f) := by
  unfold runAbort
  split
  · next hp => exact .ok (h.abortMatch (Phase.ne_idle_of_timed hp)).settle _
  · exact .error _

theorem AnswerBounded.commit (h : s.RecordsBounded) (f : FieldId) : AnswerBounded (runCommit s f) := by
  unfold runCommit
  split
  · next hp =>
    have hk : SameStanding s (s.updField f fun m => { m with result := some (s.resultOf f) }) := by
      refine { SameStanding.refl s with fields := fun g => ?_ }
      rw [State.updField_fields, Table.at_put]
      split
      · next he => subst he; exact ⟨rfl, rfl, rfl⟩
      · exact ⟨rfl, rfl, rfl⟩
    refine .ok ((h.keep hk (h.ordered.updField f _)).toIdle (.inr ?_)) _
    rw [(hk.fields f).1]
    exact hp
  · exact .error _

theorem AnswerBounded.resetMatch (h : s.RecordsBounded) (f : FieldId) : AnswerBounded (runResetMatch s f) := by
  unfold runResetMatch
  split
  · next hp => exact .ok (h.toIdle hp) _
  · exact .error _

theorem AnswerBounded.disableSlot (h : s.RecordsBounded) (ops : List Byte) : AnswerBounded (runDisableSlot s ops) := by
  unfold runDisableSlot
  split
  · split
    · exact .error _
    · split
      · exact .error _
      · split
        · exact .ok h _
        · exact .ok (h.setSlotFlag _ _ _ (g := fun x => { x with disabled := true }) (fun _ => ⟨rfl, rfl⟩) fun _ => ⟨rfl, rfl, rfl⟩) _
  · exact .error _

theorem AnswerBounded.bypassSlot (h : s.RecordsBounded) (ops : List Byte) : AnswerBounded (runBypassSlot s ops) := by
  unfold runBypassSlot
  split
  · split
    · exact .error _
    · split
      · exact .error _
      · split
        · exact .ok h _
        · exact .ok (h.setSlotFlag _ _ _ (g := fun x => { x with bypassed := true }) (fun _ => ⟨rfl, rfl⟩) fun _ => ⟨rfl, rfl, rfl⟩) _
  · exact .error _

theorem AnswerBounded.loadLine (h : s.RecordsBounded) (ops : List Byte) : AnswerBounded (runLoadLine s ops) := by
  unfold runLoadLine
  split
  · split
    · split
      · exact .error _
      · exact .ok h.others _
    · exact .error _
  · exact .error _

theorem AnswerBounded.clearLineFlags (h : s.RecordsBounded) (ops : List Byte) : AnswerBounded (runClearLineFlags s ops) := by
  unfold runClearLineFlags
  split
  · split
    · exact .ok h.others _
    · split
      · exact .ok h.others _
      · exact .error _
  · exact .error _

theorem AnswerBounded.loadElement (h : s.RecordsBounded) (ops : List Byte) : AnswerBounded (runLoadElement s ops) := by
  unfold runLoadElement
  split
  · split
    · split
      · exact .error _
      · next hr =>
        refine .ok (h.writeEntry (fun l hl => ?_) fun m hm => ?_).settle _
        · unfold State.elementRefusal at hr
          split_ifs at hr with _ hf
          rw [Bool.not_eq_false, Bool.and_eq_true] at hf
          simpa [State.presentFieldIdle, hl, State.fieldIdle] using hf.2
        · cases hm
          exact ⟨Loaded.fresh_ordered _ _, Loaded.fresh_free _⟩
    · exact .error _
  · exact .error _

theorem AnswerBounded.clearElementEntry (h : s.RecordsBounded) (ops : List Byte) :
    AnswerBounded (runClearElementEntry s ops) := by
  unfold runClearElementEntry
  split
  · split
    · exact .error _
    · split
      · exact .ok h _
      · next e _ l hl =>
        split
        · exact .error _
        · next hf =>
          split
          · exact .error _
          · refine .ok (h.writeEntry (x := none) (fun k hk => ?_) fun _ hm => nomatch hm).settle _
            obtain rfl : k = l := Option.some.inj (hk.symm.trans hl)
            simpa [State.fieldIdle] using hf
  · exact .error _

theorem AnswerBounded.clearElementFault (h : s.RecordsBounded) (ops : List Byte) :
    AnswerBounded (runClearElementFault s ops) := by
  unfold runClearElementFault
  split
  · split
    · exact .error _
    · split
      · exact .error _
      · split
        · refine .ok (h.bus (.trans (.setMisses s _ 0) (.changePresence _ _ _))
            ((h.ordered.setMisses _ (Nat.zero_le 3)).changePresence _ ?_)).settle _
          exact fun _ _ _ => Presence.noConfusion
        all_goals exact .error _
  · exact .error _

theorem AnswerBounded.loadScoreRule (h : s.RecordsBounded) (ops : List Byte) : AnswerBounded (runLoadScoreRule s ops) := by
  have hw (e : ElementId) (k : EventKind) (r : ScoreRule) : (s.writeRule e k r).RecordsBounded := by
    refine h.keep { SameStanding.refl s with } (h.ordered.same (fun j => ?_) rfl rfl)
    rw [State.writeRule, State.loadedAt_def, State.updElement_elements, Table.at_put]
    split
    · next hj => subst hj; rfl
    · rfl
  unfold runLoadScoreRule
  split
  · split
    · split
      · exact .error _
      · exact .ok (hw _ _ _) _
    · exact .error _
  · exact .error _

theorem AnswerBounded.penalty (h : s.RecordsBounded) (ops : List Byte) : AnswerBounded (runPenalty s ops) := by
  unfold runPenalty
  split
  · split
    · split
      · exact .error _
      · split
        · exact .error _
        · exact .ok h.others _
    · exact .error _
  · exact .error _

theorem AnswerBounded.correct (h : s.RecordsBounded) (ops : List Byte) : AnswerBounded (runCorrect s ops) := by
  unfold runCorrect
  split
  · split
    · split
      · exact .error _
      · split
        · exact .error _
        · exact .ok h.others _
    · exact .error _
  · exact .error _

theorem AnswerBounded.setTiming (h : s.RecordsBounded) (ops : List Byte) : AnswerBounded (runSetTiming s ops) := by
  unfold runSetTiming
  split
  · split
    · exact .error _
    · dsimp only
      split
      · exact .error _
      · exact .ok (h.writeTimings _) _
  · exact .error _

theorem AnswerBounded.busPause (h : s.RecordsBounded) (ops : List Byte) : AnswerBounded (runBusPause s ops) := by
  unfold runBusPause
  split
  · split
    · exact .error _
    · split
      · exact .ok (h.updBus h.safeQueue) _
      all_goals exact .ok h _
  · exact .error _

theorem AnswerBounded.busResume (h : s.RecordsBounded) (ops : List Byte) : AnswerBounded (runBusResume s ops) := by
  have hr : (s.updBus fun b => { b with state := .running }).settle.RecordsBounded :=
    (h.updBus (g := fun b => { b with state := .running }) h.safeQueue).settle
  unfold runBusResume
  split
  · split
    · exact .ok hr _
    · exact .ok hr _
    all_goals exact .error _
  · exact .error _

theorem AnswerBounded.read (h : s.RecordsBounded) (ops : List Byte) : AnswerBounded (runRead s ops) := by
  unfold runRead
  split
  · split
    · exact .error _
    · split
      · exact .error _
      · exact .ok (h.updMgmt id) _
  · exact .error _

theorem AnswerBounded.readNext (h : s.RecordsBounded) (ops : List Byte) : AnswerBounded (runReadNext s ops) := by
  unfold runReadNext
  split
  · split
    · exact .error _
    · split
      · exact .error _
      · exact .ok (h.updMgmt id) _
  · exact .error _

end

/-- Each row of a MANAGE command runs one rule, which leaves the bounds and laws standing. -/
theorem exec_command_bounded {c : Instr} {code : Byte} {n : Nat} (h : (c, code, n) ∈ commandTable) :
    ∃ run, (∀ s, exec c s = .next (s.command code n run)) ∧ ∀ t ops, t.RecordsBounded → AnswerBounded (run t ops) := by
  cases c <;> simp [commandTable] at h <;> obtain ⟨rfl, rfl⟩ := h
  case commission => exact ⟨_, fun _ => rfl, fun _ ops k => .commission k ops⟩
  case decommission => exact ⟨_, fun _ => rfl, fun _ ops k => .decommission k ops⟩
  case restart => exact ⟨_, fun _ => rfl, fun _ ops k => .restart k ops⟩
  case loadStation => exact ⟨_, fun _ => rfl, fun _ ops k => .loadStation k ops⟩
  case clearStation => exact ⟨_, fun _ => rfl, fun _ ops k => .clearStation k ops⟩
  case loadSlot => exact ⟨_, fun _ => rfl, fun _ ops k => .loadSlot k ops⟩
  case clearSlot => exact ⟨_, fun _ => rfl, fun _ ops k => .clearSlot k ops⟩
  case loadMatch => exact ⟨_, fun _ => rfl, fun _ ops k => .loadMatch k ops⟩
  case start => exact ⟨_, fun _ => rfl, fun _ ops k => .onField (.start k) ops⟩
  case stop => exact ⟨_, fun _ => rfl, fun _ ops k => .onField (.stop k) ops⟩
  case resume => exact ⟨_, fun _ => rfl, fun _ ops k => .onField (.resume k) ops⟩
  case abort => exact ⟨_, fun _ => rfl, fun _ ops k => .onField (.abort k) ops⟩
  case commit => exact ⟨_, fun _ => rfl, fun _ ops k => .onField (.commit k) ops⟩
  case resetMatch => exact ⟨_, fun _ => rfl, fun _ ops k => .onField (.resetMatch k) ops⟩
  case disableSlot => exact ⟨_, fun _ => rfl, fun _ ops k => .disableSlot k ops⟩
  case bypassSlot => exact ⟨_, fun _ => rfl, fun _ ops k => .bypassSlot k ops⟩
  case loadLine => exact ⟨_, fun _ => rfl, fun _ ops k => .loadLine k ops⟩
  case clearLineFlags => exact ⟨_, fun _ => rfl, fun _ ops k => .clearLineFlags k ops⟩
  case loadElement => exact ⟨_, fun _ => rfl, fun _ ops k => .loadElement k ops⟩
  case clearElementEntry => exact ⟨_, fun _ => rfl, fun _ ops k => .clearElementEntry k ops⟩
  case clearElementFault => exact ⟨_, fun _ => rfl, fun _ ops k => .clearElementFault k ops⟩
  case loadScoreRule => exact ⟨_, fun _ => rfl, fun _ ops k => .loadScoreRule k ops⟩
  case penalty => exact ⟨_, fun _ => rfl, fun _ ops k => .penalty k ops⟩
  case correct => exact ⟨_, fun _ => rfl, fun _ ops k => .correct k ops⟩
  case setTiming => exact ⟨_, fun _ => rfl, fun _ ops k => .setTiming k ops⟩
  case busPause => exact ⟨_, fun _ => rfl, fun _ ops k => .busPause k ops⟩
  case busResume => exact ⟨_, fun _ => rfl, fun _ ops k => .busResume k ops⟩
  case read => exact ⟨_, fun _ => rfl, fun _ ops k => .read k ops⟩
  case readNext => exact ⟨_, fun _ => rfl, fun _ ops k => .readNext k ops⟩

end Sys2Proof.Machine
end

section
/-! SUPPORT. The rows of the link, the gate, the timers and the start keep the bounds of the records and the laws of the
machine; and so does every step. -/

namespace Sys2Proof.Machine

open Sys2Proof

/-! ### What the end of a millisecond leaves alone -/

theorem Loaded.tick_steady (P : SlotId → FieldId → Prop) (l : Loaded) : l.Steady P l.tick := by
  cases hh : l.hold with
  | none =>
    exact .of_kept rfl (by rw [Loaded.tick, hh]; rfl) rfl id id
  | some x =>
    have hk : Loaded.Steady P { l with hold := some (if 1 < x.remaining then { x with remaining := x.remaining - 1 } else x) }
        l.tick := .of_kept rfl (by rw [Loaded.tick, hh]; rfl) rfl id id
    refine (Loaded.Steady.hold hh ?_).trans hk
    split <;> rfl

theorem MatchRecord.running_of_arrives {m : MatchRecord} (h : m.arrives = true) :
    m.phase.timed = true ∧ m.stopped = none := by
  obtain ⟨hc, -⟩ := Bool.and_eq_true_iff.1 h
  obtain ⟨ht, hs⟩ := Bool.and_eq_true_iff.1 hc
  exact ⟨ht, Option.isNone_iff_eq_none.1 hs⟩

theorem State.runningIn_iff {s : State} {f : FieldId} {p : Phase} :
    s.runningIn f p = true ↔ (s.fields.at f).phase = p ∧ (s.fields.at f).stopped = none := by
  rw [State.runningIn, Bool.and_eq_true_iff, beq_iff_eq, Option.isNone_iff_eq_none]

theorem State.abandonFrame_mgmt (s : State) (e : LinkError) : (s.abandonFrame e).mgmt = s.mgmt := by
  unfold State.abandonFrame
  split <;> rfl

theorem State.applyHead_mgmt (s : State) (rate : ArenaRate) (own console : Byte) (t : Timing)
    (line : LineId → LineRole × Level × Bool) : (s.applyHead rate own console t line).mgmt = s.mgmt := by
  have hl (ns : List LineId) (u : State) :
      (ns.foldl (fun s n => s.applyLine n (line n).1 (line n).2.1 (line n).2.2) u).mgmt = u.mgmt := by
    induction ns generalizing u with
    | nil => rfl
    | cons n ns ih => exact ih _
  exact (hl _ _).trans (s.abandonFrame_mgmt .truncated)

namespace State.RecordsBounded

variable {s : State}

/-! ### Commands -/

theorem dispose (h : s.RecordsBounded) (f : Frame) (code : Byte) {run : State → Answer}
    (hr : ∀ t, t.RecordsBounded → AnswerBounded (run t)) : (s.dispose f code run).RecordsBounded := by
  have hp : s.popStore.RecordsBounded := h.others
  unfold State.dispose
  dsimp only
  split
  · exact hp
  · split
    · exact hp
    · unfold State.answer
      generalize hx : run s.popStore = x
      obtain r | ⟨ht, data⟩ := hx ▸ hr s.popStore hp
      · exact hp.others
      · exact ht.others

theorem command (h : s.RecordsBounded) (code : Byte) (length : Nat) {run : State → List Byte → Answer}
    (hr : ∀ t ops, t.RecordsBounded → AnswerBounded (run t ops)) : (s.command code length run).RecordsBounded := by
  unfold State.command
  split
  · exact h
  · split
    · exact h
    · split
      · refine h.dispose _ code fun t ht => ?_
        split
        · exact hr t _ ht
        · exact .error _
      · exact h

/-! ### The receive line and the transmitter -/

theorem completeFrame (h : s.RecordsBounded) (got : List Byte) : (s.completeFrame got).RecordsBounded := by
  unfold State.completeFrame
  split
  · exact h.others
  · split
    · exact h.others
    · split
      all_goals exact h.others

theorem abandonFrame (h : s.RecordsBounded) (e : LinkError) : (s.abandonFrame e).RecordsBounded := by
  unfold State.abandonFrame
  split
  · exact h
  · exact h.others

theorem defective (h : s.RecordsBounded) : s.defective.RecordsBounded := (h.abandonFrame .framing).others

theorem receive (h : s.RecordsBounded) (b : Byte) : (s.receive b).RecordsBounded := by
  unfold State.receive
  split
  · split
    · exact h.others
    · exact h
  · split
    · exact h.others
    · split
      · exact h.completeFrame _
      · exact h.others

theorem edge (h : s.RecordsBounded) (edge : LinkEdge) : (s.edge edge).RecordsBounded := by
  have hb : (s.updLink fun l => { l with breakHold := false }).RecordsBounded := h.others
  unfold State.edge
  split
  · exact h
  · dsimp only
    split
    · exact hb
    · exact hb.receive _
    · exact hb.defective

/-- An update of a slot that touches neither its placing, its flags, its outstanding count nor its budget. -/
theorem updSlotQuiet (h : s.RecordsBounded) (i : SlotId) {g : Slot → Slot}
    (hg : ∀ x, g x = { x with
      radio := (g x).radio, age := (g x).age, silent := (g x).silent, lastSeq := (g x).lastSeq, held := (g x).held,
      throttled := (g x).throttled }) : (s.updSlot i g).RecordsBounded :=
  h.updSlot i (fun x => by rw [hg]; exact ⟨rfl, rfl, rfl, rfl⟩) (fun x => by rw [hg]) fun x hx => by rw [hg]; exact hx

theorem sendBeacon (h : s.RecordsBounded) (f : FieldId) : (s.sendBeacon f).RecordsBounded :=
  (h.others.foldl (fun h i => h.updSlotQuiet i (g := fun x => { x with throttled := false }) fun _ => rfl) _).others

theorem sendVerdict (h : s.RecordsBounded) (v : Verdict) : (s.sendVerdict v).RecordsBounded := by
  unfold State.sendVerdict
  dsimp only
  split
  all_goals exact h.others

theorem sendDrive (h : s.RecordsBounded) (i : SlotId) : (s.sendDrive i).RecordsBounded := by
  unfold State.sendDrive
  split
  · exact h
  · have ht := h.updSlotQuiet i (g := fun x => { x with held := none }) fun _ => rfl
    dsimp only
    split
    all_goals exact ht.others

theorem sendNotice (h : s.RecordsBounded) (n : Notice) : (s.sendNotice n).RecordsBounded :=
  (h.updMgmt (g := fun m => { m with notices := m.notices.tail }) id).others

theorem deviceReset (s : State) (rstn : Level) : (s.deviceReset rstn).RecordsBounded := State.reset_recordsBounded.others

/-! ### Frames at the Traffic Gate -/

theorem refresh (h : s.RecordsBounded) (i : SlotId) (radio : Radio) : (s.refresh i radio).RecordsBounded := by
  have hu := h.updSlotQuiet i (g := fun x => { x with radio, age := 0, silent := false }) fun _ => rfl
  unfold State.refresh
  dsimp only
  split
  · exact hu.queueNotice _
  · exact hu

theorem takeRobot (h : s.RecordsBounded) (i : SlotId) (radio : Radio) (f : Frame) {act : State → State}
    (ha : ∀ {t : State}, t.RecordsBounded → (act t).RecordsBounded) : (s.takeRobot i radio f act).RecordsBounded := by
  have hr : (s.popStore.refresh i radio).RecordsBounded := refresh h.others i radio
  unfold State.takeRobot
  dsimp only
  split
  · exact hr.others
  · exact ha hr

theorem holdDrive (h : s.RecordsBounded) (i : SlotId) (f : Frame) : (s.holdDrive i f).RecordsBounded := by
  have hu := h.updSlotQuiet i (g := fun x => { x with lastSeq := some f.seq, held := some f }) fun _ => rfl
  unfold State.holdDrive
  split
  · dsimp only
    split
    · exact hu.others
    · exact hu
  · exact h.others

theorem budgetTell (h : s.RecordsBounded) (i : SlotId) (f : Frame) : (s.budgetTell i f).RecordsBounded := by
  unfold State.budgetTell
  split
  · exact (h.updSlotQuiet i (g := fun x => { x with throttled := true }) fun _ => rfl).others
  · split
    · exact h.others
    · exact (h.updSlot i (g := fun x => { x with credit := x.credit - tellCost f }) (fun _ => ⟨rfl, rfl, rfl, rfl⟩)
        (fun _ => rfl) fun _ hx => (Nat.sub_le _ _).trans hx).others

/-- The seven tests of a CLAIM that admits it found the gate open and the slot on the element's field (R89). -/
theorem claimPayload (h : s.RecordsBounded) (i : SlotId) (p : List Byte) : (s.claimPayload i p).RecordsBounded := by
  refine h.bus (.claimPayload s i p) ?_
  unfold State.claimPayload
  split
  · exact (h.ordered.takeClaim i _ _ fun _ hg hf => ⟨hg, hf⟩).settle
  · exact h.ordered

theorem releasePayload (h : s.RecordsBounded) (i : SlotId) (p : List Byte) : (s.releasePayload i p).RecordsBounded := by
  refine h.bus (.releasePayload s i p) ?_
  cases p
  · exact h.ordered
  · exact (h.ordered.takeRelease i _).settle

/-! ### Timers -/

theorem refillAll (h : s.RecordsBounded) : s.refillAll.RecordsBounded := by
  have hs (i : SlotId) : s.refillAll.slots.at i =
      { s.slots.at i with credit := min (s.slots.at i).ceiling ((s.slots.at i).credit + (s.slots.at i).refill) } :=
    Table.at_map _ _ _
  refine h.keep { SameStanding.refl s with slots := fun i => ?_ }
    { h.ordered with outstanding := fun i => ?_, credit := fun i => ?_ }
  · rw [hs]
    exact ⟨rfl, rfl, rfl, rfl⟩
  · rw [hs]
    exact h.lawful.outstanding i
  · rw [hs]
    exact Nat.min_le_left _ _

theorem passSilence (h : s.RecordsBounded) (i : SlotId) : (s.passSilence i).RecordsBounded := by
  have hu := h.updSlotQuiet i (g := fun x => { x with age := max x.age (s.timing.silent + 1) }) fun _ => rfl
  unfold State.passSilence
  split
  · exact (hu.bus (.markSilent _ i) (hu.ordered.markSilent i)).settle
  · exact h

theorem expireHold (h : s.RecordsBounded) (e : ElementId) : (s.expireHold e).RecordsBounded := by
  unfold State.expireHold
  split
  · exact h
  · exact (h.bus (ArbiterKeeps.endHold s e .expired).toBus (h.ordered.endHold e .expired)).settle

theorem passActionLimit (h : s.RecordsBounded) (e : ElementId) : (s.passActionLimit e).RecordsBounded :=
  h.bus (.passActionLimit s e) (h.ordered.passActionLimit e)

theorem endGrace (h : s.RecordsBounded) (f : FieldId) : (s.updField f fun m => { m with grace := 0 }).RecordsBounded := by
  refine h.keep { SameStanding.refl s with fields := fun g => ?_ } (h.ordered.updField f _)
  rw [State.updField_fields, Table.at_put]
  split
  · next he => subst he; exact ⟨rfl, rfl, rfl⟩
  · exact ⟨rfl, rfl, rfl⟩

theorem probePeriodEnds (h : s.RecordsBounded) : s.probePeriodEnds.RecordsBounded := h.updBus h.safeQueue

/-- The countdowns of an element are no part of its bounds. -/
theorem updCountdowns (h : s.RecordsBounded) (e : ElementId) {g : Loaded → Loaded}
    (hg : ∀ l, g l = { l with resend := (g l).resend, actionPoll := (g l).actionPoll, sensor := (g l).sensor }) :
    (s.updLoaded e g).RecordsBounded :=
  h.bus (.updLoaded s e g fun l => by rw [hg]) (h.ordered.updLoaded e fun l _ =>
    .of_kept (by rw [hg]) (by rw [hg]) (by rw [hg]) (by rw [hg]; exact id) (by rw [hg]; exact id))

theorem countdownFall (h : s.RecordsBounded) (c : Countdown) : (c.fall s).RecordsBounded := by
  cases c
  case resend e => exact h.updCountdowns e (g := fun l => { l with resend := some 0 }) fun _ => rfl
  case actionPoll e => exact h.updCountdowns e (g := fun l => { l with actionPoll := some 0 }) fun _ => rfl
  case sensor e => exact h.updCountdowns e (g := fun l => { l with sensor := some 0 }) fun _ => rfl
  case probe => exact h.probePeriodEnds

theorem countdownsFall (h : s.RecordsBounded) (cs : List Countdown) : (s.countdownsFall cs).RecordsBounded := by
  refine settle (h.foldl (fun h c => ?_) _)
  split
  · exact h.countdownFall c
  · exact h

/-! ### The element bus -/

theorem fly (h : s.RecordsBounded) (t : Transaction) : (s.fly t).RecordsBounded := h.updBus h.safeQueue

theorem endTransaction (h : s.RecordsBounded) (t : Transaction) (o : BusOutcome) : (s.endTransaction t o).RecordsBounded :=
  h.keep (.endTransaction s t o) (h.ordered.endTransaction t o)

theorem answerReceived (h : s.RecordsBounded) (t : Transaction) (chars : List BusChar) (c : BusChar) :
    (s.answerReceived t chars c).RecordsBounded :=
  h.keep (.answerReceived s t chars c) (h.ordered.answerReceived t chars c)

theorem completeAnswer (h : s.RecordsBounded) (k : BusCommand) (edge : BusEdge) : (s.completeAnswer k edge).RecordsBounded := by
  unfold State.completeAnswer
  split
  · exact h.answerReceived _ _ _
  · exact h

theorem answerEdge (h : s.RecordsBounded) (t : Transaction) (chars : List BusChar) (ev : AnswerEvent) :
    (s.answerEdge t chars ev).RecordsBounded := by
  unfold State.answerEdge
  split
  · exact h
  · split
    · exact h.fly _
    · exact h.fly _
    · split
      · exact h.fly _
      · exact h.answerReceived _ _ _

/-! ### The phases of a RUNNING field -/

theorem expireTimed (h : s.RecordsBounded) {f : FieldId} {dest : Phase × Nat} (ht : (s.fields.at f).phase.timed = true)
    (hr : (s.fields.at f).stopped = none) (hd : dest.1.timed = true) : (s.expireInto f dest).settle.RecordsBounded :=
  (h.expireInto (Phase.ne_idle_of_timed ht) hr (Phase.ne_idle_of_timed hd)).settle

theorem crossBoundary (h : s.RecordsBounded) {f : FieldId} (ht : (s.fields.at f).phase.timed = true) :
    (s.crossBoundary f).settle.RecordsBounded :=
  (h.enterPhase (Phase.ne_idle_of_timed ht) rfl (.inr rfl)).settle

theorem matchEnds (h : s.RecordsBounded) {f : FieldId} (hl : (s.fields.at f).lastPhase = true)
    (hr : (s.fields.at f).stopped = none) : (s.expireMatch f).settle.RecordsBounded := by
  refine (h.expireMatch (fun hi => ?_) hr).settle
  rw [MatchRecord.lastPhase, hi] at hl
  exact nomatch hl

/-! ### The end of STARTING -/

/-- Through STARTING every field is IDLE, so that no slot has claims or holds, and the Element Table may be emptied (R195). -/
theorem emptied (h : s.RecordsBounded) (hm : s.mgmt.mode = .starting) :
    State.RecordsBounded { s with elements := Table.fill 48 .empty } := by
  have hn {e : ElementId} {l : Loaded} : State.loadedAt { s with elements := Table.fill 48 .empty } e ≠ some l := by
    rw [State.loadedAt_def, Table.at_fill]
    exact nofun
  have hs (i : SlotId) : s.workOf i = 0 :=
    State.workOf_eq_zero fun e l hl => h.idle_freeOf hl (h.lawful.starting hm _) i
  refine h.keep { SameStanding.refl s with }
    { loaded := fun e l hl => absurd hl hn, outstanding := fun i => ?_, credit := h.credit, safeQueue := h.safeQueue }
  rw [State.workOf_eq_zero fun e l hl => absurd hl hn, ← hs i]
  exact h.lawful.outstanding i

theorem applyHead (h : s.RecordsBounded) (rate : ArenaRate) (own console : Byte) (t : Timing)
    (line : LineId → LineRole × Level × Bool) : (s.applyHead rate own console t line).RecordsBounded :=
  (h.abandonFrame .truncated).others.foldl (fun h _ => h.others) _

theorem applyEntry {p : State × Nat} (h : p.1.RecordsBounded) (b : List Byte) :
    (State.applyEntry p b).1.RecordsBounded := by
  unfold State.applyEntry
  split
  · split
    · next hc =>
      obtain ⟨hn, -⟩ := hc
      refine h.updElement (g := fun _ => { loaded := some (.fresh _), rules := _, eventCount := 0 }) (fun l hl => ?_)
        fun m hm => ?_
      · rw [hl] at hn
        exact nomatch hn
      · cases hm
        exact ⟨Loaded.fresh_ordered _ _, Loaded.fresh_free _⟩
    · exact h
  · exact h

theorem loadEntries (h : s.RecordsBounded) (hm : s.mgmt.mode = .starting) (entries : List (List Byte)) :
    (s.loadEntries entries).1.RecordsBounded := by
  have hl : ∀ (l : List (List Byte)) (p : State × Nat),
      p.1.RecordsBounded → (l.foldl State.applyEntry p).1.RecordsBounded := by
    intro l
    induction l with
    | nil => exact fun p hp => hp
    | cons b l ih => exact fun p hp => ih _ (applyEntry hp b)
  exact hl entries _ (h.emptied hm)

theorem leaveStarting (h : s.RecordsBounded) (valid : Bool) (skipped : Nat) :
    (s.leaveStarting valid skipped).RecordsBounded := by
  have hm : (s.setMode .uncommissioned).RecordsBounded :=
    h.updMgmt (g := fun x => { x with mode := .uncommissioned }) nofun
  unfold State.leaveStarting
  exact ((hm.updBus (g := fun b => { b with state := .running, probeTurn := true, probeLeft := some _ }) hm.safeQueue).others.queueNotice _).settle

theorem endStarting (h : s.RecordsBounded) (hm : s.mgmt.mode = .starting) (image : List Byte) (fill : Byte) :
    (s.endStarting image fill).RecordsBounded := by
  have hh (rate : ArenaRate) (own console : Byte) (t : Timing) (line : LineId → LineRole × Level × Bool) :
      (s.applyHead rate own console t line).mgmt.mode = .starting := (congrArg Mgmt.mode (s.applyHead_mgmt ..)).trans hm
  unfold State.endStarting
  split
  · exact ((h.applyHead _ _ _ _ _).loadEntries (hh _ _ _ _ _) _).leaveStarting _ _
  · exact ((h.applyHead _ _ _ _ _).loadEntries (hh _ _ _ _ _) _).leaveStarting _ _

theorem readStep (h : s.RecordsBounded) (hm : s.mgmt.mode = .starting) : s.readStep.RecordsBounded := by
  unfold State.readStep
  split
  · exact h.others
  · exact h.others
  · exact h.endStarting hm _ _
  · exact h.endStarting hm _ _
  all_goals exact h

/-! ### The end of a millisecond -/

theorem advance (h : s.RecordsBounded) : s.advance.RecordsBounded := by
  have hf (g : FieldId) : s.advance.fields.at g = (s.fields.at g).tick := Table.at_map _ _ _
  have hs (i : SlotId) : s.advance.slots.at i = { s.slots.at i with age := tickUp (s.slots.at i).age } := Table.at_map _ _ _
  have hl (e : ElementId) : s.advance.loadedAt e = (s.loadedAt e).map Loaded.tick :=
    congrArg Element.loaded (Table.at_map s.elements _ e)
  refine h.keep ⟨id, fun g => by rw [hf]; exact ⟨rfl, rfl, rfl⟩, fun i => by rw [hs]; exact ⟨rfl, rfl, rfl, rfl⟩⟩
    ⟨fun e m hm => ?_, fun i => ?_, fun i => ?_, h.safeQueue⟩
  · rw [hl, Option.map_eq_some_iff] at hm
    obtain ⟨l, hl, rfl⟩ := hm
    exact (l.tick_steady _).1 (h.ordered.loaded e l hl)
  · rw [hs, State.workOf_congr (s := s) fun e => ?_]
    · exact h.lawful.outstanding i
    · rw [hl]
      cases s.loadedAt e with
      | none => rfl
      | some l => exact (l.tick_steady s.Permits).2 i
  · rw [hs]
    exact h.credit i

/-- A moment that stands finds a field RUNNING in the phase that it ends (R48). -/
theorem moment (h : s.RecordsBounded) {m : Moment} (hm : m.stands s = true) : (m.act s).RecordsBounded := by
  cases m
  case autoExpiry f =>
    obtain ⟨ht, hr⟩ := MatchRecord.running_of_arrives (Bool.and_eq_true_iff.1 hm).2
    exact h.expireTimed ht hr (MatchRecord.runFromPause_timed _)
  case pauseExpiry f =>
    obtain ⟨ht, hr⟩ := MatchRecord.running_of_arrives (Bool.and_eq_true_iff.1 hm).2
    exact h.expireTimed ht hr (MatchRecord.runFromTeleop_timed _)
  case endgameBoundary f => exact h.crossBoundary (MatchRecord.running_of_arrives (Bool.and_eq_true_iff.1 hm).2).1
  case matchEnd f =>
    obtain ⟨hl, ha⟩ := Bool.and_eq_true_iff.1 hm
    exact h.matchEnds hl (MatchRecord.running_of_arrives ha).2
  case graceEnd f => exact h.endGrace f
  case holdExpiry e => exact h.expireHold e
  case actionLimit e => exact (h.passActionLimit e).settle
  case countdowns cs => exact h.countdownsFall cs
  case budget => exact h.refillAll
  case silence => exact h.silenceTests.settle
  case beacon => exact h.others
  case sample => exact h.takeSample _

theorem countAndRun (h : s.RecordsBounded) : s.countAndRun.RecordsBounded := by
  unfold State.countAndRun State.runMoments
  refine foldl (fun h m => ?_) h.advance.others _
  split
  · next hm => exact h.moment hm
  · exact h

theorem tick (h : s.RecordsBounded) : s.tick.RecordsBounded := by
  unfold State.tick
  split
  · next hm => exact h.readStep (by simpa [State.timersRun] using hm)
  · split
    · exact (countAndRun (takeSample h.others _).others).others
    · exact countAndRun h.others

end State.RecordsBounded

/-! ### Rows and steps -/

/-- What is answered is a next state within the bounds and laws. -/
inductive StepBounded : Host.Outcome State Fault Refusal → Prop
  | next {t : State} (h : t.RecordsBounded) : StepBounded (.next t)

/-- A row that makes one of two changes. -/
theorem StepBounded.ite {p : Prop} [Decidable p] {t u : State} (ht : p → t.RecordsBounded) (hu : u.RecordsBounded) :
    StepBounded (.next (if p then t else u)) := by
  split
  · next hp => exact .next (ht hp)
  · exact .next hu

/-- The row of every MANAGE command keeps the bounds and laws. -/
theorem State.RecordsBounded.manage {s : State} (h : s.RecordsBounded) {c : Instr} (hc : c ∈ commandTable.map Prod.fst) :
    StepBounded (Machine.exec c s) := by
  obtain ⟨⟨c, code, n⟩, hm, rfl⟩ := List.mem_map.mp hc
  obtain ⟨run, hx, hr⟩ := exec_command_bounded hm
  rw [hx]
  exact .next (h.command code n hr)

/-- Every row keeps the bounds and laws. -/
theorem State.RecordsBounded.exec {s : State} (h : s.RecordsBounded) (c : Instr) : StepBounded (exec c s) := by
  have ho : s.popStore.RecordsBounded := h.others
  cases c
  case deviceReset rstn => exact .next (.deviceReset s rstn)
  case endOfStarting image fill => exact .ite (fun hm => h.endStarting hm.1 _ _) h
  case frameComplete check =>
    simp only [Machine.exec, execFrameComplete]
    split
    · exact .next h
    · exact .ite (fun _ => h.completeFrame _) h
  case framing => exact .ite (fun _ => h) h.defective
  case overlong length =>
    simp only [Machine.exec, execOverlong]
    split
    · exact .next h
    · exact .ite (fun _ => h.others) h
  case truncated => exact .next (h.abandonFrame _)
  case startingFrame =>
    simp only [Machine.exec, execStartingFrame]
    split
    · exact .ite (fun _ => h.others) h.others
    · exact .next h
  case droppedFrame =>
    simp only [Machine.exec, execDroppedFrame]
    split
    · exact .next h.others
    · split
      · exact .next (h.takeRobot _ _ _ id)
      · exact .next h
    · split
      · exact .next h.others
      · exact .next h
    all_goals exact .next h
  case drive =>
    simp only [Machine.exec, execDrive]
    split
    · split
      · split
        · exact .next h.others
        · exact .next (ho.holdDrive _ _)
      · exact .next h
    all_goals exact .next h
  case tell =>
    simp only [Machine.exec, execTell]
    split
    · split
      · exact .next (h.takeRobot _ _ _ fun h => h.budgetTell _ _)
      · exact .next h
    all_goals exact .next h
  case claim =>
    simp only [Machine.exec, execClaim]
    split
    · split
      · exact .next (h.takeRobot _ _ _ fun h => h.claimPayload _ _)
      · exact .next h
    all_goals exact .next h
  case release =>
    simp only [Machine.exec, execRelease]
    split
    · split
      · exact .next (h.takeRobot _ _ _ fun h => h.releasePayload _ _)
      · exact .next h
    all_goals exact .next h
  case unknownCommand =>
    simp only [Machine.exec, execUnknownCommand]
    split
    · exact .next h
    · split
      · exact .next (h.dispose _ _ fun _ _ => .error _)
      · refine .next ?_
        split
        · exact h
        · exact h.dispose _ _ fun _ _ => .error _
  case commission | decommission | restart | loadStation | clearStation | loadSlot | clearSlot | loadMatch | start | stop |
      resume | abort | commit | resetMatch | disableSlot | bypassSlot | loadLine | clearLineFlags | loadElement |
      clearElementEntry | clearElementFault | loadScoreRule | penalty | correct | setTiming | busPause | busResume | read |
      readNext => exact h.manage (by decide)
  case takeBeacon =>
    simp only [Machine.exec, execTakeBeacon]
    split
    · exact .next (h.sendBeacon _)
    · exact .next h
  case takeVerdict =>
    simp only [Machine.exec, execTakeVerdict]
    split
    · exact .next (h.sendVerdict _)
    · exact .next h
  case takeDrive =>
    simp only [Machine.exec, execTakeDrive]
    split
    · exact .next (h.sendDrive _)
    · exact .next h
  case takeReply =>
    simp only [Machine.exec, execTakeReply]
    split
    · exact .next h.others
    · exact .next h
  case takeNotice =>
    simp only [Machine.exec, execTakeNotice]
    split
    · exact .next (h.sendNotice _)
    · exact .next h
  case takeTell =>
    simp only [Machine.exec, execTakeTell]
    split
    · exact .next h.others
    · exact .next h
  case frameSent =>
    simp only [Machine.exec, execFrameSent]
    split
    · exact .next (.deviceReset s _)
    · exact .next h.others
    all_goals exact .next h
  case transmitterFree =>
    simp only [Machine.exec, execTransmitterFree]
    split
    · exact .next h.others
    all_goals exact .next h
  case autoExpiry f =>
    refine .ite (fun hr => ?_) h
    obtain ⟨hp, hs⟩ := State.runningIn_iff.1 hr
    exact h.expireTimed (by rw [hp]; rfl) hs (MatchRecord.runFromPause_timed _)
  case pauseExpiry f =>
    refine .ite (fun hr => ?_) h
    obtain ⟨hp, hs⟩ := State.runningIn_iff.1 hr
    exact h.expireTimed (by rw [hp]; rfl) hs (MatchRecord.runFromTeleop_timed _)
  case endgameBoundary f =>
    refine .ite (fun hr => ?_) h
    obtain ⟨hp, -⟩ := State.runningIn_iff.1 (Bool.and_eq_true_iff.1 hr).1
    exact h.crossBoundary (by rw [hp]; rfl)
  case matchEndExpiry f =>
    refine .ite (fun hr => ?_) h
    obtain ⟨hl, hs⟩ := Bool.and_eq_true_iff.1 hr
    exact h.matchEnds hl (Option.isNone_iff_eq_none.1 hs)
  case postGraceEnd f => exact .ite (fun _ => h.endGrace f) h
  case holdExpiry e => exact .next (h.expireHold e)
  case budgetTick => exact .ite (fun _ => h.refillAll) h
  case silentTimeout i => exact .next (h.passSilence i)
  case beaconPeriod => exact .ite (fun _ => h.others) h
  case lineSample pins => exact .ite (fun _ => h.takeSample _) h
  case unfilteredLineChange n v => exact .ite (fun _ => (h.changePin n v).settle) h.others
  case actionLimit e => exact .ite (fun _ => (h.passActionLimit e).settle) h
  case resendCountdown e =>
    exact .ite (fun _ => (h.updCountdowns e (g := fun l => { l with resend := madeDue l.resend }) fun _ => rfl).settle) h
  case actionPollCountdown e =>
    exact .ite (fun _ => (h.updCountdowns e (g := fun l => { l with actionPoll := madeDue l.actionPoll }) fun _ => rfl).settle) h
  case sensorCountdown e =>
    exact .ite (fun _ => (h.updCountdowns e (g := fun l => { l with sensor := madeDue l.sensor }) fun _ => rfl).settle) h
  case probeCountdown => exact .ite (fun _ => h.probePeriodEnds.settle) h
  case busRestEnd =>
    simp only [Machine.exec, execBusRestEnd]
    split
    · exact .next (h.updBus (g := fun b => { b with
        activity := .idle, state := if b.state = .pausing then .paused else b.state }) h.safeQueue).settle
    all_goals exact .next h
  case masterFrameEnd =>
    simp only [Machine.exec, execMasterFrameEnd]
    split
    · split
      · exact .next (h.fly _)
      all_goals exact .next h
    all_goals exact .next h
  case answerWindowExpiry =>
    simp only [Machine.exec, execAnswerWindowExpiry]
    split
    · split
      · exact .next (h.endTransaction _ _).settle
      all_goals exact .next h
    all_goals exact .next h
  case answerCutOff =>
    simp only [Machine.exec, execAnswerCutOff]
    split
    · split
      · exact .next (h.endTransaction _ _).settle
      all_goals exact .next h
    all_goals exact .next h
  case probeAnswer edge | actuateAnswer edge | actionPollAnswer edge | sensorPollAnswer edge | fetchAnswer edge |
      safeAnswer edge => exact .next (h.completeAnswer _ edge)
  case characterReceived edge => exact .ite (fun _ => h) (h.edge edge)
  case answerCharacter ev =>
    simp only [Machine.exec, execAnswerCharacter]
    split
    · split
      · exact .next (h.answerEdge _ _ ev)
      · exact .next h
    all_goals exact .next h

/-- Every step keeps the bounds and laws: that of the front command, and the part's own next moment. -/
theorem State.RecordsBounded.step {s : State} (h : s.RecordsBounded) : StepBounded (step s) := by
  unfold Machine.step
  split
  · exact exec h.others _
  · unfold ownStep
    split
    · exact h.exec _
    · split
      · exact h.exec _
      · exact .next h.tick

/-- Settles O60, by the preservation of the bounds and laws through every procedure: in STARTING, the gate-off events of a
change, and the placing of a match are the cases that need the laws. -/
theorem recordsStayBounded : Obligations.RecordsStayBounded := by
  intro s t h hs
  have hb := h.step
  rw [hs] at hb
  obtain ⟨ht⟩ := hb
  exact ht

end Sys2Proof.Machine
end

section
/-! SUPPORT. The frames that the Traffic Gate hands on: the WAIT of STARTING, the DRIVE hold store, the TELL queue, and the
refresh of a robot's slot (R28, R31 to R38). -/

namespace Sys2Proof.Machine

open Sys2Proof

/-! ### Frames taken in STARTING (R28) -/

/-- Settles O12: the three cases are the condition of R28 and its two ways to fail. -/
theorem startingFrameResult : Obligations.StartingFrameResult := by
  intro s f rest hm hs
  have hx : exec .startingFrame s = .next (if f.kind = 0x40#8 ∧ f.src = s.link.console ∧ s.mgmt.restartPending = false ∧
      s.link.replies.length < 4 then s.replied f rest (f.payload.headD 0) .wait else s.taken rest) := by
    simp only [exec, execStartingFrame, hm, hs, State.popStore_eq hs]
    rfl
  rw [hx]
  refine ⟨fun hk hc hr hl => ?_, fun hk hc hb => ?_, fun hn => ?_⟩
  · rw [if_pos ⟨hk, hc, hr, hl⟩]
  · rw [if_neg]
    rintro ⟨-, -, hr, hl⟩
    rcases hb with hb | hb
    · exact nomatch hb.symm.trans hr
    · omega
  · rw [if_neg]
    rintro ⟨hk, hc, -⟩
    exact hn.elim (· hk) (· hc)

section
variable {s : State} {f : Frame} {rest : List Frame} {i : SlotId} {radio : Radio}

/-! ### DRIVE (R36 to R38) -/

theorem freshSequence_iff {last : Option Byte} {q : Byte} :
    freshSequence last q = true ↔ ∀ l, last = some l → 1 ≤ (q - l).toNat ∧ (q - l).toNat ≤ 127 := by
  cases last <;> simp [freshSequence]

theorem State.driverDrop_passes (hk : f.kind = 0x10#8) (hd : s.driveAllowed i f.dst = true) (hl : 1 ≤ f.payload.length) :
    s.driverDrop i f = none := by
  have : ¬ f.payload.length < 1 := Nat.not_lt.2 hl
  simp [State.driverDrop, (frameKindOf_eq_some (k := .drive)).2 hk, hd, minimumLength, this]

theorem DriverFrame.exec_drive (h : DriverFrame s f rest i) (hk : f.kind = 0x10#8) (hd : s.driverDrop i f = none) :
    exec .drive s = .next ((s.taken rest).holdDrive i f) := by
  simp only [exec, execDrive, h.headFrame, (frameKindOf_eq_some (k := .drive)).2 hk, hd, State.popStore_eq h.store, if_true]

theorem State.holdDrive_fresh (hf : freshSequence (s.slots.at i).lastSeq f.seq = true) : s.holdDrive i f =
    { s with
      slots := s.slots.put i { s.slots.at i with lastSeq := some f.seq, held := some f }
      gate := if (s.slots.at i).held = none then s.gate else s.gate.count .superseded } := by
  rw [State.holdDrive, if_pos hf]
  cases hh : (s.slots.at i).held <;> rfl

theorem State.holdDrive_stale (hf : freshSequence (s.slots.at i).lastSeq f.seq = false) :
    s.holdDrive i f = s.countDrop .stale := by
  rw [State.holdDrive, if_neg (Bool.eq_false_iff.1 hf)]

end

/-- Settles O14: R37's test of the sequence decides between the two. -/
theorem driveIsHeldOrStale : Obligations.DriveIsHeldOrStale := by
  intro s f rest i st h hk hst hd hl
  have hallow : s.driveAllowed i f.dst = true := by
    rw [Station.isRadio_iff (stationOf_mem hst).2.1] at hd
    exact (s.driveAllowed_iff i f.dst).2 ⟨st, hst, hd⟩
  rw [h.exec_drive hk (State.driverDrop_passes hk hallow hl)]
  refine ⟨fun hfresh => ?_, fun last hlast hstale => ?_⟩
  · rw [State.holdDrive_fresh (s := s.taken rest) (freshSequence_iff.2 hfresh)]
    rfl
  · rw [State.holdDrive_stale (s := s.taken rest) (Bool.eq_false_iff.2 fun hf => ?_)]
    · rfl
    · have := freshSequence_iff.1 hf last hlast
      omega

/-! ### What a robot's frame leaves alone (R31, R42) -/

/-- What is left alone when a robot's frame is dropped or handed on after the refresh of its slot (R31). -/
structure HandedOn (s t : State) : Prop where
  store : t.link.store = s.link.store
  heard : ∀ j, (t.slots.at j).radio = (s.slots.at j).radio ∧ (t.slots.at j).age = (s.slots.at j).age ∧
    (t.slots.at j).silent = (s.slots.at j).silent
  mgmt : t.mgmt = s.mgmt
  fields : t.fields = s.fields
  tallies : t.tallies = s.tallies
  stations : t.stations = s.stations
  lines : t.lines = s.lines
  timing : t.timing = s.timing

section
variable {s t : State} {f : Frame} {rest : List Frame} {i : SlotId} {radio : Radio}

theorem HandedOn.refl (s : State) : HandedOn s s := ⟨rfl, fun _ => ⟨rfl, rfl, rfl⟩, rfl, rfl, rfl, rfl, rfl, rfl⟩

theorem ArbiterKeeps.handedOn (h : ArbiterKeeps s t) : HandedOn s t.settle where
  store := by rw [State.settle_link, h.link]
  heard j := by rw [State.settle_slots, h.slots j]; exact ⟨rfl, rfl, rfl⟩
  mgmt := by rw [State.settle_mgmt, h.mgmt]
  fields := by rw [State.settle_fields, h.fields]
  tallies := by rw [State.settle_tallies, h.tallies]
  stations := by rw [State.settle_stations, h.stations]
  lines := by rw [State.settle_lines, h.lines]
  timing := by rw [State.settle_timing, h.timing]

theorem HandedOn.countDrop (s : State) (r : DropReason) : HandedOn s (s.countDrop r) := { HandedOn.refl s with }

/-- An update of a slot's budget or throttled mark. -/
theorem HandedOn.updSlot (s : State) (i : SlotId) {g : Slot → Slot}
    (hg : ∀ x, (g x).radio = x.radio ∧ (g x).age = x.age ∧ (g x).silent = x.silent) : HandedOn s (s.updSlot i g) := by
  refine { HandedOn.refl s with heard := fun j => ?_ }
  rw [State.updSlot_slots, Table.at_put]
  split
  · next hj => subst hj; exact hg _
  · exact ⟨rfl, rfl, rfl⟩

theorem HandedOn.budgetTell (s : State) (i : SlotId) (f : Frame) : HandedOn s (s.budgetTell i f) := by
  unfold State.budgetTell
  split
  · exact { HandedOn.updSlot s i (g := fun x => { x with throttled := true }) fun _ => ⟨rfl, rfl, rfl⟩ with }
  · split
    · exact .countDrop s _
    · exact { HandedOn.updSlot s i (g := fun x => { x with credit := x.credit - tellCost f }) fun _ => ⟨rfl, rfl, rfl⟩ with }

theorem HandedOn.claimPayload (s : State) (i : SlotId) (p : List Byte) : HandedOn s (s.claimPayload i p) := by
  unfold State.claimPayload
  split
  · exact (ArbiterKeeps.takeClaim s i _ _).handedOn
  · exact .refl s

theorem HandedOn.releasePayload (s : State) (i : SlotId) (p : List Byte) : HandedOn s (s.releasePayload i p) := by
  cases p
  · exact .refl s
  · exact (ArbiterKeeps.takeRelease s i _).handedOn

/-- A robot's frame of a kind is dropped or handed on after the refresh of its slot (R31). -/
theorem RobotFrame.takeRobot (h : RobotFrame s f rest i radio) {act : State → State} (ha : ∀ t, HandedOn t (act t)) :
    HandedOn (s.takenFromRobot rest i radio) (s.takeRobot i radio f act) := by
  unfold State.takeRobot
  rw [State.popStore_eq h.store, State.taken_refresh]
  dsimp only
  split
  · exact .countDrop _ _
  · exact ha _

theorem RobotFrame.exec_handedOn (h : RobotFrame s f rest i radio) {c : Instr} {k : Byte}
    (hc : (c, k) ∈ [(Instr.tell, 0x11#8), (.claim, 0x20#8), (.release, 0x21#8)]) (hk : f.kind = k) :
    ∃ t, exec c s = .next t ∧ HandedOn (s.takenFromRobot rest i radio) t := by
  simp only [List.mem_cons, Prod.mk.injEq, List.not_mem_nil, or_false] at hc
  rcases hc with ⟨rfl, rfl⟩ | ⟨rfl, rfl⟩ | ⟨rfl, rfl⟩
  · refine ⟨_, ?_, h.takeRobot fun t => .budgetTell t i f⟩
    simp only [exec, execTell, h.headFrame, (frameKindOf_eq_some (k := .tell)).2 hk, if_true]
  · refine ⟨_, ?_, h.takeRobot fun t => .claimPayload t i f.payload⟩
    simp only [exec, execClaim, h.headFrame, (frameKindOf_eq_some (k := .claim)).2 hk, if_true]
  · refine ⟨_, ?_, h.takeRobot fun t => .releasePayload t i f.payload⟩
    simp only [exec, execRelease, h.headFrame, (frameKindOf_eq_some (k := .release)).2 hk, if_true]

/-- The refresh of a slot that was not silent queues no notice (R31, R42). -/
theorem State.takenFromRobot_mgmt (rest : List Frame) (radio : Radio) (h : (s.slots.at i).silent = false) :
    (s.takenFromRobot rest i radio).mgmt = s.mgmt := by
  unfold State.takenFromRobot
  rw [h]
  rfl

theorem State.takenFromRobot_notices (rest : List Frame) (radio : Radio) (h : (s.slots.at i).silent = true)
    (hn : s.mgmt.notices.length < 16) : (s.takenFromRobot rest i radio).mgmt.notices =
      s.mgmt.notices ++ [{ dropped := s.mgmt.dropped, content := .heard i }] := by
  unfold State.takenFromRobot
  rw [h]
  exact congrArg Mgmt.notices (s.queueNotice_room (.heard i) hn)

/-- The refresh of a slot leaves every block but the slot's record, the receive store and the notices alone (R31). -/
theorem State.takenFromRobot_eq (s : State) (rest : List Frame) (i : SlotId) (radio : Radio) :
    s.takenFromRobot rest i radio = { s with
      link := { s.link with store := rest }
      slots := s.slots.put i ((s.slots.at i).refreshed radio)
      mgmt := (s.takenFromRobot rest i radio).mgmt } := by
  unfold State.takenFromRobot
  dsimp only
  split <;> rfl

end

/-- Settles O16: what follows the refresh leaves radio, age, silent mark and notices alone. -/
theorem robotFrameRefreshesSlot : Obligations.RobotFrameRefreshesSlot := by
  intro c k hc s f rest i radio h hk
  obtain ⟨t, ht, ho⟩ := h.exec_handedOn hc hk
  have he := s.takenFromRobot_eq rest i radio
  have hi : (s.takenFromRobot rest i radio).slots.at i = (s.slots.at i).refreshed radio := by simp
  refine ⟨t, ht, ho.store, ?_, ?_, ?_, fun j hj => ?_, fun hq => ?_, fun hq hn => ?_, ?_, ?_, ?_, ?_, ?_⟩
  · rw [(ho.heard i).1, hi]; rfl
  · rw [(ho.heard i).2.1, hi]; rfl
  · rw [(ho.heard i).2.2, hi]; rfl
  · have hsame : (s.takenFromRobot rest i radio).slots.at j = s.slots.at j := by
      rw [State.takenFromRobot_slots, Table.at_put_other _ _ hj]
    rw [← hsame]
    exact ho.heard j
  · rw [ho.mgmt, State.takenFromRobot_mgmt rest radio hq]
  · rw [ho.mgmt, State.takenFromRobot_notices rest radio hq hn]
  · rw [ho.fields, he]
  · rw [ho.tallies, he]
  · rw [ho.stations, he]
  · rw [ho.lines, he]
  · rw [ho.timing, he]

/-! ### TELL (R33, R34) -/

section
variable {s : State} {f : Frame} {rest : List Frame} {i : SlotId} {radio : Radio}

theorem State.robotDrop_tellAllowed (hb : (s.slots.at i).bypassed = false) (hk : f.kind = 0x11#8)
    (hd : s.tellAllowed i f.dst = true) : s.robotDrop i f = none := by
  simp [State.robotDrop, hb, (frameKindOf_eq_some (k := .tell)).2 hk, hd]

theorem RobotFrame.exec_tell (h : RobotFrame s f rest i radio) (hk : f.kind = 0x11#8) (hd : s.robotDrop i f = none) :
    exec .tell s = .next ((s.takenFromRobot rest i radio).budgetTell i f) := by
  simp only [exec, execTell, h.headFrame, (frameKindOf_eq_some (k := .tell)).2 hk, if_true, State.takeRobot,
    State.popStore_eq h.store, State.taken_refresh, State.takenFromRobot_robotDrop, hd]

theorem State.budgetTell_throttled (h : (s.slots.at i).credit < tellCost f) : s.budgetTell i f =
    { s with slots := s.slots.put i { s.slots.at i with throttled := true }, gate := s.gate.count .throttled } := by
  rw [State.budgetTell, if_pos h]
  rfl

theorem State.budgetTell_full (h : tellCost f ≤ (s.slots.at i).credit) (hl : 16 ≤ s.link.tells.length) :
    s.budgetTell i f = s.countDrop .tellFull := by
  rw [State.budgetTell, if_neg (Nat.not_lt.2 h), if_pos (show Config.tellCapacity ≤ _ from hl)]

theorem State.budgetTell_queued (h : tellCost f ≤ (s.slots.at i).credit) (hl : s.link.tells.length < 16) :
    s.budgetTell i f = { s with
      slots := s.slots.put i { s.slots.at i with credit := (s.slots.at i).credit - tellCost f }
      link := { s.link with tells := s.link.tells ++ [f] } } := by
  rw [State.budgetTell, if_neg (Nat.not_lt.2 h), if_neg (show ¬ Config.tellCapacity ≤ _ from Nat.not_le.2 hl)]
  rfl

/-- A TELL changes its slot, the link and the drop counters, and nothing else (R34). -/
theorem State.budgetTell_eq (s : State) (i : SlotId) (f : Frame) : s.budgetTell i f =
    { s with slots := (s.budgetTell i f).slots, link := (s.budgetTell i f).link, gate := (s.budgetTell i f).gate } := by
  unfold State.budgetTell
  split
  · rfl
  · split <;> rfl

theorem Table.put_put {n : Nat} {α : Type} (t : Table n α) (i : Fin n) (x y : α) : (t.put i x).put i y = t.put i y := by
  refine Table.ext fun j => ?_
  by_cases hj : j = i
  · rw [hj, Table.at_put_same, Table.at_put_same]
  · rw [Table.at_put_other _ _ hj, Table.at_put_other _ _ hj, Table.at_put_other _ _ hj]

end

/-- Settles O15: the refreshed slot's credit and the TELL queue's room decide between the three. -/
theorem tellIsQueuedWithinBudget : Obligations.TellIsQueuedWithinBudget := by
  intro s f rest i radio h hk hb hd
  have hdrop := State.robotDrop_tellAllowed hb hk ((s.tellAllowed_iff i f.dst).2 hd)
  have hi : (s.takenFromRobot rest i radio).slots.at i = (s.slots.at i).refreshed radio := by simp
  have he := s.takenFromRobot_eq rest i radio
  have hcredit : ((s.takenFromRobot rest i radio).slots.at i).credit = (s.slots.at i).credit := by rw [hi]; rfl
  refine ⟨_, h.exec_tell hk hdrop, fun hc => ?_, fun hc hl => ?_, fun hc hl => ?_, fun hq => ?_, ?_⟩
  · rw [State.budgetTell_throttled (by rw [hcredit]; exact hc), hi, State.takenFromRobot_slots, Table.put_put]
    exact ⟨rfl, rfl, by rw [State.takenFromRobot_gate]; rfl⟩
  · rw [State.budgetTell_full (s := s.takenFromRobot rest i radio) (by rw [hcredit]; exact hc) hl]
    exact ⟨rfl, rfl, by rw [State.countDrop, State.takenFromRobot_gate]; rfl⟩
  · rw [State.budgetTell_queued (s := s.takenFromRobot rest i radio) (by rw [hcredit]; exact hc) hl, hi, State.takenFromRobot_slots, Table.put_put]
    exact ⟨rfl, rfl, s.takenFromRobot_gate rest i radio⟩
  · rw [(HandedOn.budgetTell _ i f).mgmt, State.takenFromRobot_mgmt rest radio hq]
  · rw [State.budgetTell_eq, he]
    exact ⟨rfl, rfl, rfl, rfl, rfl, rfl, rfl, rfl, rfl⟩

end Sys2Proof.Machine
end

section
/-! SUPPORT. The Station Table and the Robot Slot Table: loads and clears, with their refusals (R20 to R25). -/

namespace Sys2Proof.Machine

open Sys2Proof

/-! ### The commands of slots (R24, R25) -/

theorem slotOf_range {b : Byte} (h : 32 ≤ b.toNat) : slotOf b = none := dif_neg (Nat.not_lt.2 h)

theorem slotOf_lt {b : Byte} {i : SlotId} (h : slotOf b = some i) : b.toNat < 32 := by
  by_contra hb
  exact nomatch (slotOf_range (Nat.not_lt.1 hb)).symm.trans h

section
variable {s : State} {b t1 t2 t3 c1 c2 q : Byte} {i : SlotId}

theorem runLoadSlot_range
    (h : 32 ≤ b.toNat ∨ nat24 t1 t2 t3 = 0 ∨ 99999 < nat24 t1 t2 t3 ∨ nat16 c1 c2 < 64 ∨ 4095 < nat16 c1 c2) :
    runLoadSlot s [b, t1, t2, t3, c1, c2, q] = .error .range := by
  rcases h with h | h
  · simp only [runLoadSlot, slotOf_range h]
  · simp only [runLoadSlot]
    split
    · rfl
    · rw [if_pos h]

/-- A load within its ranges: a full load, a budget load, or FIELD-LIVE (R24). -/
theorem runLoadSlot_inRange (hb : slotOf b = some i)
    (h : ¬ (nat24 t1 t2 t3 = 0 ∨ 99999 < nat24 t1 t2 t3 ∨ nat16 c1 c2 < 64 ∨ 4095 < nat16 c1 c2)) :
    runLoadSlot s [b, t1, t2, t3, c1, c2, q] =
      if (s.slots.at i).placing = none then
        .ok (s.updSlot i fun x => x.fullLoad (nat24 t1 t2 t3) (nat16 c1 c2) q.toNat, [])
      else if (s.slots.at i).team = nat24 t1 t2 t3 then
        .ok (s.updSlot i fun x => x.budgetLoad (nat16 c1 c2) q.toNat, [])
      else .error .fieldLive := by
  simp only [runLoadSlot, hb, if_neg h]

theorem runClearSlot_inRange (hb : slotOf b = some i) :
    runClearSlot s [b] =
      if (s.slots.at i).placing ≠ none then .error .fieldLive
      else if (s.slots.at i).team = 0 then .ok (s, [])
      else .ok (s.updSlot i Slot.cleared, []) := by
  simp only [runClearSlot, hb]

end

/-- Settles O23: the rules of the two commands, case by case. -/
theorem slotCommands : Obligations.SlotCommands := by
  refine ⟨fun s f rest b t1 t2 t3 c1 c2 q h hr => congrArg Host.Outcome.next (h.refused rfl _ (runLoadSlot_range hr)),
    fun s f rest b t1 t2 t3 c1 c2 q i h hb ht0 ht hc0 hc => ?_,
    fun s f rest b h hb => congrArg Host.Outcome.next (h.refused rfl _ (by simp only [runClearSlot, slotOf_range hb])),
    fun s f rest b i h hb => ?_⟩
  · have hrun := runLoadSlot_inRange (s := s.taken rest) (q := q) hb (t1 := t1) (t2 := t2) (t3 := t3) (c1 := c1) (c2 := c2)
      (by omega)
    refine ⟨fun hp => ?_, fun hp htm => ?_, fun hp htm => ?_⟩
    · rw [if_pos (show ((s.taken rest).slots.at i).placing = none from hp)] at hrun
      exact congrArg Host.Outcome.next (h.done rfl _ hrun)
    · rw [if_neg (show ((s.taken rest).slots.at i).placing ≠ none from hp),
        if_pos (show ((s.taken rest).slots.at i).team = _ from htm)] at hrun
      exact congrArg Host.Outcome.next (h.done rfl _ hrun)
    · rw [if_neg (show ((s.taken rest).slots.at i).placing ≠ none from hp),
        if_neg (show ((s.taken rest).slots.at i).team ≠ _ from htm)] at hrun
      exact congrArg Host.Outcome.next (h.refused rfl _ hrun)
  · have hrun := runClearSlot_inRange (s := s.taken rest) hb
    refine ⟨fun hp htm => ?_, fun hp htm => ?_, fun hp => ?_⟩
    · rw [if_neg (show ¬ ((s.taken rest).slots.at i).placing ≠ none from not_not.2 hp),
        if_neg (show ((s.taken rest).slots.at i).team ≠ 0 from htm)] at hrun
      exact congrArg Host.Outcome.next (h.done rfl _ hrun)
    · rw [if_neg (show ¬ ((s.taken rest).slots.at i).placing ≠ none from not_not.2 hp),
        if_pos (show ((s.taken rest).slots.at i).team = 0 from htm)] at hrun
      exact congrArg Host.Outcome.next (h.done rfl _ hrun)
    · rw [if_pos (show ((s.taken rest).slots.at i).placing ≠ none from hp)] at hrun
      exact congrArg Host.Outcome.next (h.refused rfl _ hrun)

/-! ### The Station Table (R20 to R22) -/

section
variable {stations : List Station} {new st : Station} {a x : Byte}

theorem ownEntry_addr (h : ownEntry stations a = some st) : st.addr = a := by
  simpa using List.find?_some h

/-- What is filtered by address keeps the entry of an address that passes. -/
theorem ownEntry_filter {p : Byte → Bool} : ownEntry (stations.filter fun st => p st.addr) x =
    if p x then ownEntry stations x else none := by
  unfold ownEntry
  rw [List.find?_filter]
  split
  · next hp =>
    refine congrArg (List.find? · stations) (funext fun st => ?_)
    by_cases hx : st.addr = x
    · simp [hx, hp]
    · simp [hx]
  · next hp =>
    refine List.find?_eq_none.2 fun st _ => ?_
    simp only [Bool.and_eq_true, beq_iff_eq, not_and, Bool.decide_and, Bool.decide_eq_true, decide_eq_true_eq]
    rintro hs rfl
    exact hp hs

theorem ownEntry_insertStation : ownEntry (insertStation stations new) x =
    if x = new.addr then some new else ownEntry stations x := by
  have hsplit (l m : List Station) : ownEntry (l ++ m) x = (ownEntry l x).or (ownEntry m x) := List.find?_append
  unfold insertStation
  rw [hsplit, hsplit, ownEntry_filter (p := fun y => decide (y.toNat < new.addr.toNat)),
    ownEntry_filter (p := fun y => decide (new.addr.toNat < y.toNat))]
  by_cases hx : x = new.addr
  · subst hx
    simp [ownEntry]
  · have hn : ownEntry [new] x = none := by simp [ownEntry, Ne.symm hx]
    have hne : x.toNat ≠ new.addr.toNat := fun h => hx (BitVec.eq_of_toNat_eq h)
    rw [if_neg hx, hn]
    by_cases hlt : x.toNat < new.addr.toNat
    · have hgt : ¬ new.addr.toNat < x.toNat := by omega
      simp [hlt, hgt]
    · have hgt : new.addr.toNat < x.toNat := by omega
      simp [hlt, hgt]

theorem stationAddress_iff : stationAddress a = true ↔
    (1 ≤ a.toNat ∧ a.toNat ≤ 0x3F) ∨ (0x41 ≤ a.toNat ∧ a.toNat ≤ 0x7F) ∨ (0x81 ≤ a.toNat ∧ a.toNat ≤ 0xBF) := by
  simp [stationAddress, or_assoc]

/-- Another address has an entry of the role and slot of the new one (R21 test 4). -/
theorem duplicate_iff :
    (stations.filter fun st => st.addr != new.addr).any (fun st => st.role == new.role && st.slot == new.slot) = true ↔
      ∃ st ∈ stations, st.addr ≠ new.addr ∧ st.role = new.role ∧ st.slot = new.slot := by
  simp

theorem twinConflict_iff : twinConflict stations new = true ↔ ∃ st ∈ stations, st.addr ≠ new.addr ∧
    (st.matchesSource new.addr ≠ none ∨ (new.acceptTwin = true ∧ st.matchesSource (new.addr + 0x40#8) ≠ none)) := by
  simp [twinConflict, Config.twinOffset, Option.isSome_iff_ne_none]

end

section
variable {s : State} {a b c : Byte} {i : SlotId} {twin : Bool}

theorem slotOf_byte (i : SlotId) : slotOf (byte i.val) = some i := by
  have hi : (byte i.val).toNat = i.val := Nat.mod_eq_of_lt (by omega)
  simp [slotOf, hi]

theorem flagOf_byte (twin : Bool) : flagOf (byte (bit twin)) = some twin := by
  cases twin <;> rfl

theorem flagOf_range (h : 2 ≤ c.toNat) : flagOf c = none := by
  unfold flagOf
  split
  · next h0 => omega
  · next h1 => omega
  · rfl

/-- The two tests of RANGE (R21). -/
theorem runLoadStation_range (h : stationAddress a = false ∨ 32 ≤ b.toNat ∨ 2 ≤ c.toNat ∨ (c = 1 ∧ 0x3F < a.toNat)) :
    runLoadStation s [a, b, c] = .error .range := by
  rcases h with ha | hb | hc | ⟨rfl, ha⟩
  · unfold runLoadStation
    dsimp only
    split
    · rw [if_pos ha]
    · rfl
  · simp only [runLoadStation, slotOf_range hb]
  · simp only [runLoadStation, flagOf_range hc]
    split
    · next h => exact nomatch h
    · rfl
  · unfold runLoadStation
    dsimp only
    split
    · next hw =>
      cases hw
      split
      · rfl
      · rw [if_pos ⟨rfl, by omega⟩]
    · rfl

/-- The tests of R21 that follow those of RANGE. -/
theorem runLoadStation_inRange (hi : b = byte i.val) (hc : c = byte (bit twin)) (ha : stationAddress a = true)
    (htw : twin = true → a.toNat ≤ 0x3F) {new : Station}
    (hnew : new = { addr := a, slot := i, role := roleOf a, acceptTwin := twin }) :
    runLoadStation s [a, b, c] =
      if twinConflict s.stations new then .error .twinConflict
      else if (s.stations.filter fun st => st.addr != new.addr).any (fun st => st.role == new.role && st.slot == new.slot) then
        .error .duplicate
      else if (ownEntry s.stations a).isNone ∧ 64 ≤ s.stations.length then .error .full
      else .ok (s.loadStationEntry new, []) := by
  have ht : ¬ (twin = true ∧ ¬ (0x01 ≤ a.toNat ∧ a.toNat ≤ 0x3F)) := by
    rintro ⟨h, hr⟩
    have := htw h
    have : a.toNat ≠ 0 := fun h0 => by simp [stationAddress, h0] at ha
    omega
  subst hi hc hnew
  simp only [runLoadStation, slotOf_byte, flagOf_byte, ha, Bool.true_eq_false, if_false, if_neg ht]
  rfl

/-- A load of a DRIVER entry changes the Station Table alone, and one of a ROBOT entry the radios of the slots named (R21). -/
theorem State.loadStationEntry_stations (s : State) (new : Station) :
    (s.loadStationEntry new).stations = insertStation s.stations new := by
  unfold State.loadStationEntry
  dsimp only
  split
  · rfl
  · split <;> rfl

/-- A load of a station writes the Station Table and radios alone (R21). -/
theorem State.loadStationEntry_eq (s : State) (new : Station) : s.loadStationEntry new =
    { s with stations := insertStation s.stations new, slots := (s.loadStationEntry new).slots } := by
  unfold State.loadStationEntry
  dsimp only
  split
  · rfl
  · split <;> rfl

theorem State.loadStationEntry_driver {new : Station} (h : new.role = .driver) :
    (s.loadStationEntry new).slots = s.slots := by
  unfold State.loadStationEntry
  rw [h]

theorem State.toPrimary_slot (s : State) (i j : SlotId) : (s.toPrimary i).slots.at j =
    { s.slots.at j with radio := if j = i then .primary else (s.slots.at j).radio } := by
  rw [State.toPrimary, State.updSlot_slots, Table.at_put]
  split
  · next h => subst h; rfl
  · rfl

theorem State.loadStationEntry_slot (s : State) (new : Station) (j : SlotId) : (s.loadStationEntry new).slots.at j =
    { s.slots.at j with
      radio := if new.role = .robot ∧ (j = new.slot ∨ (ownEntry s.stations new.addr).map (·.slot) = some j) then .primary
        else (s.slots.at j).radio } := by
  unfold State.loadStationEntry
  cases new.role with
  | driver => simp
  | robot =>
    cases ownEntry s.stations new.addr with
    | none => simp [State.toPrimary_slot]
    | some old =>
      simp only [State.toPrimary_slot, true_and, Option.map_some, Option.some.injEq, Slot.mk.injEq]
      by_cases h1 : j = new.slot
      · simp [h1]
      · by_cases h2 : j = old.slot
        · simp [h2]
        · simp [h1, h2, Ne.symm h2]

theorem runClearStation_none (h : ownEntry s.stations a = none) : runClearStation s [a] = .error .noEntry := by
  simp only [runClearStation, h]

/-- A clear of an entry changes the radio of a ROBOT entry's slot (R22). -/
theorem runClearStation_some {st : Station} (h : ownEntry s.stations a = some st) : ∃ t,
    runClearStation s [a] = .ok (t, []) ∧
    t = { s with stations := s.stations.filter fun x => x.addr != a, slots := t.slots } ∧
    (∀ j, t.slots.at j = { s.slots.at j with
      radio := if st.role = .robot ∧ j = st.slot then .primary else (s.slots.at j).radio }) ∧
    (st.role = .driver → t.slots = s.slots) := by
  simp only [runClearStation, h]
  cases st.role with
  | robot =>
    refine ⟨_, rfl, rfl, fun j => ?_, nofun⟩
    rw [State.toPrimary_slot]
    simp
  | driver => exact ⟨_, rfl, rfl, fun j => by simp, fun _ => rfl⟩

end

theorem roleOf_eq {a : Byte} {role : Role}
    (h : ((1 ≤ a.toNat ∧ a.toNat ≤ 0x3F) ∨ (0x41 ≤ a.toNat ∧ a.toNat ≤ 0x7F)) ∧ role = .robot ∨
      (0x81 ≤ a.toNat ∧ a.toNat ≤ 0xBF) ∧ role = .driver) : roleOf a = role := by
  unfold roleOf
  rcases h with ⟨h, rfl⟩ | ⟨h, rfl⟩
  · rw [if_pos (by omega)]
  · rw [if_neg (by omega)]

/-- Settles O22: the tests of the two rules, and what their effects do to the entries and the radios. -/
theorem stationCommands : Obligations.StationCommands := by
  refine ⟨fun s f rest a b c h => ⟨fun hr => ?_, fun i role twin hi hc hrole htw => ?_⟩,
    fun s f rest a h => ⟨fun hn => congrArg Host.Outcome.next (h.refused rfl _ (runClearStation_none hn)), fun st hst => ?_⟩⟩
  · refine congrArg Host.Outcome.next (h.refused rfl _ (runLoadStation_range ?_))
    rcases hr with hr | hr
    · refine .inl (Bool.eq_false_iff.2 fun ha => ?_)
      rcases stationAddress_iff.1 ha with ha | ha | ha
      · exact hr.1 ha
      · exact hr.2.1 ha
      · exact hr.2.2 ha
    · exact .inr hr
  · have ha : stationAddress a = true := stationAddress_iff.2 (by tauto)
    have hrun := runLoadStation_inRange (s := s.taken rest) hi hc ha htw
      (new := { addr := a, slot := i, role := role, acceptTwin := twin }) (by rw [roleOf_eq hrole])
    refine ⟨fun hx => ?_, fun hx => ?_⟩
    · rw [if_pos (twinConflict_iff.2 hx)] at hrun
      exact congrArg Host.Outcome.next (h.refused rfl _ hrun)
    · rw [if_neg] at hrun
      swap
      · rw [twinConflict_iff]
        rintro ⟨st, hm, hne, hm1 | ⟨ht, hm2⟩⟩
        · exact hm1 (hx st hm hne).1
        · exact hm2 ((hx st hm hne).2 ht)
      refine ⟨fun hd => ?_, fun hd => ?_⟩
      · rw [if_pos (duplicate_iff.2 hd)] at hrun
        exact congrArg Host.Outcome.next (h.refused rfl _ hrun)
      · rw [if_neg] at hrun
        swap
        · rw [duplicate_iff]
          rintro ⟨st, hm, hne, hr⟩
          exact hd st hm hne hr
        refine ⟨fun hn hl => ?_, fun hroom => ?_⟩
        · rw [if_pos ⟨Option.isNone_iff_eq_none.2 hn, hl⟩] at hrun
          exact congrArg Host.Outcome.next (h.refused rfl _ hrun)
        · rw [if_neg] at hrun
          swap
          · rintro ⟨hn, hl⟩
            rcases hroom with hr | hr
            · exact hr (Option.isNone_iff_eq_none.1 hn)
            · exact absurd hr (Nat.not_lt.2 hl)
          have he := (s.taken rest).loadStationEntry_eq { addr := a, slot := i, role := role, acceptTwin := twin }
          refine ⟨_, congrArg Host.Outcome.next (h.done rfl _ hrun), ?_, ?_, fun x hx => ?_, fun j => ?_, fun hd => ?_, ?_, ?_, ?_, ?_, ?_⟩
          · rw [he]; rfl
          · rw [State.queueReply_stations, State.loadStationEntry_stations, ownEntry_insertStation, if_pos rfl]
          · rw [State.queueReply_stations, State.loadStationEntry_stations, ownEntry_insertStation, if_neg hx]
            rfl
          · exact State.loadStationEntry_slot (s.taken rest) _ j
          · exact State.loadStationEntry_driver (s := s.taken rest) hd
          all_goals rw [he]; rfl
  · obtain ⟨t, hrun, he, hslot, hdriver⟩ := runClearStation_some (s := s.taken rest) hst
    refine ⟨_, congrArg Host.Outcome.next (h.done rfl _ hrun), ?_, ?_, fun x hx => ?_, hslot, hdriver, ?_, ?_, ?_, ?_, ?_⟩
    · rw [he]; rfl
    · rw [he]
      exact (ownEntry_filter (p := fun y => y != a)).trans (if_neg (by simp))
    · rw [he]
      exact (ownEntry_filter (p := fun y => y != a)).trans (if_pos (by simpa using hx))
    all_goals rw [he]; rfl

end Sys2Proof.Machine
end

section
/-! SUPPORT. What gate-off events, phase events and silent events take from slots, as the statements say it (R41, R105 to
R107), with the two events of one slot: the silent timeout and the flags. -/

namespace Sys2Proof.Machine

open Sys2Proof

/-! ### Events with one reason, and silent events after them -/

/-- What the events of one change with reason `r` take: all that a slot has on an element where `loses` says so, each hold and
claim answered, and nothing else (R105, R107). -/
structure EventTakes (r : Reason) (loses : Loaded → SlotId → Prop) (s t : State) : Prop where
  shrinks : ∀ e l, s.loadedAt e = some l → ∃ m, t.loadedAt e = some m ∧ l.Shrinks m
  reports : Reports (Taking r) s t
  free : ∀ e l m i, s.loadedAt e = some l → t.loadedAt e = some m → (l.claims.map (·.slot)).Nodup → loses l i → m.freeOf i
  released : ∀ e l h, s.loadedAt e = some l → l.hold = some h → loses l h.slot →
    Said t { slot := h.slot, element := elementByte e, outcome := .released r, tag := h.tag }
  withdrawn : ∀ e l, s.loadedAt e = some l → (l.claims.map (·.slot)).Nodup → ∀ c ∈ l.claims, loses l c.slot →
    Said t { slot := c.slot, element := elementByte e, outcome := .withdrawn r, tag := c.request.tag }
  holds : ∀ e l m h, s.loadedAt e = some l → t.loadedAt e = some m → l.hold = some h → ¬ loses l h.slot → m.hold = some h
  same : ∀ e l, s.loadedAt e = some l → (∀ i, loses l i → l.freeOf i) → t.loadedAt e = some l

/-- What follows the events changes no queue, no hold and no verdict. -/
structure WorkKept (s t : State) : Prop where
  loaded : ∀ e l, s.loadedAt e = some l → ∃ m, t.loadedAt e = some m ∧ m.claims = l.claims ∧ m.hold = l.hold
  empty : ∀ e, s.loadedAt e = none → t.loadedAt e = none
  verdicts : t.link.verdicts = s.link.verdicts

section
variable {r : Reason} {loses : Loaded → SlotId → Prop} {silent : List SlotId} {s t u v : State} {i : SlotId}

theorem WorkKept.settle (s : State) : WorkKept s s.settle where
  loaded e l hl := by
    obtain ⟨m, hm, hc, hh, -⟩ := State.settle_kept hl
    exact ⟨m, hm, hc, hh⟩
  empty e he := by
    have hk := (BusKeeps.settle s).entry e
    rw [he] at hk
    simpa using hk
  verdicts := by rw [State.settle_link]

theorem EventTakes.none (r : Reason) (s : State) (hl : ∀ l i, ¬ loses l i) : EventTakes r loses s s where
  shrinks e l h := ⟨l, h, .refl l⟩
  reports := .refl s
  free e l m i _ _ _ h := absurd h (hl l i)
  released e l h _ _ hi := absurd hi (hl l _)
  withdrawn e l _ _ c _ hi := absurd hi (hl l _)
  holds e l m h hs ht hh _ := by
    rw [hs] at ht
    cases ht
    exact hh
  same e l h _ := h

theorem SlotTaken.eventTakes (h : SlotTaken r i s t) : EventTakes r (fun _ j => j = i) s t where
  shrinks := h.shrinks
  reports := h.reports
  free e l m j hl hm hn hj := hj ▸ h.free e l m hl hm hn
  released e l x hl hx hi := by
    have := h.released e l x hl hx hi
    rwa [← hi] at this
  withdrawn e l hl hn c hc hi := by
    have := h.withdrawn e l hl hn c hc hi
    rwa [← hi] at this
  holds := h.holds
  same e l hl hf := h.same e l hl (hf i rfl)

/-- The gate-off events of a change: a claim of a slot whose gate has shut is not granted meanwhile (R27, R105). -/
theorem EventTakes.gateOffEvents (s before : State) (r : Reason) :
    EventTakes r (fun _ i => i ∈ s.gatesClosed before) s (s.gateOffEvents before r) := by
  have h := SlotsTaken.gateOffEvents s before r
  refine ⟨h.shrinks, h.reports, fun e l m i hl hm hn hi => h.free i hi e l m hl hm hn, h.released,
    fun e l hl hn c hc hi => h.withdrawn e l hl hn c hc hi ?_, h.holds, h.same⟩
  rintro ⟨hg, -⟩
  simpa [hg] using (List.mem_filter.1 hi).2

/-- The phase event of a field (R107). -/
theorem EventTakes.phaseEvent {f : FieldId} {p : Phase} (hp : (s.fields.at f).phase = p) :
    EventTakes .phase (fun l _ => l.entry.field = f ∧ phaseIn l.entry.phaseMask p = false) s (s.phaseEvent f p) := by
  obtain ⟨hall, he⟩ := TakesAll.phaseEvent s f p hp
  refine ⟨hall.shrinks, hall.reports, fun e l m i hl hm _ hi => ?_, fun e l h hl hh hi => ?_, fun e l hl _ c hc hi => ?_,
    fun e l m h hl hm hh hi => ?_, fun e l hl hf => ?_⟩
  · obtain ⟨hc, hh⟩ := ((he e l hl).2 hi.1 hi.2).1 m hm
    exact ⟨by simp [hc], by simp [hh]⟩
  · exact ((he e l hl).2 hi.1 hi.2).2.1 h hh
  · exact ((he e l hl).2 hi.1 hi.2).2.2 c hc
  · rw [(he e l hl).1 (.inl hi)] at hm
    cases hm
    exact hh
  · by_cases hi : l.entry.field = f ∧ phaseIn l.entry.phaseMask p = false
    · refine (he e l hl).1 (.inr ⟨List.eq_nil_iff_forall_not_mem.2 fun c hc => (hf c.slot hi).1 c hc rfl, ?_⟩)
      exact Option.eq_none_iff_forall_not_mem.2 fun h hh => (hf h.slot hi).2 h hh rfl
    · exact (he e l hl).1 (.inl hi)

theorem EventTakes.congr {loses' : Loaded → SlotId → Prop} (h : EventTakes r loses s t) (hl : ∀ l i, loses' l i ↔ loses l i) :
    EventTakes r loses' s t := by
  obtain rfl : loses' = loses := funext fun l => funext fun i => propext (hl l i)
  exact h

/-- A change of fields, slots or notices comes first. -/
theorem EventTakes.after (h : EventTakes r loses s t) (hl : ∀ e, s.loadedAt e = u.loadedAt e)
    (hv : s.link.verdicts = u.link.verdicts) : EventTakes r loses u t where
  shrinks e l hs := h.shrinks e l (hl e ▸ hs)
  reports := ⟨fun hlen => hv ▸ h.reports.grows hlen, fun v hm => hv ▸ h.reports.only v hm⟩
  free e l m i hs := h.free e l m i (hl e ▸ hs)
  released e l x hs := h.released e l x (hl e ▸ hs)
  withdrawn e l hs := h.withdrawn e l (hl e ▸ hs)
  holds e l m x hs := h.holds e l m x (hl e ▸ hs)
  same e l hs := h.same e l (hl e ▸ hs)

/-- The events of a change, the silent events after them, and what follows, as the statements say it (R105 to R107). -/
theorem EventTakes.claimsTaken (h : EventTakes r loses s t) (k : SlotsTaken .silent silent t u) (w : WorkKept u v) :
    ClaimsTaken r loses silent s v where
  taken hd e l n i hl hn hi := by
    obtain ⟨m, hm, hlm⟩ := h.shrinks e l hl
    obtain ⟨x, hx, hmx⟩ := k.shrinks e m hm
    obtain ⟨y, hy, hc, hh⟩ := w.loaded e x hx
    obtain rfl : n = y := Option.some.inj (hn.symm.trans hy)
    have hfree : x.freeOf i := hi.elim (fun hi => hmx.freeOf (h.free e l m i hl hm (hd e l hl) hi))
      fun hi => k.free i hi e m x hm hx (hlm.nodup (hd e l hl))
    unfold Loaded.freeOf at hfree ⊢
    rwa [hc, hh]
  kept e l hl hf := by
    have hm := h.same e l hl fun i hi => hf i (.inl hi)
    have hx := k.same e l hm fun i hi => hf i (.inr hi)
    obtain ⟨y, hy, hc, hh⟩ := w.loaded e l hx
    rw [hy, Option.map_some, hc, hh]
  released hd hlen e l x hl hx := by
    rw [w.verdicts] at hlen ⊢
    refine ⟨fun hi => (h.released e l x hl hx hi).later k.reports hlen, fun hi hs => ?_⟩
    obtain ⟨m, hm, -⟩ := h.shrinks e l hl
    exact k.released e m x hm (h.holds e l m x hl hm hx hi) hs hlen
  verdicts v hv := by
    have hfirst (hv : v ∈ t.link.verdicts) : v ∈ s.link.verdicts ∨ v.outcome = .granted ∨ v.outcome = .cancelled ∨
        v.outcome = .released r ∨ v.outcome = .withdrawn r ∨
        (silent ≠ [] ∧ (v.outcome = .released .silent ∨ v.outcome = .withdrawn .silent)) := by
      rcases h.reports.only v hv with hv | hv | hv | hv | hv
      · exact .inl hv
      · exact .inr (.inl hv)
      · exact .inr (.inr (.inl hv))
      · exact .inr (.inr (.inr (.inl hv)))
      · exact .inr (.inr (.inr (.inr (.inl hv))))
    rw [w.verdicts] at hv
    by_cases hs : silent = []
    · exact hfirst (k.quiet hs ▸ hv)
    · rcases k.reports.only v hv with hv | hv | hv | hv | hv
      · exact hfirst hv
      · exact .inr (.inl hv)
      · exact .inr (.inr (.inl hv))
      · exact .inr (.inr (.inr (.inr (.inr ⟨hs, .inl hv⟩))))
      · exact .inr (.inr (.inr (.inr (.inr ⟨hs, .inr hv⟩))))

theorem EventTakes.claimsTold (h : EventTakes r loses s t) (k : SlotsTaken .silent silent t u) (w : WorkKept u v) :
    ClaimsTold r loses s v := by
  intro hd hlen e l c hl hc hi
  rw [w.verdicts] at hlen ⊢
  exact (h.withdrawn e l hl (hd e l hl) c hc hi).later k.reports hlen

end

/-- No silent event follows. -/
theorem SlotsTaken.noneSilent (s : State) : SlotsTaken .silent [] s s := SlotsTaken.markSilent [] List.nodup_nil s

/-! ### The silent timeout (R41) -/

section
variable {s : State} {i : SlotId} {g : FieldId}

theorem State.inTimedPhase_iff : s.inTimedPhase i = true ↔
    ∃ g, s.slotField i = some g ∧ (s.fields.at g).phase.timed = true := by
  unfold State.inTimedPhase
  cases s.slotField i <;> simp

theorem State.passSilence_eq (hs : (s.slots.at i).silent = false) (hf : s.slotField i = some g)
    (ht : (s.fields.at g).phase.timed = true) : s.passSilence i =
      ((s.updSlot i fun x => { x with age := max x.age (s.timing.silent + 1) }).markSilent i).settle := by
  rw [State.passSilence, if_pos ⟨hs, State.inTimedPhase_iff.2 ⟨g, hf, ht⟩⟩]

end

/-- Settles O44: the row marks the slot, and the silent event takes what it has. -/
theorem silentTimeoutResult : Obligations.SilentTimeoutResult := by
  intro s i g hs hf ht hd
  have hx : exec (.silentTimeout i) s = .next _ := congrArg Host.Outcome.next (State.passSilence_eq hs hf ht)
  refine ⟨_, hx, ?_⟩
  generalize ha : (s.updSlot i fun x => { x with age := max x.age (s.timing.silent + 1) }) = a
  have hk : BusKeeps a (a.markSilent i).settle := (BusKeeps.markSilent a i).trans (.settle _)
  have htake : EventTakes .silent (fun _ j => j = i) s (a.markSilent i) :=
    (SlotTaken.markSilent a i).eventTakes.after (fun e => by rw [← ha]; rfl) (by rw [← ha]; rfl)
  have hsilent (j : SlotId) : (((a.markSilent i).settle).slots.at j).silent =
      ((s.slots.at j).silent || decide (j = i)) := by
    rw [State.settle_slots, State.markSilent_slots, ← ha, State.updSlot_slots, Table.at_put]
    split
    · next hj => subst hj; rfl
    · rfl
  have hclaims := htake.claimsTaken (.noneSilent _) (.settle _)
  refine ⟨hk, ?_, fun j hj => ?_, fun e l hl => ?_, hclaims, htake.claimsTold (.noneSilent _) (.settle _), fun hn => ?_⟩
  · rw [hsilent]
    simp
  · rw [hsilent]
    simp [hj]
  · cases hm : s.loadedAt e with
    | none =>
      have := hk.entry e
      rw [hl, ← ha, State.updSlot_loadedAt, hm] at this
      exact nomatch this
    | some m => exact hclaims.taken hd e m l i hm hl (.inl rfl)
  · have hnotices : a.mgmt = s.mgmt := by rw [← ha]; rfl
    rw [State.settle_mgmt, (a.markSilent_notices i (by rw [hnotices]; exact hn)).1, hnotices]

end Sys2Proof.Machine
end

section
/-! SUPPORT. The flags of slots: DISABLE SLOT and BYPASS SLOT (R71). -/

namespace Sys2Proof.Machine

open Sys2Proof

section
variable {s t u : State} {f : FieldId} {rest : List Frame} {fr : Frame} {code : Byte} {o : ReplyOutcome}

/-- What a command leaves alone, with its reply queued (R178). -/
theorem FieldKeeps.replied (h : FieldKeeps f (s.taken rest) t) : FieldKeeps f (s.replied fr rest code o) (t.queueReply fr code o) :=
  { h with link := by rw [State.queueReply_link, h.link]; rfl }

theorem WorkKept.queueReply (h : WorkKept s t) (fr : Frame) (code : Byte) (o : ReplyOutcome) :
    WorkKept s (t.queueReply fr code o) := { h with }

theorem WorkKept.trans (h : WorkKept s t) (k : WorkKept t u) : WorkKept s u where
  loaded e l hl := by
    obtain ⟨m, hm, hc, hh⟩ := h.loaded e l hl
    obtain ⟨n, hn, hc', hh'⟩ := k.loaded e m hm
    exact ⟨n, hn, hc'.trans hc, hh'.trans hh⟩
  empty e he := k.empty e (h.empty e he)
  verdicts := k.verdicts.trans h.verdicts

theorem WorkKept.setUrgent (s : State) (f : FieldId) : WorkKept s (s.setUrgent f) :=
  ⟨fun _ l hl => ⟨l, hl, rfl, rfl⟩, fun _ he => he, rfl⟩

/-! ### A flag that is newly set (R71) -/

variable {i : SlotId} {g : Slot → Slot}

/-- The setting of a flag: only the slot's own gate can shut with it. -/
theorem State.gatesClosed_updSlot (hoff : (s.updSlot i g).gateOpen i = false) (j : SlotId) :
    j ∈ (s.updSlot i g).gatesClosed s ↔ j = i ∧ s.gateOpen i = true := by
  simp only [State.gatesClosed, List.mem_filter, mem_allOf, true_and, Bool.and_eq_true, Bool.not_eq_true']
  by_cases hj : j = i
  · subst hj
    simp [hoff]
  · have hsame : (s.updSlot i g).gateOpen j = s.gateOpen j := by
      unfold State.gateOpen State.effectiveGate
      rw [State.updSlot_slots, Table.at_put_other _ _ hj]
      rfl
    simp [hsame, hj]

theorem FieldKeeps.setSlotFlag (s : State) (i : SlotId) (f : FieldId) (r : Reason) (g : Slot → Slot) :
    FieldKeeps f (s.updSlot i g) (s.setSlotFlag i f r g) :=
  .trans ((ArbiterKeeps.gateOffEvents _ s r).toBus.toField f) (.trans (.setUrgent f _) ((BusKeeps.settle _).toField f))

theorem State.setSlotFlag_fields (s : State) (i : SlotId) (f : FieldId) (r : Reason) (g : Slot → Slot) :
    (s.setSlotFlag i f r g).fields = s.fields :=
  (State.settle_fields _).trans (ArbiterKeeps.gateOffEvents _ s r).fields

theorem State.setSlotFlag_mgmt (s : State) (i : SlotId) (f : FieldId) (r : Reason) (g : Slot → Slot) :
    (s.setSlotFlag i f r g).mgmt = s.mgmt :=
  (State.settle_mgmt _).trans (ArbiterKeeps.gateOffEvents _ s r).mgmt

theorem State.setSlotFlag_urgent (s : State) (i : SlotId) (f : FieldId) (r : Reason) (g : Slot → Slot) :
    (s.setSlotFlag i f r g).beacons.urgent.at f = true := by
  rw [State.setSlotFlag, State.settle_beacons]
  exact Table.at_put_same _ _ _

theorem State.setSlotFlag_gate (s : State) (i j : SlotId) (f : FieldId) (r : Reason) (g : Slot → Slot) :
    (s.setSlotFlag i f r g).effectiveGate j = (s.updSlot i g).effectiveGate j := by
  have hs : ((s.setSlotFlag i f r g).slots.at j) = { (s.updSlot i g).slots.at j with
      outstanding := ((s.setSlotFlag i f r g).slots.at j).outstanding } := by
    rw [State.setSlotFlag, State.settle_slots]
    exact (ArbiterKeeps.gateOffEvents _ s r).slots j
  unfold State.effectiveGate
  rw [hs, State.setSlotFlag_fields]
  rfl

/-- What the setting of a flag takes (R71, R105). -/
theorem EventTakes.setSlotFlag (r : Reason) (hoff : (s.updSlot i g).gateOpen i = false) :
    EventTakes r (fun _ j => j = i ∧ s.gateOpen i = true) s ((s.updSlot i g).gateOffEvents s r) :=
  ((EventTakes.gateOffEvents (s.updSlot i g) s r).congr fun _ j => (State.gatesClosed_updSlot hoff j).symm).after
    (fun _ => rfl) rfl

end

/-! ### The two commands (R71) -/

section
variable {s : State} {b : Byte} {i : SlotId} {p : Placing}

/-- A flag shuts its slot's gate (R26). -/
theorem State.effectiveGate_flag (h : (s.slots.at i).disabled = true ∨ (s.slots.at i).bypassed = true) :
    s.effectiveGate i = .off := by
  unfold State.effectiveGate
  cases (s.slots.at i).placing with
  | none => rfl
  | some p => rcases h with h | h <;> simp [h]

end

/-- The rules of the two commands are one, but for the flag and the reason (R71). -/
structure FlagRule (run : State → List Byte → Answer) (flag : Slot → Bool) (set : Slot → Slot) (r : Reason) : Prop where
  range : ∀ s b, 32 ≤ b.toNat → run s [b] = .error .range
  state : ∀ s (i : SlotId), (s.slots.at i).placing = none → run s [byte i.val] = .error .state
  already : ∀ s (i : SlotId), (s.slots.at i).placing ≠ none → flag (s.slots.at i) = true → run s [byte i.val] = .ok (s, [])
  sets : ∀ s (i : SlotId) p, (s.slots.at i).placing = some p → flag (s.slots.at i) = false →
    run s [byte i.val] = .ok (s.setSlotFlag i p.field r set, [])
  shuts : ∀ x, (set x).disabled = true ∨ (set x).bypassed = true

theorem FlagRule.disable : FlagRule runDisableSlot (·.disabled) (fun x => { x with disabled := true }) .disabled where
  range s b hb := by simp only [runDisableSlot, slotOf_range hb]
  state s i hp := by simp only [runDisableSlot, slotOf_byte, State.slotField, hp, Option.map_none]
  already s i hp hf := by
    obtain ⟨p, hp⟩ := Option.ne_none_iff_exists'.1 hp
    simp only [runDisableSlot, slotOf_byte, State.slotField, hp, Option.map_some, hf, if_true]
  sets s i p hp hf := by
    simp only [runDisableSlot, slotOf_byte, State.slotField, hp, Option.map_some, hf, Bool.false_eq_true, if_false]
  shuts _ := .inl rfl

theorem FlagRule.bypass : FlagRule runBypassSlot (·.bypassed) (fun x => { x with bypassed := true }) .bypassed where
  range s b hb := by simp only [runBypassSlot, slotOf_range hb]
  state s i hp := by simp only [runBypassSlot, slotOf_byte, State.slotField, hp, Option.map_none]
  already s i hp hf := by
    obtain ⟨p, hp⟩ := Option.ne_none_iff_exists'.1 hp
    simp only [runBypassSlot, slotOf_byte, State.slotField, hp, Option.map_some, hf, if_true]
  sets s i p hp hf := by
    simp only [runBypassSlot, slotOf_byte, State.slotField, hp, Option.map_some, hf, Bool.false_eq_true, if_false]
  shuts _ := .inr rfl

/-- The effect of a flag that is newly set by a command (R71, R105). -/
theorem FlagRule.effect {run : State → List Byte → Answer} {flag : Slot → Bool} {set : Slot → Slot} {r : Reason}
    (h : FlagRule run flag set r) (s : State) (fr : Frame) (rest : List Frame) (code : Byte) (i : SlotId) (f : FieldId) :
    let t := ((s.taken rest).setSlotFlag i f r set).queueReply fr code (.done [])
    FieldKeeps f ((s.updSlot i set).replied fr rest code (.done [])) t ∧ t.fields = s.fields ∧ t.mgmt = s.mgmt ∧
      t.beacons.urgent.at f = true ∧ t.effectiveGate i = .off ∧
      ClaimsTaken r (fun _ j => j = i ∧ s.gateOpen i = true) [] s t ∧
      ClaimsTold r (fun _ j => j = i ∧ s.gateOpen i = true) s t := by
  have hoff : ((s.taken rest).updSlot i set).effectiveGate i = .off := by
    refine State.effectiveGate_flag ?_
    rw [State.updSlot_slots, Table.at_put_same]
    exact h.shuts _
  have htake := (EventTakes.setSlotFlag (s := s.taken rest) (i := i) (g := set) r (by simp [State.gateOpen, hoff])).after
    (u := s) (fun _ => rfl) rfl
  have hwork : WorkKept (((s.taken rest).updSlot i set).gateOffEvents (s.taken rest) r) ((s.taken rest).setSlotFlag i f r set) :=
    (WorkKept.setUrgent _ f).trans (.settle _)
  have hkeeps := FieldKeeps.setSlotFlag (s.taken rest) i f r set
  have hfields := (s.taken rest).setSlotFlag_fields i f r set
  have hmgmt := (s.taken rest).setSlotFlag_mgmt i f r set
  have hurgent := (s.taken rest).setSlotFlag_urgent i f r set
  have hgate := ((s.taken rest).setSlotFlag_gate i i f r set).trans hoff
  generalize (s.taken rest).setSlotFlag i f r set = t at *
  have hw := hwork.queueReply fr code (.done [])
  exact ⟨.replied (s := s.updSlot i set) hkeeps, hfields, hmgmt, hurgent, hgate, htake.claimsTaken (.noneSilent _) hw,
    htake.claimsTold (.noneSilent _) hw⟩

/-- Settles O41: the two rules, and what the setting of a flag takes. -/
theorem disableAndBypassResult : Obligations.DisableAndBypassResult := by
  intro p hp
  simp only [List.mem_cons, List.not_mem_nil, or_false] at hp
  rcases hp with rfl | rfl
  · refine ⟨fun s f rest b h hb => congrArg Host.Outcome.next (h.refused rfl _ (FlagRule.disable.range _ b hb)),
      fun s f rest i h => ⟨fun hn => congrArg Host.Outcome.next (h.refused rfl _ (FlagRule.disable.state _ i hn)),
        fun hn hf => congrArg Host.Outcome.next (h.done rfl _ (FlagRule.disable.already _ i hn (show (s.slots.at i).disabled = true by simpa using hf))),
        fun place hpl hf => ?_⟩⟩
    exact ⟨_, congrArg Host.Outcome.next (h.done rfl _ (FlagRule.disable.sets _ i place hpl
      (show (s.slots.at i).disabled = false by simpa using hf))),
      FlagRule.disable.effect s f rest 0x47 i place.field⟩
  · refine ⟨fun s f rest b h hb => congrArg Host.Outcome.next (h.refused rfl _ (FlagRule.bypass.range _ b hb)),
      fun s f rest i h => ⟨fun hn => congrArg Host.Outcome.next (h.refused rfl _ (FlagRule.bypass.state _ i hn)),
        fun hn hf => congrArg Host.Outcome.next (h.done rfl _ (FlagRule.bypass.already _ i hn (show (s.slots.at i).bypassed = true by simpa using hf))),
        fun place hpl hf => ?_⟩⟩
    exact ⟨_, congrArg Host.Outcome.next (h.done rfl _ (FlagRule.bypass.sets _ i place hpl
      (show (s.slots.at i).bypassed = false by simpa using hf))),
      FlagRule.bypass.effect s f rest 0x48 i place.field⟩

end Sys2Proof.Machine
end

section
/-! SUPPORT. The announcements of a change of phase, as the statements say them (R41, R42, R55), and the expiries that make
one (R50 to R54). -/

namespace Sys2Proof.Machine

open Sys2Proof

theorem mapIdx_eq_map {α β : Type} (g : α → β) (l : List α) : l.mapIdx (fun _ x => g x) = l.map g := by
  induction l with
  | nil => rfl
  | cons x l ih => rw [List.mapIdx_cons, ih, List.map_cons]

/-! ### The silent marks of a field (R41, R42, R55) -/

theorem State.foldl_clearSilent (l : List SlotId) (s : State) :
    (∃ slots, l.foldl (fun s i => s.updSlot i fun x => { x with silent := false }) s = { s with slots }) ∧
    ∀ i, (l.foldl (fun s i => s.updSlot i fun x => { x with silent := false }) s).slots.at i =
      { s.slots.at i with silent := (s.slots.at i).silent && decide (i ∉ l) } := by
  induction l generalizing s with
  | nil => exact ⟨⟨s.slots, rfl⟩, fun i => by simp⟩
  | cons j l ih =>
    obtain ⟨⟨slots, he⟩, hs⟩ := ih (s.updSlot j fun x => { x with silent := false })
    refine ⟨⟨slots, he⟩, fun i => ?_⟩
    rw [List.foldl_cons, hs, State.updSlot_slots, Table.at_put]
    by_cases hij : i = j
    · subst hij
      simp
    · simp [hij]

section
variable {s t u v : State} {g : FieldId} {p : Phase} {i : SlotId}

theorem State.mem_placedIn : i ∈ s.placedIn g ↔ s.slotField i = some g := by simp [State.placedIn, mem_allOf]

theorem State.clearSilent_eq (s : State) (g : FieldId) : s.clearSilent g = { s with slots := (s.clearSilent g).slots } := by
  obtain ⟨⟨slots, he⟩, -⟩ := State.foldl_clearSilent (s.placedIn g) s
  rw [State.clearSilent, he]

theorem State.clearSilent_slot (s : State) (g : FieldId) (i : SlotId) : (s.clearSilent g).slots.at i =
    { s.slots.at i with silent := (s.slots.at i).silent && decide (s.slotField i ≠ some g) } := by
  rw [State.clearSilent, (State.foldl_clearSilent (s.placedIn g) s).2]
  simp only [State.mem_placedIn, ne_eq]

/-- The slots that the silence test of a field in a timed phase marks (R41). -/
theorem State.testSilence_eq (hp : (s.fields.at g).phase = p) (ht : p.timed = true) :
    s.testSilence g = (s.silentAtEntry g p).foldl State.markSilent s := by
  rw [State.testSilence, State.foldl_silenceTest (s.placedIn g) ((List.nodup_finRange 32).filter _)]
  congr 1
  rw [State.silentAtEntry, if_pos ht, State.placedIn, List.filter_filter]
  refine List.filter_congr fun i _ => ?_
  by_cases hf : s.slotField i = some g
  · have hin : s.inTimedPhase i = true := State.inTimedPhase_iff.2 ⟨g, hf, by rw [hp]; exact ht⟩
    simp [State.dueSilent, hf, hin]
  · simp only [beq_eq_false_iff_ne.2 hf, Bool.and_false, Bool.false_and]

/-! ### What an announcement does -/

/-- A change of field `g` to phase `p` has been written, and its gate-off events taken (R27, R49, R105). -/
structure PhaseWritten (g : FieldId) (p : Phase) (s v : State) : Prop where
  phase : (v.fields.at g).phase = p
  slots : ∀ i, v.slots.at i = { s.slots.at i with outstanding := (v.slots.at i).outstanding }
  mgmt : v.mgmt = s.mgmt
  timing : v.timing = s.timing
  shuts : p = .pause ∨ p = .post →
    EventTakes .phase (fun _ i => s.slotField i = some g ∧ s.gateOpen i = true) s v
  opens : ¬ (p = .pause ∨ p = .post) → (∀ e, v.loadedAt e = s.loadedAt e) ∧ v.link.verdicts = s.link.verdicts

/-- After the phase event of an announcement what the change takes with reason PHASE is taken (R55, R105, R107). -/
theorem PhaseWritten.takes (h : PhaseWritten g p s v) (hu : ∀ e, u.loadedAt e = v.loadedAt e)
    (hl : u.link.verdicts = v.link.verdicts) (hp : (u.fields.at g).phase = p) :
    EventTakes .phase (s.PhaseTakes g p) s (if p = .teleop ∨ p = .endgame then u.phaseEvent g p else u) := by
  by_cases ht : p = .teleop ∨ p = .endgame
  · have hn : ¬ (p = .pause ∨ p = .post) := by rcases ht with rfl | rfl <;> simp
    rw [if_pos ht]
    refine ((EventTakes.phaseEvent hp).after (fun e => (hu e).trans ((h.opens hn).1 e)) (hl.trans (h.opens hn).2)).congr
      fun l i => ?_
    simp only [State.PhaseTakes, hn, ht, false_and, true_and, false_or]
  · rw [if_neg ht]
    by_cases hc : p = .pause ∨ p = .post
    · have hk := (h.shuts hc).congr (loses' := s.PhaseTakes g p) fun l i => by
        simp only [State.PhaseTakes, hc, ht, false_and, true_and, or_false]
      exact
        { shrinks := fun e l hs => by rw [hu]; exact hk.shrinks e l hs
          reports := ⟨fun hlen => by rw [hl] at hlen ⊢; exact hk.reports.grows hlen,
            fun v hv => hk.reports.only v (by rwa [hl] at hv)⟩
          free := fun e l m i hs hm => hk.free e l m i hs (by rwa [hu] at hm)
          released := fun e l x hs hx hi hlen => by rw [hl] at hlen ⊢; exact hk.released e l x hs hx hi hlen
          withdrawn := fun e l hs hn c hm hi hlen => by rw [hl] at hlen ⊢; exact hk.withdrawn e l hs hn c hm hi hlen
          holds := fun e l m x hs hm => hk.holds e l m x hs (by rwa [hu] at hm)
          same := fun e l hs hf => by rw [hu]; exact hk.same e l hs hf }
    · refine (EventTakes.none .phase u fun l i hi => ?_).after (fun e => (hu e).trans ((h.opens hc).1 e))
        (hl.trans (h.opens hc).2)
      simp only [State.PhaseTakes, hc, ht, false_and, or_self] at hi

/-- What follows an announcement: the bus arbiter chooses, and a reply is queued. -/
structure Concludes (s t : State) : Prop extends WorkKept s t where
  slots : t.slots = s.slots
  fields : t.fields = s.fields
  beacons : t.beacons = s.beacons
  mgmt : t.mgmt = s.mgmt

theorem Concludes.settle (s : State) : Concludes s s.settle :=
  { WorkKept.settle s with
    slots := State.settle_slots s, fields := State.settle_fields s, beacons := State.settle_beacons s
    mgmt := State.settle_mgmt s }

theorem Concludes.queueReply (h : Concludes s t) (f : Frame) (code : Byte) (o : ReplyOutcome) :
    Concludes s (t.queueReply f code o) := { h with }

/-- The states of an announcement: after the notice, after the phase event, and after the silent marks (R55). -/
theorem State.announcePhase_eq (hp : (v.fields.at g).phase = p) (n : Nat) (a : Bool) : v.announcePhase g n a =
    let u := (v.setUrgent g).queueNotice (.phase g p n a)
    let w := if p = .teleop ∨ p = .endgame then u.phaseEvent g p else u
    if p.timed then w.testSilence g else w.clearSilent g := by
  subst hp
  rfl

theorem ArbiterKeeps.phaseEvent_if (u : State) (g : FieldId) (p : Phase) :
    ArbiterKeeps u (if p = .teleop ∨ p = .endgame then u.phaseEvent g p else u) := by
  split
  · exact .phaseEvent u g p
  · exact .refl u

/-- The test of a field finds the same slots silent where slots, timing and placings agree (R41). -/
theorem State.silentAtEntry_congr (hs : ∀ i, t.slots.at i = { s.slots.at i with outstanding := (t.slots.at i).outstanding })
    (ht : t.timing = s.timing) : t.silentAtEntry g p = s.silentAtEntry g p := by
  unfold State.silentAtEntry State.slotField
  split
  · refine List.filter_congr fun i _ => ?_
    rw [hs i, ht]
  · rfl

/-- The announcements of a change that has been written (R41, R42, R55). -/
theorem PhaseWritten.announced (h : PhaseWritten g p s v) {n : Nat} {a : Bool} (hn : (s.fields.at g).number = n)
    (ha : (v.fields.at g).aborted = a) (c : Concludes (v.announcePhase g n a) t) : PhaseAnnounced g p s t := by
  rw [State.announcePhase_eq h.phase] at c
  dsimp only at c
  generalize hu : (v.setUrgent g).queueNotice (.phase g p n a) = u at c
  have hul (e : ElementId) : u.loadedAt e = v.loadedAt e := by rw [← hu]; rfl
  have huf : u.fields = v.fields := by rw [← hu]; rfl
  have htake := h.takes hul (by rw [← hu]; rfl) (by rw [huf]; exact h.phase)
  have hk := ArbiterKeeps.phaseEvent_if u g p
  generalize hw : (if p = .teleop ∨ p = .endgame then u.phaseEvent g p else u) = w at c htake hk
  have hslots (i : SlotId) : w.slots.at i = { s.slots.at i with outstanding := (w.slots.at i).outstanding } := by
    rw [hk.slots i, ← hu, State.queueNotice_slots, State.setUrgent_slots, h.slots i]
  have hphase : (w.fields.at g).phase = p := by rw [hk.fields, huf]; exact h.phase
  have htiming : w.timing = s.timing := by rw [hk.timing, ← hu]; exact h.timing
  have hat : w.silentAtEntry g p = s.silentAtEntry g p := State.silentAtEntry_congr hslots htiming
  have hfield (i : SlotId) : w.slotField i = s.slotField i := by rw [State.slotField, hslots i]; rfl
  have hnotices (hroom : s.mgmt.notices.length < 16) : w.mgmt =
      { s.mgmt with notices := s.mgmt.notices ++ [{ dropped := s.mgmt.dropped, content := .phase g p n a }], dropped := 0 } := by
    rw [hk.mgmt, ← hu, State.queueNotice_room _ _ (by rw [State.setUrgent_mgmt, h.mgmt]; exact hroom), State.setUrgent_mgmt,
      h.mgmt]
  have hurgent : w.beacons.urgent.at g = true := by
    rw [hk.beacons, ← hu]
    exact Table.at_put_same _ _ _
  cases hp : p.timed with
  | true =>
    rw [if_pos hp, State.testSilence_eq hphase hp, hat] at c
    have hb := BusKeeps.foldl BusKeeps.markSilent (s.silentAtEntry g p) w
    have hsil := SlotsTaken.markSilent (s.silentAtEntry g p) (by
      rw [State.silentAtEntry, if_pos hp]
      exact (List.nodup_finRange 32).filter _) w
    refine ⟨?_, fun hroom => ?_, fun i => ?_, htake.claimsTaken hsil c.toWorkKept, htake.claimsTold hsil c.toWorkKept⟩
    · rw [c.beacons, hb.beacons]
      exact hurgent
    · have hm := hnotices (by omega)
      rw [c.mgmt, State.foldl_markSilent_notices _ _ (by rw [hm]; simp; omega), hm, c.fields, hb.fields, hk.fields, huf, ha, hn]
      simp [mapIdx_eq_map]
    · rw [c.slots, State.foldl_markSilent_slots, hslots i]
      simp [hp]
  | false =>
    rw [if_neg (by simp [hp])] at c
    have hnone : s.silentAtEntry g p = [] := by rw [State.silentAtEntry, if_neg (by simp [hp])]
    have hc := w.clearSilent_eq g
    have hwork : WorkKept w t :=
      { loaded := fun e l hl => c.loaded e l (by rw [hc]; exact hl)
        empty := fun e he => c.empty e (by rw [hc]; exact he)
        verdicts := c.verdicts.trans (by rw [hc]) }
    refine ⟨?_, fun hroom => ?_, fun i => ?_, ?_, ?_⟩
    · rw [c.beacons, hc]
      exact hurgent
    · rw [hnone] at hroom ⊢
      rw [c.mgmt, hc, hnotices (by simpa using hroom), c.fields, hc, hk.fields, huf, ha, hn]
      simp
    · rw [c.slots, State.clearSilent_slot, hslots i, hfield]
      simp [hp]
    · rw [hnone]
      exact htake.claimsTaken (.noneSilent _) hwork
    · exact htake.claimsTold (.noneSilent _) hwork

end

end Sys2Proof.Machine
end

section
/-! SUPPORT. The changes of phase that an expiry or START makes (R49 to R54), and RESUME (R63, R64). -/

namespace Sys2Proof.Machine

open Sys2Proof

section
variable {s t b : State} {g : FieldId} {m : MatchRecord} {i : SlotId} {p : Phase} {dest : Phase × Nat}

/-! ### Gates across a change of one field's record (R26, R27) -/

/-- A field's record decides the gates of its own slots and of no others. -/
theorem State.gateOpen_other (hi : s.slotField i ≠ some g) : (s.updField g fun _ => m).gateOpen i = s.gateOpen i := by
  unfold State.slotField at hi
  unfold State.gateOpen State.effectiveGate
  rw [State.updField_slots]
  cases hp : (s.slots.at i).placing with
  | none => rfl
  | some p =>
    dsimp only
    rw [State.updField_fields, Table.at_put_other]
    rintro rfl
    exact hi (by rw [hp]; rfl)

/-- No gate of a field's slots is open out of AUTO, TELEOP and ENDGAME (R26). -/
theorem State.gate_phase (hi : s.slotField i = some g)
    (hp : ¬ ((s.fields.at g).phase = .auto ∨ (s.fields.at g).phase = .teleop ∨ (s.fields.at g).phase = .endgame)) :
    s.effectiveGate i = .off := by
  by_contra hg
  obtain ⟨p, hpl, -, -, -, hop⟩ := (s.gateOpen_iff i).1 (by simpa [State.gateOpen] using hg)
  rw [State.slotField, hpl, Option.map_some, Option.some.injEq] at hi
  exact hp (hi ▸ hop)

theorem State.gateOpen_phase (hi : s.slotField i = some g)
    (hp : ¬ ((s.fields.at g).phase = .auto ∨ (s.fields.at g).phase = .teleop ∨ (s.fields.at g).phase = .endgame)) :
    s.gateOpen i = false := by
  rw [State.gateOpen, State.gate_phase hi hp]
  rfl

/-- A change to PAUSE or POST shuts the gates of the field's slots (R27). -/
theorem State.gatesClosed_shut (hb : ∀ i, b.gateOpen i = s.gateOpen i) (hm : m.phase = .pause ∨ m.phase = .post) :
    i ∈ (s.updField g fun _ => m).gatesClosed b ↔ s.slotField i = some g ∧ s.gateOpen i = true := by
  simp only [State.gatesClosed, List.mem_filter, mem_allOf, true_and, Bool.and_eq_true, Bool.not_eq_true', hb]
  by_cases hi : s.slotField i = some g
  · have hoff : (s.updField g fun _ => m).gateOpen i = false := by
      refine State.gateOpen_phase (g := g) hi ?_
      rw [State.updField_fields, Table.at_put_same]
      rcases hm with hm | hm <;> simp [hm]
    simp [hi, hoff]
  · simp [hi, State.gateOpen_other hi]

/-- A RUNNING field's change to AUTO, TELEOP or ENDGAME shuts no gate (R27). -/
theorem State.gatesClosed_none (hb : ∀ i, b.gateOpen i = s.gateOpen i) (hr : m.stopped = none)
    (hm : m.phase = .auto ∨ m.phase = .teleop ∨ m.phase = .endgame) : (s.updField g fun _ => m).gatesClosed b = [] := by
  refine List.filter_eq_nil_iff.2 fun i _ hi => ?_
  obtain ⟨ho, hc⟩ := Bool.and_eq_true_iff.1 hi
  rw [hb] at ho
  obtain ⟨p, hpl, hdis, hby, hst, hph⟩ := (s.gateOpen_iff i).1 ho
  have : (s.updField g fun _ => m).gateOpen i = true := by
    refine (State.gateOpen_iff _ i).2 ⟨p, hpl, hdis, hby, ?_⟩
    rw [State.updField_fields, Table.at_put]
    split
    · exact ⟨hr, hm⟩
    · exact ⟨hst, hph⟩
  rw [this] at hc
  exact nomatch hc

theorem Phase.gated_of_timed (ht : p.timed = true) (hn : p ≠ .pause) : p = .auto ∨ p = .teleop ∨ p = .endgame := by
  cases p <;> simp_all [Phase.timed]

/-! ### The changes -/

/-- The expiry of a RUNNING field's phase, with the gate-off events of the slots whose gates shut (R27, R50 to R53). -/
theorem PhaseWritten.gateOff (hb : ∀ i, b.gateOpen i = s.gateOpen i) (hr : m.stopped = none)
    (hm : m.phase.timed = true ∨ m.phase = .post) :
    PhaseWritten g m.phase s ((s.updField g fun _ => m).gateOffEvents b .phase) := by
  have hk := ArbiterKeeps.gateOffEvents (s.updField g fun _ => m) b .phase
  refine ⟨?_, fun i => hk.slots i, hk.mgmt, hk.timing, fun hs => ?_, fun ho => ?_⟩
  · rw [hk.fields, State.updField_fields, Table.at_put_same]
  · exact ((EventTakes.gateOffEvents (s.updField g fun _ => m) b .phase).congr fun _ i =>
      (State.gatesClosed_shut hb hs).symm).after (fun _ => rfl) rfl
  · rw [not_or] at ho
    rw [State.gateOffEvents, State.gatesClosed_none hb hr (Phase.gated_of_timed (hm.resolve_right ho.2) ho.1)]
    exact ⟨fun _ => rfl, rfl⟩

/-- The entry to a timed phase without gate-off events: into PAUSE from a phase in which the gates were OFF (R49). -/
theorem PhaseWritten.enter (hm : m.phase.timed = true)
    (hs : m.phase = .pause → ∀ i, s.slotField i = some g → s.gateOpen i = false) :
    PhaseWritten g m.phase s (s.updField g fun _ => m) := by
  refine ⟨?_, fun i => rfl, rfl, rfl, fun hp => ?_, fun _ => ⟨fun _ => rfl, rfl⟩⟩
  · rw [State.updField_fields, Table.at_put_same]
  · refine (EventTakes.none .phase (s.updField g fun _ => m) fun l i hi => ?_).after (fun _ => rfl) rfl
    rcases hp with hp | hp
    · exact nomatch (hs hp i hi.1).symm.trans hi.2
    · rw [hp] at hm
      exact nomatch hm

theorem PhaseAnnounced.expireInto (hr : (s.fields.at g).stopped = none) (hd : dest.1.timed = true)
    (c : Concludes (s.expireInto g dest) t) : PhaseAnnounced g dest.1 s t := by
  have h := PhaseWritten.gateOff (s := s) (b := s) (g := g) (m := { s.fields.at g with phase := dest.1, remaining := dest.2 })
    (fun _ => rfl) hr (.inl hd)
  refine h.announced rfl ?_ c
  rw [State.gateOffEvents_fields, State.updField_fields, Table.at_put_same]

theorem PhaseAnnounced.enterPhase (hd : dest.1.timed = true)
    (hs : dest.1 = .pause → ∀ i, s.slotField i = some g → s.gateOpen i = false)
    (c : Concludes (s.enterPhase g dest) t) : PhaseAnnounced g dest.1 s t := by
  have h := PhaseWritten.enter (s := s) (g := g) (m := { s.fields.at g with phase := dest.1, remaining := dest.2 }) hd hs
  refine h.announced ?_ rfl c
  rw [State.updField_fields, Table.at_put_same]

theorem PhaseAnnounced.expireMatch (hr : (s.fields.at g).stopped = none) (c : Concludes (s.expireMatch g) t) :
    PhaseAnnounced g .post s t := by
  generalize hb : (s.updField g fun m => { m with aborted := false, grace := s.timing.grace }) = b
  have hbf : b.fields.at g = { s.fields.at g with aborted := false, grace := s.timing.grace } := by
    rw [← hb, State.updField_fields, Table.at_put_same]
  have hgate (i : SlotId) : b.gateOpen i = s.gateOpen i := by
    refine SameStanding.gateOpen ?_ i
    rw [← hb]
    refine { SameStanding.refl s with fields := fun k => ?_ }
    rw [State.updField_fields, Table.at_put]
    split
    · next hk => subst hk; exact ⟨rfl, rfl, rfl⟩
    · exact ⟨rfl, rfl, rfl⟩
  have hv : (b.updField g fun m => { m with phase := .post, remaining := 0 }) =
      s.updField g fun _ => { b.fields.at g with phase := .post, remaining := 0 } := by
    rw [← hb]
    simp [State.updField, Table.put_put]
  have h := PhaseWritten.gateOff (s := s) (b := b) (g := g) (m := { b.fields.at g with phase := .post, remaining := 0 })
    hgate (by rw [hbf]; exact hr) (.inr rfl)
  rw [← hv] at h
  refine h.announced (n := (b.fields.at g).number) (a := (b.fields.at g).aborted) (by rw [hbf]) ?_ ?_
  · rw [State.gateOffEvents_fields, State.updField_fields, Table.at_put_same]
  · rw [State.expireMatch, hb] at c
    exact c

end

/-! ### The rows of the expiries (R50 to R54) -/

section
variable {s : State} {g : FieldId} {c : Instr} {dest : Phase × Nat}

/-- A row that lets one phase expire into another. -/
theorem expiry_effect (hr : (s.fields.at g).stopped = none) (hd : dest.1.timed = true)
    (hx : exec c s = .next (s.expireInto g dest).settle) : ∃ t, exec c s = .next t ∧ FieldKeeps g s t ∧
      t.fields.at g = { s.fields.at g with phase := dest.1, remaining := dest.2 } ∧ PhaseAnnounced g dest.1 s t := by
  refine ⟨_, hx, (FieldKeeps.expireInto g s dest).trans ((BusKeeps.settle _).toField g), ?_,
    PhaseAnnounced.expireInto hr hd (.settle _)⟩
  rw [State.settle_fields, State.expireInto_fields, Table.at_put_same]

theorem boundary_effect (hd : dest.1 = .endgame) (hx : exec c s = .next (s.enterPhase g dest).settle) :
    ∃ t, exec c s = .next t ∧ FieldKeeps g s t ∧
      t.fields.at g = { s.fields.at g with phase := dest.1, remaining := dest.2 } ∧ PhaseAnnounced g dest.1 s t := by
  refine ⟨_, hx, (FieldKeeps.enterPhase g s dest).trans ((BusKeeps.settle _).toField g), ?_,
    PhaseAnnounced.enterPhase (by rw [hd]; rfl) (fun hp => nomatch hd.symm.trans hp) (.settle _)⟩
  rw [State.settle_fields, State.enterPhase_fields, Table.at_put_same]

end

/-- Settles O42: each row makes one change of phase, which is announced. -/
theorem phaseExpiries : Obligations.PhaseExpiries := by
  intro s g
  refine ⟨fun c p ms hr hc => ?_, fun hr hl => ?_, fun hp ha => ?_⟩
  · rcases hc with ⟨rfl, hp, hd⟩ | ⟨rfl, hp, hd⟩ | ⟨rfl, hp, he, hd⟩
    · have hx : exec (.autoExpiry g) s = .next (s.expireInto g (p, ms)).settle := by
        rw [hd]
        exact congrArg Host.Outcome.next (if_pos (State.runningIn_iff.2 ⟨hp, hr⟩))
      refine expiry_effect hr ?_ hx
      rw [hd]
      exact (s.fields.at g).runFromPause_timed
    · have hx : exec (.pauseExpiry g) s = .next (s.expireInto g (p, ms)).settle := by
        rw [hd]
        exact congrArg Host.Outcome.next (if_pos (State.runningIn_iff.2 ⟨hp, hr⟩))
      refine expiry_effect hr ?_ hx
      rw [hd]
      exact (s.fields.at g).runFromTeleop_timed
    · have hx : exec (.endgameBoundary g) s = .next (s.enterPhase g (p, ms)).settle := by
        rw [hd]
        refine congrArg Host.Outcome.next (if_pos ?_)
        rw [Bool.and_eq_true_iff, decide_eq_true_iff]
        exact ⟨State.runningIn_iff.2 ⟨hp, hr⟩, he⟩
      exact boundary_effect (congrArg Prod.fst hd) hx
  · have hlast : (s.fields.at g).lastPhase = true := by
      rcases hl with hl | ⟨hl, he⟩
      · simp [MatchRecord.lastPhase, hl]
      · simp [MatchRecord.lastPhase, hl, he]
    have hx : exec (.matchEndExpiry g) s = .next (s.expireMatch g).settle :=
      congrArg Host.Outcome.next (if_pos (by simp [hlast, hr]))
    have hk : FieldKeeps g s (s.expireMatch g).settle :=
      ((FieldKeeps.updField g s _).trans (.expireInto g _ _)).trans ((BusKeeps.settle _).toField g)
    have hf : (s.expireMatch g).settle.fields.at g =
        { s.fields.at g with phase := .post, remaining := 0, aborted := false, grace := s.timing.grace } := by
      rw [State.settle_fields, State.expireMatch, State.expireInto_fields, Table.at_put_same, State.updField_fields,
        Table.at_put_same]
    refine ⟨_, hx, hk, hf, fun i hi => ?_, PhaseAnnounced.expireMatch hr (.settle _)⟩
    refine State.gate_phase (g := g) ?_ (by rw [hf]; simp)
    rw [State.slotField, hk.slots i]
    exact hi
  · exact congrArg Host.Outcome.next (if_pos ⟨hp, ha⟩)

end Sys2Proof.Machine
end

section
/-! SUPPORT. The commands of a field that start, resume, stop and end its match (R59 to R66). -/

namespace Sys2Proof.Machine

open Sys2Proof

/-! ### Commands that name a field -/

theorem fieldOf_range {b : Byte} (h : 4 ≤ b.toNat) : fieldOf b = none := dif_neg (Nat.not_lt.2 h)

theorem fieldOf_fieldByte (g : FieldId) : fieldOf (fieldByte g) = some g := by
  have hg : (byte g.val).toNat = g.val := Nat.mod_eq_of_lt (by omega)
  simp [fieldOf, fieldByte, hg]

theorem onField_range {s : State} {run : State → FieldId → Answer} {b : Byte} (h : 4 ≤ b.toNat) :
    onField s run [b] = .error .range := by
  simp only [onField, fieldOf_range h]

theorem onField_fieldByte (s : State) (run : State → FieldId → Answer) (g : FieldId) :
    onField s run [fieldByte g] = run s g := by
  simp only [onField, fieldOf_fieldByte]

section
variable {s t : State} {fr : Frame} {rest : List Frame} {g : FieldId} {p : Phase} {code : Byte}

/-- A command that names a field, and whose rule answers DONE. -/
theorem CommandReady.fieldDone (h : CommandReady s fr rest code [fieldByte g]) {run : State → FieldId → Answer}
    {data : List Byte} (hr : run (s.taken rest) g = .ok (t, data)) :
    s.command code 2 (fun s => onField s run) = t.queueReply fr code (.done data) :=
  h.done rfl (fun s => onField s run) ((onField_fieldByte _ run g).trans hr)

/-- A command that names a field, and whose rule refuses it. -/
theorem CommandReady.fieldRefused (h : CommandReady s fr rest code [fieldByte g]) {run : State → FieldId → Answer}
    {r : ReplyReason} (hr : run (s.taken rest) g = .error r) :
    s.command code 2 (fun s => onField s run) = s.replied fr rest code (.refused r) :=
  h.refused rfl (fun s => onField s run) ((onField_fieldByte _ run g).trans hr)

/-- What is announced, and what the gate-off events, the phase event and the silent events take, does not look at the receive
store. -/
theorem PhaseAnnounced.of_taken (h : PhaseAnnounced g p (s.taken rest) t) : PhaseAnnounced g p s t :=
  ⟨h.urgent, h.notices, h.silent, ⟨h.claims.taken, h.claims.kept, h.claims.released, h.claims.verdicts⟩, h.withdrawn⟩

theorem ShutSame.taken (s : State) (rest : List Frame) : ShutSame s (s.taken rest) :=
  ⟨fun _ => rfl, rfl, fun _ => rfl, rfl, rfl⟩

/-! ### START (R59) -/

theorem runStart_state (h : (s.fields.at g).phase ≠ .pre) : runStart s g = .error .state := if_pos h

theorem runStart_held (h : (s.fields.at g).phase = .pre) (hs : (s.fields.at g).stopped ≠ none) :
    runStart s g = .error .stopHeld := by
  rw [runStart, if_neg (not_not.2 h), if_pos (Option.isSome_iff_ne_none.2 hs)]

theorem runStart_enters (h : (s.fields.at g).phase = .pre) (hs : (s.fields.at g).stopped = none) :
    runStart s g = .ok ((s.enterPhase g (s.fields.at g).runFromAuto).settle, []) := by
  rw [runStart, if_neg (not_not.2 h), if_neg (by simp [hs])]

/-! ### RESUME (R63, R64) -/

theorem stopsField_iff {lines : Table 16 LineRecord} {n : LineId} : stopsField lines g n = true ↔
    (lines.at n).role = .stop ∧ lineField n = g ∨ (lines.at n).role = .hallStop := by
  simp [stopsField]

theorem stopHeld_iff {lines : Table 16 LineRecord} : stopHeld lines g = true ↔
    ∃ n, ((lines.at n).role = .stop ∧ lineField n = g ∨ (lines.at n).role = .hallStop) ∧
      (lines.at n).filtered = (lines.at n).activeLevel := by
  simp [stopHeld, stopsField_iff, mem_allOf, LineRecord.active]

theorem stopLatched_iff {lines : Table 16 LineRecord} : stopLatched lines g = true ↔
    ∃ n, ((lines.at n).role = .stop ∧ lineField n = g ∨ (lines.at n).role = .hallStop) ∧ (lines.at n).edge = true := by
  simp [stopLatched, stopsField_iff, mem_allOf]

/-- The three tests of a resume request in their order (R63). -/
theorem runResume_eq (s : State) (g : FieldId) : runResume s g =
    if (s.fields.at g).stopped = none then .error .state
    else if stopHeld s.lines g then .error .stopHeld
    else if stopLatched s.lines g then .error .stopLatched
    else .ok (s.resumeField g .console, []) := by
  unfold runResume State.resumeRefusal
  split_ifs <;> rfl

end

/-- Settles O38: the tests of both rules, the entry to the first timed phase, and the resume. -/
theorem startAndResumeResult : Obligations.StartAndResumeResult := by
  refine ⟨fun p hp s f rest b h hb => ?_, fun s f rest g h => ⟨fun hp => ?_, fun hp hs => ?_, fun hp hs => ?_⟩,
    fun s f rest g h => ?_⟩
  · simp only [List.mem_cons, List.not_mem_nil, or_false] at hp
    rcases hp with rfl | rfl
    all_goals exact congrArg Host.Outcome.next (h.refused rfl _ (onField_range hb))
  · exact congrArg Host.Outcome.next (h.fieldRefused (runStart_state hp))
  · exact congrArg Host.Outcome.next (h.fieldRefused (runStart_held hp hs))
  · have hx := h.fieldDone (runStart_enters (s := s.taken rest) hp hs)
    have hd := MatchRecord.runFromAuto_timed (s.fields.at g)
    have hann := PhaseAnnounced.enterPhase (s := s.taken rest) (g := g) hd (fun _ i hi => State.gateOpen_phase hi (by
      rw [show ((s.taken rest).fields.at g).phase = .pre from hp]
      simp)) ((Concludes.settle _).queueReply f 0x41 (.done []))
    have hkeep : FieldKeeps g (s.taken rest) ((s.taken rest).enterPhase g (s.fields.at g).runFromAuto).settle :=
      (FieldKeeps.enterPhase g _ _).trans ((BusKeeps.settle _).toField g)
    refine ⟨_, _, _, congrArg Host.Outcome.next hx, hkeep.replied, rfl, ?_, hann.of_taken⟩
    rw [State.queueReply_fields, State.settle_fields, State.enterPhase_fields, Table.at_put_same]
    rfl
  · have hrun : runResume (s.taken rest) g =
        if (s.fields.at g).stopped = none then .error .state
        else if stopHeld s.lines g then .error .stopHeld
        else if stopLatched s.lines g then .error .stopLatched
        else .ok ((s.taken rest).resumeField g .console, []) := runResume_eq _ g
    refine ⟨fun hs => ?_, fun hs hheld => ?_, fun hs hheld hlatch => ?_, fun hs hclear => ?_⟩
    · rw [if_pos hs] at hrun
      exact congrArg Host.Outcome.next (h.fieldRefused hrun)
    · rw [if_neg hs, if_pos (stopHeld_iff.2 hheld)] at hrun
      exact congrArg Host.Outcome.next (h.fieldRefused hrun)
    · rw [if_neg hs, if_neg (fun hh => (stopHeld_iff.1 hh).elim fun n hn => hheld n hn.1 hn.2),
        if_pos (stopLatched_iff.2 hlatch)] at hrun
      exact congrArg Host.Outcome.next (h.fieldRefused hrun)
    · rw [if_neg hs, if_neg (fun hh => (stopHeld_iff.1 hh).elim fun n hn => (hclear n hn.1).1 hn.2),
        if_neg (fun hh => (stopLatched_iff.1 hh).elim fun n hn => nomatch hn.2.symm.trans (hclear n hn.1).2)] at hrun
      exact congrArg Host.Outcome.next (h.fieldDone hrun)

/-! ### STOP (R60, R62) -/

section
variable {s t u : State} {rest : List Frame} {g : FieldId} {entered : List (FieldId × StopCause)}

theorem runStop_state (h : (s.fields.at g).phase = .idle ∨ (s.fields.at g).phase = .post) : runStop s g = .error .state := by
  rw [runStop, if_neg]
  rcases h with h | h <;> simp [h, Phase.stoppable]

theorem Phase.stoppable_of {p : Phase} (hi : p ≠ .idle) (hp : p ≠ .post) : p.stoppable = true := by
  cases p <;> simp_all [Phase.stoppable]

theorem runStop_stops (h : (s.fields.at g).phase.stoppable = true) :
    runStop s g = .ok ((s.stopField g .console).settle, []) := if_pos h

theorem StopsLaw.of_taken (h : StopsLaw entered (s.taken rest) t) : StopsLaw entered s t :=
  ⟨h.shut.before (.taken s rest), h.fields, h.others, h.notices⟩

theorem StopsLaw.enterStopped (s : State) (g : FieldId) (c : StopCause) : StopsLaw [(g, c)] s (s.enterStopped g c) := by
  have h := StopsLaw.foldl [(g, c)] (by simp) s
  rw [List.foldl_cons, List.foldl_nil] at h
  exact h

/-- A reply is no part of what the shutting of fields speaks of. -/
theorem ShutSame.queueReply (s : State) (f : Frame) (code : Byte) (o : ReplyOutcome) : ShutSame s (s.queueReply f code o) :=
  ⟨fun _ => rfl, rfl, fun _ => rfl, rfl, rfl⟩

/-- A stop of a field STOPPED already changes nothing, and of a RUNNING one it enters STOPPED (R60, R62). -/
theorem State.stopField_stopped (h : (s.fields.at g).stopped ≠ none) (c : StopCause) : s.stopField g c = s :=
  if_neg fun hs => h hs.2

theorem State.stopField_running (hp : (s.fields.at g).phase.stoppable = true) (h : (s.fields.at g).stopped = none)
    (c : StopCause) : s.stopField g c = s.enterStopped g c := if_pos ⟨hp, h⟩

/-! ### ABORT (R66) -/

theorem runAbort_state (h : (s.fields.at g).phase = .idle ∨ (s.fields.at g).phase = .pre ∨ (s.fields.at g).phase = .post) :
    runAbort s g = .error .state := by
  rw [runAbort, if_neg]
  rcases h with h | h | h <;> simp [h, Phase.timed]

theorem runAbort_ends (h : (s.fields.at g).phase.timed = true) : runAbort s g = .ok ((s.abortMatch g).settle, []) := if_pos h

theorem Phase.timed_of {p : Phase} (hi : p ≠ .idle) (hr : p ≠ .pre) (hp : p ≠ .post) : p.timed = true := by
  cases p <;> simp_all [Phase.timed]

/-- The record of a field whose match is aborted (R66). -/
def MatchRecord.ended (m : MatchRecord) : MatchRecord :=
  { m with phase := .post, aborted := true, stopped := none, remaining := 0, grace := 0 }

/-- The state of an abort before its announcement (R66). -/
def State.abortShut (s : State) (g : FieldId) : State :=
  ((s.updField g fun _ => (s.fields.at g).ended).gateOffEvents s .aborted).safeField g

theorem State.abortShut_fields (s : State) (g : FieldId) :
    (s.abortShut g).fields = s.fields.put g (s.fields.at g).ended := by
  exact (BusKeeps.safeField _ g).fields.trans (ArbiterKeeps.gateOffEvents _ s .aborted).fields

theorem State.abortShut_mgmt (s : State) (g : FieldId) : (s.abortShut g).mgmt = s.mgmt := by
  have hs (t : State) : (t.safeField g).mgmt = t.mgmt := by rw [(t.safeField_spec g).1]
  exact (hs _).trans (ArbiterKeeps.gateOffEvents _ s .aborted).mgmt

theorem State.abortShut_slotField (s : State) (g : FieldId) (i : SlotId) : (s.abortShut g).slotField i = s.slotField i := by
  have hs (t : State) : (t.safeField g).slots = t.slots := by rw [(t.safeField_spec g).1]
  rw [State.slotField, State.abortShut, hs, (ArbiterKeeps.gateOffEvents _ s .aborted).slots i]
  rfl

theorem State.abortMatch_announces (s : State) (g : FieldId) :
    s.abortMatch g = (s.abortShut g).announcePhase g (s.fields.at g).number true := rfl

theorem State.abortMatch_eq (s : State) (g : FieldId) : s.abortMatch g =
    (((s.abortShut g).setUrgent g).queueNotice (.phase g .post (s.fields.at g).number true)).clearSilent g := by
  have hp : ((s.abortShut g).fields.at g).phase = .post := by rw [State.abortShut_fields, Table.at_put_same]; rfl
  rw [State.abortMatch_announces, State.announcePhase_eq hp]
  simp [Phase.timed]

theorem ShutSame.clearSilent (s : State) (g : FieldId) : ShutSame s (s.clearSilent g) := by
  have he := s.clearSilent_eq g
  exact ⟨fun i => by rw [State.clearSilent_slot], (congrArg State.fields he).trans rfl,
    fun e => (congrArg (State.loadedAt · e) he).trans rfl, (congrArg (·.link.verdicts) he).trans rfl,
    (congrArg (·.bus.safeQueue) he).trans rfl⟩

theorem ShutSame.trans (h : ShutSame s t) (k : ShutSame t u) : ShutSame s u where
  slots i := by rw [k.slots i, h.slots i]
  fields := k.fields.trans h.fields
  loaded e := (k.loaded e).trans (h.loaded e)
  verdicts := k.verdicts.trans h.verdicts
  safeQueue := k.safeQueue.trans h.safeQueue

theorem ShutLaw.abortMatch (s : State) (g : FieldId) : ShutLaw .aborted [g] s (s.abortMatch g) := by
  rw [State.abortMatch_eq]
  refine (ShutLaw.shutField s g (s.fields.at g).ended .aborted fun i hi => ?_).after
    ((ShutSame.announced _ g _).trans (.clearSilent _ g))
  refine State.gate_phase (g := g) hi ?_
  rw [State.updField_fields, Table.at_put_same]
  simp [MatchRecord.ended]

theorem FieldKeeps.abortShut (s : State) (g : FieldId) : FieldKeeps g s (s.abortShut g) :=
  (FieldKeeps.updField g s _).trans (((ArbiterKeeps.gateOffEvents _ s .aborted).toBus.trans (.safeField _ g)).toField g)

theorem FieldKeeps.abortMatch (s : State) (g : FieldId) : FieldKeeps g s (s.abortMatch g) := by
  rw [State.abortMatch_announces]
  exact (FieldKeeps.abortShut s g).trans (.announcePhase g _ _ _)

theorem State.abortMatch_fields (s : State) (g : FieldId) :
    (s.abortMatch g).fields = s.fields.put g (s.fields.at g).ended := by
  rw [State.abortMatch_announces, State.announcePhase_fields, State.abortShut_fields]

theorem State.abortMatch_urgent (s : State) (g : FieldId) : (s.abortMatch g).beacons.urgent.at g = true := by
  rw [State.abortMatch_announces, State.announcePhase_beacons]
  exact Table.at_put_same _ _ _

theorem State.clearSilent_mgmt (s : State) (g : FieldId) : (s.clearSilent g).mgmt = s.mgmt := by rw [State.clearSilent_eq]

theorem State.abortMatch_notices (s : State) (g : FieldId) (h : s.mgmt.notices.length < 16) :
    (s.abortMatch g).mgmt.notices = s.mgmt.notices ++
      [{ dropped := s.mgmt.dropped, content := .phase g .post (s.fields.at g).number true }] := by
  have hm : ((s.abortShut g).setUrgent g).mgmt = s.mgmt :=
    (State.setUrgent_mgmt _ g).trans (s.abortShut_mgmt g)
  rw [State.abortMatch_eq, State.clearSilent_mgmt, State.queueNotice_room _ _ (by rw [hm]; exact h), hm]

theorem State.announced_slotField (s : State) (g : FieldId) (c : NoticeContent) (i : SlotId) :
    ((s.setUrgent g).queueNotice c).slotField i = s.slotField i := rfl

theorem State.abortMatch_silent {i : SlotId} (h : s.slotField i = some g) : ((s.abortMatch g).slots.at i).silent = false := by
  have hf : (((s.abortShut g).setUrgent g).queueNotice (.phase g .post (s.fields.at g).number true)).slotField i = some g :=
    (State.announced_slotField _ g _ i).trans ((s.abortShut_slotField g i).trans h)
  rw [State.abortMatch_eq, State.clearSilent_slot]
  simp [hf]

end

/-- Settles O39: the tests of both rules, the entry to STOPPED, and the end of an aborted match. -/
theorem stopAndAbortResult : Obligations.StopAndAbortResult := by
  refine ⟨fun p hp s f rest b h hb => ?_, fun s f rest g h => ⟨fun hp => ?_, fun hi hp => ?_⟩,
    fun s f rest g h => ⟨fun hp => ?_, fun hi hr hp => ?_⟩⟩
  · simp only [List.mem_cons, List.not_mem_nil, or_false] at hp
    rcases hp with rfl | rfl
    all_goals exact congrArg Host.Outcome.next (h.refused rfl _ (onField_range hb))
  · exact congrArg Host.Outcome.next (h.fieldRefused (runStop_state hp))
  · have hstop := Phase.stoppable_of hi hp
    have hx := h.fieldDone (runStop_stops (s := s.taken rest) hstop)
    have hkeep := (FieldKeeps.stopField g (s.taken rest) .console).trans ((BusKeeps.settle _).toField g)
    refine ⟨_, congrArg Host.Outcome.next hx, hkeep.replied, fun hs => ?_, fun hs => ?_⟩
    · rw [State.stopField_stopped (s := s.taken rest) hs]
      have hlaw := (StopsLaw.foldl [] List.nodup_nil (s.taken rest)).of_taken
      exact ⟨State.settle_fields _, State.settle_mgmt _, State.settle_beacons _, State.settle_slots _,
        hlaw.stopsEntered (.queueReply _ f _ _) (State.settle_beacons _) (State.settle_mgmt _)⟩
    · rw [State.stopField_running (s := s.taken rest) hstop hs]
      have hlaw : StopsLaw [(g, .console)] s ((s.taken rest).enterStopped g .console) :=
        (StopsLaw.enterStopped (s.taken rest) g .console).of_taken
      generalize (s.taken rest).enterStopped g .console = t at hlaw ⊢
      exact hlaw.stopsEntered (.queueReply _ f _ _) (State.settle_beacons t) (State.settle_mgmt t)
  · exact congrArg Host.Outcome.next (h.fieldRefused (runAbort_state hp))
  · have hx := h.fieldDone (runAbort_ends (s := s.taken rest) (Phase.timed_of hi hr hp))
    have hkeep := FieldKeeps.abortMatch (s.taken rest) g
    have hfields := State.abortMatch_fields (s.taken rest) g
    have hurgent := State.abortMatch_urgent (s.taken rest) g
    have hsilent := fun i => State.abortMatch_silent (s := s.taken rest) (g := g) (i := i)
    have hnotices := State.abortMatch_notices (s.taken rest) g
    have hlaw : ShutLaw .aborted [g] s ((s.taken rest).abortMatch g) :=
      (ShutLaw.abortMatch (s.taken rest) g).before (.taken s rest)
    generalize (s.taken rest).abortMatch g = t at *
    refine ⟨_, congrArg Host.Outcome.next hx, (hkeep.trans ((BusKeeps.settle t).toField g)).replied, ?_, ?_, fun i hi => ?_,
      hlaw.fieldsShut (.queueReply _ f _ _), fun hn => ?_⟩
    · rw [State.queueReply_fields, State.settle_fields, hfields, Table.at_put_same]
      rfl
    · rw [State.queueReply_beacons, State.settle_beacons, hurgent]
    · rw [State.queueReply_slots, State.settle_slots, hsilent i hi]
    · rw [State.queueReply_mgmt, State.settle_mgmt, hnotices hn]
      rfl

end Sys2Proof.Machine
end

section
/-! SUPPORT. SET TIMING: its tests, and the slots that new settings find silent (R41, R185, R186). -/

namespace Sys2Proof.Machine

open Sys2Proof

section
variable {s t : State} {n sample : Nat} {tm : Timing} {rest : List Frame} {ops : List Byte}

/-! ### The tests (R185) -/

theorem samplePeriodOf_mem (h : n ∈ [1, 2, 4, 8, 16, 32]) : samplePeriodOf n = some n := by
  exact if_pos (by simpa using h)

theorem samplePeriodOf_range (h : n ∉ [1, 2, 4, 8, 16, 32]) : samplePeriodOf n = none := by
  simpa [samplePeriodOf] using h

theorem State.allIdle_iff : s.allIdle = true ↔ ∀ g, (s.fields.at g).phase = .idle := by
  simp [State.allIdle, mem_allOf]

/-- SET TIMING once its sample period is in range: the other tests, and the settings (R185, R186). -/
def State.setTimings (s : State) (tm : Timing) : Answer :=
  match s.timingRefusal tm with
  | some r => .error r
  | none => .ok (s.writeTimings tm, (s.writeTimings tm).settingsEntry)

theorem State.setTimings_live (hs : tm.sample ≠ s.timing.sample) (hg : ∃ g, (s.fields.at g).phase ≠ .idle) :
    s.setTimings tm = .error .fieldLive := by
  have hidle : s.allIdle = false := Bool.eq_false_iff.2 fun ha => hg.elim fun g hg => hg (State.allIdle_iff.1 ha g)
  rw [State.setTimings, State.timingRefusal, if_pos ⟨hs, hidle⟩]

theorem State.not_live (h : tm.sample = s.timing.sample ∨ ∀ g, (s.fields.at g).phase = .idle) :
    ¬ (tm.sample ≠ s.timing.sample ∧ s.allIdle = false) := by
  rintro ⟨hs, hi⟩
  rw [State.allIdle_iff.2 (h.resolve_left hs)] at hi
  exact nomatch hi

theorem State.setTimings_state (h : tm.sample = s.timing.sample ∨ ∀ g, (s.fields.at g).phase = .idle)
    (hc : tm.p ≠ s.timing.p ∨ tm.k ≠ s.timing.k ∨ tm.window ≠ s.timing.window) (hb : s.bus.state ≠ .paused) :
    s.setTimings tm = .error .state := by
  rw [State.setTimings, State.timingRefusal, if_neg (State.not_live h), if_pos ⟨hc, hb⟩]

theorem State.setTimings_ok (h : tm.sample = s.timing.sample ∨ ∀ g, (s.fields.at g).phase = .idle)
    (hc : s.bus.state = .paused ∨ (tm.p = s.timing.p ∧ tm.k = s.timing.k ∧ tm.window = s.timing.window)) :
    s.setTimings tm = .ok (s.writeTimings tm, (s.writeTimings tm).settingsEntry) := by
  rw [State.setTimings, State.timingRefusal, if_neg (State.not_live h), if_neg]
  rintro ⟨hn, hb⟩
  obtain ⟨hp, hk, hw⟩ := hc.resolve_left hb
  exact hn.elim (· hp) fun hn => hn.elim (· hk) (· hw)

/-! ### The settings (R186) -/

/-- The settings written, before the test of silence (R166, R74, R186). -/
def State.withTimings (s : State) (tm : Timing) : State :=
  { s with
    timing := tm
    beacons := { s.beacons with left := some tm.beacon }
    sampleLeft := if tm.sample = s.timing.sample then s.sampleLeft else some tm.sample }

theorem State.writeTimings_eq (s : State) (tm : Timing) : s.writeTimings tm = (s.withTimings tm).silenceTests.settle := by
  unfold State.writeTimings State.withTimings
  by_cases h : tm.sample = s.timing.sample <;> simp [h]

/-- The slots that the test of every slot marks (R41). -/
def State.foundSilent (s : State) : List SlotId := (allOf 32).filter s.dueSilent

theorem State.foundSilent_ascending (s : State) : s.foundSilent.Pairwise (· < ·) :=
  (List.pairwise_lt_finRange 32).filter _

theorem State.mem_foundSilent {i : SlotId} : i ∈ s.foundSilent ↔ (s.slots.at i).silent = false ∧
    s.timing.silent < (s.slots.at i).age ∧ ∃ g, s.slotField i = some g ∧ (s.fields.at g).phase.timed = true := by
  simp only [State.foundSilent, List.mem_filter, mem_allOf, true_and, State.dueSilent, Bool.and_eq_true,
    Bool.not_eq_true', decide_eq_true_iff, State.inTimedPhase_iff]
  tauto

theorem State.silenceTests_eq (s : State) : s.silenceTests = s.foundSilent.foldl State.markSilent s :=
  State.foldl_silenceTest _ (List.nodup_finRange 32) s

theorem State.silenceTests_slots (c : Concludes s.silenceTests t) (i : SlotId) : t.slots.at i = { s.slots.at i with
    silent := (s.slots.at i).silent || decide (i ∈ s.foundSilent), outstanding := (t.slots.at i).outstanding } := by
  rw [c.slots, State.silenceTests_eq]
  exact State.foldl_markSilent_slots _ s i

theorem State.silenceTests_notices (c : Concludes s.silenceTests t)
    (h : s.mgmt.notices.length + s.foundSilent.length ≤ 16) :
    t.mgmt.notices = s.mgmt.notices ++ s.foundSilent.mapIdx fun n i =>
      { dropped := if n = 0 then s.mgmt.dropped else 0, content := .silent i } := by
  rw [c.mgmt, State.silenceTests_eq]
  exact State.foldl_markSilent_notices _ s h

theorem State.settingsEntry_queueReply (s : State) (f : Frame) (code : Byte) (o : ReplyOutcome) :
    s.settingsEntry = (s.queueReply f code o).settingsEntry := rfl

/-- What the slots found silent have is taken, and nothing else (R41, R106). -/
theorem State.silenceTests_takes (c : Concludes s.silenceTests t) :
    ClaimsTaken .silent (fun _ _ => False) s.foundSilent s t := by
  have hk := SlotsTaken.markSilent s.foundSilent ((List.nodup_finRange 32).filter _) s
  rw [← State.silenceTests_eq] at hk
  exact (EventTakes.none .silent s fun _ _ => id).claimsTaken hk c.toWorkKept

/-- A change that the queues, holds and verdicts do not show comes first. -/
theorem ClaimsTaken.of_same {r : Reason} {loses : Loaded → SlotId → Prop} {silent : List SlotId} {u : State}
    (h : ClaimsTaken r loses silent s t) (hl : ∀ e, s.loadedAt e = u.loadedAt e) (hv : s.link.verdicts = u.link.verdicts) :
    ClaimsTaken r loses silent u t := by
  have hd : u.ClaimsDistinct → s.ClaimsDistinct := fun hd e l hs => hd e l (hl e ▸ hs)
  exact ⟨fun d e l l' i hs => h.taken (hd d) e l l' i (hl e ▸ hs), fun e l hs => h.kept e l (hl e ▸ hs),
    fun d hlen e l x hs => h.released (hd d) hlen e l x (hl e ▸ hs), fun v hm => hv ▸ h.verdicts v hm⟩

end

/-- Settles O24: the tests in their order, and the settings with the slots they find silent. -/
theorem setTimingResult : Obligations.SetTimingResult := by
  intro s f rest b1 b2 s1 s2 g1 g2 ap se p1 p2 sp p k w1 w2 h
  have hrun (hm : sp.toNat ∈ [1, 2, 4, 8, 16, 32]) :
      runSetTiming (s.taken rest) [b1, b2, s1, s2, g1, g2, ap, se, p1, p2, sp, p, k, w1, w2] =
        (s.taken rest).setTimings (clampTimings (nat16 b1 b2) (nat16 s1 s2) (nat16 g1 g2) ap.toNat se.toNat (nat16 p1 p2)
          sp.toNat p.toNat k.toNat (nat16 w1 w2)) := by
    rw [runSetTiming, samplePeriodOf_mem hm]
    rfl
  generalize htm : clampTimings (nat16 b1 b2) (nat16 s1 s2) (nat16 g1 g2) ap.toNat se.toNat (nat16 p1 p2) sp.toNat p.toNat
    k.toNat (nat16 w1 w2) = tm at hrun
  refine ⟨fun hm => ?_, fun hm hs hg => ?_, fun hm hs hc hb => ?_, fun hm hs hc => ?_⟩
  · refine congrArg Host.Outcome.next (h.refused rfl runSetTiming ?_)
    rw [runSetTiming, samplePeriodOf_range hm]
  · refine congrArg Host.Outcome.next (h.refused rfl runSetTiming ((hrun hm).trans (State.setTimings_live ?_ hg)))
    rw [← htm]
    exact hs
  · refine congrArg Host.Outcome.next (h.refused rfl runSetTiming ((hrun hm).trans (State.setTimings_state ?_ ?_ hb)))
    · rw [← htm]
      exact hs
    · rw [← htm]
      exact hc
  · have hx := h.done rfl runSetTiming ((hrun hm).trans (State.setTimings_ok (by
      rw [← htm]
      exact hs) (by
      rw [← htm]
      exact hc)))
    rw [State.writeTimings_eq] at hx
    generalize hv : (s.taken rest).withTimings tm = v at hx
    have hkeep : BusKeeps v v.silenceTests.settle := (BusKeeps.silenceTests v).trans (.settle _)
    have hend : Concludes v.silenceTests (v.silenceTests.settle.queueReply f 0x32 (.done v.silenceTests.settle.settingsEntry)) :=
      (Concludes.settle _).queueReply f _ _
    have hclaims := (State.silenceTests_takes hend).of_same (u := s) (by rw [← hv]; exact fun _ => rfl) (by rw [← hv]; rfl)
    have hdata := v.silenceTests.settle.settingsEntry_queueReply f 0x32 (.done v.silenceTests.settle.settingsEntry)
    have hmark (i : SlotId) : i ∈ v.foundSilent ↔ _ := State.mem_foundSilent
    have hslots := State.silenceTests_slots hend
    have hnotices := State.silenceTests_notices hend
    have hascend := v.foundSilent_ascending
    generalize v.silenceTests.settle = u at *
    generalize v.foundSilent = marked at *
    subst hv htm
    exact ⟨_, _, marked, congrArg Host.Outcome.next hx, hkeep.timing, hkeep.beacons, hkeep.sampleLeft, hascend, hmark, hslots,
      hnotices, hclaims, congrArg (·.store) hkeep.link, congrArg (·.replies ++ _) hkeep.link, hdata, hkeep.busState,
      hkeep.fields, hkeep.tallies, hkeep.stations, hkeep.lines, hkeep.gate, hkeep.entry⟩

end Sys2Proof.Machine
end

section
/-! SUPPORT. The periodic events, and the countdowns of the element bus (R35, R132 to R138, R167). -/

namespace Sys2Proof.Machine

open Sys2Proof

section
variable {s : State} {e : ElementId} {l : Loaded}

/-! ### The probe turn and the bus arbiter (R128, R138) -/

/-- What the bus arbiter does to the probe turn: an idle one is cleared, and the start of a PROBE takes it. -/
theorem State.settle_probeTurn (s : State) :
    s.settle.bus.probeTurn = (s.bus.probeTurn && s.probeCandidate.isSome) ∨
      s.settle.bus.probeTurn = false ∧ ∃ r, s.settle.bus.activity = .flight r ∧ r.command = .probe := by
  by_cases hr : s.bus.state = .running ∧ s.bus.activity = .idle ∧ ∃ k m c, s.FirstDue k m c
  · obtain ⟨hrun, hidle, k, m, c, hf⟩ := hr
    rw [State.settle_first hrun hidle hf, State.startTransaction, s.clearIdleTurn_loadedAt, hf.loaded]
    dsimp only [State.updBus]
    by_cases hc : c = .probe
    · exact .inr ⟨if_pos hc, _, rfl, hc⟩
    · left
      rw [if_neg hc, State.updLoaded_bus, s.clearIdleTurn_bus]
  · left
    rw [State.settle_nothing (by
      by_contra hn
      push Not at hn
      exact hr ⟨hn.1, hn.2.1, hn.2.2⟩), s.clearIdleTurn_bus]

/-- The probe period ends, and the bus arbiter chooses (R138). -/
theorem State.probePeriodEnds_settle (s : State) :
    ((∀ e l, s.loadedAt e = some l → l.presence ≠ .unknown ∧ l.presence ≠ .absent) →
      s.probePeriodEnds.settle.bus.probeTurn = false) ∧
    (∀ e l, s.loadedAt e = some l → l.presence = .unknown ∨ l.presence = .absent →
      s.probePeriodEnds.settle.bus.probeTurn = true ∨
        ∃ r, s.probePeriodEnds.settle.bus.activity = .flight r ∧ r.command = .probe) := by
  have hcand : s.probePeriodEnds.probeCandidate = none ↔ ∀ k m, s.loadedAt k = some m → m.missing = false :=
    State.probeCandidate_eq_none
  have hcases := s.probePeriodEnds.settle_probeTurn
  rw [show s.probePeriodEnds.bus.probeTurn = true from rfl, Bool.true_and] at hcases
  refine ⟨fun h => ?_, fun e l hl hm => ?_⟩
  · have hnone : s.probePeriodEnds.probeCandidate = none := hcand.2 fun k m hk =>
      Bool.eq_false_iff.2 fun hm => (Loaded.missing_iff m).1 hm |>.elim (h k m hk).1 (h k m hk).2
    rw [hnone] at hcases
    exact hcases.elim id fun h => h.1
  · have hsome : s.probePeriodEnds.probeCandidate ≠ none := fun hn =>
      nomatch (hcand.1 hn e l hl).symm.trans ((Loaded.missing_iff l).2 hm)
    exact hcases.imp (fun h => h.trans (Option.isSome_iff_ne_none.2 hsome)) fun h => h.2

/-! ### A countdown that arrives (R132, R134, R136) -/

/-- Only the start of its own transaction uses up a countdown (R128). -/
theorem Loaded.started_countdowns (l : Loaded) (c : BusCommand) :
    (c ≠ .actuate → (l.started c).resend = l.resend) ∧ (c ≠ .actionPoll → (l.started c).actionPoll = l.actionPoll) ∧
      (c ≠ .sensorPoll → (l.started c).sensor = l.sensor) := by
  cases c with
  | actuate =>
    unfold Loaded.started
    dsimp only
    split
    · split <;> simp
    · simp
  | probe | fetch | actionPoll | sensorPoll | safe => simp [Loaded.started]

/-- A countdown of an element arrives, and the bus arbiter chooses: it is due until the transaction `c` is started. -/
theorem countdown_arrives {count : Loaded → Option Nat} {g : Loaded → Loaded} (c : BusCommand) (hl : s.loadedAt e = some l)
    (hg : ∀ m, (g m).entry = m.entry ∧ (g m).hold = m.hold ∧ (g m).claims = m.claims) (hdue : count (g l) = some 0)
    (hc : ∀ m d, d ≠ c → count (Loaded.started m d) = count m) :
    BusKeeps s (s.updLoaded e g).settle ∧ (s.updLoaded e g).settle.link = s.link ∧
      (s.updLoaded e g).settle.mgmt = s.mgmt ∧ ∃ l', (s.updLoaded e g).settle.loadedAt e = some l' ∧ l'.hold = l.hold ∧
      l'.claims = l.claims ∧ (count l' = some 0 ∨
        ∃ r, (s.updLoaded e g).settle.bus.activity = .flight r ∧ r.element = e ∧ r.command = c) := by
  obtain ⟨-, hold, claims⟩ := hg l
  have hat : (s.updLoaded e g).loadedAt e = some (g l) := by rw [State.updLoaded_loadedAt_same, hl, Option.map_some]
  refine ⟨(BusKeeps.updLoaded s e g fun m => (hg m).1).trans (.settle _), State.settle_link _, State.settle_mgmt _, ?_⟩
  rcases State.settle_get_due hat with h | ⟨d, -, h, r, hr, he, hd⟩
  · exact ⟨_, h, hold, claims, .inl hdue⟩
  · obtain ⟨hq, hh, -⟩ := (g l).started_keeps d
    refine ⟨_, h, hh.trans hold, hq.trans claims, ?_⟩
    by_cases hdc : d = c
    · exact .inr ⟨r, hr, he, hd.trans hdc⟩
    · exact .inl ((hc _ d hdc).trans hdue)

theorem madeDue_of {n : Option Nat} (h : n ≠ none) : madeDue n = some 0 := by
  obtain ⟨k, rfl⟩ := Option.ne_none_iff_exists'.1 h
  rfl

theorem bind_isSome {n : Loaded → Option Nat} (hl : s.loadedAt e = some l) (h : n l ≠ none) :
    ((s.loadedAt e).bind n).isSome = true := by
  rw [hl, Option.bind_some, Option.isSome_iff_ne_none]
  exact h

end

/-- Settles O43: the periodic events start again, and a countdown that arrives is due until its transaction starts. -/
theorem periodsAndCountdowns : Obligations.PeriodsAndCountdowns := by
  intro s
  refine ⟨fun hm => ⟨⟨s.refillAll, ?_, fun i => ?_, rfl⟩, ⟨s.beaconPeriodEnds, ?_, fun f => ?_, rfl⟩⟩, fun hp => ?_,
    fun e l hl => ⟨fun hn => ?_, fun hn => ?_, fun hn => ?_⟩⟩
  · exact congrArg Host.Outcome.next (if_pos (by simpa [State.timersRun] using hm))
  · exact Table.at_map _ _ i
  · exact congrArg Host.Outcome.next (if_pos (by simpa [State.timersRun] using hm))
  · exact Table.at_fill true f
  · have hkeep : BusKeeps { s with bus := { s.bus with probeLeft := some s.timing.probe } } s.probePeriodEnds.settle :=
      (show BusKeeps { s with bus := { s.bus with probeLeft := some s.timing.probe } } s.probePeriodEnds from
        { BusKeeps.refl _ with }).trans (.settle _)
    exact ⟨_, congrArg Host.Outcome.next (if_pos (Option.isSome_iff_ne_none.2 hp)), hkeep, s.probePeriodEnds_settle⟩
  · obtain ⟨hk, hlink, hmgmt, l', hl'⟩ := countdown_arrives (count := (·.resend))
      (g := fun l => { l with resend := madeDue l.resend }) .actuate hl (fun _ => ⟨rfl, rfl, rfl⟩) (madeDue_of hn)
      fun m d hd => (m.started_countdowns d).1 hd
    exact ⟨_, l', congrArg Host.Outcome.next (if_pos (bind_isSome hl hn)), hk, hlink, hmgmt, hl'⟩
  · obtain ⟨hk, hlink, hmgmt, l', hl'⟩ := countdown_arrives (count := (·.actionPoll))
      (g := fun l => { l with actionPoll := madeDue l.actionPoll }) .actionPoll hl (fun _ => ⟨rfl, rfl, rfl⟩) (madeDue_of hn)
      fun m d hd => (m.started_countdowns d).2.1 hd
    exact ⟨_, l', congrArg Host.Outcome.next (if_pos (bind_isSome hl hn)), hk, hlink, hmgmt, hl'⟩
  · obtain ⟨hk, hlink, hmgmt, l', hl'⟩ := countdown_arrives (count := (·.sensor))
      (g := fun l => { l with sensor := madeDue l.sensor }) .sensorPoll hl (fun _ => ⟨rfl, rfl, rfl⟩) (madeDue_of hn)
      fun m d hd => (m.started_countdowns d).2.2 hd
    exact ⟨_, l', congrArg Host.Outcome.next (if_pos (bind_isSome hl hn)), hk, hlink, hmgmt, hl'⟩

end Sys2Proof.Machine
end

section
/-! SUPPORT. The ends of a hold and of a queued claim, and who holds the element next (R95 to R104). -/

namespace Sys2Proof.Machine

open Sys2Proof

section
variable {s t u : State} {e : ElementId} {l m n : Loaded} {h : Hold} {i : SlotId} {r : Reason} {d : Claim}

/-! ### Grants and what the arbiter leaves alone -/

theorem ArbiterKeeps.slotAlliance (k : ArbiterKeeps s t) (i : SlotId) : t.slotAlliance i = s.slotAlliance i := by
  rw [State.slotAlliance, k.slots i]
  rfl

theorem ArbiterKeeps.picks (k : ArbiterKeeps s t) (x : ElementEntry) (last : Option Alliance) (a b : List Claim) (d : Claim) :
    t.Picks x last a d b ↔ s.Picks x last a d b := by
  unfold State.Picks State.Preferred
  simp only [k.mayHold, k.slotAlliance]

/-! ### What the bus arbiter leaves of an element (R128) -/

/-- The bus may start a transaction of an element kept as `m`: what it leaves of it, `n`. -/
structure Loaded.Served (m n : Loaded) : Prop where
  claims : n.claims = m.claims
  hold : n.hold = m.hold
  lastRelease : n.lastRelease = m.lastRelease
  lastAlliance : n.lastAlliance = m.lastAlliance
  request : n.act.map (·.request) = m.act.map (·.request)
  onElement : ∀ a, m.act = some a → a.state ≠ .waitingBus ∨ a.sent = true → n.act = some a
  granted : ∀ d, m.grantedTo d false → ∃ sent, n.grantedTo d sent

theorem Loaded.started_granted {c : BusCommand} (h : m.grantedTo d false) : ∃ sent, (m.started c).grantedTo d sent := by
  obtain ⟨hhold, hact⟩ := h
  obtain ⟨-, hold, -, -, -, -, -, act⟩ := m.started_keeps c
  rw [hact, Option.map_some, Option.map_eq_some_iff] at act
  obtain ⟨⟨slot, request, state, sent, running⟩, ha, heq⟩ := act
  simp only [Prod.mk.injEq] at heq
  obtain ⟨rfl, rfl, rfl, rfl⟩ := heq
  exact ⟨sent, by rw [hold, hhold, Loaded.started_entry], ha⟩

theorem State.settle_served (h : s.loadedAt e = some m) : ∃ n, s.settle.loadedAt e = some n ∧ m.Served n := by
  obtain ⟨n, hn, -, -, -, honElement⟩ := State.settle_kept h
  refine ⟨n, hn, ?_⟩
  obtain ⟨n', hn', hcases⟩ := State.settle_get h
  obtain rfl : n' = n := Option.some.inj (hn'.symm.trans hn)
  rcases hcases with rfl | ⟨c, -, rfl, -⟩
  · exact ⟨rfl, rfl, rfl, rfl, rfl, honElement, fun d hd => ⟨false, hd⟩⟩
  · obtain ⟨hclaims, hhold, -, -, hlast, halliance, -, hact⟩ := m.started_keeps c
    refine ⟨hclaims, hhold, hlast, halliance, ?_, honElement, fun d hd => Loaded.started_granted hd⟩
    have := congrArg (Option.map fun p : SlotId × Request × ActState × Nat => p.2.1) hact
    rwa [Option.map_map, Option.map_map] at this

theorem State.settle_requests (s : State) (k : ElementId) :
    (s.settle.loadedAt k).map (fun x => (x.claims, x.hold, x.act.map (·.request))) =
      (s.loadedAt k).map (fun x => (x.claims, x.hold, x.act.map (·.request))) := by
  cases hl : s.loadedAt k with
  | none => rw [(WorkKept.settle s).empty k hl, Option.map_none]
  | some x =>
    obtain ⟨n, hn, hserved⟩ := State.settle_served hl
    rw [hn, Option.map_some, Option.map_some, hserved.claims, hserved.hold, hserved.request]

/-- What of the other elements a settled change of one element leaves alone. -/
theorem ClaimsKept.settle (h : ∀ k, k ≠ e → t.loadedAt k = s.loadedAt k) : ClaimsKept s t.settle e := by
  intro k hk
  have hw := WorkKept.settle t
  rw [← h k hk]
  cases hl : t.loadedAt k with
  | none => rw [hw.empty k hl]
  | some x =>
    obtain ⟨y, hy, hc, hh⟩ := hw.loaded k x hl
    rw [hy, Option.map_some, Option.map_some, hc, hh]

/-! ### The end of a hold (R99) -/

/-- The first steps of the end of a hold, before a new holder is looked for (R99). -/
def State.holdCleared (s : State) (e : ElementId) (h : Hold) (r : Reason) : State :=
  (s.releaseHold e h r).cancelUnsent e h.slot

/-- What the first steps of the end of a hold leave of its element, `m`. -/
structure Loaded.Cleared (l m : Loaded) (h : Hold) (alliance : Option Alliance) : Prop where
  hold : m.hold = none
  claims : m.claims = l.claims
  presence : m.presence = l.presence
  entry : m.entry = l.entry
  lastAlliance : ∀ x, alliance = some x → m.lastAlliance = some x
  onElement : ∀ a, l.act = some a → a.state ≠ .waitingBus ∨ a.sent = true → m.act = some a
  unsent : (∀ a, l.act = some a → a.state = .waitingBus ∧ a.sent = false) → m.act = none

theorem State.releaseHold_spec (hl : s.loadedAt e = some l) :
    (s.releaseHold e h r).loadedAt e = some (l.released h.slot (s.slotAlliance h.slot)) ∧
    (s.releaseHold e h r).slots =
      s.slots.put h.slot { s.slots.at h.slot with outstanding := (s.slots.at h.slot).outstanding - 1 } ∧
    (s.releaseHold e h r).link.verdicts = holdEndVerdicts s.link.verdicts e { l with act := none } h r := by
  refine ⟨by simp [State.releaseHold, hl], ?_, ?_⟩
  all_goals
    unfold State.releaseHold State.dropNext
    cases hn : h.next <;> simp [holdEndVerdicts, hn]

theorem holdEndVerdicts_left (q : List Verdict) (e : ElementId) (h : Hold) (r : Reason) (hact : l.act = none ∨
    ∃ x, l.act = some x ∧ ¬ (x.state = .waitingBus ∧ x.sent = false)) :
    holdEndVerdicts q e l h r = holdEndVerdicts q e { l with act := none } h r := by
  rcases hact with ha | ⟨x, ha, hx⟩
  · simp [holdEndVerdicts, ha]
  · simp [holdEndVerdicts, ha, hx]

theorem holdEndVerdicts_unsent (q : List Verdict) (e : ElementId) (h : Hold) (r : Reason) {a : Actuation} (ha : l.act = some a)
    (hu : a.state = .waitingBus ∧ a.sent = false) :
    holdEndVerdicts q e l h r = enqueueVerdict (holdEndVerdicts q e { l with act := none } h r)
      { slot := h.slot, element := elementByte e, outcome := .cancelled, tag := a.request.tag } := by
  simp [holdEndVerdicts, ha, hu]

theorem Loaded.released_cleared (l : Loaded) (a : Option Alliance) (hact : l.act = none ∨
    ∃ x, l.act = some x ∧ ¬ (x.state = .waitingBus ∧ x.sent = false)) : l.Cleared (l.released h.slot a) h a where
  hold := rfl
  claims := rfl
  presence := rfl
  entry := rfl
  lastAlliance x hx := by subst hx; rfl
  onElement _ hx _ := hx
  unsent hu := hact.elim id fun ⟨x, hx, hn⟩ => absurd (hu x hx) hn

theorem State.holdCleared_spec (hl : s.loadedAt e = some l) :
    ∃ m, (s.holdCleared e h r).loadedAt e = some m ∧ l.Cleared m h (s.slotAlliance h.slot) ∧
      (s.holdCleared e h r).slots =
        s.slots.put h.slot { s.slots.at h.slot with outstanding := (s.slots.at h.slot).outstanding - 1 } ∧
      (s.holdCleared e h r).link.verdicts = holdEndVerdicts s.link.verdicts e l h r := by
  obtain ⟨hat, hslots, hverdicts⟩ := State.releaseHold_spec (h := h) (r := r) hl
  rw [State.holdCleared]
  have hleft (hact : l.act = none ∨ ∃ x, l.act = some x ∧ ¬ (x.state = .waitingBus ∧ x.sent = false)) :
      (s.releaseHold e h r).cancelUnsent e h.slot = s.releaseHold e h r := by
    unfold State.cancelUnsent
    rw [hat]
    rcases hact with ha | ⟨a, ha, hu⟩
    · simp [Loaded.released, ha]
    · simp [Loaded.released, ha, hu]
  by_cases hact : l.act = none ∨ ∃ x, l.act = some x ∧ ¬ (x.state = .waitingBus ∧ x.sent = false)
  · rw [hleft hact, holdEndVerdicts_left _ e h r hact]
    exact ⟨_, hat, l.released_cleared _ hact, hslots, hverdicts⟩
  · obtain ⟨a, ha, hu⟩ : ∃ a, l.act = some a ∧ a.state = .waitingBus ∧ a.sent = false := by
      rw [not_or] at hact
      obtain ⟨a, ha⟩ := Option.ne_none_iff_exists'.1 hact.1
      exact ⟨a, ha, by_contra fun hn => hact.2 ⟨a, ha, hn⟩⟩
    rw [holdEndVerdicts_unsent _ e h r ha hu, ← hverdicts, ← hslots]
    generalize s.releaseHold e h r = t at hat
    have heq : t.cancelUnsent e h.slot = (t.updLoaded e fun l => l.withoutAct t.timing.sensor).verdictFor h.slot e .cancelled
        a.request.tag := by
      unfold State.cancelUnsent
      rw [hat]
      simp [Loaded.released, ha, hu]
    rw [heq]
    refine ⟨_, by rw [State.verdictFor_loadedAt, State.updLoaded_loadedAt_same, hat, Option.map_some], ?_, rfl, rfl⟩
    refine ⟨rfl, rfl, rfl, rfl, fun x hx => ?_, fun b hb hon => ?_, fun _ => rfl⟩
    · rw [hx]
      rfl
    · obtain rfl : a = b := Option.some.inj (ha.symm.trans hb)
      exact absurd hu.1 (hon.resolve_right (by simp [hu.2]))

/-- The end of a hold, and who holds the element next (R99, R101, R102). -/
theorem State.endHold_spec (hl : s.loadedAt e = some l) (hh : l.hold = some h) (r : Reason) :
    ∃ m, (s.endHold e r).loadedAt e = some m ∧
      (s.endHold e r).slots =
        s.slots.put h.slot { s.slots.at h.slot with outstanding := (s.slots.at h.slot).outstanding - 1 } ∧
      (∀ a, l.act = some a → a.state ≠ .waitingBus ∨ a.sent = true →
        m.act = some a ∧ m.hold = none ∧ m.claims = l.claims ∧
        (s.endHold e r).link.verdicts = holdEndVerdicts s.link.verdicts e l h r) ∧
      ((∀ a, l.act = some a → a.state = .waitingBus ∧ a.sent = false) →
        (l.presence ≠ .present ∨ (∀ d ∈ l.claims, ¬ s.MayHold l.entry d) →
          m.act = none ∧ m.hold = none ∧ m.claims = l.claims ∧
          (s.endHold e r).link.verdicts = holdEndVerdicts s.link.verdicts e l h r) ∧
        (∀ x before d behind, l.presence = .present → s.slotAlliance h.slot = some x →
          l.claims = before ++ d :: behind → s.Picks l.entry (some x) before d behind →
          m.grantedTo d false ∧ m.claims = before ++ behind ∧
          (s.endHold e r).link.verdicts = enqueueVerdict (holdEndVerdicts s.link.verdicts e l h r)
            { slot := d.slot, element := elementByte e, outcome := .granted, tag := d.request.tag })) := by
  have heq : s.endHold e r = (s.holdCleared e h r).selectIfFree e := by
    unfold State.endHold
    rw [hl, Option.bind_some, hh]
    rfl
  obtain ⟨c, hc, hclear, hslots, hverdicts⟩ := State.holdCleared_spec (h := h) (r := r) hl
  have hk : ArbiterKeeps s (s.holdCleared e h r) := (ArbiterKeeps.releaseHold s e h r).trans (.cancelUnsent _ e h.slot)
  rw [heq, ← hslots, ← hverdicts]
  generalize s.holdCleared e h r = t at hc hk
  by_cases hact : c.act = none
  · have hsel : t.selectIfFree e = t.grantSelection e := by
      unfold State.selectIfFree
      rw [hc]
      exact if_pos hact
    have hleft (a : Actuation) (ha : l.act = some a) (hon : a.state ≠ .waitingBus ∨ a.sent = true) : False :=
      nomatch (hclear.onElement a ha hon).symm.trans hact
    have hslot := t.grantSelection_slots e
    have hstill (hn : l.presence ≠ .present ∨ ∀ d ∈ l.claims, ¬ s.MayHold l.entry d) : t.grantSelection e = t := by
      refine State.grantSelection_still hc ?_
      rw [hclear.presence, hclear.claims, hclear.entry]
      simpa only [hk.mayHold] using hn
    obtain ⟨m, hm⟩ : ∃ m, (t.grantSelection e).loadedAt e = some m := by
      have hentry := (ArbiterKeeps.grantSelection t e).toBus.entry e
      rw [hc, Option.map_some, Option.map_eq_some_iff] at hentry
      exact hentry.imp fun _ => And.left
    rw [hsel]
    refine ⟨m, hm, hslot, fun a ha hon => (hleft a ha hon).elim, fun _ => ⟨fun hn => ?_, fun x before d behind hp hx hq hd => ?_⟩⟩
    · rw [hstill hn] at hm ⊢
      obtain rfl : c = m := Option.some.inj (hc.symm.trans hm)
      exact ⟨hact, hclear.hold, hclear.claims, rfl⟩
    · obtain ⟨hat, -, hgranted⟩ := State.grantSelection_picks hc (hclear.presence.trans hp) hclear.hold hact
        (hclear.claims.trans hq) (by rwa [hclear.lastAlliance x hx, hclear.entry, hk.picks])
      obtain rfl := Option.some.inj (hat.symm.trans hm)
      exact ⟨⟨rfl, rfl⟩, rfl, hgranted⟩
  · have hsel : t.selectIfFree e = t := by
      unfold State.selectIfFree
      rw [hc]
      exact if_neg hact
    rw [hsel]
    exact ⟨c, hc, rfl, fun a ha hon => ⟨hclear.onElement a ha hon, hclear.hold, hclear.claims, rfl⟩,
      fun hu => absurd (hclear.unsent hu) hact⟩

/-- The rows that end a hold: `base` is the state that the arrival leaves, `t` the settled end of the hold in it. -/
theorem holdEnd_settled {base : State} (hl : base.loadedAt e = some l) (hh : l.hold = some h) (r : Reason) :
    ∃ n, (base.endHold e r).settle.loadedAt e = some n ∧ ClaimsKept base (base.endHold e r).settle e ∧
      ((base.endHold e r).settle.slots.at h.slot).outstanding = (base.slots.at h.slot).outstanding - 1 ∧
      (∀ j, j ≠ h.slot → ((base.endHold e r).settle.slots.at j).outstanding = (base.slots.at j).outstanding) ∧
      n.lastRelease = some { slot := h.slot, since := 0 } ∧
      (∀ x, base.slotAlliance h.slot = some x → n.lastAlliance = some x) ∧
      (∀ a, l.act = some a → a.state ≠ .waitingBus ∨ a.sent = true →
        n.act = some a ∧ n.hold = none ∧ n.claims = l.claims ∧
        (base.endHold e r).settle.link.verdicts = holdEndVerdicts base.link.verdicts e l h r) ∧
      ((∀ a, l.act = some a → a.state = .waitingBus ∧ a.sent = false) →
        (l.presence ≠ .present ∨ (∀ d ∈ l.claims, ¬ base.MayHold l.entry d) →
          n.act = none ∧ n.hold = none ∧ n.claims = l.claims ∧
          (base.endHold e r).settle.link.verdicts = holdEndVerdicts base.link.verdicts e l h r) ∧
        (∀ x before d behind, l.presence = .present → base.slotAlliance h.slot = some x →
          l.claims = before ++ d :: behind → base.Picks l.entry (some x) before d behind →
          (∃ sent, n.grantedTo d sent) ∧ n.claims = before ++ behind ∧
          (base.endHold e r).settle.link.verdicts = enqueueVerdict (holdEndVerdicts base.link.verdicts e l h r)
            { slot := d.slot, element := elementByte e, outcome := .granted, tag := d.request.tag })) := by
  obtain ⟨m, hm, hslots, honElement, hfree⟩ := State.endHold_spec hl hh r
  obtain ⟨m', hm', hrelease, halliance⟩ := State.endHold_lastRelease hl hh r
  obtain rfl : m' = m := Option.some.inj (hm'.symm.trans hm)
  obtain ⟨n, hn, hserved⟩ := State.settle_served hm
  refine ⟨n, hn, .settle fun k hk => State.endHold_others base e r hk, ?_, fun j hj => ?_, hserved.lastRelease.trans hrelease,
    fun x hx => hserved.lastAlliance.trans (halliance x hx), fun a ha hon => ?_, fun hu => ⟨fun hnone => ?_, ?_⟩⟩
  · rw [State.settle_slots, hslots, Table.at_put_same]
  · rw [State.settle_slots, hslots, Table.at_put_other _ _ hj]
  · obtain ⟨hact, hhold, hclaims, hverdicts⟩ := honElement a ha hon
    exact ⟨hserved.onElement a hact hon, hserved.hold.trans hhold, hserved.claims.trans hclaims, by
      rw [State.settle_link, hverdicts]⟩
  · obtain ⟨hact, hhold, hclaims, hverdicts⟩ := (hfree hu).1 hnone
    refine ⟨?_, hserved.hold.trans hhold, hserved.claims.trans hclaims, by rw [State.settle_link, hverdicts]⟩
    simpa [hact] using hserved.request
  · intro x before d behind hp hx hq hd
    obtain ⟨hgranted, hclaims, hverdicts⟩ := (hfree hu).2 x before d behind hp hx hq hd
    exact ⟨hserved.granted d hgranted, hserved.claims.trans hclaims, by rw [State.settle_link, hverdicts]⟩

/-! ### The end of a queued claim (R104) -/

/-- A queued claim is withdrawn, before a new holder is looked for (R104). -/
def State.unqueued (s : State) (e : ElementId) (c : Claim) (r : Reason) : State :=
  ((s.updLoaded e fun l => { l with claims := l.claims.erase c }).lessOutstanding c.slot).verdictFor c.slot e (.withdrawn r)
    c.request.tag

theorem State.withdraw_eq (s : State) (e : ElementId) (c : Claim) (r : Reason) :
    s.withdraw e c r = (s.unqueued e c r).grantSelection e := rfl

theorem ArbiterKeeps.unqueued (s : State) (e : ElementId) (c : Claim) (r : Reason) : ArbiterKeeps s (s.unqueued e c r) := by
  refine .trans (.trans ?_ (.lessOutstanding _ _)) (.verdictFor _ _ _ _ _)
  exact .updLoaded s e _ fun _ => rfl

theorem State.unqueued_loadedAt (hl : s.loadedAt e = some l) (c : Claim) (r : Reason) :
    (s.unqueued e c r).loadedAt e = some { l with claims := l.claims.erase c } := by
  rw [State.unqueued, State.verdictFor_loadedAt, State.lessOutstanding_loadedAt, State.updLoaded_loadedAt_same, hl,
    Option.map_some]

theorem State.unqueued_slots (s : State) (e : ElementId) (c : Claim) (r : Reason) : (s.unqueued e c r).slots =
    s.slots.put c.slot { s.slots.at c.slot with outstanding := (s.slots.at c.slot).outstanding - 1 } := rfl

theorem State.unqueued_verdicts (s : State) (e : ElementId) (c : Claim) (r : Reason) :
    (s.unqueued e c r).link.verdicts = enqueueVerdict s.link.verdicts
      { slot := c.slot, element := elementByte e, outcome := .withdrawn r, tag := c.request.tag } := rfl

/-- What is left of its element when a queued claim is withdrawn, and who holds it next. -/
theorem State.withdraw_spec {before behind : List Claim} {c : Claim} (hl : s.loadedAt e = some l)
    (hq : l.claims = before ++ c :: behind) (hb : ∀ d ∈ before, d.slot ≠ c.slot) (r : Reason) :
    ∃ m, (s.withdraw e c r).loadedAt e = some m ∧
      (s.withdraw e c r).slots =
        s.slots.put c.slot { s.slots.at c.slot with outstanding := (s.slots.at c.slot).outstanding - 1 } ∧
      (l.hold ≠ none ∨ l.act ≠ none ∨ l.presence ≠ .present ∨ (∀ d ∈ before ++ behind, ¬ s.MayHold l.entry d) →
        m.hold = l.hold ∧ m.claims = before ++ behind ∧
        (s.withdraw e c r).link.verdicts = enqueueVerdict s.link.verdicts
          { slot := c.slot, element := elementByte e, outcome := .withdrawn r, tag := c.request.tag }) ∧
      (∀ a d b, l.hold = none → l.act = none → l.presence = .present → before ++ behind = a ++ d :: b →
        s.Picks l.entry l.lastAlliance a d b →
        m.grantedTo d false ∧ m.claims = a ++ b ∧
        (s.withdraw e c r).link.verdicts = enqueueVerdict (enqueueVerdict s.link.verdicts
          { slot := c.slot, element := elementByte e, outcome := .withdrawn r, tag := c.request.tag })
          { slot := d.slot, element := elementByte e, outcome := .granted, tag := d.request.tag }) := by
  have herase : l.claims.erase c = before ++ behind := by
    rw [hq, List.erase_append_right _ fun hc => hb c hc rfl, List.erase_cons_head]
  have hk := ArbiterKeeps.unqueued s e c r
  have hat := State.unqueued_loadedAt hl c r
  rw [herase] at hat
  rw [State.withdraw_eq, ← State.unqueued_slots s e c r, ← State.unqueued_verdicts s e c r]
  generalize s.unqueued e c r = t at hk hat ⊢
  obtain ⟨m, hm⟩ : ∃ m, (t.grantSelection e).loadedAt e = some m := by
    have hentry := (ArbiterKeeps.grantSelection t e).toBus.entry e
    rw [hat, Option.map_some, Option.map_eq_some_iff] at hentry
    exact hentry.imp fun _ => And.left
  refine ⟨m, hm, t.grantSelection_slots e, fun hn => ?_, fun a d b hh ha hp hs hd => ?_⟩
  · have hstill : t.grantSelection e = t := by
      by_cases hfree : l.hold = none ∧ l.act = none
      · refine State.grantSelection_still hat ?_
        simpa [hfree, hk.mayHold] using hn
      · unfold State.grantSelection
        rw [hat]
        exact if_neg fun hg => hfree ⟨hg.2.1, hg.2.2⟩
    rw [hstill] at hm ⊢
    obtain rfl := Option.some.inj (hat.symm.trans hm)
    exact ⟨rfl, rfl, rfl⟩
  · obtain ⟨hat', -, hgranted⟩ := State.grantSelection_picks hat hp hh ha hs ((hk.picks _ _ _ _ _).2 hd)
    obtain rfl := Option.some.inj (hat'.symm.trans hm)
    exact ⟨⟨rfl, rfl⟩, rfl, hgranted⟩

/-! ### RELEASE (R97) -/

theorem elementOf_elementByte (e : ElementId) : elementOf (elementByte e) = some e := by
  have he : (byte e.val).toNat = e.val := Nat.mod_eq_of_lt (by omega)
  simp [elementOf, elementByte, he]

theorem elementByte_of_elementOf {b : Byte} (h : elementOf b = some e) : b = elementByte e := by
  unfold elementOf at h
  split at h
  · cases h
    simp [elementByte, byte]
  · exact nomatch h

theorem Loaded.heldBy_iff : l.heldBy i = true ↔ ∃ h, l.hold = some h ∧ h.slot = i := by
  unfold Loaded.heldBy
  cases l.hold <;> simp

theorem State.takeRelease_holder (hl : s.loadedAt e = some l) (hh : l.hold = some h) :
    s.takeRelease h.slot (elementByte e) = s.endHold e .byRobot := by
  unfold State.takeRelease
  rw [elementOf_elementByte]
  dsimp only
  rw [hl]
  exact if_pos (Loaded.heldBy_iff.2 ⟨h, hh, rfl⟩)

theorem State.takeRelease_claim {before behind : List Claim} {c : Claim} (hl : s.loadedAt e = some l)
    (hh : ∀ h, l.hold = some h → h.slot ≠ c.slot) (hq : l.claims = before ++ c :: behind)
    (hb : ∀ d ∈ before, d.slot ≠ c.slot) : s.takeRelease c.slot (elementByte e) = s.withdraw e c .byRobot := by
  have hclaim : l.claimOf c.slot = some c := by
    rw [Loaded.claimOf, hq]
    exact find_split (fun d hd => beq_eq_false_iff_ne.2 (hb d hd)) (beq_self_eq_true _)
  unfold State.takeRelease
  rw [elementOf_elementByte]
  dsimp only
  rw [hl]
  dsimp only
  rw [if_neg fun hx => (Loaded.heldBy_iff.1 hx).elim fun x hx => hh x hx.1 hx.2, hclaim]

/-- A RELEASE by a slot that has neither claim nor hold on the element it names (R97). -/
theorem State.takeRelease_refused {b : Byte} (hb : ∀ e l, b = elementByte e → s.loadedAt e = some l →
    (∀ h, l.hold = some h → h.slot ≠ i) ∧ ∀ c ∈ l.claims, c.slot ≠ i) :
    s.takeRelease i b = s.queueVerdict i b (.refused .notHolding) 0 := by
  unfold State.takeRelease
  cases he : elementOf b with
  | none => rfl
  | some e =>
    dsimp only
    cases hl : s.loadedAt e with
    | none => rfl
    | some l =>
      obtain ⟨hhold, hclaims⟩ := hb e l (elementByte_of_elementOf he) hl
      have hnone : l.claimOf i = none := List.find?_eq_none.2 fun c hc => by simpa using hclaims c hc
      dsimp only
      rw [if_neg fun hx => (Loaded.heldBy_iff.1 hx).elim fun x hx => hhold x hx.1 hx.2, hnone]

end

/-- Settles O18: the end of a hold and of a queued claim, and the refusal. -/
theorem holdEnds : Obligations.HoldEnds := by
  refine ⟨fun s base c reason e l h hl hh hc => ?_, fun s f rest i radio e l before c behind hf hl hh hq hi hb => ?_,
    fun s f rest i radio b hf hb => ?_⟩
  · obtain ⟨hx, hat, halliance, hout, hverdicts⟩ : exec c s = .next (base.endHold e reason).settle ∧
        (∀ k, base.loadedAt k = s.loadedAt k) ∧ base.slotAlliance h.slot = s.slotAlliance h.slot ∧
        (∀ j, (base.slots.at j).outstanding = (s.slots.at j).outstanding) ∧ base.link.verdicts = s.link.verdicts := by
      rcases hc with ⟨rfl, rfl, rfl⟩ | ⟨rfl, rfl, f, rest, radio, hf, rfl⟩
      · refine ⟨congrArg Host.Outcome.next ?_, fun _ => rfl, rfl, fun _ => rfl, rfl⟩
        unfold State.expireHold
        rw [hl, Option.bind_some, hh]
      · refine ⟨?_, s.takenFromRobot_loadedAt rest h.slot radio, s.takenFromRobot_slotAlliance rest h.slot radio h.slot,
          s.takenFromRobot_outstanding rest h.slot radio, rfl⟩
        rw [hf.exec_eq, State.takeRelease_holder ((s.takenFromRobot_loadedAt rest h.slot radio e).trans hl) hh]
    obtain ⟨n, hn, hkept, hone, hother, hlast, hback, honElement, hfree⟩ := holdEnd_settled ((hat e).trans hl) hh reason
    rw [hverdicts] at honElement hfree
    rw [halliance] at hback hfree
    exact ⟨_, n, hx, (ArbiterKeeps.endHold base e reason).toBus.trans (.settle _), hn,
      fun k hk => (hkept k hk).trans (by rw [hat]), hone.trans (by rw [hout]), fun j hj => (hother j hj).trans (hout j), hlast,
      hback, honElement, hfree⟩
  · subst hi
    have hat := s.takenFromRobot_loadedAt rest c.slot radio
    have hout := s.takenFromRobot_outstanding rest c.slot radio
    have hverdicts : (s.takenFromRobot rest c.slot radio).link.verdicts = s.link.verdicts := rfl
    have hx := hf.exec_eq
    rw [State.takeRelease_claim ((hat e).trans hl) hh hq hb] at hx
    generalize s.takenFromRobot rest c.slot radio = base at *
    obtain ⟨m, hm, hslots, hstill, hnext⟩ := State.withdraw_spec ((hat e).trans hl) hq hb .byRobot
    obtain ⟨n, hn, hserved⟩ := State.settle_served hm
    rw [hverdicts] at hstill hnext
    refine ⟨_, n, hx, (ArbiterKeeps.withdraw base e c .byRobot).toBus.trans (.settle _), hn, ?_, ?_, fun j hj => ?_,
      fun h => ?_, fun a d b hhold hact hp hs hd => ?_⟩
    · exact .settle fun k hk => (State.withdraw_others base e c .byRobot hk).trans (hat k)
    · rw [State.settle_slots, hslots, Table.at_put_same, hout]
    · rw [State.settle_slots, hslots, Table.at_put_other _ _ hj, hout]
    · obtain ⟨hhold, hclaims, hv⟩ := hstill h
      exact ⟨hserved.hold.trans hhold, hserved.claims.trans hclaims, by rw [State.settle_link, hv]⟩
    · obtain ⟨hgranted, hclaims, hv⟩ := hnext a d b hhold hact hp hs hd
      exact ⟨hserved.granted d hgranted, hserved.claims.trans hclaims, by rw [State.settle_link, hv]⟩
  · have hat := s.takenFromRobot_loadedAt rest i radio
    have hx := hf.exec_eq
    rw [State.takeRelease_refused fun e l he hl => hb e l he ((hat e).symm.trans hl)] at hx
    refine ⟨_, hx, (ArbiterKeeps.queueVerdict _ _ _ _ _).toBus.trans (.settle _), State.settle_slots _, ?_, fun k => ?_⟩
    · rw [State.settle_link]
      rfl
    · rw [← hat k, ← State.queueVerdict_loadedAt (s.takenFromRobot rest i radio) i b (.refused .notHolding) 0 k]
      exact State.settle_requests _ k

end Sys2Proof.Machine
end

section
/-! SUPPORT. The end of a millisecond that brings no event but countdowns of the element bus (R48, R96, R100, R113, R127,
R128, R138). -/

namespace Sys2Proof.Machine

open Sys2Proof

/-! ### Counters (R127) -/

/-- A countdown at its last millisecond reaches 0. -/
def fell (c : Option Nat) : Option Nat := if c = some 1 then some 0 else c

theorem fell_fell (c : Option Nat) : fell (fell c) = fell c := by
  by_cases h : c = some 1 <;> simp [fell, h]

theorem atLast_iff {c : Option Nat} : atLast c = true ↔ c = some 1 := by
  unfold atLast
  split
  · simp
  · next hn => simpa using hn

theorem not_last {c : Option Nat} (h : atLast c = false) : c ≠ some 1 := fun hc => nomatch h.symm.trans (atLast_iff.2 hc)

theorem tickDown_of_running {c : Option Nat} (h : c ≠ some 1) : tickDown c = c.map (· - 1) := by
  rcases c with _ | _ | _ | n
  · rfl
  · rfl
  · exact absurd rfl h
  · rfl

/-- A countdown at the end of a millisecond, the arrival included. -/
theorem fell_tickDown (c : Option Nat) : (if c = some 1 then fell (tickDown c) else tickDown c) = c.map (· - 1) := by
  split
  · next h => subst h; rfl
  · next h => exact tickDown_of_running h

/-! ### Countdowns that arrive together (R127, R128) -/

/-- A countdown falls if it is at its last millisecond. -/
def Countdown.fallNow (s : State) (c : Countdown) : State := if atLast (c.left s) then c.fall s else s

/-- What the arrival of the countdowns `cs` makes of what is kept of element `e`. -/
def Loaded.fallen (cs : List Countdown) (e : ElementId) (l : Loaded) : Loaded :=
  { l with
    resend := if .resend e ∈ cs then fell l.resend else l.resend
    actionPoll := if .actionPoll e ∈ cs then fell l.actionPoll else l.actionPoll
    sensor := if .sensor e ∈ cs then fell l.sensor else l.sensor }

/-- What the arrival of the countdowns `cs` makes of the bus. -/
def Bus.fallen (cs : List Countdown) (period : Nat) (b : Bus) : Bus :=
  if .probe ∈ cs ∧ b.probeLeft = some 1 then { b with probeTurn := true, probeLeft := some period } else b

/-- All that the arrival of the countdowns `cs` changes. -/
structure Fallen (cs : List Countdown) (s t : State) : Prop where
  elements : ∀ e, t.elements.at e = { s.elements.at e with loaded := (s.loadedAt e).map (Loaded.fallen cs e) }
  bus : t.bus = Bus.fallen cs s.timing.probe s.bus
  rest : t = { s with elements := t.elements, bus := t.bus }

section
variable {s t u : State} {e k : ElementId} {l : Loaded} {c : Countdown} {cs : List Countdown} {g : Loaded → Loaded}

theorem Loaded.fallen_nil (e : ElementId) : Loaded.fallen [] e = id := by
  funext l
  simp [Loaded.fallen]

theorem Loaded.fallen_cons (c : Countdown) (cs : List Countdown) (e : ElementId) (l : Loaded) :
    Loaded.fallen (c :: cs) e l = Loaded.fallen cs e (Loaded.fallen [c] e l) := by
  have step (p q : Prop) [Decidable p] [Decidable q] (n : Option Nat) : (if p ∨ q then fell n else n) =
      if q then fell (if p then fell n else n) else if p then fell n else n := by
    by_cases hp : p <;> by_cases hq : q <;> simp [hp, hq, fell_fell]
  simp only [Loaded.fallen, List.mem_cons, List.not_mem_nil, or_false, step]

theorem Bus.fallen_cons (c : Countdown) (cs : List Countdown) (n : Nat) (b : Bus) :
    Bus.fallen (c :: cs) n b = Bus.fallen cs n (Bus.fallen [c] n b) := by
  simp only [Bus.fallen, List.mem_cons, List.not_mem_nil, or_false]
  by_cases hp : b.probeLeft = some 1 <;> by_cases hc : Countdown.probe = c <;> by_cases hs : Countdown.probe ∈ cs <;>
    simp [hp, hc, hs]

theorem Fallen.of_same (hl : ∀ l, s.loadedAt e = some l → Loaded.fallen cs e l = l) :
    s.elements.at e = { s.elements.at e with loaded := (s.loadedAt e).map (Loaded.fallen cs e) } := by
  cases h : s.loadedAt e with
  | none => rw [Option.map_none, ← h, State.loadedAt_def]
  | some l => rw [Option.map_some, hl l h, ← h, State.loadedAt_def]

/-- An element's countdown falls if it is at its last millisecond. -/
theorem Fallen.element {count : Loaded → Option Nat} {set : Loaded → Option Nat → Loaded}
    (hleft : c.left s = (s.loadedAt k).bind count) (hfall : c.fall s = s.updLoaded k fun l => set l (some 0))
    (hset : ∀ l, set l (count l) = l) (hc : c ≠ .probe)
    (hat : ∀ e l, Loaded.fallen [c] e l = if e = k then set l (fell (count l)) else l) : Fallen [c] s (c.fallNow s) := by
  have hbus : Bus.fallen [c] s.timing.probe s.bus = s.bus := if_neg fun h => hc (List.mem_singleton.1 h.1).symm
  unfold Countdown.fallNow
  by_cases hlast : atLast (c.left s) = true
  · rw [if_pos hlast, hfall]
    refine ⟨fun e => ?_, hbus.symm, rfl⟩
    rw [hleft, atLast_iff, Option.bind_eq_some_iff] at hlast
    obtain ⟨m, hm, hone⟩ := hlast
    rw [State.updLoaded_at]
    split
    · next he =>
      subst he
      rw [hm, Option.map_some, Option.map_some, hat, if_pos rfl, hone]
      rfl
    · next he => exact Fallen.of_same fun l _ => (hat e l).trans (if_neg he)
  · rw [if_neg hlast]
    refine ⟨fun e => Fallen.of_same fun l hl => ?_, hbus.symm, rfl⟩
    rw [hat]
    split
    · next he =>
      subst he
      rw [hleft, hl, Option.bind_some, atLast_iff] at hlast
      rw [fell, if_neg hlast, hset]
    · rfl

theorem Fallen.fallNow (s : State) (c : Countdown) : Fallen [c] s (c.fallNow s) := by
  cases c with
  | resend k =>
    refine .element (count := (·.resend)) (set := fun l n => { l with resend := n }) rfl rfl (fun _ => rfl) (by simp) ?_
    intro e l
    by_cases he : e = k <;> simp [Loaded.fallen, he]
  | actionPoll k =>
    refine .element (count := (·.actionPoll)) (set := fun l n => { l with actionPoll := n }) rfl rfl (fun _ => rfl) (by simp) ?_
    intro e l
    by_cases he : e = k <;> simp [Loaded.fallen, he]
  | sensor k =>
    refine .element (count := (·.sensor)) (set := fun l n => { l with sensor := n }) rfl rfl (fun _ => rfl) (by simp) ?_
    intro e l
    by_cases he : e = k <;> simp [Loaded.fallen, he]
  | probe =>
    have hel (e : ElementId) : s.elements.at e = { s.elements.at e with loaded := (s.loadedAt e).map (Loaded.fallen [.probe] e) } :=
      Fallen.of_same fun l _ => by simp [Loaded.fallen]
    unfold Countdown.fallNow
    by_cases hp : s.bus.probeLeft = some 1
    · rw [if_pos (show atLast (Countdown.probe.left s) = true from atLast_iff.2 hp)]
      exact ⟨hel, (if_pos ⟨List.mem_singleton_self _, hp⟩).symm, rfl⟩
    · rw [if_neg (show ¬ atLast (Countdown.probe.left s) = true from mt atLast_iff.1 hp)]
      exact ⟨hel, (if_neg fun h => hp h.2).symm, rfl⟩

theorem Fallen.loadedAt (h : Fallen cs s t) (e : ElementId) : t.loadedAt e = (s.loadedAt e).map (Loaded.fallen cs e) := by
  rw [State.loadedAt_def, h.elements]

theorem Fallen.foldl (cs : List Countdown) (s : State) : Fallen cs s (cs.foldl Countdown.fallNow s) := by
  induction cs generalizing s with
  | nil => exact ⟨fun e => Fallen.of_same fun l _ => by rw [Loaded.fallen_nil]; rfl, (if_neg (by simp)).symm, rfl⟩
  | cons c cs ih =>
    have h := Fallen.fallNow s c
    have k := ih (c.fallNow s)
    rw [List.foldl_cons]
    have htiming : (c.fallNow s).timing = s.timing := by rw [h.rest]
    refine ⟨fun e => ?_, ?_, ?_⟩
    · have hmap : Loaded.fallen (c :: cs) e = Loaded.fallen cs e ∘ Loaded.fallen [c] e :=
        funext (Loaded.fallen_cons c cs e)
      rw [k.elements, h.loadedAt, h.elements, Option.map_map, hmap]
    · rw [k.bus, h.bus, htiming, ← Bus.fallen_cons]
    · rw [k.rest, h.rest]

/-! ### A millisecond without other moments -/

theorem mem_allCountdowns (c : Countdown) : c ∈ allCountdowns := by
  unfold allCountdowns
  cases c <;> simp [mem_allOf]

theorem mem_allMoments {m : Moment} (h : ∀ cs, m ≠ .countdowns cs) : m ∈ allMoments := by
  unfold allMoments
  cases m <;> simp [mem_allOf] at h ⊢

theorem State.mem_arriving : c ∈ s.arriving ↔ c.left s = some 1 := by
  rw [State.arriving, List.mem_filter, atLast_iff]
  exact and_iff_right (mem_allCountdowns c)

theorem State.arriving_eq_nil : s.arriving = [] ↔ s.bus.probeLeft ≠ some 1 ∧ ∀ e l, s.loadedAt e = some l →
    l.resend ≠ some 1 ∧ l.actionPoll ≠ some 1 ∧ l.sensor ≠ some 1 := by
  rw [List.eq_nil_iff_forall_not_mem]
  simp only [State.mem_arriving]
  constructor
  · intro h
    refine ⟨h .probe, fun e l hl => ⟨fun hr => h (.resend e) ?_, fun hr => h (.actionPoll e) ?_, fun hr => h (.sensor e) ?_⟩⟩
    all_goals rw [Countdown.left, hl, Option.bind_some, hr]
  · rintro ⟨hp, hl⟩ c hc
    cases c with
    | probe => exact hp hc
    | resend e | actionPoll e | sensor e =>
      obtain ⟨l, hat, hone⟩ := Option.bind_eq_some_iff.1 hc
      have := hl e l hat
      tauto

/-- The counters after a millisecond without other moments: one free value is used for the countdowns that arrive. -/
def State.counted (s : State) : State :=
  s.arriving.foldl Countdown.fallNow { s.advance with choices := s.choices + if s.arriving = [] then 0 else 1 }

theorem State.advance_loadedAt (s : State) (n : Nat) (e : ElementId) :
    ({ s.advance with choices := n } : State).loadedAt e = (s.loadedAt e).map Loaded.tick := by
  change s.advance.loadedAt e = _
  exact congrArg Element.loaded (Table.at_map s.elements _ e)

/-- A countdown at its last millisecond is left to its moment. -/
theorem State.advance_left (h : c.left s = some 1) (n : Nat) : c.left { s.advance with choices := n } = some 1 := by
  have hbind {count : Loaded → Option Nat} {e : ElementId} (hc : ∀ l, count l.tick = tickDown (count l))
      (h : (s.loadedAt e).bind count = some 1) :
      (({ s.advance with choices := n } : State).loadedAt e).bind count = some 1 := by
    obtain ⟨l, hl, hone⟩ := Option.bind_eq_some_iff.1 h
    rw [s.advance_loadedAt n e, hl, Option.map_some, Option.bind_some, hc, hone]
    rfl
  cases c with
  | resend e => exact hbind (fun _ => rfl) h
  | actionPoll e => exact hbind (fun _ => rfl) h
  | sensor e => exact hbind (fun _ => rfl) h
  | probe => exact congrArg tickDown h

theorem State.countAndRun_counted (h : ∀ m ∈ allMoments, m.comes s = false) :
    s.countAndRun = if s.arriving = [] then s.counted else s.counted.settle := by
  have hnone : allMoments.filter (fun m => m.comes s) = [] := List.filter_eq_nil_iff.2 fun m hm => by simp [h m hm]
  unfold State.countAndRun State.moments
  rw [hnone, List.nil_append]
  by_cases ha : s.arriving = []
  · rw [if_pos ha, State.counted, ha]
    rfl
  · rw [if_neg ha, State.counted, if_neg ha, if_neg (by simpa using ha)]
    obtain ⟨c, hc⟩ := List.exists_mem_of_ne_nil _ ha
    have hstands : (Moment.countdowns s.arriving).stands { s.advance with choices := s.choices + 1 } = true :=
      List.any_eq_true.2 ⟨c, hc, atLast_iff.2 (State.advance_left (State.mem_arriving.1 hc) _)⟩
    exact if_pos hstands

/-- With no other moment coming, each counter has its next value (R48, R54, R96, R113). -/
theorem MatchRecord.tick_quiet {f : FieldId} (h : ∀ m ∈ allMoments, m.comes s = false) : (s.fields.at f).tick =
    { s.fields.at f with
      remaining := if (s.fields.at f).phase.timed = true ∧ (s.fields.at f).stopped = none
        then (s.fields.at f).remaining - 1 else (s.fields.at f).remaining
      grace := if (s.fields.at f).phase = .post ∧ (s.fields.at f).aborted = false
        then (s.fields.at f).grace - 1 else (s.fields.at f).grace } := by
  have hauto := h (.autoExpiry f) (mem_allMoments nofun)
  have hpause := h (.pauseExpiry f) (mem_allMoments nofun)
  have hboundary := h (.endgameBoundary f) (mem_allMoments nofun)
  have hend := h (.matchEnd f) (mem_allMoments nofun)
  have hgrace := h (.graceEnd f) (mem_allMoments nofun)
  simp only [Moment.comes] at hauto hpause hboundary hend hgrace
  generalize s.fields.at f = m at *
  have harrives : m.arrives = false := by
    by_contra ha
    rw [Bool.not_eq_false] at ha
    have htimed : m.phase.timed = true := by
      simp only [MatchRecord.arrives, MatchRecord.counts, Bool.and_eq_true] at ha
      exact ha.1.1
    simp only [ha, Bool.and_true, MatchRecord.lastPhase] at hauto hpause hboundary hend
    cases hp : m.phase <;> simp_all [Phase.timed]
  unfold MatchRecord.tick
  congr 1
  · simp [harrives, MatchRecord.counts]
  · have hg : m.gracing = true ↔ m.phase = .post ∧ m.aborted = false := by simp [MatchRecord.gracing]
    simp only [Bool.and_eq_true, hg, decide_eq_true_iff]
    by_cases hp : m.phase = .post ∧ m.aborted = false
    · have hne : m.grace ≠ 1 := by simpa [hg.2 hp] using hgrace
      simp only [hp, true_and, if_true]
      split <;> omega
    · simp [hp]

theorem Loaded.tick_quiet (h : ∀ m ∈ allMoments, m.comes s = false) (hl : s.loadedAt e = some l) :
    Loaded.fallen s.arriving e l.tick = { l with
      hold := l.hold.map fun h => { h with remaining := h.remaining - 1 }
      act := l.act.map fun a => { a with
        running := if a.state = .waitingBus then a.running else min 65535 (a.running + 1) }
      lastRelease := l.lastRelease.map fun r => { r with since := min 65535 (r.since + 1) }
      resend := l.resend.map (· - 1)
      actionPoll := l.actionPoll.map (· - 1)
      sensor := l.sensor.map (· - 1) } := by
  have hhold := h (.holdExpiry e) (mem_allMoments nofun)
  simp only [Moment.comes, State.loadedTest, hl] at hhold
  simp only [Loaded.fallen, State.mem_arriving, Countdown.left, hl, Option.bind_some, Loaded.tick, fell_tickDown]
  congr 1
  · cases hx : l.hold with
    | none => rfl
    | some x =>
      have hmore : 1 < x.remaining := by simpa [hx] using hhold
      rw [Option.map_some, Option.map_some, if_pos hmore]
  · congr 1
    funext a
    unfold Actuation.tick Actuation.onElement
    obtain ⟨slot, request, state, sent, running⟩ := a
    cases state <;> simp [tickUp, saturate, Config.maxCounter]

/-- The probe countdown at the end of a millisecond (R138). -/
theorem Bus.fallen_tick (s : State) :
    Bus.fallen s.arriving s.timing.probe { s.bus with probeLeft := tickDown s.bus.probeLeft } = { s.bus with
      probeTurn := s.bus.probeTurn || decide (s.bus.probeLeft = some 1)
      probeLeft := if s.bus.probeLeft = some 1 then some s.timing.probe else s.bus.probeLeft.map (· - 1) } := by
  simp only [Bus.fallen, State.mem_arriving, Countdown.left]
  by_cases hp : s.bus.probeLeft = some 1
  · simp [hp, tickDown]
  · rw [if_neg fun hb => hp hb.1]
    simp [hp, tickDown_of_running hp]

end

/-- Settles O4: the counters advance, the countdowns that arrive fall together, and then the bus arbiter chooses. -/
theorem millisecondMovesCounters : Obligations.MillisecondMovesCounters := by
  intro s hp hs ht hm h
  have hsample : atLast s.sampleLeft = false := h .sample (mem_allMoments nofun)
  have hstep : step s = .next (if s.arriving = [] then s.counted else s.counted.settle) := by
    have htick : s.tick = s.countAndRun := by
      unfold State.tick State.sampleStops
      rw [hsample, if_neg (by simpa [State.timersRun] using hm)]
      rfl
    unfold step ownStep State.frameRow State.takeRow
    rw [hp, hs, ht, ← State.countAndRun_counted h, ← htick]
    rfl
  have hf := Fallen.foldl s.arriving { s.advance with choices := s.choices + if s.arriving = [] then 0 else 1 }
  rw [← State.counted] at hf
  have hnone : s.arriving = [] ↔ s.bus.probeLeft ≠ some 1 ∧ ∀ e l, s.loadedAt e = some l →
      l.resend ≠ some 1 ∧ l.actionPoll ≠ some 1 ∧ l.sensor ≠ some 1 := State.arriving_eq_nil
  generalize s.counted = u at *
  have hrest (e : ElementId) : (u.elements.at e).rules = (s.elements.at e).rules ∧
      (u.elements.at e).eventCount = (s.elements.at e).eventCount := by
    have hadv : s.advance.elements.at e = { s.elements.at e with loaded := (s.loadedAt e).map Loaded.tick } :=
      Table.at_map s.elements _ e
    rw [hf.elements]
    change (s.advance.elements.at e).rules = _ ∧ (s.advance.elements.at e).eventCount = _
    rw [hadv]
    exact ⟨rfl, rfl⟩
  have hsettled : u.choices = s.choices + if s.arriving = [] then 0 else 1 := by rw [hf.rest]
  refine ⟨u, fun hone => ?_, fun hprobe hquiet => ?_, fun f => ?_, fun i => ?_, fun e => ?_, hrest, ?_, ?_, ?_, ?_, ?_⟩
  · have hne : s.arriving ≠ [] := fun ha => by
      obtain ⟨hp, hl⟩ := hnone.1 ha
      rcases hone with hone | ⟨e, l, hat, hone⟩
      · exact hp hone
      · obtain ⟨h1, h2, h3⟩ := hl e l hat
        tauto
    rw [if_neg hne] at hstep hsettled
    exact ⟨hstep, hsettled⟩
  · rw [if_pos (hnone.2 ⟨hprobe, hquiet⟩)] at hstep hsettled
    exact ⟨hstep, hsettled⟩
  · rw [hf.rest, ← MatchRecord.tick_quiet h]
    exact Table.at_map s.fields _ f
  · rw [hf.rest]
    exact Table.at_map s.slots _ i
  · rw [hf.loadedAt, State.advance_loadedAt, Option.map_map]
    cases hl : s.loadedAt e with
    | none => rfl
    | some l => exact congrArg some (Loaded.tick_quiet h hl)
  · rw [hf.bus]
    exact Bus.fallen_tick s
  · rw [hf.rest]
    exact congrArg (fun c => { s.beacons with left := c }) (tickDown_of_running (not_last (h .beacon (mem_allMoments nofun))))
  · rw [hf.rest]
    exact tickDown_of_running (not_last hsample)
  · rw [hf.rest]
    exact tickDown_of_running (not_last (h .budget (mem_allMoments nofun)))
  · rw [hf.rest]
    exact ⟨rfl, rfl, rfl, rfl, rfl, rfl, rfl, rfl, rfl, rfl⟩

end Sys2Proof.Machine
end

section
/-! SUPPORT. COMMIT and RESET MATCH: the return of a field to IDLE (R47, R55, R67, R69). -/

namespace Sys2Proof.Machine

open Sys2Proof

section
variable {s t v : State} {g : FieldId} {p : Phase} {i : SlotId} {code : Byte} {fr : Frame} {rest : List Frame}
  {result : Option ResultRecord}

theorem Table.at_put_true (t : Table 4 Bool) (g h : FieldId) : (t.put g true).at h = (decide (h = g) || t.at h) := by
  rw [Table.at_put]
  by_cases hg : h = g <;> simp [hg]

/-! ### The entry to a phase that is not timed (R42, R55) -/

theorem State.announcePhase_clears (hp : (v.fields.at g).phase = p) (ht : p.timed = false) (n : Nat) (a : Bool) :
    v.announcePhase g n a = ((v.setUrgent g).queueNotice (.phase g p n a)).clearSilent g := by
  have hevent : ¬ (p = .teleop ∨ p = .endgame) := by rintro (rfl | rfl) <;> exact nomatch ht
  rw [State.announcePhase_eq hp]
  simp [hevent, ht]

/-- The announcements of a phase that is not timed: the urgent mark, NOTICE PHASE, and silent marks alone. -/
theorem State.announcePhase_untimed (hp : (v.fields.at g).phase = p) (ht : p.timed = false) (n : Nat) (a : Bool) :
    v.announcePhase g n a = { v with
      slots := (v.announcePhase g n a).slots
      beacons := { v.beacons with urgent := v.beacons.urgent.put g true }
      mgmt := (v.queueNotice (.phase g p n a)).mgmt } := by
  rw [State.announcePhase_clears hp ht]
  exact State.clearSilent_eq _ g

/-- A field's entry to a phase that is not timed clears its slots' silent marks (R42). -/
theorem State.announcePhase_untimed_slot (hp : (v.fields.at g).phase = p) (ht : p.timed = false) (n : Nat) (a : Bool)
    (i : SlotId) : (v.announcePhase g n a).slots.at i =
      { v.slots.at i with silent := if v.slotField i = some g then false else (v.slots.at i).silent } := by
  rw [State.announcePhase_clears hp ht, State.clearSilent_slot, State.announced_slotField]
  by_cases hf : v.slotField i = some g <;> simp [hf]

/-! ### The return to IDLE (R47, R67, R69) -/

/-- A field has returned to IDLE with a result record: its slots are released, its record is cleared but for the result, and the
change is announced with the number and the aborted mark that the match had. -/
structure Idled (g : FieldId) (result : Option ResultRecord) (s t : State) : Prop where
  frame : t = { s with
    slots := t.slots
    fields := s.fields.put g { MatchRecord.afterReset with result }
    beacons := { s.beacons with urgent := s.beacons.urgent.put g true }
    mgmt := (s.queueNotice (.phase g .idle (s.fields.at g).number (s.fields.at g).aborted)).mgmt }
  listed : ∀ i ∈ listedSlots (s.fields.at g).list, t.slots.at i =
    { s.slots.at i with placing := none, disabled := false, bypassed := false, silent := false }
  other : ∀ i, i ∉ listedSlots (s.fields.at g).list → t.slots.at i =
    { s.slots.at i with silent := if s.slotField i = some g then false else (s.slots.at i).silent }

theorem Idled.toIdle (s : State) (g : FieldId) : Idled g (s.fields.at g).result s (s.toIdle g) := by
  obtain ⟨⟨slots, he⟩, hs⟩ := State.foldl_releaseSlot (listedSlots (s.fields.at g).list) s
  rw [← State.releaseAll] at he hs
  obtain ⟨v, hv⟩ : ∃ v, v = (s.releaseAll g).updField g fun _ => { MatchRecord.afterReset with result := (s.fields.at g).result } :=
    ⟨_, rfl⟩
  have hto : s.toIdle g = v.announcePhase g (s.fields.at g).number (s.fields.at g).aborted := by rw [hv]; rfl
  have hphase : (v.fields.at g).phase = .idle := by rw [hv, State.updField_fields, Table.at_put_same]; rfl
  have hslot (i : SlotId) := State.announcePhase_untimed_slot hphase rfl (s.fields.at g).number (s.fields.at g).aborted i
  have hvs : v.slots = (s.releaseAll g).slots := by rw [hv]; rfl
  rw [← hto] at hslot
  refine ⟨?_, fun i hi => ?_, fun i hi => ?_⟩
  · have hframe := State.announcePhase_untimed hphase rfl (s.fields.at g).number (s.fields.at g).aborted
    rw [← hto, hv, he] at hframe
    exact hframe
  · rw [hslot, hvs, hs, if_pos hi]
    simp
  · rw [hslot, State.slotField, hvs, hs, if_neg hi]
    rfl

/-- A result record written before the return to IDLE is the one that is kept (R67). -/
theorem Idled.withResult (h : Idled g result (s.updField g fun m => { m with result }) t) : Idled g result s t := by
  have hat : (s.updField g fun m => { m with result }).fields.at g = { s.fields.at g with result } := Table.at_put_same _ _ _
  refine ⟨?_, fun i hi => h.listed i ?_, fun i hi => h.other i ?_⟩
  · have hframe := h.frame
    rw [hat, State.updField_fields, Table.put_put] at hframe
    exact hframe
  · rw [hat]; exact hi
  · rw [hat]; exact hi

/-! ### The two rules (R67, R69) -/

theorem runCommit_state (h : (s.fields.at g).phase ≠ .post) : runCommit s g = .error .state := if_neg h

theorem runResetMatch_state (h : ¬ ((s.fields.at g).phase = .post ∨ (s.fields.at g).phase = .pre)) :
    runResetMatch s g = .error .state := if_neg fun hp => h hp.symm

theorem runCommit_idles (h : (s.fields.at g).phase = .post) :
    ∃ t, runCommit s g = .ok (t, []) ∧ Idled g (some (s.resultOf g)) s t :=
  ⟨_, if_pos h, by
    have h := Idled.toIdle (s.updField g fun m => { m with result := some (s.resultOf g) }) g
    rw [State.updField_fields, Table.at_put_same] at h
    exact h.withResult⟩

theorem runResetMatch_idles (h : (s.fields.at g).phase = .post ∨ (s.fields.at g).phase = .pre) :
    ∃ t, runResetMatch s g = .ok (t, []) ∧ Idled g (s.fields.at g).result s t :=
  ⟨_, if_pos h.symm, .toIdle s g⟩

/-- A field returned to IDLE by a command, as the statements say it: what the release and the announcements change, and what is
left alone. -/
theorem Idled.replied (h : Idled g result (s.taken rest) t) (code : Byte) (fr : Frame) :
    let u := t.queueReply fr code (.done [])
    u.fields = s.fields.put g { MatchRecord.afterReset with result } ∧
    (∀ i, i ∈ listedSlots (s.fields.at g).list → u.slots.at i = { s.slots.at i with
      placing := none, disabled := false, bypassed := false, silent := false }) ∧
    (∀ i, i ∉ listedSlots (s.fields.at g).list → u.slots.at i = { s.slots.at i with
      silent := if s.slotField i = some g then false else (s.slots.at i).silent }) ∧
    (∀ h, u.beacons.urgent.at h = (decide (h = g) || s.beacons.urgent.at h)) ∧
    (s.mgmt.notices.length < 16 → u.mgmt.notices = s.mgmt.notices ++
      [{ dropped := s.mgmt.dropped, content := .phase g .idle (s.fields.at g).number (s.fields.at g).aborted }]) ∧
    u.link = (s.replied fr rest code (.done [])).link ∧ u.tallies = s.tallies ∧ u.elements = s.elements ∧
    u.bus = s.bus ∧ u.lines = s.lines ∧ u.stations = s.stations ∧ u.gate = s.gate ∧ u.timing = s.timing := by
  have hf {α : Type} (x : State → α) := congrArg x h.frame
  refine ⟨hf (·.fields), h.listed, h.other, fun k => ?_, fun hroom => ?_, ?_, hf (·.tallies), hf (·.elements), hf (·.bus),
    hf (·.lines), hf (·.stations), hf (·.gate), hf (·.timing)⟩
  · rw [← Table.at_put_true]
    exact hf (·.beacons.urgent.at k)
  · exact (hf (·.mgmt.notices)).trans (congrArg Mgmt.notices (State.queueNotice_room (s.taken rest) _ hroom))
  · rw [State.queueReply_link, hf (·.link)]
    rfl

end

/-- Settles O40: the test of each rule, and the return to IDLE with the result that COMMIT writes or RESET MATCH keeps. -/
theorem commitAndResetResult : Obligations.CommitAndResetResult := by
  intro p hp
  simp only [List.mem_cons, List.not_mem_nil, or_false] at hp
  rcases hp with rfl | rfl
  · refine ⟨fun s f rest b h hb => congrArg Host.Outcome.next (h.refused rfl _ (onField_range hb)),
      fun s f rest g h => ⟨fun hp => ?_, fun hp => ?_⟩⟩
    · exact congrArg Host.Outcome.next (h.fieldRefused (runCommit_state fun hpost => hp (.inl hpost)))
    · obtain ⟨t, hrun, hidle⟩ := runCommit_idles (s := s.taken rest) (hp.resolve_right fun hr => nomatch hr.1)
      exact ⟨_, congrArg Host.Outcome.next (h.fieldDone hrun), hidle.replied 0x45 f⟩
  · refine ⟨fun s f rest b h hb => congrArg Host.Outcome.next (h.refused rfl _ (onField_range hb)),
      fun s f rest g h => ⟨fun hp => ?_, fun hp => ?_⟩⟩
    · exact congrArg Host.Outcome.next (h.fieldRefused (runResetMatch_state fun hx => hp (hx.imp_right fun hpre => ⟨rfl, hpre⟩)))
    · obtain ⟨t, hrun, hidle⟩ := runResetMatch_idles (s := s.taken rest) (hp.imp_right And.right)
      exact ⟨_, congrArg Host.Outcome.next (h.fieldDone hrun), hidle.replied 0x46 f⟩

end Sys2Proof.Machine
end

section
/-! SUPPORT. LOAD MATCH: its tests (R56), and the placing, the cleared scores and the stop of a match that passes them (R47, R57,
R58, R109, R139). -/

namespace Sys2Proof.Machine

open Sys2Proof

section
variable {s t v w : State} {g : FieldId} {i : SlotId} {e : ElementId} {m : MatchRecord} {fs : List FieldId} {r : Reason}
  {cause : Option StopCause} {list : Table 6 (Option SlotId)}

/-! ### The tests (R56) -/

theorem placeOf_none {b : Byte} (h : 32 ≤ b.toNat ∧ b.toNat ≠ 255) : placeOf b = none := by
  simp [placeOf, slotOf, h.2, Nat.not_lt.2 h.1]

theorem placesOf_none {places : List Byte} (h : ∃ b ∈ places, 32 ≤ b.toNat ∧ b.toNat ≠ 255) : placesOf places = none := by
  obtain ⟨b, hb, hr⟩ := h
  unfold placesOf
  split
  · split
    · simp only [List.mem_cons, List.not_mem_nil, or_false] at hb
      rcases hb with rfl | rfl | rfl | rfl | rfl | rfl <;> simp_all [placeOf_none hr]
    · rfl
  · rfl

theorem State.matchRefusal_state (h : (s.fields.at g).phase ≠ .idle) : s.matchRefusal g list = some .state := if_pos h

theorem State.matchRefusal_noEntry (h : (s.fields.at g).phase = .idle)
    (ht : ∃ i ∈ listedSlots list, (s.slots.at i).team = 0) : s.matchRefusal g list = some .noEntry := by
  rw [State.matchRefusal, if_neg (not_not.2 h), if_pos (by simpa using ht)]

theorem State.matchRefusal_slotBusy (h : (s.fields.at g).phase = .idle)
    (ht : ∀ i ∈ listedSlots list, (s.slots.at i).team ≠ 0) (hp : ∃ i ∈ listedSlots list, (s.slots.at i).placing ≠ none) :
    s.matchRefusal g list = some .slotBusy := by
  rw [State.matchRefusal, if_neg (not_not.2 h), if_neg (by simpa using ht),
    if_pos (by simpa [Option.isSome_iff_ne_none] using hp)]

theorem State.matchRefusal_listed (h : (s.fields.at g).phase = .idle)
    (hl : ∀ i ∈ listedSlots list, (s.slots.at i).team ≠ 0 ∧ (s.slots.at i).placing = none) :
    s.matchRefusal g list = if (listedSlots list).Nodup then none else some .duplicate := by
  rw [State.matchRefusal, if_neg (not_not.2 h), if_neg (by simpa using fun i hi => (hl i hi).1),
    if_neg (by simpa using fun i hi => (hl i hi).2)]

section
variable {fb n1 n2 a1 a2 p1 p2 t1 t2 e1 e2 : Byte} {places : List Byte}

theorem runLoadMatch_uncommissioned (h : s.mgmt.mode = .uncommissioned) :
    runLoadMatch s ([fb, n1, n2, a1, a2, p1, p2, t1, t2, e1, e2] ++ places) = .error .notCommissioned := by
  simp [runLoadMatch, h]

theorem runLoadMatch_range (h : s.mgmt.mode = .commissioned)
    (hr : 4 ≤ fb.toNat ∨ nat16 n1 n2 = 0 ∨ 999 < nat16 n1 n2 ∨ 3000 < nat16 a1 a2 ∨ 1000 < nat16 p1 p2 ∨ nat16 t1 t2 = 0 ∨
      3000 < nat16 t1 t2 ∨ nat16 t1 t2 < nat16 e1 e2 ∨ ∃ b ∈ places, 32 ≤ b.toNat ∧ b.toNat ≠ 255) :
    runLoadMatch s ([fb, n1, n2, a1, a2, p1, p2, t1, t2, e1, e2] ++ places) = .error .range := by
  simp only [runLoadMatch, List.cons_append, List.nil_append, h, ne_eq, not_true_eq_false, if_false]
  split
  · next f l hf hl =>
    rw [if_pos]
    rcases hr with hr | hr | hr | hr | hr | hr | hr | hr | hr
    · rw [fieldOf_range hr] at hf
      exact nomatch hf
    · exact .inl hr
    · exact .inr (.inl hr)
    · exact .inr (.inr (.inl hr))
    · exact .inr (.inr (.inr (.inl hr)))
    · exact .inr (.inr (.inr (.inr (.inl hr))))
    · exact .inr (.inr (.inr (.inr (.inr (.inl hr)))))
    · exact .inr (.inr (.inr (.inr (.inr (.inr hr)))))
    · rw [placesOf_none hr] at hl
      exact nomatch hl
  · rfl

/-- The first three tests passed, the others decide (R56). -/
theorem runLoadMatch_tested (h : s.mgmt.mode = .commissioned) (hf : fb = fieldByte g) (hl : placesOf places = some list)
    (hn : 1 ≤ nat16 n1 n2) (hn' : nat16 n1 n2 ≤ 999) (ha : nat16 a1 a2 ≤ 3000) (hp : nat16 p1 p2 ≤ 1000)
    (ht : 1 ≤ nat16 t1 t2) (ht' : nat16 t1 t2 ≤ 3000) (he : nat16 e1 e2 ≤ nat16 t1 t2) :
    runLoadMatch s ([fb, n1, n2, a1, a2, p1, p2, t1, t2, e1, e2] ++ places) =
      match s.matchRefusal g list with
      | some r => .error r
      | none => .ok ((s.loadMatch g ((s.fields.at g).load (nat16 n1 n2) (nat16 a1 a2) (nat16 p1 p2) (nat16 t1 t2) (nat16 e1 e2)
          list)).settle, []) := by
  subst hf
  simp only [runLoadMatch, List.cons_append, List.nil_append, h, ne_eq, not_true_eq_false, if_false, fieldOf_fieldByte, hl]
  exact if_neg (by omega)

end

/-! ### The match in its field (R47, R57) -/

theorem State.clearScores_rules (s : State) (g : FieldId) (e : ElementId) :
    ((s.clearScores g).elements.at e).rules = (s.elements.at e).rules := by
  rw [State.clearScores, Table.at_map]
  split
  · split <;> rfl
  · rfl

theorem State.clearScores_eventCount (s : State) (g : FieldId) (e : ElementId) :
    ((s.clearScores g).elements.at e).eventCount =
      if (s.loadedAt e).map (·.entry.field) = some g then 0 else (s.elements.at e).eventCount := by
  rw [State.clearScores, Table.at_map, State.loadedAt]
  split
  · next l hl => by_cases hg : l.entry.field = g <;> simp [hl, hg]
  · next hl => simp [hl]

/-- The stop with which LOAD MATCH finds a field stopped, if there is a cause (R58). -/
def State.stopFor (s : State) (g : FieldId) : Option StopCause → State
  | some c => s.stopField g c
  | none => s

theorem State.loadMatch_eq (s : State) (g : FieldId) (m : MatchRecord) :
    s.loadMatch g m =
      let v := (((s.updField g fun _ => m).placeAll g m.list).clearScores g).announcePhase g m.number m.aborted
      v.stopFor g (heldCause v.lines g) := by
  unfold State.loadMatch
  dsimp only
  cases heldCause _ g <;> rfl

/-- The match `m` has been written to its field, its slots are placed, the scores are cleared and the entry to PRE is announced;
the stop of an active line is to follow (R47, R57). -/
structure MatchWritten (g : FieldId) (m : MatchRecord) (s v : State) : Prop where
  frame : v = { s with
    slots := v.slots
    fields := s.fields.put g m
    tallies := s.tallies.put g .zero
    elements := (s.clearScores g).elements
    beacons := { s.beacons with urgent := s.beacons.urgent.put g true }
    mgmt := (s.queueNotice (.phase g .pre m.number m.aborted)).mgmt }
  listed : ∀ k i, m.list.at k = some i → v.slots.at i = { (s.slots.at i).placed g k with silent := false }
  other : ∀ i, i ∉ listedSlots m.list → v.slots.at i =
    { s.slots.at i with silent := if s.slotField i = some g then false else (s.slots.at i).silent }

/-- What LOAD MATCH writes before it looks at the stop lines (R57). -/
theorem State.loadMatch_written (s : State) (hm : m.phase = .pre) (hn : (listedSlots m.list).Nodup) :
    ∃ v, MatchWritten g m s v ∧
      s.loadMatch g m = v.stopFor g (heldCause s.lines g) := by
  obtain ⟨⟨slots, he⟩, hout, hin⟩ := (s.updField g fun _ => m).placeAll_spec g hn
  obtain ⟨p, hp⟩ : ∃ p, p = ((s.updField g fun _ => m).placeAll g m.list).clearScores g := ⟨_, rfl⟩
  have hps : p.slots = ((s.updField g fun _ => m).placeAll g m.list).slots := by rw [hp]; rfl
  have hphase : (p.fields.at g).phase = .pre := by
    rw [hp, State.clearScores_fields, he]
    exact (congrArg MatchRecord.phase (Table.at_put_same _ _ _)).trans hm
  have hslot := State.announcePhase_untimed_slot hphase rfl m.number m.aborted
  have hframe := State.announcePhase_untimed hphase rfl m.number m.aborted
  refine ⟨p.announcePhase g m.number m.aborted, ⟨?_, fun k i hk => ?_, fun i hi => ?_⟩, ?_⟩
  · rw [hp, he] at hframe ⊢
    exact hframe
  · rw [hslot, State.slotField, hps, hin i k hk]
    simp [Slot.placed]
  · rw [hslot, State.slotField, hps, hout i hi]
    rfl
  · have hlines : (p.announcePhase g m.number m.aborted).lines = s.lines := by rw [hframe, hp, he]; rfl
    rw [State.loadMatch_eq, ← hp]
    dsimp only
    rw [hlines]

theorem MatchWritten.field (h : MatchWritten g m s v) : v.fields.at g = m := by
  rw [h.frame]
  exact Table.at_put_same _ _ _

theorem MatchWritten.loadedAt (h : MatchWritten g m s v) (e : ElementId) : v.loadedAt e = s.loadedAt e := by
  rw [h.frame]
  exact s.clearScores_loadedAt g e

/-- A slot of the field before is one after. -/
theorem MatchWritten.slotField (h : MatchWritten g m s v) (hi : s.slotField i = some g) : v.slotField i = some g := by
  by_cases hl : i ∈ listedSlots m.list
  · obtain ⟨k, hk⟩ := mem_listedSlots.1 hl
    rw [State.slotField, h.listed k i hk]
    rfl
  · rw [State.slotField, h.other i hl]
    exact hi

/-! ### The stop of an active line (R58, R61) -/

/-- A field whose slots' gates are all OFF has no gate to shut (R27). -/
theorem State.gatesClosed_off (h : ∀ i, v.slotField i = some g → v.gateOpen i = false) :
    (v.updField g fun _ => m).gatesClosed v = [] := by
  refine List.filter_eq_nil_iff.2 fun i _ hi => ?_
  obtain ⟨ho, hc⟩ := Bool.and_eq_true_iff.1 hi
  by_cases hf : v.slotField i = some g
  · exact nomatch (h i hf).symm.trans ho
  · rw [State.gateOpen_other hf, ho] at hc
    exact nomatch hc

/-- The field, urgent already, is stopped by the cause found, if any, no gate of its slots being open (R58, R61). -/
structure HeldBy (g : FieldId) (cause : Option StopCause) (v w : State) : Prop where
  frame : w = { v with fields := w.fields, elements := w.elements, bus := w.bus, mgmt := w.mgmt }
  field : w.fields = v.fields.put g { v.fields.at g with stopped := cause }
  rules : ∀ e, (w.elements.at e).rules = (v.elements.at e).rules
  eventCount : ∀ e, (w.elements.at e).eventCount = (v.elements.at e).eventCount
  notices : v.mgmt.notices.length < 16 → w.mgmt.notices = v.mgmt.notices ++
    cause.toList.map fun c => { dropped := v.mgmt.dropped, content := .stop g c }
  shut : ShutLaw .stopped (if cause = none then [] else [g]) v w

theorem Table.put_at {n : Nat} {α : Type} (t : Table n α) (i : Fin n) : t.put i (t.at i) = t := by
  refine Table.ext fun k => ?_
  rw [Table.at_put]
  split
  · next hk => rw [hk]
  · rfl

theorem HeldBy.stopFor (hp : (v.fields.at g).phase.stoppable = true) (hs : (v.fields.at g).stopped = none)
    (hu : v.beacons.urgent.at g = true) (hoff : ∀ i, v.slotField i = some g → v.gateOpen i = false)
    (cause : Option StopCause) : HeldBy g cause v (v.stopFor g cause) := by
  cases cause with
  | none =>
    refine ⟨rfl, ?_, fun _ => rfl, fun _ => rfl, fun _ => (List.append_nil _).symm, .refl v⟩
    have hsame : { v.fields.at g with stopped := none } = v.fields.at g := by rw [← hs]
    rw [hsame]
    exact (Table.put_at _ _).symm
  | some c =>
    have hgates : (v.updField g fun m => { m with stopped := some c }).gateOffEvents v .stopped =
        v.updField g fun m => { m with stopped := some c } := by
      rw [State.gateOffEvents]
      exact congrArg (List.foldl _ _) (State.gatesClosed_off (m := { v.fields.at g with stopped := some c }) hoff)
    have hkeep := FieldKeeps.enterStopped g v c
    have heq : v.enterStopped g c =
        (((v.updField g fun m => { m with stopped := some c }).safeField g).setUrgent g).queueNotice (.stop g c) := by
      rw [State.enterStopped, hgates]
    rw [State.stopFor, State.stopField_running hp hs]
    refine ⟨?_, State.enterStopped_fields v g c, hkeep.rules, hkeep.eventCount,
      fun hroom => (v.enterStopped_mgmt g c hroom).1, .enterStopped v g c⟩
    have hbeacons : (v.enterStopped g c).beacons = v.beacons := by
      rw [State.enterStopped_beacons, ← hu, Table.put_at]
    have hsafe := (State.safeField_spec (v.updField g fun m => { m with stopped := some c }) g).1
    rw [← hbeacons, heq]
    generalize (v.updField g fun m => { m with stopped := some c }).safeField g = y at hsafe
    rw [hsafe]
    rfl

/-- Where no gate of the fields is open, neither before nor after a change, their shutting after it is their shutting. -/
theorem FieldsShut.of_unshut (h : FieldsShut r fs v t) (hl : ∀ e, v.loadedAt e = s.loadedAt e)
    (hv : v.link.verdicts = s.link.verdicts) (hq : v.bus.safeQueue = s.bus.safeQueue)
    (hf : ∀ g ∈ fs, ∀ i, s.slotField i = some g → v.slotField i = some g)
    (hs : ∀ i, ¬ s.ShutWith fs i) (hvs : ∀ i, ¬ v.ShutWith fs i) : FieldsShut r fs s t := by
  have hfree (i : SlotId) : ¬ (s.ShutWith fs i ∨ i ∈ ([] : List SlotId)) := by
    rintro (hi | hi)
    · exact hs i hi
    · exact nomatch hi
  refine ⟨fun g hg i hi => h.gates g hg i (hf g hg i hi),
    ⟨fun _ _ l _ i _ _ hi => absurd hi (hfree i), fun e l he _ => h.claims.kept e l ((hl e).trans he) ?_,
      fun _ _ _ l x _ _ => ⟨fun hi => absurd hi (hs x.slot), fun _ hi => nomatch hi⟩, fun x hx => ?_⟩,
    fun _ _ _ _ c _ _ hi => absurd hi.1 (hs c.slot), ?_, fun e l he => ?_, fun e l a he => ?_⟩
  · rintro i (hi | hi)
    · exact absurd hi (hvs i)
    · exact nomatch hi
  · rw [← hv]
    exact h.claims.verdicts x hx
  · rw [h.safeQueue, hq]
    simp only [hl]
  · rw [← hq]
    exact h.retries e l ((hl e).trans he)
  · exact h.acts e l a ((hl e).trans he)

/-! ### The match that passes the tests -/

theorem MatchWritten.off (h : MatchWritten g m s v) (hm : m.phase = .pre) (hi : v.slotField i = some g) : v.gateOpen i = false :=
  State.gateOpen_phase hi (by rw [h.field, hm]; simp)

theorem MatchWritten.held (h : MatchWritten g m s v) (hm : m.phase = .pre) (hs : m.stopped = none) (cause : Option StopCause) :
    HeldBy g cause v (v.stopFor g cause) :=
  .stopFor (by rw [h.field, hm]; rfl) (by rw [h.field, hs]) (by rw [h.frame]; exact Table.at_put_same _ _ _)
    (fun _ => h.off hm) cause

/-- The stop of an active line, as the shutting of the field from the state before LOAD MATCH: the field was IDLE (R58, R61). -/
theorem MatchWritten.fieldsShut (h : MatchWritten g m s v) (hm : m.phase = .pre) (hi : (s.fields.at g).phase = .idle)
    (k : HeldBy g cause v w) (c : ShutSame w.settle t) : FieldsShut .stopped (if cause = none then [] else [g]) s t := by
  have hmem {k : FieldId} (hk : k ∈ if cause = none then [] else [g]) : k = g := by
    split at hk
    · exact nomatch hk
    · exact List.mem_singleton.1 hk
  refine (k.shut.fieldsShut c).of_unshut h.loadedAt ?_ ?_ (fun k hk i hf => ?_) (fun i hx => ?_) (fun i hx => ?_)
  · rw [h.frame]
  · rw [h.frame]
  · obtain rfl := hmem hk
    exact h.slotField hf
  · obtain ⟨k, hk, hf, ho⟩ := hx
    obtain rfl := hmem hk
    rw [State.gateOpen_phase hf (by rw [hi]; simp)] at ho
    exact nomatch ho
  · obtain ⟨k, hk, hf, ho⟩ := hx
    obtain rfl := hmem hk
    rw [h.off hm hf] at ho
    exact nomatch ho

theorem HeldBy.fields_after (k : HeldBy g cause v w) (h : MatchWritten g m s v) :
    w.fields = s.fields.put g { m with stopped := cause } := by
  have hv : v.fields = s.fields.put g m := by rw [h.frame]
  rw [k.field, h.field, hv, Table.put_put]

theorem HeldBy.notices_after (k : HeldBy g cause v w) (h : MatchWritten g m s v) (hroom : s.mgmt.notices.length < 15) :
    w.mgmt.notices = s.mgmt.notices ++ [{ dropped := s.mgmt.dropped, content := .phase g .pre m.number m.aborted }] ++
      cause.toList.map fun c => { dropped := 0, content := .stop g c } := by
  have hv : v.mgmt = { s.mgmt with
      notices := s.mgmt.notices ++ [{ dropped := s.mgmt.dropped, content := .phase g .pre m.number m.aborted }], dropped := 0 } := by
    have hq := State.queueNotice_room s (.phase g .pre m.number m.aborted) (by simp [Config.noticeCapacity]; omega)
    rw [h.frame]
    exact hq
  rw [k.notices (by rw [hv]; simp; omega), hv]

/-- The shutting of fields does not look at the receive store. -/
theorem FieldsShut.of_taken {rest : List Frame} (h : FieldsShut r fs (s.taken rest) t) : FieldsShut r fs s t :=
  ⟨h.gates, ⟨h.claims.taken, h.claims.kept, h.claims.released, h.claims.verdicts⟩, h.withdrawn, h.safeQueue, h.retries, h.acts⟩

/-- A match loaded by a command, as the statement says it. -/
theorem HeldBy.loaded {rest : List Frame} (k : HeldBy g cause v w) (h : MatchWritten g m (s.taken rest) v)
    (hi : (s.fields.at g).phase = .idle) (hm : m.phase = .pre) (ha : m.aborted = false) (fr : Frame) (code : Byte) :
    let t := w.settle.queueReply fr code (.done [])
    t.fields = s.fields.put g { m with stopped := cause } ∧
    (∀ (k : Fin 6) (i : SlotId), m.list.at k = some i → t.slots.at i = { (s.slots.at i).placed g k with silent := false }) ∧
    (∀ i, i ∉ listedSlots m.list → t.slots.at i =
      { s.slots.at i with silent := if s.slotField i = some g then false else (s.slots.at i).silent }) ∧
    (∀ h, h ≠ g → t.tallies.at h = s.tallies.at h) ∧
    t.tallies.at g = .zero ∧
    (∀ e, (t.elements.at e).rules = (s.elements.at e).rules ∧ (t.elements.at e).eventCount =
      if (s.loadedAt e).map (·.entry.field) = some g then 0 else (s.elements.at e).eventCount) ∧
    FieldsShut .stopped (if cause = none then [] else [g]) s t ∧
    (∀ h, t.beacons.urgent.at h = (decide (h = g) || s.beacons.urgent.at h)) ∧
    (s.mgmt.notices.length < 15 → t.mgmt.notices = s.mgmt.notices ++
      [{ dropped := s.mgmt.dropped, content := .phase g .pre m.number false }] ++
      cause.toList.map fun c => { dropped := 0, content := .stop g c }) ∧
    t.link = (s.replied fr rest code (.done [])).link ∧ t.lines = s.lines ∧ t.stations = s.stations ∧
    t.gate = s.gate ∧ t.timing = s.timing := by
  intro t
  have hw {α : Type} (x : State → α) : x w = x _ := congrArg x k.frame
  have hfields := k.fields_after h
  have hslots : t.slots = v.slots := (State.settle_slots w).trans (hw (·.slots))
  have htallies : t.tallies = s.tallies.put g .zero := by
    rw [State.queueReply_tallies, State.settle_tallies, hw (·.tallies), h.frame]
    rfl
  have hurgent : t.beacons.urgent = s.beacons.urgent.put g true := by
    rw [State.queueReply_beacons, State.settle_beacons, hw (·.beacons), h.frame]
    rfl
  have hkeep := BusKeeps.settle w
  refine ⟨(State.settle_fields w).trans hfields, fun n i hi => ?_, fun i hi => ?_, fun n hn => ?_, ?_,
    fun e => ⟨?_, ?_⟩, (h.fieldsShut hm hi k (.queueReply _ fr code _)).of_taken, fun n => ?_, fun hroom => ?_, ?_, ?_, ?_, ?_, ?_⟩
  · rw [hslots, h.listed n i hi]
    rfl
  · rw [hslots, h.other i hi]
    rfl
  · rw [htallies, Table.at_put_other _ _ hn]
  · rw [htallies, Table.at_put_same]
  · rw [State.queueReply_elements, hkeep.rules, k.rules, h.frame]
    exact s.clearScores_rules g e
  · rw [State.queueReply_elements, hkeep.eventCount, k.eventCount, h.frame]
    exact s.clearScores_eventCount g e
  · rw [hurgent, Table.at_put_true]
  · rw [State.queueReply_mgmt, State.settle_mgmt, k.notices_after h hroom, ha]
    rfl
  · rw [State.queueReply_link, State.settle_link, hw (·.link), h.frame]
    rfl
  · rw [State.queueReply_lines, State.settle_lines, hw (·.lines), h.frame]
    rfl
  · rw [State.queueReply_stations, State.settle_stations, hw (·.stations), h.frame]
    rfl
  · rw [State.queueReply_gate, State.settle_gate, hw (·.gate), h.frame]
    rfl
  · rw [State.queueReply_timing, State.settle_timing, hw (·.timing), h.frame]
    rfl

end

/-- Settles O37: the tests in their order, the record, slots and scores of the match, and the stop of an active line, which finds
no gate open. -/
theorem loadMatchResult : Obligations.LoadMatchResult := by
  intro s f rest fb n1 n2 a1 a2 p1 p2 t1 t2 e1 e2 places h hlen
  have hsize : 18 = ([fb, n1, n2, a1, a2, p1, p2, t1, t2, e1, e2] ++ places).length + 1 := by simp [hlen]
  have refuse {r : ReplyReason} (hr : runLoadMatch (s.taken rest) ([fb, n1, n2, a1, a2, p1, p2, t1, t2, e1, e2] ++ places) =
      .error r) : exec .loadMatch s = .next (s.replied f rest 0x40 (.refused r)) :=
    congrArg Host.Outcome.next (h.refused hsize runLoadMatch hr)
  refine ⟨fun hm => refuse (runLoadMatch_uncommissioned hm), fun hm hr => refuse (runLoadMatch_range hm hr),
    fun g list hm hf hl hn hn' ha hp ht ht' he => ?_⟩
  have hrun := runLoadMatch_tested (s := s.taken rest) hm hf hl hn hn' ha hp ht ht' he
  refine ⟨fun hi => ?_, fun hi hteam => ?_, fun hi hteam hbusy => ?_, fun hi hfree hdup => ?_, fun hi hfree hnodup => ?_⟩
  · rw [State.matchRefusal_state (s := s.taken rest) hi] at hrun
    exact refuse hrun
  · rw [State.matchRefusal_noEntry (s := s.taken rest) hi hteam] at hrun
    exact refuse hrun
  · rw [State.matchRefusal_slotBusy (s := s.taken rest) hi hteam hbusy] at hrun
    exact refuse hrun
  · rw [State.matchRefusal_listed (s := s.taken rest) hi hfree, if_neg hdup] at hrun
    exact refuse hrun
  · rw [State.matchRefusal_listed (s := s.taken rest) hi hfree, if_pos hnodup] at hrun
    obtain ⟨v, hv, hload⟩ := (s.taken rest).loadMatch_written (g := g) (m := ((s.taken rest).fields.at g).load (nat16 n1 n2)
      (nat16 a1 a2) (nat16 p1 p2) (nat16 t1 t2) (nat16 e1 e2) list) rfl hnodup
    have hw := hv.held rfl rfl (heldCause s.lines g)
    rw [hload] at hrun
    obtain ⟨hfields, hlisted, hother, htallies, htally, helements, hshut, hurgent, hnotices, hlink, hlines, hstations, hgate,
      htiming⟩ := hw.loaded hv hi rfl rfl f 0x40
    have hzero {α : Type} (x : FieldTally → α) := congrArg x htally
    refine ⟨_, congrArg Host.Outcome.next (h.done hsize runLoadMatch hrun), hfields, hlisted, hother, htallies,
      hzero (·.east.toNat), hzero (·.west.toNat), hzero (·.eastCap), hzero (·.westCap), hzero (·.eastCount),
      hzero (·.westCount), helements, hshut, hurgent, fun hroom => ?_, hlink, hlines, hstations, hgate, htiming⟩
    refine (hnotices hroom).trans ?_
    cases heldCause s.lines g <;> rfl

end Sys2Proof.Machine
end

section
/-! SUPPORT. Changes of referee lines: the records they leave but for their edge flags, the activations of lines with the stops
they bring, and the resume combinations (R60 to R64, R72 to R82). -/

namespace Sys2Proof.Machine

open Sys2Proof

/-! ### Line records without their edge flags (R72, R82) -/

/-- Two line records agree but for their edge flags, which the activations and combinations of a change of lines write. -/
structure LineRecord.Agrees (x y : LineRecord) : Prop where
  role : x.role = y.role
  activeLevel : x.activeLevel = y.activeLevel
  filterOn : x.filterOn = y.filterOn
  filtered : x.filtered = y.filtered
  previous : x.previous = y.previous

theorem LineRecord.Agrees.refl (x : LineRecord) : x.Agrees x := ⟨rfl, rfl, rfl, rfl, rfl⟩

theorem LineRecord.Agrees.trans {x y z : LineRecord} (h : x.Agrees y) (k : y.Agrees z) : x.Agrees z :=
  ⟨h.role.trans k.role, h.activeLevel.trans k.activeLevel, h.filterOn.trans k.filterOn, h.filtered.trans k.filtered,
    h.previous.trans k.previous⟩

section
variable {s t u : State} {g : FieldId} {n k : LineId} {a b : Table 16 LineRecord}

theorem combinationHolds_iff : combinationHolds a g = true ↔ Combined a g := by
  simp only [combinationHolds, Combined, fieldLines, Bool.and_eq_true, Bool.not_eq_true', List.isEmpty_eq_false_iff_exists_mem,
    List.all_eq_true, List.mem_filter, mem_allOf, true_and, beq_iff_eq, LineRecord.active, and_imp]

theorem Combined.congr (h : ∀ n, (a.at n).Agrees (b.at n)) : Combined a g ↔ Combined b g := by
  simp only [Combined, fun n => (h n).role, fun n => (h n).filtered, fun n => (h n).activeLevel]

/-- A change of lines that has taken its new records: what `LineKeeps` leaves, the pins, the sample countdown, and the records
but for their edge flags. -/
structure LinesKept (s t : State) : Prop extends LineKeeps s t where
  pins : t.pins = s.pins
  sampleLeft : t.sampleLeft = s.sampleLeft
  records : ∀ n, (t.lines.at n).Agrees (s.lines.at n)

theorem LinesKept.refl (s : State) : LinesKept s s := 
  { LineKeeps.refl s with pins := rfl, sampleLeft := rfl, records := fun _ => .refl _ }

theorem LinesKept.trans (h : LinesKept s t) (k : LinesKept t u) : LinesKept s u :=
  { h.toLineKeeps.trans k.toLineKeeps with
    pins := k.pins.trans h.pins
    sampleLeft := k.sampleLeft.trans h.sampleLeft
    records := fun n => (k.records n).trans (h.records n) }

theorem LinesKept.foldl {α : Type} {step : State → α → State} (h : ∀ s a, LinesKept s (step s a)) (l : List α) :
    ∀ s, LinesKept s (l.foldl step s) := by
  induction l with
  | nil => exact fun s => .refl s
  | cons a l ih => exact fun s => (h s a).trans (ih (step s a))

theorem LinesKept.flags {lines : Table 16 LineRecord} (h : ∀ n, (lines.at n).Agrees (s.lines.at n)) :
    LinesKept s { s with lines } :=
  { LineKeeps.ofLines lines s.pins s.sampleLeft s.choices with pins := rfl, sampleLeft := rfl, records := h }

theorem LinesKept.stopField (s : State) (g : FieldId) (c : StopCause) : LinesKept s (s.stopField g c) :=
  have h := FieldKeeps.stopField g s c
  { LineKeeps.stopField s g c with pins := h.pins, sampleLeft := h.sampleLeft, records := fun n => by rw [h.lines]; exact .refl _ }

theorem LinesKept.resumeField (s : State) (g : FieldId) (src : ResumeSource) : LinesKept s (s.resumeField g src) :=
  { LineKeeps.resumeField s g src with pins := rfl, sampleLeft := rfl, records := fun _ => .refl _ }

theorem LinesKept.settle (s : State) : LinesKept s s.settle :=
  { LineKeeps.settle s with
    pins := State.settle_pins s, sampleLeft := State.settle_sampleLeft s, records := fun n => by rw [State.settle_lines]; exact .refl _ }

/-! ### An activation (R60, R72, R77, R80) -/

/-- A line's role makes its activation a stop. -/
def LineRole.stops : LineRole → Bool
  | .stop | .hallStop => true
  | .unused | .resumeKey => false

theorem LineRole.stops_iff {r : LineRole} : r.stops = true ↔ r = .stop ∨ r = .hallStop := by cases r <;> simp [LineRole.stops]

/-- The fields that the activation of a line stops, in their order. -/
def LineRole.stopped (r : LineRole) (n : LineId) : List FieldId :=
  match r with
  | .stop => [lineField n]
  | .hallStop => allOf 4
  | .unused | .resumeKey => []

/-- The cause of the stops of a line. -/
def LineRole.cause (r : LineRole) (n : LineId) : StopCause := if r = .stop then .line n else .hall n

theorem LineRole.mem_stopped {r : LineRole} : g ∈ r.stopped n ↔ r = .stop ∧ lineField n = g ∨ r = .hallStop := by
  cases r <;> simp [LineRole.stopped, mem_allOf, eq_comm]

theorem LineRole.stopped_nodup (r : LineRole) (n : LineId) : (r.stopped n).Nodup := by
  cases r
  case hallStop => exact List.nodup_finRange 4
  all_goals simp [LineRole.stopped]

/-- The line records with the edge flag of a line set, if it has one. -/
def flagLine (lines : Table 16 LineRecord) (n : LineId) : Table 16 LineRecord :=
  lines.put n { lines.at n with edge := (lines.at n).edge || (lines.at n).role.stops }

theorem flagLine_at (lines : Table 16 LineRecord) (n k : LineId) : (flagLine lines n).at k =
    { lines.at k with edge := (lines.at k).edge || (decide (k = n) && (lines.at k).role.stops) } := by
  rw [flagLine, Table.at_put]
  by_cases hk : k = n
  · subst hk
    simp
  · simp [hk]

/-- An activation sets the line's edge flag and hands its stop to each of its fields in turn. -/
theorem State.activate_eq (s : State) (n : LineId) : s.activate n =
    ((s.lines.at n).role.stopped n).foldl (fun t g => t.stopField g ((s.lines.at n).role.cause n))
      { s with lines := flagLine s.lines n } := by
  have hsame (h : (s.lines.at n).role.stops = false) : flagLine s.lines n = s.lines := by
    rw [flagLine, h, Bool.or_false]
    exact Table.put_at _ _
  unfold State.activate
  split
  · next h => simp [h, LineRole.stopped, LineRole.cause, flagLine, LineRole.stops]
  · next h => simp [h, LineRole.stopped, LineRole.cause, flagLine, LineRole.stops, State.hallStop]
  · next h => rw [hsame (by rw [h]; rfl), h]; rfl
  · next h => rw [hsame (by rw [h]; rfl), h]; rfl

theorem LinesKept.activate (s : State) (n : LineId) : LinesKept s (s.activate n) := by
  rw [State.activate_eq]
  refine (LinesKept.flags fun k => ?_).trans (.foldl (fun s g => .stopField s g _) _ _)
  rw [flagLine_at]
  exact ⟨rfl, rfl, rfl, rfl, rfl⟩

theorem State.activate_lines (s : State) (n : LineId) : (s.activate n).lines = flagLine s.lines n := by
  have hfold (l : List FieldId) (c : StopCause) : ∀ t : State, (l.foldl (fun t g => t.stopField g c) t).lines = t.lines := by
    induction l with
    | nil => exact fun _ => rfl
    | cons g l ih => exact fun t => (ih _).trans (FieldKeeps.stopField g t c).lines
  rw [State.activate_eq, hfold]

/-- A stop would apply to the field: it is RUNNING in a stoppable phase (R60, R62). -/
def State.stops (s : State) (g : FieldId) : Bool := (s.fields.at g).phase.stoppable && (s.fields.at g).stopped.isNone

theorem State.stops_iff : s.stops g = true ↔ (s.fields.at g).phase.stoppable = true ∧ (s.fields.at g).stopped = none := by
  simp [State.stops]

/-- Fields have entered STOPPED one after another, and what their notices leave of the dropped count (R60, R61, R190). -/
structure StopsRun (entered : List (FieldId × StopCause)) (s t : State) : Prop extends StopsLaw entered s t where
  dropped : s.mgmt.notices.length + entered.length ≤ 16 → t.mgmt.dropped = if entered = [] then s.mgmt.dropped else 0

theorem StopsRun.foldl (entered : List (FieldId × StopCause)) (hn : (entered.map (·.1)).Nodup) (s : State) :
    StopsRun entered s (entered.foldl (fun s x => s.enterStopped x.1 x.2) s) := by
  have hdrop (l : List (FieldId × StopCause)) : ∀ t : State, t.mgmt.notices.length + l.length ≤ 16 →
      (l.foldl (fun s x => s.enterStopped x.1 x.2) t).mgmt.dropped = if l = [] then t.mgmt.dropped else 0 := by
    induction l with
    | nil => exact fun _ _ => rfl
    | cons x l ih =>
      intro t ht
      rw [List.length_cons] at ht
      obtain ⟨h1, h2⟩ := t.enterStopped_mgmt x.1 x.2 (by omega)
      rw [List.foldl_cons, ih _ (by rw [h1]; simp; omega), h2]
      simp
  exact { StopsLaw.foldl entered hn s with dropped := hdrop entered s }

theorem ShutSame.lines (s : State) (lines : Table 16 LineRecord) (pins : Table 16 Level) (sampleLeft : Option Nat) :
    ShutSame s { s with lines, pins, sampleLeft } := ⟨fun _ => rfl, rfl, fun _ => rfl, rfl, rfl⟩

/-- A change of lines, pins and countdowns before the stops is no part of what they do. -/
theorem StopsRun.before {entered : List (FieldId × StopCause)} {lines : Table 16 LineRecord} {pins : Table 16 Level}
    {sampleLeft : Option Nat} (h : StopsRun entered { s with lines, pins, sampleLeft } t) : StopsRun entered s t where
  shut := h.shut.before (.lines s lines pins sampleLeft)
  fields := h.fields
  others := h.others
  notices := h.notices
  dropped := h.dropped

/-- The activation of one line (R60, R61, R72, R77). -/
theorem StopsRun.activate (s : State) (n : LineId) :
    StopsRun ((((s.lines.at n).role.stopped n).filter s.stops).map fun g => (g, (s.lines.at n).role.cause n)) s (s.activate n) := by
  generalize hr : (s.lines.at n).role = r
  have hfst (l : List FieldId) : (l.map fun g => (g, r.cause n)).map (·.1) = l := by rw [List.map_map]; exact List.map_id _
  have hfold := State.foldl_stopField ((r.stopped n).map fun g => (g, r.cause n)) (by rw [hfst]; exact r.stopped_nodup n)
    { s with lines := flagLine s.lines n }
  rw [List.filter_map, List.foldl_map] at hfold
  rw [State.activate_eq, hr, hfold]
  refine StopsRun.before (.foldl _ ?_ _)
  rw [hfst]
  exact (r.stopped_nodup n).sublist List.filter_sublist

/-! ### Activations in line order (R60, R80) -/

theorem StopsRun.append {xs ys : List (FieldId × StopCause)} (h : StopsRun xs s t) (k : StopsRun ys t u)
    (hd : ∀ y ∈ ys.map (·.1), y ∉ xs.map (·.1)) : StopsRun (xs ++ ys) s u where
  shut := by rw [List.map_append]; exact h.shut.append k.shut hd
  fields x hx := by
    rcases List.mem_append.1 hx with hx | hx
    · obtain ⟨hf, hu⟩ := k.others x.1 fun hy => hd x.1 hy (List.mem_map_of_mem hx)
      rw [hf, hu]
      exact h.fields x hx
    · obtain ⟨hf, hu⟩ := h.others x.1 (hd x.1 (List.mem_map_of_mem hx))
      rw [← hf]
      exact k.fields x hx
  others g hg := by
    rw [List.map_append, List.mem_append, not_or] at hg
    obtain ⟨hf, hu⟩ := h.others g hg.1
    rw [← hf, ← hu]
    exact k.others g hg.2
  notices hl := by
    rw [List.length_append] at hl
    have hn := h.notices (by omega)
    rw [k.notices (by rw [hn]; simp; omega), hn, h.dropped (by omega), List.append_assoc, List.mapIdx_append]
    cases xs <;> simp
  dropped hl := by
    rw [List.length_append] at hl
    have hn := h.notices (by omega)
    rw [k.dropped (by rw [hn]; simp; omega), h.dropped (by omega)]
    cases xs <;> simp

/-- After a line's activation no field that it stops would be stopped again (R62). -/
theorem State.activate_stops (s : State) (n : LineId) (g : FieldId) :
    (s.activate n).stops g = (s.stops g && !decide (g ∈ (s.lines.at n).role.stopped n)) := by
  have h := StopsRun.activate s n
  by_cases hg : g ∈ (s.lines.at n).role.stopped n ∧ s.stops g = true
  · have hf := (h.fields (g, (s.lines.at n).role.cause n) (List.mem_map_of_mem (List.mem_filter.2 hg))).1
    rw [State.stops, hf]
    simp [hg.1]
  · have hf := (h.others g (by simpa using hg)).1
    rw [State.stops, hf, ← State.stops]
    by_cases hm : g ∈ (s.lines.at n).role.stopped n
    · simp [hm, Bool.eq_false_iff.2 fun hs => hg ⟨hm, hs⟩]
    · simp [hm]

/-- The lines and fields of the stops that apply when the lines `ns` are activated: each field that a stop applies to, with the
first of the lines that stops it (R60, R62, R80). -/
def State.entered (s : State) (ns : List LineId) : List (LineId × FieldId) :=
  (ns.flatMap fun n => ((s.lines.at n).role.stopped n).map fun g => (n, g)).filter fun x =>
    s.stops x.2 && ns.all fun k => decide (x.1 ≤ k) || !decide (x.2 ∈ (s.lines.at k).role.stopped k)

theorem State.entered_cons {ns : List LineId} (h : ∀ k ∈ ns, n < k) : s.entered (n :: ns) =
    (((s.lines.at n).role.stopped n).filter s.stops).map (fun g => (n, g)) ++ (s.activate n).entered ns := by
  have hrole (k : LineId) : ((s.activate n).lines.at k).role = (s.lines.at k).role := ((LinesKept.activate s n).records k).role
  unfold State.entered
  rw [List.flatMap_cons, List.filter_append, List.filter_map]
  congr 1
  · refine congrArg _ (List.filter_congr fun g _ => ?_)
    have hle (k : LineId) (hk : k ∈ ns) : n ≤ k := (h k hk).le
    simp +contextual [hle]
  · simp only [hrole]
    refine List.filter_congr fun x hx => ?_
    obtain ⟨k, hk, hx⟩ := List.mem_flatMap.1 hx
    obtain ⟨g, -, rfl⟩ := List.mem_map.1 hx
    have hnk : ¬ k ≤ n := not_le.2 (h k hk)
    simp [State.activate_stops, hnk, Bool.and_assoc]

theorem StopsRun.foldl_activate (ns : List LineId) (hs : ns.Pairwise (· < ·)) (s : State) :
    StopsRun ((s.entered ns).map fun x => (x.2, (s.lines.at x.1).role.cause x.1)) s (ns.foldl State.activate s) := by
  induction ns generalizing s with
  | nil => exact .foldl [] List.nodup_nil s
  | cons n ns ih =>
    obtain ⟨hn, hs⟩ := List.pairwise_cons.1 hs
    have hrole (k : LineId) : ((s.activate n).lines.at k).role = (s.lines.at k).role := ((LinesKept.activate s n).records k).role
    have hrest := ih hs (s.activate n)
    simp only [hrole] at hrest
    rw [List.foldl_cons, State.entered_cons hn, List.map_append, List.map_map]
    refine (StopsRun.activate s n).append hrest fun g hg hx => ?_
    rw [List.map_map] at hg hx
    obtain ⟨x, hx', rfl⟩ := List.mem_map.1 hg
    obtain ⟨y, hy, he⟩ := List.mem_map.1 hx
    have happlies := (Bool.and_eq_true_iff.1 (List.mem_filter.1 hx').2).1
    rw [State.activate_stops, ← show y = x.2 from he] at happlies
    simp [(List.mem_filter.1 hy).1] at happlies

end

end Sys2Proof.Machine
end

section
/-! SUPPORT. Resume combinations, and a whole change of lines: the new records, then the activations, then the combinations (R63,
R64, R72, R80, R82). -/

namespace Sys2Proof.Machine

open Sys2Proof

section
variable {s t : State} {g h : FieldId} {n : LineId} {fs : List FieldId}

/-! ### A combination (R63, R64, R82) -/

/-- The state after a combination has cleared the edge flags of its field's STOP lines (R82). -/
def State.cleared (s : State) (g : FieldId) : State :=
  { s with lines := clearEdges (fun n (r : LineRecord) => r.role == LineRole.stop && lineField n == g) s.lines }

theorem State.cleared_at (s : State) (g : FieldId) (n : LineId) : (s.cleared g).lines.at n = { s.lines.at n with
    edge := if (s.lines.at n).role = .stop ∧ lineField n = g then false else (s.lines.at n).edge } := by
  rw [State.cleared, clearEdges, Table.at_ofFn]
  by_cases hs : (s.lines.at n).role = .stop ∧ lineField n = g <;> simp [hs]

theorem State.cleared_fields (s : State) (g : FieldId) : (s.cleared g).fields = s.fields := by simp only [State.cleared]

theorem State.cleared_beacons (s : State) (g : FieldId) : (s.cleared g).beacons = s.beacons := by simp only [State.cleared]

theorem State.cleared_mgmt (s : State) (g : FieldId) : (s.cleared g).mgmt = s.mgmt := by simp only [State.cleared]

theorem LinesKept.cleared (s : State) (g : FieldId) : LinesKept s (s.cleared g) := by
  refine LinesKept.flags (lines := (s.cleared g).lines) fun n => ?_
  rw [State.cleared_at]
  exact ⟨rfl, rfl, rfl, rfl, rfl⟩

/-- A field's combination would resume it. -/
def State.resumes (s : State) (g : FieldId) : Bool := ((s.cleared g).resumeRefusal g).isNone

theorem State.combine_eq (s : State) (g : FieldId) :
    s.combine g = if s.resumes g then (s.cleared g).resumeField g .combination else s.cleared g := by
  unfold State.resumes
  change (match (s.cleared g).resumeRefusal g with
    | none => (s.cleared g).resumeField g .combination
    | some _ => s.cleared g) = _
  cases (s.cleared g).resumeRefusal g <;> rfl

theorem State.combine_resumes (h : s.resumes g = true) : s.combine g = (s.cleared g).resumeField g .combination := by
  rw [State.combine_eq, if_pos h]

theorem State.combine_refused (h : s.resumes g = false) : s.combine g = s.cleared g := by
  rw [State.combine_eq, h, if_neg Bool.false_ne_true]

theorem LinesKept.combine (s : State) (g : FieldId) : LinesKept s (s.combine g) := by
  cases h : s.resumes g with
  | true => rw [State.combine_resumes h]; exact (LinesKept.cleared s g).trans (.resumeField _ g _)
  | false => rw [State.combine_refused h]; exact .cleared s g

theorem State.resumeField_eq (s : State) (lines : Table 16 LineRecord) (g : FieldId) (src : ResumeSource) :
    ({ s with lines } : State).resumeField g src = { s with
      lines
      fields := s.fields.put g { s.fields.at g with stopped := none }
      beacons := { s.beacons with urgent := s.beacons.urgent.put g true }
      mgmt := (s.queueNotice (.resume g src)).mgmt } := rfl

/-- A resume by a combination: the field's record, its urgent mark and NOTICE RESUME (R64). -/
theorem State.combine_resumed (h : s.resumes g = true) : s.combine g = { s with
    lines := (s.cleared g).lines
    fields := s.fields.put g { s.fields.at g with stopped := none }
    beacons := { s.beacons with urgent := s.beacons.urgent.put g true }
    mgmt := (s.queueNotice (.resume g .combination)).mgmt } :=
  (State.combine_resumes h).trans (State.resumeField_eq s (s.cleared g).lines g .combination)

theorem State.combine_lines (s : State) (g : FieldId) : (s.combine g).lines = (s.cleared g).lines := by
  cases h : s.resumes g with
  | true => simp only [State.combine_resumed h]
  | false => rw [State.combine_refused h]

/-- The three tests of a resume, the field's STOP lines having lost their edge flags (R63, R82). -/
theorem State.resumes_iff : s.resumes g = true ↔ Resumable s s.lines g := by
  have hrefusal : s.resumes g = true ↔ (s.fields.at g).stopped ≠ none ∧ ¬ stopHeld (s.cleared g).lines g = true ∧
      ¬ stopLatched (s.cleared g).lines g = true := by
    rw [State.resumes, State.resumeRefusal, State.cleared_fields]
    simp [apply_ite Option.isNone]
  have hheld : stopHeld (s.cleared g).lines g = true ↔ ∃ n, StopLineOf s g n ∧
      (s.lines.at n).filtered = (s.lines.at n).activeLevel := by
    simp only [stopHeld_iff, State.cleared_at, StopLineOf]
  have hlatched : stopLatched (s.cleared g).lines g = true ↔ ∃ n, (s.lines.at n).role = .hallStop ∧ (s.lines.at n).edge = true := by
    simp only [stopLatched_iff, State.cleared_at]
    refine exists_congr fun n => ⟨fun ⟨hr, he⟩ => ?_, fun ⟨hr, he⟩ => ⟨.inr hr, ?_⟩⟩
    · split at he
      · exact nomatch he
      · next hs => exact ⟨hr.resolve_left hs, he⟩
    · rw [if_neg (by simp [hr])]
      exact he
  rw [hrefusal, hheld, hlatched, Resumable]
  push Not
  simp only [ne_eq, Bool.not_eq_true]

theorem Resumable.congr {v : State} {a b : Table 16 LineRecord} (hf : (v.fields.at g).stopped = (s.fields.at g).stopped)
    (hr : ∀ n, (v.lines.at n).role = (s.lines.at n).role)
    (he : ∀ n, (s.lines.at n).role = .hallStop → (v.lines.at n).edge = (s.lines.at n).edge)
    (hl : ∀ n, (s.lines.at n).role.stops = true → (a.at n).Agrees (b.at n)) : Resumable v a g ↔ Resumable s b g := by
  have hstop (n : LineId) (hn : StopLineOf s g n) : (s.lines.at n).role.stops = true :=
    LineRole.stops_iff.2 (hn.imp_left And.left)
  have hroles (n : LineId) : StopLineOf v g n ↔ StopLineOf s g n := by rw [StopLineOf, hr, ← StopLineOf]
  unfold Resumable
  rw [hf]
  simp only [hroles, hr]
  refine and_congr_right fun _ => and_congr (forall_congr' fun n => forall_congr' fun hn => ?_)
    (forall_congr' fun n => forall_congr' fun hn => ?_)
  · rw [(hl n (hstop n hn)).filtered, (hl n (hstop n hn)).activeLevel]
  · rw [he n hn]

/-- A combination of another field decides nothing of a field's own. -/
theorem State.combine_resumes_other (hg : g ≠ h) : (s.combine h).resumes g = s.resumes g := by
  have hkept := LinesKept.combine s h
  rw [Bool.eq_iff_iff, State.resumes_iff, State.resumes_iff]
  refine Resumable.congr ?_ (fun n => (hkept.records n).role) (fun n hn => ?_) fun n _ => hkept.records n
  · cases hr : s.resumes h with
    | true => simp only [State.combine_resumed hr, Table.at_put_other _ _ hg]
    | false => simp only [State.combine_refused hr, State.cleared]
  · rw [State.combine_lines, State.cleared_at, hn]
    simp

/-- The combinations of the fields `fs`, one after another (R63, R64, R82). -/
structure Combinations (fs : List FieldId) (s t : State) : Prop where
  edge : ∀ n, (t.lines.at n).edge =
    ((s.lines.at n).edge && !(decide ((s.lines.at n).role = .stop) && decide (lineField n ∈ fs)))
  link : t.link = s.link
  slots : t.slots = s.slots
  fields : ∀ g, t.fields.at g = { s.fields.at g with
    stopped := if g ∈ fs.filter s.resumes then none else (s.fields.at g).stopped }
  urgent : ∀ g, t.beacons.urgent.at g = (s.beacons.urgent.at g || decide (g ∈ fs.filter s.resumes))
  notices : s.mgmt.notices.length + (fs.filter s.resumes).length ≤ 16 → t.mgmt.notices = s.mgmt.notices ++
    (fs.filter s.resumes).mapIdx fun k g => { dropped := if k = 0 then s.mgmt.dropped else 0, content := .resume g .combination }

theorem Combinations.foldl (hn : fs.Nodup) (s : State) : Combinations fs s (fs.foldl State.combine s) := by
  induction fs generalizing s with
  | nil => exact ⟨fun n => by simp, rfl, rfl, fun g => by simp, fun g => by simp, fun _ => by simp⟩
  | cons h fs ih =>
    obtain ⟨hh, hn⟩ := List.nodup_cons.1 hn
    have k := ih hn (s.combine h)
    have hfilter : fs.filter (s.combine h).resumes = fs.filter s.resumes :=
      List.filter_congr fun g hg => State.combine_resumes_other fun he => hh (he ▸ hg)
    rw [List.foldl_cons]
    generalize fs.foldl State.combine (s.combine h) = t at k
    have hedge (n : LineId) : (t.lines.at n).edge =
        ((s.lines.at n).edge && !(decide ((s.lines.at n).role = .stop) && decide (lineField n ∈ h :: fs))) := by
      rw [k.edge, State.combine_lines, State.cleared_at]
      by_cases hr : (s.lines.at n).role = .stop <;> by_cases hf : lineField n = h <;> simp [hr, hf]
    obtain ⟨-, hlink, hslots, hfields, hurgent, hnotices⟩ := k
    rw [hfilter] at hfields hurgent hnotices
    cases hr : s.resumes h with
    | true =>
      simp only [State.combine_resumed hr] at hlink hslots hfields hurgent hnotices
      have hout : h ∉ fs.filter s.resumes := fun hx => hh (List.mem_filter.1 hx).1
      have hc : (h :: fs).filter s.resumes = h :: fs.filter s.resumes := List.filter_cons_of_pos hr
      refine ⟨hedge, hlink, hslots, fun g => ?_, fun g => ?_, fun hl => ?_⟩
      · rw [hfields, Table.at_put, hc]
        by_cases hg : g = h <;> simp [hg]
      · rw [hurgent, Table.at_put, hc]
        by_cases hg : g = h <;> simp [hg]
      · rw [hc, List.length_cons] at hl
        rw [hc]
        have hroom := State.queueNotice_room s (.resume h .combination) (by simp [Config.noticeCapacity]; omega)
        rw [hroom] at hnotices
        rw [hnotices (by simp; omega)]
        simp [List.mapIdx_cons]
    | false =>
      have hcombine : s.combine h = { s with lines := (s.cleared h).lines } := State.combine_refused hr
      simp only [hcombine] at hlink hslots hfields hurgent hnotices
      have hc : (h :: fs).filter s.resumes = fs.filter s.resumes := List.filter_cons_of_neg (by simp [hr])
      rw [← hc] at hfields hurgent hnotices
      exact ⟨hedge, hlink, hslots, hfields, hurgent, hnotices⟩

/-! ### A change of lines (R72, R80, R82) -/

/-- The line records of a change: the lines for which `p` holds take new ones. -/
def newRecords (lines : Table 16 LineRecord) (p : LineId → Bool) (r : LineId → LineRecord → LineRecord) : Table 16 LineRecord :=
  Vector.ofFn fun n : Fin 16 => if p n then r n (lines.at n) else lines.at n

/-- The lines that a change of records makes active, in line order (R72, R80). -/
def newlyActive (lines new : Table 16 LineRecord) : List LineId :=
  (allOf 16).filter fun n => (new.at n).active && !(lines.at n).active

/-- The fields whose combinations come to hold, in the order A to D (R82). -/
def newlyCombined (lines new : Table 16 LineRecord) : List FieldId :=
  (allOf 4).filter fun f => combinationHolds new f && !combinationHolds lines f

theorem State.changeLines_eq (s : State) (p : LineId → Bool) (r : LineId → LineRecord → LineRecord) :
    s.changeLines p r = (newlyCombined s.lines (newRecords s.lines p r)).foldl State.combine
      ((newlyActive s.lines (newRecords s.lines p r)).foldl State.activate { s with lines := newRecords s.lines p r }) := rfl

theorem mem_newlyActive {lines new : Table 16 LineRecord} : n ∈ newlyActive lines new ↔
    (new.at n).filtered = (new.at n).activeLevel ∧ (lines.at n).filtered ≠ (lines.at n).activeLevel := by
  simp [newlyActive, mem_allOf, LineRecord.active]

theorem newlyActive_sorted (lines new : Table 16 LineRecord) : (newlyActive lines new).Pairwise (· < ·) :=
  (List.pairwise_lt_finRange 16).filter _

theorem mem_newlyCombined {lines new : Table 16 LineRecord} : g ∈ newlyCombined lines new ↔
    Combined new g ∧ ¬ Combined lines g := by
  rw [newlyCombined, List.mem_filter, Bool.and_eq_true, Bool.not_eq_true', ← Bool.not_eq_true, combinationHolds_iff,
    combinationHolds_iff]
  exact and_iff_right (mem_allOf g)

theorem newlyCombined_sorted (lines new : Table 16 LineRecord) : (newlyCombined lines new).Pairwise (· < ·) :=
  (List.pairwise_lt_finRange 4).filter _

theorem LinesKept.changeLines (s : State) (p : LineId → Bool) (r : LineId → LineRecord → LineRecord) :
    LinesKept { s with lines := newRecords s.lines p r } (s.changeLines p r) := by
  rw [State.changeLines_eq]
  exact (LinesKept.foldl LinesKept.activate _ _).trans (.foldl .combine _ _)

theorem State.activate_silent (h : (s.lines.at n).role.stops = false) : s.activate n = s := by
  unfold State.activate
  split
  · next hr => rw [hr] at h; exact nomatch h
  · next hr => rw [hr] at h; exact nomatch h
  · rfl
  · rfl

/-- Activations of lines that stop no field change nothing (R80). -/
theorem State.foldl_activate_silent {ns : List LineId} (h : ∀ n ∈ ns, (s.lines.at n).role.stops = false) :
    ns.foldl State.activate s = s := by
  induction ns with
  | nil => rfl
  | cons n ns ih =>
    rw [List.foldl_cons, State.activate_silent (h n List.mem_cons_self)]
    exact ih fun k hk => h k (List.mem_cons_of_mem n hk)

end

end Sys2Proof.Machine
end

section
/-! SUPPORT. The change of level of a pin whose line has no filter (R76). -/

namespace Sys2Proof.Machine

open Sys2Proof

section
variable {s t : State} {g : FieldId} {n k : LineId} {v : Level} {lines new : Table 16 LineRecord}

/-! ### Where a change brings nothing, or one thing -/

theorem newlyCombined_none (h : ∀ g, Combined new g → Combined lines g) : newlyCombined lines new = [] :=
  List.eq_nil_iff_forall_not_mem.2 fun g hg => (mem_newlyCombined.1 hg).2 (h g (mem_newlyCombined.1 hg).1)

theorem newlyCombined_single (h : ∀ k, Combined new k ∧ ¬ Combined lines k ↔ k = g) : newlyCombined lines new = [g] :=
  (newlyCombined_sorted lines new).eq_of_mem_iff (List.pairwise_singleton _ g) fun k => by
    rw [mem_newlyCombined, h, List.mem_singleton]

/-- The activation of a line in the record of a field that it stops or does not stop (R60, R62). -/
theorem State.activate_field (s : State) (n : LineId) (g : FieldId) :
    (s.activate n).fields.at g = { s.fields.at g with
      stopped := if g ∈ (s.lines.at n).role.stopped n ∧ (s.fields.at g).phase.stoppable = true
        then some ((s.fields.at g).stopped.getD ((s.lines.at n).role.cause n)) else (s.fields.at g).stopped } := by
  have h := StopsRun.activate s n
  by_cases hg : g ∈ (s.lines.at n).role.stopped n ∧ s.stops g = true
  · rw [(h.fields (g, (s.lines.at n).role.cause n) (List.mem_map_of_mem (List.mem_filter.2 hg))).1]
    obtain ⟨hm, hs⟩ := hg
    obtain ⟨hp, hnone⟩ := State.stops_iff.1 hs
    simp [hm, hp, hnone]
  · rw [(h.others g (by simpa using hg)).1]
    by_cases hp : g ∈ (s.lines.at n).role.stopped n ∧ (s.fields.at g).phase.stoppable = true
    · have hsome : (s.fields.at g).stopped ≠ none := by simpa [State.stops_iff, hp] using hg
      obtain ⟨c, hc⟩ := Option.ne_none_iff_exists'.1 hsome
      rw [if_pos hp, hc, Option.getD_some, ← hc]
    · rw [if_neg hp]

/-! ### The record of the pin's line (R76) -/

/-- The line records once line `n` has followed its pin to `v`. -/
def followPin (lines : Table 16 LineRecord) (n : LineId) (v : Level) : Table 16 LineRecord :=
  lines.put n { lines.at n with filtered := v }

theorem followPin_at (lines : Table 16 LineRecord) (n : LineId) (v : Level) (k : LineId) :
    (followPin lines n v).at k = { lines.at k with filtered := if k = n then v else (lines.at k).filtered } := by
  rw [followPin, Table.at_put]
  by_cases hk : k = n
  · subst hk
    simp
  · simp [hk]

theorem newRecords_pin (lines : Table 16 LineRecord) (n : LineId) (v : Level) :
    newRecords lines (· == n) (fun _ r => { r with filtered := v }) = followPin lines n v := by
  refine Table.ext fun k => ?_
  rw [newRecords, Table.at_ofFn, followPin_at]
  by_cases hk : k = n <;> simp [hk]

theorem mem_newlyActive_followPin : k ∈ newlyActive lines (followPin lines n v) ↔
    k = n ∧ v = (lines.at n).activeLevel ∧ (lines.at n).filtered ≠ (lines.at n).activeLevel := by
  rw [mem_newlyActive, followPin_at]
  by_cases hk : k = n
  · subst hk
    simp
  · simp [hk]

theorem newlyActive_followPin (hv : v = (lines.at n).activeLevel) (hf : (lines.at n).filtered ≠ v) :
    newlyActive lines (followPin lines n v) = [n] :=
  (newlyActive_sorted _ _).eq_of_mem_iff (List.pairwise_singleton _ n) fun k => by
    rw [mem_newlyActive_followPin, List.mem_singleton]
    exact and_iff_left ⟨hv, hv ▸ hf⟩

/-- A line that is no key of a field decides nothing of its combination (R82). -/
theorem combined_followPin_other (h : ¬ ((lines.at n).role = .resumeKey ∧ lineField n = g)) :
    Combined (followPin lines n v) g ↔ Combined lines g := by
  have hne {k : LineId} (hf : lineField k = g) (hr : (lines.at k).role = .resumeKey) : k ≠ n := by
    rintro rfl
    exact h ⟨hr, hf⟩
  simp only [Combined, followPin_at]
  refine and_congr_right fun _ => forall_congr' fun k => forall_congr' fun hf => forall_congr' fun hr => ?_
  rw [if_neg (hne hf hr)]

/-- A key that becomes active while the other keys of its field are active completes the combination of its field alone (R82). -/
theorem newlyCombined_followPin (hr : (lines.at n).role = .resumeKey) (hv : v = (lines.at n).activeLevel)
    (hf : (lines.at n).filtered ≠ v) (hk : ∀ k, k ≠ n → lineField k = lineField n → (lines.at k).role = .resumeKey →
      (lines.at k).filtered = (lines.at k).activeLevel) :
    newlyCombined lines (followPin lines n v) = [lineField n] := by
  refine newlyCombined_single fun g => ?_
  by_cases hg : lineField n = g
  · subst hg
    refine iff_of_true ⟨⟨⟨n, rfl, by rw [followPin_at]; exact hr⟩, fun k hfk hrk => ?_⟩, fun hc => hf ?_⟩ rfl
    · rw [followPin_at] at hrk ⊢
      by_cases hkn : k = n
      · simp [hkn, hv]
      · simpa [hkn] using hk k hkn hfk hrk
    · rw [hv]
      exact hc.2 n rfl hr
  · rw [combined_followPin_other fun h => hg h.2]
    exact iff_of_false (fun h => h.2 h.1) fun h => hg h.symm

/-- Where the line does not become active, has no role, or is a key beside another that is not active, no combination comes to
hold (R82). -/
theorem newlyCombined_followPin_none
    (h : v ≠ (lines.at n).activeLevel ∨ (lines.at n).filtered = v ∨ (lines.at n).role = .unused ∨
      (lines.at n).role.stops = true ∨
      ((lines.at n).role = .resumeKey ∧ ∃ k, k ≠ n ∧ lineField k = lineField n ∧ (lines.at k).role = .resumeKey ∧
        (lines.at k).filtered ≠ (lines.at k).activeLevel)) :
    newlyCombined lines (followPin lines n v) = [] := by
  refine newlyCombined_none fun g hc => ?_
  by_cases hkey : (lines.at n).role = .resumeKey ∧ lineField n = g
  · obtain ⟨hr, rfl⟩ := hkey
    have hkeys (k : LineId) (hf : lineField k = lineField n) (hrk : (lines.at k).role = .resumeKey) :
        (if k = n then v else (lines.at k).filtered) = (lines.at k).activeLevel := by
      have := hc.2 k hf (by rw [followPin_at]; exact hrk)
      rwa [followPin_at] at this
    rcases h with h | h | h | h | ⟨-, k, hkn, hf, hrk, hk⟩
    · exact absurd ((if_pos rfl).symm.trans (hkeys n rfl hr)) h
    · refine ⟨⟨n, rfl, hr⟩, fun k hf hrk => ?_⟩
      have := hkeys k hf hrk
      split at this
      · next hkn => rw [hkn] at this ⊢; exact h.trans this
      · exact this
    · exact nomatch hr.symm.trans h
    · rw [hr] at h
      exact nomatch h
    · exact absurd ((if_neg hkn).symm.trans (hkeys k hf hrk)) hk
  · exact (combined_followPin_other hkey).1 hc

/-! ### The change of the pin (R76) -/

theorem State.changePin_filtered (h : (s.lines.at n).filterOn = true) : s.changePin n v = { s with pins := s.pins.put n v } :=
  if_pos h

/-- The state once the pin has changed and its line has followed it, nothing yet having come of it. -/
def State.followed (s : State) (n : LineId) (v : Level) : State :=
  { s with pins := s.pins.put n v, lines := followPin s.lines n v }

theorem State.followed_link (s : State) (n : LineId) (v : Level) : (s.followed n v).link = s.link := by
  simp only [State.followed]

theorem State.followed_slots (s : State) (n : LineId) (v : Level) : (s.followed n v).slots = s.slots := by
  simp only [State.followed]

theorem State.followed_fields (s : State) (n : LineId) (v : Level) : (s.followed n v).fields = s.fields := by
  simp only [State.followed]

theorem State.followed_beacons (s : State) (n : LineId) (v : Level) : (s.followed n v).beacons = s.beacons := by
  simp only [State.followed]

theorem State.followed_mgmt (s : State) (n : LineId) (v : Level) : (s.followed n v).mgmt = s.mgmt := by
  simp only [State.followed]

theorem State.followed_at (s : State) (n : LineId) (v : Level) (k : LineId) : (s.followed n v).lines.at k =
    { s.lines.at k with filtered := if k = n then v else (s.lines.at k).filtered } := by
  rw [← followPin_at]
  simp only [State.followed]

theorem State.changePin_unfiltered (h : (s.lines.at n).filterOn = false) : s.changePin n v =
    (newlyCombined s.lines (followPin s.lines n v)).foldl State.combine
      ((newlyActive s.lines (followPin s.lines n v)).foldl State.activate (s.followed n v)) := by
  have h1 : s.changePin n v =
      ({ s with pins := s.pins.put n v } : State).changeLines (· == n) fun _ r => { r with filtered := v } :=
    if_neg (by simp [h])
  rw [h1, State.changeLines_eq, newRecords_pin]
  rfl

theorem LineKeeps.followed (s : State) (n : LineId) (v : Level) : LineKeeps s (s.followed n v) :=
  .ofLines _ _ s.sampleLeft s.choices

/-- The row leaves alone what no change of lines touches, and the pin alone of the pins changes. -/
theorem State.changePin_keeps (s : State) (n : LineId) (v : Level) : (s.changePin n v).settle.pins = s.pins.put n v ∧
    (s.changePin n v).settle.sampleLeft = s.sampleLeft ∧ LineKeeps s (s.changePin n v).settle := by
  have hsettle := LinesKept.settle (s.changePin n v)
  cases h : (s.lines.at n).filterOn with
  | true =>
    rw [State.changePin_filtered h] at hsettle ⊢
    exact ⟨hsettle.pins, hsettle.sampleLeft, (LineKeeps.ofLines s.lines _ s.sampleLeft s.choices).trans hsettle.toLineKeeps⟩
  | false =>
    have hkept : LinesKept (s.followed n v) (s.changePin n v) := by
      rw [State.changePin_unfiltered h]
      exact (LinesKept.foldl .activate _ _).trans (.foldl .combine _ _)
    have hall := hkept.trans hsettle
    exact ⟨hall.pins, hall.sampleLeft, (LineKeeps.followed s n v).trans hall.toLineKeeps⟩

theorem exec_unfilteredLineChange (hm : s.mgmt.mode ≠ .starting) (n : LineId) (v : Level) :
    exec (.unfilteredLineChange n v) s = .next (s.changePin n v).settle :=
  congrArg Host.Outcome.next (if_pos (by simpa [State.timersRun] using hm))

/-- A stop line that becomes active: its edge flag, and the stops of its fields (R60 to R62, R72, R77). -/
theorem State.changePin_stops (hu : (s.lines.at n).filterOn = false) (hr : (s.lines.at n).role.stops = true)
    (hv : v = (s.lines.at n).activeLevel) (hf : (s.lines.at n).filtered ≠ v) :
    (s.changePin n v).settle.lines = s.lines.put n { s.lines.at n with filtered := v, edge := true } ∧
    (∀ g, (s.changePin n v).settle.fields.at g = { s.fields.at g with
      stopped := if g ∈ (s.lines.at n).role.stopped n ∧ (s.fields.at g).phase.stoppable = true
        then some ((s.fields.at g).stopped.getD ((s.lines.at n).role.cause n)) else (s.fields.at g).stopped }) ∧
    StopsEntered ((((s.lines.at n).role.stopped n).filter s.stops).map fun g => (g, (s.lines.at n).role.cause n)) s
      (s.changePin n v).settle := by
  have hchange : s.changePin n v = (s.followed n v).activate n := by
    rw [State.changePin_unfiltered hu, newlyActive_followPin hv hf,
      newlyCombined_followPin_none (.inr (.inr (.inr (.inl hr))))]
    rfl
  have hrole : ((s.followed n v).lines.at n).role = (s.lines.at n).role := by rw [State.followed_at]
  rw [hchange]
  refine ⟨?_, fun g => ?_, ?_⟩
  · rw [State.settle_lines, State.activate_lines, flagLine, hrole, hr, Bool.or_true, State.followed]
    simp only [followPin, Table.at_put_same, Table.put_put]
  · rw [State.settle_fields, State.activate_field, hrole, State.followed_fields]
  · have hrun := StopsRun.activate (s.followed n v) n
    rw [hrole] at hrun
    exact (StopsRun.before (s := s) hrun).stopsEntered (.refl _) (State.settle_beacons _) (State.settle_mgmt _)

/-- A key that completes its field's combination (R63, R64, R82). -/
theorem State.changePin_combines (hu : (s.lines.at n).filterOn = false) (hr : (s.lines.at n).role = .resumeKey)
    (hv : v = (s.lines.at n).activeLevel) (hf : (s.lines.at n).filtered ≠ v)
    (hk : ∀ k, k ≠ n → lineField k = lineField n → (s.lines.at k).role = .resumeKey →
      (s.lines.at k).filtered = (s.lines.at k).activeLevel) :
    s.changePin n v = (s.followed n v).combine (lineField n) := by
  have hsilent : (newlyActive s.lines (followPin s.lines n v)).foldl State.activate (s.followed n v) = s.followed n v := by
    refine State.foldl_activate_silent fun k hm => ?_
    rw [State.followed_at]
    dsimp only
    rw [(mem_newlyActive_followPin.1 hm).1, hr]
    rfl
  rw [State.changePin_unfiltered hu, hsilent, newlyCombined_followPin hr hv hf hk]
  rfl

/-- A change of an unfiltered line that neither stops nor resumes moves the line alone (R76). -/
theorem State.changePin_moves (hu : (s.lines.at n).filterOn = false)
    (h : v ≠ (s.lines.at n).activeLevel ∨ (s.lines.at n).filtered = v ∨ (s.lines.at n).role = .unused ∨
      ((s.lines.at n).role = .resumeKey ∧ ∃ k, k ≠ n ∧ lineField k = lineField n ∧ (s.lines.at k).role = .resumeKey ∧
        (s.lines.at k).filtered ≠ (s.lines.at k).activeLevel)) :
    s.changePin n v = s.followed n v := by
  have hsilent : (newlyActive s.lines (followPin s.lines n v)).foldl State.activate (s.followed n v) = s.followed n v := by
    refine State.foldl_activate_silent fun k hm => ?_
    obtain ⟨rfl, hv, hf⟩ := mem_newlyActive_followPin.1 hm
    rw [State.followed_at]
    dsimp only
    rcases h with h | h | h | ⟨h, -⟩
    · exact absurd hv h
    · exact absurd (h.trans hv) hf
    · rw [h]; rfl
    · rw [h]; rfl
  have hnone : newlyCombined s.lines (followPin s.lines n v) = [] := by
    refine newlyCombined_followPin_none ?_
    rcases h with h | h | h | h
    · exact .inl h
    · exact .inr (.inl h)
    · exact .inr (.inr (.inl h))
    · exact .inr (.inr (.inr (.inr h)))
  rw [State.changePin_unfiltered hu, hsilent, hnone]
  rfl

theorem State.followed_resumes (hr : (s.lines.at n).role = .resumeKey) (v : Level) (g : FieldId) :
    (s.followed n v).resumes g = true ↔ Resumable s s.lines g := by
  rw [State.resumes_iff]
  refine Resumable.congr (by rw [State.followed_fields]) (fun k => by rw [State.followed_at])
    (fun k _ => by rw [State.followed_at]) fun k hk => ?_
  have hkn : k ≠ n := by
    rintro rfl
    rw [hr] at hk
    exact nomatch hk
  rw [State.followed_at, if_neg hkn]
  exact .refl _

end

/-- Settles O28: an active stop line stops its fields, a key completes its combination, and any other change moves its line or
its pin alone. -/
theorem unfilteredStopLineStopsItsField : Obligations.UnfilteredStopLineStopsItsField := by
  intro s n v hm
  obtain ⟨hpins, hleft, hkeep⟩ := s.changePin_keeps n v
  have hexec := exec_unfilteredLineChange hm n v
  refine ⟨fun hu hr hv hf => ?_, fun hu hr hv hf => ?_, fun hu hr hv hf hk => ?_, fun hu h => ?_, fun hu => ?_⟩
  · obtain ⟨hlines, hfields, hstops⟩ := State.changePin_stops hu (by rw [hr]; rfl) hv hf
    refine ⟨_, hexec, hlines, Table.ext fun g => ?_, ?_, hpins, hleft, hkeep⟩
    · rw [hfields, hr, Table.at_put]
      by_cases hg : g = lineField n
      · subst hg
        simp [LineRole.stopped, LineRole.cause]
      · simp [LineRole.stopped, hg]
    · rw [hr] at hstops
      by_cases hs : (s.fields.at (lineField n)).phase.stoppable = true ∧ (s.fields.at (lineField n)).stopped = none
      · simpa [LineRole.stopped, LineRole.cause, State.stops, hs] using hstops
      · rw [if_neg hs]
        have hnot : s.stops (lineField n) = false := Bool.eq_false_iff.2 fun h => hs (State.stops_iff.1 h)
        simpa [LineRole.stopped, hnot] using hstops
  · obtain ⟨hlines, hfields, hstops⟩ := State.changePin_stops hu (by rw [hr]; rfl) hv hf
    rw [hr] at hfields hstops
    refine ⟨_, hexec, hlines, fun g => ?_, hstops, hpins, hleft, hkeep⟩
    rw [hfields]
    simp [LineRole.stopped, LineRole.cause, mem_allOf]
  · have hres := State.followed_resumes hr v (lineField n)
    rw [State.changePin_combines hu hr hv hf hk] at hpins hleft hkeep hexec
    have hone := Combinations.foldl (List.nodup_singleton (lineField n)) (s.followed n v)
    refine ⟨_, hexec, fun k => ?_, fun hok => ?_, fun hno => ?_, ?_, ?_, hpins, hleft, hkeep⟩
    · rw [State.settle_lines, State.combine_lines, State.cleared_at, State.followed_at]
    · rw [State.settle_fields, State.settle_beacons, State.settle_mgmt, State.combine_resumed (hres.2 hok)]
      refine ⟨by rw [State.followed_fields], Table.at_put_same _ _ _, fun hroom => ?_⟩
      rw [State.queueNotice_room _ _ (by rw [State.followed_mgmt]; exact hroom), State.followed_mgmt]
    · rw [State.settle_fields, State.settle_beacons, State.settle_mgmt,
        State.combine_refused (Bool.eq_false_iff.2 fun h => hno (hres.1 h)), State.cleared_fields, State.cleared_beacons,
        State.cleared_mgmt]
      exact ⟨s.followed_fields n v, s.followed_beacons n v, s.followed_mgmt n v⟩
    · exact (State.settle_link _).trans (hone.link.trans (s.followed_link n v))
    · exact (State.settle_slots _).trans (hone.slots.trans (s.followed_slots n v))
  · rw [State.changePin_moves hu h] at hpins hleft hkeep hexec
    refine ⟨_, hexec, (State.settle_lines _).trans ?_, (State.settle_fields _).trans (s.followed_fields n v),
      (State.settle_beacons _).trans (s.followed_beacons n v), (State.settle_mgmt _).trans (s.followed_mgmt n v),
      (State.settle_link _).trans (s.followed_link n v), (State.settle_slots _).trans (s.followed_slots n v), hpins, hleft, hkeep⟩
    simp only [State.followed, followPin]
  · rw [State.changePin_filtered hu] at hpins hleft hkeep hexec
    exact ⟨_, hexec, State.settle_lines _, State.settle_fields _, State.settle_beacons _, State.settle_mgmt _,
      State.settle_link _, State.settle_slots _, hpins, hleft, hkeep⟩

end Sys2Proof.Machine
end

section
/-! SUPPORT. A sample of the referee lines (R74, R75, R80, R82). -/

namespace Sys2Proof.Machine

open Sys2Proof

section
variable {s t u : State} {g : FieldId} {n : LineId} {pins : Table 16 Level} {lines : Table 16 LineRecord} {choices : Nat}
  {r r' : LineId → LineRecord}

/-! ### The record of a line under a sample (R75, R76) -/

theorem LineRecord.Agrees.symm {x y : LineRecord} (h : x.Agrees y) : y.Agrees x :=
  ⟨h.role.symm, h.activeLevel.symm, h.filterOn.symm, h.filtered.symm, h.previous.symm⟩

theorem LineRecord.Agrees.sampled {x y : LineRecord} (h : x.Agrees y) (v : Level) : (x.sampled v).Agrees (y.sampled v) := by
  obtain ⟨hr, ha, hon, hf, hp⟩ := h
  unfold LineRecord.sampled
  rw [hon]
  split
  · exact ⟨hr, ha, rfl, by rw [hp, hf], rfl⟩
  · exact ⟨hr, ha, hon, hf, hp⟩

theorem LineRecord.sampled_role (r : LineRecord) (v : Level) : (r.sampled v).role = r.role := by
  unfold LineRecord.sampled
  split <;> rfl

theorem LineRecord.sampled_activeLevel (r : LineRecord) (v : Level) : (r.sampled v).activeLevel = r.activeLevel := by
  unfold LineRecord.sampled
  split <;> rfl

theorem LineRecord.sampled_filterOn (r : LineRecord) (v : Level) : (r.sampled v).filterOn = r.filterOn := by
  unfold LineRecord.sampled
  split <;> rfl

theorem LineRecord.sampled_edge (r : LineRecord) (v : Level) : (r.sampled v).edge = r.edge := by
  unfold LineRecord.sampled
  split <;> rfl

theorem LineRecord.sampled_unfiltered {r : LineRecord} (h : r.filterOn = false) (v : Level) : r.sampled v = r :=
  if_neg (Bool.eq_false_iff.1 h)

theorem LineRecord.sampled_filtered {r : LineRecord} (h : r.filterOn = true) (v : Level) :
    r.sampled v = { r with filtered := if v = r.previous then v else r.filtered, previous := v } := if_pos h

theorem sampledLines_at (lines : Table 16 LineRecord) (pins : Table 16 Level) (n : LineId) :
    (sampledLines lines pins).at n = (lines.at n).sampled (pins.at n) := Table.at_ofFn _ n

theorem newRecords_sampled (lines : Table 16 LineRecord) (pins : Table 16 Level) :
    newRecords lines (fun _ => true) (fun n r => r.sampled (pins.at n)) = sampledLines lines pins :=
  Table.ext fun n => by rw [newRecords, Table.at_ofFn, if_pos rfl, sampledLines_at]

theorem levelsOf_at (pins : BitVec 16) (n : LineId) : (levelsOf pins).at n = if pins.getLsbD n.val then .high else .low :=
  Table.at_ofFn _ n

/-! ### Every line is in one group of a raced sample (R82) -/

theorem countP_insertAt {α : Type} (q : α → Bool) (l : List α) (k : Nat) (x : α) :
    (insertAt l k x).countP q = l.countP q + if q x then 1 else 0 := by
  conv_rhs => rw [← List.take_append_drop k l]
  simp only [insertAt, List.countP_append, List.countP_singleton]
  omega

theorem countP_foldl_insertAt {α β : Type} (q : α → Bool) (place : List α → β → Nat) (x : β → α) (fs : List β) (l : List α) :
    (fs.foldl (fun gs f => insertAt gs (place gs f) (x f)) l).countP q = l.countP q + fs.countP fun f => q (x f) := by
  induction fs generalizing l with
  | nil => rfl
  | cons f fs ih =>
    rw [List.foldl_cons, ih, countP_insertAt, List.countP_cons]
    omega

theorem countP_allOf {m : Nat} (k : Fin m) : (allOf m).countP (fun i => k == i) = 1 := by
  have h := List.count_eq_one_of_mem (List.nodup_finRange m) (List.mem_finRange k)
  rw [List.count_eq_countP] at h
  rw [← h]
  exact List.countP_congr fun i _ => by rw [beq_iff_eq, beq_iff_eq, eq_comm]

theorem State.sampleGroups_once (s : State) (n : LineId) : s.sampleGroups.countP (fun p => p n) = 1 := by
  unfold State.sampleGroups
  rw [countP_foldl_insertAt, List.countP_map]
  cases hk : s.isKey n with
  | true =>
    rw [List.countP_eq_zero.2 fun k _ => by simp [hk], ← countP_allOf (lineField n), Nat.zero_add]
    exact List.countP_congr fun f _ => by simp [hk]
  | false =>
    have hfields : (allOf 4).countP (fun f => s.isKey n && lineField n == f) = 0 :=
      List.countP_eq_zero.2 fun f _ => by simp [hk]
    rw [hfields, ← countP_allOf n, Nat.add_zero]
    exact List.countP_congr fun k _ => by simp [hk]

/-! ### The state in which the lines of a sample take their records (R74, R75) -/

/-- The next sample is a period away, the pins of the filtered lines are seen, and the lines have the records `lines`. -/
def State.sampling (s : State) (pins : Table 16 Level) (lines : Table 16 LineRecord) (choices : Nat) : State :=
  { s with
    lines
    pins := Vector.ofFn fun n : Fin 16 => if (s.lines.at n).filterOn then pins.at n else s.pins.at n
    sampleLeft := some s.timing.sample
    choices }

theorem State.sampling_lines : (s.sampling pins lines choices).lines = lines := rfl

theorem State.sampling_fields : (s.sampling pins lines choices).fields = s.fields := rfl

theorem State.sampling_link : (s.sampling pins lines choices).link = s.link := rfl

theorem State.sampling_slots : (s.sampling pins lines choices).slots = s.slots := rfl

theorem State.sampling_beacons : (s.sampling pins lines choices).beacons = s.beacons := rfl

theorem StopsRun.sampled {entered : List (FieldId × StopCause)} (h : StopsRun entered (s.sampling pins lines s.choices) t) :
    StopsRun entered s t := h.before

/-! ### What every sample does (R74 to R76) -/

/-- A sample is taken: what it leaves alone, the sample countdown, the pins, and the records but for their edge flags. -/
structure SampleTaken (s : State) (pins : Table 16 Level) (r : LineId → LineRecord) (t : State) : Prop
    extends LineKeeps s t where
  sampleLeft : t.sampleLeft = some s.timing.sample
  pins : ∀ n, t.pins.at n = if (s.lines.at n).filterOn then pins.at n else s.pins.at n
  records : ∀ n, (t.lines.at n).Agrees (r n)

theorem SampleTaken.sampling (s : State) (pins : Table 16 Level) (lines : Table 16 LineRecord) (choices : Nat) :
    SampleTaken s pins lines.at (s.sampling pins lines choices) :=
  { LineKeeps.ofLines (s := s) lines _ _ choices with
    sampleLeft := rfl, pins := fun n => Table.at_ofFn _ n, records := fun _ => .refl _ }

theorem SampleTaken.trans (h : SampleTaken s pins r t) (k : LinesKept t u) : SampleTaken s pins r u :=
  { h.toLineKeeps.trans k.toLineKeeps with
    sampleLeft := k.sampleLeft.trans h.sampleLeft
    pins := fun n => by rw [k.pins]; exact h.pins n
    records := fun n => (k.records n).trans (h.records n) }

theorem SampleTaken.agrees (h : SampleTaken s pins r t) (hn : ∀ n, (r n).Agrees (r' n)) : SampleTaken s pins r' t :=
  { h with records := fun n => (h.records n).trans (hn n) }

/-- New records in a sample under way. -/
theorem SampleTaken.withLines (h : SampleTaken s pins r t) (lines : Table 16 LineRecord) :
    SampleTaken s pins lines.at { t with lines } :=
  { h.toLineKeeps.trans (LineKeeps.ofLines lines t.pins t.sampleLeft t.choices) with
    sampleLeft := h.sampleLeft, pins := h.pins, records := fun _ => .refl _ }

theorem SampleTaken.changeLines (h : SampleTaken s pins r t) (p : LineId → Bool) :
    SampleTaken s pins (fun n => if p n then (r n).sampled (pins.at n) else r n)
      (t.changeLines p fun n x => x.sampled (pins.at n)) := by
  have hchange := LinesKept.changeLines t p fun n x => x.sampled (pins.at n)
  refine ((h.withLines (newRecords t.lines p fun n x => x.sampled (pins.at n))).trans hchange).agrees fun n => ?_
  rw [newRecords, Table.at_ofFn]
  split
  · exact (h.records n).sampled _
  · exact h.records n

/-- A line takes the sample once for each of the groups that it is in. -/
theorem SampleTaken.foldl (groups : List (LineId → Bool)) (h : SampleTaken s pins r t) :
    SampleTaken s pins (fun n => (LineRecord.sampled · (pins.at n))^[groups.countP fun p => p n] (r n))
      (groups.foldl (fun t p => t.changeLines p fun n x => x.sampled (pins.at n)) t) := by
  induction groups generalizing r t with
  | nil => exact h
  | cons p groups ih =>
    rw [List.foldl_cons]
    refine (ih (h.changeLines p)).agrees fun n => ?_
    rw [List.countP_cons]
    cases hp : p n <;> exact .refl _

/-- A sample that does not bring both a stop and a combination takes all records at once (R82). -/
theorem State.takeSample_calm (h : s.sampleRace pins = false) : s.takeSample pins =
    ((newlyCombined s.lines (sampledLines s.lines pins)).foldl State.combine
      ((newlyActive s.lines (sampledLines s.lines pins)).foldl State.activate
        (s.sampling pins (sampledLines s.lines pins) s.choices))).settle := by
  have hcalm : ({ s with sampleLeft := some s.timing.sample } : State).sampleLines pins =
      (s.sampling pins s.lines s.choices).changeLines (fun _ => true) fun n r => r.sampled (pins.at n) := by
    have hr : ({ s with sampleLeft := some s.timing.sample } : State).sampleRace pins = false := h
    unfold State.sampleLines
    simp only [hr, Bool.false_eq_true, if_false]
    rfl
  rw [State.takeSample, hcalm, State.changeLines_eq]
  simp only [State.sampling, newRecords_sampled]

/-- A sample that brings both takes its records group by group (R82). -/
theorem State.takeSample_race (h : s.sampleRace pins = true) : s.takeSample pins =
    (s.sampleGroups.foldl (fun (t : State) p => t.changeLines p fun n r => r.sampled (pins.at n))
      (s.sampling pins s.lines (s.choices + 4))).settle := by
  have hr : ({ s with sampleLeft := some s.timing.sample } : State).sampleRace pins = true := h
  unfold State.takeSample State.sampleLines
  simp only [hr, if_true]
  rfl

theorem SampleTaken.takeSample (s : State) (pins : Table 16 Level) :
    SampleTaken s pins (sampledLines s.lines pins).at (s.takeSample pins) := by
  cases h : s.sampleRace pins with
  | true =>
    rw [State.takeSample_race h]
    refine (((SampleTaken.sampling s pins s.lines _).foldl s.sampleGroups).trans (.settle _)).agrees fun n => ?_
    rw [State.sampleGroups_once, sampledLines_at]
    exact .refl _
  | false =>
    rw [State.takeSample_calm h]
    exact (SampleTaken.sampling s pins _ _).trans
      ((LinesKept.foldl .activate _ _).trans ((LinesKept.foldl .combine _ _).trans (.settle _)))

theorem exec_lineSample (hm : s.mgmt.mode ≠ .starting) (pins : BitVec 16) :
    exec (.lineSample pins) s = .next (s.takeSample (levelsOf pins)) :=
  congrArg Host.Outcome.next (if_pos (by simpa [State.timersRun] using hm))

/-! ### What a sample brings (R72, R80, R82) -/

theorem mem_newlyActive_sampled : n ∈ newlyActive s.lines (sampledLines s.lines pins) ↔
    NewlyActive s (s.takeSample pins) n := by
  have hn := (SampleTaken.takeSample s pins).records n
  rw [mem_newlyActive, NewlyActive, hn.filtered]
  simp only [sampledLines_at, LineRecord.sampled_activeLevel]

theorem mem_newlyCombined_sampled : g ∈ newlyCombined s.lines (sampledLines s.lines pins) ↔
    Combined (s.takeSample pins).lines g ∧ ¬ Combined s.lines g := by
  rw [mem_newlyCombined, Combined.congr (SampleTaken.takeSample s pins).records]

theorem State.sampleRace_iff : s.sampleRace pins = true ↔
    (∃ n ∈ newlyActive s.lines (sampledLines s.lines pins), (s.lines.at n).role.stops = true) ∧
      ∃ g, g ∈ newlyCombined s.lines (sampledLines s.lines pins) := by
  rw [State.sampleRace]
  simp only [Bool.and_eq_true, List.any_eq_true]
  refine and_congr (exists_congr fun n => ?_) (exists_congr fun g => ?_)
  · simp only [newlyActive, List.mem_filter, LineRole.stops_iff, sampledLines_at, LineRecord.sampled_role, Bool.or_eq_true,
      Bool.and_eq_true, beq_iff_eq]
    tauto
  · rw [newlyCombined, List.mem_filter, Bool.and_eq_true]

/-! ### A sample that brings no combination (R60, R61, R72, R80) -/

theorem State.foldl_activate_edge (ns : List LineId) (s : State) (k : LineId) : ((ns.foldl State.activate s).lines.at k).edge =
    ((s.lines.at k).edge || (decide (k ∈ ns) && (s.lines.at k).role.stops)) := by
  induction ns generalizing s with
  | nil => simp
  | cons n ns ih =>
    rw [List.foldl_cons, ih, State.activate_lines, flagLine_at]
    by_cases hk : k = n
    · subst hk
      cases (s.lines.at k).role.stops <;> simp
    · simp [hk]

theorem State.mem_entered {ns : List LineId} : (n, g) ∈ s.entered ns ↔ s.stops g = true ∧ n ∈ ns ∧ StopLineOf s g n ∧
    ∀ k, k < n → k ∈ ns → ¬ StopLineOf s g k := by
  have hmem (k : LineId) : g ∈ (s.lines.at k).role.stopped k ↔ StopLineOf s g k := LineRole.mem_stopped
  simp only [State.entered, List.mem_filter, List.mem_flatMap, List.mem_map, Prod.mk.injEq, Bool.and_eq_true, List.all_eq_true,
    Bool.or_eq_true, decide_eq_true_eq, Bool.not_eq_true', decide_eq_false_iff_not, hmem]
  constructor
  · rintro ⟨⟨_, hn, _, hg, rfl, rfl⟩, hs, hfirst⟩
    exact ⟨hs, hn, (hmem _).1 hg, fun k hk hkn => (hfirst k hkn).resolve_left (not_le.2 hk)⟩
  · rintro ⟨hs, hn, hg, hfirst⟩
    exact ⟨⟨n, hn, g, (hmem n).2 hg, rfl, rfl⟩, hs, fun k hkn => or_iff_not_imp_left.2 fun hk => hfirst k (not_le.1 hk) hkn⟩

theorem LineRole.stopped_sorted (r : LineRole) (n : LineId) : (r.stopped n).Pairwise (· < ·) := by
  cases r
  case hallStop => exact List.pairwise_lt_finRange 4
  all_goals simp [LineRole.stopped]

theorem State.entered_sorted {ns : List LineId} (h : ns.Pairwise (· < ·)) (s : State) :
    (s.entered ns).Pairwise fun x y => x.1 < y.1 ∨ (x.1 = y.1 ∧ x.2 < y.2) := by
  refine List.Pairwise.filter _ (List.pairwise_flatMap.2 ⟨fun n _ => ?_, h.imp fun hlt x hx y hy => ?_⟩)
  · exact List.pairwise_map.2 (((s.lines.at n).role.stopped_sorted n).imp fun hlt => .inr ⟨rfl, hlt⟩)
  · obtain ⟨_, -, rfl⟩ := List.mem_map.1 hx
    obtain ⟨_, -, rfl⟩ := List.mem_map.1 hy
    exact .inl hlt

theorem State.takeSample_stops (h : newlyCombined s.lines (sampledLines s.lines pins) = []) :
    (∀ k, ((s.takeSample pins).lines.at k).edge = ((s.lines.at k).edge ||
      (decide (k ∈ newlyActive s.lines (sampledLines s.lines pins)) && (s.lines.at k).role.stops))) ∧
    StopsEntered ((s.entered (newlyActive s.lines (sampledLines s.lines pins))).map fun x =>
      (x.2, (s.lines.at x.1).role.cause x.1)) s (s.takeSample pins) := by
  have hcalm : s.sampleRace pins = false := Bool.eq_false_iff.2 fun hr => by
    obtain ⟨-, g, hg⟩ := State.sampleRace_iff.1 hr
    rw [h] at hg
    exact nomatch hg
  have hrole (k : LineId) : ((sampledLines s.lines pins).at k).role = (s.lines.at k).role := by
    rw [sampledLines_at, LineRecord.sampled_role]
  rw [State.takeSample_calm hcalm, h, List.foldl_nil]
  refine ⟨fun k => ?_, ?_⟩
  · rw [State.settle_lines, State.foldl_activate_edge, State.sampling_lines, hrole, sampledLines_at, LineRecord.sampled_edge]
  · have hrun := (StopsRun.foldl_activate _ (newlyActive_sorted s.lines (sampledLines s.lines pins))
      (s.sampling pins (sampledLines s.lines pins) s.choices)).sampled
    simp only [State.entered, State.stops, State.sampling_lines, State.sampling_fields, hrole] at hrun
    exact hrun.stopsEntered (.refl _) (State.settle_beacons _) (State.settle_mgmt _)

/-! ### A sample that brings no stop (R63, R64, R82) -/

theorem Combinations.settle {fs : List FieldId} (h : Combinations fs s t) : Combinations fs s t.settle where
  edge n := by rw [State.settle_lines]; exact h.edge n
  link := (State.settle_link t).trans h.link
  slots := (State.settle_slots t).trans h.slots
  fields g := by rw [State.settle_fields]; exact h.fields g
  urgent g := by rw [State.settle_beacons]; exact h.urgent g
  notices hl := by rw [State.settle_mgmt]; exact h.notices hl

theorem State.takeSample_combines
    (h : ∀ n ∈ newlyActive s.lines (sampledLines s.lines pins), (s.lines.at n).role.stops = false) :
    Combinations (newlyCombined s.lines (sampledLines s.lines pins))
      (s.sampling pins (sampledLines s.lines pins) s.choices) (s.takeSample pins) := by
  have hcalm : s.sampleRace pins = false := Bool.eq_false_iff.2 fun hr => by
    obtain ⟨⟨n, hn, hs⟩, -⟩ := State.sampleRace_iff.1 hr
    exact Bool.false_ne_true ((h n hn).symm.trans hs)
  rw [State.takeSample_calm hcalm, State.foldl_activate_silent fun n hn => by
    rw [State.sampling_lines, sampledLines_at, LineRecord.sampled_role]; exact h n hn]
  exact (Combinations.foldl ((newlyCombined_sorted _ _).imp fun h => h.ne) _).settle

theorem State.sampling_resumes : (s.sampling pins (sampledLines s.lines pins) choices).resumes g = true ↔
    Resumable s (s.takeSample pins).lines g := by
  rw [State.resumes_iff, State.sampling_lines]
  refine Resumable.congr (by rw [State.sampling_fields]) (fun n => ?_) (fun n _ => ?_) fun n _ => ?_
  · rw [State.sampling_lines, sampledLines_at, LineRecord.sampled_role]
  · rw [State.sampling_lines, sampledLines_at, LineRecord.sampled_edge]
  · exact ((SampleTaken.takeSample s pins).records n).symm

end

/-- Settles O27: a sample that brings no combination activates its lines in their order, one that brings no stop has its
combinations in the order A to D, and every sample filters each line once. -/
theorem lineSampleFilters : Obligations.LineSampleFilters := by
  intro s pins hm
  have htaken := SampleTaken.takeSample s (levelsOf pins)
  refine ⟨_, exec_lineSample hm pins, htaken.sampleLeft, fun n => ?_, htaken.toLineKeeps, fun n => ?_, fun hnone => ?_,
    fun hsilent => ?_⟩
  · rw [htaken.pins, levelsOf_at]
  · obtain ⟨hrole, hlevel, hon, hfiltered, hprevious⟩ := htaken.records n
    rw [sampledLines_at] at hrole hlevel hon hfiltered hprevious
    refine ⟨hrole.trans (LineRecord.sampled_role _ _), hlevel.trans (LineRecord.sampled_activeLevel _ _),
      hon.trans (LineRecord.sampled_filterOn _ _), fun h => ?_, fun h => ?_⟩
    · rw [LineRecord.sampled_unfiltered h] at hfiltered hprevious
      exact ⟨hfiltered, hprevious⟩
    · rw [LineRecord.sampled_filtered h, levelsOf_at] at hfiltered hprevious
      exact ⟨hprevious, hfiltered⟩
  · have hno : newlyCombined s.lines (sampledLines s.lines (levelsOf pins)) = [] :=
      List.eq_nil_iff_forall_not_mem.2 fun g hg =>
        (mem_newlyCombined_sampled.1 hg).2 (hnone g (mem_newlyCombined_sampled.1 hg).1)
    obtain ⟨hedge, hstops⟩ := State.takeSample_stops hno
    refine ⟨fun n => ?_, _, State.entered_sorted (newlyActive_sorted _ _) s, fun n g => ?_, hstops⟩
    · rw [hedge, Bool.or_eq_true, Bool.and_eq_true, decide_eq_true_iff, mem_newlyActive_sampled, LineRole.stops_iff]
    · simp only [State.mem_entered, State.stops_iff, mem_newlyActive_sampled, and_assoc]
  · have hcomb := State.takeSample_combines (s := s) (pins := levelsOf pins) fun n hn => by
      rw [Bool.eq_false_iff, ne_eq, LineRole.stops_iff, not_or]
      exact hsilent n (mem_newlyActive_sampled.1 hn)
    obtain ⟨hedge, hlink, hslots, hfields, hurgent, hnotices⟩ := hcomb
    refine ⟨fun n => ?_, hlink.trans State.sampling_link, hslots.trans State.sampling_slots, _,
      (newlyCombined_sorted _ _).filter _, fun g => ?_, fun g => ⟨?_, ?_⟩, hnotices⟩
    · rw [hedge, State.sampling_lines, sampledLines_at, LineRecord.sampled_edge, LineRecord.sampled_role]
      simp [mem_newlyCombined_sampled, imp_iff_not_or]
    · rw [List.mem_filter, mem_newlyCombined_sampled, State.sampling_resumes, and_assoc]
    · rw [hfields, State.sampling_fields]
    · rw [hurgent, State.sampling_beacons]

end Sys2Proof.Machine
end

section
/-! SUPPORT. LOAD_LINE and CLEAR_LINE_FLAGS: the operands, the tests in their order, and the effects (R78, R83). -/

namespace Sys2Proof.Machine

open Sys2Proof

/-! ### Operands (R197) -/

theorem lineOf_range {b : Byte} (h : 16 ≤ b.toNat) : lineOf b = none := dif_neg (Nat.not_lt.2 h)

theorem lineOf_byte (n : LineId) : lineOf (byte n.val) = some n := by
  have hn : (byte n.val).toNat = n.val := Nat.mod_eq_of_lt (by omega)
  simp [lineOf, hn]

theorem lineRecordOf_unnamedBit {b : Byte} (h : 32 ≤ b.toNat) : lineRecordOf b = none := if_neg (Nat.not_lt.2 h)

theorem lineRecordOf_noRole {b : Byte} (h : 4 ≤ b.toNat % 8) : lineRecordOf b = none := by
  obtain h | h | h | h : b.toNat % 8 = 4 ∨ b.toNat % 8 = 5 ∨ b.toNat % 8 = 6 ∨ b.toNat % 8 = 7 := by omega
  all_goals simp [lineRecordOf, h]

/-- The part reads back the record byte that it sends (section 11.3). -/
theorem lineRecordOf_code (role : LineRole) (level : Level) (filter : Bool) :
    lineRecordOf (byte (role.code + 8 * Level.code level + 16 * bit filter)) = some (role, level, filter) := by
  cases role <;> cases level <;> cases filter <;> rfl

/-! ### LOAD_LINE (R83) -/

section
variable {s : State} {a b : Byte} {n : LineId} {role : LineRole} {level : Level} {filter : Bool}

theorem runLoadLine_range (h : 16 ≤ a.toNat ∨ 32 ≤ b.toNat ∨ 4 ≤ b.toNat % 8) : runLoadLine s [a, b] = .error .range := by
  rcases h with h | h | h
  · simp only [runLoadLine, lineOf_range h]
  · rw [runLoadLine, lineRecordOf_unnamedBit h]
    cases lineOf a <;> rfl
  · rw [runLoadLine, lineRecordOf_noRole h]
    cases lineOf a <;> rfl

/-- A load within its values is refused, or writes the record (R83). -/
theorem runLoadLine_inRange (ha : a = byte n.val) (hb : b = byte (role.code + 8 * Level.code level + 16 * bit filter)) :
    runLoadLine s [a, b] = (s.lineRefusal n role).elim (.ok (s.applyLine n role level filter, [])) .error := by
  subst ha hb
  simp only [runLoadLine, lineOf_byte, lineRecordOf_code]
  cases s.lineRefusal n role <;> rfl

theorem State.lineRefusal_live (h : (s.fields.at (lineField n)).phase ≠ .idle) : s.lineRefusal n role = some .fieldLive :=
  if_pos h

/-- A hall stop is loaded or given up only while every field is IDLE (R83). -/
theorem State.lineRefusal_hall (hr : (s.lines.at n).role = .hallStop ∨ role = .hallStop)
    (h : ∃ g, (s.fields.at g).phase ≠ .idle) : s.lineRefusal n role = some .fieldLive := by
  have hlive : s.allIdle = false := by
    rw [Bool.eq_false_iff, ne_eq, State.allIdle_iff, not_forall]
    exact h
  rw [State.lineRefusal, if_pos (c := _ ∧ _) ⟨hr, hlive⟩, ite_self]

theorem State.lineRefusal_passed (hf : (s.fields.at (lineField n)).phase = .idle)
    (h : (s.lines.at n).role = .hallStop ∨ role = .hallStop → ∀ g, (s.fields.at g).phase = .idle) :
    s.lineRefusal n role = none := by
  rw [State.lineRefusal, if_neg (not_not.2 hf), if_neg]
  rintro ⟨hr, hlive⟩
  exact Bool.false_ne_true (hlive.symm.trans (State.allIdle_iff.2 (h hr)))

end

/-! ### CLEAR_LINE_FLAGS (R78) -/

section
variable {s : State} {b : Byte}

theorem State.clearFlags_at (s : State) (p : LineId → Bool) (n : LineId) :
    (s.clearFlags p).lines.at n = { s.lines.at n with edge := if p n then false else (s.lines.at n).edge } := by
  rw [State.clearFlags_lines, clearEdges, Table.at_ofFn]
  split <;> rfl

theorem runClearLineFlags_range (h : 4 ≤ b.toNat) (hb : b ≠ 0xFF#8) : runClearLineFlags s [b] = .error .range := by
  simp only [runClearLineFlags, if_neg hb, fieldOf_range h]

theorem fieldByte_ne_all (g : FieldId) : fieldByte g ≠ 0xFF#8 := fun h => nomatch h ▸ fieldOf_fieldByte g

theorem runClearLineFlags_field (s : State) (g : FieldId) :
    runClearLineFlags s [fieldByte g] = .ok (s.clearFlags fun n => lineField n == g, []) := by
  simp only [runClearLineFlags, if_neg (fieldByte_ne_all g), fieldOf_fieldByte]

theorem runClearLineFlags_all (s : State) : runClearLineFlags s [0xFF#8] = .ok (s.clearFlags fun _ => true, []) := rfl

end

/-- Settles O26: the operands decide RANGE, the phases FIELD-LIVE, and what passes writes lines alone. -/
theorem lineCommands : Obligations.LineCommands := by
  refine ⟨fun s f rest a b h => ⟨fun hr => congrArg Host.Outcome.next (h.refused rfl _ (runLoadLine_range hr)),
      fun n role level filter ha hb => ?_⟩,
    fun s f rest b h => ⟨fun hb hall => congrArg Host.Outcome.next (h.refused rfl _ (runClearLineFlags_range hb hall)),
      ?_, ?_⟩⟩
  · have hrun := runLoadLine_inRange (s := s.taken rest) ha hb
    refine ⟨fun hl => ?_, fun hr hl => ?_, fun hf hr => ?_⟩
    · rw [State.lineRefusal_live (s := s.taken rest) hl] at hrun
      exact congrArg Host.Outcome.next (h.refused rfl _ hrun)
    · rw [State.lineRefusal_hall (s := s.taken rest) hr hl] at hrun
      exact congrArg Host.Outcome.next (h.refused rfl _ hrun)
    · rw [State.lineRefusal_passed (s := s.taken rest) hf hr] at hrun
      exact congrArg Host.Outcome.next (h.done rfl _ hrun)
  · rintro g rfl
    refine ⟨_, congrArg Host.Outcome.next (h.done rfl _ (runClearLineFlags_field _ g)), fun n => ?_, rfl⟩
    exact ((s.taken rest).clearFlags_at _ n).trans (by simp only [beq_iff_eq]; rfl)
  · rintro rfl
    exact ⟨_, congrArg Host.Outcome.next (h.done rfl _ (runClearLineFlags_all _)),
      (s.taken rest).clearFlags_at fun _ => true, rfl⟩

end Sys2Proof.Machine
end

section
/-! SUPPORT. Device reset: the values it leaves, and the part while RSTN is held low (R73, R191, R192). -/

namespace Sys2Proof.Machine

open Sys2Proof

/-! ### The part at rest in STARTING (R191) -/

/-- The part in STARTING while RSTN is held low, with nothing received, nothing to send, no match, no element loaded and the
bus idle: what each row looks at before it acts. -/
structure State.AtRest (s : State) : Prop where
  starting : s.mgmt.mode = .starting
  held : s.loader.stage = .inReset
  receiver : s.link.receiver = .hunting
  store : s.link.store = []
  transmitter : s.link.transmitter = .free
  take : s.nextTake = none
  phase : ∀ f, (s.fields.at f).phase = .idle
  placing : ∀ i, (s.slots.at i).placing = none
  unloaded : ∀ e, s.loadedAt e = none
  activity : s.bus.activity = .idle
  probeLeft : s.bus.probeLeft = none

namespace State.AtRest

variable {s : State} (h : s.AtRest)
include h

theorem inReset : s.inReset = true := beq_iff_eq.2 h.held

theorem timersRun : s.timersRun = false := by
  simp [State.timersRun, h.starting]

/-- The Traffic Gate takes no frame in STARTING (R28). -/
theorem headFrame : s.headFrame = none := if_pos h.starting

theorem manageHead : s.manageHead = none := by
  simp only [State.manageHead, h.headFrame]

theorem runningIn (f : FieldId) {p : Phase} (hp : .idle ≠ p) : s.runningIn f p = false := by
  rw [State.runningIn, h.phase, beq_false_of_ne hp, Bool.false_and]

theorem lastPhase (f : FieldId) : (s.fields.at f).lastPhase = false := by
  simp [MatchRecord.lastPhase, h.phase]

theorem command (code : Byte) (n : Nat) (run : State → List Byte → Answer) : s.command code n run = s := by
  simp only [State.command, h.manageHead]

theorem manage {c : Instr} (hc : c ∈ commandTable.map Prod.fst) : exec c s = .next s := by
  obtain ⟨⟨c, code, n⟩, hm, rfl⟩ := List.mem_map.mp hc
  obtain ⟨run, hx, -⟩ := exec_command hm
  rw [hx, h.command]

theorem completeAnswer (k : BusCommand) (edge : BusEdge) : s.completeAnswer k edge = s := by
  simp only [State.completeAnswer, State.completesAnswer, h.activity]

theorem passSilence (i : SlotId) : s.passSilence i = s :=
  if_neg fun hc => by simp [State.inTimedPhase, State.slotField, h.placing] at hc

/-- While RSTN is held low no row acts, but for another device reset and the level of a pin (R191). -/
theorem exec {c : Instr} (hreset : ∀ level, c ≠ .deviceReset level) (hpin : ∀ n v, c ≠ .unfilteredLineChange n v) :
    exec c s = .next s := by
  cases c
  case deviceReset rstn => exact absurd rfl (hreset rstn)
  case unfilteredLineChange n v => exact absurd rfl (hpin n v)
  case endOfStarting image fill => simp [Machine.exec, execEndOfStarting, h.inReset]
  case frameComplete | overlong => simp only [Machine.exec, execFrameComplete, execOverlong, h.receiver]
  case framing | characterReceived => simp only [Machine.exec, execFraming, execCharacterReceived, h.inReset, if_true]
  case truncated => exact congrArg Host.Outcome.next (State.abandonFrame_hunting h.receiver _)
  case startingFrame => simp only [Machine.exec, execStartingFrame, h.starting, h.store]
  case droppedFrame | drive | tell | claim | release =>
    simp only [Machine.exec, execDroppedFrame, execDrive, execTell, execClaim, execRelease, h.headFrame]
  case unknownCommand => simp only [Machine.exec, execUnknownCommand, h.manageHead]
  case commission | decommission | restart | loadStation | clearStation | loadSlot | clearSlot | loadMatch | start | stop |
      resume | abort | commit | resetMatch | disableSlot | bypassSlot | loadLine | clearLineFlags | loadElement |
      clearElementEntry | clearElementFault | loadScoreRule | penalty | correct | setTiming | busPause | busResume | read |
      readNext => exact h.manage (by decide)
  case takeBeacon | takeVerdict | takeDrive | takeReply | takeNotice | takeTell =>
    simp only [Machine.exec, execTakeBeacon, execTakeVerdict, execTakeDrive, execTakeReply, execTakeNotice, execTakeTell,
      h.take]
  case frameSent | transmitterFree => simp only [Machine.exec, execFrameSent, execTransmitterFree, h.transmitter]
  case autoExpiry | pauseExpiry | endgameBoundary =>
    simp [Machine.exec, execAutoExpiry, execPauseExpiry, execEndgameBoundary, h.runningIn]
  case matchEndExpiry f => simp [Machine.exec, execMatchEndExpiry, h.lastPhase]
  case postGraceEnd f => simp [Machine.exec, execPostGraceEnd, h.phase]
  case holdExpiry e => simp [Machine.exec, execHoldExpiry, State.expireHold, h.unloaded]
  case budgetTick | beaconPeriod | lineSample =>
    simp [Machine.exec, execBudgetTick, execBeaconPeriod, execLineSample, h.timersRun]
  case silentTimeout i => exact congrArg Host.Outcome.next (h.passSilence i)
  case actionLimit e => simp [Machine.exec, execActionLimit, State.busyAt, h.unloaded]
  case resendCountdown | actionPollCountdown | sensorCountdown =>
    simp [Machine.exec, execResendCountdown, execActionPollCountdown, execSensorCountdown, h.unloaded]
  case probeCountdown => simp [Machine.exec, execProbeCountdown, h.probeLeft]
  case busRestEnd | masterFrameEnd | answerWindowExpiry | answerCutOff | answerCharacter =>
    simp only [Machine.exec, execBusRestEnd, execMasterFrameEnd, execAnswerWindowExpiry, execAnswerCutOff, execAnswerCharacter,
      h.activity]
  case probeAnswer edge | actuateAnswer edge | actionPollAnswer edge | sensorPollAnswer edge | fetchAnswer edge |
      safeAnswer edge => exact congrArg Host.Outcome.next (h.completeAnswer _ edge)

/-- A pin is an input, and keeps moving; no row else leaves a trace (R73, R191). -/
theorem exec_pins {c : Instr} (hreset : ∀ level, c ≠ .deviceReset level) :
    ∃ u, Machine.exec c s = .next u ∧ u = { s with pins := u.pins } := by
  by_cases hpin : ∃ n v, c = .unfilteredLineChange n v
  · obtain ⟨n, v, rfl⟩ := hpin
    exact ⟨{ s with pins := s.pins.put n v }, by simp [Machine.exec, execUnfilteredLineChange, h.timersRun], rfl⟩
  · exact ⟨s, h.exec hreset fun n v hc => hpin ⟨n, v, hc⟩, rfl⟩

/-- With no command waiting the part does nothing of its own while RSTN is held low (R191). -/
theorem step (hp : s.pending = []) : step s = .next s := by
  have hframe : s.frameRow = none := by simp [State.frameRow, h.store]
  have hitem : s.takeRow = none := by simp [State.takeRow, h.take]
  have htick : s.tick = s := by simp [State.tick, State.readStep, h.timersRun, h.held]
  simp only [Machine.step, hp, ownStep, hframe, hitem, htick]

end State.AtRest

/-! ### What device reset leaves (R191) -/

theorem State.deviceReset_nextTake (s : State) (rstn : Level) : (s.deviceReset rstn).nextTake = none := by
  have hnone (f : FieldId) : (Table.fill 4 false).at f = false := Table.at_fill _ f
  exact State.nextTake_nothing rfl (lowestMarked_eq_none hnone) rfl
    (State.nextHeld_eq_none fun i => congrArg Slot.held (State.reset_slots i)) (lowestMarked_eq_none hnone) rfl rfl rfl

theorem State.AtRest.deviceReset (s : State) : (s.deviceReset .low).AtRest where
  starting := rfl
  held := rfl
  receiver := rfl
  store := rfl
  transmitter := rfl
  take := s.deviceReset_nextTake .low
  phase f := congrArg MatchRecord.phase (State.reset_fields f)
  placing i := congrArg Slot.placing (State.reset_slots i)
  unloaded e := congrArg Element.loaded (Table.at_fill Element.empty e)
  activity := rfl
  probeLeft := rfl

theorem linesFromPins_at (pins : Table 16 Level) (n : LineId) :
    (linesFromPins pins).at n = LineRecord.default n (pins.at n) := Table.at_ofFn _ n

/-- Settles O5: each part of the state has its reset value, and with RSTN low the part is at rest. -/
theorem deviceResetResult : Obligations.DeviceResetResult := by
  intro s rstn
  have helement (e : ElementId) : (s.deviceReset rstn).elements.at e = .empty := Table.at_fill Element.empty e
  have hfield (f : FieldId) : (s.deviceReset rstn).fields.at f = .afterReset := State.reset_fields f
  have htally (f : FieldId) : (s.deviceReset rstn).tallies.at f = .zero := Table.at_fill FieldTally.zero f
  have hmark (f : FieldId) : (Table.fill 4 false).at f = false := Table.at_fill _ f
  refine ⟨s.deviceReset rstn, rfl, rfl, rfl, rfl, State.reset_slots, rfl, fun f => ?_, fun f => ?_,
    linesFromPins_at s.pins, fun e => ?_, rfl, fun f => ⟨hmark f, hmark f⟩, rfl, rfl, rfl, rfl, rfl, rfl, rfl, ?_, ?_⟩
  · rw [hfield]
    exact ⟨rfl, rfl, rfl, rfl, rfl, rfl, rfl, fun k => Table.at_fill _ k, rfl, rfl, rfl, rfl⟩
  · rw [htally]
    exact ⟨rfl, rfl, rfl, rfl, rfl, rfl⟩
  · rw [State.loadedAt_def, helement]
    exact ⟨rfl, fun k => Table.at_fill _ k, rfl⟩
  · rintro rfl
    exact ⟨rfl, rfl, rfl⟩
  · rintro rfl
    have hrest := State.AtRest.deviceReset s
    exact ⟨rfl, rfl, rfl, State.AtRest.step { hrest with } rfl, fun c hc => hrest.exec_pins hc⟩

end Sys2Proof.Machine
end

section
/-! SUPPORT. The end of STARTING without a valid image: the head applied, an empty Element Table, and the start of the bus,
timers and marks (R85, R192 to R196). -/

namespace Sys2Proof.Machine

open Sys2Proof

section
variable {s : State}

/-! ### The frame in progress (R8, R196) -/

theorem State.abandonFrame_eq (s : State) (e : LinkError) : s.abandonFrame e = { s with link := (s.abandonFrame e).link } := by
  unfold State.abandonFrame
  split <;> rfl

/-- A frame in progress ends, and counts as TRUNCATED; nothing else of the link changes (R8, R10). -/
theorem State.truncated_link (s : State) : (s.abandonFrame .truncated).link = { s.link with
    receiver := .hunting
    counters := { s.link.counters with truncated :=
      if s.link.receiver = .hunting then s.link.counters.truncated else min 65535 (s.link.counters.truncated + 1) } } := by
  cases hr : s.link.receiver with
  | hunting => rw [State.abandonFrame_hunting hr, if_pos rfl, ← hr]
  | inFrame got => rw [State.abandonFrame_inFrame hr]; rfl

/-! ### The head (R73, R194) -/

/-- The lines `ns` take new settings one after another (R194). -/
def State.applyLines (s : State) (line : LineId → LineRole × Level × Bool) (ns : List LineId) : State :=
  ns.foldl (fun s n => s.applyLine n (line n).1 (line n).2.1 (line n).2.2) s

theorem State.applyLines_cons (s : State) (line : LineId → LineRole × Level × Bool) (n : LineId) (ns : List LineId) :
    s.applyLines line (n :: ns) = (s.applyLine n (line n).1 (line n).2.1 (line n).2.2).applyLines line ns := rfl

theorem State.applyLines_eq (line : LineId → LineRole × Level × Bool) (ns : List LineId) (s : State) :
    s.applyLines line ns = { s with lines := (s.applyLines line ns).lines } := by
  induction ns generalizing s with
  | nil => rfl
  | cons n ns ih => rw [State.applyLines_cons, ih]; rfl

theorem State.applyLines_at (line : LineId → LineRole × Level × Bool) (ns : List LineId) (s : State) (n : LineId) :
    (s.applyLines line ns).lines.at n =
      if n ∈ ns then ⟨(line n).1, (line n).2.1, (line n).2.2, s.pins.at n, s.pins.at n, false⟩ else s.lines.at n := by
  induction ns generalizing s with
  | nil => rfl
  | cons m ns ih =>
    rw [State.applyLines_cons, ih]
    by_cases hn : n ∈ ns
    · rw [if_pos hn, if_pos (List.mem_cons_of_mem m hn), State.applyLine_pins]
    · by_cases hm : n = m
      · subst hm
        simp [hn, State.applyLine]
      · simp [hn, hm, State.applyLine]

/-- The record of each line once the head is applied (R83, R194). -/
def linesSet (line : LineId → LineRole × Level × Bool) (pins : Table 16 Level) : Table 16 LineRecord :=
  Vector.ofFn fun n : Fin 16 => ⟨(line n).1, (line n).2.1, (line n).2.2, pins.at n, pins.at n, false⟩

theorem linesSet_default (pins : Table 16 Level) : linesSet defaultLine pins = linesFromPins pins := rfl

/-- The head writes the link, the timings and the lines, and nothing else (R194, R196). -/
theorem State.applyHead_eq (s : State) (rate : ArenaRate) (own console : Byte) (t : Timing)
    (line : LineId → LineRole × Level × Bool) : s.applyHead rate own console t line =
      { s with link := { (s.abandonFrame .truncated).link with rate, own, console }, timing := t
               lines := linesSet line s.pins } := by
  have hlines (u : State) : (u.applyLines line (allOf 16)).lines = linesSet line u.pins := Table.ext fun n => by
    rw [State.applyLines_at, if_pos (mem_allOf n), linesSet, Table.at_ofFn]
  refine (State.applyLines_eq line (allOf 16) _).trans ?_
  rw [hlines]
  rw [State.abandonFrame_eq]
  rfl

/-! ### The start (R128, R138, R196) -/

/-- Without a loaded element the bus arbiter finds nothing to do, and the probe turn is cleared (R128, R138). -/
theorem State.settle_unloaded (h : ∀ e, (s.elements.at e).loaded = none) :
    s.settle = { s with bus := { s.bus with probeTurn := false } } := by
  have hcand : s.probeCandidate = none := State.probeCandidate_eq_none.2 fun k m hk => nomatch (h k).symm.trans hk
  rw [State.settle_nothing (.inr (.inr fun e l c hd => nomatch (h e).symm.trans hd.loaded)), State.clearIdleTurn,
    if_pos hcand]
  rfl

/-- With an empty Element Table, STARTING ends in this state: mode and notice, the bus RUNNING with nothing to probe, and
every timer at its period (R196). -/
theorem State.leaveStarting_unloaded (h : ∀ e, (s.elements.at e).loaded = none) (valid : Bool) (skipped : Nat) :
    s.leaveStarting valid skipped =
      { s with
        mgmt := ((s.setMode .uncommissioned).queueNotice (.settings valid skipped)).mgmt
        bus := { s.bus with state := .running, probeTurn := false, probeLeft := some s.timing.probe }
        beacons := { s.beacons with routine := Table.fill 4 true, left := some s.timing.beacon }
        sampleLeft := some s.timing.sample, budgetLeft := some 10, loader := .finished } := by
  unfold State.leaveStarting
  rw [State.settle_unloaded (by exact h), State.queueNotice_eq]
  rfl

end

/-! ### The defaults (R73, R193, R196) -/

/-- The state in which STARTING ends when there is no valid image (R196). -/
def State.startedByDefault (s : State) : State :=
  { s with
    link := { s.link with
      rate := .mbit1, own := 0xF0#8, console := 0xFA#8, receiver := .hunting
      counters := { s.link.counters with truncated :=
        if s.link.receiver = .hunting then s.link.counters.truncated else min 65535 (s.link.counters.truncated + 1) } }
    timing := .default, lines := linesFromPins s.pins, elements := Table.fill 48 .empty
    mgmt := ((s.setMode .uncommissioned).queueNotice (.settings false 0)).mgmt
    bus := { s.bus with state := .running, probeTurn := false, probeLeft := some 200 }
    beacons := { s.beacons with routine := Table.fill 4 true, left := some 100 }
    sampleLeft := some 4, budgetLeft := some 10, loader := .finished }

/-- Without entries of an image the Element Table is empty (R85, R195). -/
theorem State.loadEntries_nil_loaded (s : State) (e : ElementId) : ((s.loadEntries []).1.elements.at e).loaded = none :=
  congrArg Element.loaded (Table.at_fill Element.empty e)

theorem Loader.image_none {l : Loader} {rest : List Byte} {fill : Byte}
    (h : l.stage = .failed ∨ validImage (l.buffer ++ rest) fill = none) : l.image rest fill = none := by
  unfold Loader.image
  split
  · rfl
  · next hs => exact h.resolve_left hs

theorem State.endStarting_default {s : State} {image : List Byte} {fill : Byte} (h : s.loader.image image fill = none) :
    s.endStarting image fill = s.startedByDefault := by
  simp only [State.endStarting, h]
  rw [State.leaveStarting_unloaded (State.loadEntries_nil_loaded _), State.applyHead_eq, State.truncated_link]
  rfl

theorem exec_endOfStarting {s : State} (hm : s.mgmt.mode = .starting) (hr : s.loader.stage ≠ .inReset) (image : List Byte)
    (fill : Bool) : exec (.endOfStarting image fill) s = .next (s.endStarting image (if fill then 0xFF else 0x00)) :=
  congrArg Host.Outcome.next (if_pos ⟨hm, beq_false_of_ne hr⟩)

/-- Settles O7: without a valid image the row answers `State.startedByDefault`, read part by part. -/
theorem endOfStartingDefaults : Obligations.EndOfStartingDefaults := by
  intro s image fill hm hr himage
  have hempty (e : ElementId) : s.startedByDefault.elements.at e = .empty := Table.at_fill Element.empty e
  refine ⟨s.startedByDefault, ?_, ?_, rfl, rfl, rfl, rfl, rfl, rfl, rfl, rfl, linesFromPins_at s.pins, fun e => ?_, rfl, rfl,
    fun f => Table.at_fill _ f, rfl, rfl, rfl, rfl, rfl, fun hn => ?_, rfl, rfl, rfl, rfl, rfl, rfl, rfl⟩
  · rw [exec_endOfStarting hm hr, State.endStarting_default (Loader.image_none himage)]
  · exact State.queueNotice_mode _ _
  · rw [State.loadedAt_def, hempty]
    exact ⟨rfl, fun k => Table.at_fill _ k⟩
  · exact congrArg Mgmt.notices (State.queueNotice_room (s.setMode .uncommissioned) (.settings false 0) hn)

end Sys2Proof.Machine
end

section
/-! SUPPORT. Changes of presence, misses, and the bus arbiter on an element that is not PRESENT (R108, R125, R128, R139, R143). -/

namespace Sys2Proof.Machine

open Sys2Proof

section
variable {s : State} {e : ElementId} {l m : Loaded} {p : Presence}

/-! ### A change of presence (R108, R143) -/

/-- What a change of presence to `p`, other than PRESENT, leaves of an element kept as `l`: the presence alone is written, but an
element that leaves PRESENT has no actuation, queue, hold or FETCH mark any more. -/
structure Loaded.Gone (l m : Loaded) (p : Presence) : Prop where
  presence : m.presence = p
  misses : m.misses = l.misses
  actToggle : m.actToggle = l.actToggle
  fetchToggle : m.fetchToggle = l.fetchToggle
  retries : m.retries = l.retries
  elsewhere : l.presence ≠ .present → m = { l with presence := p }
  lost : l.presence = .present → m.act = none ∧ m.hold = none ∧ m.claims = [] ∧ m.fetchMark = false

theorem Loaded.withPresence_elsewhere (h : l.presence ≠ .present) (hp : p ≠ .present) (n : Nat) :
    l.withPresence p n = { l with presence := p } := by
  unfold Loaded.withPresence
  rw [if_neg h]
  dsimp only
  rw [if_neg fun hn => hp hn.1]

theorem Loaded.withPresence_leaves (h : l.presence = .present) (hp : p ≠ .present) (n : Nat) :
    l.withPresence p n = { l.leavePresent with presence := p } := by
  unfold Loaded.withPresence
  rw [if_pos h]
  dsimp only
  rw [if_neg fun hn => hp hn.1]

theorem State.setPresence_spec (hl : s.loadedAt e = some l) (p : Presence) :
    (s.setPresence e p).loadedAt e = some (l.withPresence p s.timing.sensor) ∧
    (s.setPresence e p).bus = (if p = .absent then (s.dropSafe e).bus else s.bus) ∧ (s.setPresence e p).mgmt = s.mgmt ∧
    (s.setPresence e p).link = s.link ∧ (s.setPresence e p).slots = s.slots := by
  unfold State.setPresence
  split <;> simp [hl]

/-- A change of an element's presence to another than PRESENT (R139, R143). -/
theorem State.changePresence_spec (hl : s.loadedAt e = some l) (hp : p ≠ .present) :
    (∃ m, (s.changePresence e p).loadedAt e = some m ∧ l.Gone m p) ∧
    (s.changePresence e p).bus = (if p = .absent then (s.dropSafe e).bus else s.bus) ∧
    (s.changePresence e p).mgmt = (s.queueNotice (.element e p)).mgmt ∧
    (l.presence ≠ .present → (s.changePresence e p).link = s.link ∧ (s.changePresence e p).slots = s.slots) := by
  obtain ⟨hat, hbus, hmgmt, hlink, hslots⟩ := State.setPresence_spec hl p
  have heq : s.changePresence e p = ((s.setPresence e p).reportLoss e l.presence p).queueNotice (.element e p) := by
    unfold State.changePresence
    rw [hl]
  rw [heq, State.queueNotice_bus, State.queueNotice_link, State.queueNotice_slots, ← hbus]
  unfold State.queueNotice State.reportLoss
  rw [State.updMgmt_mgmt, State.updMgmt_mgmt, ← hmgmt]
  by_cases h : l.presence = .present
  · have hkeep := ArbiterKeeps.elementLost (s.setPresence e p) e p.lossReason
    obtain ⟨m, hm, hact, hhold, hclaims, hside, -⟩ := State.elementLost_spec hat (by
      rw [Loaded.withPresence_leaves h hp]
      exact hp) p.lossReason
    rw [if_pos h]
    refine ⟨⟨m, hm, ?_⟩, hkeep.bus, by rw [hkeep.mgmt], fun hn => absurd h hn⟩
    rw [Loaded.withPresence_leaves h hp] at hside
    injection hside with hentry hpresence hmisses hactToggle hfetchToggle hretries hfetchMark
    exact ⟨hpresence, hmisses, hactToggle, hfetchToggle, hretries, fun hn => absurd h hn,
      fun _ => ⟨hact, hhold, hclaims, hfetchMark⟩⟩
  · rw [if_neg h]
    refine ⟨⟨_, hat, ?_⟩, rfl, rfl, fun _ => ⟨hlink, hslots⟩⟩
    rw [Loaded.withPresence_elsewhere h hp]
    exact ⟨rfl, rfl, rfl, rfl, rfl, fun _ => rfl, fun hn => absurd hn h⟩

/-! ### Misses (R125) -/

theorem State.countMiss_few (hl : s.loadedAt e = some l) (h : l.misses + 1 < 3) :
    s.countMiss e = s.setMisses e (l.misses + 1) := by
  unfold State.countMiss
  rw [hl]
  exact if_pos h

/-- The third miss (R108, R125). -/
theorem State.countMiss_third (hl : s.loadedAt e = some l) (h : 3 ≤ l.misses + 1) :
    ∃ m, (s.countMiss e).loadedAt e = some m ∧ m.misses = 3 ∧ m.actToggle = l.actToggle ∧ m.fetchToggle = l.fetchToggle ∧
      e ∉ (s.countMiss e).bus.safeQueue ∧ (s.countMiss e).bus.activity = s.bus.activity ∧
      (l.presence = .unknown ∨ l.presence = .present → m.presence = .absent ∧
        (s.countMiss e).mgmt = (s.queueNotice (.element e .absent)).mgmt) ∧
      (l.presence = .present → m.act = none ∧ m.hold = none ∧ m.claims = [] ∧ m.fetchMark = false) := by
  have heq : s.countMiss e = ((s.setMisses e 3).becomeAbsent e l.presence).dropSafe e := by
    unfold State.countMiss
    rw [hl]
    exact if_neg (Nat.not_lt.2 h)
  have hat : (s.setMisses e 3).loadedAt e = some { l with misses := 3 } := by
    rw [State.setMisses, State.updLoaded_loadedAt_same, hl, Option.map_some]
  have hout (t : State) : e ∉ (t.dropSafe e).bus.safeQueue := by simp
  rw [heq, State.dropSafe_loadedAt]
  by_cases hp : l.presence = .unknown ∨ l.presence = .present
  · have hchange : (s.setMisses e 3).becomeAbsent e l.presence = (s.setMisses e 3).changePresence e .absent := by
      rcases hp with hp | hp <;> rw [hp] <;> rfl
    obtain ⟨⟨m, hm, hgone⟩, hbus, hmgmt, -⟩ := State.changePresence_spec hat (p := .absent) nofun
    rw [hchange]
    exact ⟨m, hm, hgone.misses, hgone.actToggle, hgone.fetchToggle, hout _, by rw [State.dropSafe_bus, hbus]; rfl,
      fun _ => ⟨hgone.presence, hmgmt⟩, hgone.lost⟩
  · have hstay : (s.setMisses e 3).becomeAbsent e l.presence = s.setMisses e 3 := by
      unfold State.becomeAbsent
      split
      · next h => exact absurd (.inr h) hp
      · next h => exact absurd (.inl h) hp
      all_goals rfl
    rw [hstay]
    exact ⟨_, hat, rfl, rfl, rfl, hout _, rfl, fun hn => absurd hn hp, fun hn => absurd (.inr hn) hp⟩

/-- What a miss calls for again: the FETCH mark of a missed FETCH, or a countdown (R134, R136, R137). -/
theorem State.missedAgain_spec (hl : s.loadedAt e = some l) (c : BusCommand) :
    ∃ m, (if l.isPresent then s.missedAgain e c else s).loadedAt e = some m ∧
      m = { l with fetchMark := l.fetchMark || (l.isPresent && decide (c = .fetch))
                   actionPoll := m.actionPoll, sensor := m.sensor } ∧
      (if l.isPresent then s.missedAgain e c else s) =
        { s with elements := (if l.isPresent then s.missedAgain e c else s).elements } := by
  cases hp : l.isPresent with
  | false => exact ⟨l, hl, by simp, rfl⟩
  | true =>
    simp only [if_true]
    cases c with
    | fetch => exact ⟨{ l with fetchMark := true }, by simp [State.missedAgain, State.setFetch, hl], by simp, rfl⟩
    | actionPoll =>
      exact ⟨_, by simp [State.missedAgain, State.restartActionPoll, hl]; rfl, by split <;> simp, rfl⟩
    | sensorPoll => exact ⟨_, by simp [State.missedAgain, State.restartSensor, hl]; rfl, by split <;> simp, rfl⟩
    | probe | actuate | safe => exact ⟨l, hl, by simp, rfl⟩

/-! ### The bus arbiter (R128) -/

/-- What the start of a PROBE or a SAFE writes in its element is nothing, and no other transaction is due for an element that is
not PRESENT (R128). -/
theorem State.settle_notPresent (hl : s.loadedAt e = some l) (hp : l.presence ≠ .present) : s.settle.loadedAt e = some l := by
  rcases State.settle_get_due hl with h | ⟨c, hf, h, -⟩
  · exact h
  · have hdue := hf.due
    rw [h]
    cases c with
    | probe | safe => rfl
    | actuate | fetch | actionPoll | sensorPoll => exact absurd hdue.1 hp

end

end Sys2Proof.Machine
end

section
/-! SUPPORT. LOAD_ELEMENT, CLEAR_ELEMENT_ENTRY and CLEAR_ELEMENT_FAULT: the operands, the tests in their order, and the effects
(R86 to R88, R126, R139, R141, R144). -/

namespace Sys2Proof.Machine

open Sys2Proof

/-! ### Operands (R86, R197) -/

theorem elementOf_range {b : Byte} (h : 48 ≤ b.toNat) : elementOf b = none := dif_neg (Nat.not_lt.2 h)

theorem ownerOf_range {b : Byte} (h : 3 ≤ b.toNat) : ownerOf b = none := by
  unfold ownerOf
  split
  · omega
  · omega
  · omega
  · rfl

theorem kindOf_range {b : Byte} (h : b.toNat = 0 ∨ 4 ≤ b.toNat) : kindOf b = none := by
  unfold kindOf
  split
  · omega
  · omega
  · omega
  · rfl

theorem disciplineOf_range {b : Byte} (h : 2 ≤ b.toNat) : disciplineOf b = none := by
  unfold disciplineOf
  split
  · omega
  · omega
  · rfl

section
variable {s : State} {e : ElementId} {x : ElementEntry} {rules : Table 4 (Option ScoreRule)}
variable {eb addr fb ob kb am pm h1 h2 c1 c2 l1 l2 db : Byte} {g : FieldId} {o : Owner} {k : ElementKind} {d : Discipline}

/-- The entry that the operands of a LOAD ELEMENT spell, its times clamped (R86). -/
def spelledEntry (addr am pm h1 h2 c1 c2 l1 l2 : Byte) (g : FieldId) (o : Owner) (k : ElementKind) (d : Discipline) :
    ElementEntry :=
  { busAddr := addr, field := g, owner := o, kind := k, actionMask := am, phaseMask := pm.setWidth 3,
    holdLimit := clamp 100 10000 (nat16 h1 h2), coolDown := clamp 0 5000 (nat16 c1 c2),
    actionLimit := clamp 100 20000 (nat16 l1 l2), discipline := d }

/-- Tests 1 and 2 of LOAD ELEMENT, and the entry that passes them (R86). -/
theorem entryOf_eq_some : entryOf [addr, fb, ob, kb, am, pm, h1, h2, c1, c2, l1, l2, db] = some x ↔
    ∃ g o k d, fieldOf fb = some g ∧ ownerOf ob = some o ∧ kindOf kb = some k ∧ pm.toNat < 8 ∧ disciplineOf db = some d ∧
      x = spelledEntry addr am pm h1 h2 c1 c2 l1 l2 g o k d ∧ 1 ≤ addr.toNat ∧ addr.toNat ≤ 63 ∧ x.consistent = true := by
  unfold entryOf phaseMaskOf
  dsimp only
  constructor
  · split
    · next g o k ph d hg ho hk hph hd =>
      obtain ⟨hpm, rfl⟩ : pm.toNat < 8 ∧ pm.setWidth 3 = ph := by simpa using hph
      rw [Option.ite_none_right_eq_some]
      rintro ⟨⟨hlo, hhi, hc⟩, hx⟩
      obtain rfl := Option.some.inj hx
      exact ⟨g, o, k, d, hg, ho, hk, hpm, hd, rfl, hlo, hhi, hc⟩
    · exact nofun
  · rintro ⟨g, o, k, d, hg, ho, hk, hpm, hd, rfl, hlo, hhi, hc⟩
    rw [hg, ho, hk, hd, if_pos hpm]
    exact if_pos ⟨hlo, hhi, hc⟩

theorem entryOf_range (h : addr.toNat = 0 ∨ 63 < addr.toNat ∨ 4 ≤ fb.toNat ∨ 3 ≤ ob.toNat ∨ kb.toNat = 0 ∨ 4 ≤ kb.toNat ∨
    8 ≤ pm.toNat ∨ 2 ≤ db.toNat) : entryOf [addr, fb, ob, kb, am, pm, h1, h2, c1, c2, l1, l2, db] = none := by
  refine Option.eq_none_iff_forall_ne_some.2 fun x hx => ?_
  obtain ⟨g, o, k, d, hg, ho, hk, hpm, hd, -, hlo, hhi, -⟩ := entryOf_eq_some.1 hx
  rcases h with h | h | h | h | h | h | h | h
  · omega
  · omega
  · exact nomatch (fieldOf_range h).symm.trans hg
  · exact nomatch (ownerOf_range h).symm.trans ho
  · exact nomatch (kindOf_range (.inl h)).symm.trans hk
  · exact nomatch (kindOf_range (.inr h)).symm.trans hk
  · omega
  · exact nomatch (disciplineOf_range h).symm.trans hd

theorem ElementEntry.consistent_iff : x.consistent = true ↔
    (x.kind = .sensing → x.actionMask = 0) ∧ (x.kind ≠ .sensing → x.actionMask ≠ 0 ∧ x.phaseMask ≠ 0) := by
  unfold ElementEntry.consistent
  cases x.kind <;> simp

/-- A phase mask byte whose named bits are all 0 is 0 (R197). -/
theorem phaseMask_eq_zero (h : pm.toNat < 8) : pm.setWidth 3 = (0 : BitVec 3) ↔ pm = 0 := by
  constructor <;> intro hz <;> bv_omega

/-- Test 2 of LOAD ELEMENT: the masks that its kind calls for (R86). -/
theorem entryOf_inconsistent (h : (kindOf kb = some .sensing ∧ am ≠ 0) ∨
    ((kindOf kb = some .actuating ∨ kindOf kb = some .both) ∧ (am = 0 ∨ pm = 0))) :
    entryOf [addr, fb, ob, kb, am, pm, h1, h2, c1, c2, l1, l2, db] = none := by
  refine Option.eq_none_iff_forall_ne_some.2 fun x hx => ?_
  obtain ⟨g, o, k, d, -, -, hk, hpm, -, rfl, -, -, hc⟩ := entryOf_eq_some.1 hx
  obtain ⟨hsensing, hacting⟩ := ElementEntry.consistent_iff.1 hc
  rw [hk] at h
  rcases h with ⟨hkind, ham⟩ | ⟨hkind, hmask⟩
  · exact ham (hsensing (Option.some.inj hkind))
  · obtain ⟨ham, hph⟩ := hacting (by
      rintro (rfl : k = .sensing)
      simp at hkind)
    exact hmask.elim ham fun hz => hph ((phaseMask_eq_zero hpm).2 hz)

/-! ### The tests in the state (R86) -/

theorem ElementEntry.fitsRules_iff : x.fitsRules rules = true ↔
    (x.owner = .shared → ∀ j r, rules.at j = some r → r.beneficiary ≠ .owner ∧ r.beneficiary ≠ .opponent) := by
  have hname (b : Beneficiary) : b.namesOwner = false ↔ b ≠ .owner ∧ b ≠ .opponent := by cases b <;> decide
  unfold ElementEntry.fitsRules
  rw [Bool.or_eq_true, bne_iff_ne, ← imp_iff_not_or, List.all_eq_true]
  refine imp_congr_right fun _ => ⟨fun h j r hr => ?_, fun h y hy => ?_⟩
  · have := h (some r) (hr ▸ Vector.mem_toList_iff.2 (Vector.getElem_mem j.isLt))
    exact (hname _).1 (by simpa using this)
  · obtain ⟨j, hj, rfl⟩ := Vector.mem_iff_getElem.1 (Vector.mem_toList_iff.1 hy)
    cases hr : rules[j] with
    | none => rfl
    | some r => simpa using (hname _).2 (h ⟨j, hj⟩ r hr)

theorem State.fieldIdle_iff : s.fieldIdle g = true ↔ (s.fields.at g).phase = .idle := beq_iff_eq

theorem State.presentFieldIdle_iff :
    s.presentFieldIdle e = true ↔ ∀ l, s.loadedAt e = some l → (s.fields.at l.entry.field).phase = .idle := by
  unfold State.presentFieldIdle
  cases s.loadedAt e <;> simp [State.fieldIdle_iff]

theorem State.hasActuation_iff : s.hasActuation e = true ↔ ∃ l, s.loadedAt e = some l ∧ l.act ≠ none := by
  unfold State.hasActuation
  cases s.loadedAt e <;> simp [Option.isSome_iff_ne_none]

theorem State.addressTaken_iff :
    s.addressTaken e addr = true ↔ ∃ j l, j ≠ e ∧ s.loadedAt j = some l ∧ l.entry.busAddr = addr := by
  unfold State.addressTaken
  rw [List.any_eq_true]
  constructor
  · rintro ⟨j, -, hj⟩
    rw [Bool.and_eq_true, bne_iff_ne] at hj
    obtain ⟨hje, hj⟩ := hj
    split at hj
    · next l hl => exact ⟨j, l, hje, hl, beq_iff_eq.1 hj⟩
    · exact nomatch hj
  · rintro ⟨j, l, hj, hl, ha⟩
    exact ⟨j, mem_allOf j, by simp [hj, hl, ha]⟩

/-- Tests 3 to 6 of LOAD ELEMENT in their order (R86). -/
theorem State.elementRefusal_cases :
    (x.fitsRules (s.elements.at e).rules = false → s.elementRefusal e x = some .range) ∧
    (x.fitsRules (s.elements.at e).rules = true →
      (s.fieldIdle x.field = false ∨ s.presentFieldIdle e = false → s.elementRefusal e x = some .fieldLive) ∧
      (s.fieldIdle x.field = true → s.presentFieldIdle e = true →
        (s.hasActuation e = true → s.elementRefusal e x = some .state) ∧
        (s.hasActuation e = false →
          (s.addressTaken e x.busAddr = true → s.elementRefusal e x = some .duplicate) ∧
          (s.addressTaken e x.busAddr = false → s.elementRefusal e x = none)))) := by
  unfold State.elementRefusal
  refine ⟨fun hr => if_pos hr, fun hr => ⟨fun hi => ?_, fun hf hp => ⟨fun ha => ?_, fun ha => ⟨fun hd => ?_, fun hd => ?_⟩⟩⟩⟩
  · rcases hi with hi | hi <;> simp [hr, hi]
  all_goals simp [*]

theorem runLoadElement_range (h : 48 ≤ eb.toNat) (ops : List Byte) : runLoadElement s (eb :: ops) = .error .range := by
  simp only [runLoadElement, elementOf_range h]

theorem runLoadElement_unspelled {ops : List Byte} (h : entryOf ops = none) :
    runLoadElement s (eb :: ops) = .error .range := by
  rw [runLoadElement, h]
  cases elementOf eb <;> rfl

/-- A load whose operands spell an entry is refused by the tests in the state, or writes the entry (R86, R87). -/
theorem runLoadElement_spelled {ops : List Byte} (h : entryOf ops = some x) : runLoadElement s (elementByte e :: ops) =
    (s.elementRefusal e x).elim (.ok ((s.writeEntry e (some (.fresh x))).settle, [])) .error := by
  simp only [runLoadElement, elementOf_elementByte, h]
  cases s.elementRefusal e x <;> rfl

end

section
variable {s t : State} {e : ElementId} {l : Loaded} {x : Option Loaded}

/-! ### The entry written or emptied (R87, R88, R126, R139) -/

/-- From `s` to `t` the entry of an element has been written, or emptied, and the bus arbiter has chosen: the element is out of
the SAFE queue, no score rule, event count or other entry has changed, and nothing but elements and bus. -/
structure EntryWritten (s t : State) (e : ElementId) (x : Option Loaded) : Prop where
  loaded : t.loadedAt e = x
  counts : ∀ j, (t.elements.at j).rules = (s.elements.at j).rules ∧ (t.elements.at j).eventCount = (s.elements.at j).eventCount
  others : ∀ j, j ≠ e → (t.loadedAt j).map (·.entry) = (s.loadedAt j).map (·.entry)
  unqueued : e ∉ t.bus.safeQueue
  frame : t = { s with elements := t.elements, bus := t.bus }

theorem State.voidTransaction_safeQueue (s : State) (e : ElementId) :
    (s.voidTransaction e).bus.safeQueue = s.bus.safeQueue := by
  unfold State.voidTransaction State.updBus
  dsimp only
  split
  · split <;> rfl
  all_goals rfl

theorem State.writeEntry_at (s : State) (e : ElementId) (x : Option Loaded) (j : ElementId) :
    (s.writeEntry e x).elements.at j = if j = e then { s.elements.at e with loaded := x } else s.elements.at j :=
  Table.at_put _ _ _ _

theorem State.writeEntry_written (hx : ∀ l, x = some l → l.presence ≠ .present) :
    EntryWritten s (s.writeEntry e x).settle e x where
  loaded := by
    have hat : (s.writeEntry e x).loadedAt e = x := by rw [State.loadedAt_def, State.writeEntry_at, if_pos rfl]
    cases x with
    | none => exact (WorkKept.settle _).empty e hat
    | some l => exact State.settle_notPresent hat (hx l rfl)
  counts j := by
    have hk := BusKeeps.settle (s.writeEntry e x)
    rw [hk.rules, hk.eventCount, State.writeEntry_at]
    split
    · next hj => subst hj; exact ⟨rfl, rfl⟩
    · exact ⟨rfl, rfl⟩
  others j hj := by
    rw [(BusKeeps.settle _).entry, State.loadedAt_def, State.writeEntry_at, if_neg hj]
    rfl
  unqueued := by
    rw [State.settle_safeQueue, State.writeEntry, State.voidTransaction_safeQueue]
    simp
  frame := by
    rw [State.settle_eq]
    rfl

end

/-- Settles O29: the operands, the tests in their order, and the entry written. -/
theorem loadElementResult : Obligations.LoadElementResult := by
  intro s f rest eb addr fb ob kb am pm h1 h2 c1 c2 l1 l2 db h
  have refuse {r : ReplyReason} (hr : runLoadElement (s.taken rest) [eb, addr, fb, ob, kb, am, pm, h1, h2, c1, c2, l1, l2, db] =
      .error r) : exec .loadElement s = .next (s.replied f rest 0x20 (.refused r)) :=
    congrArg Host.Outcome.next (h.refused rfl _ hr)
  refine ⟨fun hr => refuse ?_, fun hr => refuse (runLoadElement_unspelled (entryOf_inconsistent hr)), ?_⟩
  · rcases hr with hr | hr
    · exact runLoadElement_range hr _
    · exact runLoadElement_unspelled (entryOf_range hr)
  intro e g o k d he hlo hhi hg ho hk hpm hd hsensing hacting
  subst he hg
  have hspelled : entryOf [addr, fieldByte g, ob, kb, am, pm, h1, h2, c1, c2, l1, l2, db] =
      some (spelledEntry addr am pm h1 h2 c1 c2 l1 l2 g o k d) :=
    entryOf_eq_some.2 ⟨g, o, k, d, fieldOf_fieldByte g, ho, hk, hpm, hd, rfl, hlo, hhi,
      ElementEntry.consistent_iff.2 ⟨hsensing, fun hn => (hacting hn).imp_right (mt (phaseMask_eq_zero hpm).1)⟩⟩
  have hrun := runLoadElement_spelled (s := s.taken rest) (e := e) hspelled
  generalize hx : spelledEntry addr am pm h1 h2 c1 c2 l1 l2 g o k d = x at hrun
  obtain ⟨hmisfit, hfit⟩ := State.elementRefusal_cases (s := s.taken rest) (e := e) (x := x)
  have refused {r : ReplyReason} (hr : (s.taken rest).elementRefusal e x = some r) :
      exec .loadElement s = .next (s.replied f rest 0x20 (.refused r)) := refuse (by rw [hrun, hr]; rfl)
  have hrules : x.fitsRules (s.elements.at e).rules = true ↔ (o = .shared →
      ∀ j r, (s.elements.at e).rules.at j = some r → r.beneficiary ≠ .owner ∧ r.beneficiary ≠ .opponent) :=
    hx ▸ ElementEntry.fitsRules_iff
  have hfield : (s.taken rest).fieldIdle x.field = true ↔ (s.fields.at g).phase = .idle := hx ▸ State.fieldIdle_iff
  have haddr : (s.taken rest).addressTaken e x.busAddr = true ↔ ∃ j l, j ≠ e ∧ s.loadedAt j = some l ∧ l.entry.busAddr = addr :=
    hx ▸ State.addressTaken_iff
  refine ⟨fun hshared hr => refused (hmisfit (Bool.eq_false_iff.2 fun hn => ?_)), fun hr => ?_⟩
  · obtain ⟨j, r, hj, hb⟩ := hr
    obtain ⟨howner, hopponent⟩ := hrules.1 hn hshared j r hj
    exact hb.elim howner hopponent
  obtain ⟨hlive, htests⟩ := hfit (hrules.2 hr)
  refine ⟨fun hl => refused (hlive ?_), fun hidle hpresent => ?_⟩
  · rcases hl with hl | ⟨l, hl, hphase⟩
    · exact .inl (Bool.eq_false_iff.2 fun hn => hl (hfield.1 hn))
    · exact .inr (Bool.eq_false_iff.2 fun hn => hphase (State.presentFieldIdle_iff.1 hn l hl))
  obtain ⟨hbusy, hfree⟩ := htests (hfield.2 hidle) (State.presentFieldIdle_iff.2 hpresent)
  refine ⟨fun l hl ha => refused (hbusy (State.hasActuation_iff.2 ⟨l, hl, ha⟩)), fun hact => ?_⟩
  obtain ⟨htaken, hpass⟩ := hfree (Bool.eq_false_iff.2 fun hn => by
    obtain ⟨l, hl, ha⟩ := State.hasActuation_iff.1 hn
    exact ha (hact l hl))
  refine ⟨fun hd => refused (htaken (haddr.2 hd)), fun hd => ?_⟩
  rw [hpass (Bool.eq_false_iff.2 fun hn => by
    obtain ⟨j, l, hj, hl, ha⟩ := haddr.1 hn
    exact hd j l hj hl ha)] at hrun
  have hw := State.writeEntry_written (s := s.taken rest) (e := e) (x := some (.fresh x)) fun l hl => by
    obtain rfl := Option.some.inj hl
    exact nofun
  refine ⟨_, congrArg Host.Outcome.next (h.done rfl _ hrun), hx ▸ hw.loaded, hw.counts, hw.others, hw.unqueued, ?_⟩
  rw [State.queueReply_link, hw.frame]
  exact ⟨rfl, rfl, rfl, rfl, rfl, rfl, rfl, rfl⟩

/-! ### Clearing (R88, R144) -/

section
variable {s : State} {e : ElementId} {l : Loaded} {b : Byte}

theorem runClearElementEntry_loaded (he : elementOf b = some e) (hl : s.loadedAt e = some l) :
    ((s.fields.at l.entry.field).phase ≠ .idle → runClearElementEntry s [b] = .error .fieldLive) ∧
    ((s.fields.at l.entry.field).phase = .idle → l.act ≠ none → runClearElementEntry s [b] = .error .state) ∧
    ((s.fields.at l.entry.field).phase = .idle → l.act = none →
      runClearElementEntry s [b] = .ok ((s.writeEntry e none).settle, [])) := by
  simp only [runClearElementEntry, he, hl]
  refine ⟨fun hp => if_pos (Bool.eq_false_iff.2 (mt State.fieldIdle_iff.1 hp)), fun hp ha => ?_, fun hp ha => ?_⟩
  all_goals rw [if_neg (by rw [State.fieldIdle_iff.2 hp]; decide)]
  · exact if_pos (Option.isSome_iff_ne_none.2 ha)
  · exact if_neg (by rw [ha]; decide)

theorem runClearElementFault_faulted {c : FaultCause} (he : elementOf b = some e) (hl : s.loadedAt e = some l)
    (hp : l.presence = .faulted c) :
    runClearElementFault s [b] = .ok (((s.setMisses e 0).changePresence e .unknown).settle, []) := by
  simp only [runClearElementFault, he, hl, hp]

theorem runClearElementFault_unfaulted (he : elementOf b = some e) (hl : s.loadedAt e = some l)
    (hp : ∀ c, l.presence ≠ .faulted c) : runClearElementFault s [b] = .error .state := by
  simp only [runClearElementFault, he, hl]
  split
  · next c hc => exact absurd hc (hp c)
  all_goals rfl

/-- The fault of an element is cleared, and the bus arbiter chooses (R143, R144). -/
theorem State.clearedFault_settled {c : FaultCause} (hl : s.loadedAt e = some l) (hp : l.presence = .faulted c) :
    (((s.setMisses e 0).changePresence e .unknown).settle.loadedAt e = some { l with presence := .unknown, misses := 0 }) ∧
    ((s.setMisses e 0).changePresence e .unknown).settle.mgmt = (s.queueNotice (.element e .unknown)).mgmt ∧
    ((s.setMisses e 0).changePresence e .unknown).settle.bus.safeQueue = s.bus.safeQueue ∧
    ((s.setMisses e 0).changePresence e .unknown).settle.link = s.link ∧
    ((s.setMisses e 0).changePresence e .unknown).settle.slots = s.slots := by
  have hat : (s.setMisses e 0).loadedAt e = some { l with misses := 0 } := by
    rw [State.setMisses, State.updLoaded_loadedAt_same, hl, Option.map_some]
  have hp' : ({ l with misses := 0 } : Loaded).presence ≠ .present := by simp [hp]
  obtain ⟨⟨m, hm, hgone⟩, hbus, hmgmt, hrest⟩ := State.changePresence_spec hat (p := .unknown) nofun
  rw [hgone.elsewhere hp'] at hm
  refine ⟨State.settle_notPresent hm nofun, by rw [State.settle_mgmt, hmgmt]; rfl, by rw [State.settle_safeQueue, hbus]; rfl, ?_, ?_⟩
  · rw [State.settle_link, (hrest hp').1]
    rfl
  · rw [State.settle_slots, (hrest hp').2]
    rfl

end

/-- Settles O30: each command is refused as its rule says, and what passes empties the entry or clears the fault. -/
theorem clearElementCommands : Obligations.ClearElementCommands := by
  have entry {s : State} {f : Frame} {rest : List Frame} {b : Byte} (h : CommandReady s f rest 0x21 [b]) {r : ReplyReason}
      (hr : runClearElementEntry (s.taken rest) [b] = .error r) :
      exec .clearElementEntry s = .next (s.replied f rest 0x21 (.refused r)) := congrArg Host.Outcome.next (h.refused rfl _ hr)
  have fault {s : State} {f : Frame} {rest : List Frame} {b : Byte} (h : CommandReady s f rest 0x22 [b]) {r : ReplyReason}
      (hr : runClearElementFault (s.taken rest) [b] = .error r) :
      exec .clearElementFault s = .next (s.replied f rest 0x22 (.refused r)) := congrArg Host.Outcome.next (h.refused rfl _ hr)
  refine ⟨fun s f rest b h hb => entry h ?_, fun s f rest b e h he => ?_, fun s f rest b h hb => fault h ?_,
    fun s f rest b e h he => ?_⟩
  · simp only [runClearElementEntry, elementOf_range hb]
  · refine ⟨fun hl => ?_, fun l hl hp => ?_, fun l hl hp ha => ?_, fun l hl hp ha => ?_⟩
    · have hrun : runClearElementEntry (s.taken rest) [b] = .ok (s.taken rest, []) := by
        simp only [runClearElementEntry, he, State.taken_loadedAt, hl]
      exact congrArg Host.Outcome.next (h.done rfl _ hrun)
    · obtain ⟨hlive, -, -⟩ := runClearElementEntry_loaded he ((s.taken_loadedAt rest e).trans hl)
      exact entry h (hlive hp)
    · obtain ⟨-, hbusy, -⟩ := runClearElementEntry_loaded he ((s.taken_loadedAt rest e).trans hl)
      exact entry h (hbusy hp ha)
    · obtain ⟨-, -, hpass⟩ := runClearElementEntry_loaded he ((s.taken_loadedAt rest e).trans hl)
      have hrun := hpass hp ha
      have hw := State.writeEntry_written (s := s.taken rest) (e := e) (x := none) fun _ hn => nomatch hn
      refine ⟨_, congrArg Host.Outcome.next (h.done rfl _ hrun), hw.loaded, hw.unqueued, fun j => (hw.counts j).1, hw.others, ?_⟩
      rw [State.queueReply_link, hw.frame]
      exact ⟨rfl, rfl, rfl, rfl⟩
  · simp only [runClearElementFault, elementOf_range hb]
  · refine ⟨fun hl => fault h ?_, fun l hl hp => fault h ?_, fun l c hl hp => ?_⟩
    · simp only [runClearElementFault, he, State.taken_loadedAt, hl]
    · exact runClearElementFault_unfaulted he ((s.taken_loadedAt rest e).trans hl) hp
    · have hrun := runClearElementFault_faulted he ((s.taken_loadedAt rest e).trans hl) hp
      obtain ⟨hat, hmgmt, hsafe, hlink, hslots⟩ := State.clearedFault_settled ((s.taken_loadedAt rest e).trans hl) hp
      have hk : BusKeeps (s.taken rest) (((s.taken rest).setMisses e 0).changePresence e .unknown).settle :=
        (BusKeeps.setMisses _ e 0).trans ((BusKeeps.changePresence _ e _).trans (.settle _))
      refine ⟨_, _, congrArg Host.Outcome.next (h.done rfl _ hrun), hat, rfl, fun hroom => ?_, ?_, hsafe, hk.fields, hslots,
        hk.beacons⟩
      · rw [State.queueReply_mgmt, hmgmt]
        exact congrArg Mgmt.notices ((s.taken rest).queueNotice_room _ hroom)
      · rw [State.queueReply_link, hlink]
        rfl

end Sys2Proof.Machine
end

section
/-! SUPPORT. Missed transactions, and the action limit (R108, R115, R123, R125, R126, R135, R137, R143). -/

namespace Sys2Proof.Machine

open Sys2Proof

section
variable {s : State} {e : ElementId} {l : Loaded} {a : Actuation}

/-! ### The end of a transaction without an answer (R123, R126) -/

/-- The two rows that end a transaction without an answer (R123). -/
theorem exec_missed {c : Instr} {r : Transaction} (hf : s.bus.activity = .flight r)
    (hc : (c = .answerWindowExpiry ∧ r.stage = .window) ∨ (c = .answerCutOff ∧ ∃ chars, r.stage = .answer chars)) :
    exec c s = .next (if r.void then s.restPair else s.restPair.actOnMiss r.element r.command).settle := by
  rcases hc with ⟨rfl, hs⟩ | ⟨rfl, chars, hs⟩
  · change execAnswerWindowExpiry s = _
    unfold execAnswerWindowExpiry
    rw [hf]
    dsimp only
    rw [hs]
    rfl
  · change execAnswerCutOff s = _
    unfold execAnswerCutOff
    rw [hf]
    dsimp only
    rw [hs]
    rfl

theorem State.actOnMiss_eq (hl : s.loadedAt e = some l) (c : BusCommand) :
    s.actOnMiss e c = (if l.isPresent then s.missedAgain e c else s).countMiss e := by
  unfold State.actOnMiss
  rw [hl]

end

/-- Settles O50: the miss is counted on what was called for again, and at the third the element is ABSENT. -/
theorem missIsCounted : Obligations.MissIsCounted := by
  intro s c r l hf hc
  have hx := exec_missed hf hc
  refine ⟨fun hv => ?_, fun hv hl => ?_⟩
  · rw [if_pos hv] at hx
    obtain ⟨-, hslots, hlink, hmgmt, hrest, hsafe⟩ := State.settle_rest (s := s.restPair) rfl
    exact ⟨_, hx, hrest, (State.settle_busy (s := s.restPair) (.inl nofun)).1, hlink, hmgmt, hslots,
      (BusKeeps.settle s.restPair).fields, hsafe⟩
  · rw [if_neg (Bool.eq_false_iff.1 hv)] at hx
    obtain ⟨m, hm, hcalled, hframe⟩ := State.missedAgain_spec ((s.restPair_loadedAt r.element).trans hl) r.command
    have hkeep := (BusKeeps.restPair s).trans ((BusKeeps.actOnMiss s.restPair r.element r.command).trans (.settle _))
    rw [State.actOnMiss_eq ((s.restPair_loadedAt r.element).trans hl)] at hx hkeep
    generalize (if l.isPresent then s.restPair.missedAgain r.element r.command else s.restPair) = u at hm hframe hx hkeep
    have hbus : u.bus = { s.bus with activity := .rest } := by rw [hframe]; rfl
    have hsafe : u.bus.safeQueue = s.bus.safeQueue := by rw [hbus]
    have hmgmt : u.mgmt = s.mgmt := by rw [hframe]; rfl
    have hlink : u.link = s.link := by rw [hframe]; rfl
    by_cases hthird : l.misses + 1 < 3
    · rw [State.countMiss_few hm (by rw [hcalled]; exact hthird)] at hx hkeep
      have hat : (u.setMisses r.element (m.misses + 1)).loadedAt r.element = some { m with misses := m.misses + 1 } := by
        rw [State.setMisses, State.updLoaded_loadedAt_same, hm, Option.map_some]
      obtain ⟨zat, -, zlink, zmgmt, zrest, zsafe⟩ := State.settle_rest (s := u.setMisses r.element (m.misses + 1)) (by
        rw [State.setMisses, State.updLoaded_bus, hbus])
      refine ⟨_, _, hx, hkeep, zrest, (zat _).trans hat, ?_, ?_, ?_, fun _ => ⟨?_, ?_, ?_, ?_, zmgmt.trans hmgmt,
        zlink.trans hlink, zsafe.trans hsafe, ?_⟩, fun hn => absurd hn (Nat.not_le.2 hthird)⟩
      · rw [hcalled]
        exact (Nat.min_eq_right hthird.le).symm
      all_goals rw [hcalled]
    · obtain ⟨m', hm', hmisses, hact, hfetch, hout, hrest, habsent, hlost⟩ :=
        State.countMiss_third hm (by rw [hcalled]; exact Nat.not_lt.1 hthird)
      obtain ⟨zat, -, -, zmgmt, zrest, zsafe⟩ := State.settle_rest (s := u.countMiss r.element) (by rw [hrest, hbus])
      have hpresence : m.presence = l.presence := by rw [hcalled]
      rw [hpresence] at habsent hlost
      refine ⟨_, m', hx, hkeep, zrest, (zat _).trans hm', ?_, ?_, ?_, fun hn => absurd hn hthird,
        fun _ => ⟨zsafe ▸ hout, fun hp => ⟨(habsent hp).1, fun hroom => ?_⟩, hlost⟩⟩
      · rw [hmisses]
        exact (Nat.min_eq_left (Nat.not_lt.1 hthird)).symm
      · rw [hact, hcalled]
      · rw [hfetch, hcalled]
      · rw [zmgmt, (habsent hp).2, State.queueNotice_room _ _ (by rw [hmgmt]; exact hroom), hmgmt]

/-! ### The action limit (R135) -/

section
variable {s : State} {e : ElementId} {l : Loaded} {a : Actuation}

/-- An element without actuation, queue and hold has nothing to lose (R108). -/
theorem State.elementLost_empty (hl : s.loadedAt e = some l) (ha : l.act = none) (hh : l.hold = none) (hc : l.claims = [])
    (r : Reason) : s.elementLost e r = s := by
  have hfail : s.failActuation e r = s := by
    unfold State.failActuation
    rw [hl, Option.bind_some, ha]
  have hwithdraw : s.withdrawAll e .elementDown = s := by
    unfold State.withdrawAll
    rw [hl]
    dsimp only
    rw [hc, List.foldl_nil]
  have hend : s.endHold e .elementLost = s := by
    unfold State.endHold
    rw [hl, Option.bind_some, hh]
  unfold State.elementLost
  rw [hfail, hwithdraw, hend]

/-- A SAFE is pending for an element once it is queued; its retry count alone may change (R139). -/
theorem State.queueSafe_spec (hl : s.loadedAt e = some l) :
    e ∈ (s.queueSafe e).bus.safeQueue ∧ (∃ n, (s.queueSafe e).loadedAt e = some { l with retries := n }) ∧
      (s.queueSafe e).mgmt = s.mgmt ∧ (s.queueSafe e).link = s.link := by
  unfold State.queueSafe
  split
  · next h => exact ⟨List.contains_iff_mem.1 h, ⟨l.retries, hl⟩, rfl, rfl⟩
  · exact ⟨by simp [State.updBus], ⟨0, by simp [hl]⟩, rfl, rfl⟩

/-- The action limit passes, up to the notice and the SAFE (R108, R115, R135, R143). -/
theorem State.actionLimit_loss (hl : s.loadedAt e = some l) (ha : l.act = some a) (hp : l.presence = .present) {t : State}
    (ht : t = ((s.setPresence e (.faulted .timeout)).endActuation e (.failed .timeout)).elementLost e .fault) :
    (∃ m, t.loadedAt e = some m ∧ m.presence = .faulted .timeout ∧ m.act = none ∧ m.hold = none ∧ m.claims = [] ∧
      m.fetchMark = false ∧ m.resend = none ∧ m.actionPoll = none ∧ m.sensor = none ∧ m.misses = l.misses ∧
      m.actToggle = l.actToggle ∧ m.fetchToggle = l.fetchToggle) ∧ t.mgmt = s.mgmt ∧
    (l.claims = [] → l.hold = none → t.link.verdicts = enqueueVerdict s.link.verdicts
      { slot := a.slot, element := elementByte e, outcome := .failed .timeout, tag := a.request.tag }) := by
  obtain ⟨hat, -, hmgmt, hlink, -⟩ := State.setPresence_spec hl (.faulted .timeout)
  rw [Loaded.withPresence_leaves (p := .faulted .timeout) hp nofun] at hat
  obtain ⟨n, hn, hends⟩ := State.endActuation_spec hat (a := a) ha (.failed .timeout)
  have hkeepEnd := ArbiterKeeps.endActuation (s.setPresence e (.faulted .timeout)) e (.failed .timeout)
  generalize s.setPresence e (.faulted .timeout) = u at *
  have hkept := hends.kept
  unfold Loaded.actRemoved at hkept
  rw [if_neg fun hc => nomatch hc.2.1] at hkept
  injection hkept with _ _ _ _ _ _ hpresence hmisses hactToggle hfetchToggle _ hfetchMark hresend hactionPoll hsensor
  have hdown : n.presence ≠ .present := by rw [hpresence]; exact nofun
  obtain ⟨m, hm, hact, hhold, hclaims, hside, hmresend, hmpoll, hmsensor⟩ := State.elementLost_spec hn hdown .fault
  injection hside with _ hmpresence hmmisses hmact hmfetch _ hmmark
  subst ht
  refine ⟨⟨m, hm, hmpresence.trans hpresence, hact, hhold, hclaims, hmmark.trans hfetchMark, ?_, ?_, hmsensor.trans hsensor,
    hmmisses.trans hmisses, hmact.trans hactToggle, hmfetch.trans hfetchToggle⟩, ?_, fun hc hh => ?_⟩
  · rw [hmresend, hresend, ite_self]
  · rw [hmpoll, hactionPoll, ite_self]
  · rw [(ArbiterKeeps.elementLost _ e .fault).mgmt, hkeepEnd.mgmt, hmgmt]
  · obtain ⟨rfl, hverdicts⟩ := hends.free hh (.inl nofun)
    rw [State.elementLost_empty hn rfl hh hc, hverdicts, hlink]
    rfl

end

/-- Settles O45: the actuation ends FAILED on an element that is FAULTED already, which then is lost. -/
theorem actionLimitResult : Obligations.ActionLimitResult := by
  intro s e l a hl ha hstate hp
  have hbusy : s.busyAt e = true := by
    unfold State.busyAt Loaded.busy
    rw [hl]
    dsimp only
    rw [ha]
    rcases hstate with h | h <;> simp [Actuation.onElement, h]
  obtain ⟨⟨m, hm, hpresence, hact, hhold, hclaims, hmark, hresend, hpoll, hsensor, hmisses, hatoggle, hftoggle⟩, hmgmt,
    hverdicts⟩ := State.actionLimit_loss hl ha hp rfl
  have hkeep : BusKeeps s (s.passActionLimit e).settle := (BusKeeps.passActionLimit s e).trans (.settle _)
  have hx : exec (.actionLimit e) s = .next (s.passActionLimit e).settle := congrArg Host.Outcome.next (if_pos hbusy)
  unfold State.passActionLimit at hx hkeep
  generalize ((s.setPresence e (.faulted .timeout)).endActuation e (.failed .timeout)).elementLost e .fault = u at *
  obtain ⟨hqueued, ⟨n, hat⟩, hqmgmt, hqlink⟩ :=
    State.queueSafe_spec (s := u.queueNotice (.element e (.faulted .timeout))) ((u.queueNotice_loadedAt _ e).trans hm)
  refine ⟨_, _, hx, hkeep, State.settle_notPresent hat (by rw [hpresence]; exact nofun), hpresence, hact, hhold, hclaims, hmark,
    hresend, hpoll, hsensor, hmisses, hatoggle, hftoggle, ?_, fun hc hh => ?_, fun hroom => ?_⟩
  · rw [State.settle_safeQueue]
    exact hqueued
  · rw [State.settle_link, hqlink, State.queueNotice_link, hverdicts hc hh]
  · rw [State.settle_mgmt, hqmgmt, State.queueNotice_room _ _ (by rw [hmgmt]; exact hroom), hmgmt]

end Sys2Proof.Machine
end

section
/-! SUPPORT. What an answer does to its element: the records it writes, the end of an actuation, and the fault of the element
(R115, R125, R126, R132 to R136, R140). -/

namespace Sys2Proof.Machine

open Sys2Proof

section
variable {s t u w : State} {e : ElementId} {l m l' : Loaded} {a : Actuation} {k : BusCommand} {edge : BusEdge} {r : Transaction}
variable {chars : List BusChar} {st : Status} {payload : List Byte}

/-! ### What an answer leaves alone -/

/-- So far an answer has written what is kept of its element alone, which is `m` now; the pair rests (R123, R125). -/
structure Heard (s t : State) (e : ElementId) (m : Loaded) : Prop where
  rest : t.bus.activity = .rest
  loaded : t.loadedAt e = some m
  others : ∀ k, k ≠ e → t.loadedAt k = s.loadedAt k
  slots : t.slots = s.slots
  fields : t.fields = s.fields
  link : t.link = s.link
  mgmt : t.mgmt = s.mgmt
  timing : t.timing = s.timing

theorem AnswerEnds.heard (h : AnswerEnds s k edge r chars l st payload) :
    Heard s (s.heardFrom r.element) r.element { l with misses := 0 } ∧ (s.heardFrom r.element).bus.safeQueue = s.bus.safeQueue := by
  obtain ⟨hat, hothers, hbus, hslots, hfields, hlink, hmgmt, htiming⟩ := State.heardFrom_spec h.loaded
  exact ⟨⟨by rw [hbus], hat, hothers, hslots, hfields, hlink, hmgmt, htiming⟩, by rw [hbus]⟩

/-- What an answer and the bus arbiter after it leave alone (R123, R128). -/
theorem BusKeeps.heardAnswered (s : State) (e : ElementId) (l : Loaded) (st : Status) (payload : List Byte) (hk : k ≠ .fetch) :
    BusKeeps s ((s.heardFrom e).answered e l k st payload).settle :=
  ((BusKeeps.restPair s).trans (.setMisses _ e 0)).trans ((BusKeeps.answered _ _ _ _ _ _ hk).trans (.settle _))

theorem Heard.updLoaded (h : Heard s t e m) (g : Loaded → Loaded) : Heard s (t.updLoaded e g) e (g m) :=
  ⟨h.rest, by rw [State.updLoaded_loadedAt_same, h.loaded, Option.map_some],
    fun k hk => by rw [State.updLoaded_loadedAt_other _ _ hk, h.others k hk], h.slots, h.fields, h.link, h.mgmt, h.timing⟩

theorem Heard.cast (h : Heard s t e m) (hm : m = l') : Heard s t e l' := hm ▸ h

theorem Heard.setFetch (h : Heard s t e m) : Heard s (t.setFetch e) e { m with fetchMark := true } := h.updLoaded _

theorem Heard.setRetries (h : Heard s t e m) (n : Nat) : Heard s (t.setRetries e n) e { m with retries := n } := h.updLoaded _

theorem Heard.dropSafe (h : Heard s t e m) : Heard s (t.dropSafe e) e m :=
  ⟨h.rest, h.loaded, h.others, h.slots, h.fields, h.link, h.mgmt, h.timing⟩

theorem Heard.settle (h : Heard s t e m) : Heard s t.settle e m := by
  obtain ⟨hat, hslots, hlink, hmgmt, hrest, -⟩ := State.settle_rest h.rest
  have hk := BusKeeps.settle t
  exact ⟨hrest, (hat e).trans h.loaded, fun k hk => (hat k).trans (h.others k hk), hslots.trans h.slots,
    hk.fields.trans h.fields, hlink.trans h.link, hmgmt.trans h.mgmt, hk.timing.trans h.timing⟩

/-- What the bus arbiter leaves after an answer that has written what is kept of its element alone. -/
theorem Heard.settled (h : Heard s t e m) (hq : t.bus.safeQueue = s.bus.safeQueue) : t.settle.bus.activity = .rest ∧
    t.settle.link = s.link ∧ t.settle.mgmt = s.mgmt ∧ t.settle.slots = s.slots ∧ t.settle.bus.safeQueue = s.bus.safeQueue ∧
    (∀ k, k ≠ e → t.settle.loadedAt k = s.loadedAt k) ∧ t.settle.loadedAt e = some m :=
  ⟨h.settle.rest, h.settle.link, h.settle.mgmt, h.settle.slots, (State.settle_safeQueue t).trans hq, h.settle.others,
    h.settle.loaded⟩

/-- The end of an actuation in an answer, in a state `w` that differs from it in neither slots, elements nor verdicts (R115). -/
theorem Heard.ends (h : Heard s t e m) (ha : m.act = some a) (how : ActEnd) (hl : w.loadedAt e = some l')
    (hat : ∀ k, w.loadedAt k = (t.endActuation e how).loadedAt k) (hslots : w.slots = (t.endActuation e how).slots)
    (hlink : w.link = (t.endActuation e how).link) : ActuationEnds s w e m l' a how.outcome := by
  obtain ⟨n, hn, hends⟩ := State.endActuation_spec h.loaded ha how
  obtain rfl : n = l' := Option.some.inj ((hn.symm.trans (hat e).symm).trans hl)
  exact hends.transfer h.slots h.fields (by rw [h.link]) h.timing h.others hslots hat (by rw [hlink])

/-- The bus arbiter chooses after the end of an actuation in an answer (R115, R128). -/
theorem Heard.endsSettled (h : Heard s t e m) (ha : m.act = some a) (how : ActEnd)
    (hl : (t.endActuation e how).settle.loadedAt e = some l') :
    ActuationEnds s (t.endActuation e how).settle e m l' a how.outcome := by
  obtain ⟨hat, hslots, hlink, -⟩ :=
    State.settle_rest (s := t.endActuation e how) (by rw [(ArbiterKeeps.endActuation t e how).bus, h.rest])
  exact h.ends ha how hl hat hslots hlink

/-! ### The fault of an element (R140, R143) -/

/-- What FAULT makes of an element: FAULTED with the cause unless it is FAULTED already, and lost where it was PRESENT. -/
theorem State.becomeFaulted_spec (hl : s.loadedAt e = some l) (c : FaultCause) :
    ∃ m, (s.becomeFaulted e c).loadedAt e = some m ∧ m.misses = l.misses ∧ m.retries = l.retries ∧
      (s.becomeFaulted e c).bus = s.bus ∧
      (∀ cause, l.presence = .faulted cause → m.presence = .faulted cause ∧ s.becomeFaulted e c = s) ∧
      ((∀ cause, l.presence ≠ .faulted cause) → m.presence = .faulted c) ∧
      (l.presence = .present → m.act = none ∧ m.hold = none ∧ m.claims = []) := by
  by_cases hf : ∃ cause, l.presence = .faulted cause
  · obtain ⟨cause, hf⟩ := hf
    have heq : s.becomeFaulted e c = s := by
      unfold State.becomeFaulted
      rw [hl]
      dsimp only
      rw [hf]
    rw [heq]
    exact ⟨l, hl, rfl, rfl, rfl, fun _ hc => ⟨hc, rfl⟩, fun hn => absurd hf (hn cause), fun hn => nomatch hf.symm.trans hn⟩
  · have heq : s.becomeFaulted e c = s.changePresence e (.faulted c) := by
      unfold State.becomeFaulted
      rw [hl]
      dsimp only
      split
      · next cause hc => exact absurd ⟨cause, hc⟩ hf
      all_goals rfl
    obtain ⟨⟨m, hm, hgone⟩, hbus, -⟩ := State.changePresence_spec hl (p := .faulted c) nofun
    rw [heq]
    refine ⟨m, hm, hgone.misses, hgone.retries, hbus, fun cause hc => absurd ⟨cause, hc⟩ hf, fun _ => hgone.presence, fun hn => ?_⟩
    obtain ⟨hact, hhold, hclaims, -⟩ := hgone.lost hn
    exact ⟨hact, hhold, hclaims⟩

/-- The fault of an element in an answer, and the bus arbiter's choice (R128, R140, R143). -/
theorem Heard.faulted (h : Heard s t e m) {c : FaultCause} (hl : (t.becomeFaulted e c).settle.loadedAt e = some l') :
    (t.becomeFaulted e c).settle.bus.safeQueue = t.bus.safeQueue ∧ l'.retries = m.retries ∧
      (∀ cause, m.presence = .faulted cause → l'.presence = .faulted cause ∧ (t.becomeFaulted e c).settle.mgmt = s.mgmt) ∧
      ((∀ cause, m.presence ≠ .faulted cause) → l'.presence = .faulted c) ∧
      (m.presence = .present → l'.presence = .faulted c ∧ l'.act = none ∧ l'.hold = none ∧ l'.claims = []) := by
  obtain ⟨n, hn, -, hretries, hbus, hstay, hfaulted, hlost⟩ := State.becomeFaulted_spec h.loaded c
  obtain ⟨hat, -, -, hmgmt, -, hsafe⟩ := State.settle_rest (s := t.becomeFaulted e c) (by rw [hbus, h.rest])
  obtain rfl : n = l' := Option.some.inj (hn.symm.trans ((hat e).symm.trans hl))
  refine ⟨hsafe.trans (by rw [hbus]), hretries, fun cause hc => ⟨(hstay cause hc).1, ?_⟩, hfaulted,
    fun hp => ⟨hfaulted fun cause hc => (nomatch hc.symm.trans hp), hlost hp⟩⟩
  rw [hmgmt, (hstay cause hc).2, h.mgmt]

/-! ### The pair rests, and the miss count is 0, after every answer (R123, R125) -/

/-- The pair rests, and the miss count of the element is 0. -/
structure RestsFor (e : ElementId) (t : State) : Prop where
  rest : t.bus.activity = .rest
  loaded : ∃ m, t.loadedAt e = some m ∧ m.misses = 0

theorem Heard.restsFor (h : Heard s t e m) (hm : m.misses = 0) : RestsFor e t := ⟨h.rest, m, h.loaded, hm⟩

namespace RestsFor

theorem updLoaded (h : RestsFor e t) (g : Loaded → Loaded) (hg : ∀ m, (g m).misses = m.misses) : RestsFor e (t.updLoaded e g) := by
  obtain ⟨hrest, m, hm, hmisses⟩ := h
  exact ⟨hrest, g m, by rw [State.updLoaded_loadedAt_same, hm, Option.map_some], (hg m).trans hmisses⟩

theorem setFetch (h : RestsFor e t) : RestsFor e (t.setFetch e) := h.updLoaded _ fun _ => rfl

theorem setRetries (h : RestsFor e t) (n : Nat) : RestsFor e (t.setRetries e n) := h.updLoaded _ fun _ => rfl

theorem dropSafe (h : RestsFor e t) : RestsFor e (t.dropSafe e) := ⟨h.rest, h.loaded⟩

theorem endActuation (h : RestsFor e t) (how : ActEnd) : RestsFor e (t.endActuation e how) := by
  obtain ⟨hrest, m, hm, hmisses⟩ := h
  have hk := ArbiterKeeps.endActuation t e how
  refine ⟨by rw [hk.bus, hrest], ?_⟩
  have hside := hk.busSide e
  rw [hm, Option.map_some, Option.map_eq_some_iff] at hside
  obtain ⟨n, hn, hside⟩ := hside
  exact ⟨n, hn, (congrArg BusSide.misses hside).trans hmisses⟩

theorem becomeFaulted (h : RestsFor e t) (c : FaultCause) : RestsFor e (t.becomeFaulted e c) := by
  obtain ⟨hrest, m, hm, hmisses⟩ := h
  obtain ⟨n, hn, hnmisses, -, hbus, -⟩ := State.becomeFaulted_spec hm c
  exact ⟨by rw [hbus, hrest], n, hn, hnmisses.trans hmisses⟩

theorem settle (h : RestsFor e t) : RestsFor e t.settle := by
  obtain ⟨hat, -, -, -, hrest, -⟩ := State.settle_rest h.rest
  exact ⟨hrest, by rw [hat]; exact h.loaded⟩

theorem actuateWaiting (h : RestsFor e t) (l : Loaded) (a : Actuation) (st : Status) (payload : List Byte) :
    RestsFor e (t.actuateWaiting e l a st payload) := by
  cases st with
  | ok | hold => exact h.updLoaded _ fun _ => rfl
  | done | reject => exact (h.setRetries 0).endActuation _
  | more => exact (h.setRetries 0).setFetch.endActuation _
  | fault => exact h.becomeFaulted _
  | retry =>
    unfold State.actuateWaiting
    dsimp only
    split
    · exact h.updLoaded _ fun _ => rfl
    · exact (h.setRetries 0).endActuation _

theorem actuateCancelling (h : RestsFor e t) (st : Status) (payload : List Byte) :
    RestsFor e (t.actuateCancelling e st payload) := by
  cases st with
  | ok | hold => exact h
  | done => exact h.endActuation _
  | more => exact h.setFetch.endActuation _
  | retry | reject => exact h.setRetries 0
  | fault => exact h.becomeFaulted _

theorem actionPollAnswered (h : RestsFor e t) (l : Loaded) (st : Status) (payload : List Byte) :
    RestsFor e (t.actionPollAnswered e l st payload) := by
  cases st with
  | ok | hold | retry | reject => exact h
  | fault => exact h.becomeFaulted _
  | done =>
    unfold State.actionPollAnswered
    dsimp only
    split
    · exact h.endActuation _
    · exact h
  | more =>
    unfold State.actionPollAnswered
    dsimp only
    split
    · split
      · exact h.setFetch.endActuation _
      · exact h.setFetch
    · exact h.setFetch

theorem sensorPollAnswered (h : RestsFor e t) (st : Status) : RestsFor e (t.sensorPollAnswered e st) := by
  cases st with
  | ok | hold | done | retry | reject => exact h
  | more => exact h.setFetch
  | fault => exact h.becomeFaulted _

theorem endCancelling (h : RestsFor e t) : RestsFor e (t.endCancelling e) := by
  unfold State.endCancelling
  split
  · split
    · exact h.endActuation _
    · exact h
  · exact h

theorem safeAnswered (h : RestsFor e t) (l : Loaded) (st : Status) : RestsFor e (t.safeAnswered e l st) := by
  cases st with
  | ok | done => exact (h.dropSafe.setRetries 0).endCancelling
  | more => exact (h.dropSafe.setRetries 0).setFetch.endCancelling
  | retry =>
    unfold State.safeAnswered
    dsimp only
    split
    · exact h.setRetries _
    · exact (h.dropSafe.setRetries 0).becomeFaulted _
  | fault => exact h.dropSafe.becomeFaulted _
  | hold | reject => exact h

theorem restartActionPoll (h : RestsFor e t) : RestsFor e (t.restartActionPoll e) := h.updLoaded _ fun m => by split <;> rfl

theorem restartSensor (h : RestsFor e t) : RestsFor e (t.restartSensor e) := h.updLoaded _ fun m => by split <;> rfl

end RestsFor

/-- An ACTUATE or a POLL of an element that is not PRESENT brings the miss count 0 alone (R126). -/
theorem State.answered_elsewhere (hp : l.presence ≠ .present) (hk : k = .actuate ∨ k = .actionPoll ∨ k = .sensorPoll) :
    s.answered e l k st payload = s := by
  have hn : ¬ l.isPresent = true := fun h => hp (beq_iff_eq.1 h)
  rcases hk with rfl | rfl | rfl <;> exact if_neg hn

end

end Sys2Proof.Machine
end

section
/-! SUPPORT. The answer to an ACTUATE (R115, R126, R132, R133). -/

namespace Sys2Proof.Machine

open Sys2Proof

section
variable {s t u : State} {e : ElementId} {l m l' : Loaded} {a : Actuation} {st : Status} {payload : List Byte} {o : Outcome}

/-- The answer to an ACTUATE goes to the record by its state (R132, R133). -/
theorem State.answered_actuate (hp : l.presence = .present) (ha : l.act = some a) :
    (a.state = .waitingBus → s.answered e l .actuate st payload = s.actuateWaiting e l a st payload) ∧
    (a.state = .cancelling → s.answered e l .actuate st payload = s.actuateCancelling e st payload) := by
  have hpresent : l.isPresent = true := beq_iff_eq.2 hp
  unfold State.answered State.actuateAnswered
  dsimp only
  rw [if_pos hpresent, ha]
  dsimp only
  exact ⟨fun h => by rw [h], fun h => by rw [h]⟩

/-- Without a record an answer to an ACTUATE sets the FETCH mark for MORE alone (R132). -/
theorem State.answered_actuate_none (ha : l.act = none) :
    s.answered e l .actuate st payload = if l.presence = .present ∧ st = .more then s.setFetch e else s := by
  unfold State.answered State.actuateAnswered
  dsimp only
  rw [ha]
  by_cases hp : l.presence = .present <;> simp [Loaded.isPresent, hp]

/-- The answers to an ACTUATE that end its actuation, with the outcome of each (R132, R133). -/
def ActuateEnds (l : Loaded) (a : Actuation) (st : Status) (payload : List Byte) (o : Outcome) : Prop :=
  (a.state = .waitingBus ∧ st = .retry ∧ 3 ≤ l.retries ∧ o = .failed .retries) ∨
    (a.state = .waitingBus ∧ st = .reject ∧ o = .failed .rejected) ∨
    ((st = .done ∨ st = .more) ∧ o = .done (payload.headD 0))

/-- What is kept of an element as the answer to an ACTUATE ends its actuation (R132, R133, R137). -/
def Loaded.actuateAnswered (l : Loaded) (a : Actuation) (st : Status) : Loaded :=
  { l with
    misses := 0, retries := if a.state = .waitingBus then 0 else l.retries, fetchMark := l.fetchMark || decide (st = .more) }

/-- What the answers that end an actuation do before its end: the retry count of a record in WAITING-BUS, and the FETCH mark. -/
theorem Heard.actuate_ends (h : Heard s t e { l with misses := 0 }) (hp : l.presence = .present) (ha : l.act = some a)
    (hs : a.state = .waitingBus ∨ a.state = .cancelling) (ho : ActuateEnds l a st payload o) :
    ∃ v how, t.answered e l .actuate st payload = v.endActuation e how ∧ how.outcome = o ∧
      Heard s v e (l.actuateAnswered a st) := by
  obtain ⟨hwaiting, hcancelling⟩ := State.answered_actuate (s := t) (e := e) (st := st) (payload := payload) hp ha
  unfold Loaded.actuateAnswered
  have hreset : Heard s (t.setRetries e 0) e { l with misses := 0, retries := 0 } := h.setRetries 0
  rcases hs with hs | hs
  · rw [hwaiting hs, if_pos hs]
    rcases ho with ⟨-, rfl, hr, rfl⟩ | ⟨-, rfl, rfl⟩ | ⟨rfl | rfl, rfl⟩
    · refine ⟨_, .failed .retries, if_neg (Nat.not_lt.2 (Nat.succ_le_succ hr)), rfl, ?_⟩
      exact hreset.cast (by simp)
    · exact ⟨_, .failed .rejected, rfl, rfl, hreset.cast (by simp)⟩
    · exact ⟨_, .done (payload.headD 0), rfl, rfl, hreset.cast (by simp)⟩
    · exact ⟨_, .done (payload.headD 0), rfl, rfl, hreset.setFetch.cast (by simp)⟩
  · have hw : a.state ≠ .waitingBus := by rw [hs]; exact nofun
    rw [hcancelling hs, if_neg hw]
    rcases ho with ⟨hn, -⟩ | ⟨hn, -⟩ | ⟨rfl | rfl, rfl⟩
    · exact absurd hn hw
    · exact absurd hn hw
    · exact ⟨_, .done (payload.headD 0), rfl, rfl, h.cast (by simp)⟩
    · exact ⟨_, .done (payload.headD 0), rfl, rfl, h.setFetch.cast (by simp)⟩

/-- FAULT in the answer to an ACTUATE makes its PRESENT element FAULTED, without actuation, queue and hold (R108, R143). -/
theorem Heard.actuate_fault (h : Heard s t e { l with misses := 0 }) (hp : l.presence = .present) (ha : l.act = some a)
    (hs : a.state = .waitingBus ∨ a.state = .cancelling) (hl : (t.answered e l .actuate .fault payload).settle.loadedAt e = some l') :
    l'.presence = .faulted .fault ∧ l'.act = none ∧ l'.hold = none ∧ l'.claims = [] := by
  obtain ⟨hwaiting, hcancelling⟩ := State.answered_actuate (s := t) (e := e) (st := .fault) (payload := payload) hp ha
  have heq : t.answered e l .actuate .fault payload = t.becomeFaulted e .fault := hs.elim hwaiting hcancelling
  rw [heq] at hl
  obtain ⟨-, -, -, -, hlost⟩ := h.faulted hl
  exact hlost hp

theorem RestsFor.actuate (h : RestsFor e t) (hp : l.presence = .present) (ha : l.act = some a)
    (hs : a.state = .waitingBus ∨ a.state = .cancelling) : RestsFor e (t.answered e l .actuate st payload).settle := by
  obtain ⟨hwaiting, hcancelling⟩ := State.answered_actuate (s := t) (e := e) (st := st) (payload := payload) hp ha
  rcases hs with hs | hs
  · rw [hwaiting hs]
    exact (h.actuateWaiting l a st payload).settle
  · rw [hcancelling hs]
    exact (h.actuateCancelling st payload).settle

/-- The answers to an ACTUATE that leave its actuation: OK and HOLD make a waiting one RUNNING, the first RETRYs are counted, and
a CANCELLING one goes on (R132, R133). -/
theorem Heard.actuate_goesOn (h : Heard s t e { l with misses := 0 }) (hp : l.presence = .present) (ha : l.act = some a) :
    (a.state = .waitingBus →
      (st = .ok ∨ st = .hold → Heard s (t.answered e l .actuate st payload).settle e { l with
        misses := 0, act := some { a with state := .running, running := 0 }, retries := 0
        actionPoll := some s.timing.actionPoll, sensor := none }) ∧
      (st = .retry → l.retries + 1 < 4 → Heard s (t.answered e l .actuate st payload).settle e { l with
        misses := 0, retries := l.retries + 1, resend := some s.timing.actionPoll })) ∧
    (a.state = .cancelling →
      (st = .ok ∨ st = .hold → Heard s (t.answered e l .actuate st payload).settle e { l with misses := 0 }) ∧
      (st = .retry ∨ st = .reject →
        Heard s (t.answered e l .actuate st payload).settle e { l with misses := 0, retries := 0 })) := by
  obtain ⟨hwaiting, hcancelling⟩ := State.answered_actuate (s := t) (e := e) (st := st) (payload := payload) hp ha
  rw [← h.timing]
  refine ⟨fun hs => ?_, fun hs => ?_⟩
  · rw [hwaiting hs]
    refine ⟨fun hst => ?_, fun hst hr => ?_⟩
    · rcases hst with rfl | rfl <;> exact (h.updLoaded _).settle
    · subst hst
      rw [State.actuateWaiting, if_pos (show _ < Config.retryLimit from hr)]
      exact (h.updLoaded _).settle
  · rw [hcancelling hs]
    refine ⟨fun hst => ?_, fun hst => ?_⟩
    · rcases hst with rfl | rfl <;> exact h.settle
    · rcases hst with rfl | rfl <;> exact (h.updLoaded _).settle

end

/-- Settles O53: what goes on, what ends, and the fault, for a record in WAITING-BUS or CANCELLING; and the answer that finds no
record or no PRESENT element. -/
theorem actuateAnswerResult : Obligations.ActuateAnswerResult := by
  refine ⟨fun s edge r chars l st payload a h hp ha hrun => ?_, fun s edge r chars l st payload h hnone => ?_⟩
  · have hs : a.state = .waitingBus ∨ a.state = .cancelling := by
      cases hstate : a.state with
      | running => exact absurd hstate hrun
      | waitingBus => exact .inl rfl
      | cancelling => exact .inr rfl
    have hx : exec (.actuateAnswer edge) s = .next ((s.heardFrom r.element).answered r.element l .actuate st payload).settle :=
      congrArg Host.Outcome.next h.run
    obtain ⟨hheard, -⟩ := h.heard
    obtain ⟨hrest, l', hl', hmisses⟩ := (hheard.restsFor rfl).actuate (st := st) (payload := payload) hp ha hs
    obtain ⟨hwaiting, hcancelling⟩ := hheard.actuate_goesOn (st := st) (payload := payload) hp ha
    have still {m : Loaded} (hm : Heard s ((s.heardFrom r.element).answered r.element l .actuate st payload).settle r.element m) :
        ((s.heardFrom r.element).answered r.element l .actuate st payload).settle.link = s.link ∧ l' = m :=
      ⟨hm.link, Option.some.inj (hl'.symm.trans hm.loaded)⟩
    refine ⟨_, l', hx, .heardAnswered s r.element l st payload nofun, hrest, hl', hmisses,
      fun hw => ⟨fun hst => still ((hwaiting hw).1 hst), fun hst hr => still ((hwaiting hw).2 hst hr)⟩,
      fun hc => ⟨fun hst => still ((hcancelling hc).1 hst), fun hst => still ((hcancelling hc).2 hst)⟩, fun o ho => ?_, ?_⟩
    · obtain ⟨v, how, heq, rfl, hv⟩ := hheard.actuate_ends hp ha hs ho
      rw [heq] at hl' ⊢
      exact hv.endsSettled ha how hl'
    · rintro rfl
      exact hheard.actuate_fault hp ha hs hl'
  · have hx : exec (.actuateAnswer edge) s = .next ((s.heardFrom r.element).answered r.element l .actuate st payload).settle :=
      congrArg Host.Outcome.next h.run
    have hkeep := BusKeeps.heardAnswered s r.element l (k := .actuate) st payload nofun
    obtain ⟨hheard, hsafe⟩ := h.heard
    have heq : (s.heardFrom r.element).answered r.element l .actuate st payload =
        if l.presence = .present ∧ st = .more then (s.heardFrom r.element).setFetch r.element else s.heardFrom r.element := by
      by_cases hp : l.presence = .present
      · exact State.answered_actuate_none (hnone.resolve_left fun hn => hn hp)
      · rw [State.answered_elsewhere hp (.inl rfl), if_neg fun hn => hp hn.1]
    have hdone : Heard s ((s.heardFrom r.element).answered r.element l .actuate st payload) r.element { l with
        misses := 0, fetchMark := l.fetchMark || decide (l.presence = .present ∧ st = .more) } := by
      rw [heq]
      split
      · next hm => exact hheard.setFetch.cast (by simp [hm])
      · next hm => exact hheard.cast (by simp [hm])
    have hqueue : ((s.heardFrom r.element).answered r.element l .actuate st payload).bus.safeQueue = s.bus.safeQueue := by
      rw [heq, ← hsafe]
      split <;> rfl
    exact ⟨_, hx, hkeep, hdone.settled hqueue⟩

end Sys2Proof.Machine
end

section
/-! SUPPORT. The answers to the POLLs and to a SAFE (R114, R115, R125, R126, R134, R136, R139, R140). -/

namespace Sys2Proof.Machine

open Sys2Proof

section
variable {s t u w : State} {e : ElementId} {l m l' : Loaded} {a : Actuation} {st : Status} {payload : List Byte}

/-! ### The restart of a countdown (R134, R136) -/

theorem Loaded.busy_iff (ha : l.act = some a) : l.busy = true ↔ a.state = .running ∨ a.state = .cancelling := by
  unfold Loaded.busy Actuation.onElement
  rw [ha]
  simp

theorem Loaded.busy_eq_false_iff : l.busy = false ↔ ∀ a, l.act = some a → a.state = .waitingBus := by
  unfold Loaded.busy Actuation.onElement
  cases l.act with
  | none => simp
  | some a => cases h : a.state <;> simp [h]

theorem ElementKind.senses_iff {k : ElementKind} : k.senses = true ↔ k ≠ .actuating := by cases k <;> decide

theorem Heard.restartActionPoll (h : Heard s t e m) (hb : m.busy = true) (hp : m.presence = .present) :
    Heard s (t.restartActionPoll e) e { m with actionPoll := some s.timing.actionPoll } := by
  rw [← h.timing]
  exact (h.updLoaded _).cast (if_pos (by rw [hb, Loaded.isPresent, hp]; rfl))

theorem Heard.restartSensor (h : Heard s t e m) (hp : m.presence = .present) :
    Heard s (t.restartSensor e) e { m with
      sensor := if m.entry.kind ≠ .actuating ∧ (∀ a, m.act = some a → a.state = .waitingBus) then some s.timing.sensor
        else m.sensor } := by
  have htest : (m.isPresent && m.entry.kind.senses && !m.busy) = true ↔
      m.entry.kind ≠ .actuating ∧ ∀ a, m.act = some a → a.state = .waitingBus := by
    rw [Bool.and_eq_true, Bool.and_eq_true, Bool.not_eq_true', ElementKind.senses_iff, Loaded.busy_eq_false_iff, and_assoc]
    exact and_iff_right (beq_iff_eq.2 hp)
  rw [← h.timing]
  refine (h.updLoaded _).cast ?_
  by_cases hc : m.entry.kind ≠ .actuating ∧ ∀ a, m.act = some a → a.state = .waitingBus
  · rw [if_pos (htest.2 hc), if_pos hc]
  · rw [if_neg (mt htest.1 hc), if_neg hc]

/-- Where an element has no actuation on it, a POLL's answer starts no action-poll countdown again (R134). -/
theorem State.restartActionPoll_idle (hl : s.loadedAt e = some l) (hb : l.busy = false) (k : ElementId) :
    (s.restartActionPoll e).loadedAt k = s.loadedAt k := by
  unfold State.restartActionPoll
  rw [State.updLoaded_loadedAt]
  split
  · next hk => rw [hk, hl, Option.map_some, hb, Bool.false_and, if_neg Bool.false_ne_true]
  · rfl

theorem State.restartSensor_elsewhere (hl : s.loadedAt e = some l) (hp : l.presence ≠ .present) (k : ElementId) :
    (s.restartSensor e).loadedAt k = s.loadedAt k := by
  have hn : l.isPresent = false := beq_false_of_ne hp
  unfold State.restartSensor
  rw [State.updLoaded_loadedAt]
  split
  · next hk => rw [hk, hl, Option.map_some, hn, Bool.false_and, Bool.false_and, if_neg Bool.false_ne_true]
  · rfl

/-! ### Action POLLs (R134) -/

theorem State.answered_actionPoll (hp : l.presence = .present) :
    s.answered e l .actionPoll st payload = (s.actionPollAnswered e l st payload).restartActionPoll e :=
  if_pos (beq_iff_eq.2 hp)

/-- OK, HOLD, and MORE without a result leave the actuation on its element (R134). -/
theorem Heard.actionPoll_goesOn (h : Heard s t e { l with misses := 0 }) (hp : l.presence = .present) (hb : l.busy = true)
    (hst : st = .ok ∨ st = .hold ∨ (st = .more ∧ payload = [])) :
    Heard s (t.answered e l .actionPoll st payload).settle e { l with
      misses := 0, actionPoll := some s.timing.actionPoll, fetchMark := l.fetchMark || decide (st = .more) } := by
  rw [State.answered_actionPoll hp]
  rcases hst with rfl | rfl | ⟨rfl, rfl⟩
  · exact (h.restartActionPoll hb hp).settle.cast (by simp)
  · exact (h.restartActionPoll hb hp).settle.cast (by simp)
  · exact (h.setFetch.restartActionPoll hb hp).settle.cast (by simp)

/-- DONE, and MORE with a result, end the actuation before the countdown is looked at again (R134). -/
theorem Heard.actionPoll_ends (h : Heard s t e { l with misses := 0 }) (hp : l.presence = .present) (ha : l.act = some a)
    (hb : l.busy = true) {b : Byte} (hst : st = .done ∨ st = .more) (hpay : payload = [b])
    (hl : (t.answered e l .actionPoll st payload).settle.loadedAt e = some l') :
    ActuationEnds s (t.answered e l .actionPoll st payload).settle e
      { l with misses := 0, fetchMark := l.fetchMark || decide (st = .more) } l' a (.done b) := by
  obtain ⟨v, heq, hv⟩ : ∃ v, t.actionPollAnswered e l st payload = v.endActuation e (.done b) ∧
      Heard s v e { l with misses := 0, fetchMark := l.fetchMark || decide (st = .more) } := by
    subst hpay
    rcases hst with rfl | rfl
    · exact ⟨_, if_pos hb, h.cast (by simp)⟩
    · exact ⟨_, if_pos hb, h.setFetch.cast (by simp)⟩
  rw [State.answered_actionPoll hp, heq] at hl ⊢
  obtain ⟨n, hn, -⟩ := State.endActuation_spec hv.loaded ha (.done b)
  have hidle := State.restartActionPoll_idle hn (State.endActuation_rests hv.loaded hn (by rw [ha]; exact nofun))
  obtain ⟨hat, hslots, hlink, -⟩ := State.settle_rest (s := (v.endActuation e (.done b)).restartActionPoll e) (by
    rw [State.restartActionPoll, State.updLoaded_bus, (ArbiterKeeps.endActuation v e (.done b)).bus, hv.rest])
  exact hv.ends ha (.done b) hl (fun k => (hat k).trans (hidle k)) hslots hlink

theorem Heard.actionPoll_fault (h : Heard s t e { l with misses := 0 }) (hp : l.presence = .present)
    (hl : (t.answered e l .actionPoll .fault payload).settle.loadedAt e = some l') :
    l'.presence = .faulted .fault ∧ l'.act = none ∧ l'.hold = none ∧ l'.claims = [] := by
  obtain ⟨n, hn, -, -, hbus, -, hfaulted, hlost⟩ := State.becomeFaulted_spec h.loaded .fault
  obtain ⟨hact, hhold, hclaims⟩ := hlost hp
  have hidle := State.restartActionPoll_idle hn (Loaded.busy_eq_false_iff.2 fun a ha => nomatch hact.symm.trans ha)
  rw [State.answered_actionPoll hp, State.actionPollAnswered, (State.settle_rest (by
    rw [State.restartActionPoll, State.updLoaded_bus, hbus, h.rest])).1, hidle, hn] at hl
  obtain rfl := Option.some.inj hl
  exact ⟨hfaulted fun cause hc => (nomatch hc.symm.trans hp), hact, hhold, hclaims⟩

/-! ### Sensor POLLs (R136) -/

theorem State.answered_sensorPoll (hp : l.presence = .present) :
    s.answered e l .sensorPoll st payload = (s.sensorPollAnswered e st).restartSensor e := if_pos (beq_iff_eq.2 hp)

theorem Heard.sensorPoll_goesOn (h : Heard s t e { l with misses := 0 }) (hp : l.presence = .present) (hst : st ≠ .fault) :
    Heard s (t.answered e l .sensorPoll st payload).settle e { l with
      misses := 0, fetchMark := l.fetchMark || decide (st = .more)
      sensor := if l.entry.kind ≠ .actuating ∧ (∀ a, l.act = some a → a.state = .waitingBus)
        then some s.timing.sensor else l.sensor } := by
  have hmark : Heard s (t.sensorPollAnswered e st) e
      { l with misses := 0, fetchMark := l.fetchMark || decide (st = .more) } := by
    cases st with
    | fault => exact absurd rfl hst
    | more => exact h.setFetch.cast (by simp)
    | ok | hold | done | retry | reject => exact h.cast (by simp)
  rw [State.answered_sensorPoll hp]
  exact (hmark.restartSensor hp).settle

theorem Heard.sensorPoll_fault (h : Heard s t e { l with misses := 0 }) (hp : l.presence = .present)
    (hl : (t.answered e l .sensorPoll .fault payload).settle.loadedAt e = some l') :
    l'.presence = .faulted .fault ∧ l'.act = none ∧ l'.hold = none ∧ l'.claims = [] := by
  obtain ⟨n, hn, -, -, hbus, -, hfaulted, hlost⟩ := State.becomeFaulted_spec h.loaded .fault
  have hpresence := hfaulted fun cause hc => (nomatch hc.symm.trans hp)
  have hidle := State.restartSensor_elsewhere hn (by rw [hpresence]; exact nofun)
  rw [State.answered_sensorPoll hp, State.sensorPollAnswered, (State.settle_rest (by
    rw [State.restartSensor, State.updLoaded_bus, hbus, h.rest])).1, hidle, hn] at hl
  obtain rfl := Option.some.inj hl
  exact ⟨hpresence, hlost hp⟩

end

/-- Settles O54: a POLL's answer ends the actuation or starts its countdown again, and off a PRESENT element does nothing. -/
theorem pollAnswers : Obligations.PollAnswers := by
  refine ⟨fun s edge r chars l st payload a h hp ha hs => ?_, fun s edge r chars l st payload h hp => ?_,
    fun p hmem s edge r chars l st payload h hp => ?_⟩
  · have hb : l.busy = true := (Loaded.busy_iff ha).2 hs
    have hx : exec (.actionPollAnswer edge) s =
        .next ((s.heardFrom r.element).answered r.element l .actionPoll st payload).settle := congrArg Host.Outcome.next h.run
    obtain ⟨hheard, -⟩ := h.heard
    obtain ⟨hrest, l', hl', hmisses⟩ : RestsFor r.element
        ((s.heardFrom r.element).answered r.element l .actionPoll st payload).settle := by
      rw [State.answered_actionPoll hp]
      exact ((hheard.restsFor rfl).actionPollAnswered l st payload).restartActionPoll.settle
    refine ⟨_, l', hx, .heardAnswered s r.element l st payload nofun, hrest, hl', hmisses, fun hst => ?_,
      fun b hst hpay => hheard.actionPoll_ends hp ha hb hst hpay hl', ?_⟩
    · have hdone := hheard.actionPoll_goesOn hp hb hst
      exact ⟨hdone.link, Option.some.inj (hl'.symm.trans hdone.loaded)⟩
    · rintro rfl
      exact hheard.actionPoll_fault hp hl'
  · have hx : exec (.sensorPollAnswer edge) s =
        .next ((s.heardFrom r.element).answered r.element l .sensorPoll st payload).settle := congrArg Host.Outcome.next h.run
    obtain ⟨hheard, -⟩ := h.heard
    obtain ⟨hrest, l', hl', hmisses⟩ : RestsFor r.element
        ((s.heardFrom r.element).answered r.element l .sensorPoll st payload).settle := by
      rw [State.answered_sensorPoll hp]
      exact ((hheard.restsFor rfl).sensorPollAnswered st).restartSensor.settle
    refine ⟨_, l', hx, .heardAnswered s r.element l st payload nofun, hrest, hl', hmisses, fun hst => ?_, ?_⟩
    · have hdone := hheard.sensorPoll_goesOn (payload := payload) hp hst
      exact ⟨hdone.link, hdone.mgmt, Option.some.inj (hl'.symm.trans hdone.loaded)⟩
    · rintro rfl
      exact hheard.sensorPoll_fault hp hl'
  · have elsewhere (hk : p.1 = .actuate ∨ p.1 = .actionPoll ∨ p.1 = .sensorPoll)
        (hx : exec (p.2 edge) s = .next (s.completeAnswer p.1 edge)) :
        ∃ t, exec (p.2 edge) s = .next t ∧ BusKeeps s t ∧ t.bus.activity = .rest ∧ t.link = s.link ∧ t.mgmt = s.mgmt ∧
          t.slots = s.slots ∧ t.bus.safeQueue = s.bus.safeQueue ∧ (∀ k, k ≠ r.element → t.loadedAt k = s.loadedAt k) ∧
          t.loadedAt r.element = some { l with misses := 0 } := by
      obtain ⟨hheard, hsafe⟩ := h.heard
      have hkeep := BusKeeps.heardAnswered s r.element l st payload (k := p.1) (by
        rcases hk with hk | hk | hk <;> rw [hk] <;> exact nofun)
      rw [State.answered_elsewhere hp hk] at hkeep
      refine ⟨_, hx.trans (congrArg Host.Outcome.next ?_), hkeep, hheard.settled hsafe⟩
      rw [h.run, State.answered_elsewhere hp hk]
    simp only [List.mem_cons, List.not_mem_nil, or_false] at hmem
    rcases hmem with rfl | rfl
    · exact elsewhere (.inr (.inl rfl)) rfl
    · exact elsewhere (.inr (.inr rfl)) rfl

/-! ### SAFE (R114, R139, R140) -/

section
variable {s t v : State} {e : ElementId} {l m l' : Loaded} {a : Actuation} {st : Status}

theorem State.endCancelling_spec (hl : s.loadedAt e = some l) :
    ((∀ a, l.act = some a → a.state ≠ .cancelling) → s.endCancelling e = s) ∧
    ∀ a, l.act = some a → a.state = .cancelling → s.endCancelling e = s.endActuation e .cancelled := by
  unfold State.endCancelling
  rw [hl, Option.bind_some]
  cases l.act with
  | none => exact ⟨fun _ => rfl, fun a ha => nomatch ha⟩
  | some b => exact ⟨fun h => if_neg (h b rfl), fun a ha hs => if_pos (Option.some.inj ha ▸ hs)⟩

theorem ArbiterKeeps.endCancelling (s : State) (e : ElementId) : ArbiterKeeps s (s.endCancelling e) := by
  unfold State.endCancelling
  split
  · split
    · exact .endActuation s e _
    · exact .refl s
  · exact .refl s

/-- OK, DONE and MORE: the element leaves the SAFE queue, and then a CANCELLING actuation ends (R140). -/
theorem Heard.safe_answered (h : Heard s t e { l with misses := 0 }) (hst : st = .ok ∨ st = .done ∨ st = .more) :
    ∃ v, t.safeAnswered e l st = v.endCancelling e ∧ v.bus.safeQueue = t.bus.safeQueue.filter (· != e) ∧
      Heard s v e { l with misses := 0, retries := 0, fetchMark := l.fetchMark || decide (st = .more) } := by
  have hreset := h.dropSafe.setRetries 0
  rcases hst with rfl | rfl | rfl
  · exact ⟨_, rfl, rfl, hreset.cast (by simp)⟩
  · exact ⟨_, rfl, rfl, hreset.cast (by simp)⟩
  · exact ⟨_, rfl, rfl, hreset.setFetch.cast (by simp)⟩

/-- The end of a CANCELLING actuation as a SAFE is answered, and the bus arbiter's choice (R114, R115, R140). -/
theorem Heard.cancelling (h : Heard s v e m) (hl : (v.endCancelling e).settle.loadedAt e = some l') :
    (v.endCancelling e).settle.bus.safeQueue = v.bus.safeQueue ∧ l'.busSide = m.busSide ∧
    ((∀ a, m.act = some a → a.state ≠ .cancelling) → Heard s (v.endCancelling e).settle e m) ∧
    ∀ a, m.act = some a → a.state = .cancelling → ActuationEnds s (v.endCancelling e).settle e m l' a .cancelled := by
  have hk := ArbiterKeeps.endCancelling v e
  obtain ⟨hat, -, -, -, -, hsafe⟩ := State.settle_rest (s := v.endCancelling e) (by rw [hk.bus, h.rest])
  obtain ⟨hstill, hends⟩ := State.endCancelling_spec h.loaded
  have hside := hk.busSide e
  rw [← hat, hl, h.loaded] at hside
  refine ⟨hsafe.trans (by rw [hk.bus]), Option.some.inj hside, fun hn => ?_, fun a ha hs => ?_⟩
  · rw [hstill hn]
    exact h.settle
  · rw [hends a ha hs] at hl ⊢
    exact h.endsSettled ha .cancelled hl

end

/-- Settles O56: the SAFE that is answered leaves the queue and ends a CANCELLING actuation; RETRY counts, and the fourth and FAULT
fault the element. -/
theorem safeAnswerResult : Obligations.SafeAnswerResult := by
  intro s edge r chars l st payload h
  have hx : exec (.safeAnswer edge) s = .next ((s.heardFrom r.element).safeAnswered r.element l st).settle :=
    congrArg Host.Outcome.next h.run
  obtain ⟨hheard, hsafe⟩ := h.heard
  obtain ⟨hrest, l', hl', hmisses⟩ := ((hheard.restsFor rfl).safeAnswered l st).settle
  refine ⟨_, l', hx, .heardAnswered s r.element l st payload (k := .safe) nofun, hrest, hl', hmisses, fun hst => ?_, ?_, ?_, ?_⟩
  · obtain ⟨v, heq, hqueue, hv⟩ := hheard.safe_answered hst
    rw [heq] at hl' ⊢
    obtain ⟨hvsafe, hside, hstill, hends⟩ := hv.cancelling hl'
    rw [hvsafe, hqueue, hsafe]
    injection hside with _ hpresence _ _ _ hretries hmark
    refine ⟨by simp, fun e he hq => List.mem_filter.2 ⟨hq, by simpa using he⟩, hretries, hpresence, hmark, fun hn => ?_, hends⟩
    have hdone := hstill hn
    exact ⟨hdone.link, hdone.mgmt, Option.some.inj (hl'.symm.trans hdone.loaded)⟩
  · rintro rfl hr
    have heq : (s.heardFrom r.element).safeAnswered r.element l .retry = (s.heardFrom r.element).setRetries r.element (l.retries + 1) :=
      if_pos hr
    rw [heq] at hl' ⊢
    have hdone := (hheard.setRetries (l.retries + 1)).settle
    exact ⟨(State.settle_safeQueue _).trans hsafe, hdone.link, Option.some.inj (hl'.symm.trans hdone.loaded)⟩
  · rintro rfl hr
    have heq : (s.heardFrom r.element).safeAnswered r.element l .retry =
        (((s.heardFrom r.element).dropSafe r.element).setRetries r.element 0).becomeFaulted r.element .safeRefused :=
      if_neg (Nat.not_lt.2 (Nat.succ_le_succ hr))
    rw [heq] at hl' ⊢
    obtain ⟨hqueue, hretries, hstay, hfaulted, -⟩ := (hheard.dropSafe.setRetries 0).faulted hl'
    refine ⟨by rw [hqueue]; simp [State.setRetries], hretries, fun hp => hfaulted fun cause hc => ?_, hstay⟩
    rcases hp with hp | hp <;> exact nomatch hc.symm.trans hp
  · rintro rfl
    have heq : (s.heardFrom r.element).safeAnswered r.element l .fault =
        ((s.heardFrom r.element).dropSafe r.element).becomeFaulted r.element .fault := rfl
    rw [heq] at hl' ⊢
    obtain ⟨hqueue, -, hstay, hfaulted, -⟩ := hheard.dropSafe.faulted hl'
    refine ⟨by rw [hqueue]; simp, fun hp => hfaulted fun cause hc => ?_, fun cause hc => (hstay cause hc).1⟩
    rcases hp with hp | hp | hp <;> exact nomatch hc.symm.trans hp

end Sys2Proof.Machine
end

section
/-! SUPPORT. CLAIM: the tests in their order, and what a claim that passes them does (R31, R32, R89 to R93, R95, R103). -/

namespace Sys2Proof.Machine

open Sys2Proof

section
variable {s u : State} {rest : List Frame} {radio : Radio} {i : SlotId} {e : ElementId} {l m : Loaded} {x : Hold} {b : Byte}
variable {r : Request} {reason : Reason}

/-! ### The tests, once the frame has refreshed its slot (R31) -/

theorem ClaimReaches.taken (h : ClaimReaches s i e l) : ClaimReaches (s.takenFromRobot rest i radio) i e l where
  gate := (s.takenFromRobot_gateOpen rest i radio i).trans h.gate
  loaded := (s.takenFromRobot_loadedAt rest i radio e).trans h.loaded
  field := (s.takenFromRobot_slotField rest i radio i).trans h.field

theorem ClaimAllowed.taken (h : ClaimAllowed s i e l r) : ClaimAllowed (s.takenFromRobot rest i radio) i e l r where
  toClaimReaches := h.toClaimReaches.taken
  kind := h.kind
  action := h.action
  phase := by
    rw [s.takenFromRobot_fields]
    exact h.phase
  owner := by
    rw [s.takenFromRobot_slotAlliance]
    exact h.owner
  presence := h.presence

theorem ClaimNew.taken (h : ClaimNew s i e l r) : ClaimNew (s.takenFromRobot rest i radio) i e l r where
  toClaimAllowed := h.toClaimAllowed.taken
  notHolder := h.notHolder
  notQueued := h.notQueued

theorem ClaimPasses.taken (h : ClaimPasses s i e l r) : ClaimPasses (s.takenFromRobot rest i radio) i e l r where
  toClaimNew := h.toClaimNew.taken
  outstanding := by
    rw [s.takenFromRobot_outstanding]
    exact h.outstanding
  cooled := h.cooled
  room := h.room

/-- A refresh changes nothing that a claim is refused for (R31). -/
theorem ClaimRefused.taken (h : ClaimRefused s i b r reason) : ClaimRefused (s.takenFromRobot rest i radio) i b r reason := by
  have hgate := s.takenFromRobot_gateOpen rest i radio i
  have hat := s.takenFromRobot_loadedAt rest i radio
  have hfields := s.takenFromRobot_fields rest i radio
  have halliance := s.takenFromRobot_slotAlliance rest i radio i
  have hout := s.takenFromRobot_outstanding rest i radio i
  cases h with
  | gateOff h => exact .gateOff ((s.takenFromRobot_effectiveGate rest i radio i).trans h)
  | noNumber g h => exact .noNumber (hgate.trans g) h
  | noEntry e g hb h => exact .noEntry e (hgate.trans g) hb ((hat e).trans h)
  | otherField e l g hb hl h =>
    exact .otherField e l (hgate.trans g) hb ((hat e).trans hl) (by rwa [s.takenFromRobot_slotField])
  | badAction e l hb g h => exact .badAction e l hb g.taken h
  | phase e l hb g a h => exact .phase e l hb g.taken a (by rwa [hfields])
  | notYours e l hb g a p h => exact .notYours e l hb g.taken a (by rwa [hfields]) (by rwa [halliance])
  | elementDown e l hb g a p o h => exact .elementDown e l hb g.taken a (by rwa [hfields]) (by rwa [halliance]) h
  | tooMany e l hb n h => exact .tooMany e l hb n.taken (by rwa [hout])
  | cooling e l x hb n o hx h => exact .cooling e l x hb n.taken (by rwa [hout]) hx h
  | queueFull e l hb n o c h => exact .queueFull e l hb n.taken (by rwa [hout]) c h

/-! ### The tests of R89 -/

theorem ElementKind.acts_iff {k : ElementKind} : k.acts = true ↔ k ≠ .sensing := by cases k <;> decide

theorem State.testClaim_off (h : s.gateOpen i = false) : s.testClaim i b r = .error .gateOff := if_pos h

theorem State.testClaim_open (hs : (s.slots.at i).silent = false) (h : s.gateOpen i = true) :
    (elementOf b = none → s.testClaim i b r = .error .noElement) ∧
    (∀ e, elementOf b = some e → s.loadedAt e = none → s.testClaim i b r = .error .noElement) ∧
    ∀ e l, elementOf b = some e → s.loadedAt e = some l → s.slotField i ≠ some l.entry.field →
      s.testClaim i b r = .error .noElement := by
  unfold State.testClaim
  rw [if_neg (Bool.not_eq_false _ ▸ h), if_neg (Bool.eq_false_iff.1 hs)]
  refine ⟨fun he => ?_, fun e he hl => ?_, fun e l he hl hf => ?_⟩ <;> rw [he] <;> dsimp only
  · rw [hl]
  · rw [hl]
    exact if_pos hf.symm

/-- The tests of R89 that remain once the element is found on the slot's field. -/
theorem State.testClaim_reached (hs : (s.slots.at i).silent = false) (h : ClaimReaches s i e l) :
    s.testClaim i (elementByte e) r =
      if (l.entry.kind.acts && actionIn l.entry.actionMask r.action) = false then .error .badAction
      else if phaseIn l.entry.phaseMask (s.fields.at l.entry.field).phase = false then .error .phase
      else if l.entry.owner ≠ .shared ∧ l.entry.owner.alliance ≠ s.slotAlliance i then .error .notYours
      else if l.presence ≠ .present then .error .elementDown
      else .ok (e, l) := by
  unfold State.testClaim
  rw [if_neg (Bool.not_eq_false _ ▸ h.gate), if_neg (Bool.eq_false_iff.1 hs), elementOf_elementByte]
  dsimp only
  rw [h.loaded]
  exact if_neg (not_not.2 h.field.symm)

theorem actionAllowed_iff : ¬ (l.entry.kind.acts && actionIn l.entry.actionMask r.action) = false ↔
    l.entry.kind ≠ .sensing ∧ l.entry.actionMask.getLsbD r.action.toNat = true := by
  rw [Bool.not_eq_false, Bool.and_eq_true, ElementKind.acts_iff]
  rfl

theorem ownerAllowed_iff {a : Option Alliance} : ¬ (l.entry.owner ≠ .shared ∧ l.entry.owner.alliance ≠ a) ↔
    l.entry.owner = .shared ∨ l.entry.owner.alliance = a := by
  rw [not_and_or, not_not, not_not]

theorem State.testClaim_allowed (hs : (s.slots.at i).silent = false) (h : ClaimAllowed s i e l r) :
    s.testClaim i (elementByte e) r = .ok (e, l) := by
  rw [State.testClaim_reached hs h.toClaimReaches, if_neg (actionAllowed_iff.2 ⟨h.kind, h.action⟩),
    if_neg (Bool.not_eq_false _ ▸ h.phase), if_neg (ownerAllowed_iff.2 h.owner), if_neg (not_not.2 h.presence)]

theorem State.testClaim_ok (h : s.testClaim i b r = .ok (e, l)) : b = elementByte e ∧ s.loadedAt e = some l := by
  unfold State.testClaim at h
  split_ifs at h
  split at h
  · exact nomatch h
  · next k hk =>
    split at h
    · exact nomatch h
    · next m hm =>
      split_ifs at h
      cases h
      exact ⟨elementByte_of_elementOf hk, hm⟩

/-! ### The tests of R92 -/

theorem State.newClaimRefusal_below (ho : (s.slots.at i).outstanding < 2) :
    (∀ x, l.lastRelease = some x → x.slot = i → x.since < l.entry.coolDown → s.newClaimRefusal i l = some .cooling) ∧
    ((∀ x, l.lastRelease = some x → x.slot = i → l.entry.coolDown ≤ x.since) →
      s.newClaimRefusal i l = if 4 ≤ l.claims.length then some .queueFull else none) := by
  unfold State.newClaimRefusal
  rw [if_neg (show ¬ Config.maxOutstanding ≤ _ from Nat.not_le.2 ho)]
  cases hx : l.lastRelease with
  | none => exact ⟨fun x hn => (nomatch hn), fun _ => if_neg Bool.false_ne_true⟩
  | some y =>
    refine ⟨fun x hn hi hc => ?_, fun hc => if_neg ?_⟩
    · obtain rfl := Option.some.inj hn
      exact if_pos (by simp [hi, hc])
    · by_cases hi : y.slot = i
      · simp [hi, hc y rfl hi]
      · simp [hi]

theorem State.newClaimRefusal_passes (h : ClaimPasses s i e l r) : s.newClaimRefusal i l = none := by
  rw [(State.newClaimRefusal_below h.outstanding).2 h.cooled]
  exact if_neg (Nat.not_le.2 h.room)

/-! ### What becomes of a claim (R90 to R93) -/

/-- A claim of a slot that waits already: its request is replaced, and it keeps its place (R91). -/
def State.requestReplaced (s : State) (i : SlotId) (e : ElementId) (l : Loaded) (r : Request) : State :=
  (s.updLoaded e fun l => { l with claims := replaceClaim l.claims i r }).verdictFor i e (.queued (claimPosition l.claims i)) r.tag

theorem State.takeClaim_holder (hs : (s.slots.at i).silent = false) (h : ClaimAllowed s i e l r) (hx : l.hold = some x)
    (hi : x.slot = i) : s.takeClaim i (elementByte e) r = s.inHold e l x r := by
  unfold State.takeClaim
  rw [State.testClaim_allowed hs h]
  dsimp only
  rw [if_pos (Loaded.heldBy_iff.2 ⟨x, hx, hi⟩), hx]

theorem State.takeClaim_waiting (hs : (s.slots.at i).silent = false) (h : ClaimAllowed s i e l r)
    (hx : ∀ x, l.hold = some x → x.slot ≠ i) {c : Claim} (hc : c ∈ l.claims) (hi : c.slot = i) :
    s.takeClaim i (elementByte e) r = s.requestReplaced i e l r := by
  obtain ⟨d, hd⟩ : ∃ d, l.claimOf i = some d :=
    Option.isSome_iff_exists.1 (List.find?_isSome.2 ⟨c, hc, beq_iff_eq.2 hi⟩)
  unfold State.takeClaim
  rw [State.testClaim_allowed hs h]
  dsimp only
  rw [if_neg fun hh => (Loaded.heldBy_iff.1 hh).elim fun y hy => hx y hy.1 hy.2, hd]
  rfl

theorem State.takeClaim_new (hs : (s.slots.at i).silent = false) (h : ClaimNew s i e l r) :
    s.takeClaim i (elementByte e) r = (s.newClaimRefusal i l).elim (s.admitClaim i e l r)
      fun reason => s.queueVerdict i (elementByte e) (.refused reason) r.tag := by
  have hnone : l.claimOf i = none := List.find?_eq_none.2 fun c hc => by simpa using h.notQueued c hc
  unfold State.takeClaim
  rw [State.testClaim_allowed hs h.toClaimAllowed]
  dsimp only
  rw [if_neg fun hh => (Loaded.heldBy_iff.1 hh).elim fun y hy => h.notHolder y hy.1 hy.2, hnone]
  cases s.newClaimRefusal i l <;> rfl

/-- The first test of R89, then of R92, that fails refuses a claim with its reason, which the verdict alone tells. -/
theorem State.takeClaim_refused (hs : (s.slots.at i).silent = false) (h : ClaimRefused s i b r reason) :
    s.takeClaim i b r = s.queueVerdict i b (.refused reason) r.tag := by
  have tested (ht : s.testClaim i b r = .error reason) : s.takeClaim i b r = s.queueVerdict i b (.refused reason) r.tag := by
    unfold State.takeClaim
    rw [ht]
  cases h with
  | gateOff h =>
    refine tested (State.testClaim_off ?_)
    unfold State.gateOpen
    rw [h]
    rfl
  | noNumber g h => exact tested ((State.testClaim_open hs g).1 (elementOf_range h))
  | noEntry e g hb h => exact tested ((State.testClaim_open hs g).2.1 e (hb ▸ elementOf_elementByte e) h)
  | otherField e l g hb hl h => exact tested ((State.testClaim_open hs g).2.2 e l (hb ▸ elementOf_elementByte e) hl h)
  | badAction e l hb g h =>
    refine tested ?_
    rw [hb, State.testClaim_reached hs g, if_pos]
    by_contra hn
    obtain ⟨hkind, haction⟩ := actionAllowed_iff.1 hn
    exact h.elim hkind (Bool.eq_false_iff.1 · haction)
  | phase e l hb g a h =>
    refine tested ?_
    rw [hb, State.testClaim_reached hs g, if_neg (actionAllowed_iff.2 a), if_pos h]
  | notYours e l hb g a p h =>
    refine tested ?_
    rw [hb, State.testClaim_reached hs g, if_neg (actionAllowed_iff.2 a), if_neg (Bool.not_eq_false _ ▸ p), if_pos h]
  | elementDown e l hb g a p o h =>
    refine tested ?_
    rw [hb, State.testClaim_reached hs g, if_neg (actionAllowed_iff.2 a), if_neg (Bool.not_eq_false _ ▸ p),
      if_neg (ownerAllowed_iff.2 o), if_pos h]
  | tooMany e l hb n h =>
    have hr : s.newClaimRefusal i l = some .tooMany := if_pos h
    rw [hb, State.takeClaim_new hs n, hr]
    rfl
  | cooling e l x hb n o hx h =>
    rw [hb, State.takeClaim_new hs n, (State.newClaimRefusal_below o).1 x hx h.1 h.2]
    rfl
  | queueFull e l hb n o c h =>
    rw [hb, State.takeClaim_new hs n, (State.newClaimRefusal_below o).2 c, if_pos h]
    rfl

/-- All that can become of a claim: a refusal, an in-hold action, a new request in its place, or a new claim (R89 to R93). -/
theorem State.takeClaim_cases (s : State) (i : SlotId) (b : Byte) (r : Request) :
    (∃ reason, s.takeClaim i b r = s.queueVerdict i b (.refused reason) r.tag) ∨
    ∃ e l, b = elementByte e ∧ s.loadedAt e = some l ∧ ((∃ x, l.hold = some x ∧ s.takeClaim i b r = s.inHold e l x r) ∨
      s.takeClaim i b r = s.requestReplaced i e l r ∨ s.takeClaim i b r = s.admitClaim i e l r) := by
  unfold State.takeClaim
  split
  · next reason _ => exact .inl ⟨reason, rfl⟩
  · next e l ht =>
    obtain ⟨hb, hl⟩ := State.testClaim_ok ht
    split
    · next hh =>
      obtain ⟨x, hx, -⟩ := Loaded.heldBy_iff.1 hh
      rw [hx]
      exact .inr ⟨e, l, hb, hl, .inl ⟨x, hx, rfl⟩⟩
    · split
      · exact .inr ⟨e, l, hb, hl, .inr (.inl rfl)⟩
      · split
        · next reason _ => exact .inl ⟨reason, rfl⟩
        · exact .inr ⟨e, l, hb, hl, .inr (.inr rfl)⟩

/-! ### What a claim makes of its element, its slot and the verdicts -/

/-- An in-hold action of the holder (R90). -/
theorem State.inHold_spec (hl : s.loadedAt e = some l) (x : Hold) (r : Request) :
    (s.inHold e l x r).slots = s.slots ∧ (∀ k, k ≠ e → (s.inHold e l x r).loadedAt k = s.loadedAt k) ∧
    (l.act = none → (s.inHold e l x r).loadedAt e = some (l.withAct x.slot r) ∧
      (s.inHold e l x r).link.verdicts = enqueueVerdict s.link.verdicts
        { slot := x.slot, element := elementByte e, outcome := .acting, tag := r.tag }) ∧
    ∀ a, l.act = some a →
      (s.inHold e l x r).loadedAt e = some { l with hold := some { x with next := some r } } ∧
      (x.next = none → (s.inHold e l x r).link.verdicts = enqueueVerdict s.link.verdicts
        { slot := x.slot, element := elementByte e, outcome := .acting, tag := r.tag }) ∧
      ∀ old, x.next = some old → (s.inHold e l x r).link.verdicts = enqueueVerdict (enqueueVerdict s.link.verdicts
        { slot := x.slot, element := elementByte e, outcome := .cancelled, tag := old.tag })
        { slot := x.slot, element := elementByte e, outcome := .acting, tag := r.tag } := by
  unfold State.inHold
  cases ha : l.act with
  | none => exact ⟨rfl, fun k hk => by simp [hk], fun _ => ⟨by simp [hl], rfl⟩, fun a hn => nomatch hn⟩
  | some a =>
    cases hn : x.next with
    | none =>
      exact ⟨rfl, fun k hk => by simp [hk], fun h => (nomatch h), fun _ _ => ⟨by simp [hl, ha], fun _ => rfl, fun _ h => nomatch h⟩⟩
    | some old =>
      refine ⟨rfl, fun k hk => by simp [hk], fun h => (nomatch h), fun _ _ => ⟨by simp [hl, ha], fun h => (nomatch h), fun y hy => ?_⟩⟩
      obtain rfl := Option.some.inj hy
      rfl

/-- A new claim that is admitted (R93, R95, R103). -/
theorem State.admitClaim_spec (hl : s.loadedAt e = some l) (i : SlotId) (r : Request) :
    (s.admitClaim i e l r).slots = (s.moreOutstanding i).slots ∧
    (∀ k, k ≠ e → (s.admitClaim i e l r).loadedAt k = s.loadedAt k) ∧
    (l.hold = none → l.act = none →
      (s.admitClaim i e l r).loadedAt e = some { l.withAct i r with
        hold := some { slot := i, tag := r.tag, remaining := l.entry.holdLimit, next := none } } ∧
      (s.admitClaim i e l r).link.verdicts = enqueueVerdict s.link.verdicts
        { slot := i, element := elementByte e, outcome := .granted, tag := r.tag }) ∧
    (l.hold ≠ none ∨ l.act ≠ none →
      (s.admitClaim i e l r).loadedAt e = some { l with claims := l.claims ++ [{ slot := i, request := r }] } ∧
      (s.admitClaim i e l r).link.verdicts = enqueueVerdict s.link.verdicts
        { slot := i, element := elementByte e, outcome := .queued (l.claims.length + 1), tag := r.tag }) := by
  unfold State.admitClaim
  dsimp only
  by_cases hf : l.hold = none ∧ l.act = none
  · have hat : (s.moreOutstanding i).loadedAt e = some l := hl
    obtain ⟨hgrant, hslots, hverdicts⟩ := State.grant_spec hat i r
    rw [if_pos hf]
    exact ⟨hslots, fun k hk => State.grant_others _ e i r hk, fun _ _ => ⟨hgrant, hverdicts⟩,
      fun hn => absurd hf (not_and_or.2 hn)⟩
  · rw [if_neg hf]
    exact ⟨rfl, fun k hk => by simp [hk], fun hh ha => absurd ⟨hh, ha⟩ hf, fun _ => ⟨by simp [hl], rfl⟩⟩

theorem replaceClaim_split {before behind : List Claim} {c : Claim} (hi : c.slot = i)
    (ho : ∀ d ∈ before ++ behind, d.slot ≠ i) :
    replaceClaim (before ++ c :: behind) i r = before ++ { slot := i, request := r } :: behind := by
  have hsame (q : List Claim) (hq : ∀ d ∈ q, d.slot ≠ i) :
      q.map (fun c => if c.slot = i then { c with request := r } else c) = q :=
    (List.map_congr_left fun d hd => if_neg (hq d hd)).trans (List.map_id' q)
  unfold replaceClaim
  rw [List.map_append, List.map_cons, hsame before fun d hd => ho d (List.mem_append_left _ hd),
    hsame behind fun d hd => ho d (List.mem_append_right _ hd), if_pos hi, hi]

theorem claimPosition_split {before behind : List Claim} {c : Claim} (hi : c.slot = i) (ho : ∀ d ∈ before, d.slot ≠ i) :
    claimPosition (before ++ c :: behind) i = before.length + 1 := by
  have hbefore : before.findIdx (fun c => c.slot == i) = before.length :=
    List.findIdx_eq_length_of_false fun d hd => beq_eq_false_iff_ne.2 (ho d hd)
  unfold claimPosition
  rw [List.findIdx_append, hbefore, if_neg (Nat.lt_irrefl _), List.findIdx_cons, beq_iff_eq.2 hi, cond_true, Nat.zero_add]

/-- A claim changes no slot but its own, and none but in its outstanding count (R92, R103). -/
theorem State.takeClaim_slots (s : State) (i : SlotId) (b : Byte) (r : Request) {j : SlotId} (hj : j ≠ i) :
    (s.takeClaim i b r).slots.at j = s.slots.at j := by
  rcases s.takeClaim_cases i b r with ⟨reason, h⟩ | ⟨e, l, -, hl, ⟨x, -, h⟩ | h | h⟩ <;> rw [h]
  · rfl
  · rw [(State.inHold_spec hl x r).1]
  · rfl
  · rw [(State.admitClaim_spec hl i r).1, State.moreOutstanding_slots, Table.at_put_other _ _ hj]

theorem State.takeClaim_others (s : State) (i : SlotId) (e : ElementId) (r : Request) {k : ElementId} (hk : k ≠ e) :
    (s.takeClaim i (elementByte e) r).loadedAt k = s.loadedAt k := by
  rcases s.takeClaim_cases i (elementByte e) r with ⟨reason, h⟩ | ⟨e', l, hb, hl, hcases⟩
  · rw [h]
    rfl
  · obtain rfl : e = e' := Option.some.inj ((elementOf_elementByte e).symm.trans (hb ▸ elementOf_elementByte e'))
    rcases hcases with ⟨x, -, h⟩ | h | h <;> rw [h]
    · exact (State.inHold_spec hl x r).2.1 k hk
    · simp [State.requestReplaced, hk]
    · exact (State.admitClaim_spec hl i r).2.1 k hk

/-! ### After the bus arbiter's choice (R128) -/

theorem Loaded.started_act {a : Actuation} (c : BusCommand) (ha : m.act = some a) :
    ∃ sent, (m.started c).act = some { a with sent } := by
  cases c with
  | actuate =>
    unfold Loaded.started
    dsimp only
    rw [ha]
    dsimp only
    split
    · exact ⟨a.sent, rfl⟩
    · exact ⟨true, rfl⟩
  | probe | fetch | actionPoll | sensorPoll | safe => exact ⟨a.sent, ha⟩

/-- What the bus arbiter leaves of an element, and of its actuation record, of which it writes the sent mark alone (R130). -/
theorem State.settle_servedAct (h : s.loadedAt e = some m) : ∃ n, s.settle.loadedAt e = some n ∧ m.Served n ∧
    ∀ a, m.act = some a → ∃ sent, n.act = some { a with sent } := by
  obtain ⟨n, hn, hserved⟩ := State.settle_served h
  refine ⟨n, hn, hserved, fun a ha => ?_⟩
  obtain ⟨n', hn', hcases⟩ := State.settle_get h
  obtain rfl : n' = n := Option.some.inj (hn'.symm.trans hn)
  rcases hcases with rfl | ⟨c, -, rfl, -⟩
  · exact ⟨a.sent, ha⟩
  · exact Loaded.started_act c ha

end

/-- Settles O17: a claim is refused by the first test that fails, or acts in its hold, replaces, is granted or is queued. -/
theorem claimIsGrantedQueuedOrRefused : Obligations.ClaimIsGrantedQueuedOrRefused := by
  intro s f rest i radio b r hf
  have hs := s.takenFromRobot_silent rest i radio
  have hat := s.takenFromRobot_loadedAt rest i radio
  have hout := s.takenFromRobot_outstanding rest i radio
  have hverdicts : (s.takenFromRobot rest i radio).link.verdicts = s.link.verdicts := rfl
  have hkeep := (ArbiterKeeps.takeClaim (s.takenFromRobot rest i radio) i b r).toBus
  refine ⟨_, hf.exec_eq, hkeep.trans (.settle _), fun j hj => ?_, fun reason hr => ?_, fun e l hb h => ?_⟩
  · rw [State.settle_slots, State.takeClaim_slots _ i b r hj, hout]
  · rw [State.takeClaim_refused hs hr.taken]
    refine ⟨?_, State.settle_slots _, fun k => ?_⟩
    · rw [State.settle_link]
      rfl
    · rw [State.settle_requests, State.queueVerdict_loadedAt, hat]
  · subst hb
    have hallowed : ClaimAllowed (s.takenFromRobot rest i radio) i e l r := h.taken
    have hpass : ClaimPasses s i e l r → ClaimPasses (s.takenFromRobot rest i radio) i e l r := .taken
    generalize s.takenFromRobot rest i radio = u at *
    have hl := hallowed.loaded
    obtain ⟨m, hm⟩ : ∃ m, (u.takeClaim i (elementByte e) r).loadedAt e = some m := by
      have hentry := hkeep.entry e
      rw [hl, Option.map_some, Option.map_eq_some_iff] at hentry
      exact hentry.imp fun _ => And.left
    obtain ⟨n, hn, hserved, hact⟩ := State.settle_servedAct hm
    refine ⟨n, hn, .settle fun k hk => (u.takeClaim_others i e r hk).trans (hat k), fun x hx hi => ?_,
      fun before c behind hx hq hc ho => ?_, fun hp => ?_⟩
    · subst hi
      rw [State.takeClaim_holder hs hallowed hx rfl] at hm ⊢
      rw [State.settle_slots, State.settle_link, ← hverdicts, ← hout]
      obtain ⟨hslots, -, hfree, hbusy⟩ := State.inHold_spec hl x r
      have hmade {m' : Loaded} (h : (u.inHold e l x r).loadedAt e = some m') : m = m' := Option.some.inj (hm.symm.trans h)
      have hclaims : m.claims = l.claims := by
        cases ha : l.act with
        | none =>
          rw [hmade (hfree ha).1]
          rfl
        | some a => rw [hmade (hbusy a ha).1]
      refine ⟨by rw [hslots], hserved.claims.trans hclaims, fun hfree' => ?_, fun a ha => ?_⟩
      · obtain ⟨hmade', hverdict⟩ := hfree hfree'
        obtain rfl := hmade hmade'
        exact ⟨hserved.hold.trans hx, hact _ rfl, hverdict⟩
      · obtain ⟨hmade', hnone, hsome⟩ := hbusy a ha
        obtain rfl := hmade hmade'
        exact ⟨hserved.hold, hact a ha, hnone, hsome⟩
    · rw [State.takeClaim_waiting hs hallowed hx (hq ▸ List.mem_append_right _ (List.mem_cons_self ..)) hc] at hm ⊢
      obtain rfl : m = { l with claims := replaceClaim l.claims i r } :=
        Option.some.inj (hm.symm.trans (by simp [State.requestReplaced, hl]))
      rw [State.settle_slots, State.settle_link, ← hverdicts, ← hout]
      refine ⟨rfl, hserved.hold, hserved.request, ?_, ?_⟩
      · rw [hserved.claims, hq]
        exact replaceClaim_split hc ho
      · rw [← claimPosition_split hc fun d hd => ho d (List.mem_append_left _ hd), ← hq]
        rfl
    · rw [State.takeClaim_new hs (hpass hp).toClaimNew, State.newClaimRefusal_passes (hpass hp), Option.elim_none] at hm ⊢
      rw [State.settle_slots, State.settle_link, ← hverdicts, ← hout]
      obtain ⟨hslots, -, hfree, hbusy⟩ := State.admitClaim_spec hl i r
      have hmade {m' : Loaded} (h : (u.admitClaim i e l r).loadedAt e = some m') : m = m' := Option.some.inj (hm.symm.trans h)
      refine ⟨by rw [hslots, State.moreOutstanding_slots, Table.at_put_same], fun hh ha => ?_, fun hb => ?_⟩
      · obtain ⟨hmade', hverdict⟩ := hfree hh ha
        obtain rfl := hmade hmade'
        exact ⟨hserved.granted { slot := i, request := r } ⟨rfl, rfl⟩, hserved.claims, hverdict⟩
      · obtain ⟨hmade', hverdict⟩ := hbusy hb
        obtain rfl := hmade hmade'
        exact ⟨hserved.hold, hserved.request, hserved.claims, hverdict⟩

end Sys2Proof.Machine
end

section
/-! SUPPORT. BUS_PAUSE and BUS_RESUME, and the moments of a transaction: the edges of an answer, and the end of the rest with the
first due transaction (R2, R119, R121, R123, R128 to R138, R145, R146). -/

namespace Sys2Proof.Machine

open Sys2Proof

section
variable {s : State} {rest : List Frame} {r : Transaction} {chars : List BusChar} {e : ElementId} {l : Loaded} {c : BusCommand}

/-! ### BUS_PAUSE and BUS_RESUME (R145, R146) -/

theorem State.anyStoppable_iff (s : State) :
    (allOf 4).any (fun f => (s.fields.at f).phase.stoppable) = true ↔ ∃ g, (s.fields.at g).phase.stoppable = true := by
  simp only [List.any_eq_true, mem_allOf, true_and]

theorem runBusPause_live (h : ∃ g, (s.fields.at g).phase.stoppable = true) : runBusPause s [] = .error .fieldLive :=
  if_pos (s.anyStoppable_iff.2 h)

/-- A RUNNING bus is paused, at once or as its transaction ends, and any other is left as it is (R145). -/
theorem runBusPause_passes (h : ∀ g, (s.fields.at g).phase.stoppable = false) :
    (s.bus.state = .running → runBusPause s [] =
      .ok (s.updBus fun b => { b with state := if s.bus.activity = .idle then .paused else .pausing }, [])) ∧
    (s.bus.state = .pausing ∨ s.bus.state = .paused → runBusPause s [] = .ok (s, [])) := by
  have hlive : ¬ (allOf 4).any (fun f => (s.fields.at f).phase.stoppable) = true := fun hn =>
    let ⟨g, hg⟩ := s.anyStoppable_iff.1 hn
    nomatch (h g).symm.trans hg
  unfold runBusPause
  dsimp only
  rw [if_neg hlive]
  refine ⟨fun hs => by rw [hs], fun hs => ?_⟩
  rcases hs with hs | hs <;> rw [hs]

/-- The bus is RUNNING again, and its arbiter chooses (R146). -/
def State.busResumed (s : State) : State := (s.updBus fun b => { b with state := .running }).settle

theorem runBusResume_spec (s : State) :
    (s.bus.state = .running ∨ s.bus.state = .startingIdle → runBusResume s [] = .error .state) ∧
    (s.bus.state = .pausing ∨ s.bus.state = .paused → runBusResume s [] = .ok (s.busResumed, [])) := by
  unfold runBusResume
  dsimp only
  constructor <;> rintro (hs | hs) <;> rw [hs] <;> rfl

end

/-- Settles O32: each rule's tests, and what a bus that is RUNNING again leaves alone. -/
theorem busPauseAndResume : Obligations.BusPauseAndResume := by
  refine ⟨fun s f rest hf => ⟨fun hlive => ?_, fun hquiet hs => ?_, fun hquiet hs => ?_⟩,
    fun s f rest hf => ⟨fun hs => ?_, fun hs => ?_⟩⟩
  · exact congrArg Host.Outcome.next (hf.refused rfl runBusPause (runBusPause_live hlive))
  · exact congrArg Host.Outcome.next (hf.done rfl runBusPause ((runBusPause_passes (s := s.taken rest) hquiet).1 hs))
  · exact congrArg Host.Outcome.next (hf.done rfl runBusPause ((runBusPause_passes (s := s.taken rest) hquiet).2 hs))
  · exact congrArg Host.Outcome.next (hf.refused rfl runBusResume ((runBusResume_spec (s.taken rest)).1 hs))
  · have hkeep : BusKeeps ((s.taken rest).updBus fun b => { b with state := .running }) (s.taken rest).busResumed := .settle _
    refine ⟨_, congrArg Host.Outcome.next (hf.done rfl runBusResume ((runBusResume_spec (s.taken rest)).2 hs)),
      hkeep.busState, ?_, fun ha => ?_, State.settle_safeQueue _, hkeep.fields,
      State.settle_slots _, State.settle_mgmt _, hkeep.entry⟩
    · rw [State.queueReply_link, State.busResumed, State.settle_link]
      rfl
    · exact (State.settle_busy (s := (s.taken rest).updBus fun b => { b with state := .running }) (.inl ha)).2

section
variable {s : State} {r : Transaction} {chars : List BusChar} {e : ElementId} {l : Loaded} {c : BusCommand}

/-! ### The edges of an answer (R2, R119, R123) -/

/-- While the part sends its master frame, its end opens the window, and no edge is looked at (R119, R123). -/
theorem exec_sending (hf : s.bus.activity = .flight r) (hs : r.stage = .sending) :
    exec .masterFrameEnd s = .next (s.fly { r with stage := .window }) ∧
      ∀ ev, exec (.answerCharacter ev) s = .next s := by
  refine ⟨?_, fun ev => ?_⟩
  · change execMasterFrameEnd s = _
    unfold execMasterFrameEnd
    rw [hf]
    dsimp only
    rw [hs]
  · change execAnswerCharacter ev s = _
    unfold execAnswerCharacter
    rw [hf]
    dsimp only
    rw [hs]
    rfl

theorem Stage.listening_of (h : (r.stage = .window ∧ chars = []) ∨ r.stage = .answer chars) :
    r.stage.listening = some chars := by
  rcases h with ⟨h, rfl⟩ | h <;> rw [h] <;> rfl

theorem Transaction.deaf_eq_false {rested : Bool} (h : r.breakHold = true → rested = true) : r.deaf rested = false := by
  unfold Transaction.deaf
  cases hb : r.breakHold with
  | false => rfl
  | true => rw [h hb]; rfl

theorem State.answerEdge_deaf (s : State) (chars : List BusChar) {ev : AnswerEvent} (h : r.deaf ev.rested = true) :
    s.answerEdge r chars ev = s := if_pos h

/-- What a start bit is to a part that waits for no rest of the pair: a glitch, or a character that begins (R119, R123). -/
theorem State.answerEdge_begins (s : State) (chars : List BusChar) {rested : Bool} (h : r.deaf rested = false) :
    s.answerEdge r chars (.begins rested .high) = s.fly { r with breakHold := false } ∧
    s.answerEdge r chars (.begins rested .low) = s.fly { r with breakHold := false, stage := .answer chars } :=
  ⟨if_neg (Bool.eq_false_iff.1 h), if_neg (Bool.eq_false_iff.1 h)⟩

/-- What eleven bits are to it: a glitch, or a character of the answer (R2, R119, R123). -/
theorem State.answerEdge_completes (s : State) (chars : List BusChar) {edge : BusEdge} (h : r.deaf edge.rested = false) :
    (busCharacter edge.bits = none → s.answerEdge r chars (.completes edge) = s.fly { r with breakHold := false }) ∧
    ∀ x, busCharacter edge.bits = some x → s.answerEdge r chars (.completes edge) = s.answerReceived r chars x := by
  have hheard : s.answerEdge r chars (.completes edge) = (match busCharacter edge.bits with
      | none => s.fly { r with breakHold := false }
      | some x => s.answerReceived r chars x) := if_neg (Bool.eq_false_iff.1 h)
  rw [hheard]
  exact ⟨fun hb => by rw [hb], fun x hb => by rw [hb]⟩

theorem busCharacter_glitch {bits : BitVec 11} (h : bits.getLsbD 0 = true) : busCharacter bits = none := if_pos h

/-- A character that does not complete the answer joins it; after a low stop bit the part waits for the pair to rest (R2, R123). -/
theorem State.answerReceived_goesOn (s : State) (r : Transaction) {x : BusChar} (h : answerComplete (chars ++ [x]) = false) :
    s.answerReceived r chars x = s.fly { r with stage := .answer (chars ++ [x]), breakHold := !x.stop } :=
  if_neg (Bool.eq_false_iff.1 h)

/-- A character that completes the answer does what the row of its command does (R123). -/
theorem State.answerEdge_completesAnswer {edge : BusEdge} {x : BusChar} (hf : s.bus.activity = .flight r)
    (hs : r.stage = .answer chars) (hk : r.command = c) (hx : r.hears edge = some x)
    (hd : answerComplete (chars ++ [x]) = true) : s.answerEdge r chars (.completes edge) = s.completeAnswer c edge := by
  rw [State.completeAnswer_eq hf hs hk hx hd]
  unfold Transaction.hears at hx
  split at hx
  · cases hx
  · next hdeaf => exact (s.answerEdge_completes chars (Bool.eq_false_iff.2 hdeaf)).2 x hx

/-! ### The end of the rest (R128, R145) -/

theorem exec_busRestEnd (h : s.bus.activity = .rest) : exec .busRestEnd s = .next s.endRest.settle := by
  change execBusRestEnd s = _
  unfold execBusRestEnd
  rw [h]

/-- The end of the rest changes nothing that is due, nor which is the first (R128). -/
theorem State.FirstDue.endRest (h : s.FirstDue e l c) : s.endRest.FirstDue e l c :=
  ⟨h.loaded, h.due, h.rank, h.lowest, h.afterLast⟩

/-- With nothing due no probe turn stays (R138). -/
theorem State.clearIdleTurn_nothingDue (h : ∀ e l c, s.loadedAt e = some l → ¬ s.Due e l c) :
    s.clearIdleTurn.bus.probeTurn = false := by
  rw [s.clearIdleTurn_bus]
  cases ht : s.bus.probeTurn with
  | false => rfl
  | true =>
    have hcand : s.probeCandidate = none := State.probeCandidate_eq_none.2 fun k m hk =>
      Bool.eq_false_iff.2 fun hm => h k m .probe hk ⟨ht, m.missing_iff.1 hm⟩
    rw [hcand]
    rfl

/-- The probe turn stays where it has an element to probe (R138). -/
theorem State.clearIdleTurn_probeTurn (s : State) : s.clearIdleTurn.bus.probeTurn = true ↔
    s.bus.probeTurn = true ∧ ∃ k m, s.loadedAt k = some m ∧ (m.presence = .unknown ∨ m.presence = .absent) := by
  rw [s.clearIdleTurn_bus, Bool.and_eq_true, Option.isSome_iff_ne_none, Ne, State.probeCandidate_eq_none]
  simp only [not_forall, Bool.not_eq_false, Loaded.missing_iff, exists_prop]

/-! ### The transaction that starts (R121, R128, R130, R137, R138) -/

/-- The record of a transaction of an element kept as `l`, as it starts (R124). -/
def State.newTransaction (s : State) (e : ElementId) (l : Loaded) (c : BusCommand) : Transaction :=
  { element := e, command := c, window := s.timing.window, void := false, breakHold := false, stage := .sending
    bytes := masterFrame l.entry.busAddr c ((l.started c).masterBody c).1 ((l.started c).masterBody c).2 }

theorem State.startTransaction_spec (hl : s.loadedAt e = some l) (c : BusCommand) :
    (s.startTransaction e c).loadedAt e = some (l.started c) ∧
    (∀ k, k ≠ e → (s.startTransaction e c).loadedAt k = s.loadedAt k) ∧
    (s.startTransaction e c).bus = { s.bus with
      activity := .flight (s.newTransaction e l c)
      probeTurn := if c = .probe then false else s.bus.probeTurn
      lastProbed := if c = .probe then e else s.bus.lastProbed } := by
  unfold State.startTransaction
  rw [hl]
  dsimp only
  refine ⟨?_, fun k hk => ?_, rfl⟩
  · rw [State.updBus_loadedAt, State.updLoaded_loadedAt_same, hl, Option.map_some]
  · rw [State.updBus_loadedAt, State.updLoaded_loadedAt_other _ _ hk]

/-- A first ACTUATE sets the sent mark, flips the action toggle and clears the retry count; one sent again does none
of these (R130). -/
theorem Loaded.started_actuate {a : Actuation} (ha : l.act = some a) : l.started .actuate =
    { l with
      act := some { a with sent := true }, actToggle := if a.sent then l.actToggle else !l.actToggle
      retries := if a.sent then l.retries else 0, resend := none } := by
  unfold Loaded.started
  dsimp only
  rw [ha]
  obtain ⟨slot, request, state, sent, running⟩ := a
  cases sent <;> rfl

/-- The bytes of a master frame that carries an ACTUATE's action and argument (R121). -/
theorem masterFrame_actuate (addr action argument : Byte) (toggle : Bool) : masterFrame addr .actuate toggle [action, argument] =
    [addr, 0x02, (if toggle then 0x82 else 0x02), action, argument,
      busCheck [0x02, (if toggle then 0x82 else 0x02), action, argument]] := by
  cases toggle <;> rfl

/-- The bytes of a master frame without a payload (R121). -/
theorem masterFrame_bare (addr : Byte) (c : BusCommand) (toggle : Bool) : masterFrame addr c toggle [] =
    [addr, c.code, (if toggle then 0x80 else 0x00), busCheck [c.code, (if toggle then 0x80 else 0x00)]] := by
  cases toggle <;> rfl

/-- The end of the rest on a RUNNING bus with a transaction due (R128). -/
theorem State.endRest_starts (hs : s.bus.state = .running) (h : s.FirstDue e l c) :
    s.endRest.settle.loadedAt e = some (l.started c) ∧ (∀ k, k ≠ e → s.endRest.settle.loadedAt k = s.loadedAt k) ∧
    s.endRest.settle.bus.activity = .flight (s.newTransaction e l c) ∧
    s.endRest.settle.bus.probeTurn = (if c = .probe then false else s.endRest.clearIdleTurn.bus.probeTurn) ∧
    s.endRest.settle.bus.lastProbed = if c = .probe then e else s.bus.lastProbed := by
  have hrun : s.endRest.bus.state = .running := by rw [State.endRest_bus, hs]; rfl
  obtain ⟨hat, hothers, hbus⟩ :=
    State.startTransaction_spec ((s.endRest.clearIdleTurn_loadedAt e).trans h.loaded) c
  rw [State.settle_first hrun rfl h.endRest, hbus]
  refine ⟨hat, fun k hk => (hothers k hk).trans (s.endRest.clearIdleTurn_loadedAt k), ?_, rfl, ?_⟩
  · unfold State.newTransaction
    rw [s.endRest.clearIdleTurn_eq]
    rfl
  · rw [s.endRest.clearIdleTurn_bus]
    rfl

end

/-- Settles O49: the part sends, listens and reads edges; at the end of the rest the first due transaction starts. -/
theorem busMoments : Obligations.BusMoments := by
  refine fun s => ⟨fun r hf => ⟨fun hs => exec_sending hf hs, fun chars hs => ?_, fun p hp chars edge c hk hs hx hd => ?_⟩,
    fun hrest => ?_⟩
  · have hev (ev : AnswerEvent) : exec (.answerCharacter ev) s = .next (s.answerEdge r chars ev) :=
      execAnswerCharacter_listening ev hf (Stage.listening_of hs)
    simp only [hev]
    refine ⟨fun hb start bits => ?_, fun rested hrested => ?_⟩
    · have hdeaf : r.deaf false = true := by rw [Transaction.deaf, hb]; rfl
      exact ⟨congrArg Host.Outcome.next (s.answerEdge_deaf chars hdeaf),
        congrArg Host.Outcome.next (s.answerEdge_deaf chars hdeaf)⟩
    · have hdeaf := Transaction.deaf_eq_false hrested
      obtain ⟨hhigh, hlow⟩ := s.answerEdge_begins chars hdeaf
      refine ⟨congrArg Host.Outcome.next hhigh, congrArg Host.Outcome.next hlow, fun bits hg => ?_, fun c hd => ?_⟩
      · exact congrArg Host.Outcome.next
          ((s.answerEdge_completes chars (edge := ⟨rested, bits⟩) hdeaf).1 (busCharacter_glitch hg))
      · have hread := (s.answerEdge_completes chars (edge :=
          ⟨rested, BitVec.ofBool c.stop ++ BitVec.ofBool c.mark ++ c.data ++ 0#1⟩) hdeaf).2 c (busCharacter_append _ _ _)
        rw [hread, s.answerReceived_goesOn r hd]
        rfl
  · have hedge : exec (.answerCharacter (.completes edge)) s = .next (s.completeAnswer p.1 edge) := by
      rw [← State.answerEdge_completesAnswer hf hs hk hx hd]
      exact execAnswerCharacter_listening _ hf (Stage.listening_of (.inr hs))
    rw [hedge]
    simp only [List.mem_cons, List.not_mem_nil, or_false] at hp
    rcases hp with rfl | rfl | rfl | rfl | rfl | rfl <;> rfl
  · have hkeep : BusKeeps s.endRest s.endRest.settle := .settle _
    have hstate : s.endRest.settle.bus.state = if s.bus.state = .pausing then .paused else s.bus.state := hkeep.busState
    refine ⟨_, exec_busRestEnd hrest, hstate, ?_, State.settle_link _, State.settle_mgmt _, State.settle_slots _,
      State.settle_safeQueue _, fun hs => ?_, fun hs hn => ?_, fun e l c hs hd => ?_⟩
    · rw [hstate]
      exact .trans (t := s.endRest) { BusKeeps.refl _ with } hkeep
    · have hstill : s.endRest.bus.state ≠ .running := by
        rw [State.endRest_bus]
        dsimp only
        split
        · exact nofun
        · exact hs
      obtain ⟨helements, hactivity⟩ := State.settle_busy (.inr hstill)
      exact ⟨hactivity, helements⟩
    · have hnone : s.endRest.settle = s.endRest.clearIdleTurn :=
        State.settle_nothing (.inr (.inr fun e l c h => hn e l c h.loaded h.due))
      have hturn : s.endRest.clearIdleTurn.bus.probeTurn = false := State.clearIdleTurn_nothingDue hn
      rw [hnone]
      refine ⟨?_, ?_, hturn, ?_⟩
      · rw [State.clearIdleTurn_bus]
        rfl
      · rw [State.clearIdleTurn_eq]
        rfl
      · rw [State.clearIdleTurn_bus]
        rfl
    · obtain ⟨hat, hothers, hflight, hturn, hlast⟩ := State.endRest_starts hs hd
      refine ⟨_, _, hflight, rfl, rfl, rfl, rfl, rfl, rfl, hat, hothers, ?_, fun a hc ha => ?_, ?_, ?_, ?_, ?_, fun hc => ?_⟩
      · rintro rfl
        exact ⟨rfl, masterFrame_bare _ _ _⟩
      · subst hc
        rw [State.newTransaction, Loaded.started_actuate ha]
        exact ⟨rfl, masterFrame_actuate _ _ _ _⟩
      · rintro rfl
        exact ⟨rfl, masterFrame_bare _ _ _⟩
      · rintro rfl
        exact ⟨rfl, masterFrame_bare _ _ _⟩
      · rintro rfl
        exact ⟨rfl, masterFrame_bare _ _ _⟩
      · rintro rfl
        exact ⟨rfl, masterFrame_bare _ _ _, hturn, hlast⟩
      · rw [if_neg hc] at hturn hlast
        rw [hturn]
        exact ⟨hlast, s.endRest.clearIdleTurn_probeTurn⟩

end Sys2Proof.Machine
end

section
/-! SUPPORT. How an answer frame is read: the codes of its statuses, the statuses that each command allows, the character that
completes it, and its form (R119, R121, R122, R123). -/

namespace Sys2Proof.Machine

open Sys2Proof

section
variable {addr a b d : Byte} {k : BusCommand} {chars rest : List BusChar} {m f n x : BusChar} {payload : List Byte}

/-! ### Statuses (R122, section 11.6) -/

theorem statusOf_iff (b : Byte) (st : Status) : statusOf b = some st ↔ (b, st) ∈ [(0, Status.ok), (1, .hold), (2, .done),
    (3, .more), (4, .retry), (5, .reject), (6, .fault)] := by
  revert b
  cases st <;> decide +kernel

theorem statusAllowed_iff (c : BusCommand) (st : Status) (n : Nat) : statusAllowed c st n = true ↔ (c, st, n) ∈
    [(BusCommand.probe, Status.ok, 2), (.probe, .fault, 0),
      (.actuate, .ok, 0), (.actuate, .hold, 0), (.actuate, .retry, 0), (.actuate, .reject, 0), (.actuate, .fault, 0),
      (.actuate, .done, 1), (.actuate, .more, 1),
      (.actionPoll, .ok, 0), (.actionPoll, .hold, 0), (.actionPoll, .fault, 0), (.actionPoll, .done, 1),
      (.actionPoll, .more, 0), (.actionPoll, .more, 1),
      (.sensorPoll, .ok, 0), (.sensorPoll, .hold, 0), (.sensorPoll, .fault, 0), (.sensorPoll, .done, 1),
      (.sensorPoll, .more, 0), (.sensorPoll, .more, 1),
      (.fetch, .ok, 1), (.fetch, .ok, 2), (.fetch, .ok, 3), (.fetch, .ok, 4),
      (.fetch, .more, 1), (.fetch, .more, 2), (.fetch, .more, 3), (.fetch, .more, 4), (.fetch, .fault, 0),
      (.safe, .ok, 0), (.safe, .retry, 0), (.safe, .fault, 0), (.safe, .more, 0), (.safe, .done, 1)] := by
  have hone : (1 ≤ n ∧ n ≤ 4) ↔ n = 1 ∨ n = 2 ∨ n = 3 ∨ n = 4 := by omega
  cases c with
  | fetch => cases st <;> simp [statusAllowed, hone]
  | probe | actuate | actionPoll | sensorPoll | safe => cases st <;> simp [statusAllowed]

/-! ### The characters of an answer (R119, R123) -/

theorem charIntact_iff (x : BusChar) (first : Bool) : charIntact x first = true ↔ x.stop = true ∧ x.mark = first := by
  simp [charIntact]

theorem answerComplete_cons (m f n : BusChar) (rest : List BusChar) : answerComplete (m :: f :: n :: rest) = true ↔
    n.stop = true ∧ n.mark = false ∧ n.data.toNat ≤ 8 ∧ rest.length = n.data.toNat + 1 := by
  unfold answerComplete declaredLength
  dsimp only
  have htest : (charIntact n false && decide (n.data.toNat ≤ 8)) = true ↔
      (n.stop = true ∧ n.mark = false) ∧ n.data.toNat ≤ 8 := by
    rw [Bool.and_eq_true, charIntact_iff, decide_eq_true_iff]
  by_cases h : (n.stop = true ∧ n.mark = false) ∧ n.data.toNat ≤ 8
  · rw [if_pos (htest.2 h)]
    obtain ⟨⟨hstop, hmark⟩, hlen⟩ := h
    simp only [List.length_cons, beq_iff_eq, hstop, hmark, hlen, true_and]
    omega
  · rw [if_neg (mt htest.1 h)]
    exact ⟨nofun, fun ⟨hstop, hmark, hlen, _⟩ => absurd ⟨⟨hstop, hmark⟩, hlen⟩ h⟩

/-- The characters that complete an answer: four, and as many as its intact length byte of at most 8 declares (R123). -/
theorem answerComplete_iff (chars : List BusChar) : answerComplete chars = true ↔
    ∃ mark status n rest, chars = mark :: status :: n :: rest ∧
      n.stop = true ∧ n.mark = false ∧ n.data.toNat ≤ 8 ∧ rest.length = n.data.toNat + 1 := by
  constructor
  · intro h
    match chars, h with
    | m :: f :: n :: rest, h => exact ⟨m, f, n, rest, rfl, (answerComplete_cons m f n rest).1 h⟩
  · rintro ⟨m, f, n, rest, rfl, h⟩
    exact (answerComplete_cons m f n rest).2 h

/-! ### The form of an answer (section 6.2, R121, R122) -/

/-- An answer, its first three characters `m`, `f` and `n` the address, the status and the length, is in the form of section 6.2
for the element at `addr`: each character is intact, and address, length, size and check are right (R119, R121, R122). -/
structure AnswerFormed (addr : Byte) (m f n : BusChar) (rest : List BusChar) : Prop where
  first : charIntact m true = true
  others : ∀ x ∈ f :: n :: rest, charIntact x false = true
  address : m.data = addr + 64
  length : n.data.toNat ≤ 8
  size : rest.length = n.data.toNat + 1
  check : (rest.drop n.data.toNat).map (·.data) =
    [busCheck ([f.data, n.data] ++ (rest.take n.data.toNat).map (·.data))]

/-- What the status byte `b` and the payload of a well-formed answer to the command `k` say: GARBLED unless the byte names a
status that the command allows with that payload length (R122, R123). -/
def answerMeaning (k : BusCommand) (b : Byte) (payload : List Byte) : BusOutcome :=
  match statusOf b with
  | some st => if statusAllowed k st payload.length then .answered st payload else .garbled
  | none => .garbled

theorem answerMeaning_allowed {st : Status} (hst : statusOf b = some st) (h : statusAllowed k st payload.length = true) :
    answerMeaning k b payload = .answered st payload := by
  unfold answerMeaning
  rw [hst]
  exact if_pos h

theorem answerMeaning_garbled (h : ∀ st, statusOf b = some st → statusAllowed k st payload.length = false) :
    answerMeaning k b payload = .garbled := by
  unfold answerMeaning
  cases hst : statusOf b with
  | none => rfl
  | some st => exact if_neg (Bool.eq_false_iff.1 (h st hst))

/-- A well-formed answer is read as its status byte and payload say, and every other is GARBLED (R122, R123). -/
theorem parseAnswer_cons (addr : Byte) (k : BusCommand) (m f n : BusChar) (rest : List BusChar) :
    (AnswerFormed addr m f n rest → parseAnswer addr k (m :: f :: n :: rest) =
      answerMeaning k f.data ((rest.take n.data.toNat).map (·.data))) ∧
    (¬ AnswerFormed addr m f n rest → parseAnswer addr k (m :: f :: n :: rest) = .garbled) := by
  unfold parseAnswer
  dsimp only
  refine ⟨fun h => if_pos ?_, fun h => if_neg fun hn => h ?_⟩
  · obtain ⟨hfirst, hothers, haddress, hlength, hsize, hcheck⟩ := h
    simp only [Bool.and_eq_true, List.all_eq_true, beq_iff_eq, decide_eq_true_iff]
    exact ⟨⟨⟨⟨⟨hfirst, hothers⟩, haddress⟩, hlength⟩, hsize⟩, hcheck⟩
  · simp only [Bool.and_eq_true, List.all_eq_true, beq_iff_eq, decide_eq_true_iff] at hn
    obtain ⟨⟨⟨⟨⟨hfirst, hothers⟩, haddress⟩, hlength⟩, hsize⟩, hcheck⟩ := hn
    exact ⟨hfirst, hothers, haddress, hlength, hsize, hcheck⟩

/-- Whatever is not GARBLED was well-formed (R122, R123). -/
theorem parseAnswer_garbled (h : ∀ m f n rest, chars = m :: f :: n :: rest → ¬ AnswerFormed addr m f n rest) :
    parseAnswer addr k chars = .garbled := by
  match chars, h with
  | [], _ | [_], _ | [_, _], _ => rfl
  | m :: f :: n :: rest, h => exact (parseAnswer_cons addr k m f n rest).2 (h m f n rest rfl)

/-- Every character of a well-formed answer has its stop bit, and the first alone its mark bit (R119). -/
theorem AnswerFormed.intact (h : AnswerFormed addr m f n rest) {j : Nat} (hx : (m :: f :: n :: rest)[j]? = some x) :
    x.stop = true ∧ x.mark = decide (j = 0) := by
  cases j with
  | zero =>
    obtain rfl : m = x := Option.some.inj hx
    exact (charIntact_iff m true).1 h.first
  | succ j =>
    rw [decide_eq_false (Nat.succ_ne_zero j)]
    exact (charIntact_iff x false).1 (h.others x (List.mem_of_getElem? (List.getElem?_cons_succ ▸ hx)))

/-- The characters of a frame carry its bytes: address, status, length, payload and check (section 6.2). -/
theorem frame_chars (hlen : payload.length ≤ 8)
    (h : chars.map (·.data) = a :: b :: byte payload.length :: (payload ++ [d])) :
    ∃ m f n rest, chars = m :: f :: n :: rest ∧ m.data = a ∧ f.data = b ∧ n.data = byte payload.length ∧
      n.data.toNat = payload.length ∧ rest.length = n.data.toNat + 1 ∧
      (rest.take n.data.toNat).map (·.data) = payload ∧ (rest.drop n.data.toNat).map (·.data) = [d] := by
  match chars, h with
  | m :: f :: n :: rest, h =>
    simp only [List.map_cons, List.cons.injEq] at h
    obtain ⟨hm, hf, hn, hrest⟩ := h
    have hnat : n.data.toNat = payload.length := by rw [hn, byte_toNat (by omega)]
    refine ⟨m, f, n, rest, rfl, hm, hf, hn, hnat, ?_, ?_, ?_⟩
    · rw [hnat, ← List.length_map (f := (·.data)), hrest, List.length_append]
      rfl
    · rw [List.map_take, hrest, hnat, List.take_left]
    · rw [List.map_drop, hrest, hnat, List.drop_left]

/-- A well-formed answer with the bytes of a frame is read as that frame's status and payload (R122, R123). -/
theorem parseAnswer_frame (hlen : payload.length ≤ 8)
    (h : chars.map (·.data) =
      (addr + 64) :: b :: byte payload.length :: (payload ++ [busCheck ([b, byte payload.length] ++ payload)]))
    (hintact : ∀ j x, chars[j]? = some x → x.stop = true ∧ x.mark = decide (j = 0)) :
    answerComplete chars = true ∧ parseAnswer addr k chars = answerMeaning k b payload := by
  obtain ⟨m, f, n, rest, rfl, hm, hf, hn, hnat, hsize, htake, hdrop⟩ := frame_chars hlen h
  obtain ⟨hstop, hmark⟩ := hintact 2 n rfl
  have hformed : AnswerFormed addr m f n rest := by
    refine ⟨(charIntact_iff m true).2 (hintact 0 m rfl), fun x hx => ?_, hm, hnat ▸ hlen, hsize, ?_⟩
    · obtain ⟨j, hj⟩ := List.mem_iff_getElem?.1 hx
      exact (charIntact_iff x false).2 (hintact (j + 1) x hj)
    · rw [hdrop, htake, hf, hn]
  rw [(parseAnswer_cons addr k m f n rest).1 hformed, htake, hf]
  exact ⟨(answerComplete_cons m f n rest).2 ⟨hstop, hmark, hnat ▸ hlen, hsize⟩, rfl⟩

/-- A frame asked of another address, or with another check, is GARBLED (R122, R123). -/
theorem parseAnswer_frame_wrong (hlen : payload.length ≤ 8)
    (h : chars.map (·.data) = a :: b :: byte payload.length :: (payload ++ [d]))
    (hwrong : a ≠ addr + 64 ∨ d ≠ busCheck ([b, byte payload.length] ++ payload)) : parseAnswer addr k chars = .garbled := by
  refine parseAnswer_garbled fun m f n rest heq hformed => ?_
  obtain ⟨m', f', n', rest', heq', hm, hf, hn, -, -, htake, hdrop⟩ := frame_chars hlen h
  obtain ⟨rfl, rfl, rfl, rfl⟩ : m' = m ∧ f' = f ∧ n' = n ∧ rest' = rest := by simpa using heq'.symm.trans heq
  rcases hwrong with hwrong | hwrong
  · exact hwrong (hm.symm.trans hformed.address)
  · have hcheck := hformed.check
    rw [htake, hdrop, hf, hn] at hcheck
    exact hwrong (List.singleton_inj.1 hcheck)

end

/-- Settles O51: the codes, the allowed statuses and the completing character, then the frame that is read and each that is not. -/
theorem answerFrameIsRead : Obligations.AnswerFrameIsRead := by
  refine ⟨statusOf_iff, statusAllowed_iff, answerComplete_iff, fun addr b c payload bytes chars hlen hbytes hchars => ?_⟩
  have hframe : chars.map (·.data) =
      (addr + 64) :: b :: byte payload.length :: (payload ++ [busCheck ([b, byte payload.length] ++ payload)]) := by
    rw [hchars, hbytes]
    rfl
  refine ⟨fun hintact => ?_, fun ⟨j, x, hx, hbad⟩ => ?_, fun other ho => ?_, fun init x d hinit hd => ?_⟩
  · obtain ⟨hcomplete, hparse⟩ := parseAnswer_frame (k := c) hlen hframe hintact
    exact ⟨hcomplete, fun st hst hallowed => hparse.trans (answerMeaning_allowed hst hallowed),
      fun hnone => hparse.trans (answerMeaning_garbled hnone)⟩
  · refine parseAnswer_garbled fun m f n rest heq hformed => ?_
    obtain ⟨hstop, hmark⟩ := hformed.intact (heq ▸ hx)
    rw [hstop, hmark] at hbad
    simp at hbad
  · exact parseAnswer_frame_wrong hlen hframe (.inl fun h => ho (add_right_cancel h).symm)
  · rw [hinit, List.map_append, List.map_singleton, ← List.cons_append, ← List.cons_append, ← List.cons_append] at hframe
    obtain ⟨hrest, hx⟩ := List.append_inj' hframe rfl
    refine parseAnswer_frame_wrong (a := addr + 64) (d := d) hlen ?_ (.inr fun h => hd (h.trans (List.singleton_inj.1 hx).symm))
    rw [List.map_append, hrest]
    rfl

end Sys2Proof.Machine
end

section
/-! SUPPORT. The answers to a PROBE and to a FETCH: an element that is found, and the reports handed to the Score Tally (R125, R126,
R137, R142, R143, R150). -/

namespace Sys2Proof.Machine

open Sys2Proof

section
variable {s t u : State} {e : ElementId} {l m l' : Loaded} {p : Presence} {st : Status} {payload : List Byte}

/-! ### An element whose presence changes in an answer (R142, R143) -/

theorem Loaded.withPresence_misses (l : Loaded) (p : Presence) (n : Nat) : (l.withPresence p n).misses = l.misses := by
  unfold Loaded.withPresence
  dsimp only
  split <;> rfl

/-- An element that was not PRESENT takes its new presence, and, found and reporting, its sensor countdown (R142, R143). -/
theorem Loaded.withPresence_found (h : l.presence ≠ .present) (p : Presence) (n : Nat) : l.withPresence p n =
    { l with presence := p, sensor := if p = .present ∧ l.entry.kind ≠ .actuating then some n else l.sensor } := by
  unfold Loaded.withPresence
  rw [if_neg h]
  simp only [ElementKind.senses_iff]

/-- The presence of an element that was not PRESENT changes, and no more than its notice follows (R143). -/
theorem State.changePresence_found (hl : s.loadedAt e = some l) (h : l.presence ≠ .present) (hp : p ≠ .absent) :
    s.changePresence e p = (s.updLoaded e fun l => l.withPresence p s.timing.sensor).queueNotice (.element e p) := by
  unfold State.changePresence State.setPresence State.reportLoss
  rw [hl]
  dsimp only
  rw [if_neg h, if_neg hp]

theorem State.becomeFaulted_unfaulted (hl : s.loadedAt e = some l) (h : ∀ cause, l.presence ≠ .faulted cause) (c : FaultCause) :
    s.becomeFaulted e c = s.changePresence e (.faulted c) := by
  unfold State.becomeFaulted
  rw [hl]
  dsimp only
  split
  · next cause hc => exact absurd hc (h cause)
  all_goals rfl

namespace RestsFor

theorem arbiter (h : RestsFor e t) (hk : ArbiterKeeps t u) : RestsFor e u := by
  obtain ⟨hrest, m, hm, hmisses⟩ := h
  have hside := hk.busSide e
  rw [hm, Option.map_some, Option.map_eq_some_iff] at hside
  obtain ⟨n, hn, hside⟩ := hside
  exact ⟨by rw [hk.bus, hrest], n, hn, (congrArg BusSide.misses hside).trans hmisses⟩

theorem changePresence (h : RestsFor e t) (p : Presence) : RestsFor e (t.changePresence e p) := by
  have hset : RestsFor e (t.setPresence e p) := by
    unfold State.setPresence
    split
    · exact (h.updLoaded _ fun m => m.withPresence_misses p t.timing.sensor).dropSafe
    · exact h.updLoaded _ fun m => m.withPresence_misses p t.timing.sensor
  unfold State.changePresence State.reportLoss
  split
  · exact h
  · split
    · obtain ⟨hrest, hloaded⟩ := hset.arbiter (.elementLost _ e _)
      exact ⟨hrest, hloaded⟩
    · obtain ⟨hrest, hloaded⟩ := hset
      exact ⟨hrest, hloaded⟩

theorem probeAnswered (h : RestsFor e t) (l : Loaded) (st : Status) (payload : List Byte) :
    RestsFor e (t.probeAnswered e l st payload) := by
  unfold State.probeAnswered
  split
  · split
    · split
      · exact h.changePresence _
      · exact h.changePresence _
    · exact h
  · exact h.becomeFaulted _
  · exact h

end RestsFor

/-! ### PROBE (R142) -/

/-- What a class and a mask that a missing element answers make of it (R142). -/
def Loaded.found (l : Loaded) (cls mask : Byte) : Presence :=
  if kindOf cls = some l.entry.kind ∧ l.entry.actionMask &&& mask = l.entry.actionMask then .present else .faulted .mismatch

theorem Loaded.found_ne_absent (l : Loaded) (cls mask : Byte) : l.found cls mask ≠ .absent := by
  unfold Loaded.found
  split <;> exact nofun

theorem State.probeAnswered_missing (hm : l.presence = .unknown ∨ l.presence = .absent) (cls mask : Byte) :
    s.probeAnswered e l .ok [cls, mask] = s.changePresence e (l.found cls mask) := by
  unfold State.probeAnswered Loaded.found maskCovers
  dsimp only
  rw [if_pos (l.missing_iff.2 hm)]
  simp only [beq_iff_eq]
  split <;> rfl

theorem State.probeAnswered_present (h : l.presence = .present) (payload : List Byte) : s.probeAnswered e l .ok payload = s := by
  have hm : ¬ l.missing = true := fun hn => (l.missing_iff.1 hn).elim (fun hu => nomatch h.symm.trans hu) fun ha =>
    nomatch h.symm.trans ha
  unfold State.probeAnswered
  split
  · exact if_neg hm
  · next h => cases h
  · rfl

/-- The presence of an element that was not PRESENT changes in an answer, and the bus arbiter chooses (R128, R143). -/
theorem Heard.changePresence (h : Heard s t e { l with misses := 0 }) (hl : l.presence ≠ .present) (hp : p ≠ .absent)
    (hl' : (t.changePresence e p).settle.loadedAt e = some l') :
    l' = { l with
      presence := p, misses := 0
      sensor := if p = .present ∧ l.entry.kind ≠ .actuating then some s.timing.sensor else l.sensor } ∧
    (s.mgmt.notices.length < 16 → (t.changePresence e p).settle.mgmt.notices =
      s.mgmt.notices ++ [{ dropped := s.mgmt.dropped, content := .element e p }]) := by
  have heq := State.changePresence_found h.loaded hl hp
  have hchanged := h.updLoaded fun l => l.withPresence p t.timing.sensor
  refine ⟨?_, fun hroom => ?_⟩
  · obtain ⟨hat, -⟩ := State.settle_rest (s := t.changePresence e p) (by rw [heq]; exact hchanged.rest)
    rw [hat, heq, State.queueNotice_loadedAt, hchanged.loaded] at hl'
    rw [← Option.some.inj hl', Loaded.withPresence_found (l := { l with misses := 0 }) hl, h.timing]
  · rw [State.settle_mgmt, heq, State.queueNotice_room _ _ (by rw [hchanged.mgmt]; exact hroom), hchanged.mgmt]

end

/-- Settles O52: class and mask of a missing element's answer decide its presence, and a PRESENT element's answer changes nothing
but the miss count. -/
theorem probeAnswerResult : Obligations.ProbeAnswerResult := by
  intro s edge r chars l st payload h
  have hx : exec (.probeAnswer edge) s = .next ((s.heardFrom r.element).probeAnswered r.element l st payload).settle :=
    congrArg Host.Outcome.next h.run
  obtain ⟨hheard, -⟩ := h.heard
  obtain ⟨hrest, l', hl', hmisses⟩ := ((hheard.restsFor rfl).probeAnswered l st payload).settle
  have helsewhere (hm : l.presence = .unknown ∨ l.presence = .absent) : l.presence ≠ .present := by
    rcases hm with hm | hm <;> rw [hm] <;> exact nofun
  refine ⟨_, l', hx, .heardAnswered s r.element l st payload (k := .probe) nofun, hrest, hl', hmisses, ?_, ?_, ?_⟩
  · rintro cls mask p rfl rfl hm rfl
    rw [State.probeAnswered_missing hm] at hl' ⊢
    exact hheard.changePresence (helsewhere hm) (l.found_ne_absent cls mask) hl'
  · rintro rfl hm
    have heq : (s.heardFrom r.element).probeAnswered r.element l .fault payload =
        (s.heardFrom r.element).changePresence r.element (.faulted .fault) :=
      State.becomeFaulted_unfaulted hheard.loaded
        (fun cause hc => hm.elim (fun hu => nomatch hu.symm.trans hc) fun ha => nomatch ha.symm.trans hc) .fault
    rw [heq] at hl' ⊢
    exact hheard.changePresence (helsewhere hm) nofun hl'
  · rintro hp rfl
    rw [State.probeAnswered_present hp] at hl' ⊢
    exact ⟨Option.some.inj (hl'.symm.trans hheard.settle.loaded), hheard.settle.mgmt⟩

section
variable {s t u : State} {e : ElementId} {l m l' : Loaded} {st : Status} {payload : List Byte}

/-! ### Reports (R137, R150) -/

/-- What the taking of an element's reports leaves alone: all but the tallies, the notices and the event counts (R150). -/
structure ReportKeeps (s t : State) : Prop where
  link : t.link = s.link
  slots : t.slots = s.slots
  fields : t.fields = s.fields
  bus : t.bus = s.bus
  rules : ∀ k, (t.elements.at k).rules = (s.elements.at k).rules
  loaded : ∀ k, t.loadedAt k = s.loadedAt k

theorem ReportKeeps.refl (s : State) : ReportKeeps s s := ⟨rfl, rfl, rfl, rfl, fun _ => rfl, fun _ => rfl⟩

theorem ReportKeeps.trans (h : ReportKeeps s t) (k : ReportKeeps t u) : ReportKeeps s u :=
  ⟨k.link.trans h.link, k.slots.trans h.slots, k.fields.trans h.fields, k.bus.trans h.bus,
    fun e => (k.rules e).trans (h.rules e), fun e => (k.loaded e).trans (h.loaded e)⟩

/-- Two states are alike to the Score Tally as it takes reports of element `e`: what it reads and writes is the same in both,
the element's entry and hold included (R150 to R153, R158 to R160). -/
structure TallyAlike (e : ElementId) (s t : State) : Prop where
  slots : t.slots = s.slots
  fields : t.fields = s.fields
  tallies : t.tallies = s.tallies
  mgmt : t.mgmt = s.mgmt
  rules : ∀ k, (t.elements.at k).rules = (s.elements.at k).rules
  eventCount : ∀ k, (t.elements.at k).eventCount = (s.elements.at k).eventCount
  loaded : (t.loadedAt e).map (fun l => (l.entry, l.hold)) = (s.loadedAt e).map fun l => (l.entry, l.hold)

theorem State.countReport_rules (s : State) (e : ElementId) (n : Nat) (k : ElementId) :
    ((s.countReport e n).elements.at k).rules = (s.elements.at k).rules := by
  unfold State.countReport
  rw [State.updElement_elements, Table.at_put]
  split
  · next h => rw [h]
  · rfl

theorem State.countReport_eventCount (s : State) (e : ElementId) (n : Nat) (k : ElementId) :
    ((s.countReport e n).elements.at k).eventCount =
      if k = e then saturate (s.elements.at e).eventCount n else (s.elements.at k).eventCount := by
  unfold State.countReport
  rw [State.updElement_elements, Table.at_put]
  split <;> rfl

theorem ReportKeeps.queueNotice (s : State) (c : NoticeContent) : ReportKeeps s (s.queueNotice c) := { ReportKeeps.refl s with }

theorem ReportKeeps.takeReport (s : State) (e : ElementId) (k : EventKind) (n : Nat) : ReportKeeps s (s.takeReport e k n) := by
  have hcount : ReportKeeps s (s.countReport e n) :=
    { ReportKeeps.refl s with rules := s.countReport_rules e n, loaded := s.countReport_loadedAt e n }
  unfold State.takeReport State.judgeReport
  dsimp only
  split
  · exact .refl s
  · split
    · exact hcount.trans (.queueNotice _ _)
    · split
      · exact hcount.trans (.queueNotice _ _)
      · split
        · exact hcount.trans (.queueNotice _ _)
        · exact hcount.trans { ReportKeeps.refl _ with }

theorem ReportKeeps.takeReports (s : State) (e : ElementId) (bytes : List Byte) : ReportKeeps s (s.takeReports e bytes) := by
  unfold State.takeReports
  induction bytes generalizing s with
  | nil => exact .refl s
  | cons b bytes ih =>
    rw [List.foldl_cons]
    split
    · exact ih s
    · exact (ReportKeeps.takeReport s e _ _).trans (ih _)

theorem TallyAlike.queueNotice (h : TallyAlike e s t) (c : NoticeContent) : TallyAlike e (s.queueNotice c) (t.queueNotice c) :=
  { h with mgmt := by rw [State.queueNotice, State.queueNotice, State.updMgmt_mgmt, State.updMgmt_mgmt, h.mgmt] }

theorem TallyAlike.countReport (h : TallyAlike e s t) (n : Nat) : TallyAlike e (s.countReport e n) (t.countReport e n) :=
  { h with
    rules := fun k => by rw [State.countReport_rules, State.countReport_rules, h.rules k]
    eventCount := fun k => by rw [State.countReport_eventCount, State.countReport_eventCount, h.eventCount e, h.eventCount k]
    loaded := by rw [State.countReport_loadedAt, State.countReport_loadedAt, h.loaded] }

theorem TallyAlike.scoreReport (h : TallyAlike e s t) (f : FieldId) (k : EventKind) (count points : Nat) (a : Alliance) :
    TallyAlike e (s.scoreReport e f k count points a) (t.scoreReport e f k count points a) := by
  have hadded : TallyAlike e (s.updTally f fun t => (t.add a points).countEvents a count)
      (t.updTally f fun t => (t.add a points).countEvents a count) :=
    { h with tallies := by rw [State.updTally_tallies, State.updTally_tallies, h.tallies] }
  unfold State.scoreReport
  dsimp only
  rw [hadded.tallies]
  exact hadded.queueNotice _

/-- The alliance that a rule credits is read from the element's owner and its holder's placing (R153). -/
theorem TallyAlike.creditedAlliance (h : TallyAlike e s t) (hentry : m.entry = l.entry) (hhold : m.hold = l.hold)
    (b : Beneficiary) : t.creditedAlliance m b = s.creditedAlliance l b := by
  unfold State.creditedAlliance State.slotAlliance
  rw [hentry, hhold, h.slots]

theorem TallyAlike.judgeReport (h : TallyAlike e s t) (hentry : m.entry = l.entry) (hhold : m.hold = l.hold) (k : EventKind)
    (n : Nat) : TallyAlike e (s.judgeReport e l k n) (t.judgeReport e m k n) := by
  unfold State.judgeReport
  dsimp only
  rw [hentry, h.fields, h.rules e]
  by_cases hphase : scoredByPhase (s.fields.at l.entry.field) = false
  · rw [if_pos hphase, if_pos hphase]
    exact h.queueNotice _
  · rw [if_neg hphase, if_neg hphase]
    cases (s.elements.at e).rules.at k with
    | none => exact h.queueNotice _
    | some r =>
      dsimp only
      rw [h.creditedAlliance hentry hhold]
      cases s.creditedAlliance l r.beneficiary with
      | none => exact h.queueNotice _
      | some a => exact h.scoreReport _ _ _ _ _

theorem TallyAlike.takeReport (h : TallyAlike e s t) (k : EventKind) (n : Nat) :
    TallyAlike e (s.takeReport e k n) (t.takeReport e k n) := by
  have hloaded := h.loaded
  unfold State.takeReport
  cases hs : s.loadedAt e with
  | none =>
    rw [hs, Option.map_none, Option.map_eq_none_iff] at hloaded
    rw [hloaded]
    exact h
  | some l =>
    rw [hs, Option.map_some, Option.map_eq_some_iff] at hloaded
    obtain ⟨m, hm, heq⟩ := hloaded
    obtain ⟨hentry, hhold⟩ := Prod.mk.inj heq
    rw [hm]
    exact (h.countReport n).judgeReport hentry hhold k n

/-- States that are alike to the Score Tally stay so as the same reports are taken (R150). -/
theorem TallyAlike.takeReports (h : TallyAlike e s t) (bytes : List Byte) :
    TallyAlike e (s.takeReports e bytes) (t.takeReports e bytes) := by
  unfold State.takeReports
  induction bytes generalizing s t with
  | nil => exact h
  | cons b bytes ih =>
    rw [List.foldl_cons, List.foldl_cons]
    split
    · exact ih h
    · exact ih (h.takeReport _ _)

/-! ### FETCH (R126, R137) -/

theorem BusKeeps.heardFrom (s : State) (e : ElementId) : BusKeeps s (s.heardFrom e) :=
  (BusKeeps.restPair s).trans (.setMisses _ e 0)

/-- The rest of the pair and the miss count are nothing to the Score Tally. -/
theorem TallyAlike.heardFrom (hl : s.loadedAt e = some l) : TallyAlike e s (s.heardFrom e) := by
  obtain ⟨hat, -, -, hslots, hfields, -, hmgmt, -⟩ := State.heardFrom_spec hl
  have hkeep := BusKeeps.heardFrom s e
  exact ⟨hslots, hfields, hkeep.tallies, hmgmt, hkeep.rules, hkeep.eventCount, by rw [hat, hl]; rfl⟩

/-- What is written in an element after its reports are taken: the fetch toggle flips, and MORE sets the FETCH mark (R137). -/
theorem State.fetchAnswered_reports (hst : st = .ok ∨ st = .more) (hrest : s.bus.activity = .rest) (hl : s.loadedAt e = some l) :
    Heard (s.takeReports e payload) (s.fetchAnswered e st payload).settle e
      { l with fetchToggle := !l.fetchToggle, fetchMark := l.fetchMark || decide (st = .more) } ∧
    BusKeeps (s.takeReports e payload) (s.fetchAnswered e st payload).settle := by
  have hkeep := ReportKeeps.takeReports s e payload
  have htaken : Heard (s.takeReports e payload) (s.takeReports e payload) e l :=
    ⟨by rw [hkeep.bus, hrest], (hkeep.loaded e).trans hl, fun _ _ => rfl, rfl, rfl, rfl, rfl, rfl⟩
  have hflipped := htaken.updLoaded fun l => { l with fetchToggle := !l.fetchToggle }
  rcases hst with rfl | rfl
  · exact ⟨hflipped.settle.cast (by simp), (BusKeeps.flipFetch _ e).trans (.settle _)⟩
  · exact ⟨hflipped.setFetch.settle.cast (by simp), (BusKeeps.flipFetch _ e).trans ((BusKeeps.setFetch _ e).trans (.settle _))⟩

theorem RestsFor.fetchAnswered (h : RestsFor e t) (st : Status) (payload : List Byte) :
    RestsFor e (t.fetchAnswered e st payload) := by
  have hkeep := ReportKeeps.takeReports t e payload
  have htaken : RestsFor e (t.takeReports e payload) := ⟨by rw [hkeep.bus, h.rest], by rw [hkeep.loaded]; exact h.loaded⟩
  have hflipped := htaken.updLoaded (fun l => { l with fetchToggle := !l.fetchToggle }) fun _ => rfl
  cases st with
  | ok => exact hflipped
  | more => exact hflipped.setFetch
  | fault => exact h.becomeFaulted _
  | hold | done | retry | reject => exact h

/-- What an answer to a FETCH leaves alone, whatever its status: the fields, the bus and the score rules (R137, R140, R150). -/
theorem State.fetchAnswered_frame (hl : s.loadedAt e = some l) (st : Status) (payload : List Byte) :
    (s.fetchAnswered e st payload).fields = s.fields ∧ (s.fetchAnswered e st payload).bus = s.bus ∧
      ∀ k, ((s.fetchAnswered e st payload).elements.at k).rules = (s.elements.at k).rules := by
  have hkeep := ReportKeeps.takeReports s e payload
  have hflip := BusKeeps.flipFetch (s.takeReports e payload) e
  cases st with
  | ok => exact ⟨hkeep.fields, hkeep.bus, fun k => (hflip.rules k).trans (hkeep.rules k)⟩
  | more =>
    exact ⟨hkeep.fields, hkeep.bus, fun k => ((hflip.trans (.setFetch _ e)).rules k).trans (hkeep.rules k)⟩
  | fault =>
    have hfault := BusKeeps.becomeFaulted s e .fault
    obtain ⟨-, -, -, -, hbus, -⟩ := State.becomeFaulted_spec hl .fault
    exact ⟨hfault.fields, hbus, hfault.rules⟩
  | hold | done | retry | reject => exact ⟨rfl, rfl, fun _ => rfl⟩

/-- FAULT in the answer to a FETCH makes its PRESENT element FAULTED and leaves its fetch toggle (R137, R140, R143). -/
theorem Heard.fetch_fault (h : Heard s t e { l with misses := 0 }) (hp : l.presence = .present)
    (hl : (t.fetchAnswered e .fault payload).settle.loadedAt e = some l') :
    l'.presence = .faulted .fault ∧ l'.fetchToggle = l.fetchToggle ∧ l'.act = none ∧ l'.hold = none ∧ l'.claims = [] := by
  have heq : t.fetchAnswered e .fault payload = t.changePresence e (.faulted .fault) :=
    State.becomeFaulted_unfaulted h.loaded (fun cause hc => nomatch hc.symm.trans hp) .fault
  obtain ⟨⟨n, hn, hgone⟩, hbus, -⟩ := State.changePresence_spec h.loaded (p := .faulted .fault) nofun
  rw [heq, (State.settle_rest (s := t.changePresence e (.faulted .fault)) (by rw [hbus]; exact h.rest)).1, hn] at hl
  obtain rfl := Option.some.inj hl
  obtain ⟨hact, hhold, hclaims, -⟩ := hgone.lost hp
  exact ⟨hgone.presence, hgone.fetchToggle, hact, hhold, hclaims⟩

end

/-- Settles O55: the reports of an answer are taken as they would be in the state before it, and then its element is written. -/
theorem fetchAnswerResult : Obligations.FetchAnswerResult := by
  refine ⟨fun s e => ⟨rfl, fun b q => ⟨rfl, rfl⟩⟩, fun s edge r chars l st payload h hp => ?_,
    fun s edge r chars l st payload h hp => ?_⟩
  · have hpresent : l.isPresent = true := beq_iff_eq.2 hp
    have hx : exec (.fetchAnswer edge) s = .next ((s.heardFrom r.element).fetchAnswered r.element st payload).settle :=
      congrArg Host.Outcome.next (h.run.trans (congrArg State.settle (if_pos hpresent)))
    obtain ⟨hheard, hsafe⟩ := h.heard
    obtain ⟨hrest, l', hl', hmisses⟩ := ((hheard.restsFor rfl).fetchAnswered st payload).settle
    obtain ⟨hfields, hbus, hrules⟩ := State.fetchAnswered_frame hheard.loaded st payload
    have hbefore := BusKeeps.heardFrom s r.element
    have hafter := BusKeeps.settle ((s.heardFrom r.element).fetchAnswered r.element st payload)
    refine ⟨_, l', hx, hrest, hl', hmisses, (hafter.fields.trans hfields).trans hheard.fields, ?_,
      fun e => ((hafter.rules e).trans (hrules e)).trans (hbefore.rules e), fun hst => ?_, ?_⟩
    · rw [State.settle_safeQueue, hbus, hsafe]
    · obtain ⟨hdone, hwritten⟩ := State.fetchAnswered_reports (payload := payload) hst hheard.rest hheard.loaded
      have hkeep := ReportKeeps.takeReports (s.heardFrom r.element) r.element payload
      have halike := (TallyAlike.heardFrom h.loaded).takeReports payload
      exact ⟨Option.some.inj (hl'.symm.trans hdone.loaded), (hdone.link.trans hkeep.link).trans hheard.link,
        (hdone.slots.trans hkeep.slots).trans hheard.slots, hwritten.tallies.trans halike.tallies,
        hdone.mgmt.trans halike.mgmt, fun e => (hwritten.eventCount e).trans (halike.eventCount e)⟩
    · rintro rfl
      have htallies := (hbefore.trans ((BusKeeps.becomeFaulted _ r.element .fault).trans hafter)).tallies
      obtain ⟨hpresence, htoggle, hlost⟩ := hheard.fetch_fault hp hl'
      exact ⟨hpresence, htoggle, htallies, hlost⟩
  · have hn : ¬ l.isPresent = true := fun hn => hp (beq_iff_eq.1 hn)
    obtain ⟨hheard, hsafe⟩ := h.heard
    exact ⟨_, congrArg Host.Outcome.next (h.run.trans (congrArg State.settle (if_neg hn))),
      (BusKeeps.heardFrom s r.element).trans (.settle _), hheard.settled hsafe⟩

end Sys2Proof.Machine
end

section
/-! SUPPORT. The digit adder: one digit, four digits, and what an addition or a correction makes of a tally and its cap mark (R154,
R155, R162). -/

namespace Sys2Proof.Machine

open Sys2Proof

/-! ### Decimal digits (R154) -/

theorem Bcd.toNat_le (t : Bcd) : t.toNat ≤ 9999 := by
  unfold Bcd.toNat
  omega

theorem Bcd.toNat_ofNat {n : Nat} (h : n ≤ 9999) : (Bcd.ofNat n).toNat = n := by
  simp only [Bcd.toNat, Bcd.ofNat, digitOf, Fin.val_ofNat]
  omega

/-! ### The addition of digits (R155) -/

theorem addDigit_carry (a b : Fin 10) (c : Nat) : (addDigit a b c).2 = if a.val + b.val + c ≤ 9 then 0 else 1 := by
  unfold addDigit
  split <;> rfl

theorem addDigit_carry_le (a b : Fin 10) (c : Nat) : (addDigit a b c).2 ≤ 1 := by
  rw [addDigit_carry]
  split <;> omega

/-- One digit of the adder loses nothing: the digit kept and ten for its carry are the sum (R155). -/
theorem addDigit_sum (a b : Fin 10) {c : Nat} (hc : c ≤ 1) :
    (addDigit a b c).1.val + 10 * (addDigit a b c).2 = a.val + b.val + c := by
  simp only [addDigit, digitOf]
  split
  · next hfits => rw [Fin.val_ofNat, Nat.mod_eq_of_lt (by omega), Nat.mul_zero, Nat.add_zero]
  · next habove =>
    rw [Fin.val_ofNat, Nat.mod_eq_of_lt (by omega)]
    omega

theorem addDigit_digit (a b : Fin 10) {c : Nat} (hc : c ≤ 1) :
    (addDigit a b c).1.val = a.val + b.val + c - 10 * (addDigit a b c).2 := Nat.eq_sub_of_add_eq (addDigit_sum a b hc)

section
variable (t a : Bcd)

/-- The carry of the units into the tens (R155). -/
def Bcd.carryTens : Nat := (addDigit t.units a.units 0).2

/-- The carry of the tens into the hundreds (R155). -/
def Bcd.carryHundreds : Nat := (addDigit t.tens a.tens (t.carryTens a)).2

/-- The carry of the hundreds into the thousands (R155). -/
def Bcd.carryThousands : Nat := (addDigit t.hundreds a.hundreds (t.carryHundreds a)).2

theorem Bcd.carryTens_eq : t.carryTens a = if t.units.val + a.units.val ≤ 9 then 0 else 1 := addDigit_carry _ _ 0

theorem Bcd.carryHundreds_eq :
    t.carryHundreds a = if t.tens.val + a.tens.val + t.carryTens a ≤ 9 then 0 else 1 := addDigit_carry _ _ _

theorem Bcd.carryThousands_eq :
    t.carryThousands a = if t.hundreds.val + a.hundreds.val + t.carryHundreds a ≤ 9 then 0 else 1 := addDigit_carry _ _ _

/-- The carry out of the thousands (R155). -/
theorem Bcd.addDigits_carry :
    (t.addDigits a).2 = if t.thousands.val + a.thousands.val + t.carryThousands a ≤ 9 then 0 else 1 := addDigit_carry _ _ _

theorem Bcd.addDigits_units : (t.addDigits a).1.units.val = t.units.val + a.units.val - 10 * t.carryTens a :=
  addDigit_digit _ _ (Nat.zero_le 1)

theorem Bcd.addDigits_tens :
    (t.addDigits a).1.tens.val = t.tens.val + a.tens.val + t.carryTens a - 10 * t.carryHundreds a :=
  addDigit_digit _ _ (addDigit_carry_le _ _ _)

theorem Bcd.addDigits_hundreds :
    (t.addDigits a).1.hundreds.val = t.hundreds.val + a.hundreds.val + t.carryHundreds a - 10 * t.carryThousands a :=
  addDigit_digit _ _ (addDigit_carry_le _ _ _)

theorem Bcd.addDigits_thousands :
    (t.addDigits a).1.thousands.val = t.thousands.val + a.thousands.val + t.carryThousands a - 10 * (t.addDigits a).2 :=
  addDigit_digit _ _ (addDigit_carry_le _ _ _)

/-- The four digits and the carry out of the thousands are the sum of the two numbers (R155). -/
theorem Bcd.addDigits_sum : (t.addDigits a).1.toNat + 10000 * (t.addDigits a).2 = t.toNat + a.toNat := by
  have hunits : (t.addDigits a).1.units.val + 10 * t.carryTens a = t.units.val + a.units.val :=
    addDigit_sum _ _ (Nat.zero_le 1)
  have htens : (t.addDigits a).1.tens.val + 10 * t.carryHundreds a = t.tens.val + a.tens.val + t.carryTens a :=
    addDigit_sum _ _ (addDigit_carry_le _ _ _)
  have hhundreds : (t.addDigits a).1.hundreds.val + 10 * t.carryThousands a =
      t.hundreds.val + a.hundreds.val + t.carryHundreds a := addDigit_sum _ _ (addDigit_carry_le _ _ _)
  have hthousands : (t.addDigits a).1.thousands.val + 10 * (t.addDigits a).2 =
      t.thousands.val + a.thousands.val + t.carryThousands a := addDigit_sum _ _ (addDigit_carry_le _ _ _)
  unfold Bcd.toNat
  omega

end

/-! ### Tallies and cap marks (R155, R162) -/

section
variable {t : Bcd} {cap : Bool} {n : Nat}

theorem addPoints_fits (h : (t.addDigits (Bcd.ofNat n)).2 = 0) : addPoints t cap n = ((t.addDigits (Bcd.ofNat n)).1, cap) :=
  if_pos h

theorem addPoints_carries (h : (t.addDigits (Bcd.ofNat n)).2 ≠ 0) : addPoints t cap n = (Bcd.max, true) := if_neg h

/-- An addition gives the sum, at most 9999, and sets the cap mark above it (R155). -/
theorem addPoints_sum (hn : n ≤ 9999) (t : Bcd) (cap : Bool) :
    (addPoints t cap n).1.toNat = min 9999 (t.toNat + n) ∧
    (addPoints t cap n).2 = (cap || decide (9999 < t.toNat + n)) := by
  have hsum := t.addDigits_sum (Bcd.ofNat n)
  have hle := (t.addDigits (Bcd.ofNat n)).1.toNat_le
  rw [Bcd.toNat_ofNat hn] at hsum
  by_cases hcarry : (t.addDigits (Bcd.ofNat n)).2 = 0
  · have hfits : t.toNat + n ≤ 9999 := by omega
    rw [addPoints_fits hcarry, decide_eq_false (Nat.not_lt.2 hfits), Bool.or_false]
    exact ⟨by dsimp only; omega, rfl⟩
  · have habove : 9999 < t.toNat + n := by omega
    rw [addPoints_carries hcarry, decide_eq_true habove, Bool.or_true]
    exact ⟨(Nat.min_eq_left habove.le).symm, rfl⟩

/-- A correction gives the signed sum, kept within 0 and 9999, and sets the cap mark only above it (R162). -/
theorem correctPoints_sum (t : Bcd) (cap : Bool) (d : Int) :
    ((correctPoints t cap d).1.toNat : Int) = max 0 (min 9999 ((t.toNat : Int) + d)) ∧
    (correctPoints t cap d).2 = (cap || decide (9999 < (t.toNat : Int) + d)) := by
  unfold correctPoints
  dsimp only
  split
  · next hbelow =>
    rw [decide_eq_false (by omega), Bool.or_false, Bcd.toNat_ofNat (Nat.zero_le _)]
    exact ⟨by omega, rfl⟩
  · split
    · next habove =>
      rw [decide_eq_true habove, Bool.or_true, show Bcd.max.toNat = 9999 from rfl]
      exact ⟨by omega, rfl⟩
    · next hlo hhi =>
      rw [decide_eq_false hhi, Bool.or_false, Bcd.toNat_ofNat (by omega)]
      exact ⟨by omega, rfl⟩

end

/-- Settles O33: the carries of the three lower digits are the adder's own, and the carry out of the thousands decides the cap. -/
theorem digitAdder : Obligations.DigitAdder := by
  rintro t a cap n hn rfl
  have hout := t.addDigits_carry (Bcd.ofNat n)
  refine ⟨Bcd.toNat_ofNat hn, ⟨_, _, _, t.carryTens_eq _, t.carryHundreds_eq _, t.carryThousands_eq _, fun hfits => ?_,
    fun habove => ?_⟩, addPoints_sum hn t cap⟩
  · rw [if_pos hfits] at hout
    have hthousands := t.addDigits_thousands (Bcd.ofNat n)
    rw [hout] at hthousands
    rw [addPoints_fits hout]
    exact ⟨rfl, t.addDigits_units _, t.addDigits_tens _, t.addDigits_hundreds _, hthousands⟩
  · rw [if_neg (Nat.not_le.2 habove)] at hout
    exact addPoints_carries (by rw [hout]; decide)

end Sys2Proof.Machine
end

section
/-! SUPPORT. PENALTY and CORRECT: the operands, the tests, and what is written in one alliance's tally (R161, R162). -/

namespace Sys2Proof.Machine

open Sys2Proof

/-! ### Alliances and phases (R161, R197) -/

theorem Alliance.other_other (a : Alliance) : a.other.other = a := by cases a <;> rfl

theorem fieldOf_lt {b : Byte} {g : FieldId} (h : fieldOf b = some g) : b.toNat < 4 :=
  Nat.lt_of_not_le fun hn => nomatch (fieldOf_range hn).symm.trans h

theorem allianceOf_lt {b : Byte} {a : Alliance} (h : allianceOf b = some a) : b.toNat < 2 := by
  unfold allianceOf at h
  split at h
  · omega
  · omega
  · exact nomatch h

theorem allianceOf_code (a : Alliance) : allianceOf (byte a.code) = some a := by cases a <;> rfl

theorem Phase.scorable_eq_false {p : Phase} : p.scorable = false ↔ p = .idle ∨ p = .pre := by cases p <;> decide

/-! ### One alliance's part of a field's tallies -/

section
variable (t : FieldTally) (a : Alliance) (v : Bcd × Bool)

theorem FieldTally.write_tally : (t.write a v).tally a = v.1 := by cases a <;> rfl

theorem FieldTally.write_cap : (t.write a v).cap a = v.2 := by cases a <;> rfl

theorem FieldTally.write_eastCount : (t.write a v).eastCount = t.eastCount := by cases a <;> rfl

theorem FieldTally.write_westCount : (t.write a v).westCount = t.westCount := by cases a <;> rfl

theorem FieldTally.write_other : (t.write a v).tally a.other = t.tally a.other ∧ (t.write a v).cap a.other = t.cap a.other := by
  cases a <;> exact ⟨rfl, rfl⟩

end

section
variable {s : State} {f : Frame} {rest : List Frame} {fb ab p c m1 m2 code : Byte} {ops : List Byte} {g : FieldId} {a : Alliance}
variable {v : Bcd × Bool}

/-- What a PENALTY or CORRECT that is accepted leaves: the tally and cap mark of alliance `a` on field `g` are `v`, no other score
changes, and the reply shows them (R161, R162). -/
structure TallyWritten (s : State) (f : Frame) (rest : List Frame) (code : Byte) (g : FieldId) (a : Alliance) (v : Bcd × Bool)
    (t : State) : Prop where
  tally : (t.tallies.at g).tally a = v.1
  cap : (t.tallies.at g).cap a = v.2
  otherTally : (t.tallies.at g).tally a.other = (s.tallies.at g).tally a.other
  otherCap : (t.tallies.at g).cap a.other = (s.tallies.at g).cap a.other
  eastCount : (t.tallies.at g).eastCount = (s.tallies.at g).eastCount
  westCount : (t.tallies.at g).westCount = (s.tallies.at g).westCount
  fields : ∀ h, h ≠ g → t.tallies.at h = s.tallies.at h
  reply : t = ({ s with tallies := t.tallies }).replied f rest code (.done ([fieldByte g, byte a.code] ++
    ((t.tallies.at g).tally a).bytes ++ [byte (bit ((t.tallies.at g).cap a))]))

/-- A command whose rule writes one alliance's tally and cap mark, and answers with them. -/
theorem CommandReady.tallyWritten (h : CommandReady s f rest code ops) {n : Nat} (hn : n = ops.length + 1)
    (run : State → List Byte → Answer) {w : FieldTally → FieldTally}
    (hrun : run (s.taken rest) ops =
      .ok ((s.taken rest).updTally g w, ((s.taken rest).updTally g w).tallyData g a))
    (hw : w (s.tallies.at g) = (s.tallies.at g).write a v) :
    ∃ t, s.command code n run = t ∧ TallyWritten s f rest code g a v t := by
  have hat : ((s.taken rest).updTally g w).tallies.at g = (s.tallies.at g).write a v :=
    (Table.at_put_same _ _ _).trans hw
  obtain ⟨htally, hcap⟩ := (s.tallies.at g).write_other a v
  exact ⟨_, h.done hn run hrun,
    { tally := (congrArg (·.tally a) hat).trans (FieldTally.write_tally _ a v)
      cap := (congrArg (·.cap a) hat).trans (FieldTally.write_cap _ a v)
      otherTally := (congrArg (·.tally a.other) hat).trans htally
      otherCap := (congrArg (·.cap a.other) hat).trans hcap
      eastCount := (congrArg (·.eastCount) hat).trans (FieldTally.write_eastCount _ a v)
      westCount := (congrArg (·.westCount) hat).trans (FieldTally.write_westCount _ a v)
      fields := fun _ hne => Table.at_put_other _ _ hne
      reply := rfl }⟩

/-! ### The rules (R161, R162) -/

theorem runPenalty_range (h : 4 ≤ fb.toNat ∨ 2 ≤ ab.toNat ∨ p.toNat = 0 ∨ 99 < p.toNat ∨ c.toNat = 0 ∨ 15 < c.toNat) :
    runPenalty s [fb, ab, p, c] = .error .range := by
  unfold runPenalty
  dsimp only
  split
  · next hfield halliance =>
    have := fieldOf_lt hfield
    have := allianceOf_lt halliance
    exact if_pos (by omega)
  · rfl

theorem runPenalty_named (hp : 1 ≤ p.toNat) (hp' : p.toNat ≤ 99) (hc : 1 ≤ c.toNat) (hc' : c.toNat ≤ 15) :
    runPenalty s [fieldByte g, byte a.code, p, c] =
      if (s.fields.at g).phase.scorable = false then .error .state
      else
        let t := s.updTally g fun x => x.add a.other (c.toNat * p.toNat)
        .ok (t, t.tallyData g a.other) := by
  unfold runPenalty
  simp only [fieldOf_fieldByte, allianceOf_code]
  exact if_neg (by omega)

theorem runCorrect_range (h : 4 ≤ fb.toNat ∨ 2 ≤ ab.toNat ∨ int16 m1 m2 < -999 ∨ 999 < int16 m1 m2) :
    runCorrect s [fb, ab, m1, m2] = .error .range := by
  unfold runCorrect
  dsimp only
  split
  · next hfield halliance =>
    have := fieldOf_lt hfield
    have := allianceOf_lt halliance
    exact if_pos (by omega)
  · rfl

theorem runCorrect_named (hlo : -999 ≤ int16 m1 m2) (hhi : int16 m1 m2 ≤ 999) :
    runCorrect s [fieldByte g, byte a.code, m1, m2] =
      if (s.fields.at g).phase.scorable = false then .error .state
      else
        let t := s.updTally g fun x => x.write a (correctPoints (x.tally a) (x.cap a) (int16 m1 m2))
        .ok (t, t.tallyData g a) := by
  unfold runCorrect
  simp only [fieldOf_fieldByte, allianceOf_code]
  exact if_neg (by omega)

end

/-- Settles O34: the points join the other alliance's tally through the digit adder. -/
theorem penaltyResult : Obligations.PenaltyResult := by
  intro s f rest fb ab points count h
  refine ⟨fun hrange => congrArg _ (h.refused rfl _ (runPenalty_range hrange)), ?_⟩
  rintro g a rfl rfl hp hp' hc hc'
  have hrun := runPenalty_named (s := s.taken rest) (g := g) (a := a) hp hp' hc hc'
  refine ⟨fun hphase => ?_, fun hidle hpre => ?_⟩
  · exact congrArg _ (h.refused rfl _ (hrun.trans (if_pos (Phase.scorable_eq_false.2 hphase))))
  · have hlive : ¬ ((s.taken rest).fields.at g).phase.scorable = false :=
      mt Phase.scorable_eq_false.1 (not_or.2 ⟨hidle, hpre⟩)
    obtain ⟨t, hx, hw⟩ := h.tallyWritten rfl runPenalty (hrun.trans (if_neg hlive)) rfl
    have hpoints : count.toNat * points.toNat ≤ 15 * 99 := Nat.mul_le_mul hc' hp'
    obtain ⟨hsum, hcap⟩ := addPoints_sum (hpoints.trans (by decide)) ((s.tallies.at g).tally a.other)
      ((s.tallies.at g).cap a.other)
    have hother := hw.otherTally
    have hotherCap := hw.otherCap
    rw [a.other_other] at hother hotherCap
    exact ⟨t, congrArg _ hx, (congrArg Bcd.toNat hw.tally).trans hsum, hw.cap.trans hcap, hother, hotherCap, hw.eastCount,
      hw.westCount, hw.fields, hw.reply⟩

/-- Settles O35: the signed sum is kept within the four digits. -/
theorem correctResult : Obligations.CorrectResult := by
  intro s f rest fb ab m1 m2 h
  refine ⟨fun hrange => congrArg _ (h.refused rfl _ (runCorrect_range hrange)), ?_⟩
  rintro g a rfl rfl hlo hhi
  have hrun := runCorrect_named (s := s.taken rest) (g := g) (a := a) hlo hhi
  refine ⟨fun hphase => ?_, fun hidle hpre => ?_⟩
  · exact congrArg _ (h.refused rfl _ (hrun.trans (if_pos (Phase.scorable_eq_false.2 hphase))))
  · have hlive : ¬ ((s.taken rest).fields.at g).phase.scorable = false :=
      mt Phase.scorable_eq_false.1 (not_or.2 ⟨hidle, hpre⟩)
    obtain ⟨t, hx, hw⟩ := h.tallyWritten rfl runCorrect (hrun.trans (if_neg hlive)) rfl
    obtain ⟨hsum, hcap⟩ := correctPoints_sum ((s.tallies.at g).tally a) ((s.tallies.at g).cap a) (int16 m1 m2)
    exact ⟨t, congrArg _ hx, (congrArg (fun x => (x.toNat : Int)) hw.tally).trans hsum, hw.cap.trans hcap, hw.otherTally,
      hw.otherCap, hw.eastCount, hw.westCount, hw.fields, hw.reply⟩

end Sys2Proof.Machine
end

section
/-! SUPPORT. LOAD_SCORE_RULE: the operands, the tests in their order, and the rule that is written (R149). -/

namespace Sys2Proof.Machine

open Sys2Proof

theorem Beneficiary.namesOwner_iff {b : Beneficiary} : b.namesOwner = true ↔ b = .owner ∨ b = .opponent := by cases b <;> decide

section
variable {s : State} {eb kb a t e' bb : Byte} {e : ElementId} {k : EventKind} {w : Beneficiary} {l : Loaded}

theorem ScoreRule.written_eq (a t e' : Byte) (w : Beneficiary) : ScoreRule.written a t e' w =
    { auto := min 99 a.toNat, teleop := min 99 t.toNat, endgame := min 99 e'.toNat, beneficiary := w } := by
  simp only [ScoreRule.written, clamp, Nat.zero_max]

/-! ### Operands and tests (R149, R197) -/

theorem elementOf_lt {b : Byte} (h : elementOf b = some e) : b.toNat < 48 :=
  Nat.lt_of_not_le fun hn => nomatch (elementOf_range hn).symm.trans h

theorem eventKindOf_lt {b : Byte} (h : eventKindOf b = some k) : b.toNat < 4 := by
  by_contra hn
  exact nomatch (dif_neg hn : eventKindOf b = none).symm.trans h

theorem beneficiaryOf_lt {b : Byte} (h : beneficiaryOf b = some w) : b.toNat < 5 := by
  unfold beneficiaryOf at h
  split at h
  · omega
  · omega
  · omega
  · omega
  · omega
  · exact nomatch h

/-- Test 2: a rule that names the owner of a SHARED element (R149). -/
theorem State.ruleRefusal_shared (hl : s.loadedAt e = some l) (ho : l.entry.owner = .shared) (hw : w = .owner ∨ w = .opponent) :
    s.ruleRefusal e w = some .range := by
  unfold State.ruleRefusal
  rw [hl]
  exact if_pos ⟨ho, Beneficiary.namesOwner_iff.2 hw⟩

theorem not_names_shared (h : l.entry.owner = .shared → w ≠ .owner ∧ w ≠ .opponent) :
    ¬ (l.entry.owner = .shared ∧ w.namesOwner = true) := fun ⟨ho, hn⟩ =>
  (Beneficiary.namesOwner_iff.1 hn).elim (h ho).1 (h ho).2

/-- Test 3: the element's field is not IDLE (R149). -/
theorem State.ruleRefusal_live (hl : s.loadedAt e = some l) (ho : l.entry.owner = .shared → w ≠ .owner ∧ w ≠ .opponent)
    (hp : (s.fields.at l.entry.field).phase ≠ .idle) : s.ruleRefusal e w = some .fieldLive := by
  unfold State.ruleRefusal
  rw [hl]
  exact (if_neg (not_names_shared ho)).trans (if_pos (Bool.eq_false_iff.2 (mt State.fieldIdle_iff.1 hp)))

/-- A rule of an element that is not loaded, or of one of an IDLE field that it fits, is refused by neither test (R149). -/
theorem State.ruleRefusal_none (h : ∀ l, s.loadedAt e = some l → (s.fields.at l.entry.field).phase = .idle ∧
    (l.entry.owner = .shared → w ≠ .owner ∧ w ≠ .opponent)) : s.ruleRefusal e w = none := by
  unfold State.ruleRefusal
  cases hl : s.loadedAt e with
  | none => rfl
  | some l =>
    obtain ⟨hp, ho⟩ := h l hl
    exact (if_neg (not_names_shared ho)).trans (if_neg (by rw [State.fieldIdle_iff.2 hp]; decide))

theorem runLoadScoreRule_range (h : 48 ≤ eb.toNat ∨ 4 ≤ kb.toNat ∨ 5 ≤ bb.toNat) :
    runLoadScoreRule s [eb, kb, a, t, e', bb] = .error .range := by
  unfold runLoadScoreRule
  dsimp only
  split
  · next helement hkind hbeneficiary =>
    have := elementOf_lt helement
    have := eventKindOf_lt hkind
    have := beneficiaryOf_lt hbeneficiary
    omega
  · rfl

theorem runLoadScoreRule_refused (he : elementOf eb = some e) (hk : eventKindOf kb = some k) (hw : beneficiaryOf bb = some w)
    {r : ReplyReason} (hr : s.ruleRefusal e w = some r) : runLoadScoreRule s [eb, kb, a, t, e', bb] = .error r := by
  simp only [runLoadScoreRule, he, hk, hw, hr]

theorem runLoadScoreRule_done (he : elementOf eb = some e) (hk : eventKindOf kb = some k) (hw : beneficiaryOf bb = some w)
    (hr : s.ruleRefusal e w = none) :
    runLoadScoreRule s [eb, kb, a, t, e', bb] = .ok (s.writeRule e k (.written a t e' w), []) := by
  simp only [runLoadScoreRule, he, hk, hw, hr]

end

/-- Settles O31: the three tests in their order, and the rule that passes them, written whole. -/
theorem loadScoreRuleResult : Obligations.LoadScoreRuleResult := by
  refine ⟨fun s f rest eb kb a t e' bb h hrange => congrArg _ (h.refused rfl _ (runLoadScoreRule_range hrange)),
    fun s f rest eb kb a t e' bb e k w h he hk hw => ⟨fun hpass => ?_, fun l hl ho hown => ?_, fun l hl ho hp => ?_⟩⟩
  · have hrun := runLoadScoreRule_done (s := s.taken rest) (a := a) (t := t) (e' := e') he hk hw (State.ruleRefusal_none hpass)
    rw [ScoreRule.written_eq] at hrun
    exact congrArg _ (h.done rfl _ hrun)
  · exact congrArg _ (h.refused rfl _ (runLoadScoreRule_refused he hk hw
      (State.ruleRefusal_shared ((s.taken_loadedAt rest e).trans hl) ho hown)))
  · exact congrArg _ (h.refused rfl _ (runLoadScoreRule_refused he hk hw
      (State.ruleRefusal_live ((s.taken_loadedAt rest e).trans hl) ho hp)))

end Sys2Proof.Machine
end

section
/-! SUPPORT. What becomes of one report: its count, the tests of its phase, rule and beneficiary, and what a scored report adds
(R150 to R155, R158 to R160). -/

namespace Sys2Proof.Machine

open Sys2Proof

/-! ### When a report is scored, and for whom (R151, R153) -/

theorem scoredByPhase_iff {m : MatchRecord} : scoredByPhase m = true ↔
    m.phase = .auto ∨ m.phase = .pause ∨ m.phase = .teleop ∨ m.phase = .endgame ∨
      (m.phase = .post ∧ m.aborted = false ∧ 0 < m.grace) := by
  unfold scoredByPhase
  cases m.phase <;> simp

/-- The points for one event by a rule in the phase of a field, as the table of R151 has them. -/
def ScoreRule.pointsIn (r : ScoreRule) (m : MatchRecord) : Nat :=
  match m.phase with
  | .auto | .pause => r.auto
  | .teleop => r.teleop
  | .endgame => r.endgame
  | .post => if 0 < m.durE then r.endgame else r.teleop
  | .idle | .pre => 0

theorem scoringPoints_scored {m : MatchRecord} (h : scoredByPhase m = true) (r : ScoreRule) :
    scoringPoints m r = some (r.pointsIn m) := by
  unfold scoringPoints ScoreRule.pointsIn
  rcases scoredByPhase_iff.1 h with hp | hp | hp | hp | ⟨hp, hopen⟩
  · rw [hp]
  · rw [hp]
  · rw [hp]
  · rw [hp]
  · rw [hp]
    exact if_pos hopen

theorem ScoreRule.pointsIn_le {r : ScoreRule} (ha : r.auto ≤ 99) (ht : r.teleop ≤ 99) (he : r.endgame ≤ 99) (m : MatchRecord) :
    r.pointsIn m ≤ 99 := by
  unfold ScoreRule.pointsIn
  split
  · exact ha
  · exact ha
  · exact ht
  · exact he
  · split
    · exact he
    · exact ht
  · exact Nat.zero_le _
  · exact Nat.zero_le _

section
variable {s : State} {l : Loaded}

theorem State.creditedAlliance_owned {o : Owner} {a : Alliance} (h : l.entry.owner = o) (ho : o.alliance = some a) :
    s.creditedAlliance l .owner = some a ∧ s.creditedAlliance l .opponent = some a.other := by
  simp only [State.creditedAlliance, h, ho, Option.map_some, and_self]

theorem State.creditedAlliance_unheld (h : l.hold = none) : s.creditedAlliance l .holder = none := by
  simp only [State.creditedAlliance, h, Option.bind_none]

theorem State.creditedAlliance_held {h : Hold} {p : Placing} (hh : l.hold = some h) (hp : (s.slots.at h.slot).placing = some p) :
    s.creditedAlliance l .holder = some p.alliance := by
  simp only [State.creditedAlliance, State.slotAlliance, hh, hp, Option.bind_some, Option.map_some]

end

/-! ### What a scored report adds (R154, R155, R159) -/

/-- A field's tallies after a scored report. -/
def FieldTally.scored (t : FieldTally) (a : Alliance) (points n : Nat) : FieldTally := (t.add a points).countEvents a n

section
variable (t : FieldTally) (a : Alliance) (points n : Nat)

theorem FieldTally.countEvents_tally (b : Alliance) :
    (t.countEvents a n).tally b = t.tally b ∧ (t.countEvents a n).cap b = t.cap b := by
  cases a <;> cases b <;> exact ⟨rfl, rfl⟩

theorem FieldTally.scored_tally : (t.scored a points n).tally a = (addPoints (t.tally a) (t.cap a) points).1 :=
  ((t.add a points).countEvents_tally a n a).1.trans (t.write_tally a _)

theorem FieldTally.scored_cap : (t.scored a points n).cap a = (addPoints (t.tally a) (t.cap a) points).2 :=
  ((t.add a points).countEvents_tally a n a).2.trans (t.write_cap a _)

theorem FieldTally.scored_other :
    (t.scored a points n).tally a.other = t.tally a.other ∧ (t.scored a points n).cap a.other = t.cap a.other := by
  obtain ⟨htally, hcap⟩ := (t.add a points).countEvents_tally a n a.other
  obtain ⟨htally', hcap'⟩ := t.write_other a (addPoints (t.tally a) (t.cap a) points)
  exact ⟨htally.trans htally', hcap.trans hcap'⟩

theorem FieldTally.scored_eastCount :
    (t.scored a points n).eastCount = if a = .east then min 65535 (t.eastCount + n) else t.eastCount := by
  cases a <;> rfl

theorem FieldTally.scored_westCount :
    (t.scored a points n).westCount = if a = .west then min 65535 (t.westCount + n) else t.westCount := by
  cases a <;> rfl

end

/-! ### The steps of a report (R150) -/

section
variable {s : State} {e : ElementId} {l : Loaded} {r : ScoreRule} {a : Alliance}

theorem State.judgeReport_late (h : scoredByPhase (s.fields.at l.entry.field) = false) (k : EventKind) (n : Nat) :
    s.judgeReport e l k n = s.queueNotice (.late l.entry.field e k n (s.fields.at l.entry.field).phase) := if_pos h

section
variable {k : EventKind} (h : scoredByPhase (s.fields.at l.entry.field) = true)
include h

theorem State.judgeReport_noRule (hr : (s.elements.at e).rules.at k = none) (n : Nat) :
    s.judgeReport e l k n = s.queueNotice (.unattributed l.entry.field e k n .noRule) := by
  simp only [State.judgeReport, h, hr, Bool.true_eq_false, if_false]

theorem State.judgeReport_noHolder (hr : (s.elements.at e).rules.at k = some r) (ha : s.creditedAlliance l r.beneficiary = none)
    (n : Nat) : s.judgeReport e l k n = s.queueNotice (.unattributed l.entry.field e k n .noHolder) := by
  simp only [State.judgeReport, h, hr, ha, Bool.true_eq_false, if_false]

theorem State.judgeReport_scored (hr : (s.elements.at e).rules.at k = some r)
    (ha : s.creditedAlliance l r.beneficiary = some a) (n : Nat) : s.judgeReport e l k n =
      s.scoreReport e l.entry.field k n (n * r.pointsIn (s.fields.at l.entry.field)) a := by
  simp only [State.judgeReport, h, hr, ha, scoringPoints_scored h, Option.getD_some, Bool.true_eq_false, if_false]

end

theorem State.judgeReport_elements (s : State) (e : ElementId) (l : Loaded) (k : EventKind) (n : Nat) :
    (s.judgeReport e l k n).elements = s.elements := by
  unfold State.judgeReport
  dsimp only
  split
  · rfl
  · split
    · rfl
    · split
      · rfl
      · rfl

theorem State.takeReport_loaded (hl : s.loadedAt e = some l) (k : EventKind) (n : Nat) :
    s.takeReport e k n = (s.countReport e n).judgeReport e l k n := by
  unfold State.takeReport
  rw [hl]

/-- A report that is not scored leaves only its notice beside its count (R150, R160). -/
theorem State.takeReport_unscored (hroom : s.mgmt.notices.length < 16) {k : EventKind} {n : Nat} {c : NoticeContent}
    (h : s.takeReport e k n = (s.countReport e n).queueNotice c) :
    (s.takeReport e k n).tallies = s.tallies ∧
    (s.takeReport e k n).mgmt.notices = s.mgmt.notices ++ [{ dropped := s.mgmt.dropped, content := c }] := by
  rw [h]
  exact ⟨rfl, congrArg (·.notices) (State.queueNotice_room (s.countReport e n) c hroom)⟩

/-- A scored report adds its points and its count, and NOTICE SCORE shows the tally and the cap mark that it leaves (R150, R160). -/
theorem State.scoreReport_countReport (hroom : s.mgmt.notices.length < 16) (f : FieldId) (k : EventKind) (n points : Nat)
    (a : Alliance) :
    ((s.countReport e n).scoreReport e f k n points a).tallies = s.tallies.put f ((s.tallies.at f).scored a points n) ∧
    ((s.countReport e n).scoreReport e f k n points a).mgmt.notices = s.mgmt.notices ++
      [{ dropped := s.mgmt.dropped
         content := .score f e k n points a (((s.tallies.at f).scored a points n).tally a)
          (((s.tallies.at f).scored a points n).cap a) }] := by
  refine ⟨rfl, ?_⟩
  unfold State.scoreReport
  dsimp only
  rw [State.queueNotice_room ((s.countReport e n).updTally f _) _ hroom, State.updTally_tallies, Table.at_put_same]
  rfl

end

/-- Settles O36: the count is taken first, and then the phase, the rule and the beneficiary decide in this order. -/
theorem reportIsJudged : Obligations.ReportIsJudged := by
  refine ⟨fun m => scoredByPhase_iff, fun s l => ⟨rfl, rfl, fun ho => State.creditedAlliance_owned ho rfl,
    fun ho => State.creditedAlliance_owned ho rfl, State.creditedAlliance_unheld, fun h p => State.creditedAlliance_held⟩, ?_⟩
  intro s e l k n hl hn hroom
  have htake := State.takeReport_loaded hl k n
  have hrule : ((s.countReport e n).elements.at e).rules.at k = _ := congrArg (·.at k) (s.countReport_rules e n e)
  have hkeep := ReportKeeps.takeReport s e k n
  refine ⟨fun j => ?_, hkeep.fields, hkeep.link, hkeep.bus, fun hlate => ?_, fun hs hr => ?_, fun r hs hr hb hh => ?_,
    fun r a points hs hr hauto hteleop hendgame ha hpoints => ?_⟩
  · rw [htake, State.judgeReport_elements]
    exact s.countReport_eventCount e n j
  · exact State.takeReport_unscored hroom (htake.trans (State.judgeReport_late (s := s.countReport e n) hlate k n))
  · exact State.takeReport_unscored hroom (htake.trans (State.judgeReport_noRule (s := s.countReport e n) hs (hrule.trans hr) n))
  · exact State.takeReport_unscored hroom (htake.trans (State.judgeReport_noHolder (s := s.countReport e n) hs (hrule.trans hr)
      (hb ▸ State.creditedAlliance_unheld hh) n))
  · obtain rfl : points = n * r.pointsIn (s.fields.at l.entry.field) := hpoints
    have hle := Nat.mul_le_mul hn (r.pointsIn_le hauto hteleop hendgame (s.fields.at l.entry.field))
    obtain ⟨hsum, hcap⟩ := addPoints_sum (hle.trans (by decide)) ((s.tallies.at l.entry.field).tally a)
      ((s.tallies.at l.entry.field).cap a)
    obtain ⟨hother, hotherCap⟩ := (s.tallies.at l.entry.field).scored_other a (n * r.pointsIn (s.fields.at l.entry.field)) n
    obtain ⟨htallies, hnotices⟩ := State.scoreReport_countReport (e := e) hroom l.entry.field k n
      (n * r.pointsIn (s.fields.at l.entry.field)) a
    rw [htake.trans (State.judgeReport_scored (s := s.countReport e n) hs (hrule.trans hr) ha n)]
    exact ⟨_, htallies, (congrArg Bcd.toNat (FieldTally.scored_tally _ a _ n)).trans hsum, hother,
      (FieldTally.scored_cap _ a _ n).trans hcap, hotherCap, FieldTally.scored_eastCount _ a _ n,
      FieldTally.scored_westCount _ a _ n, hnotices⟩

end Sys2Proof.Machine
end

section
/-! SUPPORT. The Management Agent's disposal of a MANAGE frame: the length test that every command shares, the payload that
names no command, the frames that are discarded, and the rules of the device mode (R176 to R180). -/

namespace Sys2Proof.Machine

open Sys2Proof

/-! ### Every MANAGE command (R178, R179) -/

/-- Settles O19: every row is its rule behind the one length test. -/
theorem wrongLengthIsRefused : Obligations.WrongLengthIsRefused := by
  rintro ⟨c, code, n⟩ hc s f rest ops h hn
  obtain ⟨run, hexec, -⟩ := exec_command hc
  exact (hexec s).trans (congrArg Host.Outcome.next (h.wrongLength (Ne.symm hn) run))

/-! ### UNKNOWN_COMMAND (R179, R180) -/

theorem knownCode_false {c : Byte} (h : ∀ p ∈ commandTable, p.2.1 ≠ c) : knownCode c = false := by
  refine Bool.eq_false_iff.2 fun hk => ?_
  obtain ⟨n, hrow⟩ := commandRow_known c hk
  exact h _ hrow rfl

section
variable {s : State} {f : Frame} {rest : List Frame}

theorem State.classify_manage (hc : f.src = s.link.console) (hk : f.kind = 0x40#8) (hd : f.dst = s.link.own ∨ f.dst = 0xFF#8) :
    s.classify f = .manage := by
  have hp : s.forPart f.dst = true := by simpa [State.forPart, Config.broadcast] using hd
  simp [State.classify, hc, hk, hp, FrameKind.code]

/-- A frame that the agent answers, and refuses whatever the state, leaves its reply alone (R178, R179). -/
theorem State.dispose_refused (hs : s.link.store = f :: rest) (hlive : s.mgmt.restartPending = false)
    (hroom : s.link.replies.length < 4) (code : Byte) (r : ReplyReason) :
    s.dispose f code (fun _ => .error r) = s.replied f rest code (.refused r) := by
  have hnotPending : ¬ (s.taken rest).mgmt.restartPending = true := by simp [State.taken, hlive]
  have hnotFull : ¬ Config.replyCapacity ≤ (s.taken rest).link.replies.length := Nat.not_le.2 hroom
  unfold State.dispose
  rw [State.popStore_eq hs]
  exact (if_neg hnotPending).trans (if_neg hnotFull)

theorem execUnknownCommand_noCode (hh : s.manageHead = some f) (hp : f.payload = []) :
    execUnknownCommand s = .next (s.dispose f 0 fun _ => .error .unknownCommand) := by
  simp only [execUnknownCommand, hh, hp]

theorem execUnknownCommand_unknown {code : Byte} {ops : List Byte} (hh : s.manageHead = some f)
    (hp : f.payload = code :: ops) (hk : knownCode code = false) :
    execUnknownCommand s = .next (s.dispose f code fun _ => .error .unknownCommand) := by
  simp only [execUnknownCommand, hh, hp, hk, Bool.false_eq_true, if_false]

end

/-- Settles O20: a code of no row and a payload with no code are disposed of by one refusal, and a deaf agent discards the
frame of every row. -/
theorem unknownRefusedAndBusyDiscards : Obligations.UnknownRefusedAndBusyDiscards := by
  refine ⟨fun s f rest code ops h hcode => ?unknownCode, fun s f rest hm hs hsrc hdst hk hp hlive hroom => ?noCode, ?deaf⟩
  case unknownCode =>
    exact (execUnknownCommand_unknown h.manageHead h.payload (knownCode_false hcode)).trans
      (congrArg Host.Outcome.next (State.dispose_refused h.store h.live h.room code .unknownCommand))
  case noCode =>
    have hhead : s.headFrame = some (f, .manage) :=
      State.classify_manage hsrc hk (.inl hdst) ▸ State.headFrame_eq hm hs
    exact (execUnknownCommand_noCode (State.manageHead_eq hhead) hp).trans
      (congrArg Host.Outcome.next (State.dispose_refused hs hlive hroom 0 .unknownCommand))
  case deaf =>
    rintro ⟨c, code, n⟩ hc s f rest ops h hdeaf
    obtain ⟨run, hexec, -⟩ := exec_command hc
    exact (hexec s).trans (congrArg Host.Outcome.next (h.discarded hdeaf n run))

/-! ### The device mode (R176, R177) -/

section
variable {s : State}

theorem State.allIdle_false (h : ∃ g, (s.fields.at g).phase ≠ .idle) : s.allIdle = false := by
  obtain ⟨g, hg⟩ := h
  exact Bool.eq_false_iff.2 fun hall => hg (State.allIdle_iff.1 hall g)

/-- DECOMMISSION outside COMMISSIONED, or with all four fields IDLE (R176). -/
theorem runDecommission_done (h : s.mgmt.mode = .commissioned → ∀ g, (s.fields.at g).phase = .idle) :
    runDecommission s [] = .ok (s.setMode .uncommissioned, []) := by
  refine if_neg ?_
  rintro ⟨hmode, hlive⟩
  exact Bool.false_ne_true (hlive.symm.trans (State.allIdle_iff.2 (h hmode)))

theorem runDecommission_live (hmode : s.mgmt.mode = .commissioned) (hlive : ∃ g, (s.fields.at g).phase ≠ .idle) :
    runDecommission s [] = .error .fieldLive :=
  if_pos ⟨hmode, State.allIdle_false hlive⟩

end

/-- Settles O21: the three rules on an empty list of operands, and DECOMMISSION's test of the fields. -/
theorem deviceModeCommands : Obligations.DeviceModeCommands := by
  refine fun s f rest => ⟨fun h => ?commission, fun h hidle => ?decommission, fun h hmode hlive => ?fieldLive, fun h => ?restart⟩
  case commission => exact congrArg Host.Outcome.next (h.done rfl runCommission rfl)
  case decommission =>
    exact congrArg Host.Outcome.next (h.done rfl _ (runDecommission_done (s := s.taken rest) hidle))
  case fieldLive =>
    exact congrArg Host.Outcome.next (h.refused rfl _ (runDecommission_live (s := s.taken rest) hmode hlive))
  case restart => exact congrArg Host.Outcome.next (h.done rfl runRestart rfl)

end Sys2Proof.Machine
end

section
/-! SUPPORT. The settings image's three tests, and the reading byte by byte (R192, R193, R197). -/

namespace Sys2Proof.Machine

open Sys2Proof

section
variable {memory b read : List Byte} {fill : Byte} {l : Loader} {c : Byte} {n k : Nat}

/-! ### What the settings memory supplies (R192) -/

theorem suppliedBytes_length (memory : List Byte) (fill : Byte) (n : Nat) : (suppliedBytes memory fill n).length = n := by
  simp only [suppliedBytes, List.length_append, List.length_take, List.length_replicate]
  omega

/-- Fewer bytes of the same memory are the first of them. -/
theorem suppliedBytes_take (memory : List Byte) (fill : Byte) (h : k ≤ n) :
    (suppliedBytes memory fill n).take k = suppliedBytes memory fill k := by
  simp only [suppliedBytes, List.take_append, List.take_take, List.take_replicate, List.length_take]
  congr 2 <;> omega

/-- A memory that holds that many bytes supplies its own first bytes. -/
theorem suppliedBytes_held (fill : Byte) (h : n ≤ memory.length) : suppliedBytes memory fill n = memory.take n := by
  rw [suppliedBytes, Nat.sub_eq_zero_of_le h, List.replicate_zero, List.append_nil]

/-! ### The three tests (R193) -/

theorem imageLengthOk_iff : imageLengthOk n = true ↔ ∃ k, k ≤ 48 ∧ n = 38 + 30 * k := by
  simp only [imageLengthOk, Bool.and_eq_true, decide_eq_true_eq, beq_iff_eq]
  simp only [Config.imageHead, Config.imageEntry]
  constructor
  · rintro ⟨⟨hhead, hmod⟩, hcount⟩
    exact ⟨(n - 38) / 30, hcount, by omega⟩
  · rintro ⟨k, hk, rfl⟩
    omega

/-- The bytes of an image, as the three tests have them: signature, image length, and the check after it (R193). -/
structure IsImage (memory : List Byte) (fill : Byte) (b : List Byte) : Prop where
  count : ∃ n, n ≤ 48 ∧ b.length = 38 + 30 * n
  signature : b.take 2 = [0xC4#8, 0x48#8]
  named : nat16 (b.getD 2 0) (b.getD 3 0) = b.length
  checked : suppliedBytes memory fill (b.length + 2) = b ++ linkCheckBytes b

/-- The bytes before the check are what the memory supplies first. -/
theorem IsImage.supplied (h : IsImage memory fill b) (hk : k ≤ b.length) : suppliedBytes memory fill k = b.take k := by
  rw [← suppliedBytes_take memory fill (n := b.length + 2) (by omega), h.checked, List.take_append_of_le_length hk]

theorem IsImage.long (h : IsImage memory fill b) : 38 ≤ b.length := by
  obtain ⟨n, -, hn⟩ := h.count
  omega

/-- The image length stands in the first four bytes. -/
theorem nat16_take_four (b : List Byte) :
    nat16 ((b.take 4).getD 2 0) ((b.take 4).getD 3 0) = nat16 (b.getD 2 0) (b.getD 3 0) := by
  simp [List.getD_eq_getElem?_getD]

theorem isImage_of_validImage (h : validImage memory fill = some b) : IsImage memory fill b := by
  unfold validImage at h
  split at h
  · next s1 s2 n1 n2 hfour =>
    dsimp only at h
    split at h
    · next hsig =>
      obtain ⟨rfl, rfl⟩ := hsig
      generalize hn : nat16 n1 n2 = n at h
      rw [Option.ite_none_right_eq_some, Option.some_inj] at h
      obtain ⟨⟨hok, hcheck⟩, hb⟩ := h
      obtain ⟨k, hk, hcount⟩ := imageLengthOk_iff.1 hok
      have hlen : b.length = n := by
        rw [← hb, List.length_take, suppliedBytes_length]
        omega
      have hhead : b.take 4 = [0xC4#8, 0x48#8, n1, n2] := by
        rw [← hb, List.take_take, suppliedBytes_take memory fill (by omega), ← hfour, Nat.min_eq_left (by omega)]
      refine ⟨⟨k, hk, hlen.trans hcount⟩, ?_, ?_, ?_⟩
      · have htwo := congrArg (List.take 2) hhead
        rwa [List.take_take] at htwo
      · rw [← nat16_take_four, hhead, hlen, ← hn]
        rfl
      · rw [hb] at hcheck
        rw [hlen, ← hcheck, ← hb, List.take_append_drop]
    · exact nomatch h
  · exact nomatch h

theorem validImage_of_isImage (h : IsImage memory fill b) : validImage memory fill = some b := by
  have hlong := h.long
  have hfour : suppliedBytes memory fill 4 = [0xC4#8, 0x48#8, b.getD 2 0, b.getD 3 0] := by
    have hsig := h.signature
    rw [h.supplied (by omega)]
    match b, hlong, hsig with
    | _ :: _ :: _ :: _ :: _, _, hsig =>
      obtain ⟨rfl, rfl⟩ : _ ∧ _ := by simpa using hsig
      rfl
  unfold validImage
  rw [hfour]
  dsimp only
  rw [if_pos ⟨rfl, rfl⟩, h.named, h.checked, List.take_left, List.drop_left, if_pos ⟨imageLengthOk_iff.2 h.count, rfl⟩]

theorem validImage_eq_some_iff : validImage memory fill = some b ↔ IsImage memory fill b :=
  ⟨isImage_of_validImage, validImage_of_isImage⟩

/-! ### The reading goes on or ends (R192, R193) -/

theorem Loader.clockIn_goesOn (h : readingGoesOn (l.buffer ++ [c]) = true) :
    l.clockIn c = { l with buffer := l.buffer ++ [c] } := if_pos h

/-- A reading that does not go on and has no image is over. -/
theorem Loader.clockIn_failed (h : readingGoesOn (l.buffer ++ [c]) = false)
    (hv : ∀ b, ¬ IsImage (l.buffer ++ [c]) 0 b) : l.clockIn c = { stage := .failed, buffer := [] } := by
  have hnone : validImage (l.buffer ++ [c]) 0 = none :=
    Option.eq_none_iff_forall_ne_some.2 fun b hb => hv b (validImage_eq_some_iff.1 hb)
  unfold Loader.clockIn
  dsimp only
  rw [h, hnone]
  rfl

theorem Loader.clockIn_complete (h : readingGoesOn (l.buffer ++ [c]) = false) (hv : IsImage (l.buffer ++ [c]) 0 b) :
    l.clockIn c = { stage := .complete, buffer := l.buffer ++ [c] } := by
  unfold Loader.clockIn
  dsimp only
  rw [h, validImage_eq_some_iff.2 hv]
  rfl

/-- The tests that the bytes read so far allow, and whether bytes are still to come. -/
theorem readingGoesOn_iff : readingGoesOn read = true ↔
    (2 ≤ read.length → read.take 2 = [0xC4#8, 0x48#8]) ∧
    (4 ≤ read.length → (∃ n, n ≤ 48 ∧ nat16 (read.getD 2 0) (read.getD 3 0) = 38 + 30 * n) ∧
      read.length < nat16 (read.getD 2 0) (read.getD 3 0) + 2) := by
  rw [← imageLengthOk_iff]
  simp only [readingGoesOn, Bool.and_eq_true, Bool.or_eq_true, decide_eq_true_eq, beq_iff_eq]
  rw [or_iff_not_imp_left, or_iff_not_imp_left, Nat.not_lt, Nat.not_lt]
  rfl

/-- An image agrees with the bytes that have been read on as many as both have. -/
theorem IsImage.take_read (h : IsImage read fill b) (hb : k ≤ b.length) (hr : k ≤ read.length) :
    b.take k = read.take k := by
  rw [← h.supplied hb, suppliedBytes_held fill hr]

/-- Test 1 has failed: the second byte read was wrong. -/
theorem Loader.clockIn_signature (hlen : (l.buffer ++ [c]).length = 2) (h : l.buffer ++ [c] ≠ [0xC4#8, 0x48#8]) :
    l.clockIn c = { stage := .failed, buffer := [] } := by
  have htake : (l.buffer ++ [c]).take 2 = l.buffer ++ [c] := List.take_of_length_le hlen.le
  refine Loader.clockIn_failed (Bool.eq_false_iff.2 fun hgo => h ?_) fun b hb => h ?_
  · exact htake ▸ (readingGoesOn_iff.1 hgo).1 hlen.ge
  · have hlong := hb.long
    rw [← htake, ← hb.take_read (by omega) hlen.ge, hb.signature]

/-- Test 2 has failed: the fourth byte read completed a length that no image has. -/
theorem Loader.clockIn_length (hread : read = l.buffer ++ [c]) (hlen : read.length = 4)
    (h : ¬ ∃ n, n ≤ 48 ∧ nat16 (read.getD 2 0) (read.getD 3 0) = 38 + 30 * n) :
    l.clockIn c = { stage := .failed, buffer := [] } := by
  subst hread
  refine Loader.clockIn_failed (Bool.eq_false_iff.2 fun hgo => h ?_) fun b hb => h ?_
  · exact ((readingGoesOn_iff.1 hgo).2 hlen.ge).1
  · have hlong := hb.long
    have hread : b.take 4 = l.buffer ++ [c] := by
      rw [hb.take_read (by omega) hlen.ge, List.take_of_length_le hlen.le]
    rw [← hread, nat16_take_four]
    exact hb.named ▸ hb.count

/-- Test 3 at the last check byte. -/
theorem isImage_whole (hsig : read.take 2 = [0xC4#8, 0x48#8])
    (hok : ∃ n, n ≤ 48 ∧ nat16 (read.getD 2 0) (read.getD 3 0) = 38 + 30 * n)
    (hlen : read.length = nat16 (read.getD 2 0) (read.getD 3 0) + 2) :
    (∃ b, IsImage read fill b) ↔ read.drop (read.length - 2) = linkCheckBytes (read.take (read.length - 2)) := by
  have hfour : 4 ≤ read.length - 2 := by
    obtain ⟨n, -, hn⟩ := hok
    omega
  have hname {b : List Byte} (hb : b.take 4 = read.take 4) :
      nat16 (b.getD 2 0) (b.getD 3 0) = nat16 (read.getD 2 0) (read.getD 3 0) := by
    rw [← nat16_take_four, hb, nat16_take_four]
  constructor
  · rintro ⟨b, hb⟩
    have hlong := hb.long
    have hblen : b.length = read.length - 2 := by
      rw [← hb.named, hname (hb.take_read (by omega) (by omega)), hlen, Nat.add_sub_cancel]
    have hwhole : read = b ++ linkCheckBytes b := by
      rw [← hb.checked, suppliedBytes_held fill (by omega), List.take_of_length_le (by omega)]
    rw [← hblen, hwhole, List.drop_left, List.take_left]
  · intro hcheck
    have hblen : (read.take (read.length - 2)).length = read.length - 2 := List.length_take_of_le (Nat.sub_le ..)
    have htake {k : Nat} (hk : k ≤ 4) : (read.take (read.length - 2)).take k = read.take k := by
      rw [List.take_take, Nat.min_eq_left (by omega)]
    have hnamed := hname (htake le_rfl)
    refine ⟨read.take (read.length - 2), ?_, (htake (by decide)).trans hsig, by omega, ?_⟩
    · rwa [hblen, hlen, Nat.add_sub_cancel]
    · rw [hblen, ← hcheck, List.take_append_drop, suppliedBytes_held fill (by omega), List.take_of_length_le (by omega)]

end

/-! ### The part's own step in STARTING (R192, R197) -/

section
variable {s : State} {k : Nat}

/-- With nothing to take, the part's own step in STARTING is a moment of the settings port. -/
theorem step_starting (hp : s.pending = []) (hs : s.link.store = []) (ht : s.nextTake = none)
    (hm : s.mgmt.mode = .starting) : step s = .next s.readStep := by
  have hframe : s.frameRow = none := by simp [State.frameRow, hs]
  have hitem : s.takeRow = none := by simp [State.takeRow, ht]
  have htick : s.tick = s.readStep := if_pos (by simp [State.timersRun, hm])
  simp only [step, hp, ownStep, hframe, hitem, htick]

theorem State.settingsPort_sending (h : s.loader.stage = .sending k) : s.settingsSelect = .low ∧
    s.settingsOut = [0x03#8, 0x00#8, 0x00#8, 0x00#8][k]? ∧
    s.readStep = { s with loader := { s.loader with stage := if k < 3 then .sending (k + 1) else .receiving } } := by
  have hlast : (k + 1 < readCommand.length) = (k < 3) := propext Nat.succ_lt_succ_iff
  simp only [State.settingsSelect, State.settingsOut, State.readStep, Loader.clockOut, h, hlast, true_and, and_true]
  rfl

theorem State.settingsPort_receiving (h : s.loader.stage = .receiving) : s.settingsSelect = .low ∧ s.settingsOut = none ∧
    s.readStep = { s with loader := s.loader.clockIn (Config.settingsByte s.choices), choices := s.choices + 1 } := by
  simp only [State.settingsSelect, State.settingsOut, State.readStep, h, true_and]

theorem State.settingsPort_released (h : s.loader.stage = .complete ∨ s.loader.stage = .failed) :
    s.settingsSelect = .high ∧ s.settingsOut = none ∧ s.readStep = s.endStarting [] 0 := by
  unfold State.settingsSelect State.settingsOut State.readStep
  rcases h with h | h <;> rw [h] <;> exact ⟨rfl, rfl, rfl⟩

end

/-- Settles O6: the tests read off the bytes supplied, the step by the stage of the reading, and each byte clocked in by the
first test that it fails. -/
theorem imageValidity : Obligations.ImageValidity := by
  refine ⟨fun memory fill b => ?valid, fun s hp hs ht hm => ?steps, fun l c read hread => ?reading⟩
  case valid =>
    rw [validImage_eq_some_iff]
    exact ⟨fun ⟨hcount, hsig, hname, hcheck⟩ => ⟨hcount, hsig, hname, hcheck⟩,
      fun ⟨hcount, hsig, hname, hcheck⟩ => ⟨hcount, hsig, hname, hcheck⟩⟩
  case steps =>
    rw [step_starting hp hs ht hm]
    refine ⟨fun k hk _ => ?_, fun hk => ?_, fun hk => ?_⟩
    · obtain ⟨hselect, hout, hnext⟩ := State.settingsPort_sending hk
      exact ⟨hselect, hout, congrArg _ hnext⟩
    · obtain ⟨hselect, hout, hnext⟩ := State.settingsPort_receiving hk
      exact ⟨hselect, hout, _, congrArg _ hnext⟩
    · obtain ⟨hselect, hout, hnext⟩ := State.settingsPort_released hk
      have hreset : s.loader.stage ≠ .inReset := fun hr => by simp [hr] at hk
      exact ⟨hselect, hout, (congrArg _ hnext).trans (exec_endOfStarting hm hreset [] false).symm⟩
  case reading =>
    refine ⟨fun hlen h => ?_, fun hlen h => Loader.clockIn_length hread hlen h,
      fun hsig hok => ⟨fun hmore => ?_, fun hfour hlen => ?_⟩⟩
    · subst hread
      exact Loader.clockIn_signature hlen h
    · subst hread
      refine Loader.clockIn_goesOn (readingGoesOn_iff.2 ⟨hsig, fun hfour => ⟨hok hfour, ?_⟩⟩)
      exact hmore.resolve_left (Nat.not_lt.2 hfour)
    · have hends : readingGoesOn read = false := Bool.eq_false_iff.2 fun hgo => by
        obtain ⟨-, hlater⟩ := readingGoesOn_iff.1 hgo
        exact absurd hlen (Nat.ne_of_lt (hlater hfour).2)
      have hcheck := isImage_whole (fill := 0) (hsig (by omega)) (hok hfour) hlen
      subst hread
      refine ⟨fun h => ?_, fun h => ?_⟩
      · obtain ⟨b, hb⟩ := hcheck.2 h
        exact Loader.clockIn_complete hends hb
      · exact Loader.clockIn_failed hends fun b hb => h (hcheck.1 ⟨b, hb⟩)

end Sys2Proof.Machine
end

section
/-! SUPPORT. The end of STARTING with a valid image: the entries over an empty Element Table, each loaded or skipped, and the
start that follows the head (R192, R194 to R196). -/

namespace Sys2Proof.Machine

open Sys2Proof

section
variable {s t u : State} {b entry : List Byte} {skipped : Nat} {e : ElementId} {x : ElementEntry}
variable {rules : Table 4 (Option ScoreRule)}

/-! ### An entry is loaded or skipped (R195) -/

/-- The bytes of an image entry spell an element, an entry that tests 1 and 2 of LOAD ELEMENT pass, and its rules (R86, R195). -/
structure SpellsEntry (entry : List Byte) (e : ElementId) (x : ElementEntry) (rules : Table 4 (Option ScoreRule)) : Prop where
  element : elementOf (imageByte entry 0) = some e
  operands : entryOf ((entry.drop 1).take 13) = some x
  rules : imageRules (entry.drop 14) = some rules

/-- The tests of an entry against the Element Table that the earlier entries have left (R195). -/
structure State.Admits (s : State) (e : ElementId) (x : ElementEntry) (rules : Table 4 (Option ScoreRule)) : Prop where
  unloaded : s.loadedAt e = none
  fits : x.fitsRules rules = true
  free : s.addressTaken e x.busAddr = false

theorem State.applyEntry_loads (hs : SpellsEntry entry e x rules) (ha : s.Admits e x rules) :
    State.applyEntry (s, skipped) entry =
      (s.updElement e fun _ => { loaded := some (.fresh x), rules, eventCount := 0 }, skipped) := by
  simp only [State.applyEntry, hs.element, hs.operands, hs.rules]
  exact if_pos ⟨Option.isNone_iff_eq_none.2 ha.unloaded, ha.fits, ha.free⟩

theorem State.applyEntry_skips (h : ∀ e x rules, SpellsEntry entry e x rules → ¬ s.Admits e x rules) :
    State.applyEntry (s, skipped) entry = (s, skipped + 1) := by
  unfold State.applyEntry
  split
  · next e x rules he hx hr =>
    refine if_neg fun ⟨hn, hf, ha⟩ => h e x rules ⟨he, hx, hr⟩ ⟨Option.isNone_iff_eq_none.1 hn, hf, ha⟩
  · rfl

/-- An entry is loaded whole over a table that admits it, or skipped and counted (R195). -/
theorem State.applyEntry_cases (s : State) (skipped : Nat) (entry : List Byte) :
    (∃ e x rules, SpellsEntry entry e x rules ∧ s.Admits e x rules ∧ State.applyEntry (s, skipped) entry =
      (s.updElement e fun _ => { loaded := some (.fresh x), rules, eventCount := 0 }, skipped)) ∨
    ((∀ e x rules, SpellsEntry entry e x rules → ¬ s.Admits e x rules) ∧
      State.applyEntry (s, skipped) entry = (s, skipped + 1)) := by
  by_cases h : ∃ e x rules, SpellsEntry entry e x rules ∧ s.Admits e x rules
  · obtain ⟨e, x, rules, hs, ha⟩ := h
    exact .inl ⟨e, x, rules, hs, ha, State.applyEntry_loads hs ha⟩
  · have hskip (e x rules) (hs : SpellsEntry entry e x rules) : ¬ s.Admits e x rules := fun ha => h ⟨e, x, rules, hs, ha⟩
    exact .inr ⟨hskip, State.applyEntry_skips hskip⟩

/-! ### The entries see the Element Table alone (R195) -/

theorem State.Admits.over {elements : Table 48 Element} (h : { s with elements }.Admits e x rules) (t : State) :
    { t with elements }.Admits e x rules := ⟨h.unloaded, h.fits, h.free⟩

theorem State.applyEntry_over (s t : State) (elements : Table 48 Element) (skipped : Nat) (entry : List Byte) :
    State.applyEntry ({ s with elements }, skipped) entry =
      ({ s with elements := (State.applyEntry ({ t with elements }, skipped) entry).1.elements },
        (State.applyEntry ({ t with elements }, skipped) entry).2) := by
  rcases State.applyEntry_cases { t with elements } skipped entry with ⟨e, x, rules, hs, ha, heq⟩ | ⟨hn, heq⟩
  · rw [heq, State.applyEntry_loads hs (ha.over s)]
    rfl
  · rw [heq, State.applyEntry_skips fun e x rules hs ha => hn e x rules hs (ha.over t)]

theorem State.applyEntries_over (s t : State) (entries : List (List Byte)) (elements : Table 48 Element) (skipped : Nat) :
    entries.foldl State.applyEntry ({ s with elements }, skipped) =
      ({ s with elements := (entries.foldl State.applyEntry ({ t with elements }, skipped)).1.elements },
        (entries.foldl State.applyEntry ({ t with elements }, skipped)).2) := by
  induction entries generalizing elements skipped with
  | nil => rfl
  | cons entry entries ih =>
    rw [List.foldl_cons, List.foldl_cons, State.applyEntry_over s t, State.applyEntry_over t t, ih]

/-- No entry makes an element PRESENT (R87, R141). -/
theorem State.applyEntries_notPresent (entries : List (List Byte)) (p : State × Nat)
    (hp : ∀ e l, p.1.loadedAt e = some l → l.presence ≠ .present) :
    ∀ e l, (entries.foldl State.applyEntry p).1.loadedAt e = some l → l.presence ≠ .present := by
  induction entries generalizing p with
  | nil => exact hp
  | cons entry entries ih =>
    refine ih _ fun k l hl => ?_
    rcases State.applyEntry_cases p.1 p.2 entry with ⟨e, x, rules, -, -, heq⟩ | ⟨-, heq⟩
    · rw [heq, State.loadedAt_def, State.updElement_elements, Table.at_put] at hl
      split at hl
      · obtain rfl := Option.some.inj hl
        exact nofun
      · exact hp k l hl
    · rw [heq] at hl
      exact hp k l hl

theorem State.loadEntries_notPresent (s : State) (entries : List (List Byte)) :
    ∀ e l, (s.loadEntries entries).1.loadedAt e = some l → l.presence ≠ .present := by
  refine State.applyEntries_notPresent entries _ fun e l hl => ?_
  rw [State.loadedAt_def, Table.at_fill] at hl
  exact nomatch hl

/-! ### The start (R128, R196) -/

/-- The start writes the mode, the notice, the timers, the marks and the bus, whose arbiter chooses (R196). -/
theorem State.leaveStarting_eq (s : State) (valid : Bool) (skipped : Nat) : s.leaveStarting valid skipped =
    { s with
      mgmt := ((s.setMode .uncommissioned).queueNotice (.settings valid skipped)).mgmt
      elements := (s.leaveStarting valid skipped).elements, bus := (s.leaveStarting valid skipped).bus
      beacons := { s.beacons with routine := Table.fill 4 true, left := some s.timing.beacon }
      sampleLeft := some s.timing.sample, budgetLeft := some 10, loader := .finished } := by
  unfold State.leaveStarting
  rw [State.settle_eq, State.queueNotice_eq]
  rfl

/-- The arbiter's first choice leaves the Element Table as the entries have made it, with no element PRESENT (R128). -/
theorem State.settle_elements_at (h : ∀ e l, s.loadedAt e = some l → l.presence ≠ .present) (e : ElementId) :
    s.settle.elements.at e = s.elements.at e := by
  have hloaded : s.settle.loadedAt e = s.loadedAt e := by
    cases hl : s.loadedAt e with
    | none => exact (WorkKept.settle s).empty e hl
    | some l => exact State.settle_notPresent hl (h e l hl)
  have hkeep := BusKeeps.settle s
  exact (Element.mk.injEq ..).mpr ⟨hloaded, hkeep.rules e, hkeep.eventCount e⟩

theorem State.leaveStarting_elements_at (h : ∀ e l, s.loadedAt e = some l → l.presence ≠ .present) (valid : Bool)
    (skipped : Nat) (e : ElementId) : (s.leaveStarting valid skipped).elements.at e = s.elements.at e :=
  State.settle_elements_at (by exact h) e

/-- The state that the head and the entries of a valid image make, before the start (R194, R195). -/
def State.withImage (s : State) (b : List Byte) (elements : Table 48 Element) : State :=
  { s with
    link := { (s.abandonFrame .truncated).link with
      rate := (rateOf (imageByte b 6)).getD .mbit1, own := ownOf (imageByte b 4), console := consoleOf (imageByte b 5) }
    timing := imageTimings b, lines := linesSet (imageLine b) s.pins, elements }

theorem State.endStarting_valid {image : List Byte} {fill : Byte} (h : s.loader.image image fill = some b)
    (hu : (u, skipped) = s.loadEntries (imageEntries b)) :
    s.endStarting image fill = (s.withImage b u.elements).leaveStarting true skipped := by
  have hload (v : State) : v.loadEntries (imageEntries b) = ({ v with elements := u.elements }, skipped) := by
    rw [State.loadEntries, State.applyEntries_over v s, ← State.loadEntries, ← hu]
  simp only [State.endStarting, h]
  rw [hload, State.applyHead_eq]
  rfl

theorem Loader.image_valid {l : Loader} {rest : List Byte} {fill : Byte} (hl : l.stage ≠ .failed) :
    l.image rest fill = validImage (l.buffer ++ rest) fill := if_neg hl

end

/-! ### The rules of an entry (R195, section 11.7) -/

section
variable {b : List Byte} {rules : Table 4 (Option ScoreRule)} {r : Option ScoreRule} {who auto teleop endgame : Byte}
variable {w : Beneficiary} {x : ElementEntry}

theorem beneficiaryOf_named (h : who.toNat ≤ 4) : ∃ w, beneficiaryOf who = some w := by
  have hcode : who.toNat = 0 ∨ who.toNat = 1 ∨ who.toNat = 2 ∨ who.toNat = 3 ∨ who.toNat = 4 := by omega
  unfold beneficiaryOf
  rcases hcode with hc | hc | hc | hc | hc <;> rw [hc] <;> exact ⟨_, rfl⟩

/-- A beneficiary is read from its own code (R197). -/
theorem beneficiaryOf_code (h : beneficiaryOf who = some w) : who.toNat = w.code := by
  unfold beneficiaryOf at h
  split at h
  case h_6 => exact nomatch h
  all_goals
    obtain rfl := Option.some.inj h
    assumption

theorem beneficiaryOf_namesOwner (h : beneficiaryOf who = some w) : w = .owner ∨ w = .opponent ↔ who.toNat ≤ 1 := by
  rw [beneficiaryOf_code h]
  cases w <;> simp [Beneficiary.code]

/-- The score rule that four bytes of an entry spell: none when the first names no beneficiary. -/
def ruleSpelled (who auto teleop endgame : Byte) : Option ScoreRule :=
  (beneficiaryOf who).map fun w =>
    { auto := min 99 auto.toNat, teleop := min 99 teleop.toNat, endgame := min 99 endgame.toNat, beneficiary := w }

theorem imageRule_eq_some_iff : imageRule [who, auto, teleop, endgame] = some r ↔
    (who = 0xFF#8 ∨ who.toNat ≤ 4) ∧ r = ruleSpelled who auto teleop endgame := by
  have hwritten : (fun w => ScoreRule.written auto teleop endgame w) = _ := funext (ScoreRule.written_eq auto teleop endgame)
  unfold imageRule ruleSpelled
  dsimp only
  rw [← hwritten]
  by_cases hall : who = 0xFF#8
  · subst hall
    simp [beneficiaryOf, eq_comm]
  · rw [if_neg hall, or_iff_right hall]
    cases hw : beneficiaryOf who with
    | none =>
      refine iff_of_false nofun fun ⟨hle, _⟩ => ?_
      obtain ⟨w, hsome⟩ := beneficiaryOf_named hle
      exact nomatch hw.symm.trans hsome
    | some w =>
      have hle := beneficiaryOf_lt hw
      simp [Nat.le_of_lt_succ hle, eq_comm]

/-- The four bytes of an entry's rule of one event kind. -/
def ruleBytesAt (b : List Byte) (j : Fin 4) : List Byte :=
  [b.getD (4 * j.val) 0, b.getD (4 * j.val + 1) 0, b.getD (4 * j.val + 2) 0, b.getD (4 * j.val + 3) 0]

theorem ruleBytesAt_eq (h : b.length = 16) (j : Fin 4) : (b.drop (4 * j.val)).take 4 = ruleBytesAt b j := by
  have hj := j.isLt
  rw [List.drop_eq_getElem_cons (by omega), List.drop_eq_getElem_cons (by omega), List.drop_eq_getElem_cons (by omega),
    List.drop_eq_getElem_cons (by omega)]
  simp (disch := omega) only [ruleBytesAt, List.getD_eq_getElem, List.take_succ_cons, List.take_zero]

theorem imageRules_eq_some_iff (h : b.length = 16) :
    imageRules b = some rules ↔ ∀ j, imageRule (ruleBytesAt b j) = some (rules.at j) := by
  have hlast : (b.drop 12).take 4 = b.drop 12 := List.take_of_length_le (by simp [h])
  have h0 : b.take 4 = ruleBytesAt b 0 := ruleBytesAt_eq h 0
  have h1 : (b.drop 4).take 4 = ruleBytesAt b 1 := ruleBytesAt_eq h 1
  have h2 : (b.drop 8).take 4 = ruleBytesAt b 2 := ruleBytesAt_eq h 2
  have h3 : b.drop 12 = ruleBytesAt b 3 := hlast.symm.trans (ruleBytesAt_eq h 3)
  unfold imageRules
  rw [h0, h1, h2, h3]
  constructor
  · split
    · next ha hb hc hd =>
      intro hr
      obtain rfl := Option.some.inj hr
      intro j
      match j with
      | 0 => exact ha
      | 1 => exact hb
      | 2 => exact hc
      | 3 => exact hd
    · exact nofun
  · intro hr
    simp only [hr]
    refine congrArg some (Table.ext fun j => ?_)
    match j with
    | 0 | 1 | 2 | 3 => rfl

/-- The four score rules that sixteen bytes of an entry spell. -/
def rulesSpelled (b : List Byte) : Table 4 (Option ScoreRule) :=
  Vector.ofFn fun j : Fin 4 =>
    ruleSpelled (b.getD (4 * j.val) 0) (b.getD (4 * j.val + 1) 0) (b.getD (4 * j.val + 2) 0) (b.getD (4 * j.val + 3) 0)

theorem rulesSpelled_at (b : List Byte) (j : Fin 4) : (rulesSpelled b).at j =
    ruleSpelled (b.getD (4 * j.val) 0) (b.getD (4 * j.val + 1) 0) (b.getD (4 * j.val + 2) 0) (b.getD (4 * j.val + 3) 0) :=
  Table.at_ofFn _ j

/-- The rules of an entry are read, each from its own four bytes, when every beneficiary byte is a code or 0xFF. -/
theorem imageRules_spelled (h : b.length = 16) : imageRules b = some rules ↔
    (∀ j : Fin 4, b.getD (4 * j.val) 0 = 0xFF#8 ∨ (b.getD (4 * j.val) 0).toNat ≤ 4) ∧ rules = rulesSpelled b := by
  have hrules : rules = rulesSpelled b ↔ ∀ j, rules.at j = (rulesSpelled b).at j := ⟨fun h _ => h ▸ rfl, Table.ext⟩
  rw [imageRules_eq_some_iff h, hrules, ← forall_and]
  refine forall_congr' fun j => ?_
  rw [rulesSpelled_at]
  exact imageRule_eq_some_iff

theorem ruleSpelled_beneficiary {y : ScoreRule} (h : ruleSpelled who auto teleop endgame = some y) :
    beneficiaryOf who = some y.beneficiary := by
  obtain ⟨w, hw, rfl⟩ := Option.map_eq_some_iff.1 h
  exact hw

/-- A SHARED entry fits its rules when no beneficiary byte is a code of OWNER or OPPONENT (R86, R195). -/
theorem fitsRules_spelled (h : b.length = 16) (hr : imageRules b = some rules) : x.fitsRules rules = true ↔
    (x.owner = .shared → ∀ j : Fin 4, 2 ≤ (b.getD (4 * j.val) 0).toNat) := by
  obtain ⟨-, rfl⟩ := (imageRules_spelled h).1 hr
  rw [ElementEntry.fitsRules_iff]
  refine imp_congr_right fun _ => forall_congr' fun j => ?_
  have hj := rulesSpelled_at b j
  constructor
  · intro hfit
    by_contra hlow
    obtain ⟨w, hw⟩ := beneficiaryOf_named (who := b.getD (4 * j.val) 0) (by omega)
    obtain ⟨howner, hopponent⟩ := hfit _ (by rw [hj, ruleSpelled, hw, Option.map_some])
    exact ((beneficiaryOf_namesOwner hw).2 (by omega)).elim howner hopponent
  · intro hhigh y hy
    have hw := ruleSpelled_beneficiary (hj.symm.trans hy)
    exact not_or.1 fun hn => by
      have := (beneficiaryOf_namesOwner hw).1 hn
      omega

end

/-! ### The bytes of an entry (R195, section 11.7) -/

section
variable {u : State} {skipped : Nat} {eb addr fb ob kb am pm h1 h2 c1 c2 l1 l2 db : Byte} {ruleBytes : List Byte}
variable {e : ElementId} {x : ElementEntry} {rules : Table 4 (Option ScoreRule)}

theorem spellsEntry_iff :
    SpellsEntry ([eb, addr, fb, ob, kb, am, pm, h1, h2, c1, c2, l1, l2, db] ++ ruleBytes) e x rules ↔
      elementOf eb = some e ∧ entryOf [addr, fb, ob, kb, am, pm, h1, h2, c1, c2, l1, l2, db] = some x ∧
        imageRules ruleBytes = some rules :=
  ⟨fun ⟨he, hx, hr⟩ => ⟨he, hx, hr⟩, fun ⟨he, hx, hr⟩ => ⟨he, hx, hr⟩⟩

/-- Tests 1 and 2 of LOAD ELEMENT, by the bytes that fail them (R86). -/
theorem entryOf_refused (h : addr.toNat = 0 ∨ 63 < addr.toNat ∨ 4 ≤ fb.toNat ∨ ownerOf ob = none ∨ kindOf kb = none ∨
    8 ≤ pm.toNat ∨ disciplineOf db = none ∨ (kindOf kb = some .sensing ∧ am ≠ 0) ∨
    (kindOf kb ≠ some .sensing ∧ (am = 0 ∨ pm = 0))) :
    entryOf [addr, fb, ob, kb, am, pm, h1, h2, c1, c2, l1, l2, db] = none := by
  refine Option.eq_none_iff_forall_ne_some.2 fun x hx => ?_
  obtain ⟨g, o, k, d, hg, ho, hk, hpm, hd, rfl, hlo, hhi, hc⟩ := entryOf_eq_some.1 hx
  obtain ⟨hsensing, hacting⟩ := ElementEntry.consistent_iff.1 hc
  rcases h with h | h | h | h | h | h | h | ⟨hkind, ham⟩ | ⟨hkind, hmask⟩
  · omega
  · omega
  · exact nomatch (fieldOf_range h).symm.trans hg
  · exact nomatch h.symm.trans ho
  · exact nomatch h.symm.trans hk
  · omega
  · exact nomatch h.symm.trans hd
  · exact ham (hsensing (Option.some.inj (hk.symm.trans hkind)))
  · obtain ⟨ham, hph⟩ := hacting fun hs => hkind (hk.trans (congrArg some hs))
    exact hmask.elim ham fun hz => hph ((phaseMask_eq_zero hpm).2 hz)

/-- No table admits an entry with rules that spell nothing or that its SHARED owner does not fit, of an element that is loaded,
or with a bus address that is taken (R195). -/
theorem not_admits_spelled (hlen : ruleBytes.length = 16) (he : elementOf eb = some e)
    (hx : entryOf [addr, fb, ob, kb, am, pm, h1, h2, c1, c2, l1, l2, db] = some x) (hr : imageRules ruleBytes = some rules)
    (h : (∃ j : Fin 4, 5 ≤ (ruleBytes.getD (4 * j.val) 0).toNat ∧ ruleBytes.getD (4 * j.val) 0 ≠ 0xFF#8) ∨
      (ownerOf ob = some .shared ∧ ∃ j : Fin 4, (ruleBytes.getD (4 * j.val) 0).toNat ≤ 1) ∨
      (∃ e l, eb = elementByte e ∧ u.loadedAt e = some l) ∨
      (∃ e k l, eb = elementByte e ∧ k ≠ e ∧ u.loadedAt k = some l ∧ l.entry.busAddr = addr)) : ¬ u.Admits e x rules := by
  rintro ⟨hunloaded, hfits, hfree⟩
  obtain ⟨g, o, k, d, -, ho, -, -, -, rfl, -⟩ := entryOf_eq_some.1 hx
  have hsame {e' : ElementId} (heb : eb = elementByte e') : e' = e :=
    Option.some.inj ((elementOf_elementByte e').symm.trans (heb ▸ he))
  rcases h with ⟨j, hj, hall⟩ | ⟨hshared, j, hj⟩ | ⟨e', l, heb, hl⟩ | ⟨e', k', l, heb, hne, hl, haddr⟩
  · obtain ⟨hnamed, -⟩ := (imageRules_spelled hlen).1 hr
    exact (hnamed j).elim hall fun hn => by omega
  · have := (fitsRules_spelled hlen hr).1 hfits (Option.some.inj (ho.symm.trans hshared)) j
    omega
  · rw [hsame heb, hunloaded] at hl
    exact nomatch hl
  · exact Bool.false_ne_true (hfree.symm.trans (State.addressTaken_iff.2 ⟨k', l, hsame heb ▸ hne, hl, haddr⟩))

end

/-- Settles O8: the head by its equations and the entries as the Element Table alone sees them; then an entry is skipped when it
spells nothing or the table does not admit it, and loaded when it does. -/
theorem endOfStartingAppliesImage : Obligations.EndOfStartingAppliesImage := by
  refine ⟨fun s image fill b hm hr hf hv => ?image, ?entry⟩
  case image =>
    generalize hu : s.loadEntries (imageEntries b) = p
    obtain ⟨u, skipped⟩ := p
    have hend := State.endStarting_valid ((Loader.image_valid hf).trans hv) hu.symm
    have hloaded := s.loadEntries_notPresent (imageEntries b)
    rw [hu] at hloaded
    refine ⟨_, u, skipped, (exec_endOfStarting hm hr image fill).trans (congrArg _ hend), ?_⟩
    have helements := State.leaveStarting_elements_at (s := s.withImage b u.elements) hloaded true skipped
    rw [State.leaveStarting_eq]
    exact ⟨State.queueNotice_mode _ _, rfl, rfl, rfl, rfl, fun n => Table.at_ofFn _ n, hu.symm, helements, rfl, rfl,
      fun hn => congrArg Mgmt.notices (State.queueNotice_room (s.setMode .uncommissioned) (.settings true skipped) hn)⟩
  case entry =>
    rintro u skipped eb addr fb ob kb am pm h1 h2 c1 c2 l1 l2 db ruleBytes x rfl hlen
    refine ⟨fun h => State.applyEntry_skips fun e x rules hs ha => ?_, ?_⟩
    · obtain ⟨he, hx, hr⟩ := spellsEntry_iff.1 hs
      have hin : ¬ 48 ≤ eb.toNat := Nat.not_le.2 (elementOf_lt he)
      have hoperands := mt entryOf_refused (Option.ne_none_iff_exists'.2 ⟨x, hx⟩)
      refine not_admits_spelled hlen he hx hr (Or.resolve_left ?_ hoperands) ha
      simpa only [or_assoc] using h.resolve_left hin
    · intro e g o k d heb hlo hhi hg ho hk hpm hd hsensing hacting hnamed hshared hunloaded hfree
      subst heb
      have hx : entryOf [addr, fb, ob, kb, am, pm, h1, h2, c1, c2, l1, l2, db] =
          some (spelledEntry addr am pm h1 h2 c1 c2 l1 l2 g o k d) :=
        entryOf_eq_some.2 ⟨g, o, k, d, hg, ho, hk, hpm, hd, rfl, hlo, hhi,
          ElementEntry.consistent_iff.2 ⟨hsensing, fun hn => (hacting hn).imp_right (mt (phaseMask_eq_zero hpm).1)⟩⟩
      have hr : imageRules ruleBytes = some (rulesSpelled ruleBytes) :=
        (imageRules_spelled hlen).2 ⟨hnamed, rfl⟩
      have hadmits : u.Admits e (spelledEntry addr am pm h1 h2 c1 c2 l1 l2 g o k d) (rulesSpelled ruleBytes) :=
        ⟨hunloaded, (fitsRules_spelled hlen hr).2 hshared, Bool.eq_false_iff.2 fun hn => by
          obtain ⟨j, l, -, hl, ha⟩ := State.addressTaken_iff.1 hn
          exact hfree j l hl ha⟩
      refine ⟨_, State.applyEntry_loads (spellsEntry_iff.2 ⟨elementOf_elementByte e, hx, hr⟩) hadmits, ?_⟩
      rw [State.loadedAt_def, State.updElement_elements, Table.at_put_same]
      exact ⟨rfl, rulesSpelled_at ruleBytes, rfl, fun j hj => Table.at_put_other _ _ hj⟩

end Sys2Proof.Machine
end

section
/-! SUPPORT. No procedure of the part touches the queue of waiting commands: one lemma for each procedure that a row calls, from
the frame of its block (`BusKeeps`, `FieldKeeps`, `LineKeeps`) where there is one. -/

namespace Sys2Proof.Machine

open Sys2Proof

/-- A procedure applied to each entry of a list leaves the queue as it is if it does so once. -/
theorem State.foldl_pending {α : Type} {g : State → α → State} (hg : ∀ s a, (g s a).pending = s.pending) (l : List α)
    (s : State) : (l.foldl g s).pending = s.pending := by
  induction l generalizing s with
  | nil => rfl
  | cons a l ih => exact (ih (g s a)).trans (hg s a)

@[simp] theorem State.ite_pending (p : Prop) [Decidable p] (t u : State) :
    (if p then t else u).pending = if p then t.pending else u.pending := apply_ite State.pending p t u

/-! ### The receive line and the transmitter -/

@[simp] theorem State.abandonFrame_pending (s : State) (e : LinkError) : (s.abandonFrame e).pending = s.pending := by
  rw [State.abandonFrame_eq]

@[simp] theorem State.defective_pending (s : State) : s.defective.pending = s.pending := s.abandonFrame_pending .framing

@[simp] theorem State.completeFrame_pending (s : State) (got : List Byte) : (s.completeFrame got).pending = s.pending := by
  fun_cases State.completeFrame s got <;> simp

@[simp] theorem State.receive_pending (s : State) (b : Byte) : (s.receive b).pending = s.pending := by
  fun_cases State.receive s b <;> simp

@[simp] theorem State.edge_pending (s : State) (edge : LinkEdge) : (s.edge edge).pending = s.pending := by
  fun_cases State.edge s edge <;> simp +zetaDelta

@[simp] theorem State.deviceReset_pending (s : State) (rstn : Level) : (s.deviceReset rstn).pending = s.pending := rfl

@[simp] theorem State.sendBeacon_pending (s : State) (f : FieldId) : (s.sendBeacon f).pending = s.pending := by
  rw [State.sendBeacon_eq]

@[simp] theorem State.sendVerdict_pending (s : State) (v : Verdict) : (s.sendVerdict v).pending = s.pending := by
  fun_cases State.sendVerdict s v <;> rfl

@[simp] theorem State.sendDrive_pending (s : State) (i : SlotId) : (s.sendDrive i).pending = s.pending := by
  fun_cases State.sendDrive s i <;> rfl

@[simp] theorem State.sendReply_pending (s : State) (r : Reply) : (s.sendReply r).pending = s.pending := rfl

@[simp] theorem State.sendNotice_pending (s : State) (n : Notice) : (s.sendNotice n).pending = s.pending := rfl

@[simp] theorem State.sendTell_pending (s : State) (f : Frame) : (s.sendTell f).pending = s.pending := rfl

/-! ### Frames at the Traffic Gate -/

@[simp] theorem State.refresh_pending (s : State) (i : SlotId) (radio : Radio) : (s.refresh i radio).pending = s.pending := by
  fun_cases State.refresh s i radio <;> rfl

@[simp] theorem State.holdDrive_pending (s : State) (i : SlotId) (f : Frame) : (s.holdDrive i f).pending = s.pending := by
  fun_cases State.holdDrive s i f <;> rfl

@[simp] theorem State.budgetTell_pending (s : State) (i : SlotId) (f : Frame) : (s.budgetTell i f).pending = s.pending := by
  fun_cases State.budgetTell s i f <;> rfl

@[simp] theorem State.claimPayload_pending (s : State) (i : SlotId) (p : List Byte) :
    (s.claimPayload i p).pending = s.pending := (BusKeeps.claimPayload s i p).pending

@[simp] theorem State.releasePayload_pending (s : State) (i : SlotId) (p : List Byte) :
    (s.releasePayload i p).pending = s.pending := (BusKeeps.releasePayload s i p).pending

/-- A robot's frame is dropped, or handed on to what leaves the queue alone (R31). -/
theorem State.takeRobot_pending (s : State) (i : SlotId) (radio : Radio) (f : Frame) {act : State → State}
    (ha : ∀ t, (act t).pending = t.pending) : (s.takeRobot i radio f act).pending = s.pending := by
  fun_cases State.takeRobot s i radio f act <;> simp +zetaDelta [ha]

@[simp] theorem State.passSilence_pending (s : State) (i : SlotId) : (s.passSilence i).pending = s.pending := by
  fun_cases State.passSilence s i <;> simp [(BusKeeps.markSilent _ i).pending]

@[simp] theorem State.expireHold_pending (s : State) (e : ElementId) : (s.expireHold e).pending = s.pending := by
  fun_cases State.expireHold s e <;> simp [(ArbiterKeeps.endHold s e _).pending]

/-! ### The Match Sequencer and the Referee Line Unit -/

@[simp] theorem State.enterPhase_pending (s : State) (f : FieldId) (dest : Phase × Nat) :
    (s.enterPhase f dest).pending = s.pending := (FieldKeeps.enterPhase f s dest).pending

@[simp] theorem State.expireInto_pending (s : State) (f : FieldId) (dest : Phase × Nat) :
    (s.expireInto f dest).pending = s.pending := (FieldKeeps.expireInto f s dest).pending

@[simp] theorem State.expireMatch_pending (s : State) (f : FieldId) : (s.expireMatch f).pending = s.pending :=
  State.expireInto_pending _ f _

@[simp] theorem State.stopField_pending (s : State) (f : FieldId) (c : StopCause) : (s.stopField f c).pending = s.pending :=
  (FieldKeeps.stopField f s c).pending

@[simp] theorem State.resumeField_pending (s : State) (f : FieldId) (source : ResumeSource) :
    (s.resumeField f source).pending = s.pending := rfl

@[simp] theorem State.abortMatch_pending (s : State) (f : FieldId) : (s.abortMatch f).pending = s.pending :=
  (FieldKeeps.abortMatch s f).pending

@[simp] theorem State.toIdle_pending (s : State) (f : FieldId) : (s.toIdle f).pending = s.pending := by
  rw [(Idled.toIdle s f).frame]

@[simp] theorem State.placeAll_pending (s : State) (f : FieldId) (l : Table 6 (Option SlotId)) :
    (s.placeAll f l).pending = s.pending :=
  State.foldl_pending (fun s k => by split <;> rfl) _ s

@[simp] theorem State.loadMatch_pending (s : State) (f : FieldId) (m : MatchRecord) : (s.loadMatch f m).pending = s.pending := by
  fun_cases State.loadMatch s f m <;> simp +zetaDelta [(FieldKeeps.announcePhase f _ _ _).pending]

@[simp] theorem State.setSlotFlag_pending (s : State) (i : SlotId) (f : FieldId) (r : Reason) (g : Slot → Slot) :
    (s.setSlotFlag i f r g).pending = s.pending := (FieldKeeps.setSlotFlag s i f r g).pending

@[simp] theorem State.takeSample_pending (s : State) (pins : Table 16 Level) : (s.takeSample pins).pending = s.pending :=
  (SampleTaken.takeSample s pins).pending

@[simp] theorem State.changePin_pending (s : State) (n : LineId) (v : Level) : (s.changePin n v).pending = s.pending := by
  obtain ⟨-, -, h⟩ := s.changePin_keeps n v
  exact (State.settle_pending _).symm.trans h.pending

/-! ### The Element Bus Master and the Score Tally -/

@[simp] theorem State.changePresence_pending (s : State) (e : ElementId) (p : Presence) :
    (s.changePresence e p).pending = s.pending := (BusKeeps.changePresence s e p).pending

@[simp] theorem State.passActionLimit_pending (s : State) (e : ElementId) : (s.passActionLimit e).pending = s.pending :=
  (BusKeeps.passActionLimit s e).pending

@[simp] theorem State.takeReport_pending (s : State) (e : ElementId) (k : EventKind) (count : Nat) :
    (s.takeReport e k count).pending = s.pending := by
  fun_cases State.takeReport s e k count
  case case1 => rfl
  case case2 l _ => fun_cases State.judgeReport (s.countReport e count) e l k count <;> rfl

@[simp] theorem State.takeReports_pending (s : State) (e : ElementId) (bytes : List Byte) :
    (s.takeReports e bytes).pending = s.pending :=
  State.foldl_pending (fun s b => by simp) bytes s

theorem State.fetchAnswered_pending (s : State) (e : ElementId) (st : Status) (payload : List Byte) :
    (s.fetchAnswered e st payload).pending = s.pending := by
  cases st with
  | ok | more => exact s.takeReports_pending e payload
  | fault => exact (BusKeeps.becomeFaulted s e .fault).pending
  | hold | done | retry | reject => rfl

/-- Only a FETCH brings reports; every other answer is within `BusKeeps` (R137). -/
theorem State.answered_pending (s : State) (e : ElementId) (l : Loaded) (c : BusCommand) (st : Status) (payload : List Byte) :
    (s.answered e l c st payload).pending = s.pending := by
  by_cases hc : c = .fetch
  · subst hc
    exact (State.ite_pending _ _ _).trans (by rw [State.fetchAnswered_pending, ite_self])
  · exact (BusKeeps.answered s e l c st payload hc).pending

@[simp] theorem State.endTransaction_pending (s : State) (t : Transaction) (o : BusOutcome) :
    (s.endTransaction t o).pending = s.pending := by
  fun_cases State.endTransaction s t o
  case case1 => rfl
  case case2 st payload =>
    fun_cases State.actOnAnswer s.restPair t.element t.command st payload
    · rfl
    · exact State.answered_pending _ _ _ _ _ _
  all_goals exact (BusKeeps.actOnMiss _ _ _).pending

@[simp] theorem State.answerReceived_pending (s : State) (t : Transaction) (chars : List BusChar) (c : BusChar) :
    (s.answerReceived t chars c).pending = s.pending := by
  fun_cases State.answerReceived s t chars c <;> simp

@[simp] theorem State.answerEdge_pending (s : State) (t : Transaction) (chars : List BusChar) (ev : AnswerEvent) :
    (s.answerEdge t chars ev).pending = s.pending := by
  fun_cases State.answerEdge s t chars ev <;> simp

@[simp] theorem State.completeAnswer_pending (s : State) (k : BusCommand) (edge : BusEdge) :
    (s.completeAnswer k edge).pending = s.pending := by
  fun_cases State.completeAnswer s k edge <;> simp

/-! ### Tables, timings, and the end of STARTING -/

@[simp] theorem State.writeEntry_pending (s : State) (e : ElementId) (l : Option Loaded) :
    (s.writeEntry e l).pending = s.pending := rfl

@[simp] theorem State.loadStationEntry_pending (s : State) (new : Station) : (s.loadStationEntry new).pending = s.pending := by
  fun_cases State.loadStationEntry s new <;> rfl

@[simp] theorem State.writeTimings_pending (s : State) (t : Timing) : (s.writeTimings t).pending = s.pending :=
  ((BusKeeps.silenceTests _).trans (.settle _)).pending

@[simp] theorem State.endStarting_pending (s : State) (image : List Byte) (fill : Byte) :
    (s.endStarting image fill).pending = s.pending := by
  have hstart (t : State) (entries : List (List Byte)) (valid : Bool) (skipped : Nat) :
      ((t.loadEntries entries).1.leaveStarting valid skipped).pending = t.pending := by
    rw [State.leaveStarting_eq, State.loadEntries, State.applyEntries_over t t]
  fun_cases State.endStarting s image fill <;> simp +zetaDelta [hstart, State.applyHead_eq]

end Sys2Proof.Machine
end

section
/-! SUPPORT. Every row answers a next state and leaves the queue of waiting commands as it is, and a step runs the front
command of that queue. -/

namespace Sys2Proof.Machine

open Sys2Proof

/-- A command's rule refuses, or answers DONE with a state whose queue of waiting commands is `q` (R179). -/
inductive AnswerLeaves (q : List Instr) : Answer → Prop
  | error (r : ReplyReason) : AnswerLeaves q (.error r)
  | ok {t : State} (h : t.pending = q) (data : List Byte) : AnswerLeaves q (.ok (t, data))

@[simp] theorem answerLeaves_error (q : List Instr) (r : ReplyReason) : AnswerLeaves q (.error r) := .error r

@[simp] theorem answerLeaves_ok {q : List Instr} {t : State} {data : List Byte} :
    AnswerLeaves q (.ok (t, data)) ↔ t.pending = q :=
  ⟨fun h => by cases h; assumption, fun h => .ok h data⟩

/-- The Management Agent disposes of a frame without touching the queue, when the command's rule does not (R178, R179). -/
theorem State.dispose_pending (s : State) (f : Frame) (code : Byte) {run : State → Answer}
    (hr : ∀ t, AnswerLeaves t.pending (run t)) : (s.dispose f code run).pending = s.pending := by
  fun_cases State.dispose s f code run
  case case3 =>
    generalize hx : run s.popStore = x
    obtain r | ⟨h, data⟩ := hx ▸ hr s.popStore
    · rfl
    · exact h
  all_goals rfl

/-- A MANAGE command's row is its rule, run on the operands of the head frame (R178, R179). -/
theorem State.command_pending (s : State) (code : Byte) (n : Nat) {run : State → List Byte → Answer}
    (hr : ∀ t ops, AnswerLeaves t.pending (run t ops)) : (s.command code n run).pending = s.pending := by
  fun_cases State.command s code n run
  case case3 =>
    refine s.dispose_pending _ _ fun t => ?_
    split
    · exact hr t _
    · exact .error _
  all_goals rfl

theorem AnswerLeaves.onField {s : State} {run : State → FieldId → Answer} (hr : ∀ f, AnswerLeaves s.pending (run s f))
    (ops : List Byte) : AnswerLeaves s.pending (onField s run ops) := by
  fun_cases Machine.onField s run ops <;> simp [hr]

/-- A MANAGE command's row answers a next state with the queue as it was: along each branch its rule refuses, or calls procedures
that leave the queue alone. -/
theorem exec_manage_pending {c : Instr} (hc : c ∈ commandTable.map Prod.fst) (s : State) :
    ∃ t, exec c s = .next t ∧ t.pending = s.pending := by
  cases c
  case commission => exact ⟨_, rfl, s.command_pending _ _ fun t ops => by fun_cases runCommission t ops <;> simp⟩
  case decommission => exact ⟨_, rfl, s.command_pending _ _ fun t ops => by fun_cases runDecommission t ops <;> simp⟩
  case restart => exact ⟨_, rfl, s.command_pending _ _ fun t ops => by fun_cases runRestart t ops <;> simp⟩
  case loadStation => exact ⟨_, rfl, s.command_pending _ _ fun t ops => by fun_cases runLoadStation t ops <;> simp⟩
  case clearStation =>
    exact ⟨_, rfl, s.command_pending _ _ fun t ops => by
      fun_cases runClearStation t ops <;> simp +zetaDelta [State.toPrimary]⟩
  case loadSlot => exact ⟨_, rfl, s.command_pending _ _ fun t ops => by fun_cases runLoadSlot t ops <;> simp⟩
  case clearSlot => exact ⟨_, rfl, s.command_pending _ _ fun t ops => by fun_cases runClearSlot t ops <;> simp⟩
  case loadMatch => exact ⟨_, rfl, s.command_pending _ _ fun t ops => by fun_cases runLoadMatch t ops <;> simp⟩
  case start => exact ⟨_, rfl, s.command_pending _ _ fun t => .onField fun f => by fun_cases runStart t f <;> simp⟩
  case stop => exact ⟨_, rfl, s.command_pending _ _ fun t => .onField fun f => by fun_cases runStop t f <;> simp⟩
  case resume => exact ⟨_, rfl, s.command_pending _ _ fun t => .onField fun f => by fun_cases runResume t f <;> simp⟩
  case abort => exact ⟨_, rfl, s.command_pending _ _ fun t => .onField fun f => by fun_cases runAbort t f <;> simp⟩
  case commit => exact ⟨_, rfl, s.command_pending _ _ fun t => .onField fun f => by fun_cases runCommit t f <;> simp⟩
  case resetMatch =>
    exact ⟨_, rfl, s.command_pending _ _ fun t => .onField fun f => by fun_cases runResetMatch t f <;> simp⟩
  case disableSlot => exact ⟨_, rfl, s.command_pending _ _ fun t ops => by fun_cases runDisableSlot t ops <;> simp⟩
  case bypassSlot => exact ⟨_, rfl, s.command_pending _ _ fun t ops => by fun_cases runBypassSlot t ops <;> simp⟩
  case loadLine => exact ⟨_, rfl, s.command_pending _ _ fun t ops => by fun_cases runLoadLine t ops <;> simp⟩
  case clearLineFlags => exact ⟨_, rfl, s.command_pending _ _ fun t ops => by fun_cases runClearLineFlags t ops <;> simp⟩
  case loadElement => exact ⟨_, rfl, s.command_pending _ _ fun t ops => by fun_cases runLoadElement t ops <;> simp⟩
  case clearElementEntry =>
    exact ⟨_, rfl, s.command_pending _ _ fun t ops => by fun_cases runClearElementEntry t ops <;> simp⟩
  case clearElementFault =>
    exact ⟨_, rfl, s.command_pending _ _ fun t ops => by
      fun_cases runClearElementFault t ops <;> simp [(BusKeeps.setMisses _ _ _).pending]⟩
  case loadScoreRule => exact ⟨_, rfl, s.command_pending _ _ fun t ops => by fun_cases runLoadScoreRule t ops <;> simp⟩
  case penalty => exact ⟨_, rfl, s.command_pending _ _ fun t ops => by fun_cases runPenalty t ops <;> simp +zetaDelta⟩
  case correct => exact ⟨_, rfl, s.command_pending _ _ fun t ops => by fun_cases runCorrect t ops <;> simp +zetaDelta⟩
  case setTiming => exact ⟨_, rfl, s.command_pending _ _ fun t ops => by fun_cases runSetTiming t ops <;> simp⟩
  case busPause => exact ⟨_, rfl, s.command_pending _ _ fun t ops => by fun_cases runBusPause t ops <;> simp⟩
  case busResume => exact ⟨_, rfl, s.command_pending _ _ fun t ops => by fun_cases runBusResume t ops <;> simp⟩
  case read => exact ⟨_, rfl, s.command_pending _ _ fun t ops => by fun_cases runRead t ops <;> simp⟩
  case readNext => exact ⟨_, rfl, s.command_pending _ _ fun t ops => by fun_cases runReadNext t ops <;> simp⟩
  all_goals simp [commandTable] at hc

/-- Settles O1: the queue's first entry decides which branch of `step` is taken. -/
theorem stepRunsFrontCommand : Obligations.StepRunsFrontCommand := by
  intro c s rest h
  rw [step, h]

/-- Settles O2: along each branch of its definition a row answers what the procedures of the part make of the state, and none
of them touches the queue. -/
theorem everyCommandKeepsTheQueue : Obligations.EveryCommandKeepsTheQueue := by
  intro c s
  cases c
  case commission | decommission | restart | loadStation | clearStation | loadSlot | clearSlot | loadMatch | start | stop |
      resume | abort | commit | resetMatch | disableSlot | bypassSlot | loadLine | clearLineFlags | loadElement |
      clearElementEntry | clearElementFault | loadScoreRule | penalty | correct | setTiming | busPause | busResume | read |
      readNext => exact exec_manage_pending (by decide) s
  case deviceReset rstn => exact ⟨_, rfl, s.deviceReset_pending rstn⟩
  case truncated => exact ⟨_, rfl, s.abandonFrame_pending _⟩
  case holdExpiry e => exact ⟨_, rfl, s.expireHold_pending e⟩
  case silentTimeout i => exact ⟨_, rfl, s.passSilence_pending i⟩
  case probeAnswer edge | actuateAnswer edge | actionPollAnswer edge | sensorPollAnswer edge | fetchAnswer edge |
      safeAnswer edge => exact ⟨_, rfl, s.completeAnswer_pending _ edge⟩
  case autoExpiry f => exact ⟨_, rfl, by simp [State.expireAuto]⟩
  case pauseExpiry f => exact ⟨_, rfl, by simp [State.expirePause]⟩
  case endgameBoundary f => exact ⟨_, rfl, by simp [State.crossBoundary]⟩
  case endOfStarting | framing | matchEndExpiry | postGraceEnd | budgetTick | beaconPeriod | lineSample |
      unfilteredLineChange | actionLimit | resendCountdown | actionPollCountdown | sensorCountdown | probeCountdown |
      characterReceived => exact ⟨_, rfl, by simp⟩
  all_goals simp only [exec]
  case frameComplete check => fun_cases execFrameComplete check s <;> simp
  case overlong length => fun_cases execOverlong length s <;> simp
  case startingFrame => fun_cases execStartingFrame s <;> simp
  case droppedFrame => fun_cases execDroppedFrame s <;> simp [State.takeRobot_pending]
  case drive => fun_cases execDrive s <;> simp
  case tell => fun_cases execTell s <;> simp [State.takeRobot_pending]
  case claim => fun_cases execClaim s <;> simp [State.takeRobot_pending]
  case release => fun_cases execRelease s <;> simp [State.takeRobot_pending]
  case unknownCommand => fun_cases execUnknownCommand s <;> simp [State.dispose_pending]
  case takeBeacon => fun_cases execTakeBeacon s <;> simp
  case takeVerdict => fun_cases execTakeVerdict s <;> simp
  case takeDrive => fun_cases execTakeDrive s <;> simp
  case takeReply => fun_cases execTakeReply s <;> simp
  case takeNotice => fun_cases execTakeNotice s <;> simp
  case takeTell => fun_cases execTakeTell s <;> simp
  case frameSent => fun_cases execFrameSent s <;> simp
  case transmitterFree => fun_cases execTransmitterFree s <;> simp
  case busRestEnd => fun_cases execBusRestEnd s <;> simp
  case masterFrameEnd => fun_cases execMasterFrameEnd s <;> simp
  case answerWindowExpiry => fun_cases execAnswerWindowExpiry s <;> simp
  case answerCutOff => fun_cases execAnswerCutOff s <;> simp
  case answerCharacter ev => fun_cases execAnswerCharacter ev s <;> simp

end Sys2Proof.Machine
end
